-- ==== Sys2Proof/Word.lean ====
section
/-!
DEFINITION. The words of the machine and their plainest arithmetic (00 R2, 06 R83): bytes, 32-bit lane words, 64-bit pairs,
128-bit instruction words, lane masks.
-/
namespace Sys2Proof

/-- One byte of memory. -/
abbrev Byte := BitVec 8

/-- One 32-bit register, or one lane of a vector register (R83). -/
abbrev Word := BitVec 32

/-- One 64-bit value: an even:odd register pair, an address (R85). -/
abbrev DWord := BitVec 64

/-- One instruction word (R135). -/
abbrev IWord := BitVec 128

/-- One bit a lane: a mask of lanes, or a p register (R83, R191). -/
abbrev Mask := BitVec 32

/-- Bits `hi` down to `lo` of a number (R2: both ends inclusive). -/
def bitsOf (w hi lo : Nat) : Nat := w / 2 ^ lo % 2 ^ (hi - lo + 1)

/-- The signed value of the low `w` bits of `n` (two's complement). -/
def signedOf (n w : Nat) : Int :=
  let m := n % 2 ^ w
  if m < 2 ^ (w - 1) then (m : Int) else (m : Int) - 2 ^ w

/-- The low `w` bits of an exact integer. -/
def wrapTo (x : Int) (w : Nat) : Nat := (x % (2 ^ w : Int)).toNat

end Sys2Proof
end

