-- ==== Sys2Proof/Syntax.lean ====
section
/-!
DEFINITION. The steps of the part, whole: one constructor of `Instr` for each row of spec/opcode_table.json. The 143 KIS-3
instructions carry the fields of their word (09 R135 to R144) already read as names; the hinge core's instructions carry theirs
(03 R45 to R47); an event of the part carries what its agent, the host or the surroundings choose.
-/
namespace Sys2Proof

/-! ## Fields shared by the instruction words -/

/-- A 10-bit operand field (R137): a vector register, a scalar or special index, a class register, an 8-bit immediate. -/
inductive Operand where
  | vec (n : BitVec 8)
  | sca (n : BitVec 8)
  | cls (k i : BitVec 4)
  | imm (v : BitVec 8)
deriving DecidableEq, Repr, Inhabited

/-- A map field (R139). -/
inductive MapSel where
  | none
  | user (c : Fin 16)
  | rev
  | xor (k : Fin 5)
  | rot (k : Fin 31)
  | sum (k : Fin 4)
  | bcast0
  | illegal (k : Fin 5)
deriving DecidableEq, Repr, Inhabited

/-- A guard field (R140). -/
structure Guard where
  neg : Bool
  qs : Bool
  idx : BitVec 3
deriving DecidableEq, Repr, Inhabited

/-- Rounding modes RNE, RZ, RD and RU (R142). -/
inductive Rm where
  | rne | rz | rd | ru
deriving DecidableEq, Repr, Inhabited

/-- The parts every instruction word has (R135, R142, R144): the stop marker and yield hint, the operand fields, the maps, the
guards, the hint, the common modifiers, and the wide immediate when I32 is set. -/
structure Ops where
  stop : Bool
  yieldHint : Bool
  d : Operand
  a : Operand
  b : Operand
  c : Operand
  e : Operand
  ma : MapSel
  mb : MapSel
  mc : MapSel
  g1 : Guard
  g2 : Guard
  h : BitVec 4
  lv : Bool
  ftz : Bool
  rm : Rm
  imm : Option Word
deriving DecidableEq, Repr, Inhabited

/-- The format codes of R92; codes 0x18 to 0x1F name no format. -/
inductive Fmt where
  | b32 | f32 | f16 | bf16 | e4m3 | e5m2 | e2m1 | i8 | u8 | i16 | u16 | i32 | u32 | i4g | i3g | e2m1g
  | b64 | i64 | u64 | h2 | bf2 | q4e4 | q4e5 | s24
  | unused (k : Fin 8)
deriving DecidableEq, Repr, Inhabited

/-- Integer types (R163). -/
inductive IntTy where
  | i32 | u32 | i64 | u64
deriving DecidableEq, Repr, Inhabited

/-- Integer conditions (R163). -/
inductive ICond where
  | eq | ne | lt | le | gt | ge
deriving DecidableEq, Repr, Inhabited

/-- Floating conditions (R174). -/
inductive FCond where
  | eq | ne | lt | le | gt | ge | num | nan
deriving DecidableEq, Repr, Inhabited

/-- Packed forms (R179). -/
inductive PackFmt where
  | h2 | bf2 | q4e4 | q4e5
deriving DecidableEq, Repr, Inhabited

/-- The formats QSCALE scales to (R188). -/
inductive QFmt where
  | e4m3 | e5m2 | e2m1
deriving DecidableEq, Repr, Inhabited

/-- Segment widths of SHFL (R201). -/
inductive SegW where
  | w32 | w16 | w8 | w4
deriving DecidableEq, Repr, Inhabited

/-- Modes of VOTE (R201). -/
inductive VoteMode where
  | all | any | uni | ballot
deriving DecidableEq, Repr, Inhabited

/-- Index scales ×1 to ×16 (R204). -/
inductive Scale where
  | x1 | x2 | x4 | x8 | x16
deriving DecidableEq, Repr, Inhabited

/-- SEM of a memory access (R204). -/
inductive Sem where
  | weak | strong | ordered
deriving DecidableEq, Repr, Inhabited

/-- The modifiers of an addressing form (R204): OPM and X. -/
structure MemMode where
  fmt : Fmt
  sc : Scale
  sem : Sem
  sat : Bool
  disp : BitVec 13
deriving DecidableEq, Repr, Inhabited

/-- Operations of the atomics (R213). -/
inductive AtomOp where
  | add | min | max | and | or | xor | swap | cas | inc
deriving DecidableEq, Repr, Inhabited

/-- Types of the atomics (R213). -/
inductive AtomTy where
  | i32 | u32 | i64 | u64 | f32 | h2 | bf2
deriving DecidableEq, Repr, Inhabited

/-- The modifiers of an atomic (R213). -/
structure AtomMode where
  op : AtomOp
  ty : AtomTy
  sc : Scale
  acq : Bool
  rel : Bool
  disp : BitVec 12
deriving DecidableEq, Repr, Inhabited

/-- Scopes of a fence (R212). -/
inductive Scope where
  | grp | team | clu | dev | sys
deriving DecidableEq, Repr, Inhabited

/-- Operations of a join (R118). -/
inductive JoinOp where
  | intersect | union | diff
deriving DecidableEq, Repr, Inhabited

/-! ## The hinge core's ordinary instructions (R36, R37): RV64IMAC with Zicsr -/

inductive RvBranch where
  | beq | bne | blt | bge | bltu | bgeu
deriving DecidableEq, Repr, Inhabited

inductive RvLoad where
  | lb | lh | lw | ld | lbu | lhu | lwu
deriving DecidableEq, Repr, Inhabited

inductive RvStore where
  | sb | sh | sw | sd
deriving DecidableEq, Repr, Inhabited

/-- Register operations, also the immediate forms of those that have one. -/
inductive RvAlu where
  | add | sub | sll | slt | sltu | xor | srl | sra | or | and
deriving DecidableEq, Repr, Inhabited

/-- 32-bit register operations. -/
inductive RvAluW where
  | addw | subw | sllw | srlw | sraw
deriving DecidableEq, Repr, Inhabited

inductive RvMul where
  | mul | mulh | mulhsu | mulhu | div | divu | rem | remu | mulw | divw | divuw | remw | remuw
deriving DecidableEq, Repr, Inhabited

inductive RvAmo where
  | swap | add | xor | and | or | min | max | minu | maxu
deriving DecidableEq, Repr, Inhabited

inductive RvCsr where
  | rw | rs | rc
deriving DecidableEq, Repr, Inhabited

/-- One ordinary instruction. `illegal` is every word R37 and R45 abort with reason ILLEGAL. -/
inductive Rv where
  | lui (rd : BitVec 5) (imm : BitVec 20)
  | auipc (rd : BitVec 5) (imm : BitVec 20)
  | jal (rd : BitVec 5) (imm : BitVec 21)
  | jalr (rd rs1 : BitVec 5) (imm : BitVec 12)
  | branch (op : RvBranch) (rs1 rs2 : BitVec 5) (imm : BitVec 13)
  | load (op : RvLoad) (rd rs1 : BitVec 5) (imm : BitVec 12)
  | store (op : RvStore) (rs1 rs2 : BitVec 5) (imm : BitVec 12)
  | aluImm (op : RvAlu) (rd rs1 : BitVec 5) (imm : BitVec 12)
  | alu (op : RvAlu) (rd rs1 rs2 : BitVec 5)
  | aluImmW (op : RvAluW) (rd rs1 : BitVec 5) (imm : BitVec 12)
  | aluW (op : RvAluW) (rd rs1 rs2 : BitVec 5)
  | mul (op : RvMul) (rd rs1 rs2 : BitVec 5)
  | fence
  | csr (op : RvCsr) (useImm : Bool) (rd src : BitVec 5) (num : BitVec 12)
  | lr (wide : Bool) (rd rs1 : BitVec 5)
  | sc (wide : Bool) (rd rs1 rs2 : BitVec 5)
  | amo (op : RvAmo) (wide : Bool) (rd rs1 rs2 : BitVec 5)
  | illegal
deriving DecidableEq, Repr, Inhabited

/-- The 64-bit operations of hl.atomic (R47). -/
inductive HlOp where
  | add | and | or | xor | swap | cas | min | max | minu | maxu
deriving DecidableEq, Repr, Inhabited

/-! ## What an event of the part names -/

/-- A split: its core, its team, its group within the team, and the split within the group (R191, R246). -/
structure SplitRef where
  core : Nat
  team : Nat
  grp : Nat
  split : Nat
deriving DecidableEq, Repr, Inhabited

/-- Where a line has its home (R25): a slice, a pinned slice too; the pinned window of a core; a slice that does not allocate;
another package; the host. -/
inductive HomeLoc where
  | slice (n : Nat)
  | window (core : Nat)
  | direct (slice : Nat)
  | remote (dev : Nat)
  | host
deriving DecidableEq, Repr, Inhabited

/-- How a remote or host access was answered (R275, R310, R315, R316), and how a read of this package's own storage ended. -/
inductive Answer where
  | ok | access | memoryError
deriving DecidableEq, Repr, Inhabited

/-- The values CREATE_VF fixes (R311, R244): of each ring its base, its LOGN, and where in host memory its control block stands. `memory`
lists the ranges of the package's memory that are the function's, first MiB and MiB count, `secret` is what its SPDM session exported
(R306). -/
structure VfConfig where
  id : Nat
  cores : List Nat
  shared : Bool
  memMiB : Nat
  root : Nat
  hingeSlot : Option Nat
  lease : Nat
  pinnedKiB : Nat
  features : BitVec 4
  descBase : Nat
  revid : Word
  eventBase : Nat
  eventLogn : Nat
  faultBase : Nat
  faultLogn : Nat
  dirtyBase : Nat
  dirtyLogn : Nat
  eventBlock : Nat
  faultBlock : Nat
  dirtyBlock : Nat
  commandBlock : Nat
  stallLimit : Nat
  stallTraps : Bool
  quantum : Nat
  signKeys : List (List Byte)
  memory : List (Nat × Nat)
  secret : List Byte
deriving DecidableEq, Repr, Inhabited

/-- What the loader chooses for a code object and its layout does not say (R301): where its bytes lie in the package's memory, where its
kernels are mapped, which of its bytes are the `.data` and the `.rodata`, and the DLE that the hypervisor has set for the function's
memory. -/
structure LoadPlan where
  textVa : Nat
  textPa : Nat
  dataVa : Nat
  dataPa : Nat
  dataOff : Nat
  dataLen : Nat
  roVa : Nat
  roPa : Nat
  roOff : Nat
  roLen : Nat
  dle : Bool
deriving DecidableEq, Repr, Inhabited

/-- What a request from outside asks for of one sector (R310, R315): a read, a write of bytes and half-bytes at offsets in the sector (R81,
R82), an atomic operation on a 32- or 64-bit word, items of an ENQ. -/
inductive RemoteOp where
  | read
  | write (bytes : List (Nat × Byte)) (halves : List (Nat × Bool × BitVec 4))
  | atomic (op : AtomOp) (ty : AtomTy) (c e : DWord)
  | enq (items : List (List Byte))
deriving DecidableEq, Repr, Inhabited

/-- A unit of the part that aging or errors can touch (R317). -/
inductive PartUnit where
  | coreSite (die site : Nat)
  | sliceSite (die site : Nat)
  | dramRow (die channel row : Nat)
  | dramBank (die channel bank : Nat)
  | dramChannel (die channel : Nat)
  | fabricLane (port lane : Nat)
deriving DecidableEq, Repr, Inhabited

/-- The trap registers (R285). -/
inductive TrapReg where
  | tcode | tepc | taddrLow | taddrHigh | tlane
deriving DecidableEq, Repr, Inhabited

/-- What a debugger reads or writes of a halted team (R295), and a byte of the context frame of a saved one, which the host reads (R292). -/
inductive CtxItem where
  | vreg (grp reg lane : Nat)
  | sreg (grp reg : Nat)
  | preg (grp reg : Nat)
  | qreg (grp reg : Nat)
  | breg (grp reg : Nat) (high : Bool)
  | scratchByte (off : Nat)
  | trapReg (grp : Nat) (r : TrapReg)
  | frameByte (off : Nat)
deriving DecidableEq, Repr, Inhabited

/-! ## The instructions and events -/

/-- The steps of the part, one constructor for each row of the table. -/
inductive Instr where
  -- control (R192)
  | nop (o : Ops)
  | if_ (o : Ops) (neg : Bool) (disp : BitVec 14)
  | else_ (o : Ops) (disp : BitVec 14)
  | endif (o : Ops)
  | loop (o : Ops) (disp : BitVec 14)
  | endloop (o : Ops)
  | break_ (o : Ops) (neg : Bool)
  | cont (o : Ops) (neg : Bool)
  | jmp (o : Ops) (neg : Bool)
  | call (o : Ops) (neg : Bool)
  | ret (o : Ops) (neg : Bool)
  | exit (o : Ops)
  | yield (o : Ops) (lat : Bool) (disp : BitVec 14)
  | bar (o : Ops) (arv : Bool)
  | barc (o : Ops) (arv : Bool)
  -- integer (R163)
  | mov (o : Ops) (ty : IntTy)
  | movi (o : Ops) (ty : IntTy)
  | iadd (o : Ops) (ty : IntTy) (sat : Bool)
  | isub (o : Ops) (ty : IntTy) (sat : Bool)
  | imul (o : Ops) (ty : IntTy)
  | imad (o : Ops) (ty : IntTy)
  | imulhi (o : Ops) (ty : IntTy)
  | imin (o : Ops) (ty : IntTy)
  | imax (o : Ops) (ty : IntTy)
  | iabs (o : Ops) (ty : IntTy) (sat : Bool)
  | ineg (o : Ops) (ty : IntTy) (sat : Bool)
  | lea64 (o : Ops) (sh : Fin 5) (zx : Bool)
  | iset (o : Ops) (cond : ICond) (ty : IntTy)
  | sel (o : Ops) (ty : IntTy)
  | plop (o : Ops) (lut : BitVec 8)
  -- bit (R169)
  | and (o : Ops) (w : Bool)
  | or (o : Ops) (w : Bool)
  | xor (o : Ops) (w : Bool)
  | not (o : Ops) (w : Bool)
  | shl (o : Ops) (w : Bool)
  | shr (o : Ops) (w : Bool)
  | sar (o : Ops) (w : Bool)
  | bfx (o : Ops) (w sx : Bool)
  | bfi (o : Ops) (w : Bool)
  | popc (o : Ops) (w : Bool)
  | clz (o : Ops) (w : Bool)
  | brev (o : Ops) (w : Bool)
  -- FP32 (R171)
  | fadd (o : Ops)
  | fsub (o : Ops)
  | fmul (o : Ops)
  | ffma (o : Ops)
  | fmin (o : Ops)
  | fmax (o : Ops)
  | fmaxx (o : Ops)
  | fminx (o : Ops)
  | fabs (o : Ops)
  | fneg (o : Ops)
  | fset (o : Ops) (cond : FCond)
  | frnd (o : Ops)
  -- special functions (R176)
  | frcp (o : Ops)
  | frsq (o : Ops)
  | fsqrt (o : Ops)
  | fex2 (o : Ops)
  | flg2 (o : Ops)
  | fsin (o : Ops)
  | fcos (o : Ops)
  | ftanh (o : Ops)
  | hrnd (o : Ops)
  -- packed (R179)
  | padd (o : Ops) (pf : PackFmt) (sat : Bool)
  | psub (o : Ops) (pf : PackFmt) (sat : Bool)
  | pmul (o : Ops) (pf : PackFmt) (sat : Bool)
  | pfma (o : Ops) (pf : PackFmt) (sat : Bool)
  | pmin (o : Ops) (pf : PackFmt)
  | pmax (o : Ops) (pf : PackFmt)
  | pset (o : Ops) (pf : PackFmt) (cond : FCond) (any : Bool)
  | pdot (o : Ops) (pf : PackFmt) (sat : Bool)
  -- conversion (R183 to R188)
  | cvt (o : Ops) (dst src : Fmt) (sat : Bool)
  | pack2 (o : Ops) (bf sat : Bool)
  | pack4 (o : Ops) (e5 sat : Bool)
  | unpk (o : Ops) (pf : PackFmt)
  | fkey (o : Ops) (half : Bool)
  | sprune (o : Ops) (bf : Bool)
  | qscale (o : Ops) (q : QFmt)
  -- lanes and cams (R201)
  | cambind (o : Ops) (tm : Bool) (fmt : Fmt) (wel : Bool) (sin : PackFmt)
  | camBindComplete (core team entry : Nat) (err : Bool)
  | camwait (o : Ops)
  | camfree (o : Ops) (tm : Bool)
  | caminfo (o : Ops)
  | camResidencyLoad (core part team entry : Nat)
  | shfl (o : Ops) (w : SegW) (b64 : Bool)
  | lanebc (o : Ops) (b64 : Bool)
  | vote (o : Ops) (mode : VoteMode)
  | match_ (o : Ops) (b64 : Bool)
  | elect (o : Ops)
  -- memory (R206)
  | base (o : Ops)
  | ld (o : Ops) (m : MemMode)
  | st (o : Ops) (m : MemMode)
  | ldu (o : Ops) (m : MemMode)
  | stu (o : Ops) (m : MemMode)
  | lds (o : Ops) (m : MemMode)
  | sts (o : Ops) (m : MemMode)
  | pref (o : Ops) (sc : Scale) (disp : BitVec 13)
  | icpref (o : Ops)
  -- gathers and scatters (R210)
  | gld (o : Ops) (m : MemMode)
  | gst (o : Ops) (m : MemMode)
  | glds (o : Ops) (m : MemMode)
  | gsts (o : Ops) (m : MemMode)
  -- atomics and fences (R212, R213)
  | atom (o : Ops) (m : AtomMode)
  | atoms (o : Ops) (m : AtomMode)
  | atomu (o : Ops) (m : AtomMode)
  | red (o : Ops) (m : AtomMode)
  | fence (o : Ops) (scope : Scope)
  | fencew (o : Ops) (scope : Scope)
  | fenceRelease (r : SplitRef)
  -- copies and latches (R218 to R224)
  | tdld (o : Ops)
  | tdinv (o : Ops)
  | cpy (o : Ops) (x : Bool)
  | cpyw (o : Ops) (x : Bool)
  | cpyb (o : Ops) (x ds ss : Bool)
  | copyRequestStart (core : Nat)
  | copyDeliver (core req unit rest : Nat)
  | ltinit (o : Ops)
  | ltexpect (o : Ops)
  | ltarrive (o : Ops) (c : Bool)
  | ltwait (o : Ops)
  | lttest (o : Ops)
  | ltcont (o : Ops) (disp : BitVec 14)
  | ltreset (o : Ops)
  | latchContinuationStart (core team latch : Nat)
  | latchStall (core team latch : Nat)
  | tstsp (o : Ops)
  | tldsp (o : Ops)
  -- keyway (R225)
  | jdesc (o : Ops)
  | join (o : Ops) (op : JoinOp) (seg : Bool) (disp : BitVec 14)
  | jresume (o : Ops)
  | jstat (o : Ops) (w : Bool)
  | jcancel (o : Ops)
  | joinSegment (core h fall : Nat)
  | keywayGroupForm (core h : Nat)
  -- queues and work (R230)
  | enq (o : Ops) (sc : Scale) (disp : BitVec 13)
  | qsub (o : Ops) (sc : Scale) (disp : BitVec 13)
  | qunsub (o : Ops) (sc : Scale) (disp : BitVec 13)
  | tumblerDraw (core : Nat) (err : Bool)
  | heldClassPlace (core team : Nat)
  | qpop (o : Ops) (nb : Bool)
  | qpush (o : Ops) (nb : Bool)
  | spawn (o : Ops) (nb : Bool) (disp : BitVec 14)
  | ggrow (o : Ops)
  | launch (o : Ops) (args : Bool)
  | trigger (o : Ops)
  | smsg (o : Ops) (sc : Scale) (disp : BitVec 13)
  -- system (R241)
  | trap (o : Ops)
  | rett (o : Ops) (skip : Bool)
  | rdsr (o : Ops) (reg : BitVec 12)
  | wrsr (o : Ops) (reg : BitVec 12)
  | featq (o : Ops)
  | icinv (o : Ops)
  | brk (o : Ops)
  | time (o : Ops)
  -- what happens to splits
  | resultReturn (id : Nat) (ans : Answer)
  | parkedInstructionAct (r : SplitRef)
  | promotion (r : SplitRef)
  -- the hinge core (R45, R326)
  | hlLd (rd rs1 : BitVec 5) (imm : BitVec 12)
  | hlSt (rs1 rs2 : BitVec 5) (imm : BitVec 12)
  | hlAtomic (op : HlOp) (rd rs1 rs2 : BitVec 5)
  | hlInstall (rs1 rs2 : BitVec 5)
  | hlPref (rs1 : BitVec 5)
  | hlMsg (rs1 rs2 : BitVec 5)
  | hlBudget (rd : BitVec 5)
  | hlDone
  | handlerDispatch (slice : Nat)
  | hingeOverrun (slice : Nat)
  | messageArrive (id : Nat)
  -- homes (R31)
  | homeRead (req : Nat) (err : Bool)
  | homeWrite (req : Nat) (err : Bool)
  | homeStrongAccess (req : Nat) (err : Bool)
  | homeAtomic (req : Nat) (err : Bool)
  | enqPush (r : SplitRef) (err : Bool)
  | lineFill (home : HomeLoc) (line : Nat) (err : Bool)
  | lineEvict (home : HomeLoc) (line : Nat)
  | replicaInstall (id : Nat)
  | dirtyRingRoom (vf cons : Nat)
  | remoteRequest (dev vf : Nat) (host : Bool) (va : Nat) (op : RemoteOp)
  | fabricTimeout (req : Nat)
  | dramRefresh (die : Nat)
  | temperatureReport (die celsius : Nat)
  | powerThrottle
  -- command processors
  | teamPlace (grid : Nat)
  | nodeStart (graph node : Nat)
  | nodeEvaluate (graph node : Nat)
  | gridTrigger (grid : Nat)
  | gridRetire (grid : Nat)
  | preemptTeam (team : Nat)
  | teamResume (team : Nat)
  | quantumEnd (core : Nat)
  | faultRingRoom (vf cons : Nat)
  | kis1Translate (vf obj kernel : Nat)
  | icFill (core vf line : Nat) (err : Bool)
  | handlerImageInstall (vf : Nat)
  -- host commands
  | createVf (c : VfConfig)
  | destroyVf (vf : Nat)
  | resumeVf (vf : Nat)
  | loadObject (vf : Nat) (object : List Byte) (plan : LoadPlan)
  | unloadObject (vf obj : Nat)
  | submitGraph (vf base nodes : Nat) (roots : List Nat)
  | invalidate (vf lo hi : Nat)
  | invalidateComplete (id : Nat)
  | resolveRetry (vf token : Nat)
  | resolveFail (vf token : Nat)
  | readCounters (vf buf : Nat)
  | halt (team : Nat)
  | quiesce (team : Nat)
  | resume (team : Nat)
  | readContext (team : Nat) (item : CtxItem)
  | writeContext (team : Nat) (item : CtxItem) (value : Word)
  | migrateOut (vf : Nat)
  | migrateIn (vf : Nat) (offered : VfConfig) (offset : Nat) (root : Nat)
  -- the part's life
  | coldStart (reduced : Bool) (skew coreMap sliceMap : List Nat)
  | warmStart (reduced : Bool) (skew : List Nat)
  | fullServiceChange
  | onlineRowReplacement (die channel row : Nat)
  | fabricLaneRetrain (port lane : Nat)
  | deviceTimeTick
  | lostSectorClear (home : HomeLoc) (sector : Nat)
  | powerThrottleEnd
  | debuggerAttach (vf : Nat) (on : Bool)
  | hingeRiscvInstruction (len : Nat) (r : Rv)
  | unitMarkedSuspect (u : PartUnit)
deriving DecidableEq, Repr, Inhabited

/-- The rings in host memory (R73, R287, R288, R309): of a virtual function, or of the physical function. -/
inductive RingName where
  | events (vf : Nat)
  | faults (vf : Nat)
  | dirty (vf : Nat)
  | commands (vf : Nat)
  | pfEvents
  | pfCommands
deriving DecidableEq, Repr, Inhabited

/-- What the host writes of a ring's control block: the read-write fields, and 1 to OVF, which clears it (R4, R73, R287). Of a command ring,
which the host fills and the device empties, it writes PROD in place of CONS (R309). -/
inductive RingWrite where
  | base (v : Nat)
  | logn (v : Nat)
  | cons (v : Nat)
  | prod (v : Nat)
  | clearOvf
deriving DecidableEq, Repr, Inhabited

/-- What the host, its firmware and the hypervisor do of their own accord: bytes of host memory written, a control block's field written, a
control block placed (R73); a line of the fabric grant table written or taken out, a device's port in the routing table (R315; none: no
route); a firmware image put into the part's store, which verifies or does not (R318). -/
inductive HostStep where
  | memory (a : Nat) (bytes : List Byte)
  | ring (r : RingName) (w : RingWrite)
  | place (r : RingName) (block : Nat)
  | grant (dev vf own : Nat)
  | revoke (dev vf : Nat)
  | route (dev : Nat) (port : Option Nat)
  | firmware (good : Bool)
deriving DecidableEq, Repr, Inhabited

/-- Which agent moves in a step (the model's agenda): a core's partition issues an instruction, a slice's hinge core executes
one, an event of the part happens, the host does something of its own, or a unit of the part wears out, which nothing notices before
the next self-test (R317, R318). -/
inductive Turn where
  | issue (core part : Nat)
  | hinge (slice : Nat)
  | event (i : Instr)
  | host (w : HostStep)
  | wear (u : PartUnit)
deriving DecidableEq, Repr, Inhabited

end Sys2Proof
end

