-- ==== Sys2Proof/Config.lean ====
section
/-!
DEFINITION. What this model leaves free: opaque constants with no body. Nothing can be proved about the value of one, so a
statement about the model holds whatever it is. See the log entries named beside each.
-/
namespace Sys2Proof.Config

/-- A free value (00 R6: "undefined"): the draw number, which is the counter `State.fresh`, and which value of that draw (log
entry 4). -/
opaque free : Nat → Nat → Nat

/-- The turn of an agent when the agenda is empty (log entry 5). -/
opaque turn : Nat → Turn

/-- Which value of the bounds a special function returns (11 R177): a function of the operation, the input bits and FTZ, the
same on every call, as R177 asks (log entry 6). -/
opaque sfuChoice : Nat → Nat → Bool → Nat

/-- How far off the exact value an FSIN or FCOS result lies within its bounds (11 R177, log entry 6). -/
opaque sfuOffset : Nat → Nat → Bool → Nat

/-- The set of a slice that a line falls in (02 R26: not part of the architecture, log entry 14). -/
opaque setOf : Nat → Nat

/-- The L1's sets: how many ways (a power of two's exponent), and the set of a line (05 R78 gives neither, log entry 58). -/
opaque l1WayBits : Nat
opaque l1Set : Nat → Nat

/-- What the host IOMMU makes of a page of a function's host window (21 R310; log entry 61). -/
opaque iommu : (vf page : Nat) → Nat

/-- How many spare DRAM rows and banks a die has (01 R10 tells neither; log entry 78). -/
opaque spareRows : Nat
opaque spareBanks : Nat

end Sys2Proof.Config
end

