-- ==== Sys2Proof/Machine/Types.lean ====
section
/-!
DEFINITION. The records the state is made of: what a split, a group, a team, a core, a slice, an engine and the command
processors hold (02 to 05, 07, 08, 12 to 14, 18, 20, 21). Every record is plain data.
-/
namespace Sys2Proof.Machine

/-- Bytes by address, in one canonical form: addresses strictly rising, no byte listed that is zero, which an unlisted address
reads as (log entry 3). -/
abbrev Memory := List (Nat × Byte)

/-- A register that the run rules watch (R145); cam bindings and local queues are names that KIS-1's translator watches (R83, R303). -/
inductive Reg where
  | v (n : Nat)
  | s (n : Nat)
  | p (n : Nat)
  | q (n : Nat)
  | b (n : Nat)
  | c (n : Nat)
  | lq (n : Nat)
deriving DecidableEq, Repr, Inhabited

/-- The faults (R282). -/
inductive FaultKind where
  | illegalInstruction
  | illegalOperand
  | illegalFormat
  | unboundCam (slot : Nat)
  | camBind (reason : Nat)
  | divergentJump
  | maskStack
  | pageFault
  | access
  | memoryError
  | latchOverrun
  | unsorted (reason : Nat)
  | queueFull
  | placementMismatch
  | trap (n : Nat)
  | breakpoint (n : Nat)
deriving DecidableEq, Repr, Inhabited

/-- A fault with its address (0 when none), its lowest failing lane (none when uniform), the index of its instruction, and for
PAGE_FAULT the kind of access (R288: 0 read, 1 write, 2 fetch). -/
structure FaultRec where
  kind : FaultKind
  addr : Nat
  lane : Option Nat
  pc : Nat
  acc : Nat
deriving DecidableEq, Repr, Inhabited

/-- A frame of the mask stack (R191). -/
inductive Frame where
  | ifF (div elseSide : Bool) (next : Nat) (ms fm : Mask) (pair : Nat)
  | loopF (start fin : Nat) (ms ct : Mask)
  | callF (ret : Nat) (ms : Mask)
deriving DecidableEq, Repr, Inhabited

/-- What a leaf page-table entry gives (R70): the page's physical base and size, its permissions and attributes, and the address
of the entry. -/
structure PageInfo where
  pa : Nat
  size : Nat
  rd : Bool
  wr : Bool
  ex : Bool
  hv : Bool
  dle : Bool
  home : Nat
  tgt : Nat
  entry : Nat
deriving DecidableEq, Repr, Inhabited

/-- A cached translation (R71, R44). -/
structure TlbEntry where
  vf : Nat
  va : Nat
  page : PageInfo
deriving DecidableEq, Repr, Inhabited

/-- A base register (R74): the virtual base, the page that held it when it was loaded (none: limit 0), and the limit. -/
structure BaseReg where
  vbase : DWord
  page : Option PageInfo
  limit : Nat
deriving DecidableEq, Repr, Inhabited

/-- What an instruction of a run reads and writes (R145). -/
structure RunRec where
  reads : List Reg
  writes : List Reg
deriving DecidableEq, Repr, Inhabited

/-- The states of a binding table entry (R101). -/
inductive BindState where
  | unbound | binding | bound | failed
deriving DecidableEq, Repr, Inhabited

/-- A binding table entry (R100). `part` is the partition of the issuing split, `sid` that split, `failVa` the address of an uncorrectable
error, `freeing` marks an entry whose owner has ended while it was BINDING (R101), `tainted` one whose backing region was written (R107),
`waitFor` the scratchpad writes the bind comes after. -/
structure Binding where
  state : BindState
  fmt : Fmt
  tm : Bool
  grp : Nat
  slot : Nat
  back : Nat
  wel : Bool
  sin : PackFmt
  reason : Nat
  failVa : Nat
  part : Nat
  sid : Nat
  freeing : Bool
  tainted : Bool
  waitFor : List Nat
deriving DecidableEq, Repr, Inhabited

/-- What a parked instruction read at issue (R217): the scalar, q and base registers, the generation and %ngx (R86), the capture of device time
(R87), the matrices its maps name, by slot (R108), and the records it captured by number (a lane, or for JOIN 0 and 1). -/
structure Snap where
  s : List (Nat × Word)
  q : List (Nat × Bool)
  b : List (Nat × BaseReg)
  gen : Nat
  ngx : Nat
  capture : Option Nat
  cams : List (Nat × Binding × List Byte)
  cap : List (Nat × Nat)
deriving DecidableEq, Repr, Inhabited

/-- Why a split issues nothing (R252). `instr` is an instruction parked as R217 says, `enq` an ENQ that waits for the home's answer
(R231), `asks` one whose issue is held by reads of its own, of page tables, descriptors, headers or cursors (R69), `release` one that has met
its checks and waits as at a FENCE.dev before it acts (R208, R237). -/
inductive Park where
  | none
  | merge
  | barrier (clu : Bool) (id phase n : Nat)
  | barFence (clu : Bool) (id phase n : Nat)
  | fence (scope : Scope) (scratchOnly : Bool) (lct : Nat)
  | release (i : Instr) (at_ : Snap)
  | instr (i : Instr) (at_ : Snap)
  | asks (i : Instr) (at_ : Snap)
  | enq (i : Instr) (at_ : Snap) (full : Bool)
  | interlock (entry : Nat)
  | acquire (out : Nat)
  | fill (line : Nat)
deriving DecidableEq, Repr, Inhabited

/-- A barrier passed with .arv (R199): its number and phase, its target operand, the writes its fence covers, the completion time
it waits for (none once its fence has returned). -/
structure Arrival where
  clu : Bool
  id : Nat
  phase : Nat
  n : Nat
  ids : List Nat
  lct : Nat
  met : Bool
deriving DecidableEq, Repr, Inhabited

/-- A split (R191, R251, R194). `shared` names writes of the split it came from that had not returned then; `held` marks a split
parked because another split of its group is in trap mode (R284); `resultAt` is the
device time at which the results of its run with a stated latency have been written (R162, R190, R216), `issued` the first name that no
access or result had when its parked instruction issued, `outdone` the uniform registers that other splits of the group have written since then
(R84), `unanswered` the address of a store to another package that has had no answer within the fabric timeout (R316), `yielded` the tick in which it is picked only when no
other split is ready (R146), `since` the tick from which it has waited on its latch, resident ticks alone counted (R66),
`born` its place in the order of ages on its core (R79, R251), `unwound` tells that control has passed to its pc by an unwind, or by an IF or
ELSE with nothing to run, and the word there must be the one its frame expects (R195). -/
structure Split where
  sid : Nat
  pc : Nat
  mask : Mask
  frames : List Frame
  level : Nat
  promoted : Bool
  readyTicks : Nat
  lct : Nat
  capture : Option Nat
  park : Park
  parkedAt : Nat
  issued : Nat
  outdone : List Reg
  ending : Bool
  run : List RunRec
  poison : List Reg
  deferred : Option FaultRec
  yielded : Option Nat
  arrivals : List Arrival
  shared : List Nat
  held : Bool
  resultAt : Nat
  unanswered : Option Nat
  since : Option Nat
  born : Nat
  unwound : Bool
deriving DecidableEq, Repr, Inhabited

/-- A uniform register whose new value other splits may not see yet (R145): the old value, the split that wrote, the splits that see the new
value, it and those it has divided into or merged with, and the barriers, with their phases, that the writer has reached since. -/
structure UniformWrite where
  reg : Reg
  old : Nat
  writer : Nat
  knows : List Nat
  passed : List (Bool × Nat × Nat)
deriving DecidableEq, Repr, Inhabited

/-- A group (R246, R83, R243). Vector registers hold 32 lane words each. `pending` is a fault that a split takes before the group's
next instruction (R63, R294), `pageDue` a page fault of a split that is posted once the other splits stand at their run ends (R288),
`ages` the splits from oldest to youngest while the group holds no context (R251). -/
structure Group where
  grp : Nat
  part : Nat
  v : List (Nat × List Word)
  s : List (Nat × Word)
  p : List (Nat × Mask)
  q : List (Nat × Bool)
  b : List (Nat × BaseReg)
  exited : Mask
  splits : List Split
  nextSid : Nat
  tcode : Nat
  tepc : Nat
  taddr : Nat
  tlane : Nat
  trapSplit : Option Nat
  trapMask : Mask
  trapDepth : Nat
  usync : List UniformWrite
  triggered : Bool
  dying : Bool
  pageWait : Option Nat
  pageDue : Option (Nat × FaultRec)
  ages : List Nat
  pending : Option (Nat × FaultRec)
deriving DecidableEq, Repr, Inhabited

/-- A registered continuation (R63): `due` once its condition has held, `at_` the device time of its registration. -/
structure Cont where
  target : Nat
  phase : Bool
  args : List Word
  level : Nat
  due : Bool
  at_ : Nat
deriving DecidableEq, Repr, Inhabited

/-- The states of a latch (R59). -/
inductive LatchState where
  | free | filling | full | draining
deriving DecidableEq, Repr, Inhabited

/-- A latch (R59), its continuation (R63), its largest completion time (R62), the address of the fault in ERR (R282), and since when the progress monitor has seen it
unchanged and whether its stall was posted in this phase (R66). -/
structure Latch where
  exp : Nat
  arrb : Nat
  arrt : Nat
  arrn : Nat
  cnst : Nat
  cnsn : Nat
  state : LatchState
  phase : Bool
  over_ : Bool
  err : Nat
  errVa : Nat
  cont : Option Cont
  pend : Nat
  largest : Nat
  since : Nat
  posted : Bool
deriving DecidableEq, Repr, Inhabited

/-- A barrier (R199): arrivals, target, phase, and the groups that have arrived in this phase (team, group). -/
structure Barrier where
  count : Nat
  target : Nat
  fixed : Bool
  phase : Nat
  groups : List (Nat × Nat)
deriving DecidableEq, Repr, Inhabited

/-- An end of a copy: a virtual address, or a place in a team's scratchpad. -/
inductive CopyEnd where
  | global (va : Nat)
  | pad (core team off : Nat)
deriving DecidableEq, Repr, Inhabited

/-- Destination bytes of one unit of a copy (R58), `len` of them from a place: undefined until the copy's latch has counted them and
completed. -/
structure Shadow where
  copy : Nat
  latch : Nat
  unit : Nat
  dst : CopyEnd
  len : Nat
deriving DecidableEq, Repr, Inhabited

/-- A kernel as a launch names it (R300): its object and number, the virtual address of its index 0, and its resources. -/
structure Kernel where
  obj : Nat
  num : Nat
  text : Nat
  words : Nat
  groups : Nat
  vregs : Nat
  cams : Nat
  latches : Nat
  scratch : Nat
  cw : Nat
  ch : Nat
  lq : Bool
deriving DecidableEq, Repr, Inhabited

/-- A team (R246). -/
structure Team where
  id : Nat
  grid : Nat
  vf : Nat
  lin : Nat
  clu : Nat
  rank : Nat
  kernel : Kernel
  scratch : Memory
  latches : List Latch
  barriers : List Barrier
  cluBarriers : List Barrier
  binds : List Binding
  streams : List Nat
  shadow : List Shadow
  groups : List Group
  stopping : Bool
  halted : Bool
  quiescing : Bool
deriving DecidableEq, Repr, Inhabited

/-! ## Memory requests and results -/

/-- One lane's step of an atomic (R214): the offset in its sector. -/
structure AtomStep where
  lane : Nat
  off : Nat
  op : AtomOp
  ty : AtomTy
  c : DWord
  e : DWord
deriving DecidableEq, Repr, Inhabited

/-- Work that reads or writes memory by requests of its own; the answers are kept under this name until they are used (R265, R276):
the reads and the writes of a unit of a copy, a step of a join, a join's cursor, the draw of a subscription, what
an instruction of a split itself reads (a descriptor, a header, a cursor), an ENQ, the DIRTY bit of a logged page, a line operation of a
handler, a request from outside the package, a node record or condition word of a graph, a line of kernel text, a kernel's translation, a
handler image. -/
inductive Errand where
  | get (copy unit : Nat)
  | put (copy unit : Nat)
  | join (h step : Nat)
  | cursor (h : Nat)
  | draw (entry : Nat)
  | word (r : SplitRef)
  | push (r : SplitRef)
  | log
  | hinge (slice : Nat)
  | outside
  | node (graph node : Nat)
  | text (vf line : Nat)
  | kernel (obj k : Nat)
  | image (vf : Nat)
deriving DecidableEq, Repr, Inhabited

/-- What a line operation of a handler does at its line (R47): 8 bytes loaded or stored, an operation with its two operands, 128 bytes
installed, a fill of a chain depth asked for. -/
inductive LineOp where
  | load
  | store (v : Nat)
  | atomic (op : HlOp) (x cmp : Nat)
  | install (data : List Byte)
  | pref (depth : Nat)
deriving DecidableEq, Repr, Inhabited

/-- The answers of one errand: the requests not yet answered with their addresses, the bytes that have come by address, the latest
completion time, and the failures with their addresses. -/
structure Fetch where
  key : Errand
  asked : List (Nat × Nat)
  got : List (Nat × List Byte)
  time : Nat
  errs : List (FaultKind × Nat)
deriving DecidableEq, Repr, Inhabited

/-- What a request asks of a home (R31): a weak read, granted a lease or not (R75); a strong read; a write of bytes and half-bytes
(R82); an atomic; a PREF that fills only the home (R209); a line operation of a handler (R46); the place of a step that its own event
makes, an ENQ's or a draw's (R231, R232). Offsets are within the 32-byte sector. -/
inductive ReqKind where
  | read (lease : Bool)
  | strongRead
  | write (bytes : List (Nat × Byte)) (nibbles : List (Nat × Bool × BitVec 4))
  | atomic (steps : List AtomStep)
  | pref
  | line (op : LineOp)
  | hold
deriving DecidableEq, Repr, Inhabited

/-- A request for one sector. `batch` is the name of the first request sent with it, and no order holds within a batch (R81, R214);
`sector` is the number of its 32-byte sector, `page` the virtual page it was translated on, `size` that page's size, `hv` its attribute,
`pinned` that its home attribute is 01; `errand` is the work it is a part of (none: an access of a split), `lane` and `va` the lowest lane
that asked and its address, `pc` the instruction, `out` the result it brings a part of. `arrived` is its place in the line's order (R31);
once `done`, the answer is on its way: the bytes or old values, the completion time, the lease's expiry, whether a replica served it, or
the fault it met. `hop` is the device time of its last sending, `trip` the ticks its way takes (R265: 3, or 0 for a line operation at the
handler's own slice). -/
structure Req where
  id : Nat
  batch : Nat
  core : Nat
  vf : Nat
  grid : Nat
  owner : SplitRef
  home : HomeLoc
  sector : Nat
  page : Nat
  size : Nat
  hv : Bool
  pinned : Bool
  va : Nat
  lane : Option Nat
  pc : Nat
  kind : ReqKind
  errand : Option Errand
  strong : Bool
  hint : Nat
  out : Option Nat
  arrived : Option Nat
  done : Bool
  data : List Byte
  olds : List (Nat × DWord)
  time : Nat
  expiry : Option Nat
  noInstall : Bool
  repl : Bool
  failed : Option FaultKind
  hop : Nat
  trip : Nat
deriving DecidableEq, Repr, Inhabited

/-- A scratchpad operation not yet performed (R79, R269), of one section: places to read for a result's part, bytes and half-bytes to
write, atomic steps at offsets. `batch` is the name of the first operation of its instruction, `strong` marks an atomic and an access to
another team's scratchpad (R80, R208), `ready` the device time from which it may be performed. -/
structure ScratchOp where
  id : Nat
  batch : Nat
  owner : SplitRef
  core : Nat
  team : Nat
  sect : Nat
  strong : Bool
  ready : Nat
  ticks : Nat
  remote : Bool
  answer : Option (List Byte × List (Nat × DWord))
  reads : List Nat
  bytes : List (Nat × Byte)
  nibbles : List (Nat × Bool × BitVec 4)
  steps : List AtomStep
  out : Option Nat
deriving DecidableEq, Repr, Inhabited

/-- One lane's part of an outstanding result: its address, the request or operation that brings it and the offset of its first byte
there, and for a scatter the physical or scratchpad place it goes to. -/
structure Slot where
  lane : Nat
  va : Nat
  part : Nat
  off : Nat
  high : Bool
  dst : Nat
deriving DecidableEq, Repr, Inhabited

/-- What becomes of an outstanding result once every part has come (R145): registers written from memory bytes of a format or from old
values; `len` bytes a lane written to scratchpad, or to memory, by operations and requests named in advance, an operation's `reads`
giving its lanes (R211); a sparse tile put into 32 registers (R134); nothing. -/
inductive Finish where
  | regs (d : Operand) (fmt : Fmt)
  | olds (d : Operand) (wide : Bool)
  | scratch (len : Nat) (ops : List ScratchOp)
  | stores (len : Nat) (qs : List Req)
  | tile (i : Instr) (record ti tj : Nat) (header : Option Nat)
  | none
deriving DecidableEq, Repr, Inhabited

/-- An outstanding result of an instruction (R145). Parts are numbered; `parts` holds the bytes that have come, `olds` the old
values of atomics by lane, `err` the fault of the lowest lane whose data was lost, its lane and address, `overtaken` the uniform registers that a split of
the group has written since (R84). -/
structure Out where
  id : Nat
  owner : SplitRef
  pc : Nat
  finish : Finish
  slots : List Slot
  waiting : List Nat
  parts : List (Nat × List Byte)
  olds : List (Nat × DWord)
  err : Option (FaultKind × Option Nat × Nat)
  writes : List Reg
  mask : Mask
  overtaken : List Reg
deriving DecidableEq, Repr, Inhabited

/-! ## Engines -/

/-- The kinds of copies (R57); CPYB names the space of each end. -/
inductive CopyKind where
  | cpy | cpyw
  | cpyb (ds ss : Bool)
deriving DecidableEq, Repr, Inhabited

/-- A copy request (R57, R220): what was captured at issue; the units (box rows, or 256-byte pieces) still to deliver; the bytes
still in PEND; the scratchpad of a team that has ended since; the old values of source bytes overwritten since the issue (R58); the fault token while it waits in the copy fault buffer. The global end
of a copy that names a descriptor is the descriptor's. -/
structure CopyReq where
  id : Nat
  team : Nat
  vf : Nat
  grid : Nat
  latch : Nat
  kind : CopyKind
  record : Nat
  coords : List Int
  dst : CopyEnd
  src : CopyEnd
  len : Nat
  hint : Nat
  owner : SplitRef
  waitFor : List Nat
  units : List Nat
  left : Nat
  ghost : Option Memory
  olds : List (Nat × Byte)
  token : Option Nat
deriving DecidableEq, Repr, Inhabited

/-- A survivor of a join (R118). -/
structure Survivor where
  coord : Nat
  posA : Nat
  posB : Nat
  inA : Bool
  inB : Bool
  row : Nat
  sect : Nat
  nextA : Nat
  nextB : Nat
deriving DecidableEq, Repr, Inhabited

/-- The states of a join handle (R126). -/
inductive JoinState where
  | running | done | stopped
deriving DecidableEq, Repr, Inhabited

/-- A join (R119, R226): captured operands, place, survivors waiting for a group (formable since `since`), and the status. `last` is
where a cancelled join resumes (R128): row, segment, positions, coordinate. `step` numbers its reads, `failVa` is the address of the fault
that stopped it. `failAt` is the side and the positions known where a page
is missing; `stop` the reason and the cursor of a join that stops and has not written it. -/
structure Join where
  team : Nat
  vf : Nat
  grid : Nat
  op : JoinOp
  seg : Bool
  slotA : Nat
  slotB : Nat
  descA : Nat
  descB : Nat
  row : Nat
  sect : Nat
  endRow : Nat
  endSeg : Nat
  entry : Nat
  cursor : Nat
  level : Nat
  emit : Nat
  posA : Nat
  posB : Nat
  lastRow : Nat
  lastSeg : Nat
  lastA : Nat
  lastB : Nat
  lastc : Nat
  pending : List Survivor
  since : Nat
  finished : Bool
  state : JoinState
  reason : Nat
  waitFor : List Nat
  token : Option Nat
  step : Nat
  failVa : Nat
  failAt : Nat × Nat × Nat
  stop : Option (Nat × Nat)
deriving DecidableEq, Repr, Inhabited

/-- A subscription (R232): its entry in the table; `token` while its draw waits for a resolution (R233). -/
structure Subscription where
  entry : Nat
  header : Nat
  team : Nat
  token : Option Nat
deriving DecidableEq, Repr, Inhabited

/-- A class the tumbler holds for its team (R232): entry, level, and the six record words of each item. -/
structure HeldClass where
  team : Nat
  entry : Nat
  hi : Bool
  items : List (List Word)
deriving DecidableEq, Repr, Inhabited

/-! ## Cores -/

/-- An L1 sector under lease (R75, R77); `keep` marks a line of a keep load (R78), `repl` bytes that a replica gave, which only loads
with the replicate hint may use (R274). -/
structure L1Sector where
  sector : Nat
  bytes : List Byte
  expiry : Nat
  gen : Nat
  keep : Bool
  repl : Bool
deriving DecidableEq, Repr, Inhabited

/-- An instruction-cache line (R252, R306). -/
structure IcLine where
  vf : Nat
  line : Nat
  bytes : List Byte
deriving DecidableEq, Repr, Inhabited

/-- A cached descriptor record (R52). -/
structure DescLine where
  vf : Nat
  id : Nat
  record : Nat
deriving DecidableEq, Repr, Inhabited

/-- What an issued instruction takes of a partition in a tick (R254). -/
structure Pick where
  split : SplitRef
  banks : List Nat
  cam : Nat
  mem : Nat
  sfu : Bool
  pipe : Nat
  alone : Bool
  yield : Bool
  ends : Bool
  level : Nat
deriving DecidableEq, Repr, Inhabited

/-- A partition (R246, R251, R253, R254): the splits in age order, oldest first (team, group, split); the resident cam arrays,
least recently used first (team, entry), and those whose load a mapped source has asked for, and when; the picks of this tick;
ticks for which each unit stays busy; the arrays that a mapped source in flight is using, and until when (R109); the
split chosen for the second pick of this tick, with the index of its word (R253). -/
structure Partition where
  order : List (Nat × Nat × Nat)
  arrays : List (Nat × Nat)
  loads : List ((Nat × Nat) × Nat)
  picks : List Pick
  camBusy : Nat
  memBusy : Nat
  pipesBusy : Nat
  bankBusy : List Nat
  using_ : List ((Nat × Nat) × Nat)
  second : Option (SplitRef × Nat)
deriving DecidableEq, Repr, Inhabited

/-- A line at a home (R26, R35, R44): its bytes, whether it is newer than DRAM, the virtual tag of a handler-visible page,
and the step of its last use. -/
structure Line where
  line : Nat
  data : List Byte
  dirty : Bool
  pinned : Bool
  vtag : Option (Nat × Nat)
  used : Nat
deriving DecidableEq, Repr, Inhabited

/-- A fill in flight (R42): its chain depth, whether a request merged into it raises a FILL (R39, R324), the virtual function that asked,
and what its line's page is. -/
structure Fill where
  line : Nat
  vf : Nat
  depth : Nat
  raises : Bool
  pinned : Bool
  vtag : Option (Nat × Nat)
deriving DecidableEq, Repr, Inhabited

/-- The storage of a home: lines; the latest lease granted on each line (R75); the lost sectors (R35);
fills in flight. -/
structure HomeStore where
  lines : List Line
  leases : List (Nat × Nat)
  lost : List Nat
  fills : List Fill
deriving DecidableEq, Repr, Inhabited

/-- A core (R13); `copyFree` is the device time from which its copy engine may deliver into scratchpad again (R58). -/
structure Core where
  gen : Nat
  l1 : List L1Sector
  tlb : List TlbEntry
  ic : List IcLine
  desc : List DescLine
  teams : List Team
  parts : List (Nat × Partition)
  copyQ : List CopyReq
  copyRun : List CopyReq
  copyFault : List CopyReq
  copyFree : Nat
  joins : List (Nat × Option Join)
  lqs : List (Nat × List Word)
  lqTeam : Option Nat
  subs : List Subscription
  held : List HeldClass
  outs : List Out
  sops : List ScratchOp
  fetches : List Fetch
  window : HomeStore
  births : Nat
  sections : List (Nat × Nat)
deriving DecidableEq, Repr, Inhabited

/-! ## Slices -/

/-- A read-only replica (R29, R30). -/
structure Replica where
  vf : Nat
  gen : Nat
  line : Nat
  data : List Byte
deriving DecidableEq, Repr, Inhabited

/-- The trigger kinds (R39). -/
inductive TrigKind where
  | miss | fill | evict | msg
deriving DecidableEq, Repr, Inhabited

/-- A waiting trigger (R41): slot, kind, a1, a4, the message body, the snapshot of an evicted line (R40), the slice cycle in which it was
raised (R326). -/
structure Trigger where
  slot : Nat
  kind : TrigKind
  a1 : Nat
  a4 : Nat
  body : List Byte
  snap : Option (List Byte)
  at_ : Nat
deriving DecidableEq, Repr, Inhabited

/-- A tenant slot of a hinge processor (R36, R37, R38) and when an event of each code was last posted for it (R50). -/
structure HingeSlot where
  loaded : Bool
  vf : Nat
  bmsg : Nat
  bevict : Nat
  bfill : Nat
  bmiss : Nat
  trig : Nat
  entry : Nat
  hrun : Nat
  hover : Nat
  hdrop : Nat
  hfault : Nat
  code : Memory
  data : Memory
  posted : List (Nat × Nat)
deriving DecidableEq, Repr, Inhabited

/-- The running handler (R37, R43). `start` is the slice cycle of its dispatch, counted from the start of device time (R3), `op` the
name of the line operation that the instruction at the pc has sent, `waits` tells whether that instruction has begun and waits, `reserve`
the place of an LR. -/
structure HingeRun where
  slot : Nat
  trigger : Trigger
  x : List (Nat × DWord)
  pc : Nat
  cycle : Nat
  instret : Nat
  reserve : Option Nat
  start : Nat
  op : Option Nat
  waits : Bool
deriving DecidableEq, Repr, Inhabited

/-- A slice with its hinge processor (R12, R26, R36); `freeAt` is the slice cycle in which its last handler ended. -/
structure Slice where
  store : HomeStore
  replicas : List Replica
  tlb : List TlbEntry
  slots : List (Nat × HingeSlot)
  queue : List Trigger
  run : Option HingeRun
  freeAt : Nat
deriving DecidableEq, Repr, Inhabited

/-- A message in flight (R47, R238); `owner` is the split that sent it. -/
structure Message where
  id : Nat
  owner : Option SplitRef
  slice : Nat
  vf : Nat
  va : Nat
  hv : Bool
  sender : Nat
  body : List Byte
  hop : Nat
deriving DecidableEq, Repr, Inhabited

/-- A replica copy in flight (R29). -/
structure ReplicaMsg where
  id : Nat
  slice : Nat
  replica : Replica
  hop : Nat
deriving DecidableEq, Repr, Inhabited

/-! ## Virtual functions, graphs, the part -/

/-- A ring's control block (R73, R287), and where it stands in host memory. `told` marks a ring whose being full has been posted. -/
structure Ring where
  block : Nat
  base : Nat
  logn : Nat
  prod : Nat
  cons : Nat
  ovf : Bool
  dropped : Nat
  told : Bool
deriving DecidableEq, Repr, Inhabited

/-- What waits for the resolution of a page fault (R288, R289). -/
inductive Waiter where
  | group (core team grp split : Nat)
  | copy (core id : Nat)
  | join (core h : Nat)
  | draw (core header team : Nat)
deriving DecidableEq, Repr, Inhabited

/-- A page fault (R288): its token, requester, address, kind of access, whether it has been posted or is
held at its source (R290), and the answer that has come and waits for a free context (R289: RETRY or FAIL). -/
structure FaultWait where
  token : Nat
  who : Waiter
  core : Nat
  va : Nat
  acc : Nat
  fault : FaultRec
  posted : Bool
  answer : Option Bool
deriving DecidableEq, Repr, Inhabited

/-- An image of a code object (R299). -/
structure Image where
  kind : Nat
  revid : Nat
  sigv : Bool
  off : Nat
  size : Nat
  psig : List Byte
  kernels : List (Nat × Nat)
deriving DecidableEq, Repr, Inhabited

/-- A loaded code object (R299 to R306): `pick` is the image each die runs, once chosen (none: PLACEMENT_MISMATCH), `area` the address of
its translated area, `busy` the kernels whose translation a die has won (R304): kernel, die, and the completion time of its text once it
has been written. -/
structure CodeObject where
  id : Nat
  plan : LoadPlan
  total : Nat
  enc : Bool
  nonce : List Byte
  tagOff : Nat
  key : List Byte
  kernels : List Kernel
  images : List Image
  pick : Option (List (Option Nat))
  area : Nat
  busy : List (Nat × Nat × Option Nat)
deriving DecidableEq, Repr, Inhabited

/-- A pre-empted team (R292): the team, its splits from oldest to youngest (group, split), what it held of its core, and the tick at
which it left. -/
structure SavedTeam where
  team : Team
  order : List (Nat × Nat)
  joins : List (Nat × Join)
  copies : List CopyReq
  subs : List Nat
  held : List HeldClass
  lqs : Option (List (Nat × List Word))
  time : Nat
deriving DecidableEq, Repr, Inhabited

/-- A virtual function (R309 to R314); `handler` is the object whose handler image waits to be installed (R308),
`movedOut` that MIGRATE_OUT has completed (R313), `dying` that DESTROY_VF has begun (R309). -/
structure Vf where
  cfg : VfConfig
  events : Ring
  faults : Ring
  dirty : Ring
  commands : Ring
  waits : List FaultWait
  nextToken : Nat
  repGen : Nat
  stopped : Bool
  leaving : Bool
  movedOut : Bool
  dying : Bool
  offset : Nat
  debugger : Bool
  objects : List CodeObject
  saved : List SavedTeam
  launches : List (Nat × Nat × Option (List Word))
  handler : Option Nat
  newestKey : Nat
deriving DecidableEq, Repr, Inhabited

/-- A grid: an instance of a kernel node (R256, R257); `awaits` the writes of groups that ended untriggered (R237),
`succ` the nodes that get an arrival from it, `teams` the names of the teams placed. -/
structure Grid where
  id : Nat
  vf : Nat
  graph : Nat
  node : Nat
  kernel : Kernel
  ngx : Nat
  ngy : Nat
  ngz : Nat
  ceil : Nat
  count : Nat
  placed : Nat
  flags : Nat
  prio : Nat
  trapv : Bool
  trape : Nat
  args : List Word
  triggered : Bool
  awaits : List Nat
  succ : List Nat
  teams : List Nat
deriving DecidableEq, Repr, Inhabited

/-- A submitted graph (R256, R257): arrivals on their way, arrival and pass counts, instances to start (with LAUNCH's arguments),
conditional and loop instances to evaluate, each with its record. -/
structure Graph where
  id : Nat
  vf : Nat
  base : Nat
  nodes : Nat
  arriving : List Nat
  arrivals : List (Nat × Nat)
  passes : List (Nat × Nat)
  starts : List (Nat × Option (List Word))
  evals : List (Nat × Nat)
  stopped : Bool
deriving DecidableEq, Repr, Inhabited

/-- An invalidate command under way (R72): the accesses it waits for. -/
structure Invalidation where
  id : Nat
  vf : Nat
  ids : List Nat
deriving DecidableEq, Repr, Inhabited

/-- A line of the fabric grant table (R315). -/
structure Grant where
  dev : Nat
  vf : Nat
  own : Nat
deriving DecidableEq, Repr, Inhabited

/-- A die's stack (R33): the temperature it reported last, the refresh interval in nanoseconds, refreshes made. -/
structure Die where
  celsius : Nat
  interval : Nat
  refreshes : Nat
deriving DecidableEq, Repr, Inhabited

/-- What the device raises to the host's firmware or the hypervisor, or reports (R35, R73, R258): a full lost-sector list, a full dirty
log as an exit, a grid that has retired. -/
inductive Signal where
  | lostListFull (home : HomeLoc)
  | dirtyExit (vf : Nat)
  | retired (vf graph node grid : Nat)
deriving DecidableEq, Repr, Inhabited

/-- Off, reduced service or full service (R318, R319). -/
inductive Service where
  | off | reduced | full
deriving DecidableEq, Repr, Inhabited

/-- The answer to a host command (R309): what it was, the virtual function, the status, and a value it returns (R295). -/
structure Status where
  command : String
  vf : Nat
  status : String
  value : Nat
deriving DecidableEq, Repr, Inhabited

/-- Whose instruction is running: a split's, or the handler's of a slice. -/
inductive Focus where
  | none
  | split (r : SplitRef)
  | slice (n : Nat)
deriving DecidableEq, Repr, Inhabited

end Sys2Proof.Machine
end

