-- ==== Sys2Proof/Machine/State.lean ====
section
/-!
DEFINITION. The state of the part, and the state right after a start (01 R16, 21 R318). What each field is, its rule and its reset
value stand in INVENTORY.md; the values the spec does not give are named in the log entries 1 to 5.
-/
namespace Sys2Proof.Machine

structure State where
  time : Nat
  skew : List Nat
  service : Service
  coreMap : List Nat
  sliceMap : List Nat
  suspects : List PartUnit
  startFailed : Bool
  defects : List PartUnit
  firmwareOk : Bool
  replacedRows : List (Nat × Nat × Nat)
  dramSpares : List PartUnit
  retrained : List (Nat × Nat)
  throttled : Bool
  withhold : Nat
  dies : List Die
  dram : Memory
  host : Memory
  devNumber : Nat
  cores : List (Nat × Core)
  slices : List (Nat × Slice)
  vfs : List Vf
  grids : List Grid
  graphs : List Graph
  reqs : List Req
  msgs : List Message
  replicaMsgs : List ReplicaMsg
  flaws : List Nat
  channelErrors : List (Nat × Nat)
  sliceErrors : List (Nat × Nat)
  signals : List Signal
  invals : List Invalidation
  grants : List Grant
  routes : List (Nat × Nat)
  pfEvents : Ring
  pfCommands : Ring
  quanta : List (Nat × Nat × Nat)
  statuses : List Status
  fresh : Nat
  nextId : Nat
  agenda : List Turn
  focus : Focus
deriving DecidableEq, Repr

/-- Why the model stops a run. -/
inductive Fault where
  /-- Raised by the meaning of a KIS-3 instruction when `State.focus` names no live split: no split issued it. Never reached by
  `step`, which sets the focus to the split it picked. Safe: no behaviour of the part is described. -/
  | noIssuer
  /-- Raised by the meaning of a hinge instruction when `State.focus` names no slice with a running handler. Never reached by
  `step`. Safe: no behaviour of the part is described. -/
  | noHandler
deriving DecidableEq, Repr

/-- Why an instruction has no meaning. -/
inductive Refusal where
  /-- Raised only by an arm of `exec` that has no meaning yet, with the instruction's mnemonic. Safe: the run stops. -/
  | notModelled (mnemonic : String)
deriving DecidableEq, Repr

/-- A home's storage when nothing is held. -/
def HomeStore.empty : HomeStore := { lines := [], leases := [], lost := [], fills := [] }

/-- A partition with nothing resident. -/
def Partition.empty : Partition :=
  { order := [], arrays := [], loads := [], picks := [], camBusy := 0, memBusy := 0, pipesBusy := 0, bankBusy := [0, 0, 0, 0],
    using_ := [], second := none }

/-- A core right after a start (R77). -/
def Core.reset : Core :=
  { gen := 0, l1 := [], tlb := [], ic := [], desc := [], teams := [], parts := [], copyQ := [], copyRun := [],
    copyFault := [], copyFree := 0, joins := [], lqs := [], lqTeam := none, subs := [], held := [], outs := [], sops := [], fetches := [],
    window := HomeStore.empty, births := 0, sections := [] }

/-- A tenant slot at reset (R38: budgets 15, everything else 0). -/
def HingeSlot.reset : HingeSlot :=
  { loaded := false, vf := 0, bmsg := 15, bevict := 15, bfill := 15, bmiss := 15, trig := 0, entry := 0, hrun := 0, hover := 0,
    hdrop := 0, hfault := 0, code := [], data := [], posted := [] }

/-- A slice right after a start. -/
def Slice.reset : Slice :=
  { store := HomeStore.empty, replicas := [], tlb := [], slots := [], queue := [], run := none, freeAt := 0 }

/-- A ring's control block at reset (R73, R287: 0 in every field). -/
def Ring.reset : Ring := { block := 0, base := 0, logn := 0, prod := 0, cons := 0, ovf := false, dropped := 0, told := false }

/-- The part right after a start in full service: device time 0 (R16), all DRAM zero (R318), no virtual function, every core
and slice at its reset value (unlisted ones are). The counts of corrected errors (R34) begin at 0, the failed units, the spares in use and the
fabric tables (R315) empty, which the spec does not say (DESIGN CHOICE, log entry 2). -/
def State.reset : State :=
  { time := 0, skew := [0, 0, 0, 0], service := .full, coreMap := [], sliceMap := [], suspects := [], startFailed := false,
    defects := [], firmwareOk := true, replacedRows := [], dramSpares := [], retrained := [], throttled := false, withhold := 0,
    dies := List.replicate 4 { celsius := 0, interval := 3900, refreshes := 0 }, dram := [], host := [], devNumber := 0,
    cores := [], slices := [], vfs := [], grids := [], graphs := [], reqs := [], msgs := [], replicaMsgs := [],
    flaws := [], channelErrors := [], sliceErrors := [], signals := [], invals := [],
    grants := [], routes := [], pfEvents := Ring.reset, pfCommands := Ring.reset, quanta := [], statuses := [], fresh := 0, nextId := 0, agenda := [], focus := .none }

end Sys2Proof.Machine
end

