-- ==== Sys2Proof/Machine/Memory.lean ====
section
/-!
DEFINITION. The plain operations under everything else: lists kept by key, memories in their canonical form, little-endian bytes
(00 R2), lane masks and registers.
-/
namespace Sys2Proof.Machine

/-! ## Lists kept by key -/

/-- The entry of a key, or a default. -/
def getKey {α : Type} (d : α) : List (Nat × α) → Nat → α
  | [], _ => d
  | (k, v) :: r, n => if k = n then v else getKey d r n

/-- The list with one entry set. -/
def setKey {α : Type} : List (Nat × α) → Nat → α → List (Nat × α)
  | [], n, x => [(n, x)]
  | (k, v) :: r, n, x => if k = n then (k, x) :: r else (k, v) :: setKey r n x

/-- The list with a place changed, where it has that place. -/
def setAt {α : Type} (l : List α) (n : Nat) (x : α) : List α := l.set n x

/-- The list with the entries that fit changed. -/
def updateIf {α : Type} (p : α → Bool) (f : α → α) (l : List α) : List α := l.map fun x => if p x then f x else x

/-! ## Memories -/

/-- The byte at an address: 0 where nothing is listed (log entry 3). -/
def Memory.read : Memory → Nat → Byte
  | [], _ => 0
  | (k, v) :: r, a => if k = a then v else Memory.read r a

/-- The canonical form: addresses strictly rising from `lo`, no zero byte listed. -/
def Memory.wfFrom : Nat → Memory → Bool
  | _, [] => true
  | lo, (k, v) :: r => lo ≤ k && v != 0 && Memory.wfFrom (k + 1) r

def Memory.wf (m : Memory) : Bool := Memory.wfFrom 0 m

/-- Writing one byte keeps the form: writing 0 removes the entry. -/
def Memory.write : Memory → Nat → Byte → Memory
  | [], a, x => if x = 0 then [] else [(a, x)]
  | (k, v) :: r, a, x =>
    if a < k then (if x = 0 then (k, v) :: r else (a, x) :: (k, v) :: r)
    else if a = k then (if x = 0 then r else (k, x) :: r)
    else (k, v) :: Memory.write r a x

/-- `n` bytes from an address up. -/
def Memory.readBytes (m : Memory) (a : Nat) : Nat → List Byte
  | 0 => []
  | n + 1 => m.read a :: Memory.readBytes m (a + 1) n

/-- Bytes written from an address up. -/
def Memory.writeBytes : Memory → Nat → List Byte → Memory
  | m, _, [] => m
  | m, a, x :: r => Memory.writeBytes (m.write a x) (a + 1) r

/-- Pieces of `n` elements, `fuel` at most. -/
def pieces {α : Type} (n : Nat) : (fuel : Nat) → List α → List (List α)
  | 0, _ => []
  | f + 1, l => if l.isEmpty then [] else l.take n :: pieces n f (l.drop n)

/-- Bytes written at given addresses, in order. -/
def Memory.writeAll (m : Memory) (l : List (Nat × Byte)) : Memory := l.foldl (fun m p => m.write p.1 p.2) m

/-! ## Bytes and numbers, little-endian (R2) -/

def natOfBytes : List Byte → Nat
  | [] => 0
  | b :: r => b.toNat + 256 * natOfBytes r

def bytesOfNat : (n : Nat) → Nat → List Byte
  | 0, _ => []
  | n + 1, v => BitVec.ofNat 8 v :: bytesOfNat n (v / 256)

/-- A sign-extended field of `w` bits. -/
def sextInt (v w : Nat) : Int := signedOf v w

/-- A half-byte put into a byte (R204: the high one in bits 7:4). -/
def setNibble (b : Byte) (high : Bool) (v : BitVec 4) : Byte :=
  if high then BitVec.ofNat 8 (v.toNat * 16 + b.toNat % 16) else BitVec.ofNat 8 (b.toNat / 16 * 16 + v.toNat)

/-! ## Lane masks -/

/-- A lane is in a mask. -/
def laneIn (m : Mask) (l : Nat) : Bool := m.getLsbD l

/-- The 32 lanes. -/
def lanes : List Nat := List.range 32

/-- The lanes of a mask, ascending. -/
def lanesOf (m : Mask) : List Nat := lanes.filter (laneIn m)

/-- The mask of the lanes where a test holds. -/
def maskOf (f : Nat → Bool) : Mask := BitVec.ofNat 32 (lanes.foldl (fun n l => n + if f l then 2 ^ l else 0) 0)

/-- All 32 lanes. -/
def allLanes : Mask := BitVec.ofNat 32 (2 ^ 32 - 1)

/-- Lanes of the first mask that are not in the second. -/
def maskMinus (a b : Mask) : Mask := a &&& ~~~b

/-- The lowest lane of a mask. -/
def lowestLane (m : Mask) : Option Nat := (lanesOf m).head?

/-! ## Registers of a group -/

/-- The 32 lane words of a vector register (R83). -/
def Group.vec (g : Group) (n : Nat) : List Word := getKey (List.replicate 32 0) g.v n

/-- One lane of a vector register. -/
def Group.vlane (g : Group) (n l : Nat) : Word := (g.vec n).getD l 0

/-- A scalar register. -/
def Group.sreg (g : Group) (n : Nat) : Word := getKey 0 g.s n

/-- A p register. -/
def Group.preg (g : Group) (n : Nat) : Mask := getKey 0 g.p n

/-- A q register; q7 always reads 1 (R88). -/
def Group.qreg (g : Group) (n : Nat) : Bool := n == 7 || getKey false g.q n

/-- A base register; at group start it reads as if BASE had loaded zero, with limit 0 (R90). -/
def Group.breg (g : Group) (n : Nat) : BaseReg := getKey { vbase := 0, page := none, limit := 0 } g.b n

/-- A vector register written in the lanes of a mask; the other lanes keep their value (R84). -/
def Group.setVec (g : Group) (n : Nat) (m : Mask) (f : Nat → Word) : Group :=
  let old := g.vec n
  { g with v := setKey g.v n (lanes.map fun l => if laneIn m l then f l else old.getD l 0) }

def Group.setSreg (g : Group) (n : Nat) (x : Word) : Group := { g with s := setKey g.s n x }

/-- A p register written in the lanes of a mask. -/
def Group.setPreg (g : Group) (n : Nat) (m : Mask) (f : Nat → Bool) : Group :=
  let old := g.preg n
  { g with p := setKey g.p n (maskOf fun l => if laneIn m l then f l else laneIn old l) }

/-- A q register written; q7 is no destination (R83). -/
def Group.setQreg (g : Group) (n : Nat) (x : Bool) : Group := { g with q := setKey g.q n x }

def Group.setBreg (g : Group) (n : Nat) (x : BaseReg) : Group := { g with b := setKey g.b n x }

end Sys2Proof.Machine
end

