-- ==== Sys2Proof/Machine/Ops.lean ====
section
/-!
DEFINITION. The operations shared by every meaning: finding and changing the records of the state, free values, device time, event
records (18 R287), what becomes of splits, groups and teams (12 R191 to R200), taking a fault and entering trap mode (18 R282 to
R288), and the return from it (R286).
-/
namespace Sys2Proof

/-- The same split under another number. -/
def SplitRef.other (r : SplitRef) (sid : Nat) : SplitRef := { r with split := sid }

/-- A core's number within a virtual function: its place in the list of cores (R311). -/
def VfConfig.coreIndex (c : VfConfig) (k : Nat) : Nat := c.cores.findIdx (· == k)

/-- A place outside the package or in the host's memory (R212, R275). -/
def HomeLoc.away : HomeLoc → Bool
  | .remote _ | .host => true
  | _ => false

end Sys2Proof
namespace Sys2Proof.Machine

/-! ## Finding and changing records -/

def State.core (s : State) (k : Nat) : Core := getKey Core.reset s.cores k
def State.modCore (s : State) (k : Nat) (f : Core → Core) : State := { s with cores := setKey s.cores k (f (s.core k)) }
def State.slice (s : State) (n : Nat) : Slice := getKey Slice.reset s.slices n
def State.modSlice (s : State) (n : Nat) (f : Slice → Slice) : State := { s with slices := setKey s.slices n (f (s.slice n)) }
def Slice.slot (c : Slice) (n : Nat) : HingeSlot := getKey HingeSlot.reset c.slots n
def Slice.modSlot (c : Slice) (n : Nat) (f : HingeSlot → HingeSlot) : Slice := { c with slots := setKey c.slots n (f (c.slot n)) }
def Core.part (c : Core) (p : Nat) : Partition := getKey Partition.empty c.parts p
def Core.modPart (c : Core) (p : Nat) (f : Partition → Partition) : Core := { c with parts := setKey c.parts p (f (c.part p)) }
def Core.team? (c : Core) (id : Nat) : Option Team := c.teams.find? fun t => t.id == id
def Core.modTeam (c : Core) (id : Nat) (f : Team → Team) : Core :=
  { c with teams := updateIf (fun t => t.id == id) f c.teams }
def Team.group? (t : Team) (g : Nat) : Option Group := t.groups.find? fun x => x.grp == g
def Team.modGroup (t : Team) (g : Nat) (f : Group → Group) : Team :=
  { t with groups := updateIf (fun x => x.grp == g) f t.groups }
def Group.split? (g : Group) (n : Nat) : Option Split := g.splits.find? fun x => x.sid == n
def Group.modSplit (g : Group) (n : Nat) (f : Split → Split) : Group :=
  { g with splits := updateIf (fun x => x.sid == n) f g.splits }

def State.team? (s : State) (k id : Nat) : Option Team := (s.core k).team? id
def State.group? (s : State) (r : SplitRef) : Option Group := (s.team? r.core r.team).bind fun t => t.group? r.grp
def State.split? (s : State) (r : SplitRef) : Option Split := (s.group? r).bind fun g => g.split? r.split
def State.modTeam (s : State) (k id : Nat) (f : Team → Team) : State := s.modCore k fun c => c.modTeam id f
def State.modGroup (s : State) (r : SplitRef) (f : Group → Group) : State :=
  s.modTeam r.core r.team fun t => t.modGroup r.grp f
def State.modSplit (s : State) (r : SplitRef) (f : Split → Split) : State := s.modGroup r fun g => g.modSplit r.split f

def State.vf? (s : State) (v : Nat) : Option Vf := s.vfs.find? fun x => x.cfg.id == v
def State.modVf (s : State) (v : Nat) (f : Vf → Vf) : State := { s with vfs := updateIf (fun x => x.cfg.id == v) f s.vfs }
def State.grid? (s : State) (g : Nat) : Option Grid := s.grids.find? fun x => x.id == g
def State.modGrid (s : State) (g : Nat) (f : Grid → Grid) : State := { s with grids := updateIf (fun x => x.id == g) f s.grids }
def State.graph? (s : State) (g : Nat) : Option Graph := s.graphs.find? fun x => x.id == g
def State.modGraph (s : State) (g : Nat) (f : Graph → Graph) : State :=
  { s with graphs := updateIf (fun x => x.id == g) f s.graphs }
def State.req? (s : State) (id : Nat) : Option Req := s.reqs.find? fun q => q.id == id
def State.modReq (s : State) (id : Nat) (f : Req → Req) : State := { s with reqs := updateIf (fun q => q.id == id) f s.reqs }

/-- Every core that holds something, with its number. -/
def State.coreNumbers (s : State) : List Nat := s.cores.map (·.1)

/-- Every resident team with its core. -/
def State.residents (s : State) : List (Nat × Team) := s.cores.flatMap fun p => p.2.teams.map fun t => (p.1, t)

/-! ## The answers of an errand -/

/-- Nothing asked yet. -/
def Fetch.fresh (key : Errand) : Fetch := { key := key, asked := [], got := [], time := 0, errs := [] }

/-- The answers kept under a name. -/
def Core.answers (c : Core) (key : Errand) : Fetch := (c.fetches.find? fun f => f.key == key).getD (Fetch.fresh key)

/-- The answers under a name are no longer needed. -/
def State.forget (s : State) (k : Nat) (key : Errand) : State :=
  s.modCore k fun c => { c with fetches := c.fetches.filter fun f => f.key != key }

/-- The sector has been asked for. -/
def Fetch.knows (f : Fetch) (va : Nat) : Bool := f.asked.any (fun p => p.2 == va) || f.got.any fun p => p.1 == va

/-! ## Free values, names and device time -/

/-- A free value of this step (R6, log entry 4); `region` and `i` tell the draws of one step apart. -/
def State.draw (s : State) (region i : Nat) : Nat := Config.free s.fresh (region * 16777216 + i)

/-- A free value of `w` bits. -/
def State.drawBits (s : State) (region i w : Nat) : Nat := s.draw region i % 2 ^ w

/-- A free choice of two. -/
def State.drawBool (s : State) (region i : Nat) : Bool := s.draw region i % 2 == 1

/-- The next step draws other free values. -/
def State.bump (s : State) : State := { s with fresh := s.fresh + 1 }

/-- A new name for a request, a team, a grid, a result. -/
def State.takeId (s : State) : Nat × State := (s.nextId, { s with nextId := s.nextId + 1 })

/-- Device time of a die (R16). -/
def State.timeAt (s : State) (die : Nat) : Nat := s.time - s.skew.getD die 0

/-- Device time of a core's die (R12: 48 cores a die). -/
def State.coreTime (s : State) (k : Nat) : Nat := s.timeAt (k / 48)

/-- Device time of a slice's die (R12: 64 slices a die). -/
def State.sliceTime (s : State) (n : Nat) : Nat := s.timeAt (n / 64)

/-- Device time as a virtual function reads it: its offset is added (R314), modulo 2^64. -/
def State.vfTime (s : State) (k v : Nat) : Nat := (s.coreTime k + ((s.vf? v).map (·.offset)).getD 0) % 2 ^ 64

/-! ## Faults by code (R282) -/

def FaultKind.code : FaultKind → Nat
  | .illegalInstruction => 0x01
  | .illegalOperand => 0x02
  | .illegalFormat => 0x03
  | .unboundCam slot => 0x04 + 256 * slot
  | .camBind reason => 0x05 + 256 * reason
  | .divergentJump => 0x06
  | .maskStack => 0x07
  | .pageFault => 0x08
  | .access => 0x09
  | .memoryError => 0x0A
  | .latchOverrun => 0x0B
  | .unsorted reason => 0x0C + 256 * reason
  | .queueFull => 0x0D
  | .placementMismatch => 0x0E
  | .trap n => 0x0F + 256 * n
  | .breakpoint n => 0x10 + 256 * n

/-- Only PAGE_FAULT, ACCESS and MEMORY_ERROR record an address (R282). -/
def FaultKind.hasAddr : FaultKind → Bool
  | .pageFault | .access | .memoryError => true
  | _ => false

/-! ## Rings and events (R73, R287) -/

/-- An event or fault record, its fields as R287 names them. -/
structure Event where
  code : Nat
  vf : Nat
  srck : Nat
  src : Nat
  item : Nat := 0
  tkind : Nat := 0
  reason : Nat := 0
  phase : Nat := 0
  lane : Nat := 0
  addr : Nat := 0
  code1 : Nat := 0
  code2 : Nat := 0
  count : Nat := 0
  time : Nat
deriving DecidableEq, Repr

/-- The 256 bits of an event record (R287). -/
def Event.word (e : Event) : Nat :=
  e.code + e.vf * 2 ^ 16 + e.srck * 2 ^ 25 + e.src % 2 ^ 8 * 2 ^ 27 + e.item % 2 ^ 9 * 2 ^ 35 + e.tkind * 2 ^ 44 + e.reason * 2 ^ 46 +
    e.phase * 2 ^ 50 + e.lane % 2 ^ 6 * 2 ^ 51 + e.addr % 2 ^ 64 * 2 ^ 64 + e.code1 * 2 ^ 128 + e.code2 * 2 ^ 144 +
    e.count % 2 ^ 32 * 2 ^ 160 + e.time % 2 ^ 64 * 2 ^ 192

/-- A ring of 2^n records is in use only for these n (R287: 8 to 16; R73: 10 to 20). -/
def Ring.enabled (r : Ring) : Bool := 8 ≤ r.logn && r.logn ≤ 16

/-- PROD − CONS is 2^n (R73), both 64-bit counts that the host may write (R4). -/
def Ring.full (r : Ring) : Bool := r.prod % 2 ^ 64 == (r.cons + 2 ^ r.logn) % 2 ^ 64

/-- A dropped record is counted, saturating, and sets OVF (R287). -/
def Ring.drop (r : Ring) : Ring := { r with ovf := true, dropped := min (r.dropped + 1) (2 ^ 32 - 1) }

/-- One record appended to a ring that has room. -/
def Ring.push (r : Ring) : Ring := { r with prod := r.prod + 1 }

/-- Where the next record of 2^n records of `size` bytes goes. -/
def Ring.slot (r : Ring) (size : Nat) : Nat := r.base + size * (r.prod % 2 ^ r.logn)

/-- The 256 bits of a control block (R73, R287). -/
def Ring.word (r : Ring) : Nat :=
  r.base % 2 ^ 64 + r.logn % 32 * 2 ^ 64 + r.ovf.toNat * 2 ^ 69 + r.dropped % 2 ^ 32 * 2 ^ 70 + r.prod % 2 ^ 64 * 2 ^ 128 +
    r.cons % 2 ^ 64 * 2 ^ 192

/-- An entry of a command ring taken by the device (R309); one that the host has not counted in PROD it has put in with the command (log
entry 69). -/
def Ring.take (r : Ring) : Ring := { r with prod := if r.prod = r.cons then r.prod + 1 else r.prod, cons := r.cons + 1 }

/-- The function whose requester ID the accesses to a ring carry (R310); 512 stands for the physical function. -/
def ringFunction : RingName → Nat
  | .events v | .faults v | .dirty v | .commands v => v
  | .pfEvents | .pfCommands => 512

/-- The ring of a function that holds commands: the host fills it (R309). -/
def ringOfCommands : RingName → Bool
  | .commands _ | .pfCommands => true
  | .events _ | .faults _ | .dirty _ | .pfEvents => false

/-- The host's address of an address in the host window (R310): the host IOMMU translates it, by 4 KiB pages, for the function that
asks. -/
def hostAddress (vf a : Nat) : Nat := 2 ^ 40 + Config.iommu vf (a % 2 ^ 40 / 4096) % 2 ^ 28 * 4096 + a % 4096

/-- Bytes of host memory that the device writes for a function: rings, their control blocks, buffers (R310). -/
def State.writeHost (s : State) (vf a : Nat) (b : List Byte) : State :=
  { s with host := s.host.writeAll (((List.range b.length).zip b).map fun p => (hostAddress vf (a + p.1) % 2 ^ 40, p.2)) }

/-- The ring of a name. -/
def State.ring? (s : State) : RingName → Option Ring
  | .events v => (s.vf? v).map (·.events)
  | .faults v => (s.vf? v).map (·.faults)
  | .dirty v => (s.vf? v).map (·.dirty)
  | .commands v => (s.vf? v).map (·.commands)
  | .pfEvents => some s.pfEvents
  | .pfCommands => some s.pfCommands

/-- A ring's control block changed, the device's copy alone. -/
def State.keepRing (s : State) (n : RingName) (r : Ring) : State :=
  match n with
  | .events v => s.modVf v fun x => { x with events := r }
  | .faults v => s.modVf v fun x => { x with faults := r }
  | .dirty v => s.modVf v fun x => { x with dirty := r }
  | .commands v => s.modVf v fun x => { x with commands := r }
  | .pfEvents => { s with pfEvents := r }
  | .pfCommands => { s with pfCommands := r }

/-- A ring's control block changed: the 32 bytes that stand in host memory follow (R73, R287); a block at address 0 has not been placed
yet (log entry 69). -/
def State.setRing (s : State) (n : RingName) (r : Ring) : State :=
  let s := s.keepRing n r
  if r.block = 0 then s else s.writeHost (ringFunction n) r.block (bytesOfNat 32 r.word)

/-- A 32-byte record posted to an event ring (R287): dropped and counted when the ring is disabled or full. -/
def State.postTo (s : State) (n : RingName) (w : Nat) : State :=
  match s.ring? n with
  | none => s
  | some r =>
    if r.enabled && !r.full then
      (s.writeHost (ringFunction n) (r.slot 32) (bytesOfNat 32 w)).setRing n r.push
    else s.setRing n r.drop

/-- Posting an event to its virtual function's ring; DIRTY_RING_FULL goes to the physical function's, with its interrupt (R73, R287). -/
def State.post (s : State) (e : Event) : State :=
  if e.code = 0x8006 then { s.postTo .pfEvents e.word with signals := s.signals ++ [.dirtyExit e.vf] } else s.postTo (.events e.vf) e.word

/-- The commands of the physical function (R309): the others come from the function they name. -/
def pfCommand (command : String) : Bool :=
  ["CREATE_VF", "DESTROY_VF", "RESUME_VF", "INVALIDATE", "MIGRATE_OUT", "MIGRATE_IN"].contains command

/-- A command has been taken from its function's command ring and answered with a status record (R309). A command of a function that
does not exist comes through the physical function's ring; RESOLVE, which both may give (R289), through either. -/
def State.status (s : State) (command : String) (vf : Nat) (status : String) (value : Nat) : State :=
  let pf := pfCommand command || (s.vf? vf).isNone || (command == "RESOLVE" && s.drawBool 26 0)
  let n := if pf then RingName.pfCommands else .commands vf
  let s := match s.ring? n with
    | some r => s.setRing n r.take
    | none => s
  { s with statuses := s.statuses ++ [{ command := command, vf := vf, status := status, value := value }] }

/-! ## Outstanding work of a split -/

/-- A request that writes at its home. -/
def ReqKind.writes : ReqKind → Bool
  | .write _ _ | .atomic _ | .hold => true
  | .line op => (match op with | .load | .pref _ => false | _ => true)
  | _ => false

/-- A scratchpad operation that writes. -/
def ScratchOp.writes (o : ScratchOp) : Bool := !(o.bytes.isEmpty && o.nibbles.isEmpty && o.steps.isEmpty)

/-- The reads of a scatter from scratchpad: a store, which leaves no result (R145, R211). -/
def Finish.stores? : Finish → Bool
  | .stores _ _ => true
  | _ => false

/-- The names of the writes and results a split shares with the split it came from (R145, R194). -/
def State.sharedBy (s : State) (r : SplitRef) : List Nat := ((s.split? r).map (·.shared)).getD []

/-- A name is one of the split's own, or one it shares. -/
def State.mine (s : State) (r owner : SplitRef) (id : Nat) : Bool := owner == r || (s.sharedBy r).contains id

/-- The results of a split that have not been written (R145). -/
def State.hasOuts (s : State) (r : SplitRef) : Bool := (s.core r.core).outs.any fun o => s.mine r o.owner o.id && !o.finish.stores?

/-- The old values of an atomic: its split may end without them (R197). -/
def Finish.atomic? : Finish → Bool
  | .olds _ _ => true
  | _ => false

/-- The results that a split waits for before it ends (R145, R197). -/
def State.hasLoads (s : State) (r : SplitRef) : Bool :=
  (s.core r.core).outs.any fun o => s.mine r o.owner o.id && !o.finish.stores? && !o.finish.atomic?

/-- The writes that an outstanding result makes once its reads have come (R211), by name. -/
def Finish.ids : Finish → List Nat
  | .scratch _ ops => ops.map (·.id)
  | .stores _ qs => qs.map (·.id)
  | _ => []

/-- A scratchpad write of a name has not been performed. -/
def Core.unperformed (c : Core) (id : Nat) : Bool := c.sops.any (fun o => o.id == id) || c.outs.any fun o => o.finish.ids.contains id

/-- The scratchpad writes of a split not yet performed (R212). -/
def State.scratchOut (s : State) (r : SplitRef) : List Nat :=
  ((s.core r.core).sops.filter fun o => o.writes && s.mine r o.owner o.id).map (·.id) ++
    (s.core r.core).outs.flatMap fun o =>
      match o.finish with
      | .scratch _ ops => (ops.map (·.id)).filter (s.mine r o.owner)
      | _ => []

/-- An access of a split itself: no part of an engine's work. -/
def Req.own (q : Req) : Bool := q.errand.isNone

/-- The writes of a split to local lines that have not returned: requests and scratchpad operations, by name (R212). Those to another
package or the host window do not count (R275). -/
def State.writesOut (s : State) (r : SplitRef) : List Nat :=
  (s.reqs.filter fun q => q.own && q.kind.writes && !q.home.away && s.mine r q.owner q.id).map (·.id) ++
    ((s.core r.core).outs.flatMap fun o =>
      match o.finish with
      | .stores _ qs => (qs.filter fun q => !q.home.away && s.mine r o.owner q.id).map (·.id)
      | _ => []) ++ s.scratchOut r

/-- The accesses of a split to another package or the host window that have not been acknowledged, by name (R212, R310). -/
def State.remoteOut (s : State) (r : SplitRef) : List Nat :=
  (s.reqs.filter fun q => q.own && q.home.away && s.mine r q.owner q.id).map (·.id) ++
    (s.core r.core).outs.flatMap fun o =>
      match o.finish with
      | .stores _ qs => (qs.filter fun q => q.home.away && s.mine r o.owner q.id).map (·.id)
      | _ => []

/-- The condition of FENCE.scope for a split (R212); `lct` is its latest completion time. -/
def State.fenceMet (s : State) (r : SplitRef) (scope : Scope) (lct : Nat) : Bool :=
  (s.writesOut r).isEmpty &&
    (match scope with
     | .grp | .team => true
     | .clu | .dev => s.coreTime r.core > lct
     | .sys => s.coreTime r.core > lct && (s.remoteOut r).isEmpty)

/-- The condition of FENCEW.scope (R212); `lct` is the latest completion time as it stood at issue. -/
def State.fencewMet (s : State) (r : SplitRef) (scope : Scope) (lct : Nat) : Bool :=
  match scope with
  | .grp | .team => (s.scratchOut r).isEmpty
  | _ => s.coreTime r.core > lct

/-! ## Contexts and placing of groups (R247, R248) -/

/-- A group whose page fault has been posted, or is held, holds no context (R288, R289). -/
def Group.holdsContext (g : Group) : Bool := g.pageWait.isNone

/-- A page fault of a split keeps the group from starting a run (R288). -/
def Group.stalled (g : Group) : Bool := g.pageWait.isSome || g.pageDue.isSome

/-- Resident groups of a partition, each with its kernel's vector registers. -/
def Core.resident (c : Core) (p : Nat) : List Nat :=
  c.teams.flatMap fun t => (t.groups.filter fun g => g.part == p && g.holdsContext).map fun _ => t.kernel.vregs

/-- A partition can take one more group: a free context of 8 and free vector registers of 512 (R246, R84). -/
def Core.fits (c : Core) (vregs p : Nat) : Bool :=
  let l := c.resident p
  l.length < 8 && l.foldl (· + ·) 0 + vregs ≤ 512

/-- The partition a new group goes to (R248): fewest resident groups, then the lower number. -/
def Core.choosePart (c : Core) (vregs : Nat) : Option Nat :=
  ((List.range 16).filter (c.fits vregs)).foldl (fun b p =>
    match b with
    | none => some p
    | some q => if (c.resident p).length < (c.resident q).length then some p else some q) none

/-- The lowest free %grp of a team (R248). -/
def Team.freeGrp (t : Team) : Option Nat :=
  (List.range 32).find? fun n => !(t.groups.any fun g => g.grp == n)

/-- A fresh split at a code index (R251). -/
def Split.fresh (pc : Nat) (mask : Mask) (level : Nat) : Split :=
  { sid := 0, pc := pc, mask := mask, frames := [], level := level, promoted := false, readyTicks := 0, lct := 0, capture := none,
    park := .none, parkedAt := 0, issued := 0, outdone := [], ending := false, run := [], poison := [], deferred := none, yielded := none,
    arrivals := [], shared := [], held := false, resultAt := 0,
    unanswered := none, since := none, born := 0, unwound := false }

/-- A group at its start (R90): every register zero, base registers as if BASE had loaded zero. -/
def Group.fresh (grp part pc : Nat) (mask : Mask) (level : Nat) : Group :=
  { grp := grp, part := part, v := [], s := [], p := [], q := [], b := [], exited := 0, splits := [Split.fresh pc mask level],
    nextSid := 1, tcode := 0, tepc := 0, taddr := 0, tlane := 0, trapSplit := none, trapMask := 0, trapDepth := 0, usync := [],
    triggered := false, dying := false, pageWait := none, pageDue := none, ages := [], pending := none }

/-- The scalar registers s0 to s7 set (R90). -/
def Group.withArgs (g : Group) (args : List Word) : Group :=
  { g with s := ((List.range 8).zip args).foldl (fun l p => setKey l p.1 p.2) g.s }

/-- s0 to s7 of a group. -/
def Group.args (g : Group) : List Word := (List.range 8).map g.sreg

/-- Splits of a group put on a partition, younger than all there, in their own order of ages (R251). -/
def Core.enterSplits (c : Core) (team grp part : Nat) (sids : List Nat) : Core :=
  let c := c.modPart part fun p => { p with order := p.order ++ sids.map fun n => (team, grp, n) }
  let age := fun (p : Split) => if sids.contains p.sid then { p with born := c.births + sids.findIdx (· == p.sid) } else p
  let c := c.modTeam team fun t => t.modGroup grp fun g => { g with splits := g.splits.map age }
  { c with births := c.births + sids.length }

/-- A group added to a team (R251). -/
def Core.addGroup (c : Core) (team : Nat) (g : Group) : Core :=
  (c.modTeam team fun t => { t with groups := t.groups ++ [g] }).enterSplits team g.grp g.part (g.splits.map (·.sid))

/-- A new group of a team at a code index, where the team holds fewer than 32 groups and the core has room (R248). -/
def Core.startGroup (c : Core) (team pc : Nat) (mask : Mask) (level : Nat) (init : Group → Group) : Option (Core × Nat) := do
  let t ← c.team? team
  let grp ← t.freeGrp
  let part ← c.choosePart t.kernel.vregs
  pure (c.addGroup team (init (Group.fresh grp part pc mask level)), grp)

/-! ## Unwinding (R195) -/

/-- The exit a split with an empty mask takes: the exit of its top frame; a CALL frame returns and is popped, an IF or LOOP frame
waits for the word at NEXT or END. None: the stack is empty and the split ends. -/
def unwindFrames (xm : Mask) : List Frame → Option (List Frame × Mask × Nat)
  | [] => none
  | .callF ret ms :: r => if maskMinus ms xm = 0 then unwindFrames xm r else some (r, maskMinus ms xm, ret)
  | .ifF d e next ms fm pair :: r => some (.ifF d e next ms fm pair :: r, 0, next)
  | .loopF st fin ms ct :: r => some (.loopF st fin ms ct :: r, 0, fin)

/-! ## The end of a team (R197) -/

/-- A binding table entry with nothing in it (R101). -/
def Binding.unbound : Binding :=
  { state := .unbound, fmt := .b32, tm := false, grp := 0, slot := 0, back := 0, wel := false, sin := .h2, reason := 0, failVa := 0, part := 0,
    sid := 0, freeing := false, tainted := false, waitFor := [] }

/-- Freeing an entry (R101): one in flight completes first. -/
def Binding.free (b : Binding) : Binding := if b.state == .binding then { b with freeing := true } else Binding.unbound

/-- Resident arrays of entries of one team dropped. -/
def Core.dropArrays (c : Core) (team : Nat) (p : Nat → Bool) : Core :=
  { c with parts := c.parts.map fun x => 
      (x.1, { x.2 with arrays := x.2.arrays.filter fun a => !(a.1 == team && p a.2),
                       loads := x.2.loads.filter fun a => !(a.1.1 == team && p a.1.2) }) }

/-- The join handles of a team. -/
def Core.joinsOf (c : Core) (team : Nat) : List (Nat × Join) :=
  c.joins.filterMap fun p => p.2.bind fun j => if j.team = team then some (p.1, j) else none

/-- Something is pending for a team (R197): a registered continuation, a RUNNING join, a class the tumbler holds. -/
def Core.pendingFor (c : Core) (t : Team) : Bool :=
  t.latches.any (fun l => l.cont.isSome) || (c.joinsOf t.id).any (fun p => p.2.state == .running) || c.held.any (fun h => h.team == t.id)

/-- The copy reads the scratchpad of a team. -/
def CopyReq.readsPad (q : CopyReq) (team : Nat) : Bool :=
  match q.src with
  | .pad _ t _ => t == team
  | .global _ => false

/-- Answers are kept for work of this team: what its splits read, and its joins and subscriptions; its copies go on. -/
def Core.fetchOf (c : Core) (team : Nat) (key : Errand) : Bool :=
  match key with
  | .word r | .push r => r.team == team
  | .join h _ | .cursor h => (getKey none c.joins h).any fun j => j.team == team
  | .draw e => c.subs.any fun x => x.entry == e && x.team == team
  | _ => false

/-- A team leaves its core: handles, subscriptions, queues and arrays are freed; requests of the copy engine keep the scratchpad
they read. -/
def Core.dropTeam (c : Core) (t : Team) : Core :=
  let c := c.dropArrays t.id fun _ => true
  { c with
    fetches := c.fetches.filter fun f => !c.fetchOf t.id f.key
    teams := c.teams.filter fun u => u.id != t.id
    parts := c.parts.map fun x => (x.1, { x.2 with order := x.2.order.filter fun o => o.1 != t.id })
    joins := c.joins.map fun p => (p.1, p.2.bind fun j => if j.team = t.id then none else some j)
    subs := c.subs.filter fun x => x.team != t.id
    held := c.held.filter fun h => h.team != t.id
    lqs := if c.lqTeam = some t.id then [] else c.lqs
    lqTeam := if c.lqTeam = some t.id then none else c.lqTeam
    copyQ := updateIf (fun q => q.readsPad t.id) (fun q => { q with ghost := some t.scratch }) c.copyQ
    copyRun := updateIf (fun q => q.readsPad t.id) (fun q => { q with ghost := some t.scratch }) c.copyRun
    copyFault := updateIf (fun q => q.readsPad t.id) (fun q => { q with ghost := some t.scratch }) c.copyFault }

/-- The teams of a cluster with their cores, by rank (R249). -/
def State.cluster (s : State) (grid clu : Nat) : List (Nat × Team) :=
  (List.range 12).flatMap fun k => s.residents.filter fun p => p.2.grid == grid && p.2.clu == clu && p.2.rank == k

/-- The end of a team; the cluster barriers pass to the lowest rank that is left (R199). -/
def State.endTeam (s : State) (k : Nat) (t : Team) : State :=
  let first := (s.cluster t.grid t.clu).head?.map fun p => p.2.id
  let s := s.modCore k fun c => c.dropTeam t
  if first = some t.id then
    match s.cluster t.grid t.clu with
    | (j, u) :: _ => s.modTeam j u.id fun u => { u with cluBarriers := t.cluBarriers }
    | [] => s
  else s

/-- A team ends at the first moment at which it holds no group and nothing is pending for it (R197). -/
def State.checkTeam (s : State) (k team : Nat) : State :=
  match s.team? k team with
  | none => s
  | some t => if t.groups.isEmpty && !(s.core k).pendingFor t then s.endTeam k t else s

/-! ## Barriers (R199, R200) -/

/-- A barrier of a team, or of its cluster. -/
def Barrier.empty : Barrier := { count := 0, target := 0, fixed := false, phase := 0, groups := [] }

/-- The target a split named when it reached a barrier in this phase, parked or with .arv, its fence having returned. -/
def Split.reached (p : Split) (clu : Bool) (id phase : Nat) : Option Nat :=
  (match p.park with
   | .barrier c i ph n => if c == clu && i == id && ph == phase then some n else none
   | _ => none).orElse fun _ => (p.arrivals.find? fun (a : Arrival) => a.clu == clu && a.id == id && a.phase == phase && a.met).map fun (a : Arrival) => a.n

/-- A group arrives once every one of its live splits has reached the barrier (R199). Where they name different targets the group gives that
of its first split in the order of its table (DESIGN CHOICE, log entry 75: the spec does not say which). -/
def Group.arrives (g : Group) (clu : Bool) (id phase : Nat) : Option Nat :=
  if g.splits.isEmpty || g.splits.any (fun p => (p.reached clu id phase).isNone) then none
  else g.splits.head?.bind fun p => p.reached clu id phase

/-- One more arrival: the first of a phase fixes the target. -/
def Barrier.arrive (b : Barrier) (who : Nat × Nat) (n : Nat) : Barrier :=
  { b with count := b.count + 1, target := if b.fixed then b.target else n, fixed := true, groups := b.groups ++ [who] }

/-- The arrivals of the groups that have come to a barrier and are not yet counted. -/
def Barrier.arrivals (b : Barrier) (clu : Bool) (id : Nat) (ts : List Team) : Barrier :=
  ts.foldl (fun b t => t.groups.foldl (fun b g =>
    match g.arrives clu id b.phase with
    | some n => if b.groups.contains (t.id, g.grp) then b else b.arrive (t.id, g.grp) n
    | none => b) b) b

/-- The barrier completes: the arrivals have reached the target, with n = 0 the number of live groups. -/
def Barrier.complete (b : Barrier) (live : Nat) : Bool :=
  b.fixed && b.count ≥ (if b.target = 0 then live else b.target)

/-- A split of the completed phase is released; one whose fence has not returned waits for the fence alone. -/
def Split.releaseBar (clu : Bool) (id phase : Nat) (p : Split) : Split :=
  let p := { p with arrivals := p.arrivals.filter fun a => !(a.clu == clu && a.id == id && a.phase == phase) }
  match p.park with
  | .barrier c i ph _ => if c == clu && i == id && ph == phase then { p with park := .none } else p
  | .barFence c i ph _ =>
    if c == clu && i == id && ph == phase then { p with park := .fence (if clu then .clu else .team) false 0 } else p
  | _ => p

/-- A group of a completed phase: where every split has reached the barrier, they agree from now on on what each wrote before it did (R145). -/
def Group.releaseBar (clu : Bool) (id phase : Nat) (g : Group) : Group :=
  let agree := (g.arrives clu id phase).isSome
  { g with splits := g.splits.map (Split.releaseBar clu id phase)
           usync := g.usync.filter fun u => !(agree && u.passed.contains (clu, id, phase)) }

def Team.releaseBar (clu : Bool) (id phase : Nat) (t : Team) : Team :=
  { t with groups := t.groups.map (Group.releaseBar clu id phase) }

def setNth {α : Type} (d : α) (l : List α) (n : Nat) (x : α) : List α :=
  if n < l.length then l.set n x else l ++ List.replicate (n - l.length) d ++ [x]

/-- A team barrier looked at again (BARRIER_COMPLETE). -/
def Team.checkBarrier (t : Team) (id : Nat) : Team :=
  let b := (t.barriers.getD id Barrier.empty).arrivals false id [t]
  if b.complete t.groups.length then
    { t.releaseBar false id b.phase with
      barriers := setNth Barrier.empty t.barriers id { Barrier.empty with phase := b.phase + 1 } }
  else { t with barriers := setNth Barrier.empty t.barriers id b }

/-- A cluster barrier looked at again; it is kept with the lowest rank that is resident. -/
def State.checkCluBarrier (s : State) (grid clu id : Nat) : State :=
  let ts := s.cluster grid clu
  match ts with
  | [] => s
  | (k, t) :: _ =>
    let b := (t.cluBarriers.getD id Barrier.empty).arrivals true id (ts.map (·.2))
    let live := ts.foldl (fun n p => n + p.2.groups.length) 0
    if b.complete live then
      let s := ts.foldl (fun s p => s.modTeam p.1 p.2.id (Team.releaseBar true id b.phase)) s
      s.modTeam k t.id fun t =>
        { t with cluBarriers := setNth Barrier.empty t.cluBarriers id { Barrier.empty with phase := b.phase + 1 } }
    else s.modTeam k t.id fun t => { t with cluBarriers := setNth Barrier.empty t.cluBarriers id b }

/-- Every barrier a team takes part in looked at again (R199: whenever a group ends, and at every arrival). -/
def State.checkBarriers (s : State) (k team : Nat) : State :=
  match s.team? k team with
  | none => s
  | some t =>
    let used := t.groups.flatMap fun g => g.splits.flatMap fun p =>
      (match p.park with | .barrier c i _ _ => [(c, i)] | _ => []) ++ p.arrivals.map fun a => (a.clu, a.id)
    let ids := (List.range 16).filter fun i => used.contains (false, i) || (t.barriers.getD i Barrier.empty).fixed
    let s := s.modTeam k team fun t => ids.foldl (fun t i => t.checkBarrier i) t
    let peers := (s.cluster t.grid t.clu).map (·.2)
    let clus := (List.range 4).filter fun i =>
      peers.any fun u => (u.cluBarriers.getD i Barrier.empty).fixed || u.groups.any fun g => g.splits.any fun p =>
        (match p.park with | .barrier c j _ _ => c && j == i | _ => false) || p.arrivals.any fun a => a.clu && a.id == i
    clus.foldl (fun s i => s.checkCluBarrier t.grid t.clu i) s

/-- The phase of a barrier as a split sees it. -/
def State.barPhase (s : State) (t : Team) (clu : Bool) (id : Nat) : Nat :=
  if clu then
    match s.cluster t.grid t.clu with
    | (_, u) :: _ => (u.cluBarriers.getD id Barrier.empty).phase
    | [] => 0
  else (t.barriers.getD id Barrier.empty).phase

/-! ## The end of splits and groups (R195, R197) -/

/-- A group has ended: another of its number may arrive in its own right. -/
def Barrier.forget (b : Barrier) (team grp : Nat) : Barrier := { b with groups := b.groups.filter (· != (team, grp)) }

/-- The barriers of its team and of its cluster without a group that has ended. -/
def State.forgetArrivals (s : State) (k : Nat) (t : Team) (grp : Nat) : State :=
  let s := s.modTeam k t.id fun t => { t with barriers := t.barriers.map (·.forget t.id grp) }
  (s.cluster t.grid t.clu).foldl (fun s p =>
    s.modTeam p.1 p.2.id fun u => { u with cluBarriers := u.cluBarriers.map (·.forget t.id grp) }) s

/-- Writes that a result makes once its reads have come, under another owner. -/
def Finish.reown (f : SplitRef → SplitRef) : Finish → Finish
  | .scratch n ops => .scratch n (ops.map fun o => { o with owner := f o.owner })
  | .stores n qs => .stores n (qs.map fun q => { q with owner := f q.owner })
  | x => x

/-- What splits of a core have in flight goes to other owners. -/
def State.reown (s : State) (k : Nat) (f : SplitRef → SplitRef) : State :=
  let copy := fun (x : CopyReq) => { x with owner := f x.owner }
  let s := { s with reqs := s.reqs.map fun (q : Req) => { q with owner := f q.owner }, msgs := s.msgs.map fun (m : Message) => { m with owner := m.owner.map f } }
  s.modCore k fun c =>
    { c with
      outs := c.outs.map fun (x : Out) => { x with owner := f x.owner, finish := x.finish.reown f }
      sops := c.sops.map fun (x : ScratchOp) => { x with owner := f x.owner }
      copyQ := c.copyQ.map copy, copyRun := c.copyRun.map copy, copyFault := c.copyFault.map copy }

/-- What a group that has ended has in flight completes under a number that no group has: another group may get its %grp (R197, R248). -/
def State.orphan (s : State) (r : SplitRef) : State :=
  s.takeId.2.reown r.core fun x => if x.core = r.core ∧ x.team = r.team ∧ x.grp = r.grp then { x with grp := 32 + s.nextId } else x

/-- A group ends: its group-scope entries are freed (R101); it is triggered at its end, once its stores have completed (R237). -/
def State.endGroup (s : State) (r : SplitRef) : State :=
  match s.team? r.core r.team with
  | none => s
  | some t =>
    let mine := fun (b : Binding) => b.state != .unbound && !b.tm && b.grp == r.grp
    let gone := (List.range t.binds.length).filter fun i => mine (t.binds.getD i Binding.unbound)
    let its := fun (x : SplitRef) => x.core == r.core && x.team == r.team && x.grp == r.grp
    let waits := (s.reqs.filter fun q => its q.owner && q.own && q.kind.writes).map (·.id) ++
      (s.core r.core).outs.flatMap fun o => if its o.owner then o.finish.ids else []
    let trig := ((t.group? r.grp).map (·.triggered)).getD true
    let s := s.modTeam r.core r.team fun t =>
      { t with groups := t.groups.filter fun g => g.grp != r.grp, binds := t.binds.map fun b => if mine b then b.free else b }
    let s := s.modCore r.core fun c => c.dropArrays r.team fun i => gone.contains i
    let s := s.forgetArrivals r.core t r.grp
    let s := if trig then s else s.modGrid t.grid fun g => { g with awaits := g.awaits ++ waits }
    let s := s.orphan r
    (s.checkBarriers r.core r.team).checkTeam r.core r.team

/-- Lanes that leave with a split are taken out of the frames of the group's other splits (log entry 10). -/
def Frame.without (d : Mask) : Frame → Frame
  | .ifF v e n ms fm pr => .ifF v e n (maskMinus ms d) (maskMinus fm d) pr
  | .loopF a b ms ct => .loopF a b (maskMinus ms d) (maskMinus ct d)
  | .callF r ms => .callF r (maskMinus ms d)

/-- A divided frame names a split. -/
def Frame.names (n : Nat) : Frame → Bool
  | .ifF true _ _ _ _ p => p == n
  | _ => false

/-- A split at the end of its ENDIF (R193): the mask is the frame's MS less the exit set, the frame is popped. -/
def Split.afterEndif (xm : Mask) (p : Split) : Split :=
  match p.frames with
  | .ifF _ _ _ ms _ _ :: r => { p with mask := maskMinus ms xm, frames := r, pc := p.pc + 1, park := .none, unwound := false }
  | _ => { p with park := .none }

/-- A split parked at the ENDIF whose pair has ended. -/
def Split.widowed (n : Nat) (p : Split) : Bool :=
  p.park == .merge && (match p.frames with | f :: _ => f.names n | [] => false)

/-- The group without a split that has ended; the splits that waited for it go on alone, and what it wrote is seen by all (R145). When the
handler's split ends, trap mode ends (R285). -/
def Group.loseSplit (g : Group) (n : Nat) (alone : List Nat) : Group :=
  let g : Group := { g with splits := g.splits.filter fun p => p.sid != n }
  let g : Group := { g with splits := g.splits.map fun p => if alone.contains p.sid then p.afterEndif g.exited else p }
  let g : Group := if g.trapSplit = some n then
      { g with trapSplit := none, tcode := 0, taddr := 0, tlane := 0, splits := g.splits.map fun p => { p with held := false } }
    else g
  { g with usync := if g.splits.length ≤ 1 then [] else g.usync.filter fun u => u.writer != n }

/-- The end of one split: it leaves its group and the partition, the splits that waited for it go on alone (R194), and with the
last split the group ends. `n` bounds the chain of ends that follow from it. -/
def endSplitFuel : Nat → State → SplitRef → State
  | 0, s, _ => s
  | n + 1, s, r =>
    match s.group? r with
    | none => s
    | some g =>
      let alone := (g.splits.filter (Split.widowed r.split)).map (·.sid)
      let s := s.modGroup r fun g => g.loseSplit r.split alone
      let s := s.modCore r.core fun c => c.modPart g.part fun p =>
        { p with order := p.order.filter fun o => o != (r.team, r.grp, r.split) }
      let s := alone.foldl (fun s a =>
        match s.split? (r.other a) with
        | none => s
        | some p =>
          if p.mask = 0 then
            match unwindFrames g.exited p.frames with
            | none => endSplitFuel n s (r.other a)
            | some (fr, m, pc) => s.modSplit (r.other a) fun p => { p with frames := fr, mask := m, pc := pc, unwound := m == 0 }
          else s) s
      match s.group? r with
      | none => s
      | some g => if g.splits.isEmpty then s.endGroup r else s.checkBarriers r.core r.team

/-- The end of a split (R195). A group has at most four. -/
def State.endSplit (s : State) (r : SplitRef) : State := endSplitFuel 4 s r

/-- A split whose mask may have become empty unwinds (R195). One that ends while results of its run are outstanding ends when they
have been written (R145), or takes its deferred fault then. -/
def State.unwind (s : State) (r : SplitRef) : State :=
  match s.group? r, s.split? r with
  | some g, some p =>
    if p.mask = 0 then
      match unwindFrames g.exited p.frames with
      | none => if s.hasLoads r || p.deferred.isSome then s.modSplit r fun p => { p with frames := [], ending := true } else s.endSplit r
      | some (fr, m, pc) => s.modSplit r fun p => { p with frames := fr, mask := m, pc := pc, unwound := m == 0 }
    else s
  | _, _ => s

/-! ## Merging (R194) -/

/-- A frame of the survivor and the same frame of the other split: MS intersected, CT united. -/
def Frame.meet : Frame → Frame → Frame
  | .ifF v e n ms fm p, .ifF _ _ _ ms' _ _ => .ifF v e n (ms &&& ms') fm p
  | .loopF a b ms ct, .loopF _ _ ms' ct' => .loopF a b (ms &&& ms') (ct ||| ct')
  | .callF r ms, .callF _ ms' => .callF r (ms &&& ms')
  | f, _ => f

/-- A split stands parked at an ENDIF with a divided frame that names a split. -/
def Split.waitsFor (p : Split) (n : Nat) : Bool :=
  p.park == .merge && !p.ending && (match p.frames with | f :: _ => f.names n | [] => false)

/-- The other split of a divided frame. -/
def Split.pair (p : Split) : Option Nat :=
  match p.frames with
  | .ifF true _ _ _ _ n :: _ => some n
  | _ => none

/-- The older of two splits survives: both masks, the frames met, the larger completion time, the frame popped (R193, R194). A barrier that
either has passed with .arv counts as reached (DESIGN CHOICE, log entry 76). -/
def Split.merged (xm : Mask) (a b : Split) : Split :=
  { Split.afterEndif xm { a with frames := List.zipWith Frame.meet a.frames b.frames } with
    lct := max a.lct b.lct, arrivals := a.arrivals ++ b.arrivals, shared := a.shared ++ b.shared,
    unanswered := a.unanswered.orElse fun _ => b.unanswered }

/-- What the younger split has in flight is the survivor's from now on. -/
def State.inherit (s : State) (k : SplitRef) (young old : Nat) : State := s.reown k.core fun r => if r = k.other young then k.other old else r

/-- The younger split leaves the split table. -/
def Group.mergeSplits (g : Group) (old young : Nat) (m : Split) : Group :=
  let g : Group := { (g.modSplit old fun _ => m) with splits := (g.modSplit old fun _ => m).splits.filter fun p => p.sid != young }
  if g.splits.length ≤ 1 then { g with usync := [] }
  else
    { g with usync := g.usync.map fun u =>
        { u with writer := if u.writer = young then old else u.writer, knows := if u.knows.contains young then u.knows ++ [old] else u.knows } }

/-- Merge(f) (R194): where the pair has arrived the older survives; where it has ended the split goes on alone. -/
def State.tryMerge (s : State) (r : SplitRef) : State :=
  match s.group? r, s.split? r with
  | some g, some p =>
    match p.pair with
    | none => s
    | some n =>
      if !(p.waitsFor n) then s
      else
        match g.split? n with
        | none => (s.modSplit r (Split.afterEndif g.exited)).unwind r
        | some q =>
          if q.waitsFor r.split && q.pc = p.pc && q.frames.length = p.frames.length then
            let order := ((s.core r.core).part g.part).order
            let i := order.findIdx (· == (r.team, r.grp, p.sid))
            let j := order.findIdx (· == (r.team, r.grp, q.sid))
            let (old, young) := if i ≤ j then (p, q) else (q, p)
            let s := s.modGroup r fun g => g.mergeSplits old.sid young.sid (Split.merged g.exited old young)
            let s := s.modCore r.core fun c => c.modPart g.part fun x =>
              { x with order := x.order.filter fun o => o != (r.team, r.grp, young.sid) }
            let s := s.inherit r young.sid old.sid
            (s.unwind (r.other old.sid)).checkBarriers r.core r.team
          else s
  | _, _ => s

/-! ## Taking a fault (R283 to R285, R288) -/

/-- Another split of the group is in trap mode: this one starts no run (R284). -/
def Group.suspends (g : Group) (n : Nat) : Bool := (g.split? n).any (·.held)

/-- Trap mode ends: the parked splits resume (R285, R286). -/
def Group.resume (g : Group) : Group := { g with splits := g.splits.map fun p => { p with held := false } }

/-- Entry to trap mode (R285). -/
def Group.enterTrap (g : Group) (n entry : Nat) (f : FaultRec) : Group :=
  let p := (g.split? n).getD (Split.fresh 0 0 0)
  let g : Group := { g with splits := g.splits.map fun q => { q with held := q.sid != n } }
  { g.modSplit n (fun p => { p with pc := entry, park := .none, unwound := false }) with
    tcode := f.kind.code, tepc := f.pc, taddr := if f.kind.hasAddr then f.addr else 0,
    tlane := f.lane.getD (2 ^ 32 - 1), trapSplit := some n, trapMask := p.mask, trapDepth := p.frames.length }

/-- The event of a group that ends by a fault (R284): with a double fault CODE1 is the fault being handled. -/
def Group.faultEvent (g : Group) (v : VfConfig) (k t : Nat) (f : FaultRec) : Event :=
  { code := 0x8007, vf := v.id, srck := 0, src := v.coreIndex k, item := g.grp, lane := f.lane.getD 63,
    addr := if f.kind.hasAddr then f.addr else 0, count := f.pc, time := t,
    code1 := if g.trapSplit.isSome then g.tcode else f.kind.code, code2 := if g.trapSplit.isSome then f.kind.code else 0 }

/-- A split is between runs: it stops at once when its group ends (R284, R291). A split parked at a barrier, a merge or an instruction that
parks counts so (R217); one that a fence, an .acq or .rel form, a bind, or reads of its own hold in the middle of a run does not, and one
whose ENQ the home has yet to answer does not (R231). -/
def Split.betweenRuns (p : Split) : Bool :=
  !p.ending &&
    (match p.park with
     | .merge | .barrier .. | .barFence .. | .instr .. => true
     | .enq _ _ full => full
     | .none | .fence .. | .release .. | .asks .. | .interlock _ | .acquire _ | .fill _ => p.run.isEmpty)

/-- A group that ends by a fault: the faulting split and every split between runs end now, the others at their run ends. -/
def State.killGroup (s : State) (r : SplitRef) : State :=
  match s.group? r with
  | none => s
  | some g =>
    let now := (g.splits.filter fun p => p.sid == r.split || p.betweenRuns).map (·.sid)
    let s := s.modGroup r fun g => { g with dying := true, trapSplit := none }
    now.foldl (fun s n => if (s.split? (r.other n)).isSome then s.endSplit (r.other n) else s) s

/-- A fault is taken (R284): with TRAPV the split enters trap mode, else, or inside trap mode, the group ends. -/
def State.enterFault (s : State) (r : SplitRef) (f : FaultRec) : State :=
  match s.team? r.core r.team, s.group? r with
  | some t, some g =>
    match s.grid? t.grid, s.vf? t.vf with
    | some gr, some v =>
      if gr.trapv && g.trapSplit.isNone then
        let s := s.modGroup r fun g => g.enterTrap r.split gr.trape f
        if (s.split? r).any fun p => p.mask == 0 && p.frames.isEmpty then s.endSplit r else s
      else (s.post (g.faultEvent v.cfg r.core (s.vfTime r.core t.vf) f)).killGroup r
    | _, _ => s
  | _, _ => s

/-- The 256 bits of a fault ring record (R288). -/
def faultRecord (vf srck src acc token va time : Nat) : Nat :=
  0x0008 + vf * 2 ^ 16 + srck * 2 ^ 25 + src % 2 ^ 8 * 2 ^ 27 + acc * 2 ^ 35 + token % 2 ^ 16 * 2 ^ 48 + va % 2 ^ 64 * 2 ^ 64 +
    time % 2 ^ 64 * 2 ^ 128

/-- SRCK of a fault record (R288). -/
def Waiter.srck : Waiter → Nat
  | .group .. => 0
  | .copy .. => 1
  | .join .. => 2
  | .draw .. => 3

/-- The record of a waiting page fault written to the fault ring (R288). -/
def State.writeFault (s : State) (v : Vf) (w : FaultWait) : State :=
  let bytes := bytesOfNat 32 (faultRecord v.cfg.id w.who.srck (v.cfg.coreIndex w.core) w.acc w.token w.va (s.vfTime w.core v.cfg.id))
  (s.writeHost v.cfg.id (v.faults.slot 32) bytes).setRing (.faults v.cfg.id) v.faults.push

/-- A write has met the full log: DIRTY_RING_FULL is posted once for each fill. -/
def State.logFull (s : State) (vf : Nat) (srck src t : Nat) : State :=
  match s.vf? vf with
  | none => s
  | some v =>
    if v.dirty.told || !v.dirty.full then s
    else (s.keepRing (.dirty vf) { v.dirty with told := true }).post { code := 0x8006, vf := vf, srck := srck, src := src, time := t }

/-- The first token from a number up that nothing waits under (R288). -/
def freshToken (used : List Nat) : Nat → Nat → Nat
  | 0, t => t
  | n + 1, t => if used.contains t then freshToken used n ((t + 1) % 65536) else t

/-- A page fault is posted, or held at its source while the ring is full (R288, R290): its token; a held one sets OVF, and
FAULT_RING_OVERFLOW is posted once for each transition to full. -/
def State.postPageFault (s : State) (vf core va acc : Nat) (who : Waiter) (f : FaultRec) : State × Nat :=
  match s.vf? vf with
  | none => (s, 0)
  | some v =>
    let tok := freshToken (v.waits.map (·.token)) v.waits.length v.nextToken
    let room := v.faults.enabled && !v.faults.full
    let w : FaultWait := { token := tok, who := who, core := core, va := va, acc := acc, fault := f, posted := room, answer := none }
    let s := if room then s.writeFault v w else s
    let s := s.modVf vf fun v => { v with waits := v.waits ++ [w], nextToken := (tok + 1) % 65536 }
    if room then (s, tok)
    else
      let s := s.setRing (.faults vf) { v.faults with ovf := true, told := true }
      (if v.faults.told then s else s.post { code := 0x8005, vf := vf, srck := 2, src := core / 48, time := s.vfTime core vf }, tok)

/-- The results that a split at its run end waits for have been written, those with a stated latency included (R145, R162): of one that ends
the old values of atomics are not among them (R197). -/
def State.resultsIn (s : State) (r : SplitRef) (p : Split) : Bool :=
  p.resultAt ≤ s.time && !(if p.mask = 0 && p.frames.isEmpty then s.hasLoads r else s.hasOuts r)

/-- A split stands at a run end, its results written, or is parked (R217, R291); not while the home has yet to answer its ENQ (R231). -/
def State.standing (s : State) (r : SplitRef) (p : Split) : Bool :=
  if s.reqs.any fun q => q.errand == some (.push r) then false
  else if p.ending then s.resultsIn r p else p.betweenRuns

/-- A page fault of a split's access parks its group (R288). -/
def State.parkGroup (s : State) (r : SplitRef) (f : FaultRec) : State := s.modGroup r fun g => { g with pageDue := some (r.split, f) }

/-- Once every split of a group that waits for a page stands at its run end, its context is freed and the record is posted (R288). -/
def State.postDue (s : State) (r : SplitRef) : State :=
  match s.team? r.core r.team, s.group? r with
  | some t, some g =>
    match g.pageDue with
    | none => s
    | some (n, f) =>
      if g.dying || g.splits.any fun p => !s.standing (r.other p.sid) p then s
      else
        let its := fun (o : Nat × Nat × Nat) => o.1 == r.team && o.2.1 == r.grp
        let ages := (((s.core r.core).part g.part).order.filter its).map (·.2.2)
        let s := s.modCore r.core fun c => c.modPart g.part fun p => { p with order := p.order.filter fun o => !its o }
        let p := s.postPageFault t.vf r.core f.addr f.acc (.group r.core r.team r.grp n) f
        p.1.modGroup r fun g => { g with pageDue := none, pageWait := some p.2, ages := ages }
  | _, _ => s

/-- BREAKPOINT under an attached debugger (R295): the team halts in place of trapping and BREAK_HALT is posted; the split goes on
after the BRK when it resumes (log entry 11). -/
def State.breakHalt (s : State) (r : SplitRef) (f : FaultRec) : State :=
  match s.team? r.core r.team with
  | none => s
  | some t =>
    match s.vf? t.vf with
    | none => s
    | some v =>
      let s := s.modTeam r.core r.team fun t => { t with halted := true }
      let s := s.modSplit r fun p => { p with pc := f.pc + 1 }
      s.post { code := 0x8009, vf := t.vf, srck := 0, src := v.cfg.coreIndex r.core, item := r.grp, code1 := f.kind.code,
               time := s.vfTime r.core t.vf }

/-- What a fault does once the split's earlier results have been written. -/
def State.raise (s : State) (r : SplitRef) (f : FaultRec) : State :=
  match f.kind with
  | .pageFault => s.parkGroup r f
  | .breakpoint _ =>
    if ((s.team? r.core r.team).bind fun t => s.vf? t.vf).any (·.debugger) then s.breakHalt r f else s.enterFault r f
  | _ => s.enterFault r f

/-- At the end of a run, once every result has been written: the run is over, a fault
that waited is taken (R283), a split
of a group that ends stops. While another split of the group is in trap mode the fault waits (R284). -/
def State.settle (s : State) (r : SplitRef) : State :=
  match s.group? r, s.split? r with
  | some g, some p =>
    if p.ending && s.resultsIn r p then
      if g.dying then (s.modSplit r fun p => { p with ending := false, run := [], deferred := none }).endSplit r
      else
        match p.deferred with
        | none =>
          let s := s.modSplit r fun p => { p with ending := false, run := [], poison := [] }
          if p.mask = 0 && p.frames.isEmpty then s.endSplit r else s.tryMerge r
        | some f =>
          if g.suspends r.split || g.stalled then s
          else (s.modSplit r fun p => { p with ending := false, run := [], poison := [], deferred := none }).raise r f
    else s
  | _, _ => s

/-- The splits of a group looked at again: a fault that waited is taken, a run that is over ends. -/
def State.settleGroup (s : State) (r : SplitRef) : State :=
  match s.group? r with
  | none => s
  | some g => ((g.splits.map (·.sid)).foldl (fun s n => s.settle (r.other n)) s).postDue r

/-- A fault found at issue (R283): it is taken once the earlier results are written. When another split of the group has faulted,
this one stops before the instruction and takes nothing (R284). -/
def State.faultAt (s : State) (r : SplitRef) (f : FaultRec) : State :=
  match s.group? r with
  | none => s
  | some g =>
    let stops := g.dying || g.suspends r.split || g.stalled
    (s.modSplit r fun p =>
      { p with ending := true, park := .none, since := none, promoted := false, readyTicks := 0,
               deferred := if p.deferred.isSome || stops then p.deferred else some f }).settleGroup r

/-- Every split of the part, with its place. -/
def State.splitRefs (s : State) : List (SplitRef × Split) :=
  s.residents.flatMap fun (q : Nat × Team) => q.2.groups.flatMap fun g => g.splits.map fun p =>
    (({ core := q.1, team := q.2.id, grp := g.grp, split := p.sid } : SplitRef), p)

/-- The splits that wait at their run end looked at again, the results due by now having been written. -/
def State.settleDue (s : State) : State :=
  ((s.splitRefs.filter fun (q : SplitRef × Split) => q.2.ending && q.2.resultAt ≤ s.time).map (·.1)).foldl State.settleGroup s

/-! ## Fences of parked splits (R200, R212) -/

/-- What a fence waits for has come: a parked split goes on, or has reached its barrier; the fence of a barrier passed with .arv has
returned. -/
def State.checkFence (s : State) (r : SplitRef) : State :=
  match s.split? r with
  | none => s
  | some p =>
    let out := s.writesOut r
    let s := s.modSplit r fun p =>
      { p with arrivals := p.arrivals.map fun a =>
          if a.ids.any out.contains || (a.clu && s.coreTime r.core ≤ a.lct) then a else { a with met := true } }
    let s := match p.park with
      | .barFence clu id phase n =>
        if s.fenceMet r (if clu then .clu else .team) p.lct then s.modSplit r fun p => { p with park := .barrier clu id phase n } else s
      | .fence scope only lct =>
        if (if only then s.fencewMet r scope lct else s.fenceMet r scope p.lct) then s.modSplit r fun p => { p with park := .none } else s
      | _ => s
    s.checkBarriers r.core r.team

/-! ## The return from trap mode (R286) -/

/-- RETT: the mask is the trap mask less the exit set, the pc TEPC, or TEPC + 1 with .skip; the other splits resume. -/
def Group.leaveTrap (g : Group) (n : Nat) (skip : Bool) : Group :=
  { g.resume.modSplit n (fun p => { p with mask := maskMinus g.trapMask g.exited, pc := if skip then g.tepc + 1 else g.tepc }) with
    tcode := 0, taddr := 0, tlane := 0, trapSplit := none }

end Sys2Proof.Machine
end

