-- ==== Sys2Proof/Machine/HingeOps.lean ====
section
/-!
DEFINITION. What is shared by the hinge processors' steps: raising triggers into the queue (03 R39 to R42), aborts and counters
(R37, R48 to R50), and the slot control word (R38).
-/
namespace Sys2Proof.Machine

/-- Kind numbers of R39. -/
def TrigKind.code : TrigKind → Nat
  | .miss => 0
  | .fill => 1
  | .evict => 2
  | .msg => 3

/-- A counter of 32 bits saturates (R37). -/
def satInc (n : Nat) : Nat := min (n + 1) (2 ^ 32 - 1)

/-- The slot control word (R38). -/
def HingeSlot.control (h : HingeSlot) : Nat :=
  h.entry % 2 ^ 13 + h.trig % 16 * 2 ^ 13 + h.bmiss % 128 * 2 ^ 17 + h.bfill % 128 * 2 ^ 24 + h.bevict % 128 * 2 ^ 31 +
    h.bmsg % 128 * 2 ^ 38 + h.vf % 512 * 2 ^ 45 + h.loaded.toNat * 2 ^ 54

/-- The budget of a kind in slice cycles (R38, R48). -/
def HingeSlot.budget (h : HingeSlot) (k : TrigKind) : Nat :=
  ((match k with
    | .miss => h.bmiss
    | .fill => h.bfill
    | .evict => h.bevict
    | .msg => h.bmsg) + 1) * 16

/-- An event of a slice for a slot, at most one of each type in 65,536 ticks (R50). -/
def State.postHinge (s : State) (n slot code kind reason a1 count : Nat) : State :=
  let h := (s.slice n).slot slot
  let now := s.sliceTime n
  match h.posted.find? fun p => p.1 == code with
  | some (_, t) => if now - t < 65536 then s else go h now
  | none => go h now
where
  /-- The posting itself. -/
  go (h : HingeSlot) (now : Nat) : State :=
    let s := s.modSlice n fun c => c.modSlot slot fun h => { h with posted := setKey h.posted code now }
    s.post { code := code, vf := h.vf, srck := 1, src := n, item := slot, tkind := kind, reason := reason, addr := a1,
             count := count, time := (now + ((s.vf? h.vf).map (·.offset)).getD 0) % 2 ^ 64 }

/-- A slot accepts a trigger of a kind for a virtual function (R39). -/
def HingeSlot.accepts (h : HingeSlot) (vf : Nat) (k : TrigKind) : Bool := h.loaded && h.vf == vf && h.trig.testBit k.code

/-- Snapshot buffers in use: those of waiting triggers and of the running handler (R40). -/
def Slice.snapshots (c : Slice) : Nat :=
  (c.queue.filter fun t => t.snap.isSome).length + (if (c.run.bind (·.trigger.snap)).isSome then 1 else 0)

/-- A trigger is raised, in either slice cycle of the tick (log entry 16): it joins the queue, or is discarded with HINGE_DROP when 32 wait, or
an EVICT finds no snapshot buffer (R40, R41). -/
def State.raiseTrigger (s : State) (n : Nat) (t : Trigger) : State :=
  let c := s.slice n
  if c.queue.length ≥ 32 || (t.snap.isSome && c.snapshots ≥ 8) then
    let s := s.modSlice n fun c => c.modSlot t.slot fun h => { h with hdrop := satInc h.hdrop }
    s.postHinge n t.slot 0x8003 t.kind.code 0 t.a1 ((s.slice n).slot t.slot).hdrop
  else s.modSlice n fun c => { c with queue := c.queue ++ [{ t with at_ := 2 * s.time + s.draw 16 c.queue.length % 2 }] }

/-- The slot of a virtual function at a slice, where it has one loaded with a kind enabled. -/
def State.triggerSlot (s : State) (n vf : Nat) (k : TrigKind) : Option Nat := do
  let v ← s.vf? vf
  let slot ← v.cfg.hingeSlot
  if ((s.slice n).slot slot).accepts vf k then pure slot else none

/-- The number under which a slice's line operations are ordered, past those of the cores. -/
def hingeCore (n : Nat) : Nat := 192 + n

/-- A handler ends by an abort (R48, R49): the counter rises and the event is posted. R326 gives an aborting instruction no cost: the next
handler may start in the slice cycle after the one in which it issued, and after an overrun in the cycle in which the budget is reached
(DESIGN CHOICE, log entry 71). -/
def State.abortHandler (s : State) (n reason : Nat) : State :=
  match (s.slice n).run with
  | none => s
  | some h =>
    let at_ := if reason = 7 then h.start + ((s.slice n).slot h.slot).budget h.trigger.kind else h.start + h.cycle + 1
    let s := (s.forget (hingeCore n) (.hinge n)).modSlice n fun c => { c with run := none, freeAt := at_ }
    if reason = 7 then
      let s := s.modSlice n fun c => c.modSlot h.slot fun x => { x with hover := satInc x.hover }
      s.postHinge n h.slot 0x8002 h.trigger.kind.code 7 h.trigger.a1 ((s.slice n).slot h.slot).hover
    else
      let s := s.modSlice n fun c => c.modSlot h.slot fun x => { x with hfault := satInc x.hfault }
      s.postHinge n h.slot 0x8004 h.trigger.kind.code reason h.trigger.a1 ((s.slice n).slot h.slot).hfault

end Sys2Proof.Machine
end

