-- ==== Sys2Proof/Machine/Shapes.lean ====
section
/-!
DEFINITION. The opcode numbers and the shapes of the KIS-3 words (09 R135 to R147, and the encoding tables R163, R169, R171,
R176, R179, R183 to R188, R192, R201, R204, R206, R210, R213, R219, R221, R224, R225, R230, R241): which fields a word uses and
which modifier bits it reads. The checks of R148 steps 1 and 2 rest on them.
-/
namespace Sys2Proof

/-- The opcode number (R147) and the common fields of a KIS-3 instruction; none for every other step. -/
def Instr.code : Instr → Option (Nat × Ops)
  | .nop o => some (0x000, o)
  | .if_ o _ _ => some (0x001, o)
  | .else_ o _ => some (0x002, o)
  | .endif o => some (0x003, o)
  | .loop o _ => some (0x004, o)
  | .endloop o => some (0x005, o)
  | .break_ o _ => some (0x006, o)
  | .cont o _ => some (0x007, o)
  | .jmp o _ => some (0x008, o)
  | .call o _ => some (0x009, o)
  | .ret o _ => some (0x00A, o)
  | .exit o => some (0x00B, o)
  | .yield o _ _ => some (0x00C, o)
  | .bar o _ => some (0x00D, o)
  | .barc o _ => some (0x00E, o)
  | .mov o _ => some (0x100, o)
  | .movi o _ => some (0x101, o)
  | .iadd o _ _ => some (0x102, o)
  | .isub o _ _ => some (0x103, o)
  | .imul o _ => some (0x104, o)
  | .imad o _ => some (0x105, o)
  | .imulhi o _ => some (0x106, o)
  | .imin o _ => some (0x107, o)
  | .imax o _ => some (0x108, o)
  | .iabs o _ _ => some (0x109, o)
  | .ineg o _ _ => some (0x10A, o)
  | .lea64 o _ _ => some (0x10B, o)
  | .iset o _ _ => some (0x10C, o)
  | .sel o _ => some (0x10D, o)
  | .plop o _ => some (0x10E, o)
  | .and o _ => some (0x200, o)
  | .or o _ => some (0x201, o)
  | .xor o _ => some (0x202, o)
  | .not o _ => some (0x203, o)
  | .shl o _ => some (0x204, o)
  | .shr o _ => some (0x205, o)
  | .sar o _ => some (0x206, o)
  | .bfx o _ _ => some (0x207, o)
  | .bfi o _ => some (0x208, o)
  | .popc o _ => some (0x209, o)
  | .clz o _ => some (0x20A, o)
  | .brev o _ => some (0x20B, o)
  | .fadd o => some (0x300, o)
  | .fsub o => some (0x301, o)
  | .fmul o => some (0x302, o)
  | .ffma o => some (0x303, o)
  | .fmin o => some (0x304, o)
  | .fmax o => some (0x305, o)
  | .fmaxx o => some (0x306, o)
  | .fminx o => some (0x307, o)
  | .fabs o => some (0x308, o)
  | .fneg o => some (0x309, o)
  | .fset o _ => some (0x30A, o)
  | .frnd o => some (0x30B, o)
  | .frcp o => some (0x400, o)
  | .frsq o => some (0x401, o)
  | .fsqrt o => some (0x402, o)
  | .fex2 o => some (0x403, o)
  | .flg2 o => some (0x404, o)
  | .fsin o => some (0x405, o)
  | .fcos o => some (0x406, o)
  | .ftanh o => some (0x407, o)
  | .hrnd o => some (0x408, o)
  | .padd o _ _ => some (0x500, o)
  | .psub o _ _ => some (0x501, o)
  | .pmul o _ _ => some (0x502, o)
  | .pfma o _ _ => some (0x503, o)
  | .pmin o _ => some (0x504, o)
  | .pmax o _ => some (0x505, o)
  | .pset o _ _ _ => some (0x506, o)
  | .pdot o _ _ => some (0x507, o)
  | .cvt o _ _ _ => some (0x600, o)
  | .pack2 o _ _ => some (0x601, o)
  | .pack4 o _ _ => some (0x602, o)
  | .unpk o _ => some (0x603, o)
  | .fkey o _ => some (0x604, o)
  | .sprune o _ => some (0x605, o)
  | .qscale o _ => some (0x606, o)
  | .cambind o _ _ _ _ => some (0x700, o)
  | .camwait o => some (0x701, o)
  | .camfree o _ => some (0x702, o)
  | .caminfo o => some (0x703, o)
  | .shfl o _ _ => some (0x704, o)
  | .lanebc o _ => some (0x705, o)
  | .vote o _ => some (0x706, o)
  | .match_ o _ => some (0x707, o)
  | .elect o => some (0x708, o)
  | .base o => some (0x800, o)
  | .ld o _ => some (0x801, o)
  | .st o _ => some (0x802, o)
  | .ldu o _ => some (0x803, o)
  | .stu o _ => some (0x804, o)
  | .lds o _ => some (0x805, o)
  | .sts o _ => some (0x806, o)
  | .pref o _ _ => some (0x807, o)
  | .icpref o => some (0x808, o)
  | .gld o _ => some (0x900, o)
  | .gst o _ => some (0x901, o)
  | .glds o _ => some (0x902, o)
  | .gsts o _ => some (0x903, o)
  | .atom o _ => some (0xA00, o)
  | .atoms o _ => some (0xA01, o)
  | .atomu o _ => some (0xA02, o)
  | .red o _ => some (0xA03, o)
  | .fence o _ => some (0xA04, o)
  | .fencew o _ => some (0xA05, o)
  | .tdld o => some (0xB00, o)
  | .tdinv o => some (0xB01, o)
  | .cpy o _ => some (0xB02, o)
  | .cpyw o _ => some (0xB03, o)
  | .cpyb o _ _ _ => some (0xB04, o)
  | .ltinit o => some (0xB05, o)
  | .ltexpect o => some (0xB06, o)
  | .ltarrive o _ => some (0xB07, o)
  | .ltwait o => some (0xB08, o)
  | .lttest o => some (0xB09, o)
  | .ltcont o _ => some (0xB0A, o)
  | .ltreset o => some (0xB0B, o)
  | .tstsp o => some (0xB0C, o)
  | .tldsp o => some (0xB0D, o)
  | .jdesc o => some (0xC00, o)
  | .join o _ _ _ => some (0xC01, o)
  | .jresume o => some (0xC02, o)
  | .jstat o _ => some (0xC03, o)
  | .jcancel o => some (0xC04, o)
  | .enq o _ _ => some (0xD00, o)
  | .qsub o _ _ => some (0xD01, o)
  | .qunsub o _ _ => some (0xD02, o)
  | .qpop o _ => some (0xD03, o)
  | .qpush o _ => some (0xD04, o)
  | .spawn o _ _ => some (0xD05, o)
  | .ggrow o => some (0xD06, o)
  | .launch o _ => some (0xD07, o)
  | .trigger o => some (0xD08, o)
  | .smsg o _ _ => some (0xD09, o)
  | .trap o => some (0xE00, o)
  | .rett o _ => some (0xE01, o)
  | .rdsr o _ => some (0xE02, o)
  | .wrsr o _ => some (0xE03, o)
  | .featq o => some (0xE04, o)
  | .icinv o => some (0xE05, o)
  | .brk o => some (0xE06, o)
  | .time o => some (0xE07, o)
  | .camBindComplete .. | .camResidencyLoad .. | .fenceRelease .. | .copyRequestStart .. | .copyDeliver ..
  | .latchContinuationStart .. | .latchStall .. | .joinSegment .. | .keywayGroupForm .. | .tumblerDraw ..
  | .heldClassPlace .. | .resultReturn .. | .parkedInstructionAct .. | .promotion .. | .hlLd .. | .hlSt ..
  | .hlAtomic .. | .hlInstall .. | .hlPref .. | .hlMsg .. | .hlBudget .. | .hlDone | .handlerDispatch ..
  | .hingeOverrun .. | .messageArrive .. | .homeRead .. | .homeWrite .. | .homeStrongAccess .. | .homeAtomic ..
  | .enqPush .. | .lineFill .. | .lineEvict .. | .replicaInstall .. | .dirtyRingRoom .. | .remoteRequest ..
  | .fabricTimeout .. | .dramRefresh .. | .temperatureReport .. | .powerThrottle | .teamPlace .. | .nodeStart ..
  | .nodeEvaluate .. | .gridTrigger .. | .gridRetire .. | .preemptTeam .. | .teamResume .. | .quantumEnd ..
  | .faultRingRoom .. | .kis1Translate .. | .icFill .. | .handlerImageInstall .. | .createVf .. | .destroyVf ..
  | .resumeVf .. | .loadObject .. | .unloadObject .. | .submitGraph .. | .invalidate .. | .invalidateComplete ..
  | .resolveRetry .. | .resolveFail .. | .readCounters .. | .halt .. | .quiesce .. | .resume .. | .readContext ..
  | .writeContext .. | .migrateOut .. | .migrateIn .. | .coldStart .. | .warmStart .. | .fullServiceChange
  | .onlineRowReplacement .. | .fabricLaneRetrain .. | .deviceTimeTick | .lostSectorClear .. | .powerThrottleEnd
  | .debuggerAttach .. | .hingeRiscvInstruction .. | .unitMarkedSuspect ..
      => none

/-- What a word of one opcode uses (R137, R139, R141, R142, R143): the operand fields, the bits of M it reads beside OPM, the
OPM and X bits it reads, whether it reads the hint, and whether its guards must be the constant q7 (R192). -/
structure Shape where
  d : Bool := false
  a : Bool := false
  b : Bool := false
  c : Bool := false
  e : Bool := false
  lv : Bool := false
  ftz : Bool := false
  rm : Bool := false
  i32 : Bool := false
  hint : Bool := false
  always : Bool := false
  marker : Bool := false
  opm : Nat := 0
  x : Nat := 0
deriving DecidableEq, Repr

/-- The shape of each KIS-3 instruction; none for every other step. PLOP reads no LV, as R163's table says and against R159, which has every
instruction of majors 1 to 6 read it: its word with LV set is illegal (DEDUCED, log entry 82). -/
def Instr.shape : Instr → Option Shape
  -- control (R192)
  | .nop _ => some {}
  | .if_ _ _ _ => some { a := true, opm := 0x1, x := 0x3FFF, always := true }
  | .else_ _ _ => some { x := 0x3FFF, always := true }
  | .endif _ => some { always := true }
  | .loop _ _ => some { x := 0x3FFF, always := true }
  | .endloop _ => some { always := true }
  | .break_ _ _ => some { a := true, opm := 0x1, always := true }
  | .cont _ _ => some { a := true, opm := 0x1, always := true }
  | .jmp _ _ => some { a := true, b := true, opm := 0x1, i32 := true, always := true }
  | .call _ _ => some { a := true, b := true, opm := 0x1, i32 := true, always := true }
  | .ret _ _ => some { a := true, opm := 0x1, always := true }
  | .exit _ => some {}
  | .yield _ lat _ => some { a := lat, b := lat, opm := 1, x := if lat then 0x3FFF else 0 }
  | .bar _ _ => some { a := true, b := true, opm := 0x1 }
  | .barc _ _ => some { a := true, b := true, opm := 0x1 }
  -- integer (R163)
  | .mov _ _ => some { d := true, a := true, opm := 0x3, lv := true, i32 := true }
  | .movi _ _ => some { d := true, a := true, opm := 0x3, lv := true, i32 := true, marker := true }
  | .iadd _ _ _ => some { d := true, a := true, b := true, opm := 0x7, lv := true, i32 := true }
  | .isub _ _ _ => some { d := true, a := true, b := true, opm := 0x7, lv := true, i32 := true }
  | .imul _ _ => some { d := true, a := true, b := true, opm := 0x3, lv := true, i32 := true }
  | .imad _ _ => some { d := true, a := true, b := true, c := true, opm := 0x3, lv := true, i32 := true }
  | .imulhi _ _ => some { d := true, a := true, b := true, opm := 0x3, lv := true, i32 := true }
  | .imin _ _ => some { d := true, a := true, b := true, opm := 0x3, lv := true, i32 := true }
  | .imax _ _ => some { d := true, a := true, b := true, opm := 0x3, lv := true, i32 := true }
  | .iabs _ _ _ => some { d := true, a := true, opm := 0x7, lv := true, i32 := true }
  | .ineg _ _ _ => some { d := true, a := true, opm := 0x7, lv := true, i32 := true }
  | .lea64 _ _ _ => some { d := true, a := true, b := true, opm := 0x3C, lv := true, i32 := true }
  | .iset _ _ _ => some { d := true, a := true, b := true, opm := 0x3B, lv := true, i32 := true }
  | .sel _ _ => some { d := true, a := true, b := true, c := true, opm := 0x3, lv := true, i32 := true }
  | .plop _ _ => some { d := true, a := true, b := true, c := true, opm := 0xFF }
  -- bit (R169)
  | .and _ _ => some { d := true, a := true, b := true, opm := 0x2, lv := true, i32 := true }
  | .or _ _ => some { d := true, a := true, b := true, opm := 0x2, lv := true, i32 := true }
  | .xor _ _ => some { d := true, a := true, b := true, opm := 0x2, lv := true, i32 := true }
  | .not _ _ => some { d := true, a := true, opm := 0x2, lv := true, i32 := true }
  | .shl _ _ => some { d := true, a := true, b := true, opm := 0x2, lv := true, i32 := true }
  | .shr _ _ => some { d := true, a := true, b := true, opm := 0x2, lv := true, i32 := true }
  | .sar _ _ => some { d := true, a := true, b := true, opm := 0x2, lv := true, i32 := true }
  | .bfx _ _ _ => some { d := true, a := true, b := true, c := true, opm := 0x3, lv := true, i32 := true }
  | .bfi _ _ => some { d := true, a := true, b := true, c := true, e := true, opm := 0x2, lv := true, i32 := true }
  | .popc _ _ => some { d := true, a := true, opm := 0x2, lv := true, i32 := true }
  | .clz _ _ => some { d := true, a := true, opm := 0x2, lv := true, i32 := true }
  | .brev _ _ => some { d := true, a := true, opm := 0x2, lv := true, i32 := true }
  -- FP32 (R171)
  | .fadd _ => some { d := true, a := true, b := true, lv := true, ftz := true, rm := true, i32 := true }
  | .fsub _ => some { d := true, a := true, b := true, lv := true, ftz := true, rm := true, i32 := true }
  | .fmul _ => some { d := true, a := true, b := true, lv := true, ftz := true, rm := true, i32 := true }
  | .ffma _ => some { d := true, a := true, b := true, c := true, lv := true, ftz := true, rm := true, i32 := true }
  | .fmin _ => some { d := true, a := true, b := true, lv := true, ftz := true, i32 := true }
  | .fmax _ => some { d := true, a := true, b := true, lv := true, ftz := true, i32 := true }
  | .fmaxx _ => some { d := true, a := true, b := true, lv := true, i32 := true }
  | .fminx _ => some { d := true, a := true, b := true, lv := true, i32 := true }
  | .fabs _ => some { d := true, a := true, lv := true, ftz := true, i32 := true }
  | .fneg _ => some { d := true, a := true, lv := true, ftz := true, i32 := true }
  | .fset _ _ => some { d := true, a := true, b := true, opm := 0x7, lv := true, ftz := true, i32 := true }
  | .frnd _ => some { d := true, a := true, lv := true, ftz := true, rm := true, i32 := true }
  -- special functions (R176)
  | .frcp _ => some { d := true, a := true, lv := true, ftz := true, rm := true, i32 := true }
  | .frsq _ => some { d := true, a := true, lv := true, ftz := true, i32 := true }
  | .fsqrt _ => some { d := true, a := true, lv := true, ftz := true, rm := true, i32 := true }
  | .fex2 _ => some { d := true, a := true, lv := true, ftz := true, i32 := true }
  | .flg2 _ => some { d := true, a := true, lv := true, ftz := true, i32 := true }
  | .fsin _ => some { d := true, a := true, lv := true, ftz := true, i32 := true }
  | .fcos _ => some { d := true, a := true, lv := true, ftz := true, i32 := true }
  | .ftanh _ => some { d := true, a := true, lv := true, ftz := true, i32 := true }
  | .hrnd _ => some { d := true, a := true, b := true, lv := true, i32 := true }
  -- packed (R179)
  | .padd _ _ _ => some { d := true, a := true, b := true, opm := 0x7, lv := true, ftz := true, rm := true, i32 := true }
  | .psub _ _ _ => some { d := true, a := true, b := true, opm := 0x7, lv := true, ftz := true, rm := true, i32 := true }
  | .pmul _ _ _ => some { d := true, a := true, b := true, opm := 0x7, lv := true, ftz := true, rm := true, i32 := true }
  | .pfma _ _ _ => some { d := true, a := true, b := true, c := true, opm := 0x7, lv := true, ftz := true, rm := true, i32 := true }
  | .pmin _ _ => some { d := true, a := true, b := true, opm := 0x3, lv := true, ftz := true, i32 := true }
  | .pmax _ _ => some { d := true, a := true, b := true, opm := 0x3, lv := true, ftz := true, i32 := true }
  | .pset _ _ _ _ => some { d := true, a := true, b := true, opm := 0x7B, lv := true, ftz := true, i32 := true }
  | .pdot _ _ _ => some { d := true, a := true, b := true, c := true, opm := 0x7, lv := true, ftz := true, rm := true, i32 := true }
  -- conversion (R183 to R188)
  | .cvt _ _ _ _ => some { d := true, a := true, opm := 0x1, x := 0x3FF, lv := true, ftz := true, rm := true }
  | .pack2 _ _ _ => some { d := true, a := true, b := true, opm := 0x5, lv := true, ftz := true, rm := true, i32 := true }
  | .pack4 _ _ _ => some { d := true, a := true, b := true, c := true, e := true, opm := 0x5, lv := true, ftz := true, rm := true, i32 := true }
  | .unpk _ _ => some { d := true, a := true, opm := 0x3, lv := true, ftz := true, i32 := true }
  | .fkey _ _ => some { d := true, a := true, opm := 0x1, lv := true, i32 := true }
  | .sprune _ _ => some { d := true, a := true, b := true, opm := 0x1, lv := true }
  | .qscale _ _ => some { d := true, a := true, opm := 0x3, lv := true, i32 := true }
  -- lanes and cams (R201)
  | .cambind _ _ _ _ _ => some { d := true, a := true, opm := 0x1, x := 0xFF }
  | .camwait _ => some { a := true }
  | .camfree _ _ => some { d := true, opm := 0x1 }
  | .caminfo _ => some { d := true, a := true }
  | .shfl _ _ _ => some { d := true, a := true, b := true, opm := 0x7, lv := true }
  | .lanebc _ _ => some { d := true, a := true, b := true, opm := 0x4, lv := true }
  | .vote _ _ => some { d := true, a := true, opm := 0x3 }
  | .match_ _ _ => some { d := true, a := true, opm := 0x4 }
  | .elect _ => some { d := true }
  -- memory (R204, R206)
  | .base _ => some { d := true, a := true }
  | .ld _ _ => some { d := true, a := true, b := true, opm := 0x3FF, x := 0x1FFF, hint := true }
  | .st _ _ => some { a := true, b := true, c := true, opm := 0x3FF, x := 0x3FFF, lv := true, ftz := true, rm := true, hint := true }
  | .ldu _ _ => some { d := true, a := true, b := true, opm := 0x3FF, x := 0x1FFF, hint := true }
  | .stu _ _ => some { a := true, b := true, c := true, opm := 0x3FF, x := 0x3FFF, ftz := true, rm := true, hint := true }
  | .lds _ _ => some { d := true, a := true, b := true, opm := 0xFF, x := 0x1FFF, hint := true }
  | .sts _ _ => some { a := true, b := true, c := true, opm := 0xFF, x := 0x3FFF, lv := true, ftz := true, rm := true, hint := true }
  | .pref _ _ _ => some { a := true, b := true, opm := 0xE0, x := 0x1FFF, hint := true }
  | .icpref _ => some { a := true, b := true, i32 := true }
  -- gathers and scatters (R210)
  | .gld _ _ => some { d := true, a := true, opm := 0x31F, x := 0x1FFF, hint := true }
  | .gst _ _ => some { a := true, c := true, opm := 0x31F, x := 0x3FFF, lv := true, ftz := true, rm := true, hint := true }
  | .glds _ _ => some { a := true, b := true, c := true, opm := 0xFF, x := 0x1FFF, hint := true }
  | .gsts _ _ => some { a := true, b := true, c := true, opm := 0xFF, x := 0x1FFF, hint := true }
  -- atomics and fences (R212, R213)
  | .atom _ m => some { d := true, a := true, b := true, c := true, e := m.op == .cas, opm := 0x3FF, x := 0x3FFF, lv := true, hint := true }
  | .atoms _ m => some { d := true, a := true, b := true, c := true, e := m.op == .cas, opm := 0x3FF, x := 0xFFF, lv := true, hint := true }
  | .atomu _ m => some { d := true, a := true, b := true, c := true, e := m.op == .cas, opm := 0x3FF, x := 0x3FFF, hint := true }
  | .red _ _ => some { a := true, b := true, c := true, opm := 0x3FF, x := 0x3FFF, lv := true, hint := true }
  | .fence _ _ => some { opm := 0x7 }
  | .fencew _ _ => some { opm := 0x7 }
  -- copies and latches (R219, R221, R224)
  | .tdld _ => some { a := true, i32 := true }
  | .tdinv _ => some { a := true, i32 := true }
  | .cpy _ _ => some { a := true, b := true, c := true, e := true, opm := 0x1, hint := true }
  | .cpyw _ _ => some { a := true, b := true, c := true, e := true, opm := 0x1, hint := true }
  | .cpyb _ _ _ _ => some { a := true, b := true, c := true, e := true, opm := 0x7, hint := true }
  | .ltinit _ => some { a := true, b := true, c := true, i32 := true }
  | .ltexpect _ => some { a := true, b := true, i32 := true }
  | .ltarrive _ _ => some { a := true, b := true, opm := 0x1, i32 := true }
  | .ltwait _ => some { a := true, b := true }
  | .lttest _ => some { d := true, a := true }
  | .ltcont _ _ => some { a := true, b := true, c := true, x := 0x3FFF }
  | .ltreset _ => some { a := true }
  | .tstsp _ => some { a := true, b := true, c := true, e := true, lv := true, ftz := true, rm := true, hint := true }
  | .tldsp _ => some { d := true, a := true, b := true, c := true, hint := true }
  -- keyway (R225)
  | .jdesc _ => some { a := true, b := true }
  | .join _ _ _ _ => some { d := true, a := true, b := true, c := true, e := true, opm := 0x7, x := 0x3FFF }
  | .jresume _ => some { d := true, a := true }
  | .jstat _ _ => some { d := true, a := true, opm := 0x1 }
  | .jcancel _ => some { a := true }
  -- queues and work (R230)
  | .enq _ _ _ => some { a := true, b := true, c := true, opm := 0x380, x := 0x1FFF }
  | .qsub _ _ _ => some { a := true, b := true, opm := 0x380, x := 0x1FFF }
  | .qunsub _ _ _ => some { a := true, b := true, opm := 0x380, x := 0x1FFF }
  | .qpop _ _ => some { d := true, a := true, b := true, opm := 0x1 }
  | .qpush _ _ => some { d := true, a := true, b := true, opm := 0x1 }
  | .spawn _ _ _ => some { d := true, c := true, opm := 0x1, x := 0x3FFF }
  | .ggrow _ => some { d := true, a := true, i32 := true }
  | .launch _ _ => some { a := true, opm := 0x1, i32 := true }
  | .trigger _ => some {}
  | .smsg _ _ _ => some { a := true, b := true, c := true, opm := 0x380, x := 0x1FFF }
  -- system (R241)
  | .trap _ => some { a := true, i32 := true }
  | .rett _ _ => some { opm := 0x1 }
  | .rdsr _ _ => some { d := true, x := 0xFFF }
  | .wrsr _ _ => some { a := true, x := 0xFFF }
  | .featq _ => some { d := true, a := true }
  | .icinv _ => some { a := true, b := true, i32 := true }
  | .brk _ => some { a := true }
  | .time _ => some { d := true }
  | .camBindComplete .. | .camResidencyLoad .. | .fenceRelease .. | .copyRequestStart .. | .copyDeliver ..
  | .latchContinuationStart .. | .latchStall .. | .joinSegment .. | .keywayGroupForm .. | .tumblerDraw ..
  | .heldClassPlace .. | .resultReturn .. | .parkedInstructionAct .. | .promotion .. | .hlLd .. | .hlSt ..
  | .hlAtomic .. | .hlInstall .. | .hlPref .. | .hlMsg .. | .hlBudget .. | .hlDone | .handlerDispatch ..
  | .hingeOverrun .. | .messageArrive .. | .homeRead .. | .homeWrite .. | .homeStrongAccess .. | .homeAtomic ..
  | .enqPush .. | .lineFill .. | .lineEvict .. | .replicaInstall .. | .dirtyRingRoom .. | .remoteRequest ..
  | .fabricTimeout .. | .dramRefresh .. | .temperatureReport .. | .powerThrottle | .teamPlace .. | .nodeStart ..
  | .nodeEvaluate .. | .gridTrigger .. | .gridRetire .. | .preemptTeam .. | .teamResume .. | .quantumEnd ..
  | .faultRingRoom .. | .kis1Translate .. | .icFill .. | .handlerImageInstall .. | .createVf .. | .destroyVf ..
  | .resumeVf .. | .loadObject .. | .unloadObject .. | .submitGraph .. | .invalidate .. | .invalidateComplete ..
  | .resolveRetry .. | .resolveFail .. | .readCounters .. | .halt .. | .quiesce .. | .resume .. | .readContext ..
  | .writeContext .. | .migrateOut .. | .migrateIn .. | .coldStart .. | .warmStart .. | .fullServiceChange
  | .onlineRowReplacement .. | .fabricLaneRetrain .. | .deviceTimeTick | .lostSectorClear .. | .powerThrottleEnd
  | .debuggerAttach .. | .hingeRiscvInstruction .. | .unitMarkedSuspect ..
      => none

/-- The types an atomic operation lists (R213). -/
def AtomOp.allows : AtomOp → AtomTy → Bool
  | .add, _ | .min, _ | .max, _ | .swap, _ | .cas, _ => true
  | .and, t | .or, t | .xor, t => t == .i32 || t == .u32 || t == .i64 || t == .u64
  | .inc, t => t == .u32


/-- The constant guard q7 (R140). -/
def Guard.always : Guard := { neg := false, qs := true, idx := 7 }

/-- Rules of step 2 that hang on the modifiers of one instruction: a structured branch goes forward (R192), MOVI carries I32
(R165), IABS is signed (R163), PSET with a register destination has no ANY (R181), CAMBIND's S24 fields are zero for other formats
(R201), LDS, STS, GLDS and GSTS are weak (R204, R210), SAT is for narrowing stores, operations and types of atomics fit (R213), a
target register leaves X zero (R215). -/
def Instr.extra : Instr → Bool
  | .if_ _ _ disp | .else_ _ disp | .loop _ disp => disp.toInt > 0
  | .movi o _ => o.imm.isSome
  | .iabs _ ty _ => ty == .i32 || ty == .i64
  | .pset o _ _ any => !any || (match o.d with | .vec _ | .sca _ => false | _ => true)
  | .cambind _ _ fmt wel sin => fmt == .s24 || (!wel && sin == .h2)
  | .ld _ m | .ldu _ m => !m.sat
  | .gld _ m => !m.sat && m.sc == .x1
  | .gst _ m => m.sc == .x1
  | .yield _ lat disp => lat || disp == 0
  | .lds _ m | .glds _ m | .gsts _ m => m.sem == .weak && !m.sat
  | .sts _ m => m.sem == .weak
  | .atom _ m | .atomu _ m => m.op.allows m.ty
  | .atoms _ m => m.op.allows m.ty && !m.acq && !m.rel
  | .red _ m => m.op.allows m.ty && m.op != .swap && m.op != .cas && !m.acq
  | .ltcont o disp => (match o.c with | .sca _ => disp == 0 | _ => true)
  | .spawn o _ disp => (match o.c with | .sca _ => disp == 0 | _ => true)
  | _ => true


/-- Why a word is no instruction (R37, R148 steps 1 and 2): every reason here is the fault ILLEGAL_INSTRUCTION, or on a hinge core
the abort ILLEGAL. -/
inductive Reject where
  /-- Bits 125:124 are not zero (R148 step 1). -/
  | reservedBits
  /-- MAJ or MIN names no instruction (R147). -/
  | noOpcode
  /-- A modifier holds a value its reference does not assign (R143). -/
  | unassigned
  /-- An operand field, map field or X field the form does not use is not zero (R137, R139). -/
  | unusedField
  /-- A bit of M the instruction does not read is not zero, or RM is above 3 (R142). -/
  | unusedModifier
  /-- I32 is set on an instruction that does not list it (R142, R144). -/
  | noWideForm
  /-- H is not zero on an instruction that reads no hint (R141). -/
  | noHint
  /-- A guard of an instruction marked "always" is not the constant q7 (R192). -/
  | guarded
  /-- A rule of the instruction itself fails (`Instr.extra`). -/
  | ownRule
  /-- The bytes are not a whole instruction of the hinge core, or none it runs (R37). -/
  | notRiscv
deriving DecidableEq, Repr

/-- The operand field of an unused place (R137). -/
def Operand.zero : Operand := .vec 0

/-- A source field that the form does not use holds zero (R137); of MOVI, also a wide marker, which is then an illegal operand (R165). -/
def Ops.unused (sh : Shape) (o : Ops) (f : Operand) : Bool := f == .zero || (sh.marker && o.imm.isSome && f == .imm 0)

/-- The first reason why the common fields do not fit a shape (R137, R139, R141, R142, R144, R192). -/
def Ops.misfit (sh : Shape) (o : Ops) : Option Reject :=
  if !((sh.d || o.d == .zero) && (sh.a || o.a == .zero) && (sh.b || o.unused sh o.b) && (sh.c || o.unused sh o.c) &&
      (sh.e || o.unused sh o.e)) then some .unusedField
  else if !((sh.a || o.ma == .none) && (sh.b || o.mb == .none) && (sh.c || o.mc == .none)) then some .unusedField
  else if !(o.h == 0 || sh.hint) then some .noHint
  else if !((sh.lv || !o.lv) && (sh.ftz || !o.ftz) && (sh.rm || o.rm == .rne)) then some .unusedModifier
  else if !(o.imm.isNone || (sh.i32 && o.ma == .none && o.mb == .none && o.mc == .none)) then some .noWideForm
  else if !(!sh.always || (o.g1 == Guard.always && o.g2 == Guard.always)) then some .guarded
  else none

end Sys2Proof
end

