-- ==== Sys2Proof/WellFormed.lean ====
section
/-!
DEFINITION. Well-formed terms of the syntax: the terms that some word of the hardware decodes to (09 R137 to R144, 03 R45). An
event is well formed whatever its arguments are: they are chosen outside the words.
-/
namespace Sys2Proof

/-- An ordinary hinge instruction that a word can carry: a jump or branch displacement is even, shift amounts fit their
field, and SUB and SUBW have no immediate form. -/
def Rv.wf : Rv → Bool
  | .jal _ imm => imm.toNat % 2 == 0
  | .branch _ _ _ imm => imm.toNat % 2 == 0
  | .aluImm op _ _ imm =>
    match op with
    | .sub => false
    | .sll | .srl | .sra => imm.toNat < 64
    | .add | .slt | .sltu | .xor | .or | .and => true
  | .aluImmW op _ _ imm =>
    match op with
    | .subw => false
    | .sllw | .srlw | .sraw => imm.toNat < 32
    | .addw => true
  | .illegal => false
  | .lui .. | .auipc .. | .jalr .. | .load .. | .store .. | .alu .. | .aluW .. | .mul .. | .fence | .csr .. | .lr .. | .sc ..
  | .amo .. => true

/-- Some word decodes to the instruction. -/
def Instr.wf (i : Instr) : Bool :=
  match i.code, i.shape with
  | some (_, o), some sh => o.misfit sh == none && i.extra
  | _, _ =>
    match i with
    | .hingeRiscvInstruction len r => (len == 4 || len == 2) && r.wf
    | _ => true

end Sys2Proof
end

