-- ==== Sys2Proof/Decode.lean ====
section
/-!
DEFINITION. The decoders, total on any bits, rejecting by name, and after them the encoders: the 128-bit words of KIS-3 (09 R135
to R148 steps 1 and 2) and the 16- and 32-bit words of the hinge core (03 R36, R37, R45). The checks of R148 steps 3 to 6 belong
to the issue of an instruction, in Machine/Issue.lean.
-/
namespace Sys2Proof

/-! ## Bit fields -/

/-- Fields of the given widths, cut from a number from its lowest bit up. -/
def cutBits : List Nat → Nat → List Nat
  | [], _ => []
  | w :: ws, n => n % 2 ^ w :: cutBits ws (n / 2 ^ w)

/-- The number whose fields, from its lowest bit up, are the given (width, value) pairs. -/
def joinBits : List (Nat × Nat) → Nat
  | [] => 0
  | (w, v) :: r => v % 2 ^ w + 2 ^ w * joinBits r

/-- The widths of the fields of a KIS-3 word (R135), from bit 0 up: X, M, H, G2, G1, MC, MB, MA, E, C, B, A, D, MIN, MAJ,
bits 125:124, Y, S. -/
def wordWidths : List Nat := [14, 16, 4, 5, 5, 6, 6, 6, 10, 10, 10, 10, 10, 8, 4, 2, 1, 1]

/-- One bit as a Bool. -/
def bit (n i : Nat) : Bool := n / 2 ^ i % 2 == 1

/-! ## The parts of a KIS-3 word -/

/-- An operand field (R137). -/
def Operand.ofField (n : Nat) : Operand :=
  match n / 256 % 4 with
  | 0 => .vec (BitVec.ofNat 8 n)
  | 1 => .sca (BitVec.ofNat 8 n)
  | 2 => .cls (BitVec.ofNat 4 (n / 16)) (BitVec.ofNat 4 n)
  | _ => .imm (BitVec.ofNat 8 n)

/-- A map field (R139). -/
def MapSel.ofField (n : Nat) : MapSel :=
  if n = 0 then .none
  else if n ≤ 16 then .user (Fin.ofNat 16 (n - 1))
  else if n = 17 then .rev
  else if n ≤ 22 then .xor (Fin.ofNat 5 (n - 18))
  else if n ≤ 53 then .rot (Fin.ofNat 31 (n - 23))
  else if n ≤ 57 then .sum (Fin.ofNat 4 (n - 54))
  else if n = 58 then .bcast0
  else .illegal (Fin.ofNat 5 (n - 59))

/-- A guard field (R140). -/
def Guard.ofField (n : Nat) : Guard := { neg := bit n 4, qs := bit n 3, idx := BitVec.ofNat 3 n }

/-- RM (R142); codes 4 to 7 are illegal. -/
def Rm.ofCode (n : Nat) : Option Rm :=
  match n with
  | 0 => some .rne
  | 1 => some .rz
  | 2 => some .rd
  | 3 => some .ru
  | _ => none

/-- The format codes (R92). -/
def Fmt.ofCode (n : Nat) : Fmt :=
  match n % 32 with
  | 0x00 => .b32
  | 0x01 => .f32
  | 0x02 => .f16
  | 0x03 => .bf16
  | 0x04 => .e4m3
  | 0x05 => .e5m2
  | 0x06 => .e2m1
  | 0x07 => .i8
  | 0x08 => .u8
  | 0x09 => .i16
  | 0x0A => .u16
  | 0x0B => .i32
  | 0x0C => .u32
  | 0x0D => .i4g
  | 0x0E => .i3g
  | 0x0F => .e2m1g
  | 0x10 => .b64
  | 0x11 => .i64
  | 0x12 => .u64
  | 0x13 => .h2
  | 0x14 => .bf2
  | 0x15 => .q4e4
  | 0x16 => .q4e5
  | 0x17 => .s24
  | k => .unused (Fin.ofNat 8 (k - 0x18))

/-- TY (R163). -/
def IntTy.ofCode (n : Nat) : IntTy :=
  match n % 4 with
  | 0 => .i32
  | 1 => .u32
  | 2 => .i64
  | _ => .u64

/-- COND of ISET (R163); codes 6 and 7 are unassigned. -/
def ICond.ofCode (n : Nat) : Option ICond :=
  match n % 8 with
  | 0 => some .eq
  | 1 => some .ne
  | 2 => some .lt
  | 3 => some .le
  | 4 => some .gt
  | 5 => some .ge
  | _ => none

/-- COND of FSET and PSET (R174). -/
def FCond.ofCode (n : Nat) : FCond :=
  match n % 8 with
  | 0 => .eq
  | 1 => .ne
  | 2 => .lt
  | 3 => .le
  | 4 => .gt
  | 5 => .ge
  | 6 => .num
  | _ => .nan

/-- SH of LEA64 (R166); 5 to 7 are unassigned. -/
def shiftOf (n : Nat) : Option (Fin 5) := if n % 8 < 5 then some (Fin.ofNat 5 (n % 8)) else none

/-- PF (R179), SIN (R102). -/
def PackFmt.ofCode (n : Nat) : PackFmt :=
  match n % 4 with
  | 0 => .h2
  | 1 => .bf2
  | 2 => .q4e4
  | _ => .q4e5

/-- The format of QSCALE (R188); 11 is unassigned. -/
def QFmt.ofCode (n : Nat) : Option QFmt :=
  match n % 4 with
  | 0 => some .e4m3
  | 1 => some .e5m2
  | 2 => some .e2m1
  | _ => none

/-- W of SHFL (R201). -/
def SegW.ofCode (n : Nat) : SegW :=
  match n % 4 with
  | 0 => .w32
  | 1 => .w16
  | 2 => .w8
  | _ => .w4

/-- The mode of VOTE (R201). -/
def VoteMode.ofCode (n : Nat) : VoteMode :=
  match n % 4 with
  | 0 => .all
  | 1 => .any
  | 2 => .uni
  | _ => .ballot

/-- SC (R204); 5 to 7 are unassigned. -/
def Scale.ofCode (n : Nat) : Option Scale :=
  match n % 8 with
  | 0 => some .x1
  | 1 => some .x2
  | 2 => some .x4
  | 3 => some .x8
  | 4 => some .x16
  | _ => none

/-- SEM (R204); 11 is unassigned. -/
def Sem.ofCode (n : Nat) : Option Sem :=
  match n % 4 with
  | 0 => some .weak
  | 1 => some .strong
  | 2 => some .ordered
  | _ => none

/-- OPM and X of an addressing form (R204). -/
def MemMode.ofCode (q x : Nat) : Option MemMode :=
  match Scale.ofCode (q / 32), Sem.ofCode (q / 256) with
  | some sc, some sem =>
    some { fmt := Fmt.ofCode q, sc := sc, sem := sem, sat := bit x 13, disp := BitVec.ofNat 13 x }
  | _, _ => none

/-- OP of an atomic (R213); 1001 to 1111 are unassigned. -/
def AtomOp.ofCode (n : Nat) : Option AtomOp :=
  match n % 16 with
  | 0 => some .add
  | 1 => some .min
  | 2 => some .max
  | 3 => some .and
  | 4 => some .or
  | 5 => some .xor
  | 6 => some .swap
  | 7 => some .cas
  | 8 => some .inc
  | _ => none

/-- TY of an atomic (R213); 111 is unassigned. -/
def AtomTy.ofCode (n : Nat) : Option AtomTy :=
  match n % 8 with
  | 0 => some .i32
  | 1 => some .u32
  | 2 => some .i64
  | 3 => some .u64
  | 4 => some .f32
  | 5 => some .h2
  | 6 => some .bf2
  | _ => none

/-- OPM and X of an atomic (R213). -/
def AtomMode.ofCode (q x : Nat) : Option AtomMode :=
  match AtomOp.ofCode q, AtomTy.ofCode (q / 16), Scale.ofCode (q / 128) with
  | some op, some ty, some sc =>
    some { op := op, ty := ty, sc := sc, acq := bit x 12, rel := bit x 13, disp := BitVec.ofNat 12 x }
  | _, _, _ => none

/-- The scope of a fence (R212); 101 to 111 are unassigned. -/
def Scope.ofCode (n : Nat) : Option Scope :=
  match n % 8 with
  | 0 => some .grp
  | 1 => some .team
  | 2 => some .clu
  | 3 => some .dev
  | 4 => some .sys
  | _ => none

/-- OP of JOIN (R225); 11 is unassigned. -/
def JoinOp.ofCode (n : Nat) : Option JoinOp :=
  match n % 4 with
  | 0 => some .intersect
  | 1 => some .union
  | 2 => some .diff
  | _ => none

/-- X as a signed 14-bit displacement in instructions (R192, R215). -/
def disp14 (x : Nat) : BitVec 14 := BitVec.ofNat 14 x

/-- X[12:0] as a signed displacement in bytes (R204, R230). -/
def disp13 (x : Nat) : BitVec 13 := BitVec.ofNat 13 x

/-! ## The opcode map -/

/-- Major 0x0 (R192): the instruction of minor `n` with the fields read; none where no minor or value is assigned. -/
def readControl (n q x : Nat) (o : Ops) : Option Instr :=
  match n with
  | 0 => some (.nop o)
  | 1 => some (.if_ o (bit q 0) (disp14 x))
  | 2 => some (.else_ o (disp14 x))
  | 3 => some (.endif o)
  | 4 => some (.loop o (disp14 x))
  | 5 => some (.endloop o)
  | 6 => some (.break_ o (bit q 0))
  | 7 => some (.cont o (bit q 0))
  | 8 => some (.jmp o (bit q 0))
  | 9 => some (.call o (bit q 0))
  | 10 => some (.ret o (bit q 0))
  | 11 => some (.exit o)
  | 12 => some (.yield o (bit q 0) (disp14 x))
  | 13 => some (.bar o (bit q 0))
  | 14 => some (.barc o (bit q 0))
  | _ => none

/-- Major 0x1 (R163): the instruction of minor `n` with the fields read; none where no minor or value is assigned. -/
def readInteger (n q x : Nat) (o : Ops) : Option Instr :=
  match n with
  | 0 => some (.mov o (IntTy.ofCode q))
  | 1 => some (.movi o (IntTy.ofCode q))
  | 2 => some (.iadd o (IntTy.ofCode q) (bit q 2))
  | 3 => some (.isub o (IntTy.ofCode q) (bit q 2))
  | 4 => some (.imul o (IntTy.ofCode q))
  | 5 => some (.imad o (IntTy.ofCode q))
  | 6 => some (.imulhi o (IntTy.ofCode q))
  | 7 => some (.imin o (IntTy.ofCode q))
  | 8 => some (.imax o (IntTy.ofCode q))
  | 9 => some (.iabs o (IntTy.ofCode q) (bit q 2))
  | 10 => some (.ineg o (IntTy.ofCode q) (bit q 2))
  | 11 => (shiftOf (q / 4)).map fun v => .lea64 o v (bit q 5)
  | 12 => (ICond.ofCode (q / 8)).map fun v => .iset o v (IntTy.ofCode q)
  | 13 => some (.sel o (IntTy.ofCode q))
  | 14 => some (.plop o (BitVec.ofNat 8 q))
  | _ => none

/-- Major 0x2 (R169): the instruction of minor `n` with the fields read; none where no minor or value is assigned. -/
def readBit (n q x : Nat) (o : Ops) : Option Instr :=
  match n with
  | 0 => some (.and o (bit q 1))
  | 1 => some (.or o (bit q 1))
  | 2 => some (.xor o (bit q 1))
  | 3 => some (.not o (bit q 1))
  | 4 => some (.shl o (bit q 1))
  | 5 => some (.shr o (bit q 1))
  | 6 => some (.sar o (bit q 1))
  | 7 => some (.bfx o (bit q 1) (bit q 0))
  | 8 => some (.bfi o (bit q 1))
  | 9 => some (.popc o (bit q 1))
  | 10 => some (.clz o (bit q 1))
  | 11 => some (.brev o (bit q 1))
  | _ => none

/-- Major 0x3 (R171): the instruction of minor `n` with the fields read; none where no minor or value is assigned. -/
def readFp (n q x : Nat) (o : Ops) : Option Instr :=
  match n with
  | 0 => some (.fadd o)
  | 1 => some (.fsub o)
  | 2 => some (.fmul o)
  | 3 => some (.ffma o)
  | 4 => some (.fmin o)
  | 5 => some (.fmax o)
  | 6 => some (.fmaxx o)
  | 7 => some (.fminx o)
  | 8 => some (.fabs o)
  | 9 => some (.fneg o)
  | 10 => some (.fset o (FCond.ofCode q))
  | 11 => some (.frnd o)
  | _ => none

/-- Major 0x4 (R176): the instruction of minor `n` with the fields read; none where no minor or value is assigned. -/
def readSpecial (n q x : Nat) (o : Ops) : Option Instr :=
  match n with
  | 0 => some (.frcp o)
  | 1 => some (.frsq o)
  | 2 => some (.fsqrt o)
  | 3 => some (.fex2 o)
  | 4 => some (.flg2 o)
  | 5 => some (.fsin o)
  | 6 => some (.fcos o)
  | 7 => some (.ftanh o)
  | 8 => some (.hrnd o)
  | _ => none

/-- Major 0x5 (R179): the instruction of minor `n` with the fields read; none where no minor or value is assigned. -/
def readPacked (n q x : Nat) (o : Ops) : Option Instr :=
  match n with
  | 0 => some (.padd o (PackFmt.ofCode q) (bit q 2))
  | 1 => some (.psub o (PackFmt.ofCode q) (bit q 2))
  | 2 => some (.pmul o (PackFmt.ofCode q) (bit q 2))
  | 3 => some (.pfma o (PackFmt.ofCode q) (bit q 2))
  | 4 => some (.pmin o (PackFmt.ofCode q))
  | 5 => some (.pmax o (PackFmt.ofCode q))
  | 6 => some (.pset o (PackFmt.ofCode q) (FCond.ofCode (q / 8)) (bit q 6))
  | 7 => some (.pdot o (PackFmt.ofCode q) (bit q 2))
  | _ => none

/-- Major 0x6 (R183): the instruction of minor `n` with the fields read; none where no minor or value is assigned. -/
def readConvert (n q x : Nat) (o : Ops) : Option Instr :=
  match n with
  | 0 => some (.cvt o (Fmt.ofCode x) (Fmt.ofCode (x / 32)) (bit q 0))
  | 1 => some (.pack2 o (bit q 0) (bit q 2))
  | 2 => some (.pack4 o (bit q 0) (bit q 2))
  | 3 => some (.unpk o (PackFmt.ofCode q))
  | 4 => some (.fkey o (bit q 0))
  | 5 => some (.sprune o (bit q 0))
  | 6 => (QFmt.ofCode q).map fun v => .qscale o v
  | _ => none

/-- Major 0x7 (R201): the instruction of minor `n` with the fields read; none where no minor or value is assigned. -/
def readLanes (n q x : Nat) (o : Ops) : Option Instr :=
  match n with
  | 0 => some (.cambind o (bit q 0) (Fmt.ofCode x) (bit x 5) (PackFmt.ofCode (x / 64)))
  | 1 => some (.camwait o)
  | 2 => some (.camfree o (bit q 0))
  | 3 => some (.caminfo o)
  | 4 => some (.shfl o (SegW.ofCode q) (bit q 2))
  | 5 => some (.lanebc o (bit q 2))
  | 6 => some (.vote o (VoteMode.ofCode q))
  | 7 => some (.match_ o (bit q 2))
  | 8 => some (.elect o)
  | _ => none

/-- Major 0x8 (R206): the instruction of minor `n` with the fields read; none where no minor or value is assigned. -/
def readMemory (n q x : Nat) (o : Ops) : Option Instr :=
  match n with
  | 0 => some (.base o)
  | 1 => (MemMode.ofCode q x).map fun v => .ld o v
  | 2 => (MemMode.ofCode q x).map fun v => .st o v
  | 3 => (MemMode.ofCode q x).map fun v => .ldu o v
  | 4 => (MemMode.ofCode q x).map fun v => .stu o v
  | 5 => (MemMode.ofCode q x).map fun v => .lds o v
  | 6 => (MemMode.ofCode q x).map fun v => .sts o v
  | 7 => (Scale.ofCode (q / 32)).map fun v => .pref o v (disp13 x)
  | 8 => some (.icpref o)
  | _ => none

/-- Major 0x9 (R210): the instruction of minor `n` with the fields read; none where no minor or value is assigned. -/
def readGather (n q x : Nat) (o : Ops) : Option Instr :=
  match n with
  | 0 => (MemMode.ofCode q x).map fun v => .gld o v
  | 1 => (MemMode.ofCode q x).map fun v => .gst o v
  | 2 => (MemMode.ofCode q x).map fun v => .glds o v
  | 3 => (MemMode.ofCode q x).map fun v => .gsts o v
  | _ => none

/-- Major 0xA (R213): the instruction of minor `n` with the fields read; none where no minor or value is assigned. -/
def readAtomic (n q x : Nat) (o : Ops) : Option Instr :=
  match n with
  | 0 => (AtomMode.ofCode q x).map fun v => .atom o v
  | 1 => (AtomMode.ofCode q x).map fun v => .atoms o v
  | 2 => (AtomMode.ofCode q x).map fun v => .atomu o v
  | 3 => (AtomMode.ofCode q x).map fun v => .red o v
  | 4 => (Scope.ofCode q).map fun v => .fence o v
  | 5 => (Scope.ofCode q).map fun v => .fencew o v
  | _ => none

/-- Major 0xB (R219): the instruction of minor `n` with the fields read; none where no minor or value is assigned. -/
def readCopy (n q x : Nat) (o : Ops) : Option Instr :=
  match n with
  | 0 => some (.tdld o)
  | 1 => some (.tdinv o)
  | 2 => some (.cpy o (bit q 0))
  | 3 => some (.cpyw o (bit q 0))
  | 4 => some (.cpyb o (bit q 0) (bit q 1) (bit q 2))
  | 5 => some (.ltinit o)
  | 6 => some (.ltexpect o)
  | 7 => some (.ltarrive o (bit q 0))
  | 8 => some (.ltwait o)
  | 9 => some (.lttest o)
  | 10 => some (.ltcont o (disp14 x))
  | 11 => some (.ltreset o)
  | 12 => some (.tstsp o)
  | 13 => some (.tldsp o)
  | _ => none

/-- Major 0xC (R225): the instruction of minor `n` with the fields read; none where no minor or value is assigned. -/
def readKeyway (n q x : Nat) (o : Ops) : Option Instr :=
  match n with
  | 0 => some (.jdesc o)
  | 1 => (JoinOp.ofCode q).map fun v => .join o v (bit q 2) (disp14 x)
  | 2 => some (.jresume o)
  | 3 => some (.jstat o (bit q 0))
  | 4 => some (.jcancel o)
  | _ => none

/-- Major 0xD (R230): the instruction of minor `n` with the fields read; none where no minor or value is assigned. -/
def readQueue (n q x : Nat) (o : Ops) : Option Instr :=
  match n with
  | 0 => (Scale.ofCode (q / 128)).map fun v => .enq o v (disp13 x)
  | 1 => (Scale.ofCode (q / 128)).map fun v => .qsub o v (disp13 x)
  | 2 => (Scale.ofCode (q / 128)).map fun v => .qunsub o v (disp13 x)
  | 3 => some (.qpop o (bit q 0))
  | 4 => some (.qpush o (bit q 0))
  | 5 => some (.spawn o (bit q 0) (disp14 x))
  | 6 => some (.ggrow o)
  | 7 => some (.launch o (bit q 0))
  | 8 => some (.trigger o)
  | 9 => (Scale.ofCode (q / 128)).map fun v => .smsg o v (disp13 x)
  | _ => none

/-- Major 0xE (R241): the instruction of minor `n` with the fields read; none where no minor or value is assigned. -/
def readSystem (n q x : Nat) (o : Ops) : Option Instr :=
  match n with
  | 0 => some (.trap o)
  | 1 => some (.rett o (bit q 0))
  | 2 => some (.rdsr o (BitVec.ofNat 12 x))
  | 3 => some (.wrsr o (BitVec.ofNat 12 x))
  | 4 => some (.featq o)
  | 5 => some (.icinv o)
  | 6 => some (.brk o)
  | 7 => some (.time o)
  | _ => none

/-- The instruction an opcode and its modifier fields name (R147). -/
def readInstr (maj n q x : Nat) (o : Ops) : Option Instr :=
  match maj with
  | 0 => readControl n q x o
  | 1 => readInteger n q x o
  | 2 => readBit n q x o
  | 3 => readFp n q x o
  | 4 => readSpecial n q x o
  | 5 => readPacked n q x o
  | 6 => readConvert n q x o
  | 7 => readLanes n q x o
  | 8 => readMemory n q x o
  | 9 => readGather n q x o
  | 10 => readAtomic n q x o
  | 11 => readCopy n q x o
  | 12 => readKeyway n q x o
  | 13 => readQueue n q x o
  | 14 => readSystem n q x o
  | _ => none

/-- R147 lists this opcode. -/
def opcodeAssigned (maj n : Nat) : Bool :=
  n < ([15, 15, 12, 12, 9, 8, 7, 9, 9, 4, 6, 14, 5, 10, 8].getD maj 0)

/-- The decoder of KIS-3 words: the instruction, or the reason why steps 1 and 2 of R148 take ILLEGAL_INSTRUCTION. -/
def decodeWord (w : IWord) : Except Reject Instr :=
  match cutBits wordWidths w.toNat with
  | [x, m, h, g2, g1, mc, mb, ma, e, c, b, a, d, mn, maj, res, y, s] =>
    if res ≠ 0 then .error .reservedBits
    else
      match Rm.ofCode (m / 2048 % 8) with
      | none => .error .unusedModifier
      | some rm =>
        let wide := bit m 10
        let o : Ops :=
          { stop := s == 1, yieldHint := y == 1, d := .ofField d, a := .ofField a, b := .ofField b, c := .ofField c,
            e := .ofField e, ma := if wide then .none else .ofField ma, mb := if wide then .none else .ofField mb,
            mc := if wide then .none else .ofField mc, g1 := .ofField g1, g2 := .ofField g2, h := BitVec.ofNat 4 h,
            lv := bit m 15, ftz := bit m 14, rm := rm,
            imm := if wide then some (BitVec.ofNat 32 (joinBits [(14, x), (6, mc), (6, mb), (6, ma)])) else none }
        match readInstr maj mn (m % 1024) (if wide then 0 else x) o with
        | none => .error (if opcodeAssigned maj mn then .unassigned else .noOpcode)
        | some i =>
          match i.shape with
          | none => .error .noOpcode
          | some sh =>
            if (m % 1024) &&& (1023 - sh.opm) ≠ 0 then .error .unusedModifier
            else if !wide && x &&& (16383 - sh.x) ≠ 0 then .error .unusedField
            else
              match o.misfit sh with
              | some r => .error r
              | none => if i.extra then .ok i else .error .ownRule
  | _ => .error .noOpcode

/-! ## The hinge core's words (R36, R37, R45); the ordinary encodings are RISC-V's own (log entry 8) -/

/-- Register field. -/
def reg5 (w lo : Nat) : BitVec 5 := BitVec.ofNat 5 (w / 2 ^ lo)

/-- The immediate of an I-type word. -/
def immI (w : Nat) : BitVec 12 := BitVec.ofNat 12 (w / 2 ^ 20)

/-- The immediate of an S-type word. -/
def immS (w : Nat) : BitVec 12 := BitVec.ofNat 12 (bitsOf w 31 25 * 32 + bitsOf w 11 7)

/-- The immediate of a B-type word. -/
def immB (w : Nat) : BitVec 13 :=
  BitVec.ofNat 13 (bitsOf w 31 31 * 4096 + bitsOf w 7 7 * 2048 + bitsOf w 30 25 * 32 + bitsOf w 11 8 * 2)

/-- The immediate of a J-type word. -/
def immJ (w : Nat) : BitVec 21 :=
  BitVec.ofNat 21 (bitsOf w 31 31 * 2 ^ 20 + bitsOf w 19 12 * 4096 + bitsOf w 20 20 * 2048 + bitsOf w 30 21 * 2)

def RvBranch.ofCode : Nat → Option RvBranch
  | 0 => some .beq
  | 1 => some .bne
  | 4 => some .blt
  | 5 => some .bge
  | 6 => some .bltu
  | 7 => some .bgeu
  | _ => none

def RvLoad.ofCode : Nat → Option RvLoad
  | 0 => some .lb
  | 1 => some .lh
  | 2 => some .lw
  | 3 => some .ld
  | 4 => some .lbu
  | 5 => some .lhu
  | 6 => some .lwu
  | _ => none

def RvStore.ofCode : Nat → Option RvStore
  | 0 => some .sb
  | 1 => some .sh
  | 2 => some .sw
  | 3 => some .sd
  | _ => none

/-- Operations of OP and OP-32 with the M extension: funct7 and funct3. -/
def rvOp (rd rs1 rs2 : BitVec 5) : Nat → Nat → Option Rv
  | 0, 0 => some (.alu .add rd rs1 rs2)
  | 0, 1 => some (.alu .sll rd rs1 rs2)
  | 0, 2 => some (.alu .slt rd rs1 rs2)
  | 0, 3 => some (.alu .sltu rd rs1 rs2)
  | 0, 4 => some (.alu .xor rd rs1 rs2)
  | 0, 5 => some (.alu .srl rd rs1 rs2)
  | 0, 6 => some (.alu .or rd rs1 rs2)
  | 0, 7 => some (.alu .and rd rs1 rs2)
  | 32, 0 => some (.alu .sub rd rs1 rs2)
  | 32, 5 => some (.alu .sra rd rs1 rs2)
  | 1, 0 => some (.mul .mul rd rs1 rs2)
  | 1, 1 => some (.mul .mulh rd rs1 rs2)
  | 1, 2 => some (.mul .mulhsu rd rs1 rs2)
  | 1, 3 => some (.mul .mulhu rd rs1 rs2)
  | 1, 4 => some (.mul .div rd rs1 rs2)
  | 1, 5 => some (.mul .divu rd rs1 rs2)
  | 1, 6 => some (.mul .rem rd rs1 rs2)
  | 1, 7 => some (.mul .remu rd rs1 rs2)
  | _, _ => none

def rvOpW (rd rs1 rs2 : BitVec 5) : Nat → Nat → Option Rv
  | 0, 0 => some (.aluW .addw rd rs1 rs2)
  | 0, 1 => some (.aluW .sllw rd rs1 rs2)
  | 0, 5 => some (.aluW .srlw rd rs1 rs2)
  | 32, 0 => some (.aluW .subw rd rs1 rs2)
  | 32, 5 => some (.aluW .sraw rd rs1 rs2)
  | 1, 0 => some (.mul .mulw rd rs1 rs2)
  | 1, 4 => some (.mul .divw rd rs1 rs2)
  | 1, 5 => some (.mul .divuw rd rs1 rs2)
  | 1, 6 => some (.mul .remw rd rs1 rs2)
  | 1, 7 => some (.mul .remuw rd rs1 rs2)
  | _, _ => none

/-- Operations with an immediate; a shift amount has 6 bits, or 5 in a W form. -/
def rvOpImm (rd rs1 : BitVec 5) (imm : BitVec 12) : Nat → Option Rv
  | 0 => some (.aluImm .add rd rs1 imm)
  | 1 => if imm.toNat < 64 then some (.aluImm .sll rd rs1 imm) else none
  | 2 => some (.aluImm .slt rd rs1 imm)
  | 3 => some (.aluImm .sltu rd rs1 imm)
  | 4 => some (.aluImm .xor rd rs1 imm)
  | 5 =>
    if imm.toNat < 64 then some (.aluImm .srl rd rs1 imm)
    else if imm.toNat / 64 = 16 then some (.aluImm .sra rd rs1 (BitVec.ofNat 12 (imm.toNat % 64))) else none
  | 6 => some (.aluImm .or rd rs1 imm)
  | 7 => some (.aluImm .and rd rs1 imm)
  | _ => none

def rvOpImmW (rd rs1 : BitVec 5) (imm : BitVec 12) : Nat → Option Rv
  | 0 => some (.aluImmW .addw rd rs1 imm)
  | 1 => if imm.toNat < 32 then some (.aluImmW .sllw rd rs1 imm) else none
  | 5 =>
    if imm.toNat < 32 then some (.aluImmW .srlw rd rs1 imm)
    else if imm.toNat / 32 = 32 then some (.aluImmW .sraw rd rs1 (BitVec.ofNat 12 (imm.toNat % 32))) else none
  | _ => none

/-- The A extension: funct5; the aq and rl bits order nothing beyond a core that runs one instruction at a time (R326). -/
def rvAmo (wide : Bool) (rd rs1 rs2 : BitVec 5) : Nat → Option Rv
  | 2 => if rs2 = 0 then some (.lr wide rd rs1) else none
  | 3 => some (.sc wide rd rs1 rs2)
  | 1 => some (.amo .swap wide rd rs1 rs2)
  | 0 => some (.amo .add wide rd rs1 rs2)
  | 4 => some (.amo .xor wide rd rs1 rs2)
  | 12 => some (.amo .and wide rd rs1 rs2)
  | 8 => some (.amo .or wide rd rs1 rs2)
  | 16 => some (.amo .min wide rd rs1 rs2)
  | 20 => some (.amo .max wide rd rs1 rs2)
  | 24 => some (.amo .minu wide rd rs1 rs2)
  | 28 => some (.amo .maxu wide rd rs1 rs2)
  | _ => none

/-- Zicsr: funct3. SYSTEM's other words (ECALL, EBREAK, WFI, returns) are none of the hinge core's (R37). -/
def rvSystem (rd src : BitVec 5) (num : BitVec 12) : Nat → Option Rv
  | 1 => some (.csr .rw false rd src num)
  | 2 => some (.csr .rs false rd src num)
  | 3 => some (.csr .rc false rd src num)
  | 5 => some (.csr .rw true rd src num)
  | 6 => some (.csr .rs true rd src num)
  | 7 => some (.csr .rc true rd src num)
  | _ => none

/-- The operations of hl.atomic (R47); 1010 to 1111 abort. -/
def HlOp.ofCode : Nat → Option HlOp
  | 0 => some .add
  | 1 => some .and
  | 2 => some .or
  | 3 => some .xor
  | 4 => some .swap
  | 5 => some .cas
  | 6 => some .min
  | 7 => some .max
  | 8 => some .minu
  | 9 => some .maxu
  | _ => none

/-- Xhinge (R45): funct3 of a word of the custom-0 opcode; a field marked 0 must hold 0. -/
def readXhinge (w : Nat) : Option Instr :=
  let rd := reg5 w 7
  let rs1 := reg5 w 15
  let rs2 := reg5 w 20
  let z31_25 := bitsOf w 31 25 = 0
  match bitsOf w 14 12 with
  | 0 => some (.hlLd rd rs1 (immI w))
  | 1 => some (.hlSt rs1 rs2 (immS w))
  | 2 => if bitsOf w 31 29 = 0 then (HlOp.ofCode (bitsOf w 28 25)).map fun op => .hlAtomic op rd rs1 rs2 else none
  | 3 => if z31_25 ∧ rd = 0 then some (.hlInstall rs1 rs2) else none
  | 4 => if z31_25 ∧ rs2 = 0 ∧ rd = 0 then some (.hlPref rs1) else none
  | 5 => if z31_25 ∧ rd = 0 then some (.hlMsg rs1 rs2) else none
  | 6 => if z31_25 ∧ rs2 = 0 ∧ rs1 = 0 then some (.hlBudget rd) else none
  | _ => if z31_25 ∧ rs2 = 0 ∧ rs1 = 0 ∧ rd = 0 then some .hlDone else none

/-- A 32-bit word of the hinge core: the opcode in bits 6:0. -/
def readRv32 (w : Nat) : Option Instr :=
  let rd := reg5 w 7
  let rs1 := reg5 w 15
  let rs2 := reg5 w 20
  let f3 := bitsOf w 14 12
  let ord := fun r => Instr.hingeRiscvInstruction 4 r
  match w % 128 with
  | 0x0B => readXhinge w
  | 0x37 => some (ord (.lui rd (BitVec.ofNat 20 (w / 4096))))
  | 0x17 => some (ord (.auipc rd (BitVec.ofNat 20 (w / 4096))))
  | 0x6F => some (ord (.jal rd (immJ w)))
  | 0x67 => if f3 = 0 then some (ord (.jalr rd rs1 (immI w))) else none
  | 0x63 => (RvBranch.ofCode f3).map fun op => ord (.branch op rs1 rs2 (immB w))
  | 0x03 => (RvLoad.ofCode f3).map fun op => ord (.load op rd rs1 (immI w))
  | 0x23 => (RvStore.ofCode f3).map fun op => ord (.store op rs1 rs2 (immS w))
  | 0x13 => (rvOpImm rd rs1 (immI w) f3).map ord
  | 0x1B => (rvOpImmW rd rs1 (immI w) f3).map ord
  | 0x33 => (rvOp rd rs1 rs2 (bitsOf w 31 25) f3).map ord
  | 0x3B => (rvOpW rd rs1 rs2 (bitsOf w 31 25) f3).map ord
  | 0x0F => if f3 = 0 then some (ord .fence) else none
  | 0x73 => (rvSystem rd rs1 (immI w) f3).map ord
  | 0x2F =>
    match f3 with
    | 2 => (rvAmo false rd rs1 rs2 (bitsOf w 31 27)).map ord
    | 3 => (rvAmo true rd rs1 rs2 (bitsOf w 31 27)).map ord
    | _ => none
  | _ => none

/-- A register x8 to x15 of a compressed word. -/
def reg3 (h lo : Nat) : BitVec 5 := BitVec.ofNat 5 (8 + h / 2 ^ lo % 8)

/-- A signed immediate of `n` bits as a 12-bit one. -/
def sext12 (v n : Nat) : BitVec 12 := BitVec.ofInt 12 (signedOf v n)

/-- Compressed words, quadrant 0. -/
def readC0 (h : Nat) : Option Rv :=
  let w := bitsOf h 12 10 * 8
  let offW := w + bitsOf h 6 6 * 4 + bitsOf h 5 5 * 64
  let offD := w + bitsOf h 6 5 * 64
  match bitsOf h 15 13 with
  | 0 =>
    let imm := bitsOf h 12 11 * 16 + bitsOf h 10 7 * 64 + bitsOf h 6 6 * 4 + bitsOf h 5 5 * 8
    if imm = 0 then none else some (.aluImm .add (reg3 h 2) 2 (BitVec.ofNat 12 imm))
  | 2 => some (.load .lw (reg3 h 2) (reg3 h 7) (BitVec.ofNat 12 offW))
  | 3 => some (.load .ld (reg3 h 2) (reg3 h 7) (BitVec.ofNat 12 offD))
  | 6 => some (.store .sw (reg3 h 7) (reg3 h 2) (BitVec.ofNat 12 offW))
  | 7 => some (.store .sd (reg3 h 7) (reg3 h 2) (BitVec.ofNat 12 offD))
  | _ => none

/-- Compressed words, quadrant 1: the register operations. -/
def readC1Alu (h : Nat) : Option Rv :=
  let rd := reg3 h 7
  let imm := bitsOf h 12 12 * 32 + bitsOf h 6 2
  match bitsOf h 11 10 with
  | 0 => some (.aluImm .srl rd rd (BitVec.ofNat 12 imm))
  | 1 => some (.aluImm .sra rd rd (BitVec.ofNat 12 imm))
  | 2 => some (.aluImm .and rd rd (sext12 imm 6))
  | _ =>
    match bitsOf h 12 12, bitsOf h 6 5 with
    | 0, 0 => some (.alu .sub rd rd (reg3 h 2))
    | 0, 1 => some (.alu .xor rd rd (reg3 h 2))
    | 0, 2 => some (.alu .or rd rd (reg3 h 2))
    | 0, 3 => some (.alu .and rd rd (reg3 h 2))
    | 1, 0 => some (.aluW .subw rd rd (reg3 h 2))
    | 1, 1 => some (.aluW .addw rd rd (reg3 h 2))
    | _, _ => none

/-- Compressed words, quadrant 1. -/
def readC1 (h : Nat) : Option Rv :=
  let rd := reg5 h 7
  let imm := bitsOf h 12 12 * 32 + bitsOf h 6 2
  let offB := bitsOf h 12 12 * 256 + bitsOf h 6 5 * 64 + bitsOf h 2 2 * 32 + bitsOf h 11 10 * 8 + bitsOf h 4 3 * 2
  match bitsOf h 15 13 with
  | 0 => some (.aluImm .add rd rd (sext12 imm 6))
  | 1 => if rd = 0 then none else some (.aluImmW .addw rd rd (sext12 imm 6))
  | 2 => some (.aluImm .add rd 0 (sext12 imm 6))
  | 3 =>
    if imm = 0 then none
    else if rd = 2 then
      some (.aluImm .add 2 2 (sext12 (bitsOf h 12 12 * 512 + bitsOf h 4 3 * 128 + bitsOf h 5 5 * 64 + bitsOf h 2 2 * 32 +
        bitsOf h 6 6 * 16) 10))
    else some (.lui rd (BitVec.ofInt 20 (signedOf imm 6)))
  | 4 => readC1Alu h
  | 5 =>
    some (.jal 0 (BitVec.ofInt 21 (signedOf (bitsOf h 12 12 * 2048 + bitsOf h 8 8 * 1024 + bitsOf h 10 9 * 256 +
      bitsOf h 6 6 * 128 + bitsOf h 7 7 * 64 + bitsOf h 2 2 * 32 + bitsOf h 11 11 * 16 + bitsOf h 5 3 * 2) 12)))
  | 6 => some (.branch .beq (reg3 h 7) 0 (BitVec.ofInt 13 (signedOf offB 9)))
  | _ => some (.branch .bne (reg3 h 7) 0 (BitVec.ofInt 13 (signedOf offB 9)))

/-- Compressed words, quadrant 2; C.EBREAK is none of the hinge core's (R37). -/
def readC2 (h : Nat) : Option Rv :=
  let rd := reg5 h 7
  let rs2 := reg5 h 2
  match bitsOf h 15 13 with
  | 0 => some (.aluImm .sll rd rd (BitVec.ofNat 12 (bitsOf h 12 12 * 32 + bitsOf h 6 2)))
  | 2 =>
    if rd = 0 then none
    else some (.load .lw rd 2 (BitVec.ofNat 12 (bitsOf h 12 12 * 32 + bitsOf h 6 4 * 4 + bitsOf h 3 2 * 64)))
  | 3 =>
    if rd = 0 then none
    else some (.load .ld rd 2 (BitVec.ofNat 12 (bitsOf h 12 12 * 32 + bitsOf h 6 5 * 8 + bitsOf h 4 2 * 64)))
  | 4 =>
    if bitsOf h 12 12 = 0 then
      if rs2 = 0 then (if rd = 0 then none else some (.jalr 0 rd 0)) else some (.alu .add rd 0 rs2)
    else
      if rs2 = 0 then (if rd = 0 then none else some (.jalr 1 rd 0)) else some (.alu .add rd rd rs2)
  | 6 => some (.store .sw 2 rs2 (BitVec.ofNat 12 (bitsOf h 12 9 * 4 + bitsOf h 8 7 * 64)))
  | 7 => some (.store .sd 2 rs2 (BitVec.ofNat 12 (bitsOf h 12 10 * 8 + bitsOf h 9 7 * 64)))
  | _ => none

/-- A compressed word as its expansion (R326). -/
def readC (h : Nat) : Option Rv :=
  match h % 4 with
  | 0 => readC0 h
  | 1 => readC1 h
  | _ => readC2 h

/-- Length in bytes of the hinge instruction that begins with these bits: bits 1:0 are 11 in a 32-bit word. -/
def hingeLength (w : Nat) : Nat := if w % 4 = 3 then 4 else 2

/-- The decoder of the hinge core, from the 32 bits at the pc. -/
def decodeHinge (w : Nat) : Except Reject Instr :=
  let r := if w % 4 = 3 then readRv32 (w % 2 ^ 32) else (readC (w % 65536)).map fun r => .hingeRiscvInstruction 2 r
  match r with
  | some i => .ok i
  | none => .error .notRiscv

/-- The instruction this decoder reads from `nbits` bits of an opcode-table row (bit 0 is the lowest bit of the first byte):
the bits above are 0. 128 bits are a KIS-3 word, 16 and 32 bits the hinge core's. -/
def decodeTableWord (nbits w : Nat) : Option Instr :=
  let r := if nbits = 128 then decodeWord (BitVec.ofNat 128 w)
    else if nbits = 16 || nbits = 32 then decodeHinge (w % 2 ^ nbits)
    else .error .noOpcode
  match r with
  | .ok i => some i
  | .error _ => none

/-! ## The encoders -/

def Operand.field : Operand → Nat
  | .vec n => n.toNat
  | .sca n => 256 + n.toNat
  | .cls k i => 512 + 16 * k.toNat + i.toNat
  | .imm v => 768 + v.toNat

def MapSel.field : MapSel → Nat
  | .none => 0
  | .user c => 1 + c.val
  | .rev => 17
  | .xor k => 18 + k.val
  | .rot k => 23 + k.val
  | .sum k => 54 + k.val
  | .bcast0 => 58
  | .illegal k => 59 + k.val

def Guard.field (g : Guard) : Nat := 16 * g.neg.toNat + 8 * g.qs.toNat + g.idx.toNat

def Rm.code : Rm → Nat
  | .rne => 0
  | .rz => 1
  | .rd => 2
  | .ru => 3

def Fmt.code : Fmt → Nat
  | .b32 => 0x00
  | .f32 => 0x01
  | .f16 => 0x02
  | .bf16 => 0x03
  | .e4m3 => 0x04
  | .e5m2 => 0x05
  | .e2m1 => 0x06
  | .i8 => 0x07
  | .u8 => 0x08
  | .i16 => 0x09
  | .u16 => 0x0A
  | .i32 => 0x0B
  | .u32 => 0x0C
  | .i4g => 0x0D
  | .i3g => 0x0E
  | .e2m1g => 0x0F
  | .b64 => 0x10
  | .i64 => 0x11
  | .u64 => 0x12
  | .h2 => 0x13
  | .bf2 => 0x14
  | .q4e4 => 0x15
  | .q4e5 => 0x16
  | .s24 => 0x17
  | .unused k => 0x18 + k.val

def IntTy.code : IntTy → Nat
  | .i32 => 0
  | .u32 => 1
  | .i64 => 2
  | .u64 => 3

def ICond.code : ICond → Nat
  | .eq => 0
  | .ne => 1
  | .lt => 2
  | .le => 3
  | .gt => 4
  | .ge => 5

def FCond.code : FCond → Nat
  | .eq => 0
  | .ne => 1
  | .lt => 2
  | .le => 3
  | .gt => 4
  | .ge => 5
  | .num => 6
  | .nan => 7

def PackFmt.code : PackFmt → Nat
  | .h2 => 0
  | .bf2 => 1
  | .q4e4 => 2
  | .q4e5 => 3

def QFmt.code : QFmt → Nat
  | .e4m3 => 0
  | .e5m2 => 1
  | .e2m1 => 2

def SegW.code : SegW → Nat
  | .w32 => 0
  | .w16 => 1
  | .w8 => 2
  | .w4 => 3

def VoteMode.code : VoteMode → Nat
  | .all => 0
  | .any => 1
  | .uni => 2
  | .ballot => 3

def Scale.code : Scale → Nat
  | .x1 => 0
  | .x2 => 1
  | .x4 => 2
  | .x8 => 3
  | .x16 => 4

def Sem.code : Sem → Nat
  | .weak => 0
  | .strong => 1
  | .ordered => 2

def MemMode.opm (m : MemMode) : Nat := m.fmt.code + 32 * m.sc.code + 256 * m.sem.code
def MemMode.x (m : MemMode) : Nat := m.disp.toNat + 8192 * m.sat.toNat

def AtomOp.code : AtomOp → Nat
  | .add => 0
  | .min => 1
  | .max => 2
  | .and => 3
  | .or => 4
  | .xor => 5
  | .swap => 6
  | .cas => 7
  | .inc => 8

def AtomTy.code : AtomTy → Nat
  | .i32 => 0
  | .u32 => 1
  | .i64 => 2
  | .u64 => 3
  | .f32 => 4
  | .h2 => 5
  | .bf2 => 6

def AtomMode.opm (m : AtomMode) : Nat := m.op.code + 16 * m.ty.code + 128 * m.sc.code
def AtomMode.x (m : AtomMode) : Nat := m.disp.toNat + 4096 * m.acq.toNat + 8192 * m.rel.toNat

def Scope.code : Scope → Nat
  | .grp => 0
  | .team => 1
  | .clu => 2
  | .dev => 3
  | .sys => 4

def JoinOp.code : JoinOp → Nat
  | .intersect => 0
  | .union => 1
  | .diff => 2

/-- OPM and X of a KIS-3 instruction, from the same tables; none for every other step. -/
def Instr.modifiers : Instr → Option (Nat × Nat)
  | .nop _ => some (0, 0)
  | .if_ _ neg disp => some (neg.toNat, disp.toNat)
  | .else_ _ disp => some (0, disp.toNat)
  | .endif _ => some (0, 0)
  | .loop _ disp => some (0, disp.toNat)
  | .endloop _ => some (0, 0)
  | .break_ _ neg => some (neg.toNat, 0)
  | .cont _ neg => some (neg.toNat, 0)
  | .jmp _ neg => some (neg.toNat, 0)
  | .call _ neg => some (neg.toNat, 0)
  | .ret _ neg => some (neg.toNat, 0)
  | .exit _ => some (0, 0)
  | .yield _ lat disp => some (lat.toNat, disp.toNat)
  | .bar _ arv => some (arv.toNat, 0)
  | .barc _ arv => some (arv.toNat, 0)
  | .mov _ ty => some (ty.code, 0)
  | .movi _ ty => some (ty.code, 0)
  | .iadd _ ty sat => some (ty.code + 4 * sat.toNat, 0)
  | .isub _ ty sat => some (ty.code + 4 * sat.toNat, 0)
  | .imul _ ty => some (ty.code, 0)
  | .imad _ ty => some (ty.code, 0)
  | .imulhi _ ty => some (ty.code, 0)
  | .imin _ ty => some (ty.code, 0)
  | .imax _ ty => some (ty.code, 0)
  | .iabs _ ty sat => some (ty.code + 4 * sat.toNat, 0)
  | .ineg _ ty sat => some (ty.code + 4 * sat.toNat, 0)
  | .lea64 _ sh zx => some (4 * sh.val + 32 * zx.toNat, 0)
  | .iset _ cond ty => some (ty.code + 8 * cond.code, 0)
  | .sel _ ty => some (ty.code, 0)
  | .plop _ lut => some (lut.toNat, 0)
  | .and _ w => some (2 * w.toNat, 0)
  | .or _ w => some (2 * w.toNat, 0)
  | .xor _ w => some (2 * w.toNat, 0)
  | .not _ w => some (2 * w.toNat, 0)
  | .shl _ w => some (2 * w.toNat, 0)
  | .shr _ w => some (2 * w.toNat, 0)
  | .sar _ w => some (2 * w.toNat, 0)
  | .bfx _ w sx => some (2 * w.toNat + sx.toNat, 0)
  | .bfi _ w => some (2 * w.toNat, 0)
  | .popc _ w => some (2 * w.toNat, 0)
  | .clz _ w => some (2 * w.toNat, 0)
  | .brev _ w => some (2 * w.toNat, 0)
  | .fadd _ => some (0, 0)
  | .fsub _ => some (0, 0)
  | .fmul _ => some (0, 0)
  | .ffma _ => some (0, 0)
  | .fmin _ => some (0, 0)
  | .fmax _ => some (0, 0)
  | .fmaxx _ => some (0, 0)
  | .fminx _ => some (0, 0)
  | .fabs _ => some (0, 0)
  | .fneg _ => some (0, 0)
  | .fset _ cond => some (cond.code, 0)
  | .frnd _ => some (0, 0)
  | .frcp _ => some (0, 0)
  | .frsq _ => some (0, 0)
  | .fsqrt _ => some (0, 0)
  | .fex2 _ => some (0, 0)
  | .flg2 _ => some (0, 0)
  | .fsin _ => some (0, 0)
  | .fcos _ => some (0, 0)
  | .ftanh _ => some (0, 0)
  | .hrnd _ => some (0, 0)
  | .padd _ pf sat => some (pf.code + 4 * sat.toNat, 0)
  | .psub _ pf sat => some (pf.code + 4 * sat.toNat, 0)
  | .pmul _ pf sat => some (pf.code + 4 * sat.toNat, 0)
  | .pfma _ pf sat => some (pf.code + 4 * sat.toNat, 0)
  | .pmin _ pf => some (pf.code, 0)
  | .pmax _ pf => some (pf.code, 0)
  | .pset _ pf cond any => some (pf.code + 8 * cond.code + 64 * any.toNat, 0)
  | .pdot _ pf sat => some (pf.code + 4 * sat.toNat, 0)
  | .cvt _ dst src sat => some (sat.toNat, dst.code + 32 * src.code)
  | .pack2 _ bf sat => some (bf.toNat + 4 * sat.toNat, 0)
  | .pack4 _ e5 sat => some (e5.toNat + 4 * sat.toNat, 0)
  | .unpk _ pf => some (pf.code, 0)
  | .fkey _ half => some (half.toNat, 0)
  | .sprune _ bf => some (bf.toNat, 0)
  | .qscale _ q => some (q.code, 0)
  | .cambind _ tm fmt wel sin => some (tm.toNat, fmt.code + 32 * wel.toNat + 64 * sin.code)
  | .camwait _ => some (0, 0)
  | .camfree _ tm => some (tm.toNat, 0)
  | .caminfo _ => some (0, 0)
  | .shfl _ w b64 => some (w.code + 4 * b64.toNat, 0)
  | .lanebc _ b64 => some (4 * b64.toNat, 0)
  | .vote _ mode => some (mode.code, 0)
  | .match_ _ b64 => some (4 * b64.toNat, 0)
  | .elect _ => some (0, 0)
  | .base _ => some (0, 0)
  | .ld _ m => some (m.opm, m.x)
  | .st _ m => some (m.opm, m.x)
  | .ldu _ m => some (m.opm, m.x)
  | .stu _ m => some (m.opm, m.x)
  | .lds _ m => some (m.opm, m.x)
  | .sts _ m => some (m.opm, m.x)
  | .pref _ sc disp => some (32 * sc.code, disp.toNat)
  | .icpref _ => some (0, 0)
  | .gld _ m => some (m.opm, m.x)
  | .gst _ m => some (m.opm, m.x)
  | .glds _ m => some (m.opm, m.x)
  | .gsts _ m => some (m.opm, m.x)
  | .atom _ m => some (m.opm, m.x)
  | .atoms _ m => some (m.opm, m.x)
  | .atomu _ m => some (m.opm, m.x)
  | .red _ m => some (m.opm, m.x)
  | .fence _ scope => some (scope.code, 0)
  | .fencew _ scope => some (scope.code, 0)
  | .tdld _ => some (0, 0)
  | .tdinv _ => some (0, 0)
  | .cpy _ x => some (x.toNat, 0)
  | .cpyw _ x => some (x.toNat, 0)
  | .cpyb _ x ds ss => some (x.toNat + 2 * ds.toNat + 4 * ss.toNat, 0)
  | .ltinit _ => some (0, 0)
  | .ltexpect _ => some (0, 0)
  | .ltarrive _ c => some (c.toNat, 0)
  | .ltwait _ => some (0, 0)
  | .lttest _ => some (0, 0)
  | .ltcont _ disp => some (0, disp.toNat)
  | .ltreset _ => some (0, 0)
  | .tstsp _ => some (0, 0)
  | .tldsp _ => some (0, 0)
  | .jdesc _ => some (0, 0)
  | .join _ op seg disp => some (op.code + 4 * seg.toNat, disp.toNat)
  | .jresume _ => some (0, 0)
  | .jstat _ w => some (w.toNat, 0)
  | .jcancel _ => some (0, 0)
  | .enq _ sc disp => some (128 * sc.code, disp.toNat)
  | .qsub _ sc disp => some (128 * sc.code, disp.toNat)
  | .qunsub _ sc disp => some (128 * sc.code, disp.toNat)
  | .qpop _ nb => some (nb.toNat, 0)
  | .qpush _ nb => some (nb.toNat, 0)
  | .spawn _ nb disp => some (nb.toNat, disp.toNat)
  | .ggrow _ => some (0, 0)
  | .launch _ args => some (args.toNat, 0)
  | .trigger _ => some (0, 0)
  | .smsg _ sc disp => some (128 * sc.code, disp.toNat)
  | .trap _ => some (0, 0)
  | .rett _ skip => some (skip.toNat, 0)
  | .rdsr _ reg => some (0, reg.toNat)
  | .wrsr _ reg => some (0, reg.toNat)
  | .featq _ => some (0, 0)
  | .icinv _ => some (0, 0)
  | .brk _ => some (0, 0)
  | .time _ => some (0, 0)
  | .camBindComplete .. | .camResidencyLoad .. | .fenceRelease .. | .copyRequestStart .. | .copyDeliver ..
  | .latchContinuationStart .. | .latchStall .. | .joinSegment .. | .keywayGroupForm .. | .tumblerDraw ..
  | .heldClassPlace .. | .resultReturn .. | .parkedInstructionAct .. | .promotion .. | .hlLd .. | .hlSt ..
  | .hlAtomic .. | .hlInstall .. | .hlPref .. | .hlMsg .. | .hlBudget .. | .hlDone | .handlerDispatch ..
  | .hingeOverrun .. | .messageArrive .. | .homeRead .. | .homeWrite .. | .homeStrongAccess .. | .homeAtomic ..
  | .enqPush .. | .lineFill .. | .lineEvict .. | .replicaInstall .. | .dirtyRingRoom .. | .remoteRequest ..
  | .fabricTimeout .. | .dramRefresh .. | .temperatureReport .. | .powerThrottle | .teamPlace .. | .nodeStart ..
  | .nodeEvaluate .. | .gridTrigger .. | .gridRetire .. | .preemptTeam .. | .teamResume .. | .quantumEnd ..
  | .faultRingRoom .. | .kis1Translate .. | .icFill .. | .handlerImageInstall .. | .createVf .. | .destroyVf ..
  | .resumeVf .. | .loadObject .. | .unloadObject .. | .submitGraph .. | .invalidate .. | .invalidateComplete ..
  | .resolveRetry .. | .resolveFail .. | .readCounters .. | .halt .. | .quiesce .. | .resume .. | .readContext ..
  | .writeContext .. | .migrateOut .. | .migrateIn .. | .coldStart .. | .warmStart .. | .fullServiceChange
  | .onlineRowReplacement .. | .fabricLaneRetrain .. | .deviceTimeTick | .lostSectorClear .. | .powerThrottleEnd
  | .debuggerAttach .. | .hingeRiscvInstruction .. | .unitMarkedSuspect ..
      => none
/-- The fields of a KIS-3 word with their widths, from bit 0 up: opcode, common fields, OPM and X. -/
def wordFields (op : Nat) (o : Ops) (q x : Nat) : List (Nat × Nat) :=
  let m := q + 1024 * o.imm.isSome.toNat + 2048 * o.rm.code + 16384 * o.ftz.toNat + 32768 * o.lv.toNat
  let v := (o.imm.getD 0).toNat
  let pick := fun lo n other => if o.imm.isSome then v / 2 ^ lo % 2 ^ n else other
  [(14, pick 0 14 x), (16, m), (4, o.h.toNat), (5, o.g2.field), (5, o.g1.field), (6, pick 14 6 o.mc.field),
   (6, pick 20 6 o.mb.field), (6, pick 26 6 o.ma.field), (10, o.e.field), (10, o.c.field), (10, o.b.field),
   (10, o.a.field), (10, o.d.field), (8, op % 256), (4, op / 256), (2, 0), (1, o.yieldHint.toNat), (1, o.stop.toNat)]

/-- The word of a KIS-3 instruction; none for every other step. -/
def encodeWord (i : Instr) : Option IWord :=
  match i.code, i.modifiers with
  | some (op, o), some (q, x) => some (BitVec.ofNat 128 (joinBits (wordFields op o q x)))
  | _, _ => none

def RvBranch.code : RvBranch → Nat
  | .beq => 0
  | .bne => 1
  | .blt => 4
  | .bge => 5
  | .bltu => 6
  | .bgeu => 7

def RvLoad.code : RvLoad → Nat
  | .lb => 0
  | .lh => 1
  | .lw => 2
  | .ld => 3
  | .lbu => 4
  | .lhu => 5
  | .lwu => 6

def RvStore.code : RvStore → Nat
  | .sb => 0
  | .sh => 1
  | .sw => 2
  | .sd => 3

/-- funct7 and funct3. -/
def RvAlu.code : RvAlu → Nat × Nat
  | .add => (0, 0)
  | .sub => (32, 0)
  | .sll => (0, 1)
  | .slt => (0, 2)
  | .sltu => (0, 3)
  | .xor => (0, 4)
  | .srl => (0, 5)
  | .sra => (32, 5)
  | .or => (0, 6)
  | .and => (0, 7)

def RvAluW.code : RvAluW → Nat × Nat
  | .addw => (0, 0)
  | .subw => (32, 0)
  | .sllw => (0, 1)
  | .srlw => (0, 5)
  | .sraw => (32, 5)

/-- The major opcode and funct3. -/
def RvMul.code : RvMul → Nat × Nat
  | .mul => (0x33, 0)
  | .mulh => (0x33, 1)
  | .mulhsu => (0x33, 2)
  | .mulhu => (0x33, 3)
  | .div => (0x33, 4)
  | .divu => (0x33, 5)
  | .rem => (0x33, 6)
  | .remu => (0x33, 7)
  | .mulw => (0x3B, 0)
  | .divw => (0x3B, 4)
  | .divuw => (0x3B, 5)
  | .remw => (0x3B, 6)
  | .remuw => (0x3B, 7)

def RvAmo.code : RvAmo → Nat
  | .swap => 1
  | .add => 0
  | .xor => 4
  | .and => 12
  | .or => 8
  | .min => 16
  | .max => 20
  | .minu => 24
  | .maxu => 28

def RvCsr.code : RvCsr → Nat
  | .rw => 1
  | .rs => 2
  | .rc => 3

def HlOp.code : HlOp → Nat
  | .add => 0
  | .and => 1
  | .or => 2
  | .xor => 3
  | .swap => 4
  | .cas => 5
  | .min => 6
  | .max => 7
  | .minu => 8
  | .maxu => 9

/-- A word of R, I, S, U shape from its fields, low to high. -/
def rvR (op rd f3 rs1 rs2 f7 : Nat) : Nat := joinBits [(7, op), (5, rd), (3, f3), (5, rs1), (5, rs2), (7, f7)]
def rvI (op rd f3 rs1 imm : Nat) : Nat := joinBits [(7, op), (5, rd), (3, f3), (5, rs1), (12, imm)]
def rvS (op f3 rs1 rs2 imm : Nat) : Nat :=
  joinBits [(7, op), (5, imm % 32), (3, f3), (5, rs1), (5, rs2), (7, imm / 32)]

/-- The 32-bit word of an ordinary hinge instruction (0 for `illegal`). -/
def encodeRv : Rv → Nat
  | .lui rd imm => joinBits [(7, 0x37), (5, rd.toNat), (20, imm.toNat)]
  | .auipc rd imm => joinBits [(7, 0x17), (5, rd.toNat), (20, imm.toNat)]
  | .jal rd imm =>
    let v := imm.toNat
    joinBits [(7, 0x6F), (5, rd.toNat), (8, bitsOf v 19 12), (1, bitsOf v 11 11), (10, bitsOf v 10 1), (1, bitsOf v 20 20)]
  | .jalr rd rs1 imm => rvI 0x67 rd.toNat 0 rs1.toNat imm.toNat
  | .branch op rs1 rs2 imm =>
    let v := imm.toNat
    joinBits [(7, 0x63), (1, bitsOf v 11 11), (4, bitsOf v 4 1), (3, op.code), (5, rs1.toNat), (5, rs2.toNat),
      (6, bitsOf v 10 5), (1, bitsOf v 12 12)]
  | .load op rd rs1 imm => rvI 0x03 rd.toNat op.code rs1.toNat imm.toNat
  | .store op rs1 rs2 imm => rvS 0x23 op.code rs1.toNat rs2.toNat imm.toNat
  | .aluImm op rd rs1 imm =>
    rvI 0x13 rd.toNat op.code.2 rs1.toNat (imm.toNat + if op == .sra then 1024 else 0)
  | .alu op rd rs1 rs2 => rvR 0x33 rd.toNat op.code.2 rs1.toNat rs2.toNat op.code.1
  | .aluImmW op rd rs1 imm =>
    rvI 0x1B rd.toNat op.code.2 rs1.toNat (imm.toNat + if op == .sraw then 1024 else 0)
  | .aluW op rd rs1 rs2 => rvR 0x3B rd.toNat op.code.2 rs1.toNat rs2.toNat op.code.1
  | .mul op rd rs1 rs2 => rvR op.code.1 rd.toNat op.code.2 rs1.toNat rs2.toNat 1
  | .fence => 0x0F
  | .csr op useImm rd src num => rvI 0x73 rd.toNat (op.code + 4 * useImm.toNat) src.toNat num.toNat
  | .lr wide rd rs1 => rvR 0x2F rd.toNat (2 + wide.toNat) rs1.toNat 0 8
  | .sc wide rd rs1 rs2 => rvR 0x2F rd.toNat (2 + wide.toNat) rs1.toNat rs2.toNat 12
  | .amo op wide rd rs1 rs2 => rvR 0x2F rd.toNat (2 + wide.toNat) rs1.toNat rs2.toNat (4 * op.code)
  | .illegal => 0

/-- The 32-bit word of a hinge instruction; none for every other step, and for the compressed spelling of one. -/
def encodeHinge : Instr → Option Nat
  | .hlLd rd rs1 imm => some (rvI 0x0B rd.toNat 0 rs1.toNat imm.toNat)
  | .hlSt rs1 rs2 imm => some (rvS 0x0B 1 rs1.toNat rs2.toNat imm.toNat)
  | .hlAtomic op rd rs1 rs2 => some (rvR 0x0B rd.toNat 2 rs1.toNat rs2.toNat op.code)
  | .hlInstall rs1 rs2 => some (rvR 0x0B 0 3 rs1.toNat rs2.toNat 0)
  | .hlPref rs1 => some (rvR 0x0B 0 4 rs1.toNat 0 0)
  | .hlMsg rs1 rs2 => some (rvR 0x0B 0 5 rs1.toNat rs2.toNat 0)
  | .hlBudget rd => some (rvR 0x0B rd.toNat 6 0 0 0)
  | .hlDone => some (rvR 0x0B 0 7 0 0 0)
  | .hingeRiscvInstruction len r => if len = 4 ∧ r ≠ .illegal then some (encodeRv r) else none
  | _ => none

/-- The words of a well-formed instruction, as a number with bit 0 the lowest bit of its first byte, and its width in bits;
none for an event and for a compressed spelling. -/
def encode (i : Instr) : Option (Nat × Nat) :=
  match encodeWord i with
  | some w => some (128, w.toNat)
  | none => (encodeHinge i).map fun w => (32, w)

end Sys2Proof
end

