-- ==== Sys2Proof/Machine/Formats.lean ====
section
/-!
DEFINITION. Number formats (06 R91 to R99): the format codes' widths and kinds, decoding and encoding of float elements, exact
sums and products, rounding (RoundTo), conversion classes (R97) and the window sum (R99). Values are exact: a finite one is
a sign, a magnitude and a power of two.
-/
namespace Sys2Proof.Machine

/-! ## Format codes (R91, R92) -/

/-- Bits of one element or, for a packed or 64-bit code, of the whole operand (R92); 0 for the codes no register holds. -/
def fmtWidth : Fmt → Nat
  | .b32 | .f32 | .i32 | .u32 | .h2 | .bf2 | .q4e4 | .q4e5 => 32
  | .f16 | .bf16 | .i16 | .u16 => 16
  | .e4m3 | .e5m2 | .i8 | .u8 => 8
  | .e2m1 => 4
  | .b64 | .i64 | .u64 => 64
  | .i4g | .i3g | .e2m1g | .s24 | .unused _ => 0

/-- CVT, typed memory and descriptors take the code (R92). -/
def fmtTyped : Fmt → Bool
  | .i4g | .i3g | .e2m1g | .s24 | .unused _ => false
  | .b32 | .f32 | .f16 | .bf16 | .e4m3 | .e5m2 | .e2m1 | .i8 | .u8 | .i16 | .u16 | .i32 | .u32 | .b64 | .i64 | .u64 | .h2
  | .bf2 | .q4e4 | .q4e5 => true

/-- Cam binds take the code (R92). -/
def fmtCam : Fmt → Bool
  | .f16 | .bf16 | .e4m3 | .e5m2 | .i4g | .i3g | .e2m1g | .s24 => true
  | .b32 | .f32 | .e2m1 | .i8 | .u8 | .i16 | .u16 | .i32 | .u32 | .b64 | .i64 | .u64 | .h2 | .bf2 | .q4e4 | .q4e5
  | .unused _ => false

/-- A single float format. -/
def fmtFloat : Fmt → Bool
  | .f32 | .f16 | .bf16 | .e4m3 | .e5m2 | .e2m1 => true
  | .b32 | .i8 | .u8 | .i16 | .u16 | .i32 | .u32 | .i4g | .i3g | .e2m1g | .b64 | .i64 | .u64 | .h2 | .bf2 | .q4e4 | .q4e5
  | .s24 | .unused _ => false

/-- An integer format. -/
def fmtInt : Fmt → Bool
  | .i8 | .u8 | .i16 | .u16 | .i32 | .u32 | .i64 | .u64 => true
  | .b32 | .f32 | .f16 | .bf16 | .e4m3 | .e5m2 | .e2m1 | .i4g | .i3g | .e2m1g | .b64 | .h2 | .bf2 | .q4e4 | .q4e5 | .s24
  | .unused _ => false

/-- A signed integer format. -/
def fmtSigned (f : Fmt) : Bool := f == .i8 || f == .i16 || f == .i32 || f == .i64

/-- The element format of a packed code, and how many elements a lane holds (R91). -/
def packElem : PackFmt → Fmt × Nat
  | .h2 => (.f16, 2)
  | .bf2 => (.bf16, 2)
  | .q4e4 => (.e4m3, 4)
  | .q4e5 => (.e5m2, 4)

/-- The code of a packed form. -/
def packCode : PackFmt → Fmt
  | .h2 => .h2
  | .bf2 => .bf2
  | .q4e4 => .q4e4
  | .q4e5 => .q4e5

/-- The packed form of a packed code. -/
def fmtPack : Fmt → Option PackFmt
  | .h2 => some .h2
  | .bf2 => some .bf2
  | .q4e4 => some .q4e4
  | .q4e5 => some .q4e5
  | .b32 | .f32 | .f16 | .bf16 | .e4m3 | .e5m2 | .e2m1 | .i8 | .u8 | .i16 | .u16 | .i32 | .u32 | .i4g | .i3g | .e2m1g | .b64
  | .i64 | .u64 | .s24 | .unused _ => none

/-- The elements of an operand in a format: element format, count, bits apart (R91). A format that is not packed is its own
element. -/
def fmtElems (f : Fmt) : Fmt × Nat × Nat :=
  match fmtPack f with
  | some p => ((packElem p).1, (packElem p).2, fmtWidth (packElem p).1)
  | none => (f, 1, fmtWidth f)

/-- The code of an integer type (R163). -/
def tyFmt : IntTy → Fmt
  | .i32 => .i32
  | .u32 => .u32
  | .i64 => .i64
  | .u64 => .u64

/-- Width of an integer type. -/
def tyWidth (t : IntTy) : Nat := fmtWidth (tyFmt t)

/-- Bytes of an element in memory; a half-byte element counts 1 (R204). -/
def fmtBytes (f : Fmt) : Nat := (fmtWidth f + 7) / 8

/-! ## Float layouts (R93) -/

/-- Exponent bits, fraction bits, bias, whether the format has infinities. -/
structure Layout where
  ebits : Nat
  fbits : Nat
  bias : Nat
  inf : Bool
deriving DecidableEq, Repr

/-- The layout of a float format; another code is read as F32's, which no rule asks for. -/
def layout : Fmt → Layout
  | .f16 => ⟨5, 10, 15, true⟩
  | .bf16 => ⟨8, 7, 127, true⟩
  | .e4m3 => ⟨4, 3, 7, false⟩
  | .e5m2 => ⟨5, 2, 15, true⟩
  | .e2m1 => ⟨2, 1, 1, false⟩
  | .f32 | .b32 | .i8 | .u8 | .i16 | .u16 | .i32 | .u32 | .i4g | .i3g | .e2m1g | .b64 | .i64 | .u64 | .h2 | .bf2 | .q4e4
  | .q4e5 | .s24 | .unused _ => ⟨8, 23, 127, true⟩

/-- A value: a NaN with its sign and its fraction (left-aligned to 23 bits), an infinity, or ±m·2^e exactly; m = 0 is a signed
zero. -/
inductive Num where
  | nan (neg : Bool) (frac : Nat)
  | inf (neg : Bool)
  | fin (neg : Bool) (m : Nat) (e : Int)
deriving DecidableEq, Repr

/-- The quiet bit of a fraction aligned to 23 bits. -/
def quietBit : Nat := 2 ^ 22

/-- The canonical quiet NaN (R95). -/
def Num.canonical : Num := .nan false quietBit

/-- The sign of a value. -/
def Num.neg : Num → Bool
  | .nan n _ => n
  | .inf n => n
  | .fin n _ _ => n

/-- A NaN. -/
def Num.isNan : Num → Bool
  | .nan _ _ => true
  | _ => false

/-- ±0. -/
def Num.isZero : Num → Bool
  | .fin _ 0 _ => true
  | _ => false

/-- Decode an element (R93, R94). -/
def decodeNum (f : Fmt) (bits : Nat) : Num :=
  let L := layout f
  let fr := bits % 2 ^ L.fbits
  let ex := bits / 2 ^ L.fbits % 2 ^ L.ebits
  let s := bits / 2 ^ (L.fbits + L.ebits) % 2 == 1
  if ex = 0 then .fin s fr (1 - (L.bias : Int) - L.fbits)
  else if ex = 2 ^ L.ebits - 1 ∧ L.inf then
    if fr = 0 then .inf s else .nan s (fr * 2 ^ (23 - L.fbits))
  else if f = .e4m3 ∧ ex = 15 ∧ fr = 7 then .nan s (7 * 2 ^ 20)
  else .fin s (2 ^ L.fbits + fr) ((ex : Int) - L.bias - L.fbits)

/-- The bits hold a subnormal number of the format. -/
def subnormalBits (f : Fmt) (bits : Nat) : Bool :=
  let L := layout f
  bits / 2 ^ L.fbits % 2 ^ L.ebits == 0 && bits % 2 ^ L.fbits != 0

/-- Val (R160, R98): the value of an element, flushed to a signed zero when FTZ meets a subnormal. -/
def val (f : Fmt) (ftz : Bool) (bits : Nat) : Num :=
  if ftz && subnormalBits f bits then .fin (decodeNum f bits).neg 0 0 else decodeNum f bits

/-- Sign bit, exponent field and fraction field put together. -/
def packFloat (f : Fmt) (neg : Bool) (ex fr : Nat) : Nat :=
  let L := layout f
  neg.toNat * 2 ^ (L.fbits + L.ebits) + ex * 2 ^ L.fbits + fr

/-- Quiet (R95): the sign kept, as many of the highest fraction bits as the format holds, its highest fraction bit set. -/
def quiet (f : Fmt) (neg : Bool) (frac : Nat) : Nat :=
  let L := layout f
  if f = .e4m3 then packFloat f neg 15 7
  else
    let top := frac / 2 ^ (23 - L.fbits) % 2 ^ L.fbits
    packFloat f neg (2 ^ L.ebits - 1) (2 ^ (L.fbits - 1) + top % 2 ^ (L.fbits - 1))

/-- The largest finite magnitude of a format (R93), as m·2^e. -/
def maxFinite (f : Fmt) : Nat × Int :=
  let L := layout f
  if f = .e4m3 then (14, 5)
  else if f = .e2m1 then (3, 1)
  else (2 ^ (L.fbits + 1) - 1, (2 ^ L.ebits : Int) - 2 - L.bias - L.fbits)

/-- m1·2^e1 > m2·2^e2. -/
def dyadicGt (m1 : Nat) (e1 : Int) (m2 : Nat) (e2 : Int) : Bool :=
  if e1 ≥ e2 then m1 * 2 ^ (e1 - e2).toNat > m2 else m1 > m2 * 2 ^ (e2 - e1).toNat

/-- Order of two values that are not NaN; +0 and −0 compare equal. -/
def numLt (a b : Num) : Bool :=
  match a, b with
  | .inf n, .inf m => n && !m
  | .inf n, _ => n
  | _, .inf m => !m
  | .fin n m e, .fin n' m' e' =>
    if m = 0 then m' != 0 && !n'
    else if m' = 0 then n
    else if n != n' then n
    else if n then dyadicGt m e m' e' else dyadicGt m' e' m e
  | .nan _ _, _ => false
  | _, .nan _ _ => false

/-- m / 2^k rounded to an integer under a mode, for a number of the given sign. -/
def roundShift (mode : Rm) (neg : Bool) (m k : Nat) : Nat :=
  let q := m / 2 ^ k
  let r := m % 2 ^ k
  if r = 0 then q
  else
    match mode with
    | .rne => if 2 * r > 2 ^ k ∨ (2 * r = 2 ^ k ∧ q % 2 = 1) then q + 1 else q
    | .rz => q
    | .rd => if neg then q + 1 else q
    | .ru => if neg then q else q + 1

/-- RoundInt (R96): the magnitude of ±m·2^e rounded to an integer. -/
def roundIntMag (mode : Rm) (neg : Bool) (m : Nat) (e : Int) : Nat :=
  if e ≥ 0 then m * 2 ^ e.toNat else roundShift mode neg m (-e).toNat

/-- RoundFloat (R96): ±m·2^e at the format's precision and subnormal spacing, the exponent unbounded. -/
def roundFloat (f : Fmt) (mode : Rm) (neg : Bool) (m : Nat) (e : Int) : Nat × Int :=
  let L := layout f
  let top : Int := m.log2 + e
  let q := max top (1 - (L.bias : Int)) - L.fbits
  if e ≥ q then (m * 2 ^ (e - q).toNat, q) else (roundShift mode neg m (q - e).toNat, q)

/-- Encode a magnitude that `roundFloat` gave and that does not exceed the largest finite one. -/
def encodeFinite (f : Fmt) (neg : Bool) (m : Nat) (q : Int) : Nat :=
  let L := layout f
  if m < 2 ^ L.fbits then packFloat f neg 0 m
  else if m < 2 ^ (L.fbits + 1) then packFloat f neg (q + L.bias + L.fbits).toNat (m - 2 ^ L.fbits)
  else packFloat f neg (q + 1 + L.bias + L.fbits).toNat (m / 2 - 2 ^ L.fbits)

/-- TowardZero (R96). -/
def towardZero (mode : Rm) (neg : Bool) : Bool :=
  match mode with
  | .rz => true
  | .rd => !neg
  | .ru => neg
  | .rne => false

/-- Encode ±infinity, or what stands for it where the format has none (R96). -/
def encodeInf (f : Fmt) (neg sat : Bool) : Nat :=
  let L := layout f
  if sat || f == .e2m1 then encodeFinite f neg (maxFinite f).1 (maxFinite f).2
  else if L.inf then packFloat f neg (2 ^ L.ebits - 1) 0
  else packFloat f neg 15 7

/-- Least and greatest value of an integer format. -/
def minInt (f : Fmt) : Int := if fmtSigned f then -(2 ^ (fmtWidth f - 1) : Int) else 0
def maxInt (f : Fmt) : Int := if fmtSigned f then 2 ^ (fmtWidth f - 1) - 1 else 2 ^ fmtWidth f - 1

/-- An exact integer clamped to a format's range. -/
def clampInt (f : Fmt) (x : Int) : Int := max (minInt f) (min x (maxInt f))

/-- RoundTo (R96): the encoding of a value in a float or integer format. -/
def roundTo (x : Num) (f : Fmt) (mode : Rm) (sat ftz : Bool) : Nat :=
  match x with
  | .nan n fr => if fmtInt f || f == .e2m1 then 0 else quiet f n fr
  | .inf n =>
    if fmtInt f then wrapTo (if n then minInt f else maxInt f) (fmtWidth f) else encodeInf f n sat
  | .fin n m e =>
    if fmtInt f then
      let y : Int := roundIntMag mode n m e
      wrapTo (clampInt f (if n then -y else y)) (fmtWidth f)
    else if m = 0 then packFloat f n 0 0
    else
      let (m', q) := roundFloat f mode n m e
      let (mm, me) := maxFinite f
      if dyadicGt m' q mm me then
        if sat || f == .e2m1 || towardZero mode n then encodeFinite f n mm me else encodeInf f n false
      else
        let bits := encodeFinite f n m' q
        if ftz && subnormalBits f bits then packFloat f n 0 0 else bits

/-! ## Exact arithmetic (R160 IeeeExact) -/

/-- The first NaN of a list of values (R95). -/
def firstNan : List Num → Option Num
  | [] => none
  | x :: r => if x.isNan then some x else firstNan r

/-- The signed integer ±m·2^(e−q), for q ≤ e. -/
def scaled (neg : Bool) (m : Nat) (e q : Int) : Int :=
  let v : Int := m * 2 ^ (e - q).toNat
  if neg then -v else v

/-- A value from a signed integer times 2^q; zero takes the given sign. -/
def ofScaled (s : Int) (q : Int) (zeroNeg : Bool) : Num :=
  if s = 0 then .fin zeroNeg 0 0 else .fin (s < 0) s.natAbs q

/-- An exact product: 0·∞ is invalid, a zero takes the XOR of the signs. -/
def mulExact (a b : Num) : Num :=
  match firstNan [a, b] with
  | some x => x
  | none =>
    let n := a.neg != b.neg
    match a, b with
    | .fin _ m e, .fin _ m' e' => .fin n (m * m') (e + e')
    | _, _ => if a.isZero || b.isZero then .canonical else .inf n

/-- The sign of an exact zero sum of two addends (R160). -/
def zeroSign (mode : Rm) (n n' : Bool) : Bool := (n && n') || (mode == .rd && n != n')

/-- An exact sum: ∞ − ∞ is invalid. -/
def addExact (mode : Rm) (a b : Num) : Num :=
  match firstNan [a, b] with
  | some x => x
  | none =>
    match a, b with
    | .inf n, .inf n' => if n = n' then .inf n else .canonical
    | .inf n, _ => .inf n
    | _, .inf n => .inf n
    | .fin n m e, .fin n' m' e' =>
      let q := min e e'
      ofScaled (scaled n m e q + scaled n' m' e' q) q (zeroSign mode n n')
    | _, _ => .canonical

/-- −a; a NaN keeps its sign, since a subtraction delivers the NaN of its operand (R95). -/
def negExact : Num → Num
  | .nan n fr => .nan n fr
  | .inf n => .inf (!n)
  | .fin n m e => .fin (!n) m e

/-- a·b + c with no rounding in between: the first NaN of a, b, c. -/
def fmaExact (mode : Rm) (a b c : Num) : Num :=
  match firstNan [a, b, c] with
  | some x => x
  | none => addExact mode (mulExact a b) c

/-! ## The window sum (R99) -/

/-- Floor(Log2(m·2^e)) for m > 0. -/
def topExp (m : Nat) (e : Int) : Int := m.log2 + e

/-- The largest top exponent among the terms that are not zero. -/
def windowTop : List Num → Option Int
  | [] => none
  | .fin _ m e :: r =>
    if m = 0 then windowTop r
    else
      match windowTop r with
      | none => some (topExp m e)
      | some t => some (max t (topExp m e))
  | _ :: r => windowTop r

/-- A term truncated toward zero to a multiple of 2^q, in units of 2^q. -/
def windowTerm (q : Int) : Num → Int
  | .fin n m e => if e ≥ q then scaled n m e q else if n then -(m / 2 ^ (q - e).toNat : Nat) else (m / 2 ^ (q - e).toNat : Nat)
  | _ => 0

/-- WindowSum (R99). -/
def windowSum (ts : List Num) (f : Fmt) (mode : Rm) (sat ftz : Bool) : Nat :=
  match firstNan ts with
  | some x => roundTo x f mode sat ftz
  | none =>
    if ts.contains (.inf false) && ts.contains (.inf true) then roundTo .canonical f mode sat ftz
    else if ts.contains (.inf false) then roundTo (.inf false) f mode sat ftz
    else if ts.contains (.inf true) then roundTo (.inf true) f mode sat ftz
    else
      match windowTop ts with
      | none => packFloat f (ts.all (·.neg) || (mode == .rd && ts.any (·.neg))) 0 0
      | some top =>
        let q := top - 50
        let s := (ts.map (windowTerm q)).foldl (· + ·) 0
        if s = 0 then packFloat f (mode == .rd) 0 0 else roundTo (ofScaled s q false) f mode sat ftz

/-! ## Conversions (R97) -/

/-- The classes of R97. -/
inductive ConvClass where
  | copy | round | intInt | packed
deriving DecidableEq, Repr

/-- The class of a pair of codes; none takes ILLEGAL_FORMAT. -/
def convClass (src dst : Fmt) : Option ConvClass :=
  if !fmtTyped src || !fmtTyped dst then none
  else if (src == .b32 && fmtWidth dst == 32) || (dst == .b32 && fmtWidth src == 32) then some .copy
  else if (src == .b64 && fmtWidth dst == 64) || (dst == .b64 && fmtWidth src == 64) then some .copy
  else if fmtInt src && fmtInt dst then some .intInt
  else if (fmtFloat src || fmtInt src) && fmtFloat dst then some .round
  else if fmtFloat src && fmtInt dst then some .round
  else
    match src, dst with
    | .h2, .h2 | .h2, .bf2 | .bf2, .h2 | .bf2, .bf2 => some .packed
    | .q4e4, .q4e4 | .q4e4, .q4e5 | .q4e5, .q4e4 | .q4e5, .q4e5 => some .packed
    | _, _ => none

/-- The integer an operand holds in a format: two's complement for the signed codes. -/
def intVal (f : Fmt) (bits : Nat) : Int :=
  if fmtSigned f then signedOf bits (fmtWidth f) else (bits % 2 ^ fmtWidth f : Nat)

/-- An integer as an exact value. -/
def numOfInt (x : Int) : Num := .fin (x < 0) x.natAbs 0

/-- The value of an element of a float or integer format. -/
def anyVal (f : Fmt) (ftz : Bool) (bits : Nat) : Num :=
  if fmtInt f then numOfInt (intVal f bits) else val f ftz bits

/-- Element i of an operand, elements `w` bits apart. -/
def elemAt (w i bits : Nat) : Nat := bits / 2 ^ (w * i) % 2 ^ w

/-- An operand put together from its elements, element 0 lowest. -/
def joinElems (w : Nat) : List Nat → Nat
  | [] => 0
  | x :: r => x % 2 ^ w + 2 ^ w * joinElems w r

/-- A function on every element of a packed operand. -/
def mapElems (w n : Nat) (g : Nat → Nat) : Nat := joinElems w ((List.range n).map g)

/-- The register form of a single narrow value (R91): I8 and I16 are sign-extended, every other form zero-extended. -/
def regForm (f : Fmt) (bits : Nat) : Nat :=
  if fmtWidth f < 32 && fmtSigned f then wrapTo (signedOf bits (fmtWidth f)) 32 else bits % 2 ^ fmtWidth f

/-- A conversion between codes (R97, R183): the bits in the destination's format, before its register form. -/
def convert (src dst : Fmt) (mode : Rm) (sat ftz : Bool) (bits : Nat) : Nat :=
  match convClass src dst with
  | some .copy => bits % 2 ^ fmtWidth dst
  | some .round => roundTo (anyVal src ftz (bits % 2 ^ fmtWidth src)) dst mode sat ftz
  | some .intInt =>
    let x := intVal src bits
    wrapTo (if sat then clampInt dst x else x) (fmtWidth dst)
  | some .packed =>
    let (fs, n, w) := fmtElems src
    let (fd, _, _) := fmtElems dst
    mapElems w n fun i => roundTo (val fs ftz (elemAt w i bits)) fd mode sat ftz
  | none => 0

/-- Exact widening of a float element to F32 (R95): a NaN becomes Quiet of it. -/
def widenF32 (f : Fmt) (bits : Nat) : Nat := roundTo (decodeNum f bits) .f32 .rne false false

/-- The register form of a memory format (R205). -/
def memReg : Fmt → Fmt
  | .f16 | .bf16 | .e4m3 | .e5m2 | .e2m1 => .f32
  | .i8 | .i16 => .i32
  | .u8 | .u16 => .u32
  | .b32 => .b32
  | .f32 => .f32
  | .i32 => .i32
  | .u32 => .u32
  | .h2 => .h2
  | .bf2 => .bf2
  | .q4e4 => .q4e4
  | .q4e5 => .q4e5
  | .b64 => .b64
  | .i64 => .i64
  | .u64 => .u64
  | .i4g => .i4g
  | .i3g => .i3g
  | .e2m1g => .e2m1g
  | .s24 => .s24
  | .unused k => .unused k

/-- Widen (R205). -/
def widen (f : Fmt) (bits : Nat) : Nat :=
  if fmtFloat f then (if f == .f32 then bits else widenF32 f (bits % 2 ^ fmtWidth f)) else regForm f bits

/-- Narrow (R205): the register value as an element of a memory format. -/
def narrow (f : Fmt) (mode : Rm) (sat ftz : Bool) (bits : Nat) : Nat :=
  if fmtFloat f && f != .f32 then roundTo (val .f32 ftz bits) f mode sat ftz
  else if fmtInt f && fmtWidth f < 32 then
    wrapTo (if sat then clampInt f (intVal (memReg f) bits) else intVal (memReg f) bits) (fmtWidth f)
  else bits % 2 ^ fmtWidth f

/-- Key (R186): an F32 value as an unsigned word in FMAXX's order. -/
def fkeyBits (v : Nat) : Nat :=
  if (decodeNum .f32 v).isNan then 0xFFFFFFFF
  else if v / 2 ^ 31 % 2 = 0 then v % 2 ^ 32 + 2 ^ 31
  else 2 ^ 32 - 1 - v % 2 ^ 32

end Sys2Proof.Machine
end

