-- ==== Sys2Proof/Machine/Flags.lean ====
section
/-!
DEFINITION. The conditions that write predicates, and the selections that rest on an order (11 R163, R167, R168, R173 to R175, R181).
The part keeps no arithmetic flags (R161).
-/
namespace Sys2Proof.Machine

/-- An integer condition on two exact values (R167). -/
def intCond (k : ICond) (a b : Int) : Bool :=
  match k with
  | .eq => a == b
  | .ne => a != b
  | .lt => a < b
  | .le => a ≤ b
  | .gt => a > b
  | .ge => a ≥ b

/-- A floating condition (R174): with a NaN only .ne and .nan are true; +0 and −0 compare equal. -/
def floatCond (k : FCond) (a b : Num) : Bool :=
  if a.isNan || b.isNan then k == .ne || k == .nan
  else
    match k with
    | .eq => !numLt a b && !numLt b a
    | .ne => numLt a b || numLt b a
    | .lt => numLt a b
    | .le => !numLt b a
    | .gt => numLt b a
    | .ge => !numLt a b
    | .num => true
    | .nan => false

/-- A truth table on three predicates (R168). -/
def lutBit (lut : BitVec 8) (x y z : Bool) : Bool := lut.getLsbD (4 * x.toNat + 2 * y.toNat + z.toNat)

/-- The bits of a value as read, a subnormal flushed to its signed zero under FTZ (R98, R173). -/
def flushed (f : Fmt) (ftz : Bool) (bits : Nat) : Nat :=
  if ftz && subnormalBits f bits then packFloat f (decodeNum f bits).neg 0 0 else bits

/-- −0 is ordered below +0 (R173). -/
def minLt (a b : Num) : Bool := numLt a b || (a.isZero && b.isZero && a.neg && !b.neg)

/-- FMIN and FMAX on the bits of two elements (R173): Quiet of the first NaN; else the lesser or greater, the bits of a when they
are equal. -/
def floatMinMax (f : Fmt) (ftz isMax : Bool) (a b : Nat) : Nat :=
  let a' := flushed f ftz a
  let b' := flushed f ftz b
  let x := decodeNum f a'
  let y := decodeNum f b'
  match firstNan [x, y] with
  | some q => roundTo q f .rne false false
  | none => if (if isMax then minLt x y else minLt y x) then b' else a'

/-- FMAXX and FMINX on value–index pairs (R175): the winning pair, its bits unchanged. -/
def pairMinMax (isMax : Bool) (a b : Nat) : Nat :=
  let va := a % 2 ^ 32
  let vb := b % 2 ^ 32
  let key := fun v => if !isMax && (decodeNum .f32 v).isNan then 0 else fkeyBits v
  let aWins :=
    if key va = key vb then a / 2 ^ 32 ≤ b / 2 ^ 32
    else if isMax then key va > key vb else key va < key vb
  if aWins then a else b

end Sys2Proof.Machine
end

