-- ==== Sys2Proof/Machine/Operands.lean ====
section
/-!
DEFINITION. Operands of the KIS-3 instructions: which kinds each field admits (09 R137, 11 R158, the tables of chapters 11 to 13),
what a field reads (R138, R144, R160), the special registers (06 R86, R87), what a mapped source delivers (07 R106, R110 to R112),
which registers an instruction reads and writes (09 R145), and writing a destination.
-/
namespace Sys2Proof.Machine



/-! ## What an instruction sees when it issues -/

/-- The context of an issued instruction: the state, the split it belongs to and the records above it, the group's registers as
the split reads them (R145), the executing lanes (R140), whether it acts again after parking (R217); and what stands as it was at
issue: the records it captured,
the generation and %ngx (R86, R236), the capture of device time (R87), and the matrices its maps name, by slot (R108). -/
structure Ctx where
  s : State
  r : SplitRef
  i : Instr
  o : Ops
  v : Vf
  grid : Grid
  team : Team
  group : Group
  split : Split
  x : Mask
  acting : Bool
  cap : List (Nat × Nat)
  gen : Nat
  ngx : Nat
  capt : Option Nat
  cams : List (Nat × Binding × List Byte)
deriving DecidableEq, Repr

/-- A lane executes (R140). -/
def Ctx.runs (c : Ctx) (l : Nat) : Bool := laneIn c.x l

end Sys2Proof.Machine
namespace Sys2Proof
open Machine

/-- A guard holds in a lane (R140). -/
def Guard.holds (g : Group) (d : Guard) (l : Nat) : Bool :=
  (if d.qs then g.qreg d.idx.toNat else laneIn (g.preg d.idx.toNat) l) != d.neg

end Sys2Proof
namespace Sys2Proof.Machine

/-- The lanes of a mask in which both guards hold. -/
def executing (g : Group) (mask : Mask) (o : Ops) : Mask :=
  maskOf fun l => laneIn mask l && o.g1.holds g l && o.g2.holds g l

/-! ## Which kinds a field admits -/

/-- One operand field of an instruction: the kinds it takes, how many registers it names from which alignment, and for a mappable
source the format the consumer reads it in (R111). `opt`: a field of 0x000 means that nothing is given. -/
structure Field where
  v : Bool := false
  s : Bool := false
  sp : Bool := false
  imm : Bool := false
  wide : Bool := false
  imm0 : Bool := false
  opt : Bool := false
  cls : List Nat := []
  n : Nat := 1
  al : Nat := 1
  fmt : Option Fmt := none
  routing : Bool := false
deriving DecidableEq, Repr

/-- The fields of an instruction; an unused field is none. `once`: it acts once for the group with uniform operands (R215). -/
structure Sig where
  d : Option Field := none
  a : Option Field := none
  b : Option Field := none
  c : Option Field := none
  e : Option Field := none
  once : Bool := false
deriving DecidableEq, Repr

/-- Registers of an operand of a width (R85). -/
def regsFor (w : Nat) : Nat := if w = 64 then 2 else 1

/-- A v or s destination of a width. -/
def Field.dst (w : Nat) : Field := { v := true, s := true, n := regsFor w, al := regsFor w }

/-- A v destination of a width. -/
def Field.dstV (w : Nat) : Field := { v := true, n := regsFor w, al := regsFor w }

/-- An s destination of a width. -/
def Field.dstS (w : Nat) : Field := { s := true, n := regsFor w, al := regsFor w }

/-- A value source read in a format: v, s, special, immediate, mappable (R158, R159). -/
def Field.val (f : Fmt) : Field :=
  { v := true, s := true, sp := true, imm := true, wide := true, n := regsFor (fmtWidth f), al := regsFor (fmtWidth f), fmt := some f }

/-- A source that is never mapped: v, s, special, immediate. -/
def Field.plain : Field := { v := true, s := true, sp := true, imm := true }

/-- Registers of classes. -/
def Field.of (cls : List Nat) : Field := { cls := cls }

/-- s or an 8-bit immediate. -/
def Field.si : Field := { s := true, imm := true }

/-- A uniform source of majors 0xB to 0xE: s, special, immediate (R215). -/
def Field.uni : Field := { s := true, sp := true, imm := true }

/-- The same, or the wide marker. -/
def Field.uniW : Field := { s := true, sp := true, imm := true, wide := true }

/-- The scratchpad base of an addressing form (R204): s, v, or immediate 0. -/
def Field.scratch : Field := { v := true, s := true, imm := true, imm0 := true }

/-- A block of `n` vector registers from a multiple of `al`. -/
def Field.blockV (n al : Nat) : Field := { v := true, n := n, al := al }

/-- A block of `n` scalar registers from a multiple of `al`. -/
def Field.blockS (n al : Nat) : Field := { s := true, n := n, al := al }

end Sys2Proof.Machine
namespace Sys2Proof
open Machine

/-- The fields of each instruction (R163 to R188, R192, R201, R206, R210, R213, R219, R221, R224, R225, R230, R241). -/
def Instr.sig : Instr → Sig
  | .if_ .. | .break_ .. | .cont .. | .ret .. => { a := some (.of [0, 1]) }
  | .jmp .. | .call .. => { a := some (.of [0, 1]), b := some { s := true, wide := true } }
  | .yield _ lat _ => if lat then { a := some .si, b := some .si } else {}
  | .bar .. | .barc .. => { a := some .si, b := some .si }
  | .mov _ ty => { d := some (.dst (tyWidth ty)), a := some (.val (tyFmt ty)) }
  | .movi _ ty => { d := some (.dst (tyWidth ty)), a := some { wide := true } }
  | .iadd _ ty _ | .isub _ ty _ | .imul _ ty | .imulhi _ ty | .imin _ ty | .imax _ ty =>
    { d := some (.dst (tyWidth ty)), a := some (.val (tyFmt ty)), b := some (.val (tyFmt ty)) }
  | .imad _ ty =>
    { d := some (.dst (tyWidth ty)), a := some (.val (tyFmt ty)), b := some (.val (tyFmt ty)), c := some (.val (tyFmt ty)) }
  | .iabs _ ty _ | .ineg _ ty _ => { d := some (.dst (tyWidth ty)), a := some (.val (tyFmt ty)) }
  | .lea64 .. => { d := some (.dst 64), a := some (.val .u64), b := some (.val .b32) }
  | .iset _ _ ty => { d := some (.of [0, 1]), a := some (.val (tyFmt ty)), b := some (.val (tyFmt ty)) }
  | .sel _ ty =>
    { d := some (.dst (tyWidth ty)), a := some (.val (tyFmt ty)), b := some (.val (tyFmt ty)), c := some (.of [0, 1]) }
  | .plop .. => { d := some (.of [0, 1]), a := some (.of [0, 1]), b := some (.of [0, 1]), c := some (.of [0, 1]) }
  | .and _ w | .or _ w | .xor _ w =>
    let f : Fmt := if w then .b64 else .b32
    { d := some (.dst (fmtWidth f)), a := some (.val f), b := some (.val f) }
  | .not _ w | .brev _ w =>
    let f : Fmt := if w then .b64 else .b32
    { d := some (.dst (fmtWidth f)), a := some (.val f) }
  | .shl _ w | .shr _ w | .sar _ w =>
    let f : Fmt := if w then .b64 else .b32
    { d := some (.dst (fmtWidth f)), a := some (.val f), b := some (.val .u32) }
  | .bfx _ w _ =>
    let f : Fmt := if w then .b64 else .b32
    { d := some (.dst (fmtWidth f)), a := some (.val f), b := some (.val .u32), c := some (.val .u32) }
  | .bfi _ w =>
    let f : Fmt := if w then .b64 else .b32
    { d := some (.dst (fmtWidth f)), a := some (.val f), b := some (.val f), c := some (.val .u32), e := some .plain }
  | .popc _ w | .clz _ w => { d := some (.dst 32), a := some (.val (if w then .b64 else .b32)) }
  | .fadd _ | .fsub _ | .fmul _ | .fmin _ | .fmax _ => { d := some (.dst 32), a := some (.val .f32), b := some (.val .f32) }
  | .ffma _ => { d := some (.dst 32), a := some (.val .f32), b := some (.val .f32), c := some (.val .f32) }
  | .fmaxx _ | .fminx _ =>
    { d := some (.dst 64), a := some { Field.val .b64 with routing := true }, b := some { Field.val .b64 with routing := true } }
  | .fabs _ | .fneg _ | .frnd _ | .frcp _ | .frsq _ | .fsqrt _ | .fex2 _ | .flg2 _ | .fsin _ | .fcos _ | .ftanh _ | .qscale .. =>
    { d := some (.dst 32), a := some (.val .f32) }
  | .fset .. => { d := some (.of [0, 1]), a := some (.val .f32), b := some (.val .f32) }
  | .hrnd _ => { d := some (.dst 32), a := some (.val .u64), b := some (.val .u64) }
  | .padd _ pf _ | .psub _ pf _ | .pmul _ pf _ | .pmin _ pf | .pmax _ pf =>
    { d := some (.dst 32), a := some (.val (packCode pf)), b := some (.val (packCode pf)) }
  | .pfma _ pf _ =>
    { d := some (.dst 32), a := some (.val (packCode pf)), b := some (.val (packCode pf)), c := some (.val (packCode pf)) }
  | .pset _ pf _ _ =>
    { d := some { v := true, s := true, cls := [0, 1] }, a := some (.val (packCode pf)), b := some (.val (packCode pf)) }
  | .pdot _ pf _ => { d := some (.dst 32), a := some (.val (packCode pf)), b := some (.val (packCode pf)), c := some (.val .f32) }
  | .cvt _ dst src _ =>
    { d := some (.dst (fmtWidth dst)),
      a := some { v := true, s := true, n := regsFor (fmtWidth src), al := regsFor (fmtWidth src), fmt := some src } }
  | .pack2 .. => { d := some (.dst 32), a := some (.val .f32), b := some (.val .f32) }
  | .pack4 .. =>
    { d := some (.dst 32), a := some (.val .f32), b := some (.val .f32), c := some (.val .f32), e := some .plain }
  | .unpk _ pf =>
    { d := some { v := true, s := true, n := (packElem pf).2, al := (packElem pf).2 }, a := some (.val (packCode pf)) }
  | .fkey _ half => { d := some (.dst 32), a := some (.val (if half then .f16 else .f32)) }
  | .sprune _ bf =>
    let f : Field := { v := true, s := true, sp := true, fmt := some (if bf then .bf2 else .h2) }
    { d := some (.dst 64), a := some f, b := some f }
  | .cambind .. => { d := some (.of [3]), a := some { s := true } }
  | .camwait _ => { a := some (.of [3]) }
  | .camfree .. => { d := some (.of [3]) }
  | .caminfo _ => { d := some (.dst 32), a := some (.of [3]) }
  | .shfl _ _ b64 =>
    { d := some (.dstV (if b64 then 64 else 32)), a := some (.dstV (if b64 then 64 else 32)),
      b := some { v := true, s := true, imm := true } }
  | .lanebc _ b64 =>
    { d := some (.dst (if b64 then 64 else 32)), a := some (.dstV (if b64 then 64 else 32)), b := some .si }
  | .vote _ mode =>
    { d := some (if mode == .ballot then .dst 32 else .of [0, 1]), a := some (.of [0]) }
  | .match_ _ b64 => { d := some (.dstV 32), a := some (.dstV (if b64 then 64 else 32)) }
  | .elect _ => { d := some { s := true, cls := [0] } }
  | .base _ => { d := some (.of [2]), a := some { s := true, imm := true, imm0 := true, n := 2, al := 2 } }
  | .ld _ m => { d := some (.dstV (fmtWidth m.fmt)), a := some (.of [2]), b := some .plain }
  | .st _ m => { a := some (.of [2]), b := some .plain, c := some { Field.val (memReg m.fmt) with wide := false } }
  | .ldu _ m => { d := some (.dstS (fmtWidth m.fmt)), a := some (.of [2]), b := some .si }
  | .stu _ m =>
    { a := some (.of [2]), b := some .si, c := some { Field.si with n := regsFor (fmtWidth m.fmt), al := regsFor (fmtWidth m.fmt) } }
  | .lds _ m => { d := some (.dstV (fmtWidth m.fmt)), a := some .scratch, b := some .plain }
  | .sts _ m => { a := some .scratch, b := some .plain, c := some { Field.val (memReg m.fmt) with wide := false } }
  | .pref .. => { a := some (.of [2]), b := some .plain }
  | .icpref _ => { a := some { s := true, imm := true, wide := true }, b := some .si }
  | .gld _ m => { d := some (.dstV (fmtWidth m.fmt)), a := some (.dstV 64) }
  | .gst _ m => { a := some (.dstV 64), c := some { Field.val (memReg m.fmt) with wide := false } }
  | .glds .. | .gsts .. => { a := some .scratch, b := some .plain, c := some (.dstV 64) }
  | .atom _ m =>
    let w := atomWidth m.ty
    { d := some (.dstV w), a := some (.of [2]), b := some .plain, c := some { Field.val (atomFmt m.ty) with wide := false },
      e := if m.op == .cas then some { v := true, s := true, imm := true, n := regsFor w, al := regsFor w } else none }
  | .atoms _ m =>
    let w := atomWidth m.ty
    { d := some (.dstV w), a := some .scratch, b := some .plain, c := some { Field.val (atomFmt m.ty) with wide := false },
      e := if m.op == .cas then some { v := true, s := true, imm := true, n := regsFor w, al := regsFor w } else none }
  | .atomu _ m =>
    let w := atomWidth m.ty
    { d := some (.dstS w), a := some (.of [2]), b := some .si, c := some { Field.si with n := regsFor w, al := regsFor w },
      e := if m.op == .cas then some { Field.si with n := regsFor w, al := regsFor w } else none }
  | .red _ m => { a := some (.of [2]), b := some .plain, c := some { Field.val (atomFmt m.ty) with wide := false } }
  | .tdld _ | .tdinv _ => { a := some .uniW, once := true }
  | .cpy .. | .cpyw .. =>
    { a := some { v := true, s := true }, b := some { v := true, s := true, imm := true }, c := some { v := true }, e := some .si }
  | .cpyb _ _ ds ss =>
    { a := some (.dst (if ds then 32 else 64)), b := some (.dst (if ss then 32 else 64)),
      c := some { v := true, s := true, imm := true }, e := some .si }
  | .ltinit _ => { a := some .uniW, b := some .uni, c := some .uni, once := true }
  | .ltexpect _ => { a := some .uniW, b := some .uniW, once := true }
  | .ltarrive _ c => { a := some .uniW, b := some (if c then { opt := true } else { Field.uniW with opt := true }), once := true }
  | .ltwait _ => { a := some .uni, b := some .uni, once := true }
  | .lttest _ => { d := some { v := true, s := true, n := 4, al := 4 }, a := some .uni, once := true }
  | .ltcont .. => { a := some .uni, b := some .uni, c := some { s := true, opt := true }, once := true }
  | .ltreset _ => { a := some .uni, once := true }
  | .tstsp _ => { a := some .uni, b := some .uni, c := some .uni, e := some (.blockV 32 2), once := true }
  | .tldsp _ => { d := some (.blockV 32 2), a := some .uni, b := some .uni, c := some .uni, once := true }
  | .jdesc _ => { a := some .uni, b := some (.blockS 8 8), once := true }
  | .join _ _ seg _ =>
    { d := some (.dstS 32), a := some .uni, b := some .uni, c := some (.blockS (if seg then 3 else 2) 4), e := some (.dstS 64),
      once := true }
  | .jresume _ => { d := some (.dstS 32), a := some (.dstS 64), once := true }
  | .jstat .. => { d := some (.dstS 32), a := some .uni, once := true }
  | .jcancel _ => { a := some .uni, once := true }
  | .enq .. => { a := some (.of [2]), b := some .si, c := some (.blockV 8 8) }
  | .qsub .. | .qunsub .. => { a := some (.of [2]), b := some .uni, once := true }
  | .qpop _ nb => { d := some (.dstV 32), a := some (.of [4]), b := some (if nb then .of [0] else { opt := true }) }
  | .qpush _ nb => { d := some (.of [4]), a := some (.dstV 32), b := some (if nb then .of [0] else { opt := true }) }
  | .spawn _ nb _ => { d := some (if nb then .of [1] else { opt := true }), c := some { s := true, opt := true }, once := true }
  | .ggrow _ => { d := some (.dstS 32), a := some .uniW, once := true }
  | .launch .. => { a := some .uniW, once := true }
  | .smsg .. => { a := some (.of [2]), b := some { v := true, s := true, imm := true }, c := some (.blockV 8 8) }
  | .trap _ => { a := some .uniW, once := true }
  | .rdsr .. => { d := some (.dst 32), once := true }
  | .wrsr .. => { a := some .uni, once := true }
  | .featq _ => { d := some (.dst 32), a := some .uni, once := true }
  | .icinv _ => { a := some .uniW, b := some .uni, once := true }
  | .brk _ => { a := some .uni, once := true }
  | .time _ => { d := some (.dst 64), once := true }
  | _ => {}
where
  /-- Width of an atomic's type (R213). -/
  atomWidth : AtomTy → Nat
    | .i64 | .u64 => 64
    | .i32 | .u32 | .f32 | .h2 | .bf2 => 32
  /-- The format an atomic's sources are read in (R213, R214). -/
  atomFmt : AtomTy → Fmt
    | .i32 => .i32
    | .u32 => .u32
    | .i64 => .i64
    | .u64 => .u64
    | .f32 => .f32
    | .h2 => .h2
    | .bf2 => .bf2

end Sys2Proof
namespace Sys2Proof.Machine

/-! ## The operand checks (R137, R144, R148 step 4) -/

/-- A field's operand is legal for its slot. `marked`: the word carries I32 and this is one of A, B, C. -/
def Field.ok (sl : Field) (vregs : Nat) (uniform dest marked : Bool) (f : Operand) : Bool :=
  match f with
  | .vec n =>
    if sl.v then !uniform && n.toNat % sl.al == 0 && n.toNat + sl.n ≤ vregs else sl.opt && n == 0
  | .sca n =>
    if n.toNat < 160 then sl.s && n.toNat % sl.al == 0 && n.toNat + sl.n ≤ 160
    else n.toNat < 176 && sl.sp && !dest && n.toNat % sl.al == 0 && n.toNat + sl.n ≤ 176 && !(uniform && n.toNat == 160)
  | .cls k i =>
    sl.cls.contains k.toNat && (k.toNat == 3 || i.toNat < 8) && !(dest && k.toNat == 1 && i.toNat == 7) &&
      !(uniform && k.toNat == 0)
  | .imm v => if marked then v == 0 && sl.wide else sl.imm && !dest && (!sl.imm0 || v == 0)

/-- A field that an instruction uses is legal. -/
def fieldOk (sl : Option Field) (vregs : Nat) (uniform dest marked : Bool) (f : Operand) : Bool :=
  match sl with
  | none => true
  | some x => x.ok vregs uniform dest marked f

end Sys2Proof.Machine
namespace Sys2Proof
open Machine

/-- The wide marker in a field (R144). -/
def Operand.isMarker : Operand → Bool
  | .imm v => v == 0
  | _ => false

/-- The form is uniform (R158, R215): a *once* instruction of majors 0xB to 0xE, or an s or q destination of majors 0x1 to 0x6,
but for QSCALE (R188). -/
def Instr.uniform (i : Instr) (o : Ops) : Bool :=
  match i.code with
  | none => false
  | some (op, _) =>
    if 0xB00 ≤ op then i.sig.once
    else if 0x100 ≤ op && op < 0x700 && op != 0x606 then
      (match o.d with | .sca _ => true | .cls k _ => k == 1 | _ => false)
    else false

end Sys2Proof
namespace Sys2Proof.Machine

/-- An s destination of a form that is *once* may be followed by a v destination in every executing lane (R202, R221, R241); the
destination field itself is no source, so R215's rule on uniform operands leaves it out. Of R144's "two fields hold it" the fields A, B and C
alone count: the marker's bits in a used E are an immediate of zero (DESIGN CHOICE, log entry 80). -/
def operandsOk (i : Instr) (o : Ops) (vregs : Nat) : Bool :=
  let g := i.sig
  let u := i.uniform o
  let w := o.imm.isSome
  fieldOk g.d vregs false true false o.d && fieldOk g.a vregs u false w o.a && fieldOk g.b vregs u false w o.b &&
    fieldOk g.c vregs u false w o.c &&
    fieldOk g.e vregs (u && !(match i with | .tstsp _ => true | _ => false)) false false o.e &&
    (!w || ([o.a, o.b, o.c].countP Operand.isMarker == 1 &&
            (match o.e with | .imm v => v == 0 && g.e.isSome | _ => true)))

/-! ## Format checks (R143, R148 step 3) -/

/-- The format codes of an instruction are allowed in their places (R92). -/
def formatsOk : Instr → Bool
  | .cvt _ dst src _ => (convClass src dst).isSome
  | .cambind _ _ fmt _ _ => fmtCam fmt
  | .ld _ m | .st _ m | .ldu _ m | .stu _ m | .lds _ m | .sts _ m => fmtTyped m.fmt
  | .gld _ m | .gst _ m | .glds _ m | .gsts _ m => fmtTyped m.fmt && m.fmt != .e2m1
  | _ => true

/-! ## Special registers (R86, R87) -/

/-- The device-time capture an instruction reads: %tlo captures now; %thi does where there is no capture. -/
def Ctx.now (c : Ctx) : Nat := c.s.vfTime c.r.core c.team.vf

/-- The grid's extent along x: in a grid that can grow, the team count at issue (R236). -/
def Grid.ngxNow (g : Grid) : Nat := if g.ngy = 1 && g.ngz = 1 then g.count else g.ngx

/-- A special register in a lane (R86). -/
def Ctx.special (c : Ctx) (captured : Nat) (n l : Nat) : Nat :=
  match n with
  | 160 => l
  | 161 => c.group.grp
  | 162 => c.team.rank
  | 163 => c.team.clu
  | 164 => c.v.cfg.coreIndex c.r.core
  | 165 => c.r.core / 48
  | 166 => if c.grid.ngy = 1 && c.grid.ngz = 1 then c.team.lin else c.team.lin % c.grid.ngx
  | 167 => if c.grid.ngy = 1 && c.grid.ngz = 1 then 0 else c.team.lin / c.grid.ngx % c.grid.ngy
  | 168 => if c.grid.ngy = 1 && c.grid.ngz = 1 then 0 else c.team.lin / c.grid.ngx / c.grid.ngy
  | 169 => c.ngx
  | 170 => c.grid.ngy
  | 171 => c.grid.ngz
  | 172 => c.gen
  | 173 => captured % 2 ^ 32
  | 174 => captured / 2 ^ 32 % 2 ^ 32
  | 175 => c.team.vf
  | _ => 0

/-- A field of `n` registers takes in a special register. -/
def Field.reads (sl : Option Field) (f : Operand) (k : Nat) : Bool :=
  match sl, f with
  | some x, .sca m => m.toNat ≤ k && k < m.toNat + x.n
  | _, _ => false

end Sys2Proof.Machine
namespace Sys2Proof
open Machine

/-- An instruction reads a special register, alone or in a pair (R87, R160). -/
def Instr.readsSpecial (i : Instr) (o : Ops) (k : Nat) : Bool :=
  let g := i.sig
  Field.reads g.a o.a k || Field.reads g.b o.b k || Field.reads g.c o.c k || Field.reads g.e o.e k

end Sys2Proof
namespace Sys2Proof.Machine

/-- The capture the instruction leaves in its split: TIME and a read of %tlo make one (R87). One that reads both %tlo and %thi captures
first, whatever the order of its operands (DESIGN CHOICE: R87 orders no reads within an instruction; log entry 59). -/
def captureAfter (i : Instr) (o : Ops) (old : Option Nat) (now : Nat) : Option Nat :=
  if i.readsSpecial o 173 || (match i with | .time _ => true | _ => false) then some now
  else if i.readsSpecial o 174 && old.isNone then some now
  else old

/-! ## Reading a field without its map (R160) -/

/-- Bits of a number sign-extended from 8 or 32 bits. -/
def signExt (v w n : Nat) : Nat := wrapTo (signedOf v w) n

/-- Bits of a source field in a lane, 32 or 64 wide (`wide`). -/
def Ctx.field (c : Ctx) (f : Operand) (wide marked : Bool) (l : Nat) : Nat :=
  let w := if wide then 64 else 32
  match f with
  | .vec n => (c.group.vlane n.toNat l).toNat + if wide then 2 ^ 32 * (c.group.vlane (n.toNat + 1) l).toNat else 0
  | .sca n =>
    let one := fun k => if k < 160 then (c.group.sreg k).toNat else c.special (c.capt.getD 0) k l
    one n.toNat + if wide then 2 ^ 32 * one (n.toNat + 1) else 0
  | .cls _ _ => 0
  | .imm v =>
    match c.o.imm with
    | some m => if marked && v == 0 then signExt m.toNat 32 w else signExt v.toNat 8 w
    | none => signExt v.toNat 8 w

/-- A predicate field in a lane: a p register's bit, or a q register alike in every lane (R88). -/
def Ctx.pred (c : Ctx) (f : Operand) (l : Nat) : Bool :=
  match f with
  | .cls k i => if k == 0 then laneIn (c.group.preg i.toNat) l else c.group.qreg i.toNat
  | _ => false

/-! ## Cam slots (R100, R101) -/

/-- The binding table entry a slot resolves to for a group: its own, else the team's. -/
def Team.resolve (t : Team) (grp slot : Nat) : Option Nat :=
  let at_ := fun (tm : Bool) => (List.range t.binds.length).find? fun i =>
    let b := t.binds.getD i Binding.unbound
    b.state != .unbound && !b.freeing && b.slot == slot && b.tm == tm && (tm || b.grp == grp)
  match at_ false with
  | some i => some i
  | none => at_ true

/-- The entry of one scope (R101). -/
def Team.entryOf (t : Team) (grp slot : Nat) (tm : Bool) : Option Nat :=
  (List.range t.binds.length).find? fun i =>
    let b := t.binds.getD i Binding.unbound
    b.state != .unbound && !b.freeing && b.slot == slot && b.tm == tm && (tm || b.grp == grp)

end Sys2Proof.Machine
namespace Sys2Proof
open Machine

/-- The slot number of a c operand. -/
def Operand.camSlot : Operand → Nat
  | .cls _ i => i.toNat
  | _ => 0

/-- The register number of an operand. -/
def Operand.num : Operand → Nat
  | .vec n => n.toNat
  | .sca n => n.toNat
  | .cls _ i => i.toNat
  | .imm _ => 0

end Sys2Proof
namespace Sys2Proof.Machine

/-! ## Map checks (R110, R148 step 5) -/

/-- What stops an instruction at issue: a fault, MEMORY_ERROR for the byte of an image that was lost, or a bind that is in flight (R108). -/
inductive Stop where
  | fault (k : FaultKind)
  | lost (va : Nat)
  | interlock (entry : Nat)
deriving DecidableEq, Repr

/-- The consumer format fits an S24 binding (R111). -/
def s24Fits (sin : PackFmt) (f : Fmt) : Bool :=
  match sin with
  | .h2 | .bf2 => f == .f32 || f == .f16 || f == .bf16
  | .q4e4 | .q4e5 => f == .h2 || f == .bf2

/-- An integer or bit format (R110, R111). -/
def fmtBits (f : Fmt) : Bool := fmtInt f || f == .b32 || f == .b64

/-- The map of one source (R110), its rows in table order. -/
def Ctx.mapStop (c : Ctx) (sl : Option Field) (f : Operand) (m : MapSel) : Option Stop :=
  if m == .none then none
  else
    match sl.bind (·.fmt), f with
    | some fmt, .vec _ =>
      match m with
      | .illegal _ => some (.fault .illegalOperand)
      | .user slot =>
        if fmtBits fmt || (sl.map (·.routing)).getD false then some (.fault .illegalOperand)
        else
          match c.team.resolve c.r.grp slot.val with
          | none => some (.fault (.unboundCam slot.val))
          | some e =>
            let b := c.team.binds.getD e Binding.unbound
            if b.state == .binding then some (.interlock e)
            else if b.fmt == .s24 && !s24Fits b.sin fmt then some (.fault .illegalOperand)
            else if b.state == .failed then some (if b.reason = 6 then .lost b.failVa else .fault (.camBind b.reason))
            else none
      | .sum _ => if (sl.map (·.routing)).getD false then some (.fault .illegalOperand) else none
      | _ => none
    | _, _ => some (.fault .illegalOperand)

/-- The maps of A, B and C, in that order. -/
def Ctx.mapsStop (c : Ctx) : Option Stop :=
  let g := c.i.sig
  ((c.mapStop g.a c.o.a c.o.ma).orElse fun _ => c.mapStop g.b c.o.b c.o.mb).orElse fun _ => c.mapStop g.c c.o.c c.o.mc

/-! ## Backing images and expanded matrices (R103, R106) -/

/-- Bytes of the fixed part of an image (R101, R103). -/
def imageBytes : Fmt → Nat
  | .f16 | .bf16 => 2048
  | .e4m3 | .e5m2 => 1024
  | .i4g => 576
  | .i3g => 448
  | .e2m1g => 548
  | .s24 => 2304
  | _ => 0

def byteAt (img : List Byte) (i : Nat) : Nat := (img.getD i 0).toNat

def halfAt (img : List Byte) (i : Nat) : Nat := byteAt img i + 256 * byteAt img (i + 1)

def nibbleAt (img : List Byte) (n : Nat) : Nat := byteAt img (n / 2) / (if n % 2 = 0 then 1 else 16) % 16

/-- The outlier entries of an E2M1G image: position and value (R104). -/
def outliers (img : List Byte) : List (Nat × Nat) :=
  (List.range (byteAt img 544 % 64)).map fun i => (halfAt img (548 + 4 * i) % 1024, halfAt img (550 + 4 * i))

/-- 2^(e − 127), or NaN for 0xFF (R94: E8M0). -/
def e8m0 (e : Nat) : Num := if e = 255 then .canonical else .fin false 1 ((e : Int) - 127)

/-- W[k][j] of a dense binding (R106). -/
def weight (fmt : Fmt) (img : List Byte) (k j : Nat) : Num :=
  let n := 32 * k + j
  match fmt with
  | .f16 | .bf16 => decodeNum fmt (halfAt img (2 * n))
  | .e4m3 | .e5m2 => decodeNum fmt (byteAt img n)
  | .i4g => mulExact (numOfInt (signedOf (nibbleAt img n) 4)) (decodeNum .bf16 (halfAt img (512 + 2 * j)))
  | .i3g =>
    let q := (byteAt img (3 * n / 8) + 256 * byteAt img (3 * n / 8 + 1)) / 2 ^ (3 * n % 8) % 8
    mulExact (numOfInt (signedOf q 3)) (decodeNum .bf16 (halfAt img (384 + 2 * j)))
  | .e2m1g =>
    if nibbleAt img n = 8 then
      match (outliers img).find? fun p => p.1 == n with
      | some p => decodeNum .bf16 p.2
      | none => .fin false 0 0
    else mulExact (decodeNum .e2m1 (nibbleAt img n)) (e8m0 (byteAt img (512 + j)))
  | _ => .fin false 0 0

/-- W[k][j] of an S24 binding, 64 rows (R106): two of each four are kept. -/
def weight24 (wel : Bool) (img : List Byte) (k j : Nat) : Num :=
  let pick := fun q =>
    let n := 32 * q + j
    if byteAt img (2048 + n / 4) / 4 ^ (n % 4) % 4 = k % 4 then some (decodeNum (if wel then .bf16 else .f16) (halfAt img (2 * n)))
    else none
  match pick (2 * (k / 4)) with
  | some x => x
  | none => (pick (2 * (k / 4) + 1)).getD (.fin false 0 0)

/-! ## Mapped sources (R111, R112) -/

/-- The source lane of a routing cam (R112). -/
def routeLane (m : MapSel) (j : Nat) : Option Nat :=
  match m with
  | .rev => some (31 - j)
  | .xor k => some (j.xor (2 ^ k.val))
  | .rot k => some ((j + k.val + 1) % 32)
  | .bcast0 => some 0
  | _ => none

/-- Element i of a value in a format, as a number. -/
def elemNum (f : Fmt) (i bits : Nat) : Num :=
  let (ef, _, w) := fmtElems f
  decodeNum ef (elemAt w i bits)

/-- A summing cam over the aligned segment of `w` lanes that holds j. -/
def sumCam (f : Fmt) (w : Nat) (inp : Nat → Nat) (j : Nat) : Nat :=
  let ls := (List.range w).map fun k => inp (w * (j / w) + k)
  if fmtBits f then ls.foldl (· + ·) 0 % 2 ^ fmtWidth f
  else
    let (ef, n, ew) := fmtElems f
    mapElems ew n fun i => windowSum (ls.map fun v => mulExact (elemNum f i v) (.fin false 1 0)) ef .rne false false

/-- A dense user cam (R111). -/
def denseCam (f cf : Fmt) (img : List Byte) (inp : Nat → Nat) (j : Nat) : Nat :=
  let (ef, n, ew) := fmtElems f
  mapElems ew n fun i => windowSum (lanes.map fun k => mulExact (elemNum f i (inp k)) (weight cf img k j)) ef .rne false false

/-- An S24 user cam (R111): the inputs are read in the binding's own format. -/
def sparseCam (f : Fmt) (b : Binding) (img : List Byte) (inp : Nat → Nat) (j : Nat) : Nat :=
  let (ef, n, ew) := fmtElems f
  mapElems ew n fun o =>
    let z := fun k => elemNum (packCode b.sin) (if k < 32 then 2 * o else 2 * o + 1) (inp (k % 32))
    windowSum ((List.range 64).map fun k => mulExact (z k) (weight24 b.wel img k j)) ef .rne false false

/-- The bytes of a binding's image (R103): of E2M1G as many outlier entries as its count says. -/
def Team.image (t : Team) (b : Binding) : List Byte :=
  let n := (t.scratch.read (b.back + 544)).toNat % 64
  t.scratch.readBytes b.back (if b.fmt == .e2m1g then 548 + 4 * n else imageBytes b.fmt)

/-- The matrices that the maps of an instruction name, by slot. -/
def Team.matrices (t : Team) (grp : Nat) (o : Ops) : List (Nat × Binding × List Byte) :=
  [o.ma, o.mb, o.mc].filterMap fun m =>
    match m with
    | .user slot => (t.resolve grp slot.val).map fun e =>
        let b := t.binds.getD e Binding.unbound
        (slot.val, b, t.image b)
    | _ => none

/-- What a mapped source delivers in a lane (R111): lanes that do not execute supply zero unless .lv is set. A binding whose image
was written while bound delivers free values (R107). -/
def Ctx.mapped (c : Ctx) (which : Nat) (f : Operand) (m : MapSel) (fmt : Fmt) (j : Nat) : Nat :=
  let inp := fun k => if c.runs k || c.o.lv then c.field f (fmtWidth fmt == 64) false k else 0
  match m with
  | .none => c.field f (fmtWidth fmt == 64) true j
  | .sum k => sumCam fmt (32 / 2 ^ k.val) inp j
  | .user slot =>
    match c.cams.find? fun p => p.1 == slot.val with
    | none => 0
    | some (_, b, img) =>
      if b.tainted then c.s.drawBits 2 (which * 32 + j) (fmtWidth fmt)
      else if b.fmt == .s24 then sparseCam fmt b img inp j else denseCam fmt b.fmt img inp j
  | _ =>
    match routeLane m j with
    | some k => inp k
    | none => 0

/-- A source field in a lane as its consumer reads it (R160): the bits of a format. -/
def Ctx.a (c : Ctx) (f : Fmt) (l : Nat) : Nat := c.mapped 0 c.o.a c.o.ma f l % 2 ^ (max (fmtWidth f) 1)

def Ctx.b (c : Ctx) (f : Fmt) (l : Nat) : Nat := c.mapped 1 c.o.b c.o.mb f l % 2 ^ (max (fmtWidth f) 1)

def Ctx.c (c : Ctx) (f : Fmt) (l : Nat) : Nat := c.mapped 2 c.o.c c.o.mc f l % 2 ^ (max (fmtWidth f) 1)

def Ctx.e (c : Ctx) (f : Fmt) (l : Nat) : Nat := c.field c.o.e (fmtWidth f == 64) false l % 2 ^ (max (fmtWidth f) 1)

/-- A uniform source field: 32 bits, or 64. -/
def Ctx.uniA (c : Ctx) : Nat := c.field c.o.a false true 0

def Ctx.uniB (c : Ctx) : Nat := c.field c.o.b false true 0

def Ctx.uniC (c : Ctx) : Nat := c.field c.o.c false true 0

def Ctx.uniA64 (c : Ctx) : Nat := c.field c.o.a true true 0

def Ctx.uniE64 (c : Ctx) : Nat := c.field c.o.e true false 0

/-- The user cams an instruction's sources name: the binding table entries. -/
def Ctx.camsUsed (c : Ctx) : List Nat :=
  [c.o.ma, c.o.mb, c.o.mc].filterMap fun m =>
    match m with
    | .user slot => c.team.resolve c.r.grp slot.val
    | _ => none

/-! ## Which registers an instruction reads and writes (R145) -/

end Sys2Proof.Machine
namespace Sys2Proof
open Machine

/-- The registers of an operand of `n` registers. -/
def Operand.regs (n : Nat) : Operand → List Reg
  | .vec k => (List.range n).map fun i => .v (k.toNat + i)
  | .sca k => if k.toNat < 160 then (List.range n).map fun i => .s (k.toNat + i) else []
  | .cls k i =>
    if k == 0 then [.p i.toNat] else if k == 1 then [.q i.toNat] else if k == 2 then [.b i.toNat] else []
  | .imm _ => []

end Sys2Proof
namespace Sys2Proof.Machine

def fieldRegs (sl : Option Field) (f : Operand) : List Reg :=
  match sl with
  | none => []
  | some x => if x.opt && f == Operand.zero then [] else f.regs x.n

end Sys2Proof.Machine
namespace Sys2Proof
open Machine

/-- The register of a guard. -/
def Guard.reg (g : Guard) : Reg := if g.qs then .q g.idx.toNat else .p g.idx.toNat

/-- The registers an instruction's source fields and guards name. -/
def Instr.fieldReads (i : Instr) (o : Ops) : List Reg :=
  let g := i.sig
  let bs := match i with | .qpop .. | .qpush .. => [] | _ => fieldRegs g.b o.b
  fieldRegs g.a o.a ++ bs ++ fieldRegs g.c o.c ++ fieldRegs g.e o.e ++ [o.g1.reg, o.g2.reg]

/-- The registers an instruction reads: its sources, its guards, and for SPAWN, LTCONT and LAUNCH.args s0 to s7. -/
def Instr.reads (i : Instr) (o : Ops) : List Reg :=
  i.fieldReads o ++ (match i with
    | .spawn .. | .ltcont .. | .launch _ true => (List.range 8).map Reg.s
    | _ => [])

/-- The registers and predicates an instruction writes. -/
def Instr.writes (i : Instr) (o : Ops) : List Reg :=
  let g := i.sig
  let bs := match i with | .qpop .. | .qpush .. => fieldRegs g.b o.b | _ => []
  fieldRegs g.d o.d ++ bs

end Sys2Proof
namespace Sys2Proof.Machine

/-! ## Writing a destination -/

/-- A uniform register about to be written by a split of a group with other live splits: they may go on seeing the old value
(R145). -/
def Group.note (g : Group) (sid : Nat) (r : Reg) : Group :=
  if g.splits.length ≤ 1 then g
  else
    let old := match r with
      | .s n => (g.sreg n).toNat
      | .q n => (g.qreg n).toNat
      | _ => 0
    { g with usync := g.usync ++ [{ reg := r, old := old, writer := sid, knows := [sid], passed := [] }] }

/-- A scalar register written by a split. -/
def Group.putS (g : Group) (sid n v : Nat) : Group := (g.note sid (.s n)).setSreg n (BitVec.ofNat 32 v)

/-- A q register written by a split. -/
def Group.putQ (g : Group) (sid n : Nat) (v : Bool) : Group := (g.note sid (.q n)).setQreg n v

/-- Put (R160): the vector form writes the executing lanes, the uniform form the register itself when at least one lane executes
(R158). `n` registers of 32 bits each. -/
def Group.put (g : Group) (sid : Nat) (x : Mask) (d : Operand) (n : Nat) (f : Nat → Nat) : Group :=
  match d with
  | .vec k => (List.range n).foldl (fun g i => g.setVec (k.toNat + i) x fun l => BitVec.ofNat 32 (f l / 2 ^ (32 * i))) g
  | .sca k => if x = 0 then g else (List.range n).foldl (fun g i => g.putS sid (k.toNat + i) (f 0 / 2 ^ (32 * i))) g
  | .cls k i =>
    if k == 0 then g.setPreg i.toNat x fun l => f l % 2 == 1
    else if k == 1 then (if x = 0 then g else g.putQ sid i.toNat (f 0 % 2 == 1))
    else g
  | .imm _ => g

/-- The destination written in the state. -/
def Ctx.put (c : Ctx) (n : Nat) (f : Nat → Nat) : State :=
  c.s.modGroup c.r fun g => g.put c.r.split c.x c.o.d n f

end Sys2Proof.Machine
end

