-- ==== Sys2Proof/Machine/Issue.lean ====
section
/-!
DEFINITION. Issuing one KIS-3 instruction: the checks of R148 in their order, the guards (R140), the run rules (R145), and what
becomes of the split afterwards. Every meaning of a KIS-3 instruction is `issue` of its own body.
-/
namespace Sys2Proof

/-- An instruction ends its run (R145): S, a control instruction but NOP, RETT, ICINV. -/
def Instr.endsRun (i : Instr) (o : Ops) : Bool :=
  match i.code with
  | none => false
  | some (op, _) => o.stop || (0x000 < op && op < 0x100) || op == 0xE01 || op == 0xE05

/-- The launch flag a family needs (R239). -/
def Instr.launchFlag : Instr → Option Nat
  | .ggrow _ => some 0
  | .spawn .. => some 1
  | .enq .. | .qsub .. | .qunsub .. => some 2
  | .join .. | .jresume _ => some 3
  | .launch .. | .trigger _ => some 4
  | _ => none

/-- The contract's feature bit a family needs (R240). -/
def Instr.featureBit : Instr → Option Nat
  | .jdesc _ | .join .. | .jresume _ | .jstat .. | .jcancel _ => some 0
  | .enq .. | .qsub .. | .qunsub .. => some 1
  | .smsg .. => some 2
  | _ => none

end Sys2Proof
namespace Sys2Proof.Machine

/-- What an instruction does: it faults with no effect (R8; `stop` gives the state where the fault frees a join handle, R126), parks
with no effect (R217; `parkIn` gives the state where a request of its own has been sent, or a page
logged), or acts, giving the new state, further registers it read, and whether the pc goes on to the next word. -/
inductive Act where
  | fault (kind : FaultKind) (addr : Nat) (lane : Option Nat) (acc : Nat)
  | stop (s : State) (kind : FaultKind) (addr : Nat)
  | park (p : Park)
  | parkIn (s : State) (p : Park)
  | done (s : State) (reads : List Reg) (next : Bool)

/-- A fault of the encoding or of a uniform operand. -/
def Act.uniform (k : FaultKind) : Act := .fault k 0 none 0

/-- The instruction has acted and the next word follows. -/
def Act.ok (s : State) : Act := .done s [] true

/-! ## Undefined registers (R145) -/

/-- One register filled with free values in the lanes of a mask. -/
def State.freeReg (s : State) (region : Nat) (m : Mask) (g : Group) (r : Reg) : Group :=
  match r with
  | .v n => g.setVec n m fun l => BitVec.ofNat 32 (s.draw region (n * 32 + l))
  | .s n => g.setSreg n (BitVec.ofNat 32 (s.draw region (8192 + n)))
  | .p n => g.setPreg n m fun l => s.drawBool region (8448 + n * 32 + l)
  | .q n => g.setQreg n (s.drawBool region (8704 + n))
  | .b n => g.setBreg n { vbase := BitVec.ofNat 64 (s.draw region (8720 + n)), page := none, limit := 0 }
  | .c _ | .lq _ => g

/-- The old values a split may still see of a uniform register that other splits have written. -/
def Group.olds (g : Group) (sid : Nat) (r : Reg) : List Nat :=
  (g.usync.filter fun u => u.reg == r && !u.knows.contains sid).map (·.old)

/-- A uniform register as a split reads it: the value, or one of the old values, and which is undefined (R145). -/
def State.seenReg (s : State) (sid : Nat) (g : Group) (r : Reg) : Group :=
  let l := g.olds sid r
  if l.isEmpty then g
  else
    match r with
    | .s n =>
      let all := (g.sreg n).toNat :: l
      g.setSreg n (BitVec.ofNat 32 (all.getD (s.draw 3 n % all.length) 0))
    | .q n =>
      let all := (g.qreg n).toNat :: l
      g.setQreg n (all.getD (s.draw 3 (256 + n) % all.length) 0 == 1)
    | _ => g

/-- The registers of a group as an instruction of a split reads them: one that an earlier instruction of the run writes, or that a
hazard has made undefined, is a free value. -/
def State.seen (s : State) (g : Group) (p : Split) (reads : List Reg) : Group :=
  let g := reads.foldl (s.seenReg p.sid) g
  let bad := reads.filter fun r => p.poison.contains r || p.run.any fun e => e.writes.contains r
  bad.foldl (s.freeReg 4 allLanes) g

/-- The registers that become undefined when an instruction of a run writes what an earlier one reads or writes: every register
that either of the two writes. -/
def hazards (run : List RunRec) (w : List Reg) : List Reg :=
  run.flatMap fun e => if (e.reads ++ e.writes).any w.contains then e.writes ++ w else []

/-! ## The context -/

/-- A parked split may act: its team runs, and its group waits for nothing (R284, R288, R291, R295); one in the middle of a run goes on to
the run's end. -/
def Split.mayAct (t : Team) (g : Group) (p : Split) : Bool :=
  (!(p.held || t.halted || t.stopping || t.quiescing || g.stalled || g.dying) && g.pending.isNone) || !p.betweenRuns

/-- The context of an instruction that the split in focus issues; none where the focus names no live split. -/
def State.ctx? (s : State) (i : Instr) : Option Ctx :=
  match s.focus, i.code with
  | .split r, some (_, o) => do
    let t ← s.team? r.core r.team
    let g ← t.group? r.grp
    let p ← g.split? r.split
    let gr ← s.grid? t.grid
    let v ← s.vf? t.vf
    let g := s.seen g p (i.reads o)
    pure { s := s, r := r, i := i, o := o, v := v, grid := gr, team := t, group := g, split := p,
           x := executing g p.mask o, acting := false, cap := [], gen := (s.core r.core).gen, ngx := gr.ngxNow,
           capt := captureAfter i o p.capture (s.vfTime r.core t.vf), cams := t.matrices r.grp o }
  | _, _ => none

/-- The same context with further registers read (R145): those that an instruction names only by what it finds. -/
def Ctx.alsoReads (c : Ctx) (l : List Reg) : Ctx := { c with group := c.s.seen c.group c.split l }

/-- The word an unwinding split must find (R195). -/
def Ctx.expected (c : Ctx) : Bool :=
  match c.split.frames, c.i with
  | .ifF _ _ next _ _ _ :: _, .else_ .. => next == c.split.pc
  | .ifF _ _ next _ _ _ :: _, .endif _ => next == c.split.pc
  | .loopF _ fin _ _ :: _, .endloop _ => fin == c.split.pc
  | _, _ => false

/-- The instruction's family is enabled (R239, R240); a grid can grow only along x (R236). -/
def Ctx.enabled (c : Ctx) : Bool :=
  (match c.i with | .ggrow _ => c.grid.ngy == 1 && c.grid.ngz == 1 | _ => true) &&
  (match c.i.launchFlag with | none => true | some n => c.grid.flags.testBit n) &&
    (match c.i.featureBit with | none => true | some n => c.v.cfg.features.getLsbD n)

/-- The checks of R148 in their order, then the instruction itself. -/
def Ctx.attempt (c : Ctx) (body : Ctx → Act) : Act :=
  if c.split.unwound && !c.expected then .uniform .maskStack
  else if !c.enabled then .uniform .illegalInstruction
  else if !formatsOk c.i then .uniform .illegalFormat
  else if !operandsOk c.i c.o c.team.kernel.vregs then .uniform .illegalOperand
  else
    match c.mapsStop with
    | some (.fault k) => .uniform k
    | some (.lost va) => .fault .memoryError va none 0
    | some (.interlock e) => .park (.interlock e)
    | none => body c

/-! ## Latency (R113, R162, R190, R216) -/

/-- Cam cycles of one mapped source (R113). -/
def camCycles (t : Team) (grp : Nat) (sl : Option Field) (m : MapSel) : Nat :=
  match m with
  | .none | .illegal _ => 0
  | .user slot =>
    match t.resolve grp slot.val with
    | none => 0
    | some e =>
      if (t.binds.getD e Binding.unbound).fmt == .s24 then 1
      else if ((sl.bind (·.fmt)).bind fmtPack).isSome then 2 else 1
  | _ => 1

/-- Instructions listed as busy for two ticks (R162). LEA64, which has no type modifier, is taken as a 64-bit form (DESIGN CHOICE, log entry
81). -/
def twoTicks (i : Instr) : Bool :=
  match i with
  | .imul .. | .imad .. | .imulhi .. | .lea64 .. => true
  | .mov _ ty | .movi _ ty | .iadd _ ty _ | .isub _ ty _ | .imin _ ty | .imax _ ty | .iabs _ ty _ | .ineg _ ty _
  | .iset _ _ ty | .sel _ ty => tyWidth ty == 64
  | .and _ w | .or _ w | .xor _ w | .not _ w | .shl _ w | .shr _ w | .sar _ w | .bfx _ w _ | .bfi _ w | .popc _ w
  | .clz _ w | .brev _ w => w
  | .unpk _ pf => pf == .q4e4 || pf == .q4e5
  | _ => false

/-- Ticks from issue to the writing of a register result, where the spec states them and no mapped source adds to them. A uniform form
has an s or q destination (R158, R162). -/
def ownLatency (i : Instr) (op : Nat) (o : Ops) : Nat :=
  let uniform := match o.d with | .sca _ => true | .cls k _ => k == 1 | _ => false
  if 0x100 ≤ op && op < 0x700 then
    if uniform then 2
    else if 0x400 ≤ op && op < 0x500 then 18
    else if op = 0x606 then 12
    else if op = 0x507 then 6
    else if 0x500 ≤ op && op < 0x600 then 5
    else if op < 0x300 && twoTicks i then 6
    else 4
  else if op = 0x703 then 2
  else if 0x704 ≤ op && op ≤ 0x708 then 4
  else if op = 0xB09 || op = 0xC03 || op = 0xD03 then 4
  else if op = 0xE02 || op = 0xE04 || op = 0xE07 then 2
  else 0

/-- The cam cycles of an instruction's mapped sources (R113). -/
def Ctx.camOccupancy (c : Ctx) : Nat :=
  let g := c.i.sig
  camCycles c.team c.r.grp g.a c.o.ma + camCycles c.team c.r.grp g.b c.o.mb + camCycles c.team c.r.grp g.c c.o.mc

/-- The ticks until an array that a mapped source names is resident (R109): a load takes 32 from its asking, and loads run side by side
(log entry 73). -/
def Partition.loadWait (p : Partition) (time : Nat) (a : Nat × Nat) : Nat :=
  if p.arrays.contains a then 0
  else
    match p.loads.find? fun x => x.1 == a with
    | some x => x.2 + 32 - time
    | none => 32

/-- The wait for the arrays that an instruction's mapped sources name. -/
def Ctx.loadWait (c : Ctx) : Nat :=
  let p := (c.s.core c.r.core).part c.group.part
  c.camsUsed.foldl (fun n e => max n (p.loadWait c.s.time (c.r.team, e))) 0

/-- What mapped sources add to a result's latency (R113): 6 ticks and one for each cam cycle but the first, on top of the wait for loads
(R109). -/
def Ctx.camLatency (c : Ctx) : Nat := (if c.camOccupancy = 0 then 0 else 5 + c.camOccupancy) + c.loadWait

/-- The device time at which an instruction that acts now has written its result; 0 where no latency is stated. -/
def Ctx.writtenAt (c : Ctx) : Nat :=
  match c.i.code with
  | none => 0
  | some (op, o) => if ownLatency c.i op o = 0 then 0 else c.s.time + ownLatency c.i op o + c.camLatency

/-! ## Afterwards -/

/-- Resident arrays the instruction's maps name become the most recently used, and are in use until a device time; a load is asked for
where one is not resident (R109). -/
def Partition.touch (p : Partition) (time till : Nat) (team : Nat) (es : List Nat) : Partition :=
  es.foldl (fun p e =>
    let p := { p with using_ := p.using_.filter (fun (u : (Nat × Nat) × Nat) => u.1 != (team, e) || till < u.2) ++ [((team, e), till)] }
    if p.arrays.contains (team, e) then { p with arrays := p.arrays.filter (· != (team, e)) ++ [(team, e)] }
    else if p.loads.any (fun x => x.1 == (team, e)) then p else { p with loads := p.loads ++ [((team, e), time)] }) p

/-- What an instruction writes: nothing where no lane executes (R140). -/
def Ctx.writes (c : Ctx) : List Reg := if c.x = 0 then [] else c.i.writes c.o

/-- The instruction yields (R146, R198). -/
def Ctx.yields (c : Ctx) : Bool := c.o.yieldHint || (match c.i with | .yield _ false _ => true | _ => false)

/-- The tick in which the split is held back after this instruction has issued (R146). -/
def Ctx.yieldTick (c : Ctx) : Option Nat := if c.yields then some (c.s.time + 1) else none

/-- The split after an instruction has acted: its run grows, the pc goes on, the run ends where the instruction ends it. -/
def Split.acted (p : Split) (c : Ctx) (reads : List Reg) (bad : List Reg) (next : Bool) : Split :=
  { p with
    pc := if next then p.pc + 1 else p.pc
    run := p.run ++ [{ reads := c.i.reads c.o ++ reads, writes := c.writes }]
    poison := p.poison ++ bad
    promoted := false
    readyTicks := 0
    since := none
    ending := p.ending || c.i.endsRun c.o
    resultAt := max p.resultAt c.writtenAt
    capture := if c.x = 0 then p.capture else c.capt
    unwound := if next then false else p.unwound
    yielded := if c.acting then p.yielded else c.yieldTick }

/-- A uniform register as it was in another copy of the group. -/
def Group.restore (old g : Group) (r : Reg) : Group :=
  match r with
  | .s n => g.setSreg n (old.sreg n)
  | .q n => g.setQreg n (old.qreg n)
  | _ => g

/-- An instruction of a split has issued and is still to act (R217). -/
def Split.toAct (p : Split) : Bool :=
  match p.park with
  | .instr .. | .asks .. | .release .. | .enq .. => true
  | _ => false

/-- Uniform registers that an instruction writes keep its value when what another split issued before it, a result on its way or an
instruction still to act, writes them later (R84). -/
def Ctx.overtake (c : Ctx) (s : State) : State :=
  let us := c.writes.filter fun x => match x with | .s _ | .q _ => true | _ => false
  if us.isEmpty then s
  else
    let before := fun (n : Nat) => !c.acting || n < c.split.issued
    let older := fun (o : Out) => o.owner.team == c.r.team && o.owner.grp == c.r.grp && o.owner.split != c.r.split && before o.id
    let s := s.modCore c.r.core fun k => { k with outs := updateIf older (fun o => { o with overtaken := o.overtaken ++ us }) k.outs }
    s.modGroup c.r fun g =>
      { g with splits := updateIf (fun p => p.sid != c.r.split && p.toAct && before p.issued) (fun p => { p with outdone := p.outdone ++ us }) g.splits }

/-- The uniform registers that a parked instruction writes when it acts, but for those that a later-issued one has written (R84). -/
def Ctx.yieldTo (c : Ctx) (s : State) : State :=
  match c.s.group? c.r with
  | some old => if c.acting then s.modGroup c.r fun g => (c.split.outdone.filter c.writes.contains).foldl (Group.restore old) g else s
  | none => s

/-- An instruction has acted: registers that a hazard makes undefined are freed, in every lane, the split goes on, and where the run ends
it is settled. A mapped source uses its arrays while it occupies the cam unit (R109; log entry 73). -/
def Ctx.retire (c : Ctx) (s : State) (reads : List Reg) (next : Bool) : State :=
  let bad := hazards c.split.run c.writes
  let s := if bad.isEmpty then s else s.modGroup c.r fun g => bad.foldl (c.s.freeReg 5 allLanes) g
  let s := if c.camsUsed.isEmpty then s
    else s.modCore c.r.core fun k => k.modPart c.group.part fun p => p.touch s.time (s.time + c.loadWait + max c.camOccupancy 1) c.r.team c.camsUsed
  let s := (c.overtake (c.yieldTo s)).modSplit c.r fun p => p.acted c reads bad next
  if c.i.endsRun c.o then s.settleGroup c.r else s

/-- An instruction parks with no effect; its split keeps its place in the order of parking (R217). A split that now stands between runs ends
with its group (R284), and a page fault of another split need wait for it no longer (R288). -/
def Ctx.parkAt (c : Ctx) (p : Park) : State :=
  if c.acting then c.s.modSplit c.r fun x => { x with park := p }
  else
    let i := c.s.takeId
    let s := i.2.modSplit c.r fun x =>
      { x with park := p, parkedAt := c.s.time, issued := i.1, outdone := [], promoted := false, readyTicks := 0, yielded := c.yieldTick,
               since := match p with | .instr .. => x.since.orElse fun _ => some c.s.time | _ => none }
    if c.group.dying && (s.split? c.r).any (·.betweenRuns) then s.endSplit c.r else s.postDue c.r

/-- The state after an instruction. One that parks at issue keeps no answers of an earlier one. -/
def Ctx.finish (c : Ctx) (a : Act) : State :=
  match a with
  | .fault k addr lane acc =>
    c.s.faultAt c.r { kind := k, addr := addr % 2 ^ 64, lane := lane, pc := c.split.pc, acc := acc }
  | .stop s k addr =>
    (if c.group.dying || c.group.suspends c.r.split || c.group.stalled then c.s else s).faultAt c.r
      { kind := k, addr := addr % 2 ^ 64, lane := none, pc := c.split.pc, acc := 0 }
  | .park p => (if c.acting then c else { c with s := c.s.forget c.r.core (.word c.r) }).parkAt p
  | .parkIn s p => { c with s := s }.parkAt p
  | .done s reads next => c.retire s reads next

/-- The meaning of a KIS-3 instruction with a body: the focus must name a live split. -/
def issue (i : Instr) (s : State) (body : Ctx → Act) : Host.Outcome State Fault Refusal :=
  match s.ctx? i with
  | none => .fault .noIssuer
  | some c => .next (c.finish (c.attempt body)).bump

/-- What an instruction has read at issue, kept while it is parked (R217). -/
def Ctx.snap (c : Ctx) (cap : List (Nat × Nat)) : Snap :=
  { s := c.group.s, q := c.group.q, b := c.group.b, gen := c.gen, ngx := c.ngx, capture := c.capt, cams := c.cams, cap := cap }

/-- The context in which a parked instruction acts (R217): what it read of uniform registers and captured at issue stands. -/
def State.actCtx? (s : State) (r : SplitRef) (i : Instr) (a : Snap) : Option Ctx :=
  let s := { s.modSplit r fun p => { p with park := .none } with focus := .split r }
  (s.ctx? i).map fun c =>
    let g := { c.group with s := a.s, q := a.q, b := a.b }
    { c with acting := true, cap := a.cap, group := g, x := executing g c.split.mask c.o, gen := a.gen, ngx := a.ngx, capt := a.capture, cams := a.cams }

/-- An instruction parks as R217 says. -/
def Ctx.parkInstr (c : Ctx) (cap : List (Nat × Nat)) : Act := .park (.instr c.i (c.snap cap))

/-- It parks, or stays parked, a page having been logged (R73). -/
def Ctx.parkAsking (c : Ctx) (s : State) : Act := .parkIn s (.instr c.i (c.snap c.cap))

/-- Its issue is held by reads of its own, on their way. -/
def Ctx.held (c : Ctx) : Act := .park (.asks c.i (c.snap c.cap))

/-- Its issue is held, reads of its own having been sent in this step. -/
def Ctx.heldAsking (c : Ctx) (s : State) : Act := .parkIn s (.asks c.i (c.snap c.cap))

/-- Per-lane results of a width written to D (R160). -/
def Ctx.result (c : Ctx) (w : Nat) (f : Nat → Nat) : Act := .ok (c.put (regsFor w) f)

/-- A predicate result written to D. -/
def Ctx.resultPred (c : Ctx) (f : Nat → Bool) : Act := .ok (c.put 1 fun l => (f l).toNat)

/-- The executing lanes, ascending. -/
def Ctx.lanes (c : Ctx) : List Nat := lanesOf c.x

/-- At least one lane executes (R140). -/
def Ctx.any (c : Ctx) : Bool := c.x != 0

end Sys2Proof.Machine
end

