-- ==== Sys2Proof/Machine/Integer.lean ====
section
/-!
DEFINITION. Integer instructions, major 0x1 (11 R163 to R168).
-/
namespace Sys2Proof.Machine

/-- What an instruction answers: a next state, or the stop `noIssuer`. -/
abbrev Answered := Host.Outcome State Fault Refusal

/-- Int(Read(A, l, TY), TY) (R164). -/
def Ctx.intA (c : Ctx) (ty : IntTy) (l : Nat) : Int := intVal (tyFmt ty) (c.a (tyFmt ty) l)
def Ctx.intB (c : Ctx) (ty : IntTy) (l : Nat) : Int := intVal (tyFmt ty) (c.b (tyFmt ty) l)
def Ctx.intC (c : Ctx) (ty : IntTy) (l : Nat) : Int := intVal (tyFmt ty) (c.c (tyFmt ty) l)

/-- An exact integer result: clamped with .sat, else wrapped (R164). -/
def intResult (ty : IntTy) (sat : Bool) (x : Int) : Nat :=
  wrapTo (if sat then clampInt (tyFmt ty) x else x) (tyWidth ty)

/-- MOV (R165). -/
def execMov (o : Ops) (ty : IntTy) (s : State) : Answered :=
  issue (.mov o ty) s fun c => c.result (tyWidth ty) fun l => c.a (tyFmt ty) l

/-- MOVI (R165): with .I64 the immediate is sign-extended, with .U64 zero-extended. -/
def execMovi (o : Ops) (ty : IntTy) (s : State) : Answered :=
  issue (.movi o ty) s fun c => c.result (tyWidth ty) fun _ =>
    let m := ((o.imm).getD 0).toNat
    if ty == .i64 then signExt m 32 64 else m

/-- IADD (R164). -/
def execIadd (o : Ops) (ty : IntTy) (sat : Bool) (s : State) : Answered :=
  issue (.iadd o ty sat) s fun c => c.result (tyWidth ty) fun l => intResult ty sat (c.intA ty l + c.intB ty l)

/-- ISUB (R164). -/
def execIsub (o : Ops) (ty : IntTy) (sat : Bool) (s : State) : Answered :=
  issue (.isub o ty sat) s fun c => c.result (tyWidth ty) fun l => intResult ty sat (c.intA ty l - c.intB ty l)

/-- IMUL (R164). -/
def execImul (o : Ops) (ty : IntTy) (s : State) : Answered :=
  issue (.imul o ty) s fun c => c.result (tyWidth ty) fun l => intResult ty false (c.intA ty l * c.intB ty l)

/-- IMAD (R164). -/
def execImad (o : Ops) (ty : IntTy) (s : State) : Answered :=
  issue (.imad o ty) s fun c => c.result (tyWidth ty) fun l =>
    intResult ty false (c.intA ty l * c.intB ty l + c.intC ty l)

/-- IMULHI (R164): the high half of the exact product. -/
def execImulhi (o : Ops) (ty : IntTy) (s : State) : Answered :=
  issue (.imulhi o ty) s fun c => c.result (tyWidth ty) fun l =>
    intResult ty false ((c.intA ty l * c.intB ty l) / (2 ^ tyWidth ty : Int))

/-- IMIN (R164). -/
def execImin (o : Ops) (ty : IntTy) (s : State) : Answered :=
  issue (.imin o ty) s fun c => c.result (tyWidth ty) fun l => intResult ty false (min (c.intA ty l) (c.intB ty l))

/-- IMAX (R164). -/
def execImax (o : Ops) (ty : IntTy) (s : State) : Answered :=
  issue (.imax o ty) s fun c => c.result (tyWidth ty) fun l => intResult ty false (max (c.intA ty l) (c.intB ty l))

/-- IABS (R164). -/
def execIabs (o : Ops) (ty : IntTy) (sat : Bool) (s : State) : Answered :=
  issue (.iabs o ty sat) s fun c => c.result (tyWidth ty) fun l => intResult ty sat (c.intA ty l).natAbs

/-- INEG (R164). -/
def execIneg (o : Ops) (ty : IntTy) (sat : Bool) (s : State) : Answered :=
  issue (.ineg o ty sat) s fun c => c.result (tyWidth ty) fun l => intResult ty sat (-(c.intA ty l))

/-- LEA64 (R166). -/
def execLea64 (o : Ops) (sh : Fin 5) (zx : Bool) (s : State) : Answered :=
  issue (.lea64 o sh zx) s fun c => c.result 64 fun l =>
    let b := c.b .b32 l
    (c.a .u64 l + (if zx then b else signExt b 32 64) * 2 ^ sh.val) % 2 ^ 64

/-- ISET (R167). -/
def execIset (o : Ops) (cond : ICond) (ty : IntTy) (s : State) : Answered :=
  issue (.iset o cond ty) s fun c => c.resultPred fun l => intCond cond (c.intA ty l) (c.intB ty l)

/-- SEL (R167): bits pass unchanged. -/
def execSel (o : Ops) (ty : IntTy) (s : State) : Answered :=
  issue (.sel o ty) s fun c => c.result (tyWidth ty) fun l => if c.pred o.c l then c.a (tyFmt ty) l else c.b (tyFmt ty) l

/-- PLOP (R168). -/
def execPlop (o : Ops) (lut : BitVec 8) (s : State) : Answered :=
  issue (.plop o lut) s fun c => c.resultPred fun l => lutBit lut (c.pred o.a l) (c.pred o.b l) (c.pred o.c l)

end Sys2Proof.Machine
end

