-- ==== Sys2Proof/Machine/Translate.lean ====
section
/-!
DEFINITION. Physical addresses and homes (02 R21 to R28), the storage of a home, the page-table walk and its checks (05 R69 to R71),
cached translations (R72, R74) and the dirty log (R73).
-/
namespace Sys2Proof.Machine

/-! ## Physical addresses (R21 to R24) -/

/-- HomeSlice (R24): the exclusive or of the four bytes of bits 43:12. -/
def homeSlice (pa : Nat) : Nat :=
  (bitsOf pa 19 12).xor ((bitsOf pa 27 20).xor ((bitsOf pa 35 28).xor (bitsOf pa 43 36)))

/-- The die that holds a LOCAL address, and its offset there (R22). -/
def dieOf (a : Nat) : Nat := a / 0x20_0000_0000
def dieOffset (a : Nat) : Nat := a % 0x20_0000_0000

/-- The DRAM channel of a LOCAL address on its die (R23). -/
def channelOf (a : Nat) : Nat := (bitsOf (dieOffset a) 16 8).xor (bitsOf (dieOffset a) 25 17)

/-- The replica slice of a line for a core (R29). -/
def replicaSlice (core pa : Nat) : Nat := 64 * (core / 48) + homeSlice pa % 64

/-- DEV (R21). -/
def devOf (pa : Nat) : Nat := pa / 2 ^ 44

/-- LOCAL (R21). -/
def localOf (pa : Nat) : Nat := pa % 2 ^ 44

/-- The targets of a LOCAL address (R22). -/
inductive Target where
  | dram | hostWindow | absent
deriving DecidableEq, Repr

def targetOf (a : Nat) : Target :=
  if a < 0x080_0000_0000 then (if a % 0x20_0000_0000 < 0x18_0000_0000 then .dram else .absent)
  else if 0x100_0000_0000 ≤ a && a < 0x200_0000_0000 then .hostWindow
  else .absent

/-! ## The storage of a home (R26 to R28) -/

/-- What a home holds; a slice that does not allocate, and places outside the package, hold nothing. -/
def State.store (s : State) : HomeLoc → HomeStore
  | .slice n => (s.slice n).store
  | .window k => (s.core k).window
  | .direct _ | .remote _ | .host => HomeStore.empty

def State.modStore (s : State) (h : HomeLoc) (f : HomeStore → HomeStore) : State :=
  match h with
  | .slice n => s.modSlice n fun c => { c with store := f c.store }
  | .window k => s.modCore k fun c => { c with window := f c.window }
  | .direct _ | .remote _ | .host => s

def HomeStore.line? (h : HomeStore) (n : Nat) : Option Line := h.lines.find? fun l => l.line == n

/-- Device time where a home stands (R16). -/
def State.homeTime (s : State) : HomeLoc → Nat
  | .slice n | .direct n => s.sliceTime n
  | .window k => s.coreTime k
  | .remote _ | .host => s.time

/-- The lost-sector list of a home: the list of the slice for a line that is not allocated (R35). -/
def State.lostAt (s : State) (h : HomeLoc) : List Nat :=
  match h with
  | .direct n => (s.slice n).store.lost
  | _ => (s.store h).lost

/-- The bytes at a LOCAL address as its home holds them: the line where it is present, else DRAM; the host's memory for the host
window (R22). -/
def State.valueAt (s : State) (h : HomeLoc) (a n : Nat) : List Byte :=
  match (s.store h).line? (a / 128), h with
  | some l, _ => (l.data.drop (a % 128)).take n
  | none, .host => s.host.readBytes (a % 2 ^ 40) n
  | none, _ => s.dram.readBytes a n

/-- A line with bytes written at offsets; it is newer than DRAM from then on. -/
def Line.put (l : Line) (bytes : List (Nat × Byte)) : Line :=
  { l with data := bytes.foldl (fun d p => d.set p.1 p.2) l.data, dirty := true }

/-- A line of a home has been used (R26: the least recently used pinned line of a set goes first). -/
def State.useLine (s : State) (h : HomeLoc) (line : Nat) : State :=
  s.modStore h fun x => { x with lines := updateIf (fun l => l.line == line) (fun l => { l with used := s.fresh }) x.lines }

/-- Bytes written at LOCAL addresses within one line at its home: in the line where it is present, else in DRAM, or the host's
memory. -/
def State.writeAt (s : State) (h : HomeLoc) (line : Nat) (bytes : List (Nat × Byte)) : State :=
  match (s.store h).line? line, h with
  | some _, _ =>
    s.modStore h fun x => { x with lines := updateIf (fun l => l.line == line) (fun l => l.put (bytes.map fun p => (p.1 % 128, p.2))) x.lines }
  | none, .host => { s with host := s.host.writeAll (bytes.map fun p => (p.1 % 2 ^ 40, p.2)) }
  | none, _ => { s with dram := s.dram.writeAll bytes }

/-- Consecutive bytes with their addresses. -/
def bytesFrom (a : Nat) (b : List Byte) : List (Nat × Byte) := (List.range b.length).zip b |>.map fun p => (a + p.1, p.2)

/-! ## Reads by physical address (R69) -/

/-- The name of a sector that is read by its physical address, among the answers of an errand: past every virtual address. -/
def physKey (pa : Nat) : Nat := 2 ^ 64 + pa / 32 * 32

/-- Why a translation has not come to be: a fault, or a sector of the tables that has yet to be read. -/
inductive Miss where
  | fault (k : FaultKind)
  | walk (pa : Nat)
deriving DecidableEq, Repr

/-- What an errand knows of `n` bytes within one sector at a physical address, which it reads by a strong load at the sector's home:
the bytes, a failure (R22, R35), or that the sector has yet to come. -/
def Fetch.phys (f : Fetch) (pa n : Nat) : Except Miss (List Byte) :=
  if targetOf pa == .absent then .error (.fault .access)
  else
    match f.errs.find? fun e => e.2 == physKey pa with
    | some e => .error (.fault e.1)
    | none =>
      match f.got.find? fun g => g.1 == physKey pa with
      | some g => .ok ((g.2.drop (pa % 32)).take n)
      | none => .error (.walk pa)

/-- The answers of an errand without those of its reads by physical address: translations are dropped (R72). -/
def Fetch.dropWalks (f : Fetch) : Fetch :=
  { f with asked := f.asked.filter (·.2 < 2 ^ 64), got := f.got.filter (·.1 < 2 ^ 64), errs := f.errs.filter (·.2 < 2 ^ 64) }

/-! ## The page-table walk (R69 to R71) -/

/-- The access a translation is for (R71): what it needs of the entry. -/
inductive Need where
  | load | store | fetch | none
deriving DecidableEq, Repr

/-- The fields of an entry (R70). -/
def pteV (e : Nat) : Bool := e.testBit 0
def pteLeaf (e : Nat) : Bool := e.testBit 1
def pteBase (e : Nat) : Nat := bitsOf e 44 20 * 2 ^ 16
def pteDev (e : Nat) : Nat := bitsOf e 63 45

/-- A non-leaf entry uses only V, LEAF, LPN and DEV, and its DEV is the package's own (R70). -/
def pteNonLeafOk (own e : Nat) : Bool := bitsOf e 19 2 == 0 && pteDev e == own

/-- The bits of a virtual address that index a level (R69). -/
def levelIndex (level va : Nat) : Nat := va / 2 ^ (46 - 10 * level) % 1024

/-- What a walk finds: no valid entry, a fault of step 2 or a sector yet to be read, a leaf with its level, the address of its entry and
its value. -/
inductive Walked where
  | invalid
  | bad (k : Miss)
  | leaf (level addr e : Nat)
deriving DecidableEq, Repr

/-- The walk from a table at a level, `fuel` levels to go, over the entries that an errand of a package has read; `ok` is false once a
non-leaf entry has failed step 2. Step 1 comes before step 2 at any level (R71). -/
def Fetch.walkFrom (f : Fetch) (own va : Nat) : (fuel : Nat) → (ok : Bool) → (table : Nat) → Walked
  | 0, _, _ => .bad (.fault .access)
  | n + 1, ok, table =>
    let level := 3 - n
    let addr := table + 8 * levelIndex level va
    match f.phys addr 8 with
    | .error k => .bad k
    | .ok b =>
      let e := natOfBytes b
      if !pteV e then .invalid
      else if pteLeaf e then (if !ok || level < 2 then .bad (.fault .access) else .leaf level addr e)
      else if pteDev e != own then .bad (.fault .access)
      else f.walkFrom own va n (ok && pteNonLeafOk own e) (pteBase e)

/-- The page a virtual address lies on, by a walk of a virtual function's tables. -/
def Fetch.walkPage (f : Fetch) (own : Nat) (v : VfConfig) (va : Nat) : Except Miss PageInfo :=
  match f.walkFrom own va 4 true v.root with
  | .invalid => .error (.fault .pageFault)
  | .bad k => .error k
  | .leaf level addr e =>
    if bitsOf e 19 18 != 0 || (level == 2 && bitsOf e 29 20 != 0) then .error (.fault .access)
    else
      .ok { pa := pteBase e + pteDev e * 2 ^ 44, size := if level = 2 then 2 ^ 26 else 2 ^ 16, rd := e.testBit 2, wr := e.testBit 3,
            ex := e.testBit 4, hv := e.testBit 7, dle := e.testBit 8, home := bitsOf e 6 5, tgt := bitsOf e 17 10, entry := addr }

/-- A page permits an access (R71: loads need RD, stores and atomics WR and RD, fetches EX). -/
def PageInfo.permits (p : PageInfo) : Need → Bool
  | .load => p.rd
  | .store => p.rd && p.wr
  | .fetch => p.ex
  | .none => true

/-- A translated access: the virtual page, its physical address (LOCAL within this package, with DEV elsewhere), its home. -/
structure Xlated where
  va : Nat
  pa : Nat
  page : PageInfo
  home : HomeLoc
deriving DecidableEq, Repr

/-- The home of an address of a page (R22, R25, R27, R28, R240): ACCESS where there is none. -/
def State.homeOf (s : State) (v : VfConfig) (p : PageInfo) (pa : Nat) : Except FaultKind HomeLoc :=
  let a := localOf pa
  if (p.home == 0 || p.home == 3) && p.tgt != 0 then .error .access
  else if p.home == 2 && (v.cores.length ≤ p.tgt || v.pinnedKiB == 0) then .error .access
  else if devOf pa != s.devNumber then (if v.features.getLsbD 3 then .ok (.remote (devOf pa)) else .error .access)
  else
    match targetOf a with
    | .absent => .error .access
    | .hostWindow => .ok .host
    | .dram =>
      if p.home == 0 then .ok (.slice (homeSlice a))
      else if p.home == 1 then .ok (.slice p.tgt)
      else if p.home == 2 then .ok (.window (v.cores.getD p.tgt 0))
      else .ok (.direct (homeSlice a))

/-- An address of a page, with the checks of R71 after the walk. -/
def State.onPage (s : State) (v : VfConfig) (p : PageInfo) (va : Nat) (need : Need) : Except FaultKind Xlated :=
  if !p.permits need then .error .access
  else
    let pa := p.pa + va % p.size
    match s.homeOf v p pa with
    | .error k => .error k
    | .ok h =>
      let a := if h == .host then hostAddress v.id pa else if devOf pa = s.devNumber then localOf pa else pa
      .ok { va := va / p.size * p.size, pa := a, page := p, home := h }

/-- A cached translation covers an address. -/
def TlbEntry.covers (e : TlbEntry) (vf va : Nat) : Bool := e.vf == vf && e.va == va / e.page.size * e.page.size

/-- The page of an address as an agent finds it: that of a cached translation, which may be older than the tables (R72), else the walk's
(R69). -/
def State.pageVia (s : State) (cached : List TlbEntry) (f : Fetch) (v : VfConfig) (va : Nat) : Except Miss PageInfo :=
  match cached.find? fun e => e.covers v.id va with
  | some e => .ok e.page
  | none => f.walkPage s.devNumber v va

/-- Translation of an access through cached translations, and the entries that its errand has read (R69, R71). -/
def State.translate (s : State) (cached : List TlbEntry) (f : Fetch) (v : VfConfig) (va : Nat) (need : Need) : Except Miss Xlated :=
  if va ≥ 2 ^ 56 then .error (.fault .access)
  else
    match s.pageVia cached f v va with
    | .error k => .error k
    | .ok p =>
      match s.onPage v p va need with
      | .error k => .error (.fault k)
      | .ok x => .ok x

/-- The cached translation of an access. -/
def Xlated.entry (x : Xlated) (vf : Nat) : TlbEntry := { vf := vf, va := x.va, page := x.page }

/-- A translation that was used stays cached, the last used last. -/
def cacheXlate (l : List TlbEntry) (vf : Nat) (x : Xlated) : List TlbEntry :=
  (l.filter fun y => !(y.vf == vf && y.va == x.va)) ++ [x.entry vf]

/-- The last n of a list. -/
def lastOf {α : Type} (n : Nat) (l : List α) : List α := l.drop (l.length - n)

/-- Translations cached in a core's TLB. The spec gives that TLB no size: where one comes that it does not hold, any of the others may go
(log entry 48). -/
def State.cacheCore (s : State) (k vf : Nat) (xs : List Xlated) : State :=
  let old := (s.core k).tlb
  if xs.all fun x => old.contains (x.entry vf) then s
  else
    let kept := ((List.range old.length).zip old).filter fun p => s.drawBool 7 p.1
    s.modCore k fun c => { c with tlb := xs.foldl (cacheXlate · vf ·) (kept.map (·.2)) }

/-- A slice TLB holds 64 entries (R44); the least recently used goes (log entry 48). -/
def State.cacheSlice (s : State) (n vf : Nat) (xs : List Xlated) : State :=
  if xs.isEmpty then s else s.modSlice n fun c => { c with tlb := lastOf 64 (xs.foldl (cacheXlate · vf ·) c.tlb) }

/-! ## The dirty log (R73) -/

/-- Logging is enabled for these n only. -/
def Ring.logs (r : Ring) : Bool := 10 ≤ r.logn && r.logn ≤ 20

/-- What a write knows of a page's entry (R73): it needs no line of the log, it needs one, DLE being set and DIRTY clear, or the entry has
yet to be read at its home. An entry that cannot be read needs none. -/
def Fetch.needsLog (f : Fetch) (v : Vf) (x : Xlated) : Except Nat Bool :=
  if !(v.dirty.logs && x.page.dle) then .ok false
  else
    match f.phys x.page.entry 8 with
    | .ok b => .ok (!(natOfBytes b).testBit 9)
    | .error (.walk pa) => .error pa
    | .error (.fault _) => .ok false

/-- The entry is not known to need no line. -/
def Fetch.mayLog (f : Fetch) (v : Vf) (x : Xlated) : Bool :=
  match f.needsLog v x with
  | .ok b => b
  | .error _ => true

/-- A write drops the core's L1 copies of its sectors (R76), and what loads already under way bring is not installed (R266). -/
def State.dropL1 (s : State) (core : Nat) (sectors : List Nat) : State :=
  let s := s.modCore core fun c => { c with l1 := c.l1.filter fun x => !sectors.contains x.sector }
  { s with reqs := updateIf (fun (q : Req) => q.core == core && sectors.contains q.sector) (fun (q : Req) => { q with noInstall := true }) s.reqs }

/-- The OR of DIRTY in an entry is on its way (R73). -/
def State.logging (s : State) (entry : Nat) : Bool := s.reqs.any fun q => q.errand == some .log && q.va == entry

/-- The home of a physical address and the sector's number there: the slice of R24, or in the host window the host, whose IOMMU translates
the address for the function (R22, R310). -/
def physHome (vf pa : Nat) : HomeLoc × Nat :=
  if targetOf pa == .hostWindow then (.host, hostAddress vf pa / 32) else (.slice (homeSlice pa), pa / 32)

/-- The request that sets DIRTY in a page-table entry: an atomic OR at the entry's home (R73). -/
def logReq (id core vf grid : Nat) (owner : SplitRef) (entry now : Nat) : Req :=
  { id := id, batch := id, core := core, vf := vf, grid := grid, owner := owner, home := (physHome vf entry).1, sector := (physHome vf entry).2, page := 2 ^ 56,
    size := 1, hv := false, pinned := false, va := entry, lane := none, pc := 0,
    kind := .atomic [{ lane := 0, off := entry % 32, op := .or, ty := .u64, c := 512, e := 0 }], errand := some .log, strong := false,
    hint := 0, out := none, arrived := none, done := false, data := [], olds := [], time := 0, expiry := none, noInstall := false,
    repl := false, failed := none, hop := now, trip := 3 }

/-- The way of a request for a sector by its physical address: 3 ticks, and none for a slice TLB's walk, for which R326 leaves a handler no
slice cycle (log entry 16). -/
def Errand.way : Errand → Nat
  | .hinge _ => 0
  | _ => 3

/-- A request for a sector by its physical address (R69): a strong load at its home, which no instruction's order binds; in the host window
the host IOMMU translates it for the function (R310). -/
def physReq (id core vf grid : Nat) (owner : SplitRef) (key : Errand) (pa now : Nat) : Req :=
  { id := id, batch := id, core := core, vf := vf, grid := grid, owner := owner, home := (physHome vf pa).1, sector := (physHome vf pa).2,
    page := 2 ^ 56, size := 1, hv := false, pinned := false, va := physKey pa, lane := none, pc := 0, kind := .strongRead, errand := some key, strong := false,
    hint := 0, out := none, arrived := none, done := false, data := [], olds := [], time := 0, expiry := none, noInstall := true,
    repl := false, failed := none, hop := now, trip := key.way }

/-- Sectors asked for by their physical addresses under the name of an errand; none where each is on its way already. -/
def State.askPhys (s : State) (core vf grid : Nat) (owner : SplitRef) (key : Errand) (pas : List Nat) : Option State :=
  let f := (s.core core).answers key
  let new := ((pas.map fun pa => pa / 32 * 32).eraseDups).filter fun pa => !f.knows (physKey pa)
  if new.isEmpty then none
  else
    let ids := (List.range new.length).zip new
    let f : Fetch := { f with asked := f.asked ++ ids.map fun (p : Nat × Nat) => (s.nextId + p.1, physKey p.2) }
    let s : State := { s with
      nextId := s.nextId + new.length
      reqs := s.reqs ++ ids.map fun (p : Nat × Nat) => physReq (s.nextId + p.1) core vf grid owner key p.2 s.time }
    some (s.modCore core fun c => { c with fetches := c.fetches.filter (fun (x : Fetch) => x.key != key) ++ [f] })

/-- The number under which the command processors' reads are kept. -/
def cpCore : Nat := 513

/-- One page logged: its address appended to the ring, and the OR sent; what the errand knew of the entry is stale. -/
def State.logPage (s : State) (core vf grid : Nat) (owner : SplitRef) (key : Errand) (x : Xlated) : State :=
  match s.vf? vf with
  | none => s
  | some v =>
    let pa := x.page.pa / 2 ^ 16 * 2 ^ 16
    let s := (s.writeHost vf (v.dirty.slot 8) (bytesOfNat 8 pa)).setRing (.dirty vf) v.dirty.push
    let i := s.takeId
    let s := i.2.dropL1 core [x.page.entry / 32]
    let s := { s with reqs := s.reqs ++ [logReq i.1 core vf grid owner x.page.entry s.time] }
    s.modCore core fun c =>
      { c with fetches := updateIf (fun f => f.key == key) (fun f => { f with got := f.got.filter fun g => g.1 != physKey x.page.entry }) c.fetches }

/-- What a write finds that may need entries of the dirty log: every page has its DIRTY set or needs none; or it waits, entries that
fit having been appended or page-table entries asked for, some of it in this step (`moved`); or it needs one more while the ring is
full. -/
inductive Logged where
  | ready
  | wait (s : State) (moved : Bool)
  | full (s : State) (moved : Bool)

/-- One page of a write: its entry is read at its home, and logged once while the ring has room. -/
def State.logOne (s : State) (core vf grid : Nat) (owner : SplitRef) (key : Errand) (l : Logged) (x : Xlated) : Logged :=
  let go := fun (s : State) (moved : Bool) =>
    match s.vf? vf with
    | none => Logged.wait s moved
    | some v =>
      if s.logging x.page.entry then .wait s moved
      else
        match ((s.core core).answers key).needsLog v x with
        | .ok false => .wait s moved
        | .error pa => (match s.askPhys core vf grid owner key [pa] with | some t => .wait t true | none => .wait s moved)
        | .ok true => if v.dirty.full then .full s moved else .wait (s.logPage core vf grid owner key x) true
  match l with
  | .ready => go s false
  | .wait s m => go s m
  | .full s m => .full s m

/-- The pages of a write that are not yet known to need nothing, once each. -/
def State.toLog (s : State) (v : Vf) (f : Fetch) (xs : List Xlated) : List Xlated :=
  (xs.filter fun x => v.dirty.logs && x.page.dle && (s.logging x.page.entry || f.mayLog v x)).foldl
    (fun l x => if l.any fun y => y.page.entry == x.page.entry then l else l ++ [x]) []

/-- The pages of a write logged, one after another while the ring has room (R73). The spec does not say whether a write that needs
several entries appends those that fit; the model does (DESIGN CHOICE, log entry 60). -/
def State.logWrite (s : State) (core vf grid : Nat) (owner : SplitRef) (key : Errand) (xs : List Xlated) : Logged :=
  match s.vf? vf with
  | none => .ready
  | some v => (s.toLog v ((s.core core).answers key) xs).foldl (s.logOne core vf grid owner key) .ready

end Sys2Proof.Machine
end

