-- ==== Sys2Proof/Machine/Homes.lean ====
section
/-!
DEFINITION. What a home executes (02 R29 to R35, 05 R75, R76): a request's place in its line's order, misses and fills with their
triggers (03 R39, R42, 23 R324), leases, writes that wait for them, atomics, replicas, errors.
-/
namespace Sys2Proof.Machine

/-- The line of a request. -/
def Req.line (q : Req) : Nat := q.sector / 4

/-- The physical address of its sector. -/
def Req.pa (q : Req) : Nat := q.sector * 32

/-- Its miss raises a MISS: R39 names the accesses, and draws, an instruction's reads of descriptors, headers
and cursors, the cursor a join leaves, the dirty log's OR, node records and what the command processors and the instruction caches read are
none of them (DEDUCED, log entry 36). -/
def Req.demands (q : Req) : Bool :=
  match q.errand with
  | some (.draw _) | some (.cursor _) | some (.word _) | some .log | some (.node ..) | some (.text ..) | some (.kernel ..)
  | some (.image _) => false
  | some (.get ..) | some (.put ..) | some (.join ..) | some (.push _) | some (.hinge _) | some .outside | none => true

/-! ## Uncorrectable errors (R35) -/

/-- A virtual function is error-stopped (R35): its teams stop and will be pre-empted, and nothing of it starts. -/
def State.errorStop (s : State) (vf : Nat) : State :=
  let s := s.modVf vf fun v => { v with stopped := true }
  { s with cores := s.cores.map fun p =>
      (p.1, { p.2 with teams := updateIf (fun t => t.vf == vf) (fun t => { t with stopping := true }) p.2.teams }) }

end Sys2Proof.Machine
namespace Sys2Proof
open Machine

/-- The storage that keeps the lost-sector list of a home. -/
def HomeLoc.lister : HomeLoc → HomeLoc
  | .direct n => .slice n
  | h => h

end Sys2Proof
namespace Sys2Proof.Machine

/-- A sector is struck by an uncorrectable error, which a read will find. -/
def State.strike (s : State) (sector : Nat) : State := { s with flaws := if s.flaws.contains sector then s.flaws else s.flaws ++ [sector] }

/-- The virtual functions that own a physical address: those in whose memory it lies (R311). -/
def State.owners (s : State) (a : Nat) : List Nat :=
  (s.vfs.filter fun v => v.cfg.memory.any fun r => r.1 * 2 ^ 20 ≤ a && a < (r.1 + r.2) * 2 ^ 20).map (·.cfg.id)

/-- A home has found an uncorrectable sector (R35 items 2 and 3): the line is dropped and the sector listed. With a full list it is not
listed, and a later read finds the error anew; host firmware is interrupted and the virtual function that owns the line is error-stopped.
Where the error lay in DRAM the sector's bytes hold no value any more. -/
def State.loseSector (s : State) (h : HomeLoc) (sector : Nat) : State :=
  let s := s.modStore h fun x => { x with lines := x.lines.filter fun l => l.line != sector / 4 }
  let s := if s.drawBool 8 0 then
      { s with dram := s.dram.writeBytes (sector * 32) ((List.range 32).map fun i => BitVec.ofNat 8 (s.draw 8 (1 + i))) }
    else s
  if (s.lostAt h).length ≥ 64 then s.owners (sector * 32) |>.foldl State.errorStop ({ s with signals := s.signals ++ [Signal.lostListFull h.lister] } : State)
  else { (s.modStore h.lister fun x => { x with lost := x.lost ++ [sector] }) with flaws := s.flaws.filter (· != sector) }

/-- A sector is listed as lost. -/
def State.isLost (s : State) (h : HomeLoc) (sector : Nat) : Bool := (s.lostAt h).contains sector

/-- A read of a sector meets lost data: a listed sector, or one in which it finds the error now. -/
def State.bad (s : State) (h : HomeLoc) (sector : Nat) : Bool := s.isLost h sector || s.flaws.contains sector

/-- An entry of the lost-sector list cleared (R35 item 4). -/
def State.clearLost (s : State) (h : HomeLoc) (sector : Nat) : State :=
  s.modStore h.lister fun x => { x with lost := x.lost.filter (· != sector) }

/-- One more in a count by number. -/
def countUp (l : List (Nat × Nat)) (n : Nat) : List (Nat × Nat) := setKey l n (getKey 0 l n + 1)

/-- A read of DRAM may meet a correctable error, which is counted for its channel and changes nothing else (R34). Channels are
numbered over the package, 512 a die. -/
def State.countChannel (s : State) (a : Nat) : State :=
  { s with channelErrors := if s.drawBool 8 50 then countUp s.channelErrors (512 * dieOf a + channelOf a) else s.channelErrors }

/-- A read of a line that a home holds may meet one too: it is counted for its slice (R34). -/
def State.countSlice (s : State) (h : HomeLoc) : State :=
  match h with
  | .slice n => { s with sliceErrors := if s.drawBool 8 51 then countUp s.sliceErrors n else s.sliceErrors }
  | _ => s

/-- What a read of a line at its home may count (R34): for the home's slice where it holds the line, for the DRAM channel where the read
goes there. -/
def State.countRead (s : State) (h : HomeLoc) (a : Nat) : State :=
  if ((s.store h).line? (a / 128)).isSome then s.countSlice h else if h.away then s else s.countChannel a

/-! ## Leases (R75) -/

/-- The latest expiry granted on a line. -/
def HomeStore.lease (h : HomeStore) (line : Nat) : Nat := getKey 0 h.leases line

/-- A lease granted at a home. -/
def State.grantLease (s : State) (h : HomeLoc) (line expiry : Nat) : State :=
  s.modStore h fun x => { x with leases := setKey x.leases line (max (x.lease line) expiry) }

/-- A write of the line may be made now (R31): the home's device time has reached the latest expiry. -/
def State.leasesOver (s : State) (h : HomeLoc) (line : Nat) : Bool := s.homeTime h ≥ (s.store h).lease line

/-! ## Fills (R39, R42, R324) -/

end Sys2Proof.Machine
namespace Sys2Proof
open Machine

/-- The home keeps lines: a slice or a pinned window. -/
def HomeLoc.allocates : HomeLoc → Bool
  | .slice _ | .window _ => true
  | _ => false

end Sys2Proof
namespace Sys2Proof.Machine

/-- A request joins the fill in flight (R324): the lower depth, a FILL when any of them would have raised one alone, the tag of a page whose
request raises it, or of another handler-visible page. -/
def Fill.join (a b : Fill) : Fill :=
  { a with depth := min a.depth b.depth, raises := a.raises || b.raises,
           vtag := if b.raises && !a.raises then b.vtag else a.vtag.orElse fun _ => b.vtag }

/-- A fill is started, or joined where the line has one (R324). `fresh` tells whether it was started. -/
def State.startFill (s : State) (h : HomeLoc) (f : Fill) : State × Bool :=
  if (s.store h).fills.any fun x => x.line == f.line then
    (s.modStore h fun x => { x with fills := updateIf (fun y => y.line == f.line) (fun y => y.join f) x.fills }, false)
  else (s.modStore h fun x => { x with fills := x.fills ++ [f] }, true)

/-- A trigger for a virtual function's slot at the slice that is the line's home, where the slot takes that kind (R39). -/
def State.trigger (s : State) (h : HomeLoc) (vf : Nat) (kind : TrigKind) (va a4 : Nat) (snap : Option (List Byte)) : State :=
  match h with
  | .slice n =>
    match s.triggerSlot n vf kind with
    | some slot =>
      s.raiseTrigger n { slot := slot, kind := kind, a1 := va / 128 * 128, a4 := a4, body := List.replicate 32 0, snap := snap, at_ := 0 }
    | none => s
  | _ => s

/-- The virtual tag of a line of a handler-visible page (R44). -/
def tagOf (hv : Bool) (vf va : Nat) : Option (Nat × Nat) := if hv then some (vf, va / 128 * 128) else none

/-- The fill that a request asks for (R39, R42, R324): the chain depth, 0 but for hl.pref; whether alone it raises a FILL, as hl.ld, hl.st,
hl.atomic and hl.install do not, nor hl.pref at depth 16. -/
def Req.fill (q : Req) : Fill :=
  let depth := match q.kind with | .line (.pref d) => d | _ => 0
  let raises := match q.kind with | .line (.pref d) => d < 16 | .line _ => false | _ => true
  { line := q.line, vf := q.vf, depth := depth, raises := q.hv && raises, pinned := q.pinned, vtag := tagOf q.hv q.vf q.va }

/-- A request needs its line at its home: all but hl.install, which writes the whole of it (R47). -/
def ReqKind.needsLine : ReqKind → Bool
  | .line (.install _) => false
  | _ => true

/-- A request that reaches its home while a fill of its line is in flight joins it (R324). -/
def State.joinFill (s : State) (q : Req) : State :=
  if q.kind.needsLine && ((s.store q.home).fills.any fun x => x.line == q.line) then (s.startFill q.home q.fill).1 else s

/-- An access misses: the fetch is sent, and a fill that a demand access starts raises MISS (R39). -/
def State.miss (s : State) (q : Req) : State :=
  let r := s.startFill q.home q.fill
  if r.2 && q.hv && q.demands then r.1.trigger q.home q.vf .miss q.va 0 none else r.1

/-- The line may be used at its home now. -/
def State.present (s : State) (h : HomeLoc) (line : Nat) : Bool := !h.allocates || ((s.store h).line? line).isSome

/-! ## Atomics (R213, R214) -/

/-- Per-element float add: RoundTo of the exact sum, RNE, old being operand A. -/
def floatAdd (f : Fmt) (a b : Nat) : Nat :=
  let (ef, n, w) := fmtElems f
  mapElems w n fun i => roundTo (addExact .rne (decodeNum ef (elemAt w i a)) (decodeNum ef (elemAt w i b))) ef .rne false false

/-- Per-element minimum or maximum as FMIN and FMAX. -/
def floatPick (isMax : Bool) (f : Fmt) (a b : Nat) : Nat :=
  let (ef, n, w) := fmtElems f
  mapElems w n fun i => floatMinMax ef false isMax (elemAt w i a) (elemAt w i b)

/-- The format of an atomic's type. -/
def atomFmt : AtomTy → Fmt := Instr.sig.atomFmt

/-- Bytes of an atomic's type. -/
def atomBytes (t : AtomTy) : Nat := Instr.sig.atomWidth t / 8

end Sys2Proof.Machine
namespace Sys2Proof
open Machine

/-- The type is a float. -/
def AtomTy.isFloat : AtomTy → Bool
  | .f32 | .h2 | .bf2 => true
  | _ => false

end Sys2Proof
namespace Sys2Proof.Machine

/-- What one step stores (R213); none for a .cas that does not match. -/
def atomNew (op : AtomOp) (ty : AtomTy) (old c e : Nat) : Option Nat :=
  let f := atomFmt ty
  let w := fmtWidth f
  match op with
  | .add => some (if ty.isFloat then floatAdd f old c else (old + c) % 2 ^ w)
  | .min =>
    some (if ty.isFloat then floatPick false f old c else if intVal f old ≤ intVal f c then old else c)
  | .max =>
    some (if ty.isFloat then floatPick true f old c else if intVal f c ≤ intVal f old then old else c)
  | .and => some (old &&& c)
  | .or => some (old ||| c)
  | .xor => some (old ^^^ c)
  | .swap => some c
  | .cas => if old = e then some c else none
  | .inc => some (if old ≥ c then 0 else old + 1)

/-- Atomic steps on the bytes of a sector, in order: the bytes after them, and the old value each lane had. -/
def atomSteps (bytes : List Byte) (steps : List AtomStep) : List Byte × List (Nat × DWord) :=
  steps.foldl (fun a st =>
    let n := atomBytes st.ty
    let old := natOfBytes ((a.1.drop st.off).take n)
    let olds := a.2 ++ [(st.lane, BitVec.ofNat 64 old)]
    match atomNew st.op st.ty old st.c.toNat st.e.toNat with
    | some new => ((bytesFrom st.off (bytesOfNat n new)).foldl (fun b p => b.set p.1 p.2) a.1, olds)
    | none => (a.1, olds)) (bytes, [])

/-! ## Bytes that a copy in flight is to write (R58) -/

/-- A unit's destination takes in some of `n` bytes from an address of a virtual function's memory. -/
def Shadow.hitsVa (x : Shadow) (va n : Nat) : Bool :=
  match x.dst with
  | .global a => a < va + n && va < a + x.len
  | .pad .. => false

/-- The same for a team's scratchpad. -/
def Shadow.hitsPad (x : Shadow) (core team off n : Nat) : Bool :=
  match x.dst with
  | .pad k t a => k == core && t == team && a < off + n && off < a + x.len
  | .global _ => false

/-- Bytes of global memory that copies in flight of a virtual function are to write. An address is told by its virtual address: the
bytes under another mapping of the same page count as written when they are (log entry 64). -/
def State.shadowedVa (s : State) (vf va n : Nat) : Bool := s.residents.any fun p => p.2.vf == vf && p.2.shadow.any fun x => x.hitsVa va n

/-- Bytes of a team's scratchpad that copies in flight are to write. -/
def State.shadowed (s : State) (core team off n : Nat) : Bool := s.residents.any fun p => p.2.shadow.any fun x => x.hitsPad core team off n

/-! ## Executing a request -/

/-- Half-bytes merged into the bytes of a sector (R82). -/
def mergeNibbles (bytes : List Byte) (l : List (Nat × Bool × BitVec 4)) : List (Nat × Byte) :=
  let after := l.foldl (fun b p => b.set p.1 (setNibble (b.getD p.1 0) p.2.1 p.2.2)) bytes
  (l.map (·.1)).eraseDups.map fun o => (o, after.getD o 0)

/-- The write covers the whole sector in bytes: half-bytes never do (R35). -/
def wholeSector (bytes : List (Nat × Byte)) : Bool := (List.range 32).all fun o => bytes.any fun p => p.1 == o

/-- Bytes and half-bytes written at a home into one sector, at its place in the order: a listed or struck sector is cleared when all of
it is written (R35); a partial write of a struck one finds the error while it merges. -/
def State.writeSector (s : State) (h : HomeLoc) (sector : Nat) (bytes : List (Nat × Byte)) (halves : List (Nat × Bool × BitVec 4)) : State :=
  let s :=
    if wholeSector bytes then { s.clearLost h sector with flaws := s.flaws.filter (· != sector) }
    else if s.flaws.contains sector && !s.isLost h sector then s.loseSector h sector
    else s
  let all := bytes ++ mergeNibbles (s.valueAt h (sector * 32) 32) halves
  s.writeAt h (sector / 4) (all.map fun p => (sector * 32 + p.1, p.2))

/-- A request with its answer on its way back. -/
def Req.answer (q : Req) (t now : Nat) : Req := { q with done := true, time := t, hop := now }

/-- A weak read with the replicate hint may use a replica (R29): hint 0100, an unpinned line of a slice of another die. -/
def replicates (hint core : Nat) (pinned : Bool) : HomeLoc → Bool
  | .slice h => hint = 4 && !pinned && h / 64 ≠ core / 48
  | _ => false

/-- The replica of a line that a core's die may use (R29, R30). -/
def State.replicaAt (s : State) (vf core pa : Nat) : Option Replica :=
  (s.slice (replicaSlice core pa)).replicas.find? fun r =>
    r.vf == vf && r.line == pa / 128 && r.gen == ((s.vf? vf).map (·.repGen)).getD 0

/-- A replica that a request may use: it serves no sector that its home has listed as lost (R35). -/
def State.replica? (s : State) (q : Req) : Option Replica :=
  match q.kind with
  | .read _ => if replicates q.hint q.core q.pinned q.home && !s.isLost q.home q.sector then s.replicaAt q.vf q.core q.pa else none
  | _ => none

/-- Writes of a core to a line, issued before a name, that wait for the reads of their scatter (R211, R266). -/
def Core.unsent (c : Core) (home : HomeLoc) (line id : Nat) : Bool :=
  c.outs.any fun o => match o.finish with
    | .stores _ qs => qs.any fun p => p.id < id && p.home == home && p.line == line
    | _ => false

/-- A strong access or atomic of the same split, of an instruction before the one whose first name is `id`, has not returned: a
request, a scratchpad operation, or one that waits for its reads (R208). -/
def State.strongBefore (s : State) (owner : SplitRef) (id : Nat) : Bool :=
  let op := fun (o : ScratchOp) => o.strong && o.id < id && s.mine owner o.owner o.id
  s.reqs.any (fun p => p.strong && p.id < id && s.mine owner p.owner p.id) ||
    (s.core owner.core).sops.any op || (s.core owner.core).outs.any fun x => match x.finish with | .scratch _ ops => ops.any op | _ => false

/-- A core itself sends the request, and not an engine, a walker or another unit that works by requests of its own: those follow no order
of the core's stores (R69, R277). -/
def Req.ofCore (q : Req) : Bool :=
  match q.errand with
  | none | some (.push _) | some .log | some (.hinge _) | some .outside => q.va < 2 ^ 64
  | some (.word _) => q.va < 2 ^ 64
  | some (.get ..) | some (.put ..) | some (.join ..) | some (.cursor _) | some (.draw _) | some (.node ..) | some (.text ..)
  | some (.kernel ..) | some (.image _) => false

/-- A core has at most 4,096 requests on their way, the first of those it has to send (R13). -/
def State.sent (s : State) (q : Req) : Bool :=
  192 ≤ q.core || ((s.reqs.filter fun p => p.core == q.core).take 4096).any fun p => p.id == q.id

/-- The request may take its place in its line's order (R208, R265, R266): names rise in the order of issue, and one instruction's
requests have none among themselves (R81, R214). -/
def State.enters (s : State) (q : Req) : Bool :=
  s.time ≥ q.hop + q.trip && s.sent q && !(q.ofCore && (s.core q.core).unsent q.home q.line q.id) &&
    !(q.ofCore && s.reqs.any fun p => p.ofCore && p.id < q.batch && p.core == q.core && p.home == q.home && p.line == q.line &&
        p.arrived.isNone && !p.done) &&
    !(q.strong && s.strongBefore q.owner q.batch)

/-- A step that holds a place in its line's order, and an access of the step itself, which stands at that place (R231, R232): an item may lie
in the line of its header. -/
def Req.holdsFor (p q : Req) : Bool := p.kind == .hold && p.errand.isSome && p.errand == q.errand

/-- Its place in the line's order: that of the step it is a part of, where that holds the line. -/
def State.placeOf (s : State) (q : Req) : Option Nat :=
  match s.reqs.find? fun p => p.holdsFor q && p.id != q.id && p.home == q.home && p.line == q.line && p.arrived.isSome && !p.done with
  | some p => p.arrived
  | none => q.arrived

/-- It is first in its line's order (R31). -/
def State.atHead (s : State) (q : Req) : Bool :=
  !(s.reqs.any fun p => p.home == q.home && p.line == q.line && !p.done && !p.holdsFor q &&
      (match p.arrived, s.placeOf q with | some a, some b => a < b | _, _ => false))

/-- Requests that have arrived and are not done stand in the line's order (R31). -/
def State.lineTaken (s : State) (h : HomeLoc) (line : Nat) : Bool :=
  s.reqs.any fun q => q.home == h && q.line == line && q.arrived.isSome && !q.done

/-- The home sends a copy of the line to the replica slice (R29). -/
def State.sendReplica (s : State) (vf core pa hint : Nat) (pinned : Bool) (home : HomeLoc) : State :=
  if replicates hint core pinned home then
    let r : Replica := { vf := vf, gen := ((s.vf? vf).map (·.repGen)).getD 0, line := pa / 128,
                         data := s.valueAt home (pa / 128 * 128) 128 }
    let i := s.takeId
    { i.2 with replicaMsgs := i.2.replicaMsgs ++ [{ id := i.1, slice := replicaSlice core pa, replica := r, hop := s.time }] }
  else s

/-! ## Lines of slices (R14, R26) -/

/-- The set of a slice that a line falls in. -/
def setOf (line : Nat) : Nat := Config.setOf line % 1024

/-- The lines a slice holds of one set. -/
def HomeStore.inSet (h : HomeStore) (set : Nat) : List Line := h.lines.filter fun l => setOf l.line == set

/-- The most lines of a pinned window (R27). Where several virtual functions share the core, their windows make one store of the sum of
their sizes (DESIGN CHOICE, log entry 62: the spec does not say how windows of several functions share a core). -/
def State.capacity (s : State) (k : Nat) : Nat :=
  ((s.vfs.filter fun v => v.cfg.cores.contains k).map (·.cfg.pinnedKiB)).foldl (· + ·) 0 * 8

/-- There is room for one more line: a set has 16 ways, of which pinned lines take at most 8 (R26). -/
def State.roomFor (s : State) (h : HomeLoc) (line : Nat) (pinned : Bool) : Bool :=
  match h with
  | .window k => (s.core k).window.lines.length < s.capacity k
  | _ =>
    let l := (s.store h).inSet (setOf line)
    l.length < 16 && (!pinned || (l.filter (·.pinned)).length < 8)

/-- Replicas of a set give way to its lines: the ones installed last stay while there are ways left. -/
def Slice.trim (c : Slice) (set : Nat) : Slice :=
  let ways := 16 - (c.store.inSet set).length
  { c with replicas := (c.replicas.filter fun r => setOf r.line != set) ++ lastOf ways (c.replicas.filter fun r => setOf r.line == set) }

/-- A line installed. -/
def State.install (s : State) (h : HomeLoc) (l : Line) : State :=
  let s := s.modStore h fun x =>
    { x with lines := x.lines.filter (fun y => y.line != l.line) ++ [l], fills := x.fills.filter fun y => y.line != l.line }
  match h with
  | .slice n => s.modSlice n fun c => c.trim (setOf l.line)
  | _ => s

/-! ## Executing a request at its place -/

/-- The 64-bit operations (R47). -/
def hlNew (op : HlOp) (old x cmp : Nat) : Option Nat :=
  match op with
  | .add => some ((old + x) % 2 ^ 64)
  | .and => some (old &&& x)
  | .or => some (old ||| x)
  | .xor => some (old.xor x)
  | .swap => some x
  | .cas => if old = cmp then some x else none
  | .min => some (if signedOf x 64 < signedOf old 64 then x else old)
  | .max => some (if signedOf old 64 < signedOf x 64 then x else old)
  | .minu => some (min old x)
  | .maxu => some (max old x)

/-- A request done, changed by `f`, its line used. -/
def State.answered (s : State) (q : Req) (f : Req → Req) : State :=
  (s.useLine q.home q.line).modReq q.id fun x => f (x.answer (s.homeTime q.home) s.time)

/-- The access that needed lost data fails (R35 item 1). -/
def State.fails (s : State) (q : Req) : State :=
  (if s.isLost q.home q.sector then s else s.loseSector q.home q.sector).answered q fun x => { x with failed := some .memoryError }

/-- A fill that a line operation causes: no MISS (R39). -/
def State.hingeFill (s : State) (q : Req) : State := (s.startFill q.home q.fill).1

/-- hl.install may write its line (R47, R324): no fill of it is in flight, and there is room. -/
def State.mayInstall (s : State) (q : Req) : Bool :=
  !q.home.allocates || !((s.store q.home).fills.any fun y => y.line == q.line) && (((s.store q.home).line? q.line).isSome || s.roomFor q.home q.line q.pinned)

/-- hl.install's effect (R47): the whole line, with no read of DRAM and no trigger; its listed sectors are cleared (R35). A line of home 11,
which the slice does not allocate (R28), is written in DRAM. -/
def State.hingeInstall (s : State) (q : Req) (data : List Byte) : State :=
  let own := fun (x : Nat) => x / 4 == q.line
  let s := (List.range 4).foldl (fun s i => s.clearLost q.home (4 * q.line + i)) { s with flaws := s.flaws.filter fun x => !own x }
  if !q.home.allocates then s.writeAt q.home q.line (bytesFrom (q.line * 128) data)
  else s.install q.home { line := q.line, data := data, dirty := true, pinned := q.pinned, vtag := tagOf true q.vf q.va, used := s.fresh }

/-- Bytes read at a virtual address: those that a copy in flight is to write are undefined (R58), each a free value told apart by `n`. -/
def State.veil (s : State) (vf va n : Nat) (bytes : List Byte) : List Byte :=
  ((List.range bytes.length).zip bytes).map fun p => if s.shadowedVa vf (va + p.1) 1 then BitVec.ofNat 8 (s.draw 9 (64 + 32 * n + p.1)) else p.2

/-- What a read finds in a sector (R58). -/
def State.sectorFor (s : State) (q : Req) : List Byte :=
  let b := s.valueAt q.home q.pa 32
  if q.errand == some .log then b else s.veil q.vf (q.va / 32 * 32) 0 b

/-- A line operation at its place in the order (R31, R46, R47). -/
def State.executeLine (s : State) (q : Req) (op : LineOp) : State :=
  let at_ := q.pa + q.va % 32
  match op with
  | .pref _ =>
    if s.present q.home q.line then s.answered q id else (s.hingeFill q).modReq q.id fun x => x.answer (s.homeTime q.home) s.time
  | .install data => if s.leasesOver q.home q.line && s.mayInstall q then (s.hingeInstall q data).answered q id else s
  | .load =>
    if s.bad q.home q.sector then s.fails q
    else if !s.present q.home q.line then s.hingeFill q
    else s.answered q fun x => { x with data := s.sectorFor q }
  | .store v =>
    if !s.present q.home q.line then s.hingeFill q
    else if !s.leasesOver q.home q.line then s
    else (s.writeSector q.home q.sector (bytesFrom (q.va % 32) (bytesOfNat 8 v)) []).answered q id
  | .atomic op x cmp =>
    if s.bad q.home q.sector then s.fails q
    else if !s.present q.home q.line then s.hingeFill q
    else if !s.leasesOver q.home q.line then s
    else
      let old := natOfBytes (((s.sectorFor q).drop (q.va % 32)).take 8)
      let s := match hlNew op old x cmp with
        | some n => s.writeAt q.home q.line (bytesFrom at_ (bytesOfNat 8 n))
        | none => s
      s.answered q fun y => { y with olds := [(0, BitVec.ofNat 64 old)] }

/-- The request executes at its home, first in its line's order. -/
def State.execute (s : State) (q : Req) : State :=
  match q.kind with
  | .read lease =>
    if s.bad q.home q.sector then s.fails q
    else
      let grants := lease && (match q.home with | .slice _ => true | _ => false)
      let t := s.homeTime q.home + ((s.vf? q.vf).map (·.cfg.lease)).getD 0
      let s := if grants then s.grantLease q.home q.line t else s
      let s := s.sendReplica q.vf q.core q.pa q.hint q.pinned q.home
      s.answered q fun x => { x with data := s.sectorFor q, expiry := if grants then some t else none }
  | .strongRead => if s.bad q.home q.sector then s.fails q else s.answered q fun x => { x with data := s.sectorFor q }
  | .pref => s.answered q id
  | .write bytes nibbles =>
    if !s.leasesOver q.home q.line then s else (s.writeSector q.home q.sector bytes nibbles).answered q id
  | .atomic steps =>
    if !s.leasesOver q.home q.line then s
    else if s.bad q.home q.sector then s.fails q
    else
      let r := atomSteps (s.sectorFor q) steps
      let stored := (bytesFrom q.pa r.1).filter fun p =>
        steps.any fun x => q.pa + x.off ≤ p.1 && p.1 < q.pa + x.off + atomBytes x.ty
      (s.writeAt q.home q.line stored).answered q fun x => { x with olds := r.2 }
  | .line op => s.executeLine q op
  | .hold => s

/-- A request at the head of its line's order: a line operation, a step that its own event makes, an access whose line is present, or one
that misses. -/
def State.executeAt (s : State) (q : Req) : State :=
  let s := if s.present q.home q.line && q.kind.needsLine then s.countRead q.home q.pa else s
  match q.kind with
  | .line op => s.executeLine q op
  | _ => if s.present q.home q.line then s.execute q else s.miss q

/-- A replica serves a read, and grants a lease to one that asks (R29, R75). -/
def State.serveReplica (s : State) (q : Req) (r : Replica) : State :=
  let t := s.sliceTime (replicaSlice q.core q.pa)
  let lease := match q.kind with | .read true => some (t + ((s.vf? q.vf).map (·.cfg.lease)).getD 0) | _ => none
  let data := s.veil q.vf (q.va / 32 * 32) 0 ((r.data.drop (q.pa % 128)).take 32)
  s.modReq q.id fun q => { q.answer t s.time with data := data, expiry := lease, repl := true }

/-- A request takes its place in its line's order. -/
def State.arrive (s : State) (q : Req) : State :=
  let i := s.takeId
  i.2.modReq q.id fun q => { q with arrived := some i.1 }

/-- A request served as far as it can be: by a replica, or at its place in its line's order at the home, after a fill where the line
is absent. -/
def State.serve (s : State) (id : Nat) : State :=
  match s.req? id with
  | none => s
  | some q =>
    if q.done || (match q.home with | .remote _ => true | _ => false) then s
    else if q.arrived.isSome then (if s.atHead q then s.executeAt q else s)
    else if !s.enters q then s
    else
      match (if s.drawBool 9 0 then s.replica? q else none) with
      | some r => s.serveReplica q r
      | none =>
        let s := (s.arrive q).joinFill q
        match s.req? id with
        | none => s
        | some q => if s.atHead q then s.executeAt q else s

/-- What each of the home's events serves. -/
def ReqKind.weakRead : ReqKind → Bool
  | .read _ | .pref => true
  | _ => false

def ReqKind.isAtomic : ReqKind → Bool
  | .atomic _ | .line (.atomic ..) => true
  | _ => false

def ReqKind.isLine : ReqKind → Bool
  | .line _ => true
  | _ => false

/-- One of a home's events: the named request, where it is of that kind. `err` tells whether an uncorrectable error strikes its
sector. -/
def State.serveIf (s : State) (id : Nat) (err : Bool) (p : Req → Bool) : State :=
  match s.req? id with
  | none => s
  | some q => if p q then (if err then s.strike q.sector else s).serve id else s

/-- HOME_READ (R75). -/
def execHomeRead (req : Nat) (err : Bool) (s : State) : Answered :=
  .next (s.serveIf req err fun q => q.kind.weakRead).bump

/-- HOME_WRITE (R76): a weak store or scatter sector, a write of an engine. -/
def execHomeWrite (req : Nat) (err : Bool) (s : State) : Answered :=
  .next (s.serveIf req err fun q => !q.strong && q.kind.writes && !q.kind.isLine && !q.kind.isAtomic).bump

/-- HOME_STRONG_ACCESS (R31): a strong load or store, a line operation of a handler. -/
def execHomeStrongAccess (req : Nat) (err : Bool) (s : State) : Answered :=
  .next (s.serveIf req err fun q => (q.strong || q.kind == .strongRead || q.kind.isLine) && !q.kind.isAtomic).bump

/-- HOME_ATOMIC (R31, R214). -/
def execHomeAtomic (req : Nat) (err : Bool) (s : State) : Answered := .next (s.serveIf req err fun q => q.kind.isAtomic).bump

/-! ## Lines come and go (R26, R39, R40) -/

/-- The requests that wait for a line at its home, in its order. -/
def State.waiting (s : State) (h : HomeLoc) (line : Nat) : List Nat :=
  let l := s.reqs.filter fun q => q.home == h && q.line == line && !q.done && q.arrived.isSome
  (l.mergeSort fun a b => a.arrived.getD 0 ≤ b.arrived.getD 0).map (·.id)

/-- A request that waits makes what it asks for straight from DRAM, where it is first in its order. -/
def State.bypass (s : State) (id : Nat) : State :=
  match s.req? id with
  | some q => if s.atHead q then (s.countRead q.home q.pa).execute q else s
  | none => s

/-- A fill completes (R39): the line is installed, the waiting requests are answered, and a FILL is raised where a merged request raises one (R324). A
fill that finds an uncorrectable sector installs nothing; the waiting accesses that need the sector fail, and the others are answered
(R35). -/
def State.fillDone (s : State) (h : HomeLoc) (line : Nat) (err : Bool) : State :=
  match (s.store h).fills.find? fun f => f.line == line with
  | none => s
  | some f =>
    let s := if err then s.strike (line * 4 + s.draw 8 40 % 4) else s
    let bad := ((List.range 4).map (line * 4 + ·)).filter fun x => s.flaws.contains x && !s.isLost h x
    if !bad.isEmpty then
      let s := s.modStore h fun x => { x with fills := x.fills.filter fun y => y.line != line }
      (s.waiting h line).foldl State.bypass (bad.foldl (fun s x => s.loseSector h x) s)
    else if !s.roomFor h line f.pinned then s
    else
      let s := s.countChannel (line * 128)
      let s := s.install h { line := line, data := s.dram.readBytes (line * 128) 128, dirty := false, pinned := f.pinned, vtag := f.vtag,
                             used := s.fresh }
      let s := (s.waiting h line).foldl State.serve s
      match f.vtag with
      | some (vf, va) => if f.raises then s.trigger h vf .fill va f.depth none else s
      | none => s

/-- LINE_FILL (R39). -/
def execLineFill (home : HomeLoc) (line : Nat) (err : Bool) (s : State) : Answered :=
  .next (s.fillDone home line err).bump

/-- A line may be chosen for eviction: any unpinned one; a pinned one where a pinned fill waits for its set, which holds 8, and it is the
least recently used of them (R26). -/
def State.evictable (s : State) (h : HomeLoc) (l : Line) : Bool :=
  let set := setOf l.line
  let its := ((s.store h).inSet set).filter (·.pinned)
  !l.pinned || (its.length ≥ 8 && ((s.store h).fills.any fun f => f.pinned && setOf f.line == set) && its.all fun x => l.used ≤ x.used)

/-- A line leaves its home: written back when it is newer than DRAM, with an EVICT for a handler-visible page (R39, R40). The virtual tag
is the one its fill gave: a page that has lost its HV bit or its mapping since still raises the EVICT (DESIGN CHOICE, log entry 63:
R44 does not say). -/
def State.evict (s : State) (h : HomeLoc) (line : Nat) : State :=
  match (s.store h).line? line with
  | none => s
  | some l =>
    if !s.evictable h l then s
    else
      let s := s.modStore h fun x => { x with lines := x.lines.filter fun y => y.line != line }
      let s := if l.dirty then { s with dram := s.dram.writeBytes (line * 128) l.data } else s
      match l.vtag with
      | some (vf, va) => s.trigger h vf .evict va 0 (some l.data)
      | none => s

/-- The replicas of a line leave a slice: no EVICT (R39). -/
def State.dropReplicas (s : State) (h : HomeLoc) (line : Nat) : State :=
  match h with
  | .slice n => s.modSlice n fun c => { c with replicas := c.replicas.filter fun r => r.line != line }
  | _ => s

/-- LINE_EVICT (R26, R39): a line that the home holds, or else replicas of a line in a slice. -/
def execLineEvict (home : HomeLoc) (line : Nat) (s : State) : Answered :=
  .next (if ((s.store home).line? line).isSome then s.evict home line else s.dropReplicas home line).bump

/-- REPLICA_INSTALL (R29, R30): the replica keeps the generation it was sent with; it takes a way of its set (R14). -/
def execReplicaInstall (id : Nat) (s : State) : Answered :=
  match s.replicaMsgs.find? fun m => m.id == id with
  | none => .next s.bump
  | some m =>
    if s.time < m.hop + 3 then .next s.bump
    else
      let s := { s with replicaMsgs := s.replicaMsgs.filter fun x => x.id != id }
      .next (s.modSlice m.slice fun c =>
        ({ c with replicas := c.replicas.filter (fun (r : Replica) => !(r.vf == m.replica.vf && r.line == m.replica.line)) ++ [m.replica] } : Slice).trim
          (setOf m.replica.line)).bump

end Sys2Proof.Machine
end

