-- ==== Sys2Proof/Machine/Access.lean ====
section
/-!
DEFINITION. What loads, stores, gathers, atomics and fences share (12 R204 to R214): effective addresses and their checks, scratchpad
addresses (05 R80), sending requests to homes and operations to scratchpads, L1 hits (R75), what a returned part does, and how an
outstanding result is completed (09 R145).
-/
namespace Sys2Proof.Machine

/-! ## Effective addresses (R204) -/

def Scale.factor : Scale → Nat
  | .x1 => 1
  | .x2 => 2
  | .x4 => 4
  | .x8 => 8
  | .x16 => 16

/-- Read(B, l, I32)·Scale + Sext(DISP). -/
def Ctx.offset (c : Ctx) (sc : Scale) (disp : Int) (l : Nat) : Int :=
  signedOf (c.field c.o.b false true l) 32 * (Scale.factor sc : Int) + disp

/-- Bytes of one element in memory; E2M1 is half a byte and takes one (R204). -/
def elemSize (f : Fmt) : Nat := max ((fmtWidth f + 7) / 8) 1

/-- The byte offset and the half of an element at an offset: E2M1 counts half-bytes. -/
def bytePart (f : Fmt) (o : Int) : Int × Bool := if f == .e2m1 then (o / 2, o % 2 == 1) else (o, false)

/-- One lane's element of an access to memory: its address, its translation, which half of the byte. -/
structure Elem where
  lane : Nat
  va : Nat
  x : Xlated
  high : Bool
deriving DecidableEq, Repr

/-- Why a lane's access cannot be made: a fault, or a page-table entry that has yet to be read. -/
structure LaneFault where
  lane : Nat
  va : Nat
  kind : Miss
deriving DecidableEq, Repr

/-- The state with what the instruction has read for itself: at issue nothing, what an earlier one read being forgotten. -/
def Ctx.own (c : Ctx) : State := if c.acting then c.s else c.s.forget c.r.core (.word c.r)

/-- What the instruction has read for itself. -/
def Ctx.answers (c : Ctx) : Fetch := (c.own.core c.r.core).answers (.word c.r)

/-- Translation for an instruction of a split (R69): through its core's TLB, or a walk. -/
def Ctx.translate (c : Ctx) (va : Nat) (need : Need) : Except Miss Xlated :=
  c.s.translate (c.s.core c.r.core).tlb c.answers c.v.cfg va need

/-- A sector read by its physical address for an instruction, whose issue it holds. -/
def Ctx.askPhys (c : Ctx) (pa : Nat) : Act :=
  match c.own.askPhys c.r.core c.team.vf c.team.grid c.r (.word c.r) [pa] with
  | some s => c.heldAsking s
  | none => c.held

/-- One lane's check against a base register (R74): aligned, then through the frame or the TLB. -/
def Ctx.atBase (c : Ctx) (b : BaseReg) (o : Int) (high : Bool) (n : Nat) (need : Need) (lane : Nat) : Except LaneFault Elem :=
  let va := wrapTo (b.vbase.toNat + o) 64
  let wrong := fun k => Except.error { lane := lane, va := va, kind := k }
  if va % n ≠ 0 then wrong (.fault .access)
  else
    let r := match b.page with
      | some p =>
        if 0 ≤ o && o + n ≤ b.limit then (c.s.onPage c.v.cfg p va need).mapError Miss.fault else c.translate va need
      | none => c.translate va need
    match r with
    | .error k => wrong k
    | .ok x => .ok { lane := lane, va := va, x := x, high := high }

/-- One lane's check of a 64-bit address of its own (R211). -/
def Ctx.atAddr (c : Ctx) (va n : Nat) (need : Need) (lane : Nat) : Except LaneFault Elem :=
  let wrong := fun k => Except.error { lane := lane, va := va, kind := k }
  if va % n ≠ 0 then wrong (.fault .access)
  else
    match c.translate va need with
    | .error k => wrong k
    | .ok x => .ok { lane := lane, va := va, x := x, high := false }

/-- A place in a team's scratchpad. -/
structure Place where
  lane : Nat
  core : Nat
  team : Nat
  off : Nat
  high : Bool
deriving DecidableEq, Repr

/-- A scratchpad address (R80): its team, and an offset within the allocation. -/
def Ctx.scratchAt (c : Ctx) (a n : Nat) : Except FaultKind (Nat × Nat × Nat) :=
  let off := a % 2 ^ 20
  let sel := a / 2 ^ 20 % 16
  if a ≥ 2 ^ 24 || off + n > c.team.kernel.scratch then .error .access
  else if sel = 15 then .ok (c.r.core, c.r.team, off)
  else
    match (c.s.cluster c.team.grid c.team.clu).find? fun p => p.2.rank == sel with
    | some p => if sel < 12 then .ok (p.1, p.2.id, off) else .error .access
    | none => .error .access

/-- The scratchpad address of an addressing form (R204): immediate 0 means 0x00F0_0000. -/
def Ctx.scratchBase (c : Ctx) (l : Nat) : Nat :=
  match c.o.a with
  | .imm _ => 0x00F00000
  | f => c.field f false false l

/-- One lane's check of a scratchpad element. -/
def Ctx.atScratch (c : Ctx) (sc : Scale) (disp : Int) (f : Fmt) (n lane : Nat) : Except LaneFault Place :=
  let bp := bytePart f (c.offset sc disp lane)
  let a := wrapTo ((c.scratchBase lane : Int) + bp.1) 32
  let wrong := fun k => Except.error { lane := lane, va := a, kind := .fault k }
  if a % n ≠ 0 then wrong .access
  else
    match c.scratchAt a n with
    | .error k => wrong k
    | .ok (k, t, off) => .ok { lane := lane, core := k, team := t, off := off, high := bp.2 }

/-- Every lane's check, or the first failure of the lowest failing lane (R8). -/
def checkLanes {α : Type} (f : Nat → Except LaneFault α) : List Nat → Except LaneFault (List α)
  | [] => .ok []
  | l :: r =>
    match f l with
    | .error e => .error e
    | .ok x =>
      match checkLanes f r with
      | .error e => .error e
      | .ok xs => .ok (x :: xs)

/-- The fault of a lane (R8, R282), `once` when the instruction acts once for the group, and the fault is uniform; or the read of a
page-table entry that the lane's access waits for. -/
def Ctx.lane (c : Ctx) (e : LaneFault) (once : Bool) (acc : Nat) : Act :=
  match e.kind with
  | .fault k => .fault k e.va (if once then none else some e.lane) acc
  | .walk pa => c.askPhys pa

/-! ## L1 and the dirty log at issue -/

/-- The ways of an L1 set: 2,048 lines in sets of a power of two that the spec does not give (log entry 58). -/
def l1Ways : Nat := 2 ^ min Config.l1WayBits 11

/-- The L1 set of a sector's line. -/
def l1Set (sector : Nat) : Nat := Config.l1Set (sector / 4) % (2048 / l1Ways)

/-- An L1 sector that a weak load hits (R75, R78): never with hint 0011; a sector that a replica gave only with hint 0100 (R274). -/
def Core.l1Hit (c : Core) (now sector hint : Nat) : Option L1Sector :=
  if hint = 3 then none
  else c.l1.find? fun x => x.sector == sector && now + 2 ≤ x.expiry && x.gen == c.gen && (!x.repl || hint == 4)

/-- The line that makes room in an L1 set (R78), `l` being ordered from the least to the most recently used: the first that is no
keep line, else the first. -/
def l1Victim (l : List L1Sector) (set : Nat) : Option Nat :=
  let its := l.filter fun x => l1Set x.sector == set
  let keep := fun (line : Nat) => its.any fun x => x.sector / 4 == line && x.keep
  let lines := (its.map (·.sector / 4)).eraseDups
  (lines.find? fun n => !keep n).orElse fun _ => lines.head?

/-- A sector put into the L1 (R78): its line becomes the most recently used one of its set, or the next victim. Where its set is full,
one line makes room. -/
def Core.fillSector (c : Core) (x : L1Sector) (hint : Nat) : Core :=
  let line := x.sector / 4
  let mine := c.l1.filter fun y => y.sector / 4 == line && y.sector != x.sector
  let rest := c.l1.filter fun y => y.sector / 4 != line
  let full := ((rest.filter fun y => l1Set y.sector == l1Set x.sector).map (·.sector / 4)).eraseDups.length ≥ l1Ways
  let rest := match (if full then l1Victim rest (l1Set x.sector) else none) with
    | some n => rest.filter fun y => y.sector / 4 != n
    | none => rest
  { c with l1 := if hint = 1 then mine ++ [x] ++ rest else rest ++ mine ++ [x] }

/-- A line that is hit becomes the most recently used, but for a stream load. -/
def Core.touchL1 (c : Core) (hint : Nat) (sectors : List Nat) : Core :=
  if hint = 1 || sectors.isEmpty then c
  else
    let hit := fun (x : L1Sector) => sectors.any fun n => n / 4 == x.sector / 4
    { c with l1 := (c.l1.filter fun x => !hit x) ++ c.l1.filter hit }

/-! ## Sending (R207, R208) -/

/-- The instruction acts once for the group (R206, R213, R215), and what fails is uniform. -/
def Ctx.once (c : Ctx) : Bool :=
  match c.i with
  | .ldu .. | .stu .. | .atomu .. => true
  | _ => c.i.sig.once

/-- A request of the split for one sector. -/
def Ctx.reqOf (c : Ctx) (id : Nat) (e : Elem) (kind : ReqKind) (strong : Bool) (hint : Nat) (out : Option Nat) : Req :=
  { id := id, batch := id, core := c.r.core, vf := c.team.vf, grid := c.team.grid, owner := c.r, home := e.x.home, sector := e.x.pa / 32,
    page := e.x.va, size := e.x.page.size, hv := e.x.page.hv, pinned := e.x.page.home == 1, va := e.va,
    lane := if c.once then none else some e.lane, pc := c.split.pc, kind := kind, errand := none, strong := strong, hint := hint, out := out,
    arrived := none, done := false, data := [], olds := [], time := 0, expiry := none, noInstall := false, repl := false, failed := none,
    hop := c.s.time, trip := 3 }

/-- Sector requests take the memory port of a split's partition for a tick each (R190, R254); `first` is one where its instruction's
pick in this tick has taken the first. -/
def State.usePort (s : State) (r : SplitRef) (n first : Nat) : State :=
  match s.group? r with
  | none => s
  | some g => if n ≤ first then s else s.modCore r.core fun c => c.modPart g.part fun p => { p with memBusy := p.memBusy + (n - first) }

/-- The port for the sector requests of this instruction. -/
def Ctx.port (c : Ctx) (n : Nat) (s : State) : State := s.usePort c.r n (if c.acting then 0 else 1)

/-- The elements by sector, in the order of their first lanes (R81). -/
def bySector (es : List Elem) : List (List Elem) :=
  let key := fun (e : Elem) => (e.x.home, e.x.pa / 32)
  (es.map key).eraseDups.map fun k => es.filter fun e => key e == k

/-- Requests of one instruction or asking join those under way; one that writes drops the core's copy. -/
def State.sendAll (s : State) (qs : List Req) : State :=
  qs.foldl (fun s q =>
    let s := if q.kind.writes then s.dropL1 q.core [q.sector] else s
    { s with reqs := s.reqs ++ [{ q with batch := (qs.headD q).id, hop := s.time }] }) s

/-- Requests whose data mapped sources deliver are sent later (R113). -/
def State.delay (s : State) (qs : List Req) (n : Nat) : State :=
  if n = 0 then s
  else { s with reqs := updateIf (fun (p : Req) => qs.any fun q => q.id == p.id) (fun (p : Req) => { p with hop := p.hop + n }) s.reqs }

/-- Sections of a scratchpad (R79). -/
def sectionOf (off : Nat) : Nat := off / 128 % 16

/-- The places by team and section. -/
def bySection (ps : List Place) : List (List Place) :=
  let key := fun (p : Place) => (p.team, sectionOf p.off)
  (ps.map key).eraseDups.map fun k => ps.filter fun p => key p == k

/-- The places by team and 32-byte sector (R214). -/
def byScratchSector (ps : List Place) : List (List Place) :=
  let key := fun (p : Place) => (p.team, p.off / 32)
  (ps.map key).eraseDups.map fun k => ps.filter fun p => key p == k

/-- Distinct words that the busiest bank of a section gives for an access of n bytes at each place (R79): the ticks it takes. Allocations
begin at row 0 (log entry 23). -/
def bankTicks (ps : List Place) (n : Nat) : Nat :=
  let words := (ps.flatMap fun (p : Place) => (List.range ((p.off + n - 1) / 4 + 1 - p.off / 4)).map fun i => (p.team, p.off / 4 + i)).eraseDups
  let bank := fun (w : Nat × Nat) => (w.1, w.2 % 512)
  words.foldl (fun m w => max m (words.filter fun x => bank x == bank w).length) 0

/-- A scratchpad operation of the split on one section, for an access of n bytes at each place. One on another team's scratchpad is strong
(R80) and crosses the mesh (R265). -/
def Ctx.opOf (c : Ctx) (id : Nat) (ps : List Place) (n : Nat) (atomic : Bool) (out : Option Nat) : ScratchOp :=
  let p := ps.headD { lane := 0, core := c.r.core, team := c.r.team, off := 0, high := false }
  let away := p.core != c.r.core || p.team != c.r.team
  { id := id, batch := id, owner := c.r, core := p.core, team := p.team, sect := sectionOf p.off, strong := atomic || away,
    ready := c.s.time + (if away then 3 else 0), ticks := bankTicks ps n, remote := away, answer := none, reads := [], bytes := [],
    nibbles := [], steps := [], out := out }

/-- Operations of one instruction join those of the issuing core. -/
def State.addOps (s : State) (k : Nat) (ops : List ScratchOp) : State :=
  s.modCore k fun c => { c with sops := c.sops ++ ops.map fun o => { o with batch := (ops.headD o).id } }

/-- Number a list from a fresh name up. -/
def State.takeIds (s : State) (n : Nat) : Nat × State := (s.nextId, { s with nextId := s.nextId + n })

/-! ## Completing a result (R145, R207, R211) -/

/-- The bytes of one lane's element in the parts that have come. -/
def Out.element (o : Out) (n : Nat) (x : Slot) : Nat :=
  natOfBytes (((getKey [] o.parts x.part).drop x.off).take n)

/-- Memory bits of a lane's element in a format; E2M1 takes its half-byte. -/
def Out.bits (o : Out) (f : Fmt) (x : Slot) : Nat :=
  let b := o.element (elemSize f) x
  if f == .e2m1 then (if x.high then b / 16 else b % 16) else b

/-- The slot of a lane. -/
def Out.slot? (o : Out) (l : Nat) : Option Slot := o.slots.find? fun x => x.lane == l

/-- The slots in the order of their lanes: the higher lane's byte is written last (R81). -/
def Out.byLane (o : Out) : List Slot := lanes.flatMap fun l => o.slots.filter fun x => x.lane == l

/-- The bytes each lane brings for a place of its own, in lane order, those that fall within `size` bytes from `base`. -/
def Out.carried (o : Out) (len base size : Nat) : List (Nat × Byte) :=
  o.byLane.flatMap fun x =>
    if base ≤ x.dst && x.dst < base + size then bytesFrom (x.dst - base) (bytesOfNat len (o.element len x)) else []

/-- The scratchpad sectors that operations write for a result's lanes: each takes the memory port (R81, R190). -/
def Out.scratchSectors (o : Out) (ops : List ScratchOp) : Nat :=
  (ops.flatMap fun q => (o.slots.filter fun x => q.reads.contains x.lane).map fun x => (q.team, x.dst / 32)).eraseDups.length

/-- A result leaves those outstanding. -/
def State.dropOut (s : State) (k id : Nat) : State := s.modCore k fun c => { c with outs := c.outs.filter fun o => o.id != id }

/-- Registers written by a result that has come, but for those a hazard of the run has made undefined (R145), and uniform ones that an
instruction issued later has written (R84). The old values of an atomic come even where its split has ended (R197). -/
def State.putResult (s : State) (o : Out) (d : Operand) (n : Nat) (f : Nat → Nat) : State :=
  if (s.split? o.owner).any fun p => o.writes.any p.poison.contains then s
  else s.modGroup o.owner fun g => o.overtaken.foldl (Group.restore g) (g.put o.owner.split o.mask d n f)

/-- Of two faults that a split is to take, the one it takes: that of the earlier instruction, and of one instruction that of the lowest lane
(R282, R283). -/
def FaultRec.first (g f : FaultRec) : FaultRec :=
  if g.pc < f.pc || (g.pc == f.pc && g.lane.getD 0 ≤ f.lane.getD 0) then g else f

/-- A fault that a split takes at its run end (R283). -/
def State.defer (s : State) (r : SplitRef) (f : FaultRec) : State :=
  s.modSplit r fun p => { p with deferred := some (match p.deferred with | some g => g.first f | none => f) }

/-- A result that was lost (R35, R283): no register is written, and the fault is taken at the run end. -/
def State.loseResult (s : State) (o : Out) (k : FaultKind) (lane : Option Nat) (va : Nat) : State :=
  s.defer o.owner { kind := k, addr := va, lane := lane, pc := o.pc, acc := 0 }

/-- A split held by an .acq goes on once the result has come (R208). -/
def State.freeAcquire (s : State) (o : Out) : State :=
  s.modSplit o.owner fun p => if p.park = .acquire o.id then { p with park := .none } else p

/-- Every part of a result has come: registers, scratchpad bytes or stores follow. A sparse tile waits for its own step (R134). -/
def State.complete (s : State) (k : Nat) (o : Out) : State :=
  let s := match o.finish, o.err with
    | .tile .., none => s
    | _, _ => s.freeAcquire o
  match o.err with
  | some (kd, lane, va) => ((s.dropOut k o.id).loseResult o kd lane va).settleGroup o.owner
  | none =>
    match o.finish with
    | .none => (s.dropOut k o.id).settleGroup o.owner
    | .regs d f =>
      let v := fun l => match o.slot? l with | some x => widen f (o.bits f x) | none => 0
      ((s.dropOut k o.id).putResult o d (regsFor (fmtWidth f)) v).settleGroup o.owner
    | .olds d wide =>
      let v := fun l => ((o.olds.find? fun p => p.1 == l).map fun p => p.2.toNat).getD 0
      ((s.dropOut k o.id).putResult o d (if wide then 2 else 1) v).settleGroup o.owner
    | .scratch len ops =>
      let fill := fun (q : ScratchOp) =>
        { q with bytes := (o.byLane.filter fun x => q.reads.contains x.lane).flatMap fun x =>
                   bytesFrom x.dst (bytesOfNat len (o.element len x)),
                 reads := [], ready := s.time + (if q.remote then 3 else 0) }
      let s := s.modCore k fun c =>
        { c with outs := updateIf (fun x => x.id == o.id) (fun x => { x with finish := .none, waiting := ops.map (·.id) }) c.outs }
      (s.usePort o.owner (o.scratchSectors ops) 0).addOps k (ops.map fill)
    | .stores len qs =>
      let s := (s.dropOut k o.id).usePort o.owner qs.length 0
      s.sendAll (qs.map fun q => { q with kind := .write (o.carried len (q.sector * 32) 32) [] })
    | .tile .. => s

/-- A result is registered as outstanding, or completed at once where nothing is to come. -/
def State.register (s : State) (k : Nat) (o : Out) : State :=
  let s := s.modCore k fun c => { c with outs := c.outs ++ [o] }
  if o.waiting.isEmpty then s.complete k o else s

/-- A part of a result: the bytes of a sector or section, the old values of an atomic, or a fault. -/
structure PartOf where
  out : Nat
  part : Nat
  bytes : List Byte
  olds : List (Nat × DWord)
  err : Option (FaultKind × Option Nat × Nat)
deriving DecidableEq, Repr

/-- The lower of two failing lanes. -/
def lowerErr (a b : Option (FaultKind × Option Nat × Nat)) : Option (FaultKind × Option Nat × Nat) :=
  match a, b with
  | none, y => y
  | x, none => x
  | some x, some y => if y.2.1.getD 0 < x.2.1.getD 0 then some y else some x

def Out.receive (o : Out) (p : PartOf) : Out :=
  { o with waiting := o.waiting.filter (· != p.part), parts := o.parts ++ [(p.part, p.bytes)], olds := o.olds ++ p.olds,
           err := lowerErr o.err p.err }

/-- A part has come; with the last the result is completed. -/
def State.receive (s : State) (k : Nat) (p : PartOf) : State :=
  match (s.core k).outs.find? fun o => o.id == p.out with
  | none => s
  | some o =>
    let o := o.receive p
    let s := s.modCore k fun c => { c with outs := updateIf (fun x => x.id == o.id) (fun _ => o) c.outs }
    if o.waiting.isEmpty then s.complete k o else s

/-! ## Loads and stores of the lanes -/

/-- A result of an instruction, nothing having come. -/
def Ctx.outOf (c : Ctx) (id : Nat) (finish : Finish) (slots : List Slot) (waiting : List Nat) : Out :=
  { id := id, owner := c.r, pc := c.split.pc, finish := finish, slots := slots, waiting := waiting, parts := [], olds := [], err := none,
    writes := c.writes, mask := c.x, overtaken := if c.acting then c.split.outdone else [] }

/-- Translations that an instruction used stay in the core's TLB. -/
def Ctx.cached (c : Ctx) (es : List Elem) : State := c.s.cacheCore c.r.core c.team.vf (es.map (·.x))

/-- The home of a sector whose lines may be leased to this core (R75). -/
def leasable : HomeLoc → Bool
  | .slice _ => true
  | _ => false

/-- A weak read with this hint may fill an L1 sector (R75); hints above 0100 act as 0000 (R141). -/
def hintLeases (hint : Nat) : Bool := hint ≠ 3

/-- A result of the running split is written no sooner than at a device time. -/
def State.writtenBy (s : State) (r : SplitRef) (t : Nat) : State := s.modSplit r fun p => { p with resultAt := max p.resultAt t }

/-- A weak read of the split, leased to its core, that has not come back: a later load of the sector does not hit L1, where a fill of an
older request may stand, but follows it (R267, row 4; log entry 72). -/
def State.readOpen (s : State) (r : SplitRef) (sector : Nat) : Bool :=
  s.reqs.any fun q => q.own && q.kind == .read true && q.sector == sector && s.mine r q.owner q.id

/-- The bytes of a sector that hits L1, as a part of a result: those that a copy in flight is to write are undefined (R58). -/
def Ctx.veiled (c : Ctx) (slots : List Slot) (part : Nat) (bytes : List Byte) : List Byte :=
  match slots.find? fun x => x.part == part with
  | some x => c.s.veil c.team.vf (x.va / 32 * 32) (part % 4096) bytes
  | none => bytes

/-- Sector reads sent for the elements of lanes (R207): one that hits L1 has come at once, and takes 24 ticks (R190). `finish` is what becomes of the result,
given its name. -/
def Ctx.loadVia (c : Ctx) (es : List Elem) (strong : Bool) (hint : Nat) (dst : Elem → Nat) (finish : Finish) : State × Nat :=
  let groups := bySector es
  let i := (c.port groups.length (c.cached es)).takeIds (groups.length + 1)
  let out := i.1 + groups.length
  let core := i.2.core c.r.core
  let now := i.2.coreTime c.r.core
  let parts := (List.range groups.length).zip groups
  let hit := fun (p : Nat × List Elem) =>
    match p.2 with
    | e :: _ => if !strong && leasable e.x.home && !c.s.readOpen c.r (e.x.pa / 32) then core.l1Hit now (e.x.pa / 32) hint else none
    | [] => none
  let misses := parts.filter fun p => (hit p).isNone
  let slots := parts.flatMap fun p => p.2.map fun e =>
    ({ lane := e.lane, va := e.va, part := i.1 + p.1, off := e.x.pa % 32, high := e.high, dst := dst e } : Slot)
  let kind : ReqKind := if strong then .strongRead else .read (hintLeases hint)
  let qs := misses.filterMap fun p => p.2.head?.map fun e => c.reqOf (i.1 + p.1) e kind strong hint (some out)
  let o := c.outOf out finish slots (misses.map fun p => i.1 + p.1)
  let got := parts.filterMap fun p => (hit p).map fun x => (i.1 + p.1, x)
  let o := { o with parts := got.map fun p => (p.1, c.veiled slots p.1 p.2.bytes) }
  let s := if got.isEmpty then i.2
    else (i.2.writtenBy c.r (c.s.time + 24)).modCore c.r.core fun k => k.touchL1 hint (got.map fun p => p.2.sector)
  ((s.sendAll qs).register c.r.core o, out)

/-- Sector writes sent for the elements of lanes (R81): later lanes over earlier ones; E2M1 writes half-bytes. -/
def Ctx.storeVia (c : Ctx) (es : List Elem) (f : Fmt) (strong : Bool) (hint : Nat) (value : Nat → Nat) : State :=
  let groups := bySector es
  let i := (c.port groups.length (c.cached es)).takeIds groups.length
  let qs := ((List.range groups.length).zip groups).filterMap fun p => p.2.head?.map fun e =>
    let bytes := p.2.flatMap fun e => bytesFrom (e.x.pa % 32) (bytesOfNat (elemSize f) (value e.lane))
    let halves := p.2.map fun e => (e.x.pa % 32, e.high, BitVec.ofNat 4 (value e.lane))
    c.reqOf (i.1 + p.1) e (if f == .e2m1 then .write [] halves else .write bytes []) strong hint none
  i.2.sendAll qs

/-- A write goes on once every page it touches is logged or needs no entry; else its split parks (R73). -/
def Ctx.logged (c : Ctx) (es : List Elem) (act : Unit → Act) : Act :=
  match (c.own.cacheCore c.r.core c.team.vf (es.map (·.x))).logWrite c.r.core c.team.vf c.team.grid c.r (.word c.r) (es.map (·.x)) with
  | .ready => act ()
  | .wait s moved => if moved then c.parkAsking s else c.parkInstr c.cap
  | .full s moved =>
    let told := (s.vf? c.team.vf).any (·.dirty.told)
    if moved || !told then c.parkAsking (s.logFull c.team.vf 0 (c.v.cfg.coreIndex c.r.core) c.now) else c.parkInstr c.cap

/-- A .rel form first meets the condition of FENCE.dev (R208). -/
def Ctx.released (c : Ctx) (rel : Bool) (act : Unit → Act) : Act :=
  if rel && !c.s.fenceMet c.r .dev c.split.lct then .park (.release c.i (c.snap [])) else act ()

/-- An .acq form holds the split's issue until the value has come (R208). -/
def State.acquire (s : State) (r : SplitRef) (acq : Bool) (out : Nat) : State :=
  if acq && ((s.core r.core).outs.any fun o => o.id == out) then s.modSplit r fun p => { p with park := .acquire out } else s

/-! ## Scratchpad reads and writes of the lanes -/

/-- A register result of scratchpad takes 20 ticks and its bank waits, and what mapped sources add (R113, R190). -/
def Ctx.scratchTime (c : Ctx) (ps : List Place) (n : Nat) (s : State) : State :=
  s.writtenBy c.r (c.s.time + 20 + (bankTicks ps n - 1) + c.camLatency)

/-- Section reads of the elements of lanes. -/
def Ctx.scratchReads (c : Ctx) (ps : List Place) (n : Nat) (dst : Nat → Nat) (finish : Finish) : State :=
  let groups := bySection ps
  let i := (c.port (byScratchSector ps).length c.s).takeIds (groups.length + 1)
  let out := i.1 + groups.length
  let parts := (List.range groups.length).zip groups
  let ops := parts.map fun p =>
    { c.opOf (i.1 + p.1) p.2 n false (some out) with reads := p.2.flatMap fun x => (List.range n).map fun b => x.off + b }
  let slots := parts.flatMap fun p => ((List.range p.2.length).zip p.2).map fun x =>
    ({ lane := x.2.lane, va := x.2.off, part := i.1 + p.1, off := n * x.1, high := x.2.high, dst := dst x.2.lane } : Slot)
  let s := match finish with | .regs _ _ => c.scratchTime ps n i.2 | _ => i.2
  (s.addOps c.r.core ops).register c.r.core (c.outOf out finish slots (ops.map (·.id)))

/-- Section writes of the elements of lanes. -/
def Ctx.scratchWrites (c : Ctx) (ps : List Place) (f : Fmt) (value : Nat → Nat) : State :=
  let groups := bySection ps
  let i := (c.port (byScratchSector ps).length c.s).takeIds groups.length
  let ops := ((List.range groups.length).zip groups).map fun p =>
    let o := c.opOf (i.1 + p.1) p.2 (elemSize f) false none
    if f == .e2m1 then { o with nibbles := p.2.map fun x => (x.off, x.high, BitVec.ofNat 4 (value x.lane)) }
    else { o with bytes := p.2.flatMap fun x => bytesFrom x.off (bytesOfNat (elemSize f) (value x.lane)) }
  i.2.addOps c.r.core ops

end Sys2Proof.Machine
end

