-- ==== Sys2Proof/Machine/Global.lean ====
section
/-!
DEFINITION. Memory instructions, major 0x8 (12 R204 to R209), but for ICPREF, which stands with the instruction cache.
-/
namespace Sys2Proof.Machine

def Sem.strong (m : Sem) : Bool := m != .weak

/-- The elements of an addressing form through a base register (R204, R207). -/
def Ctx.baseElems (c : Ctx) (f : Fmt) (sc : Scale) (disp : Int) (n : Nat) (need : Need) (ls : List Nat) : Except LaneFault (List Elem) :=
  checkLanes (fun l =>
    let bp := bytePart f (c.offset sc disp l)
    c.atBase (c.group.breg c.o.a.num) bp.1 bp.2 n need l) ls

/-- The scratchpad places of an addressing form. -/
def Ctx.scratchElems (c : Ctx) (f : Fmt) (sc : Scale) (disp : Int) : Except LaneFault (List Place) :=
  checkLanes (c.atScratch sc disp f (elemSize f)) c.lanes

/-- What a store writes in a lane (R207). -/
def Ctx.stored (c : Ctx) (m : MemMode) (l : Nat) : Nat := narrow m.fmt c.o.rm m.sat c.o.ftz (c.c (memReg m.fmt) l)

/-- The page that BASE finds (R74), none for a base that does not translate; a walk holds the issue. -/
def Ctx.basePage (c : Ctx) (va : Nat) (go : Option PageInfo → Act) : Act :=
  match c.o.a with
  | .imm _ => go none
  | _ =>
    if va ≥ 2 ^ 56 then go none
    else
      match c.s.pageVia (c.s.core c.r.core).tlb c.answers c.v.cfg va with
      | .ok p => go (some p)
      | .error (.fault _) => go none
      | .error (.walk pa) => c.askPhys pa

/-- BASE (R74, R207): a base that does not translate has limit 0. -/
def Ctx.baseAct (c : Ctx) : Act :=
  if !c.any then .ok c.s
  else
    let va := match c.o.a with | .imm _ => 0 | _ => c.uniA64
    c.basePage va fun p =>
      let b : BaseReg :=
        { vbase := BitVec.ofNat 64 va, page := p, limit := match p with | some p => p.size - va % p.size | none => 0 }
      .ok (c.s.modGroup c.r fun g => g.setBreg c.o.d.num b)

/-- BASE. -/
def execBase (o : Ops) (s : State) : Answered := issue (.base o) s Ctx.baseAct

/-- LD and LDU (R207, R208). -/
def Ctx.loadAct (c : Ctx) (m : MemMode) (ls : List Nat) : Act :=
  match c.baseElems m.fmt m.sc m.disp.toInt (elemSize m.fmt) .load ls with
  | .error e => c.lane e c.once 0
  | .ok es =>
    if es.isEmpty then .ok c.s
    else
      let r := c.loadVia es (Sem.strong m.sem) c.o.h.toNat (fun _ => 0) (.regs c.o.d m.fmt)
      .ok (r.1.acquire c.r (m.sem == .ordered) r.2)

/-- LD (R207). -/
def execLd (o : Ops) (m : MemMode) (s : State) : Answered := issue (.ld o m) s fun c => c.loadAct m c.lanes

/-- LDU (R207): once. -/
def execLdu (o : Ops) (m : MemMode) (s : State) : Answered :=
  issue (.ldu o m) s fun c => c.loadAct m (if c.any then [0] else [])

/-- ST and STU (R207, R208). -/
def Ctx.storeAct (c : Ctx) (m : MemMode) (ls : List Nat) : Act :=
  match c.baseElems m.fmt m.sc m.disp.toInt (elemSize m.fmt) .store ls with
  | .error e => c.lane e c.once 1
  | .ok es =>
    if es.isEmpty then .ok c.s
    else
      c.released (m.sem == .ordered) fun _ => c.logged es fun _ =>
        .ok (c.storeVia es m.fmt (Sem.strong m.sem) c.o.h.toNat (c.stored m))

/-- ST (R207). -/
def execSt (o : Ops) (m : MemMode) (s : State) : Answered := issue (.st o m) s fun c => c.storeAct m c.lanes

/-- STU (R207): once, the datum uniform. -/
def execStu (o : Ops) (m : MemMode) (s : State) : Answered :=
  issue (.stu o m) s fun c => c.storeAct m (if c.any then [0] else [])

/-- LDS (R207). -/
def execLds (o : Ops) (m : MemMode) (s : State) : Answered :=
  issue (.lds o m) s fun c =>
    match c.scratchElems m.fmt m.sc m.disp.toInt with
    | .error e => c.lane e false 0
    | .ok ps => if ps.isEmpty then .ok c.s else .ok (c.scratchReads ps (elemSize m.fmt) (fun _ => 0) (.regs o.d m.fmt))

/-- STS (R207). -/
def execSts (o : Ops) (m : MemMode) (s : State) : Answered :=
  issue (.sts o m) s fun c =>
    match c.scratchElems m.fmt m.sc m.disp.toInt with
    | .error e => c.lane e false 1
    | .ok ps => .ok (c.scratchWrites ps m.fmt (c.stored m))

/-- The check of a lane of PREF. -/
def Ctx.prefElem (c : Ctx) (sc : Scale) (disp : Int) (l : Nat) : Except LaneFault Elem :=
  c.atBase (c.group.breg c.o.a.num) (c.offset sc disp l) false 1 .load l

/-- PREF (R209): lanes whose check fails are dropped; hint 0011 fills only the home. -/
def Ctx.prefAct (c : Ctx) (sc : Scale) (disp : Int) : Act :=
  let walks := fun l => match c.prefElem sc disp l with | .error { kind := .walk pa, .. } => some pa | _ => none
  match c.lanes.findSome? walks with
  | some pa => c.askPhys pa
  | none =>
    let es := c.lanes.filterMap fun l => (c.prefElem sc disp l).toOption
    let hint := c.o.h.toNat
    let hit := fun (g : List Elem) => g.head?.bind fun e =>
      if leasable e.x.home then (c.s.core c.r.core).l1Hit (c.s.coreTime c.r.core) (e.x.pa / 32) hint else none
    let all := bySector es
    let groups := all.filter fun g => (hit g).isNone
    let s := (c.port all.length (c.cached es)).modCore c.r.core fun k => k.touchL1 hint ((all.filterMap hit).map (·.sector))
    let i := s.takeIds groups.length
    let qs := ((List.range groups.length).zip groups).filterMap fun p => p.2.head?.map fun e =>
      c.reqOf (i.1 + p.1) e (if hint = 3 then .pref else .read (hintLeases hint)) false hint none
    .ok (i.2.sendAll qs)

/-- PREF. -/
def execPref (o : Ops) (sc : Scale) (disp : BitVec 13) (s : State) : Answered := issue (.pref o sc disp) s fun c => c.prefAct sc disp.toInt

end Sys2Proof.Machine
end

