-- ==== Sys2Proof/Machine/Gather.lean ====
section
/-!
DEFINITION. Gathers and scatters, major 0x9 (12 R210, R211, 05 R81).
-/
namespace Sys2Proof.Machine

/-- A lane's own address plus DISP, modulo 2^64: the pair in A, or in C for the copies between memory and scratchpad (R211). -/
def Ctx.ownAddr (c : Ctx) (f : Operand) (disp : BitVec 13) (l : Nat) : Nat := wrapTo ((c.field f true false l : Int) + disp.toInt) 64

/-- A gather load (R211). -/
def Ctx.gldAct (c : Ctx) (m : MemMode) : Act :=
  match checkLanes (fun l => c.atAddr (c.ownAddr c.o.a m.disp l) (elemSize m.fmt) .load l) c.lanes with
  | .error e => c.lane e false 0
  | .ok es =>
    if es.isEmpty then .ok c.s
    else
      let r := c.loadVia es (Sem.strong m.sem) c.o.h.toNat (fun _ => 0) (.regs c.o.d m.fmt)
      .ok (r.1.acquire c.r (m.sem == .ordered) r.2)

/-- GLD (R211). -/
def execGld (o : Ops) (m : MemMode) (s : State) : Answered := issue (.gld o m) s fun c => c.gldAct m

/-- A scatter store (R211). -/
def Ctx.gstAct (c : Ctx) (m : MemMode) : Act :=
  match checkLanes (fun l => c.atAddr (c.ownAddr c.o.a m.disp l) (elemSize m.fmt) .store l) c.lanes with
  | .error e => c.lane e false 1
  | .ok es =>
    if es.isEmpty then .ok c.s
    else
      c.released (m.sem == .ordered) fun _ => c.logged es fun _ =>
        .ok (c.storeVia es m.fmt (Sem.strong m.sem) c.o.h.toNat (c.stored m))

/-- GST (R211). -/
def execGst (o : Ops) (m : MemMode) (s : State) : Answered := issue (.gst o m) s fun c => c.gstAct m

/-- Both ends of a lane of GLDS and GSTS, the scratchpad end first (R211). -/
def Ctx.bothEnds (c : Ctx) (m : MemMode) (need : Need) (l : Nat) : Except LaneFault (Place × Elem) :=
  match c.atScratch m.sc 0 m.fmt (elemSize m.fmt) l with
  | .error e => .error e
  | .ok p =>
    match c.atAddr (c.ownAddr c.o.c m.disp l) (elemSize m.fmt) need l with
    | .error e => .error e
    | .ok e => .ok (p, e)

/-- GLDS (R211): the bytes go to scratchpad once every lane's have come; the result is outstanding until they are there. -/
def Ctx.gldsAct (c : Ctx) (m : MemMode) : Act :=
  match checkLanes (α := Place × Elem) (c.bothEnds m .load) c.lanes with
  | .error e => c.lane e false 0
  | .ok ends =>
    if ends.isEmpty then .ok c.s
    else
      let groups := bySection (ends.map (·.1))
      let i := c.s.takeIds groups.length
      let ops := ((List.range groups.length).zip groups).map fun p =>
        { c.opOf (i.1 + p.1) p.2 (elemSize m.fmt) false none with reads := p.2.map fun (x : Place) => x.lane }
      let offOf := fun (e : Elem) => ((ends.find? fun (x : Place × Elem) => x.2.lane == e.lane).map fun (x : Place × Elem) => x.1.off).getD 0
      let c' : Ctx := { c with s := i.2 }
      .ok (c'.loadVia (ends.map fun (x : Place × Elem) => x.2) false c.o.h.toNat offOf (.scratch (elemSize m.fmt) ops)).1

/-- GLDS. -/
def execGlds (o : Ops) (m : MemMode) (s : State) : Answered := issue (.glds o m) s fun c => c.gldsAct m

/-- GSTS (R211): the sector writes are sent once every lane's bytes have been read; the core's L1 copies are dropped
at issue (R76). -/
def Ctx.gstsAct (c : Ctx) (m : MemMode) : Act :=
  match checkLanes (α := Place × Elem) (c.bothEnds m .store) c.lanes with
  | .error e => c.lane e false 1
  | .ok ends =>
    if ends.isEmpty then .ok c.s
    else
      let es := ends.map (·.2)
      c.logged es fun _ =>
        let groups := bySector es
        let i := (c.cached es).takeIds groups.length
        let qs := ((List.range groups.length).zip groups).filterMap fun p => p.2.head?.map fun e =>
          c.reqOf (i.1 + p.1) e (.write [] []) false c.o.h.toNat none
        let paOf := fun l => ((es.find? fun e => e.lane == l).map (·.x.pa)).getD 0
        let c : Ctx := { c with s := i.2.dropL1 c.r.core (qs.map (·.sector)) }
        .ok (c.scratchReads (ends.map fun (x : Place × Elem) => x.1) (elemSize m.fmt) paOf (.stores (elemSize m.fmt) qs))

/-- GSTS. -/
def execGsts (o : Ops) (m : MemMode) (s : State) : Answered := issue (.gsts o m) s fun c => c.gstsAct m

end Sys2Proof.Machine
end

