-- ==== Sys2Proof/Machine/Atomics.lean ====
section
/-!
DEFINITION. Atomics and fences, major 0xA (12 R212 to R214).
-/
namespace Sys2Proof.Machine

/-- The operands of a lane's step (R214). -/
def Ctx.atomStep (c : Ctx) (m : AtomMode) (off l : Nat) : AtomStep :=
  let f := atomFmt m.ty
  { lane := l, off := off, op := m.op, ty := m.ty, c := BitVec.ofNat 64 (c.c f l), e := BitVec.ofNat 64 (c.e f l) }

/-- The lanes' atomics on memory, one request a sector, its lanes in ascending order; `ret` when old values are returned. -/
def Ctx.atomicAct (c : Ctx) (m : AtomMode) (ret : Bool) (ls : List Nat) : Act :=
  match checkLanes (fun l => c.atBase (c.group.breg c.o.a.num) (c.offset m.sc m.disp.toInt l) false (atomBytes m.ty) .store l) ls with
  | .error e => c.lane e c.once 1
  | .ok es =>
    if es.isEmpty then .ok c.s
    else
      c.released m.rel fun _ => c.logged es fun _ =>
        let groups := bySector es
        let i := (c.port groups.length (c.cached es)).takeIds (groups.length + 1)
        let out := i.1 + groups.length
        let qs := ((List.range groups.length).zip groups).filterMap fun p => p.2.head?.map fun e =>
          c.reqOf (i.1 + p.1) e (.atomic (p.2.map fun e => c.atomStep m (e.x.pa % 32) e.lane)) true c.o.h.toNat
            (if ret then some out else none)
        let s := (i.2.sendAll qs).delay qs (if ret then c.camLatency else 0)
        let s := if ret then s.register c.r.core (c.outOf out (.olds c.o.d (atomBytes m.ty == 8)) [] (qs.map (·.id))) else s
        .ok (s.acquire c.r m.acq out)

/-- ATOM (R214). -/
def execAtom (o : Ops) (m : AtomMode) (s : State) : Answered := issue (.atom o m) s fun c => c.atomicAct m true c.lanes

/-- ATOMU (R214): once, with uniform operands. -/
def execAtomu (o : Ops) (m : AtomMode) (s : State) : Answered :=
  issue (.atomu o m) s fun c => c.atomicAct m true (if c.any then [0] else [])

/-- RED (R213): no result is returned. -/
def execRed (o : Ops) (m : AtomMode) (s : State) : Answered := issue (.red o m) s fun c => c.atomicAct m false c.lanes

/-- ATOMS (R214): the steps are made at the scratchpad. -/
def execAtoms (o : Ops) (m : AtomMode) (s : State) : Answered :=
  issue (.atoms o m) s fun c =>
    match checkLanes (c.atScratch m.sc m.disp.toInt .b32 (atomBytes m.ty)) c.lanes with
    | .error e => c.lane e false 1
    | .ok ps =>
      if ps.isEmpty then .ok c.s
      else
        let groups := byScratchSector ps
        let i := (c.port groups.length c.s).takeIds (groups.length + 1)
        let out := i.1 + groups.length
        let ops := ((List.range groups.length).zip groups).map fun p =>
          { c.opOf (i.1 + p.1) p.2 (atomBytes m.ty) true (some out) with steps := p.2.map fun (x : Place) => c.atomStep m x.off x.lane }
        let s := (c.scratchTime ps (atomBytes m.ty) i.2).addOps c.r.core ops
        .ok (s.register c.r.core (c.outOf out (.olds o.d (atomBytes m.ty == 8)) [] (ops.map (·.id))))

/-- FENCE (R212): the split issues nothing after it until its condition holds. A FENCE.sys behind a store that has had no answer takes
MEMORY_ERROR (R316). -/
def execFence (o : Ops) (scope : Scope) (s : State) : Answered :=
  issue (.fence o scope) s fun c =>
    match (if c.any && scope == .sys then c.split.unanswered else none) with
    | some va => .stop (c.s.modSplit c.r fun p => { p with unanswered := none }) .memoryError va
    | none =>
      if !c.any || c.s.fenceMet c.r scope c.split.lct then .ok c.s
      else .ok (c.s.modSplit c.r fun p => { p with park := .fence scope false p.lct })

/-- FENCEW (R212): scratchpad writes at the narrow scopes, device time past the latest completion time at the wide ones. -/
def execFencew (o : Ops) (scope : Scope) (s : State) : Answered :=
  issue (.fencew o scope) s fun c =>
    if !c.any || c.s.fencewMet c.r scope c.split.lct then .ok c.s
    else .ok (c.s.modSplit c.r fun p => { p with park := .fence scope true p.lct })

end Sys2Proof.Machine
end

