-- ==== Sys2Proof/Machine/Bit.lean ====
section
/-!
DEFINITION. Bit instructions, major 0x2 (11 R169, R170).
-/
namespace Sys2Proof.Machine

/-- The format of a width bit (R169). -/
def bitFmt (w : Bool) : Fmt := if w then .b64 else .b32
/-- The width it names. -/
def bitWidth (w : Bool) : Nat := if w then 64 else 32

/-- SHL (R170): 0 from a shift by the width on. -/
def shlBits (w a n : Nat) : Nat := if n ≥ w then 0 else a * 2 ^ n % 2 ^ w
/-- SHR (R170). -/
def shrBits (w a n : Nat) : Nat := if n ≥ w then 0 else a / 2 ^ n
/-- SAR (R170): the amount is at most w − 1. -/
def sarBits (w a n : Nat) : Nat := wrapTo (signedOf a w / (2 ^ min n (w - 1) : Int)) w
/-- BFX (R170). -/
def bfxBits (w : Nat) (sx : Bool) (a p n : Nat) : Nat :=
  if p ≥ w || n == 0 then 0
  else
    let n := min n (w - p)
    let f := a / 2 ^ p % 2 ^ n
    if sx then wrapTo (signedOf f n) w else f
/-- BFI (R170). -/
def bfiBits (w a b p n : Nat) : Nat :=
  if p ≥ w || n == 0 then a
  else
    let n := min n (w - p)
    a / 2 ^ (p + n) * 2 ^ (p + n) + b % 2 ^ n * 2 ^ p + a % 2 ^ p
/-- Number of 1 bits among the low `w`. -/
def popcBits : (w : Nat) → Nat → Nat
  | 0, _ => 0
  | w + 1, a => a % 2 + popcBits w (a / 2)
/-- Number of leading 0 bits of a `w`-bit value. -/
def clzBits (w a : Nat) : Nat := if a % 2 ^ w = 0 then w else w - 1 - (a % 2 ^ w).log2
/-- The low `w` bits in reverse order. -/
def brevBits : (w : Nat) → Nat → Nat
  | 0, _ => 0
  | w + 1, a => a % 2 * 2 ^ w + brevBits w (a / 2)

/-- AND (R170). -/
def execAnd (o : Ops) (w : Bool) (s : State) : Answered :=
  issue (.and o w) s fun c => c.result (bitWidth w) fun l => c.a (bitFmt w) l &&& c.b (bitFmt w) l

/-- OR (R170). -/
def execOr (o : Ops) (w : Bool) (s : State) : Answered :=
  issue (.or o w) s fun c => c.result (bitWidth w) fun l => c.a (bitFmt w) l ||| c.b (bitFmt w) l

/-- XOR (R170). -/
def execXor (o : Ops) (w : Bool) (s : State) : Answered :=
  issue (.xor o w) s fun c => c.result (bitWidth w) fun l => c.a (bitFmt w) l ^^^ c.b (bitFmt w) l

/-- NOT (R170). -/
def execNot (o : Ops) (w : Bool) (s : State) : Answered :=
  issue (.not o w) s fun c => c.result (bitWidth w) fun l => 2 ^ bitWidth w - 1 - c.a (bitFmt w) l

/-- SHL (R170). -/
def execShl (o : Ops) (w : Bool) (s : State) : Answered :=
  issue (.shl o w) s fun c => c.result (bitWidth w) fun l => shlBits (bitWidth w) (c.a (bitFmt w) l) (c.b .u32 l)

/-- SHR (R170). -/
def execShr (o : Ops) (w : Bool) (s : State) : Answered :=
  issue (.shr o w) s fun c => c.result (bitWidth w) fun l => shrBits (bitWidth w) (c.a (bitFmt w) l) (c.b .u32 l)

/-- SAR (R170). -/
def execSar (o : Ops) (w : Bool) (s : State) : Answered :=
  issue (.sar o w) s fun c => c.result (bitWidth w) fun l => sarBits (bitWidth w) (c.a (bitFmt w) l) (c.b .u32 l)

/-- BFX (R170). -/
def execBfx (o : Ops) (w sx : Bool) (s : State) : Answered :=
  issue (.bfx o w sx) s fun c => c.result (bitWidth w) fun l =>
    bfxBits (bitWidth w) sx (c.a (bitFmt w) l) (c.b .u32 l) (c.c .u32 l)

/-- BFI (R170). -/
def execBfi (o : Ops) (w : Bool) (s : State) : Answered :=
  issue (.bfi o w) s fun c => c.result (bitWidth w) fun l =>
    bfiBits (bitWidth w) (c.a (bitFmt w) l) (c.b (bitFmt w) l) (c.c .u32 l) (c.e .u32 l)

/-- POPC (R170): the count as 32 bits. -/
def execPopc (o : Ops) (w : Bool) (s : State) : Answered :=
  issue (.popc o w) s fun c => c.result 32 fun l => popcBits (bitWidth w) (c.a (bitFmt w) l)

/-- CLZ (R170): w when the source is 0. -/
def execClz (o : Ops) (w : Bool) (s : State) : Answered :=
  issue (.clz o w) s fun c => c.result 32 fun l => clzBits (bitWidth w) (c.a (bitFmt w) l)

/-- BREV (R170). -/
def execBrev (o : Ops) (w : Bool) (s : State) : Answered :=
  issue (.brev o w) s fun c => c.result (bitWidth w) fun l => brevBits (bitWidth w) (c.a (bitFmt w) l)

end Sys2Proof.Machine
end

