-- ==== Sys2Proof/Machine/Cams.lean ====
section
/-!
DEFINITION. Cam bindings (07 R100 to R109) and the cam instructions of major 0x7 (12 R202).
-/
namespace Sys2Proof.Machine

/-! ## Images (R103 to R105) -/

/-- Bytes of an image that CAMBIND checks at issue (R101). -/
def fixedPart (f : Fmt) : Nat := if f == .e2m1g then 548 else imageBytes f

/-- OCNT (R104). -/
def outlierCount (img : List Byte) : Nat := byteAt img 544 % 64

/-- The positions of the escapes of an E2M1G image, ascending. -/
def escapes (img : List Byte) : List Nat := (List.range 1024).filter fun n => nibbleAt img n == 8

/-- The metadata m[q][j] of an S24 image. -/
def metaAt (img : List Byte) (q j : Nat) : Nat :=
  let n := 32 * q + j
  byteAt img (2048 + n / 4) / 4 ^ (n % 4) % 4

/-- The lowest of reasons 2 to 5 that applies (R105). -/
def imageFault (f : Fmt) (img : List Byte) : Option Nat :=
  match f with
  | .e2m1g =>
    let n := outlierCount img
    let es := escapes img
    let pos := fun i => halfAt img (548 + 4 * i)
    if n > 32 || es.length ≠ n then some 2
    else if (List.range n).any fun i => pos i % 1024 ≠ es.getD i 0 then some 3
    else if byteAt img 544 / 64 ≠ 0 || byteAt img 545 ≠ 0 || halfAt img 546 ≠ 0 || (List.range n).any (fun i => pos i / 1024 ≠ 0) then some 5
    else none
  | .s24 =>
    if (List.range 16).any fun g => (List.range 32).any fun j => metaAt img (2 * g) j ≥ metaAt img (2 * g + 1) j then some 4 else none
  | _ => none

/-- What a bind finds (R105): the reason it fails for, or none. -/
def bindReason (f : Fmt) (img : List Byte) (back room : Nat) (err : Bool) : Option Nat :=
  if err then some 6
  else if f == .e2m1g && outlierCount img ≤ 32 && back + 548 + 4 * outlierCount img > room then some 7
  else imageFault f img

/-! ## The instructions (R101, R202) -/

/-- The entries of a team changed at one place. -/
def Team.setBind (t : Team) (e : Nat) (b : Binding) : Team := { t with binds := t.binds.set e b }

/-- Resident arrays and asked-for loads of one entry dropped. -/
def State.dropEntry (s : State) (k team e : Nat) : State := s.modCore k fun c => c.dropArrays team fun x => x == e

/-- CAMBIND (R101). -/
def execCambind (o : Ops) (tm : Bool) (fmt : Fmt) (wel : Bool) (sin : PackFmt) (s : State) : Answered :=
  issue (.cambind o tm fmt wel sin) s fun c =>
    let a := c.uniA
    let off := a % 2 ^ 20
    let slot := o.d.camSlot
    if a / 2 ^ 20 ≠ 15 || off % 128 ≠ 0 || off + fixedPart fmt > c.team.kernel.scratch then .fault .access a none 0
    else if !c.any then .ok c.s
    else
      let free := (List.range c.team.binds.length).find? fun i => (c.team.binds.getD i Binding.unbound).state == .unbound
      match (c.team.entryOf c.r.grp slot tm).orElse fun _ => free with
      | none => .uniform (.camBind 1)
      | some e =>
        let b : Binding :=
          { state := .binding, fmt := fmt, tm := tm, grp := c.r.grp, slot := slot, back := off, wel := wel, sin := sin, reason := 0,
            failVa := 0, part := c.group.part, sid := c.r.split, freeing := false, tainted := false, waitFor := c.s.scratchOut c.r }
        .ok ((c.s.dropEntry c.r.core c.r.team e).modTeam c.r.core c.r.team fun t => t.setBind e b)

/-- The fault of an entry that is FAILED (R101, R105): MEMORY_ERROR names the byte that was lost. -/
def camFailed (b : Binding) : Act := if b.reason = 6 then .fault .memoryError b.failVa none 0 else .uniform (.camBind b.reason)

/-- CAMWAIT (R101). -/
def Ctx.camwaitAct (c : Ctx) : Act :=
  if !c.any then .ok c.s
  else
    match c.team.resolve c.r.grp c.o.a.camSlot with
    | none => .ok c.s
    | some e =>
      let b := c.team.binds.getD e Binding.unbound
      match b.state with
      | .binding => c.parkInstr []
      | .failed => camFailed b
      | .bound | .unbound => .ok c.s

/-- CAMFREE (R101). -/
def Ctx.camfreeAct (tm : Bool) (c : Ctx) : Act :=
  if !c.any then .ok c.s
  else
    match c.team.entryOf c.r.grp c.o.d.camSlot tm with
    | none => .ok c.s
    | some e =>
      if (c.team.binds.getD e Binding.unbound).state == .binding then c.parkInstr []
      else .ok ((c.s.dropEntry c.r.core c.r.team e).modTeam c.r.core c.r.team fun t => t.setBind e Binding.unbound)

/-- CAMWAIT. -/
def execCamwait (o : Ops) (s : State) : Answered := issue (.camwait o) s Ctx.camwaitAct

/-- CAMFREE. -/
def execCamfree (o : Ops) (tm : Bool) (s : State) : Answered := issue (.camfree o tm) s (Ctx.camfreeAct tm)

def BindState.code : BindState → Nat
  | .unbound => 0
  | .binding => 1
  | .bound => 2
  | .failed => 3

/-- The CAMINFO word (R102). -/
def Binding.info (b : Binding) (resident : Bool) : Nat :=
  b.state.code + 4 * b.fmt.code + 2 ^ 7 * b.tm.toNat + 2 ^ 8 * resident.toNat + 2 ^ 9 * b.wel.toNat +
    2 ^ 10 * (if b.fmt == .s24 then b.sin.code else 0) + 2 ^ 12 * b.back

/-- CAMINFO (R102, R202). -/
def execCaminfo (o : Ops) (s : State) : Answered :=
  issue (.caminfo o) s fun c => c.result 32 fun _ =>
    match c.team.resolve c.r.grp o.a.camSlot with
    | none => 0
    | some e =>
      (c.team.binds.getD e Binding.unbound).info (((c.s.core c.r.core).part c.group.part).arrays.contains (c.r.team, e))

/-! ## What the cam units do -/

/-- The array that makes room: the least recently used that no mapped source in flight is using at a time (R109). Where sources that wait
for loads have taken all four, the least recently used goes: one is always free to replace (log entry 73). -/
def Partition.victim (p : Partition) (time : Nat) : Option (Nat × Nat) :=
  (p.arrays.find? fun a => !(p.using_.any fun u => u.1 == a && time < u.2)).orElse fun _ => p.arrays.head?

/-- An image becomes resident in one of 4 arrays (R109). -/
def Partition.load (p : Partition) (a : Nat × Nat) (time : Nat) : Partition :=
  let others := p.arrays.filter (· != a)
  let kept := if others.length < 4 then others else others.filter fun x => some x != p.victim time
  { p with arrays := kept ++ [a], loads := p.loads.filter (fun x => x.1 != a) }

/-- A split that waits for an entry to leave BINDING issues again (R108). -/
def Split.uninterlock (e : Nat) (p : Split) : Split := if p.park = Park.interlock e then { p with park := .none } else p

/-- A bind ends: the image is checked and left resident in the issuing partition; splits that interlocked go on (R105, R108). Which byte of
the image an uncorrectable error struck is free, and its address is that of the issuing team's own scratchpad (log entry 74). -/
def State.bindDone (s : State) (k team e : Nat) (err : Bool) : State :=
  match s.team? k team with
  | none => s
  | some t =>
    let b := t.binds.getD e Binding.unbound
    if b.state != .binding || b.waitFor.any (s.core k).unperformed then s
    else
      let img := t.scratch.readBytes b.back (if b.fmt == .e2m1g then 548 + 4 * 32 else imageBytes b.fmt)
      let b' : Binding := match bindReason b.fmt img b.back t.kernel.scratch err with
        | some r => { b with state := .failed, reason := r, waitFor := [], failVa := 0x00F00000 + b.back + s.draw 24 0 % fixedPart b.fmt }
        | none => { b with state := .bound, waitFor := [], tainted := b.tainted || s.shadowed k team b.back (t.image b).length }
      let b' := if b.freeing then Binding.unbound else b'
      let s := s.modTeam k team fun t => t.setBind e b'
      let s := s.modTeam k team fun t => { t with groups := t.groups.map fun g => { g with splits := g.splits.map (Split.uninterlock e) } }
      if b'.state == .bound then s.modCore k fun c => c.modPart b.part fun p => p.load (team, e) s.time else s

/-- CAM_BIND_COMPLETE (R105). -/
def execCamBindComplete (core team entry : Nat) (err : Bool) (s : State) : Answered := .next (s.bindDone core team entry err).bump

/-- A load of an array was asked for at least 32 ticks ago: a load takes 32 ticks, and bank waits (R109). -/
def Partition.loadDone (p : Partition) (a : Nat × Nat) (time : Nat) : Bool := p.loads.any fun x => x.1 == a && x.2 + 32 ≤ time

/-- CAM_RESIDENCY_LOAD (R109): an array that a mapped source has asked for becomes resident. -/
def execCamResidencyLoad (core part team entry : Nat) (s : State) : Answered :=
  let bound := (s.team? core team).any fun t => (t.binds.getD entry Binding.unbound).state == .bound
  .next (s.modCore core fun c => c.modPart part fun p =>
    if bound && p.loadDone (team, entry) s.time then p.load (team, entry) s.time else p).bump

/-- Scratchpad bytes written in the backing region of a binding make what it delivers undefined (R107); the writes that its CAMBIND comes
after do not. `op` names the operation that writes. -/
def Team.taint (t : Team) (offs : List Nat) (op : Option Nat) : Team :=
  { t with binds := t.binds.map fun b =>
      let n := if b.fmt == .e2m1g then 548 + 4 * (outlierCount (t.scratch.readBytes b.back 548)) else imageBytes b.fmt
      if b.state != .unbound && !(op.any b.waitFor.contains) && (offs.any fun o => b.back ≤ o && o < b.back + n) then { b with tainted := true } else b }

end Sys2Proof.Machine
end

