-- ==== Sys2Proof/Machine/Crypto.lean ====
section
/-!
DEFINITION. The algorithms that protected code names and the spec does not spell out (20 R302, R306, R307): SHA-384, HKDF over it, AES-256
in Galois/counter mode, and ECDSA on brainpoolP384r1, as their public standards give them (PRESUMED, log entry 7).
-/
namespace Sys2Proof.Machine

/-- A number as `n` bytes, the most significant first. -/
def bigEndian (n v : Nat) : List Byte := (bytesOfNat n v).reverse

/-- The number of bytes, the most significant first. -/
def natOfBig (b : List Byte) : Nat := natOfBytes b.reverse

/-! ## SHA-384 -/

/-- The first prime numbers below a bound. -/
def primesBelow (n : Nat) : List Nat := (List.range n).filter fun p => 2 ≤ p && (List.range p).all fun d => d < 2 || p % d ≠ 0

/-- The whole k-th root of n, of at most `bits` bits beside what `r` holds. -/
def rootFrom (k n : Nat) : (bits : Nat) → (r : Nat) → Nat
  | 0, r => r
  | b + 1, r => rootFrom k n b (if (r + 2 ^ b) ^ k ≤ n then r + 2 ^ b else r)

/-- The round constants: 64 bits of the fractional parts of the cube roots of the first 80 primes. -/
def shaRounds : List Nat := (primesBelow 410).map fun p => rootFrom 3 (p * 2 ^ 192) 68 0 % 2 ^ 64

/-- The start value: the same of the square roots of the ninth to the sixteenth prime. -/
def shaStart : List Nat := ((primesBelow 54).drop 8).map fun p => rootFrom 2 (p * 2 ^ 128) 68 0 % 2 ^ 64

/-- A 64-bit word turned right. -/
def turned (x n : Nat) : Nat := x / 2 ^ n + x % 2 ^ n * 2 ^ (64 - n)

/-- The words of a block and those that follow from them, the newest first. -/
def shaSchedule : (fuel : Nat) → List Nat → List Nat
  | 0, w => w
  | f + 1, w =>
    let a := w.getD 14 0
    let b := w.getD 1 0
    let s0 := (turned a 1).xor ((turned a 8).xor (a / 2 ^ 7))
    let s1 := (turned b 19).xor ((turned b 61).xor (b / 2 ^ 6))
    shaSchedule f ((w.getD 15 0 + s0 + w.getD 6 0 + s1) % 2 ^ 64 :: w)

/-- One round on the eight words a to h. -/
def shaRound (v : List Nat) (kw : Nat × Nat) : List Nat :=
  let at_ := fun n => v.getD n 0
  let e := at_ 4
  let a := at_ 0
  let s1 := (turned e 14).xor ((turned e 18).xor (turned e 41))
  let ch := (e &&& at_ 5).xor ((2 ^ 64 - 1 - e) &&& at_ 6)
  let t1 := at_ 7 + s1 + ch + kw.1 + kw.2
  let s0 := (turned a 28).xor ((turned a 34).xor (turned a 39))
  let maj := (a &&& at_ 1).xor ((a &&& at_ 2).xor (at_ 1 &&& at_ 2))
  [(t1 + s0 + maj) % 2 ^ 64, a, at_ 1, at_ 2, (at_ 3 + t1) % 2 ^ 64, e, at_ 5, at_ 6]

/-- One block of 128 bytes. -/
def shaBlock (ks h : List Nat) (block : List Byte) : List Nat :=
  let w := shaSchedule 64 ((pieces 8 16 block).map natOfBig).reverse
  let v := (ks.zip w.reverse).foldl shaRound h
  (h.zip v).map fun p => (p.1 + p.2) % 2 ^ 64

/-- SHA-384 of a text. -/
def sha384 (b : List Byte) : List Byte :=
  let n := b.length
  let padded := b ++ 128 :: List.replicate ((239 - n % 128) % 128) 0 ++ bigEndian 16 (8 * n)
  let ks := shaRounds
  ((((pieces 128 (padded.length / 128) padded).foldl (shaBlock ks) shaStart).flatMap (bigEndian 8)).take 48)

/-! ## HKDF -/

def xorBytes (a b : List Byte) : List Byte := List.zipWith (fun x y => x ^^^ y) a b

/-- HMAC over SHA-384, for a key of at most 128 bytes. -/
def hmac (key b : List Byte) : List Byte :=
  let k := key ++ List.replicate (128 - key.length) 0
  sha384 (xorBytes k (List.replicate 128 0x5C) ++ sha384 (xorBytes k (List.replicate 128 0x36) ++ b))

/-- HKDF with an empty salt and one block of output. -/
def hkdf (ikm info : List Byte) (n : Nat) : List Byte := (hmac (hmac (List.replicate 48 0) ikm) (info ++ [1])).take n

/-- The ASCII bytes of "klonos-code". -/
def codeInfo : List Byte := "klonos-code".toList.map fun c => BitVec.ofNat 8 c.toNat

/-- The code key of a virtual function and a KEYGEN, from the secret of its session (R306). -/
def codeKey (secret : List Byte) (vf keygen : Nat) : List Byte := hkdf secret (codeInfo ++ bytesOfNat 2 vf ++ bytesOfNat 4 keygen) 32

/-! ## AES-256 -/

/-- A byte times x in the field of AES. -/
def aesTwice (a : Nat) : Nat := (2 * a % 256).xor (if a ≥ 128 then 0x1B else 0)

/-- The product of two bytes in the field of AES. -/
def aesMul : (fuel : Nat) → (a b : Nat) → Nat
  | 0, _, _ => 0
  | f + 1, a, b => (if b % 2 = 1 then a else 0).xor (aesMul f (aesTwice a) (b / 2))

/-- The 254th power of a byte: its inverse, 0 for 0. -/
def aesInverse (a : Nat) : Nat := (List.range 7).foldl (fun r _ => let q := aesMul 8 r a; aesMul 8 q q) (1 : Nat)

/-- The substitution of a byte. -/
def aesSub (a : Nat) : Nat :=
  let b := aesInverse a
  (List.range 5).foldl (fun x k => x.xor ((b * 2 ^ k) % 256 + b / 2 ^ (8 - k))) 0x63

/-- The substitution of every byte. -/
def aesTable : List Nat := (List.range 256).map aesSub

/-- A word of the schedule: eight earlier words, the newest first, and its number. -/
def aesNext (box : List Nat) (w : List (List Nat)) (n : Nat) : List Nat :=
  let t := w.headD []
  let t := if n % 8 = 0 then
      let r := (t.drop 1 ++ t.take 1).map (box.getD · 0)
      (r.headD 0).xor ((List.range (n / 8 - 1)).foldl (fun x _ => aesTwice x) 1) :: r.drop 1
    else if n % 8 = 4 then t.map (box.getD · 0)
    else t
  List.zipWith Nat.xor (w.getD 7 []) t

/-- The 15 round keys of a 32-byte key, 16 bytes each. -/
def aesKeys (box : List Nat) (key : List Byte) : List (List Nat) :=
  let first := (pieces 4 8 (key.map BitVec.toNat)).reverse
  let all := (List.range 52).foldl (fun w i => aesNext box w (i + 8) :: w) first
  (pieces 4 15 all.reverse).map List.flatten

/-- Rows shifted: byte i of a block comes from byte 5i of it, modulo 16. -/
def aesShift (b : List Nat) : List Nat := (List.range 16).map fun i => b.getD (5 * i % 16) 0

/-- Columns mixed. -/
def aesMix (b : List Nat) : List Nat :=
  (List.range 16).map fun i =>
    let at_ := fun k => b.getD (i / 4 * 4 + (i + k) % 4) 0
    (aesTwice (at_ 0)).xor (((aesTwice (at_ 1)).xor (at_ 1)).xor ((at_ 2).xor (at_ 3)))

/-- One 16-byte block encrypted under the round keys. -/
def aesBlock (box : List Nat) (keys : List (List Nat)) (b : List Byte) : List Byte :=
  let start := List.zipWith Nat.xor (b.map BitVec.toNat) (keys.headD [])
  let out := (List.range 14).foldl (fun x i =>
    let x := aesShift (x.map (box.getD · 0))
    List.zipWith Nat.xor (if i = 13 then x else aesMix x) (keys.getD (i + 1) [])) start
  out.map fun n => BitVec.ofNat 8 n

/-! ## Galois/counter mode -/

/-- The product of two 128-bit blocks, bit 0 being the most significant. -/
def gcmMul : (fuel : Nat) → (x v z : Nat) → Nat
  | 0, _, _, z => z
  | f + 1, x, v, z =>
    gcmMul f x (if v % 2 = 1 then (v / 2).xor (0xE1 * 2 ^ 120) else v / 2) (if x.testBit f then z.xor v else z)

/-- The hash of a text with no further data. -/
def ghash (h : Nat) (text : List Byte) : Nat :=
  let blocks := (pieces 16 (text.length / 16 + 1) text).map fun b => natOfBig (b ++ List.replicate (16 - b.length) 0)
  (blocks ++ [8 * text.length]).foldl (fun y b => gcmMul 128 (y.xor b) h 0) 0

/-- The text met with the key stream of a key and a 12-byte IV, and a function to the tag of a ciphertext. -/
def gcmStream (key iv text : List Byte) : List Byte × (List Byte → List Byte) :=
  let box := aesTable
  let keys := aesKeys box key
  let e := fun n => aesBlock box keys (iv ++ bigEndian 4 n)
  let h := natOfBig (aesBlock box keys (List.replicate 16 0))
  let stream := ((List.range (text.length / 16 + 1)).flatMap fun i => e (i + 2)).take text.length
  (xorBytes text stream, fun c => xorBytes (bigEndian 16 (ghash h c)) (e 1))

/-- AES-256-GCM encryption with empty AAD: the ciphertext and its tag. -/
def gcmSeal (key iv text : List Byte) : List Byte × List Byte :=
  let p := gcmStream key iv text
  (p.1, p.2 p.1)

/-- Decryption: none when the tag fails. -/
def gcmOpen (key iv text tag : List Byte) : Option (List Byte) :=
  let p := gcmStream key iv text
  if p.2 text = tag then some p.1 else none

/-! ## ECDSA on brainpoolP384r1 -/

namespace Curve

/-- The field's prime, the curve's a and b, the order of its base point. -/
def p : Nat := 0x8CB91E82A3386D280F5D6F7E50E641DF152F7109ED5456B412B1DA197FB71123ACD3A729901D1A71874700133107EC53
def a : Nat := 0x7BC382C63D8C150C3C72080ACE05AFA0C2BEA28E4FB22787139165EFBA91F90F8AA5814A503AD4EB04A8C7DD22CE2826
def b : Nat := 0x04A8C7DD22CE28268B39B55416F0447C2FB77DE107DCD2A62E880EA53EEB62D57CB4390295DBC9943AB78696FA504C11
def n : Nat := 0x8CB91E82A3386D280F5D6F7E50E641DF152F7109ED5456B31F166E6CAC0425A7CF3AB6AF6B7FC3103B883202E9046565

/-- The base point. -/
def base : Nat × Nat :=
  (0x1D1C64F068CF45FFA2A63A81B7C13F6B8847A3E77EF14FE3DB7FCAFE0CBD10E8E826E03436D646AAEF87B2E247D4AF1E,
   0x8ABE1D7520F9C2A45CB1EB8E95CFD55262B70B29FEEC5864E19C054FF99129280E4646217791811142820341263C5315)

end Curve

/-- A power modulo m, the exponent having at most `fuel` bits. -/
def powMod (m : Nat) : (fuel : Nat) → (x e : Nat) → Nat
  | 0, _, _ => 1 % m
  | f + 1, x, e => (if e % 2 = 1 then x else 1) * powMod m f (x * x % m) (e / 2) % m

/-- The inverse modulo a prime. -/
def invMod (m x : Nat) : Nat := powMod m 384 (x % m) (m - 2)

/-- A difference modulo the field's prime. -/
def subMod (x y : Nat) : Nat := (x + Curve.p - y % Curve.p) % Curve.p

/-- The sum of two points; none is the point at infinity. -/
def addPoints : Option (Nat × Nat) → Option (Nat × Nat) → Option (Nat × Nat)
  | none, q => q
  | q, none => q
  | some (x, y), some (u, v) =>
    if x = u && (y + v) % Curve.p = 0 then none
    else
      let l := if x = u then (3 * x * x + Curve.a) * invMod Curve.p (2 * y) % Curve.p
        else subMod v y * invMod Curve.p (subMod u x) % Curve.p
      let w := subMod (l * l) (x + u)
      some (w, subMod (l * subMod x w) y)

/-- A multiple of a point, the factor having at most `fuel` bits. -/
def mulPoint : (fuel : Nat) → Nat → Option (Nat × Nat) → Option (Nat × Nat)
  | 0, _, _ => none
  | f + 1, k, q => addPoints (if k % 2 = 1 then q else none) (mulPoint f (k / 2) (addPoints q q))

/-- A pair of numbers of 48 bytes each, the most significant byte first. -/
def pairOf (b : List Byte) : Nat × Nat := (natOfBig (b.take 48), natOfBig (b.drop 48))

/-- The signature, r and s of 48 bytes each, passes over a 48-byte digest under a public key, x and y of 48 bytes each (R307). -/
def ecdsaVerify (key digest sig : List Byte) : Bool :=
  let (x, y) := pairOf key
  let (r, s) := pairOf sig
  let inRange := fun v => 0 < v && v < Curve.n
  let onCurve := x < Curve.p && y < Curve.p && y * y % Curve.p = (x * x * x + Curve.a * x + Curve.b) % Curve.p
  key.length == 96 && sig.length == 96 && onCurve && inRange r && inRange s &&
    (let w := invMod Curve.n s
     let u := natOfBig digest * w % Curve.n
     let v := r * w % Curve.n
     match addPoints (mulPoint 384 u (some Curve.base)) (mulPoint 384 v (some (x, y))) with
     | some (z, _) => z % Curve.n == r
     | none => false)

end Sys2Proof.Machine
end

