-- ==== Sys2Proof/Machine/Pick.lean ====
section
/-!
DEFINITION. Fetching an instruction's bytes, readiness (14 R252), the age matrix's picks (R253) and the limits of a tick (R254), and
fetching an instruction of the hinge core (03 R36, R37).
-/
namespace Sys2Proof.Machine

/-! ## Fetching -/

/-- The virtual line of a kernel's instruction index (R135, R136). -/
def Kernel.line (k : Kernel) (pc : Nat) : Nat := (k.text + 16 * pc) / 128

/-- An instruction-cache line of a virtual function. -/
def Core.icLine (c : Core) (vf line : Nat) : Option IcLine := c.ic.find? fun l => l.vf == vf && l.line == line

/-- The instruction word at an index, where its line is present. -/
def Core.word (c : Core) (vf : Nat) (k : Kernel) (pc : Nat) : Option IWord :=
  (c.icLine vf (k.line pc)).map fun l => BitVec.ofNat 128 (natOfBytes ((l.bytes.drop ((k.text + 16 * pc) % 128)).take 16))

/-- What a split finds at its pc: nothing yet, a place beyond the text (R192), a word that is no instruction or an unaligned address
(R135), an instruction. -/
inductive Fetched where
  | absent
  | beyond
  | bad
  | instr (i : Instr)
deriving DecidableEq, Repr

def Core.fetch (c : Core) (vf : Nat) (k : Kernel) (pc : Nat) : Fetched :=
  if pc ≥ k.words then .beyond
  else if (k.text + 16 * pc) % 16 ≠ 0 then .bad
  else
    match c.word vf k pc with
    | none => .absent
    | some w =>
      match decodeWord w with
      | .ok i => .instr i
      | .error _ => .bad

/-! ## Readiness (R252) -/

/-- A split may issue in this tick, its instruction being present. -/
def Split.ready (t : Team) (g : Group) (p : Split) : Bool :=
  p.park == .none && !p.ending &&
    (!p.run.isEmpty || !(p.held || t.halted || t.stopping || t.quiescing || g.stalled || g.dying))

/-- A split that can be picked, with what it would issue. -/
structure Candidate where
  r : SplitRef
  level : Nat
  yielded : Bool
  pending : Bool
  what : Fetched
deriving DecidableEq, Repr

/-- A split that is ready, with the instruction `ahead` words past its pc; none where it is not ready, or the word is not present, which a
fault that the group takes first (R294) does not need. -/
def State.candidate? (s : State) (r : SplitRef) (ahead : Nat) : Option Candidate := do
  let t ← s.team? r.core r.team
  let g ← t.group? r.grp
  let x ← g.split? r.split
  let w := (s.core r.core).fetch t.vf t.kernel (x.pc + ahead)
  if x.ready t g && (w != .absent || g.pending.isSome) then
    pure { r := r, level := if x.promoted then 1 else x.level, yielded := x.yielded == some s.time, pending := g.pending.isSome, what := w }
  else none

/-- The ready splits of a partition from oldest to youngest (R251). -/
def State.candidates (s : State) (k p : Nat) : List Candidate :=
  ((s.core k).part p).order.filterMap fun o => s.candidate? { core := k, team := o.1, grp := o.2.1, split := o.2.2 } 0

/-! ## Limits of one tick (R254) -/

/-- The vector registers an instruction reads. -/
def vectorReads (i : Instr) (o : Ops) : List Nat :=
  ((i.reads o).filterMap fun r => match r with | .v n => some n | _ => none).eraseDups

/-- Reads from each of the four banks (R254: register N lies in bank N mod 4). -/
def bankReads (vs : List Nat) : List Nat := (List.range 4).map fun b => (vs.filter fun n => n % 4 == b).length

/-- Instructions that take the memory port (R254, R216). -/
def usesMemory (op : Nat) : Bool :=
  (0x800 ≤ op && op < 0xB00) || op ≤ 0xB04 && 0xB00 ≤ op || op == 0xB0C || op == 0xB0D || op == 0xD00 || op == 0xD09

/-- What an instruction takes of its partition. -/
def State.pickOf (s : State) (x : Candidate) : Pick :=
  let none' : Pick := { split := x.r, banks := [0, 0, 0, 0], cam := 0, mem := 0, sfu := false, pipe := 1, alone := false, yield := false,
                        ends := false, level := x.level }
  match x.what, s.team? x.r.core x.r.team with
  | .instr i, some t =>
    match i.code with
    | none => none'
    | some (op, o) =>
      let g := i.sig
      let b := bankReads (vectorReads i o)
      { none' with
        banks := b
        cam := camCycles t x.r.grp g.a o.ma + camCycles t x.r.grp g.b o.mb + camCycles t x.r.grp g.c o.mc
        ends := i.endsRun o
        mem := if usesMemory op then 1 else 0
        sfu := (0x400 ≤ op && op < 0x500) || op == 0x606
        pipe := if twoTicks i then 2 else 1
        alone := b.any (· > 2)
        yield := o.yieldHint || (match i with | .yield _ false _ => true | _ => false) }
  | _, _ => none'

/-- Fits (R253): the pick stays within every limit of R254 beside picks of this tick; `lost` issue slots are withheld (R19). -/
def Partition.fits (p : Partition) (lost : Nat) (ps : List Pick) (x : Pick) : Bool :=
  ps.length + p.pipesBusy + lost < 2 && !(ps.any (·.alone)) && (!x.alone || ps.isEmpty) &&
    (x.cam = 0 || (p.camBusy = 0 && ps.all fun q => q.cam = 0)) &&
    (x.mem = 0 || (p.memBusy = 0 && ps.all fun q => q.mem = 0)) &&
    (!x.sfu || ps.all fun q => !q.sfu) &&
    ((List.range 4).all fun b =>
      x.banks.getD b 0 = 0 || (p.bankBusy.getD b 0 = 0 &&
        (x.alone || ps.foldl (fun n q => n + q.banks.getD b 0) (x.banks.getD b 0) ≤ 2)))

/-- The first of a list of candidates that fits beside picks. -/
def State.firstFit (s : State) (p : Partition) (ps : List Pick) (l : List Candidate) : Option (Candidate × Pick) :=
  (l.find? fun x => p.fits s.withhold ps (s.pickOf x)).map fun x => (x, s.pickOf x)

/-- A split that yielded is held back while any other is ready (R146). -/
def unyielded (l : List Candidate) : List Candidate :=
  let fresh := l.filter fun x => !x.yielded
  if fresh.isEmpty then l else fresh

/-- Level 1 before level 0, the oldest first (R253). -/
def byLevel (l : List Candidate) : List Candidate := (l.filter fun x => x.level == 1) ++ l.filter fun x => x.level != 1

/-- The first pick of a tick and the second, chosen together before either issues (R253): the second is the next instruction of the
first's split, in that split's place, unless the first ends its run or yields, or the instruction of another ready split. -/
def State.choose (s : State) (k p : Nat) : Option ((Candidate × Pick) × Option (SplitRef × Nat)) :=
  let part := (s.core k).part p
  let l := byLevel (unyielded (s.candidates k p))
  (s.firstFit part [] l).map fun first =>
    let next := if first.2.ends || first.2.yield || first.1.pending then none else s.candidate? first.1.r 1
    let rest := l.filterMap fun x => if x.r = first.1.r then next.map fun n => { n with level := x.level } else some x
    let at_ := fun (r : SplitRef) => ((s.split? r).map (·.pc)).getD 0 + (if r = first.1.r then 1 else 0)
    (first, (s.firstFit part [first.2] rest).map fun x => (x.1.r, at_ x.1.r))

/-- The word chosen for the second pick still stands at its split's pc: where the first pick was the same split's, it has acted and the run
goes on. -/
def State.secondStands (s : State) (part : Partition) (x : SplitRef × Nat) : Bool :=
  (s.split? x.1).any fun p => p.pc == x.2 && !(part.picks.any (fun q => q.split == x.1) && p.run.isEmpty)

/-- The next pick of a partition in this tick: the first, or the second that was chosen with it, where it still can issue. With it the
split chosen for the second. -/
def State.nextPick (s : State) (k p : Nat) : Option ((Candidate × Pick) × Option (SplitRef × Nat)) :=
  let part := (s.core k).part p
  if part.picks.isEmpty then s.choose k p
  else
    (part.second.bind fun x => if s.secondStands part x then s.candidate? x.1 0 else none).bind fun x =>
      let pick := s.pickOf x
      if part.fits s.withhold part.picks pick then some ((x, pick), none) else none

/-- A pick takes its place in the tick, and the second pick is noted. -/
def Partition.take (p : Partition) (x : Pick) (second : Option (SplitRef × Nat)) : Partition :=
  { p with
    picks := p.picks ++ [x]
    second := second
    bankBusy := if x.alone then (List.range 4).map fun b => max (p.bankBusy.getD b 0) ((x.banks.getD b 0 + 1) / 2) else p.bankBusy }

/-- The end of a tick for a partition: units that stay busy, a new tick's slots (R254). -/
def Partition.tick (p : Partition) : Partition :=
  { p with
    picks := []
    second := none
    camBusy := (p.camBusy + p.picks.foldl (fun n q => n + q.cam) 0) - 1
    memBusy := (p.memBusy + p.picks.foldl (fun n q => n + q.mem) 0) - 1
    pipesBusy := (p.picks.filter fun q => q.pipe == 2).length
    bankBusy := p.bankBusy.map fun n => n - 1 }

/-- A word that is no instruction, or a place beyond the text: the fault of R148, R192 and R195. -/
def State.badWord (s : State) (r : SplitRef) (beyond : Bool) : State :=
  match s.split? r with
  | none => s
  | some p =>
    s.faultAt r { kind := if p.unwound && !beyond then .maskStack else .illegalInstruction, addr := 0, lane := none, pc := p.pc,
                  acc := 0 }

/-- A fault a group takes before its first instruction (R63, R223, R294), by the split it names where that is live. -/
def State.takePending (s : State) (r : SplitRef) : State :=
  match s.group? r with
  | none => s
  | some g =>
    match g.pending with
    | none => s
    | some (n, f) =>
      let r := if (g.split? n).isSome then r.other n else r
      (s.modGroup r fun g => { g with pending := none }).enterFault r f

/-- Issue slots are withheld in this tick, as many of every partition (R19): while the power is above its limit, or a stack above
100 °C (R33). How many of the two slots, tick by tick, is free. -/
def State.lostSlots (s : State) : Nat := if s.throttled || s.dies.any fun d => d.celsius > 100 then s.draw 6 0 % 3 else 0

/-! ## The hinge core's instructions -/

/-- A 16-bit parcel of a slot's code window at a local address; none outside it (R36). -/
def HingeSlot.parcel (h : HingeSlot) (slot pc : Nat) : Option Nat :=
  let base := 0x10000 + 0x2000 * slot
  if base ≤ pc && pc + 2 ≤ base + 0x2000 then some (natOfBytes (h.code.readBytes (pc - base) 2)) else none

/-- What the handler finds at its pc: outside the window (R36, reason WINDOW), or an instruction and its length. -/
def HingeSlot.fetch (h : HingeSlot) (slot pc : Nat) : Option (Nat × Except Reject Instr) :=
  match h.parcel slot pc with
  | none => none
  | some lo =>
    if hingeLength lo = 2 then some (2, decodeHinge lo)
    else
      match h.parcel slot (pc + 2) with
      | none => none
      | some hi => some (4, decodeHinge (lo + 65536 * hi))

end Sys2Proof.Machine
end

