-- ==== Sys2Proof/Machine/Engines.lean ====
section
/-!
DEFINITION. Reads and writes of memory that are a part of other work than a load or store of lanes (16 R265, R276): an engine, or an
instruction, asks for sectors, its requests go their way, and it goes on once they have been answered. The answers are kept under the
name of the work.
-/
namespace Sys2Proof.Machine

/-! ## Who asks -/

/-- Who asks: its core, its virtual function, the grid its writes belong to, its split, the name its answers are kept under, whether the
accesses are strong, the hint of its reads, the slice whose TLB it translates through (none: its core's), and its source fields in
an event record (R287). -/
structure Asker where
  core : Nat
  v : VfConfig
  grid : Nat
  owner : SplitRef
  key : Errand
  strong : Bool
  hint : Nat
  slice : Option Nat
  srck : Nat
  src : Nat
deriving DecidableEq, Repr

/-- An engine of a core that works for a team. -/
def engineAsker (k : Nat) (v : VfConfig) (grid : Nat) (owner : SplitRef) (key : Errand) (hint : Nat) : Asker :=
  { core := k, v := v, grid := grid, owner := owner, key := key, strong := false, hint := hint, slice := none, srck := 0,
    src := v.coreIndex k }

/-- What the asker has read. -/
def State.answersOf (s : State) (a : Asker) : Fetch := (s.core a.core).answers a.key

/-- Translation for an asker, through what its core or slice holds, and the entries that it has read. -/
def State.askXlate (s : State) (a : Asker) (va : Nat) (need : Need) : Except Miss Xlated :=
  s.translate (match a.slice with | none => (s.core a.core).tlb | some n => (s.slice n).tlb) (s.answersOf a) a.v va need

/-- Translations of addresses, in order, or the first that has not come to be. -/
def State.xlateAll (s : State) (a : Asker) (need : Need) : List Nat → Except (Miss × Nat) (List (Nat × Xlated))
  | [] => .ok []
  | va :: r =>
    match s.askXlate a va need with
    | .error e => .error (e, va)
    | .ok x =>
      match s.xlateAll a need r with
      | .error e => .error e
      | .ok xs => .ok ((va, x) :: xs)

/-- Translations that were used stay cached. -/
def State.cacheAsk (s : State) (a : Asker) (xs : List Xlated) : State :=
  match a.slice with
  | none => s.cacheCore a.core a.v.id xs
  | some n => s.cacheSlice n a.v.id xs

/-! ## The answers -/

/-- A byte of a sector that has come. -/
def Fetch.get (f : Fetch) (va : Nat) : Byte := (getKey [] f.got (va / 32 * 32)).getD (va % 32) 0

/-- An answer that has come to a core is kept where it was asked for. -/
def State.keepAnswer (s : State) (key : Errand) (q : Req) : State :=
  s.modCore q.core fun c =>
    { c with fetches := updateIf (fun f => f.key == key && f.asked.any fun p => p.1 == q.id) (fun f =>
        { f with asked := f.asked.filter fun p => p.1 != q.id, got := f.got ++ [(q.va, q.data)], time := max f.time q.time,
                 errs := f.errs ++ (q.failed.map fun k => (k, q.va)).toList }) c.fetches }

/-! ## Asking -/

/-- A request of an asker for one sector. -/
def Asker.req (a : Asker) (id va : Nat) (x : Xlated) (kind : ReqKind) (now trip : Nat) : Req :=
  { id := id, batch := id, core := a.core, vf := a.v.id, grid := a.grid, owner := a.owner, home := x.home, sector := x.pa / 32, page := x.va,
    size := x.page.size, hv := x.page.hv, pinned := x.page.home == 1, va := va, lane := none, pc := 0, kind := kind, errand := some a.key,
    strong := a.strong, hint := a.hint, out := none, arrived := none, done := false, data := [], olds := [], time := 0, expiry := none,
    noInstall := true, repl := false, failed := none, hop := now, trip := trip }

/-- Requests sent, and noted under the asker's name. -/
def State.askFor (s : State) (a : Asker) (l : List (Nat × Xlated × ReqKind)) : State :=
  let i := s.takeIds l.length
  let qs := ((List.range l.length).zip l).map fun p => a.req (i.1 + p.1) p.2.1 p.2.2.1 p.2.2.2 s.time 3
  let f := (s.core a.core).answers a.key
  let f := { f with asked := f.asked ++ qs.map fun q => (q.id, q.va) }
  (i.2.sendAll qs).modCore a.core fun c => { c with fetches := c.fetches.filter (fun x => x.key != a.key) ++ [f] }

/-- What has become of an asking: nothing new, answers being on their way; requests have been sent in this step; it has failed at an
address, and its answers are forgotten; all has come. -/
inductive Asked where
  | wait
  | sent (s : State)
  | fail (s : State) (f : Fetch) (k : FaultKind) (va : Nat)
  | got (s : State) (f : Fetch)

/-- An asker that waits for the sector of a page-table entry (R69): it is asked for, where it is not on its way. -/
def State.walking (s : State) (a : Asker) (pa : Nat) : Asked :=
  match s.askPhys a.core a.v.id a.grid a.owner a.key [pa] with
  | some s => .sent s
  | none => .wait

/-- What has kept an asker's translation from coming to be. -/
def State.notXlated (s : State) (a : Asker) (e : Miss × Nat) : Asked :=
  match e.1 with
  | .walk pa => s.walking a pa
  | .fault k => .fail (s.forget a.core a.key) (s.answersOf a) k e.2

/-- The first failure of what an asker has asked for by virtual addresses. -/
def Fetch.failure (f : Fetch) : Option (FaultKind × Nat) := f.errs.find? fun e => e.2 < 2 ^ 64

/-- Sectors read, by their virtual addresses. -/
def State.reading (s : State) (a : Asker) (secs : List Nat) : Asked :=
  let f := s.answersOf a
  let new := secs.filter fun va => !f.knows va
  if !new.isEmpty then
    match s.xlateAll a .load new with
    | .error e => s.notXlated a e
    | .ok xs =>
      .sent ((s.cacheAsk a (xs.map (·.2))).askFor a (xs.map fun p => (p.1, p.2, if a.strong then .strongRead else .read false)))
  else if !f.asked.isEmpty then .wait
  else
    match f.failure with
    | some e => .fail (s.forget a.core a.key) f e.1 e.2
    | none => .got s f

/-- Bytes and half-bytes written at virtual addresses, one request a sector, logged first where their pages need it (R73). -/
def State.writing (s : State) (a : Asker) (ws : List (Nat × Byte)) (hs : List (Nat × Bool × BitVec 4)) : Asked :=
  let f := s.answersOf a
  let secs := (ws.map (fun (w : Nat × Byte) => w.1 / 32 * 32) ++ hs.map (fun (h : Nat × Bool × BitVec 4) => h.1 / 32 * 32)).eraseDups
  if !f.asked.isEmpty then .wait
  else
    match f.failure with
    | some e => .fail (s.forget a.core a.key) f e.1 e.2
    | none =>
      if secs.all f.knows then .got s f
      else
        match s.xlateAll a .store secs with
        | .error e => s.notXlated a e
        | .ok xs =>
          let s := s.cacheAsk a (xs.map (·.2))
          match s.logWrite a.core a.v.id a.grid a.owner a.key (xs.map (·.2)) with
          | .wait s moved => if moved then .sent s else .wait
          | .full s moved =>
            if moved || !((s.vf? a.v.id).any (·.dirty.told)) then .sent (s.logFull a.v.id a.srck a.src (s.vfTime a.core a.v.id)) else .wait
          | .ready =>
            .sent (s.askFor a (xs.map fun p =>
              (p.1, p.2, .write ((ws.filter fun w => w.1 / 32 * 32 == p.1).map fun w => (w.1 % 32, w.2))
                ((hs.filter fun w => w.1 / 32 * 32 == p.1).map fun w => (w.1 % 32, w.2)))))

/-- The sectors that hold `n` bytes from an address. -/
def sectorsOf (a n : Nat) : List Nat := if n = 0 then [] else (List.range ((a + n - 1) / 32 - a / 32 + 1)).map fun i => 32 * (a / 32 + i)

/-! ## What an instruction itself reads (R52, R129, R232) -/

/-- An instruction of a split as an asker: its reads are strong. -/
def Ctx.asker (c : Ctx) : Asker :=
  { engineAsker c.r.core c.v.cfg c.team.grid c.r (.word c.r) 0 with strong := true }

/-- Sectors that an instruction reads before it acts, each of which takes the memory port (R216, R254). -/
def Ctx.ask (c : Ctx) (secs : List Nat) : Asked :=
  match c.own.reading c.asker secs with
  | .sent s => .sent (c.port ((s.reqs.drop c.own.reqs.length).filter fun q => q.va < 2 ^ 64).length s)
  | x => x

/-- An instruction that acts on what it has read, `go` being given the context without the answers, and them. A failed read is the
instruction's fault. -/
def Ctx.reads (c : Ctx) (secs : List Nat) (go : Ctx → Fetch → Act) : Act :=
  match c.ask secs with
  | .wait => c.held
  | .sent s => c.heldAsking s
  | .fail s _ k va => .stop s k va
  | .got s f => go { c with s := s.forget c.r.core (.word c.r) } f

end Sys2Proof.Machine
end

