-- ==== Sys2Proof/Machine/Tensor.lean ====
section
/-!
DEFINITION. Tensor descriptors (04 R52 to R56): the cached records, the fields and checks, element addresses, scratchpad placement,
scaled conversion.
-/
namespace Sys2Proof.Machine

/-! ## The descriptor cache (R52) -/

/-- The virtual address of a record. -/
def descVa (v : VfConfig) (id : Nat) : Nat := (v.descBase + 64 * id) % 2 ^ 64

/-- The sectors of a record. -/
def descSectors (v : VfConfig) (id : Nat) : List Nat := sectorsOf (descVa v id) 64

/-- A record placed in a core's cache, the most recently used of at most 64. -/
def Core.cacheDesc (c : Core) (d : DescLine) : Core :=
  { c with desc := lastOf 64 (c.desc.filter (fun x => !(x.vf == d.vf && x.id == d.id)) ++ [d]) }

/-- The cached record of an id. -/
def Core.desc? (c : Core) (vf id : Nat) : Option Nat := (c.desc.find? fun d => d.vf == vf && d.id == id).map (·.record)

/-- The record in the sectors that have come. -/
def Fetch.record (f : Fetch) (v : VfConfig) (id : Nat) : Nat := natOfBytes ((List.range 64).map fun i => f.get (descVa v id + i))

/-- The cache after a record has been used or fetched. -/
def State.useDesc (s : State) (k vf id record : Nat) : State := s.modCore k fun c => c.cacheDesc { vf := vf, id := id, record := record }

/-- The record of an id for an instruction: the one it captured, the cached one, or else it is fetched as a strong load, and the
instruction parks until it has come. -/
def Ctx.withDesc (c : Ctx) (id : Nat) (go : Ctx → Nat → Act) : Act :=
  match (if c.acting then none else (c.s.core c.r.core).desc? c.team.vf id) with
  | some d => go c d
  | none =>
    match c.cap.find? fun p => p.1 == 0 with
    | some p => go c p.2
    | none => c.reads (descSectors c.v.cfg id) fun c f => go c (f.record c.v.cfg id)

/-! ## Fields of a record (R53) -/

def tdBase (d : Nat) : Nat := bitsOf d 51 0 * 16
def tdMfmt (d : Nat) : Fmt := Fmt.ofCode (bitsOf d 56 52)
def tdSfmt (d : Nat) : Fmt := Fmt.ofCode (bitsOf d 61 57)
def tdSat (d : Nat) : Bool := d.testBit 62
def tdScale (d : Nat) : Nat := bitsOf d 115 64 * 16
def tdRank (d : Nat) : Nat := bitsOf d 118 116
def tdSkew (d : Nat) : Nat := bitsOf d 121 119
def tdOob (d : Nat) : Nat := bitsOf d 123 122
def tdDim (d k : Nat) : Nat := bitsOf d (159 + 32 * k) (128 + 32 * k)
def tdFill (d : Nat) : Nat := bitsOf d 319 288
def tdStride (d k : Nat) : Nat := bitsOf d (319 + 36 * k) (284 + 36 * k)
def tdBox (d k : Nat) : Nat := bitsOf d (471 + 8 * k) (464 + 8 * k) + 1
def tdBudget (d : Nat) : Nat := bitsOf d 511 504

/-- The skew unit in bytes (R53). -/
def tdUnit (d : Nat) : Nat := if tdSkew d = 0 then 0 else 2 ^ (tdSkew d + 1)

/-- Elements of a box, row and whole. -/
def boxRows (d : Nat) : Nat := tdBox d 1 * tdBox d 2 * tdBox d 3 * tdBox d 4

/-- Bits of a box row in scratchpad. -/
def rowBits (d : Nat) : Nat := tdBox d 0 * fmtWidth (tdSfmt d)

/-- Bytes of a box row, B0 (R56), and of the box. -/
def rowBytes (d : Nat) : Nat := rowBits d / 8
def boxBytes (d : Nat) : Nat := rowBytes d * boxRows d

def isPacked (f : Fmt) : Bool := (fmtPack f).isSome

/-- The checks of R54 in table order. -/
def checkDesc (d : Nat) : Option FaultKind :=
  let m := tdMfmt d
  let f := tdSfmt d
  let rk := tdRank d
  if !fmtTyped m || !fmtTyped f then some .illegalFormat
  else if (convClass m f).isNone || ((isPacked m || isPacked f) && m != f) || (tdOob d == 1 && fmtBits f) then some .illegalFormat
  else if d.testBit 63 || bitsOf d 127 124 != 0 || rk == 0 || rk ≥ 6 || tdSkew d ≥ 4 || tdOob d == 3 then some .illegalOperand
  else if (List.range 5).any fun k =>
      (k < rk && tdDim d k == 0) ||
        (k ≥ rk && (tdDim d k != 0 || tdBox d k != 1 || (k > 0 && tdStride d k != 0))) then some .illegalOperand
  else if rowBits d % 128 != 0 || (tdSkew d != 0 && tdUnit d * 8 < fmtWidth f) || boxBytes d > 131072 then some .illegalOperand
  else if tdScale d != 0 && (tdDim d 0 % 32 != 0 || convClass m f == some .copy) then some .illegalOperand
  else none

/-- The place in a box row of a byte at in-row offset `c` of row `r` (R56). -/
def skewed (d r c : Nat) : Nat :=
  if tdSkew d = 0 then r * rowBytes d + c else r * rowBytes d + (c + tdUnit d * r) % rowBytes d

/-! ## Elements (R55) -/

/-- The box-relative coordinates of a box row: dimensions 1 to 4. -/
def rowCoords (d row : Nat) : List Nat :=
  let b := fun k => tdBox d k
  [row % b 1, row / b 1 % b 2, row / (b 1 * b 2) % b 3, row / (b 1 * b 2 * b 3)]

/-- The coordinates of element `i` of a box row at the box's coordinates. -/
def elemCoords (d : Nat) (at_ : List Int) (row i : Nat) : List Int :=
  let rel := i :: rowCoords d row
  (List.range (tdRank d)).map fun k => at_.getD k 0 + rel.getD k 0

/-- Every coordinate lies within its dimension. -/
def inBounds (d : Nat) (cs : List Int) : Bool :=
  (List.range (tdRank d)).all fun k => 0 ≤ cs.getD k 0 && cs.getD k 0 < tdDim d k

/-- Bits of an element in memory. -/
def memBits (d : Nat) : Nat := fmtWidth (tdMfmt d)

/-- The bit address of an in-bounds element: 8 times its byte address, plus 4 for a high half-byte. -/
def elemBit (d : Nat) (cs : List Int) : Nat :=
  let c := fun k => (cs.getD k 0).toNat
  (tdBase d + ((List.range (tdRank d)).map fun k => if k = 0 then 0 else c k * tdStride d k * 16).foldl (· + ·) 0) * 8 + c 0 * memBits d

/-- The scale byte's address of an in-bounds element. -/
def scaleVa (d : Nat) (cs : List Int) : Nat :=
  let c := fun k => (cs.getD k 0).toNat
  tdScale d + (c 0 + tdDim d 0 * (c 1 + tdDim d 1 * (c 2 + tdDim d 2 * (c 3 + tdDim d 3 * c 4)))) / 32

/-- A number times a power of two. -/
def scaleNum (x : Num) (k : Int) : Num :=
  match x with
  | .fin n m e => .fin n m (e + k)
  | y => y

/-- An element converted between its codes by a scale byte (R55): `out` is a copy out of scratchpad. -/
def convertScaled (d : Nat) (out : Bool) (scale : Option Nat) (bits : Nat) : Nat :=
  let src := if out then tdSfmt d else tdMfmt d
  let dst := if out then tdMfmt d else tdSfmt d
  match scale with
  | none => convert src dst .rne (tdSat d) false bits
  | some e =>
    if e = 255 then
      let (fd, n, w) := fmtElems dst
      mapElems w n fun _ => roundTo .canonical fd .rne (tdSat d) false
    else
      let k : Int := if out then 127 - (e : Int) else (e : Int) - 127
      match fmtPack src with
      | some _ =>
        let (fs, n, w) := fmtElems src
        let (fd, _, _) := fmtElems dst
        mapElems w n fun i => roundTo (scaleNum (val fs false (elemAt w i bits)) k) fd .rne (tdSat d) false
      | none => roundTo (scaleNum (anyVal src false bits) k) dst .rne (tdSat d) false

/-- The fill of an out-of-bounds element in a format (R53). FILL has 32 bits: what fills the upper 32 bits of a 64-bit element is open, and
the low bits of `hi` give them (log entry 65). -/
def fillBits (d : Nat) (f : Fmt) (hi : Nat) : Nat :=
  match tdOob d with
  | 1 =>
    if f == .e2m1 then 0
    else
      let (ef, n, w) := fmtElems f
      mapElems w n fun _ => roundTo .canonical ef .rne false false
  | 2 => (tdFill d + 2 ^ 32 * hi) % 2 ^ fmtWidth f
  | _ => 0

end Sys2Proof.Machine
end

