-- ==== Sys2Proof/Machine/Code.lean ====
section
/-!
DEFINITION. Kernel text on its way to a core: the image a die runs (20 R302), instruction-cache fills with their decryption (R306),
ICPREF and ICINV (12 R209, 13 R245), the translation of KIS-1 text (R303 to R305), and installing a handler image (R308).
-/
namespace Sys2Proof.Machine

/-! ## Where a kernel's text lies -/

/-- The object and kernel that a virtual address of text belongs to, and the byte offset from the kernel's index 0. Kernel k begins
k MiB above the object's text (log entry 21). -/
def Vf.textAt (v : Vf) (va : Nat) : Option (CodeObject × Nat × Nat) :=
  (v.objects.find? fun o => o.plan.textVa ≤ va && va < o.plan.textVa + 2 ^ 20 * o.kernels.length).map fun o =>
    (o, (va - o.plan.textVa) / 2 ^ 20, (va - o.plan.textVa) % 2 ^ 20)

/-- The image a die runs of an object (R302), once chosen. -/
def CodeObject.image? (o : CodeObject) (die : Nat) : Option Image := ((o.pick.getD []).getD die none).bind fun i => o.images[i]?

/-- The translated text of an object (R305): its place, and that of the text tags. -/
def CodeObject.translated (o : CodeObject) : Nat := o.area + (4096 * o.kernels.length + 65535) / 65536 * 65536

def CodeObject.textTags (o : CodeObject) (img : Image) : Nat := o.translated + (img.size + 127) / 128 * 128

/-- The state word of a KIS-1 kernel (R304, R305). -/
def CodeObject.stateWord (o : CodeObject) (k : Nat) : Nat := o.area + 4096 * k

/-- The IV of a line (R306): the nonce, then the line index, big-endian. -/
def CodeObject.iv (o : CodeObject) (index : Nat) : List Byte := o.nonce ++ (bytesOfNat 4 index).reverse

/-- `n` sectors from a physical address as an errand knows them, or the first that is not there. -/
def Fetch.sectors (f : Fetch) (pa : Nat) : Nat → Except Miss (List Byte)
  | 0 => .ok []
  | n + 1 =>
    match f.phys pa 32 with
    | .error e => .error e
    | .ok b =>
      match f.sectors (pa + 32) n with
      | .error e => .error e
      | .ok r => .ok (b ++ r)

/-- One line of text as an errand has read it, decrypted where the object is protected; the failure is none when the tag fails. -/
def Fetch.openLine (f : Fetch) (o : CodeObject) (pa tagPa index : Nat) : Except (Option Miss) (List Byte) :=
  match f.sectors pa 4 with
  | .error k => .error (some k)
  | .ok text =>
    if !o.enc then .ok text
    else
      match f.phys tagPa 16 with
      | .error k => .error (some k)
      | .ok tag =>
        match gcmOpen o.key (o.iv index) text tag with
        | some b => .ok b
        | none => .error none

/-- A line of an image, by its offset in the image. -/
def Fetch.imageLine (f : Fetch) (o : CodeObject) (img : Image) (off : Nat) : Except (Option Miss) (List Byte) :=
  let at_ := img.off + off
  f.openLine o (o.plan.textPa + at_) (o.plan.textPa + o.tagOff + 16 * (at_ / 128)) (at_ / 128)

/-- A line of translated text. -/
def Fetch.translatedLine (f : Fetch) (o : CodeObject) (img : Image) (off : Nat) : Except (Option Miss) (List Byte) :=
  f.openLine o (o.translated + off) (o.textTags img + 16 * (off / 128)) (0x80000000 + off / 128)

/-- Bytes within a sector as their home holds them, for a step of a command processor's own; none where they are lost. -/
def State.cpPeek (s : State) (vf pa n : Nat) : Option (List Byte) :=
  let h := physHome vf pa
  if targetOf pa == .absent || s.bad h.1 h.2 then none else some (s.valueAt h.1 (32 * h.2 + pa % 32) n)

/-- The state word of a kernel (R304): 0 NONE, 1 BUSY, 2 READY. -/
def State.textState (s : State) (vf : Nat) (o : CodeObject) (k : Nat) : Option Nat := (s.cpPeek vf (o.stateWord k) 8).map natOfBytes

/-! ## Filling an instruction cache (R252, R306) -/

/-- What a fill finds: nothing to fill (no such text, or not translated yet), a sector that has yet to be read, a fault (none: a tag that
fails), the line's bytes. -/
inductive Filled where
  | nothing
  | walk (pa : Nat)
  | bad (k : Option FaultKind)
  | line (b : List Byte) (x : Xlated)

/-- The line a core's die runs at a virtual line of a virtual function (R71, R302, R304, R306), by what the fill has read. -/
def State.textLine (s : State) (k : Nat) (v : Vf) (line : Nat) : Filled :=
  let f := (s.core k).answers (.text v.cfg.id line)
  match v.textAt (128 * line) with
  | none => .nothing
  | some (o, n, off) =>
    match o.image? (k / 48) with
    | none => .nothing
    | some img =>
      let ke := img.kernels.getD n (0, 0)
      if off / 16 ≥ ke.2 then .nothing
      else
        match (if img.kind = 1 then (f.phys (o.stateWord n) 8).map natOfBytes else .ok 2) with
        | .error (.walk pa) => .walk pa
        | .error (.fault e) => .bad (some e)
        | .ok w =>
          if w ≠ 2 then .nothing
          else
            match s.translate (s.core k).tlb f v.cfg (128 * line) .fetch with
            | .error (.walk pa) => .walk pa
            | .error (.fault e) => .bad (some e)
            | .ok x =>
              match (if img.kind = 1 then f.translatedLine o img (ke.1 + off) else f.imageLine o img (ke.1 + off)) with
              | .error (some (.walk pa)) => .walk pa
              | .error (some (.fault e)) => .bad (some e)
              | .error none => .bad none
              | .ok b => .line b x

/-- A line put into a core's instruction cache, which holds 128 KiB (R13); the line filled first goes (log entry 48). -/
def State.putIc (s : State) (k vf line : Nat) (b : List Byte) (x : Xlated) : State :=
  (s.cacheCore k vf [x]).modCore k fun c =>
    { c with ic := lastOf 1024 (c.ic.filter (fun l => !(l.vf == vf && l.line == line)) ++ [{ vf := vf, line := line, bytes := b }]) }

/-- The splits of a core that wait for a line to fetch their next instruction. -/
def State.fetchers (s : State) (k vf line : Nat) : List (SplitRef × Nat) :=
  (s.core k).teams.flatMap fun t =>
    if t.vf ≠ vf then []
    else t.groups.flatMap fun g => g.splits.filterMap fun p =>
      if p.ready t g && g.pending.isNone && t.kernel.line p.pc == line && (s.core k).fetch vf t.kernel p.pc == .absent then
        some ({ core := k, team := t.id, grp := g.grp, split := p.sid }, p.pc)
      else none

/-- The first index that a line holds for a split. -/
def State.firstIndex (s : State) (r : SplitRef) (line : Nat) : Nat :=
  ((s.team? r.core r.team).map fun t => (line * 128 - t.kernel.text) / 16).getD 0

/-- The fault of a fetch, taken by each fetching split at its instruction (R283), for a tag that fails ACCESS at the first index of the
line (R306). -/
def State.fetchFault (s : State) (k vf line : Nat) (e : Option FaultKind) : State :=
  (s.fetchers k vf line).foldl (fun s p =>
    s.faultAt p.1 { kind := e.getD .access, addr := 128 * line, lane := none, pc := if e.isSome then p.2 else s.firstIndex p.1 line, acc := 2 }) s

/-- The asker of a core's instruction cache. -/
def fetchOwner (k : Nat) : SplitRef := { core := k, team := 2 ^ 64, grp := 0, split := 0 }

/-- A core wants a line: one of its splits fetches from it, or ICPREF has asked for it. -/
def State.wantsLine (s : State) (k vf line : Nat) : Bool :=
  !(s.fetchers k vf line).isEmpty || (s.core k).fetches.any fun f => f.key == .text vf line

/-- A fill of an instruction cache goes on: what it needs is read at its homes, sector by sector (R69, R304, R306), then the line is put
into the cache or the splits that fetch from it take the fault; `err` tells whether an uncorrectable error strikes what it asks for. -/
def State.fillIc (s : State) (k : Nat) (v : Vf) (line : Nat) (err : Bool) : State :=
  let vf := v.cfg.id
  match s.textLine k v line with
  | .nothing => s.forget k (.text vf line)
  | .walk pa =>
    (State.askPhys (if err then s.strike (pa / 32) else s) k vf (2 ^ 64) (fetchOwner k) (.text vf line) [pa]).getD s
  | .bad e => (s.forget k (.text vf line)).fetchFault k vf line e
  | .line b x => (s.forget k (.text vf line)).putIc k vf line b x

/-- IC_FILL (R252, R306). -/
def execIcFill (core vf line : Nat) (err : Bool) (s : State) : Answered :=
  match s.vf? vf with
  | none => .next s.bump
  | some v => .next (if s.wantsLine core vf line then s.fillIc core v line err else s).bump

/-- The lines that ICPREF fetches (R209): from the one that holds index A, within the text, that the core does not hold. -/
def Ctx.prefLines (c : Ctx) : List Nat :=
  let n := min (max c.uniB 1) 64
  let k := c.team.kernel
  let its := ((List.range n).map fun i => c.uniA / 8 + i).filter fun i => 8 * i < k.words
  (its.map fun i => k.line (8 * i)).filter fun line => ((c.s.core c.r.core).icLine c.team.vf line).isNone

/-- A core is to fill a line of its instruction cache. -/
def State.wantLine (s : State) (k vf line : Nat) : State :=
  s.modCore k fun c => if c.fetches.any fun f => f.key == .text vf line then c else { c with fetches := c.fetches ++ [Fetch.fresh (.text vf line)] }

/-- ICPREF (R209): its lines are filled as though a split fetched from them; one that cannot be filled is left. -/
def execIcpref (o : Ops) (s : State) : Answered :=
  issue (.icpref o) s fun c =>
    if !c.any then .ok c.s else .ok (c.prefLines.foldl (fun s line => s.wantLine c.r.core c.team.vf line) c.s)

/-- Answers of a fill in flight of a line are dropped: it reads afresh. -/
def Fetch.refill (p : Nat → Nat → Bool) (f : Fetch) : Fetch :=
  match f.key with
  | .text vf line => if p vf line then Fetch.fresh f.key else f
  | _ => f

/-- ICINV (R245): the kernel's lines that hold indices A to A + B − 1, all of its lines for a count of 0; fills of them in flight read
afresh. -/
def execIcinv (o : Ops) (s : State) : Answered :=
  issue (.icinv o) s fun c =>
    if !c.any then .ok c.s
    else
      let k := c.team.kernel
      let lo := if c.uniB = 0 then 0 else min c.uniA k.words
      let hi := if c.uniB = 0 then k.words else min (c.uniA + c.uniB) k.words
      let holds := fun (vf line : Nat) => vf == c.team.vf && k.line lo ≤ line && lo < hi && line ≤ k.line (hi - 1)
      .ok (c.s.modCore c.r.core fun x => { x with ic := x.ic.filter fun l => !holds l.vf l.line, fetches := x.fetches.map (Fetch.refill holds) })

/-! ## KIS-1 (R303, R304) -/

/-- The word a KIS-1 word that is illegal at its level becomes. -/
def illegalWord : Nat := 0x0F * 2 ^ 120

/-- An operand field of KIS-1: registers stop at v127, cams at c7. -/
def kis1Operand : Operand → Bool
  | .vec n => n.toNat < 128
  | .cls k i => k != 3 || i.toNat < 8
  | _ => true

/-- A register of a pair or a block, too. -/
def kis1Reg : Reg → Bool
  | .v n => n < 128
  | _ => true

def kis1Map : MapSel → Bool
  | .user c => c.val < 8
  | _ => true

/-- The instruction of a KIS-1 word, where it is legal at its level. -/
def kis1Instr (w : Nat) : Option Instr :=
  if w.testBit 127 then none
  else
    match decodeWord (BitVec.ofNat 128 w) with
    | .error _ => none
    | .ok i =>
      match i.code with
      | none => none
      | some (op, o) =>
        if op / 256 = 0xC || (match i with | .enq .. | .qsub .. | .qunsub .. | .smsg .. => true | _ => false) then none
        else if [o.d, o.a, o.b, o.c, o.e].all kis1Operand && [o.ma, o.mb, o.mc].all kis1Map && (i.fieldReads o ++ i.writes o).all kis1Reg then some i
        else none

/-- The cam binding or local queue that a used field names (R83). -/
def slotRegs (sl : Option Field) (f : Operand) : List Reg :=
  match sl, f with
  | some _, .cls k i => if k == 3 then [.c i.toNat] else if k == 4 then [.lq i.toNat] else []
  | _, _ => []

/-- The registers that the operand fields and guards of a KIS-1 word name (R83), pairs and blocks whole; none for one that is illegal. The
coordinates of CPY and CPYW count as a block of five, the most a descriptor has (R52): its rank is not in the text (DEDUCED, log entry
83). QPOP writes the queue that it reads. -/
def kis1Regs (i : Option Instr) : RunRec :=
  match i.bind fun i => i.code.map fun c => (i, c.2) with
  | some (i, o) =>
    let g := i.sig
    let block := match i, o.c with
      | .cpy .., .vec n | .cpyw .., .vec n => (List.range 5).map fun k => Reg.v (n.toNat + k)
      | _, _ => []
    let queue := match i with | .qpop .. => slotRegs g.a o.a | _ => []
    { reads := i.fieldReads o ++ block ++ slotRegs g.a o.a ++ slotRegs g.b o.b ++ slotRegs g.c o.c ++ slotRegs g.e o.e,
      writes := i.writes o ++ slotRegs g.d o.d ++ queue }
  | none => { reads := [], writes := [] }

/-- A control word other than NOP, or RETT or ICINV (R145). -/
def kis1Control (i : Option Instr) : Bool :=
  match i.bind (·.code) with
  | some (op, _) => (0 < op && op < 0x100) || op == 0xE01 || op == 0xE05
  | none => false

/-- A word meets what the run holds: it touches a register the run writes, or writes one the run reads. -/
def meets (run : List RunRec) (next : RunRec) : Bool :=
  run.any fun e => (next.reads ++ next.writes).any e.writes.contains || next.writes.any e.reads.contains

/-- The translator of R303 on the words from one on; `run` is what the words since the end of the last run touch. -/
def kis1Words : List RunRec → List Nat → List Nat
  | _, [] => []
  | run, w :: r =>
    let i := kis1Instr w
    let run' := run ++ [kis1Regs i]
    let stop := match r with
      | [] => true
      | n :: _ => meets run' (kis1Regs (kis1Instr n))
    let s := stop && i.isSome
    ((if i.isSome then w else illegalWord) + if s then 2 ^ 127 else 0) :: kis1Words (if s || kis1Control i then [] else run') r

/-- Lines in sequence, or the first failure. -/
def readLines {ε : Type} (f : Nat → Except ε (List Byte)) : List Nat → Except ε (List Byte)
  | [] => .ok []
  | a :: r =>
    match f a with
    | .error e => .error e
    | .ok b =>
      match readLines f r with
      | .error e => .error e
      | .ok t => .ok (b ++ t)

/-! ### Writes of the command processors -/

/-- Bytes within one line written to the package's memory at their home. -/
def State.physWrite (s : State) (a : Nat) (b : List Byte) : State := s.writeAt (.slice (homeSlice a)) (a / 128) (bytesFrom a b)

/-- A write by physical address may be made now (R31, R76): nothing stands in its line's order, and its leases are over. -/
def State.physReady (s : State) (a : Nat) : Bool :=
  let h := HomeLoc.slice (homeSlice a)
  !s.lineTaken h (a / 128) && s.leasesOver h (a / 128)

/-- Pieces of bytes from an address, each within one line. -/
def linePieces : (fuel : Nat) → (a : Nat) → List Byte → List (Nat × List Byte)
  | 0, _, _ => []
  | n + 1, a, b => if b.isEmpty then [] else (a, b.take (128 - a % 128)) :: linePieces n (a + (128 - a % 128)) (b.drop (128 - a % 128))

/-- Bytes from an address as the writes of lines. -/
def lineWrites (a : Nat) (b : List Byte) : List (Nat × List Byte) := linePieces (b.length / 128 + 2) a b

/-- Writes made in order. -/
def State.physWrites (s : State) (l : List (Nat × List Byte)) : State := l.foldl (fun s w => s.physWrite w.1 w.2) s

/-- The writes of one line of translated text, with its tag where the object is protected (R305, R306). -/
def CodeObject.putTranslated (o : CodeObject) (img : Image) (off : Nat) (b : List Byte) : List (Nat × List Byte) :=
  if !o.enc then [(o.translated + off, b)]
  else
    let p := gcmSeal o.key (o.iv (0x80000000 + off / 128)) b
    [(o.translated + off, p.1), (o.textTags img + 16 * (off / 128), p.2)]

/-- The translated text of a kernel, in lines. -/
def translateText (bytes : List Byte) (words : Nat) : List Byte :=
  let ws := (List.range words).map fun i => natOfBytes ((bytes.drop (16 * i)).take 16)
  (kis1Words [] ws).flatMap (bytesOfNat 16)

/-- The writes of a kernel's translated text. -/
def CodeObject.translation (o : CodeObject) (img : Image) (k : Nat) (bytes : List Byte) : List (Nat × List Byte) :=
  let ke := img.kernels.getD k (0, 0)
  let out := translateText bytes ke.2
  (List.range ((16 * ke.2 + 127) / 128)).flatMap fun i =>
    let b := (out.drop (128 * i)).take 128
    o.putTranslated img (ke.1 + 128 * i) (b ++ List.replicate (128 - b.length) 0)

/-- The lines that splits wait for in a kernel whose text their die translates: core and line. -/
def State.kis1Fetches (s : State) (vf : Nat) (o : CodeObject) (k : Nat) : List (Nat × Nat) :=
  s.cores.flatMap fun c => c.2.teams.flatMap fun t =>
    if t.vf = vf && t.kernel.obj = o.id && t.kernel.num = k && ((o.image? (c.1 / 48)).any fun i => i.kind = 1) then
      t.groups.flatMap fun g => g.splits.filterMap fun p =>
        if p.ready t g && c.2.fetch vf t.kernel p.pc == .absent then some (c.1, t.kernel.line p.pc) else none
    else []

/-- An object of a virtual function changed. -/
def State.modObject (s : State) (vf obj : Nat) (f : CodeObject → CodeObject) : State :=
  s.modVf vf fun v => { v with objects := updateIf (fun o => o.id == obj) f v.objects }

/-- The state word of a kernel stored (R304), and what is known of the die that has won its translation. -/
def State.setKernel (s : State) (vf : Nat) (o : CodeObject) (k word : Nat) (win : Option (Nat × Option Nat)) : State :=
  (s.physWrite (o.stateWord k) (bytesOfNat 8 word)).modObject vf o.id fun o =>
    { o with busy := o.busy.filter (fun b => b.1 != k) ++ (win.map fun w => (k, w)).toList }

/-- A command processor's read of a sector by its physical address, under the name of what it works at. -/
def State.cpAsk (s : State) (vf : Nat) (key : Errand) (pa : Nat) : State :=
  (s.askPhys cpCore vf (2 ^ 64) (fetchOwner cpCore) key [pa]).getD s

/-- The winner reads the KIS-1 text, sector by sector, and writes the translated text once the homes of all its lines take the writes (R304
step 3). Where the text cannot be read, the waiting splits take the fault (log entry 22). -/
def State.translateKernel (s : State) (vf : Nat) (o : CodeObject) (img : Image) (k die : Nat) (f : List (Nat × Nat)) : State :=
  let ke := img.kernels.getD k (0, 0)
  let key := Errand.kernel o.id k
  let fails := fun (e : Option FaultKind) =>
    (f.foldl (fun s p => s.fetchFault p.1 vf p.2 e) (s.forget cpCore key)).setKernel vf o k 0 none
  match readLines (fun i => ((s.core cpCore).answers key).imageLine o img (ke.1 + 128 * i)) (List.range ((16 * ke.2 + 127) / 128)) with
  | .error (some (.walk pa)) => s.cpAsk vf key pa
  | .error (some (.fault e)) => fails (some e)
  | .error none => fails none
  | .ok b =>
    let ws := o.translation img k b
    if ws.any fun w => !s.physReady w.1 then s
    else
      let t := ws.foldl (fun t w => max t (s.homeTime (.slice (homeSlice w.1)))) 0
      ((s.forget cpCore key).physWrites ws).modObject vf o.id fun o => { o with busy := o.busy.filter (fun b => b.1 != k) ++ [(k, die, some t)] }

/-- KIS1_TRANSLATE (R303, R304): for a kernel a split waits for, the compare-and-swap of its state word from NONE to BUSY, whose winner is
the die of the core that fetches; the text; and READY once FENCE.dev's condition holds on that die. The swap and the two stores are made at the home once nothing
stands in their line's order. Every other requester waits until its fetch reads READY (`State.textLine`). -/
def execKis1Translate (vf obj kernel : Nat) (s : State) : Answered :=
  match (s.vf? vf).bind fun v => v.objects.find? fun o => o.id == obj with
  | none => .next s.bump
  | some o =>
    let f := s.kis1Fetches vf o kernel
    match o.images.find? fun i => i.kind == 1 with
    | none => .next s.bump
    | some img =>
      if !s.physReady (o.stateWord kernel) then .next s.bump
      else
        match o.busy.find? fun b => b.1 == kernel, f with
        | none, [] => .next s.bump
        | none, (k, _) :: _ =>
          if s.textState vf o kernel = some 0 then .next (s.setKernel vf o kernel 1 (some (k / 48, none))).bump else .next s.bump
        | some (_, die, none), _ => .next (s.translateKernel vf o img kernel die f).bump
        | some (_, die, some t), _ => if s.timeAt die > t then .next (s.setKernel vf o kernel 2 none).bump else .next s.bump

/-! ## Handler images (R308) -/

/-- The slot control word's fields of an image (R38, R300: bits 44:0). -/
def HingeSlot.ofControl (w vf : Nat) : HingeSlot :=
  { HingeSlot.reset with
    loaded := true, vf := vf, entry := bitsOf w 12 0, trig := bitsOf w 16 13, bmiss := bitsOf w 23 17, bfill := bitsOf w 30 24,
    bevict := bitsOf w 37 31, bmsg := bitsOf w 44 38 }

/-- A slot cleared in every slice: no new triggers, and those queued are discarded without count (R41). -/
def State.clearSlot (s : State) (slot : Nat) : State :=
  { s with slices := s.slices.map fun p =>
      (p.1, { p.2.modSlot slot (fun h => { h with loaded := false }) with queue := p.2.queue.filter fun t => t.slot != slot }) }

/-- A handler of a slot runs at some slice. -/
def State.slotRuns (s : State) (slot : Nat) : Bool := s.slices.any fun p => p.2.run.any fun h => h.slot == slot

/-- The plain bytes of an object's handler image as the command processor has read it, decrypted where the object is protected. -/
def Fetch.handlerImage (f : Fetch) (o : CodeObject) : Except (Option Miss) (List Byte) :=
  match o.images.find? fun i => i.kind == 2 with
  | none => .error none
  | some i => readLines (fun n => f.imageLine o i (128 * n)) (List.range (i.size / 128))

/-- HANDLER_IMAGE_INSTALL (R308): the image is read and decrypted (R306), then the code, the zeroed data window, the control word and LOADED are
written in all 256 slices; when events of the slot were last posted stays known (R50). An image that cannot be read is not installed
(DESIGN CHOICE, log entry 21). -/
def execHandlerImageInstall (vf : Nat) (s : State) : Answered :=
  match s.vf? vf with
  | none => .next s.bump
  | some v =>
    match v.handler, v.cfg.hingeSlot with
    | some obj, some slot =>
      if s.slotRuns slot then .next s.bump
      else
        let key := Errand.image vf
        let t := (s.forget cpCore key).modVf vf fun v => { v with handler := none }
        match (match v.objects.find? fun o => o.id == obj with | some o => ((s.core cpCore).answers key).handlerImage o | none => .error none) with
        | .error (some (.walk pa)) => .next (s.cpAsk vf key pa).bump
        | .error _ => .next t.bump
        | .ok b =>
          let h := { HingeSlot.ofControl (natOfBytes (b.take 8)) vf with code := Memory.writeBytes [] 0 ((b.drop 128).take 8192) }
          .next ((List.range 256).foldl (fun s n => s.modSlice n fun c => c.modSlot slot fun old => { h with posted := old.posted }) t).bump
    | _, _ => .next s.bump

end Sys2Proof.Machine
end

