-- ==== Sys2Proof/Machine/Control.lean ====
section
/-!
DEFINITION. Control instructions, major 0x0 (12 R191 to R200), but for YIELD, which stands with the latches.
-/
namespace Sys2Proof.Machine

/-- The lanes of the split in which the condition holds, after NEG (R193). -/
def Ctx.cond (c : Ctx) (neg : Bool) : Mask := maskOf fun l => laneIn c.split.mask l && (c.pred c.o.a l != neg)

/-- A target given as a displacement from the instruction's own index (R192). -/
def Ctx.target (c : Ctx) (disp : BitVec 14) : Nat := ((c.split.pc : Int) + disp.toInt).toNat

/-- The split with new values for what control changes, then unwound if its mask is empty (R195). -/
def Ctx.steer (c : Ctx) (pc : Nat) (mask : Mask) (frames : List Frame) : State :=
  (c.s.modSplit c.r fun p => { p with pc := pc, mask := mask, frames := frames, unwound := false }).unwind c.r

/-- A control instruction that has set the pc itself. -/
def Act.moved (s : State) : Act := .done s [] false

/-- The stack is full (R191). -/
def Ctx.full (c : Ctx) : Bool := c.split.frames.length ≥ 16

/-- Everything of a split that has not returned, by name: its writes count for both halves of a division (R194), and both wait for its
results (R145). -/
def State.namesOut (s : State) (r : SplitRef) : List Nat :=
  let c := s.core r.core
  let outs := c.outs.filter fun o => s.mine r o.owner o.id
  (s.reqs.filter fun q => q.own && s.mine r q.owner q.id).map (·.id) ++ outs.map (·.id) ++ outs.flatMap (fun o => o.finish.ids) ++
    (c.sops.filter fun o => s.mine r o.owner o.id).map (·.id)

/-- The new split of a division (R193, R194): the else side, just younger than the split that divided. The run that the IF ends is the
run of both, so that it too waits until the results of that run are written (R145). Barriers that the split has passed with .arv count for
both halves (DESIGN CHOICE, log entry 76: R199 does not say). -/
def Ctx.divide (c : Ctx) (t : Nat) (tm fm : Mask) : State :=
  let n := c.group.nextSid
  let p := c.split
  let me : Frame := .ifF true false t p.mask 0 n
  let its : Frame := .ifF true true t p.mask 0 p.sid
  let young : Split :=
    { p with sid := n, pc := t, mask := fm, frames := its :: p.frames, promoted := false, readyTicks := 0, run := [], poison := [],
             ending := true, deferred := none, yielded := none, park := .none, since := none, shared := p.shared ++ c.s.namesOut c.r }
  let s := c.s.modGroup c.r fun g =>
    { (g.modSplit p.sid fun p => { p with pc := p.pc + 1, mask := tm, frames := me :: p.frames }) with
      nextSid := n + 1
      usync := g.usync.map fun u => if u.knows.contains p.sid then { u with knows := u.knows ++ [n] } else u
      splits := (g.modSplit p.sid fun p => { p with pc := p.pc + 1, mask := tm, frames := me :: p.frames }).splits ++ [young] }
  s.modCore c.r.core fun k => k.modPart c.group.part fun x =>
    { x with order := x.order.flatMap fun o =>
        if o == (c.r.team, c.r.grp, p.sid) then [o, (c.r.team, c.r.grp, n)] else [o] }

/-- NOP (R197). -/
def execNop (o : Ops) (s : State) : Answered := issue (.nop o) s fun c => .ok c.s

/-- IF (R193). -/
def execIf (o : Ops) (neg : Bool) (disp : BitVec 14) (s : State) : Answered :=
  issue (.if_ o neg disp) s fun c =>
    let t := c.target disp
    let tm := c.cond neg
    let fm := maskMinus c.split.mask tm
    if c.full then .uniform .maskStack
    else if tm != 0 && fm != 0 && c.group.splits.length < 4 then .moved (c.divide t tm fm)
    else
      .moved (c.s.modSplit c.r fun p =>
        { p with pc := if tm != 0 then p.pc + 1 else t, mask := tm, unwound := tm == 0, frames := .ifF false false t p.mask fm 0 :: p.frames })

/-- ELSE (R193). -/
def execElse (o : Ops) (disp : BitVec 14) (s : State) : Answered :=
  issue (.else_ o disp) s fun c =>
    let t := c.target disp
    match c.split.frames with
    | .ifF dv side next ms fm pair :: rest =>
      if next != c.split.pc then .uniform .maskStack
      else if side then .moved (c.steer (c.split.pc + 1) c.split.mask (.ifF dv side t ms fm pair :: rest))
      else if dv then .moved (c.steer t c.split.mask (.ifF dv side t ms fm pair :: rest))
      else
        let m := maskMinus fm c.group.exited
        .moved (c.steer (if m != 0 then c.split.pc + 1 else t) m (.ifF dv true t ms fm pair :: rest))
    | _ => .uniform .maskStack

/-- ENDIF (R193): at a divided frame the split parks for its pair, and merges at its run end (R194). -/
def execEndif (o : Ops) (s : State) : Answered :=
  issue (.endif o) s fun c =>
    match c.split.frames with
    | .ifF dv _ next ms _ _ :: rest =>
      if next != c.split.pc then .uniform .maskStack
      else if dv then .moved (c.s.modSplit c.r fun p => { p with park := .merge })
      else .moved (c.steer (c.split.pc + 1) (maskMinus ms c.group.exited) rest)
    | _ => .uniform .maskStack

/-- LOOP (R193). -/
def execLoop (o : Ops) (disp : BitVec 14) (s : State) : Answered :=
  issue (.loop o disp) s fun c =>
    if c.full then .uniform .maskStack
    else .moved (c.steer (c.split.pc + 1) c.split.mask (.loopF (c.split.pc + 1) (c.target disp) c.split.mask 0 :: c.split.frames))

/-- ENDLOOP (R193). -/
def execEndloop (o : Ops) (s : State) : Answered :=
  issue (.endloop o) s fun c =>
    match c.split.frames with
    | .loopF start fin ms ct :: rest =>
      if fin != c.split.pc then .uniform .maskStack
      else
        let m := c.split.mask ||| maskMinus ct c.group.exited
        if m != 0 then .moved (c.steer start m (.loopF start fin ms 0 :: rest))
        else .moved (c.steer (c.split.pc + 1) (maskMinus ms c.group.exited) rest)
    | _ => .uniform .maskStack

/-- The frames after lanes have left a loop (R193): IF frames above the topmost LOOP lose them, CONT adds them to its CT; none where
there is no LOOP frame above any CALL frame. -/
def leaveLoop (cont : Bool) (l : Mask) : List Frame → Option (List Frame)
  | .loopF a b ms ct :: r => some (.loopF a b ms (if cont then ct ||| l else ct) :: r)
  | .ifF v e n ms fm p :: r => (leaveLoop cont l r).map fun r => .ifF v e n (maskMinus ms l) fm p :: r
  | .callF _ _ :: _ => none
  | [] => none

/-- BREAK (R193). -/
def execBreak (o : Ops) (neg : Bool) (s : State) : Answered :=
  issue (.break_ o neg) s fun c =>
    match leaveLoop false (c.cond neg) c.split.frames with
    | none => .uniform .maskStack
    | some fr => .moved (c.steer (c.split.pc + 1) (maskMinus c.split.mask (c.cond neg)) fr)

/-- CONT (R193). -/
def execCont (o : Ops) (neg : Bool) (s : State) : Answered :=
  issue (.cont o neg) s fun c =>
    match leaveLoop true (c.cond neg) c.split.frames with
    | none => .uniform .maskStack
    | some fr => .moved (c.steer (c.split.pc + 1) (maskMinus c.split.mask (c.cond neg)) fr)

/-- A JMP or CALL target in an s register with bits 31:16 nonzero (R192). -/
def Ctx.badTarget (c : Ctx) : Bool := (match c.o.b with | .sca _ => true | _ => false) && c.uniB ≥ 65536

/-- JMP (R196). -/
def execJmp (o : Ops) (neg : Bool) (s : State) : Answered :=
  issue (.jmp o neg) s fun c =>
    let t := c.cond neg
    if c.badTarget then .uniform .illegalOperand
    else if t != 0 && t != c.split.mask then .uniform .divergentJump
    else .moved (c.steer (if t == c.split.mask then c.uniB else c.split.pc + 1) c.split.mask c.split.frames)

/-- CALL (R196). -/
def execCall (o : Ops) (neg : Bool) (s : State) : Answered :=
  issue (.call o neg) s fun c =>
    let t := c.cond neg
    if c.badTarget then .uniform .illegalOperand
    else if t != 0 && t != c.split.mask then .uniform .divergentJump
    else if t == c.split.mask then
      if c.full then .uniform .maskStack
      else .moved (c.steer c.uniB c.split.mask (.callF (c.split.pc + 1) c.split.mask :: c.split.frames))
    else .moved (c.steer (c.split.pc + 1) c.split.mask c.split.frames)

/-- RET (R196). -/
def execRet (o : Ops) (neg : Bool) (s : State) : Answered :=
  issue (.ret o neg) s fun c =>
    let t := c.cond neg
    if t != 0 && t != c.split.mask then .uniform .divergentJump
    else if t == c.split.mask then
      match c.split.frames with
      | .callF ret ms :: rest => .moved (c.steer ret (maskMinus ms c.group.exited) rest)
      | _ => .uniform .maskStack
    else .moved (c.steer (c.split.pc + 1) c.split.mask c.split.frames)

/-- EXIT (R197): the executing lanes join the exit set and leave the mask. -/
def execExit (o : Ops) (s : State) : Answered :=
  issue (.exit o) s fun c =>
    let s := c.s.modGroup c.r fun g => { g with exited := g.exited ||| c.x }
    .moved ((s.modSplit c.r fun p => { p with pc := p.pc + 1, mask := maskMinus p.mask c.x }).unwind c.r)

/-- What the split has written so far of uniform registers, it has written before it reached this barrier (R145). -/
def State.passing (s : State) (r : SplitRef) (at_ : Bool × Nat × Nat) : State :=
  s.modGroup r fun g => { g with usync := updateIf (fun u => u.writer == r.split) (fun u => { u with passed := u.passed ++ [at_] }) g.usync }

/-- BAR and BARC (R199): the split that executes reaches the barrier; without .arv it parks there once its fence has returned. -/
def Ctx.reachBar (c : Ctx) (clu arv : Bool) (last : Nat) : Act :=
  let id := c.uniA
  let n := c.uniB
  if id > last || n > 32 then .uniform .illegalOperand
  else if !c.any then .ok c.s
  else
    let ph := c.s.barPhase c.team clu id
    let s := c.s.modSplit c.r fun p =>
      if arv then
        { p with arrivals := p.arrivals ++ [{ clu := clu, id := id, phase := ph, n := n, ids := c.s.writesOut c.r, lct := p.lct, met := false }] }
      else { p with park := .barFence clu id ph n }
    .ok ((s.passing c.r (clu, id, ph)).checkFence c.r)

/-- BAR (R199, R200). -/
def execBar (o : Ops) (arv : Bool) (s : State) : Answered := issue (.bar o arv) s fun c => c.reachBar false arv 15

/-- BARC (R199, R200). -/
def execBarc (o : Ops) (arv : Bool) (s : State) : Answered := issue (.barc o arv) s fun c => c.reachBar true arv 3

end Sys2Proof.Machine
end

