-- ==== Sys2Proof/Machine/Fp.lean ====
section
/-!
DEFINITION. FP32 instructions, major 0x3 (11 R171 to R175).
-/
namespace Sys2Proof.Machine

/-- Val(Read(A, l, F32), F32, FTZ) (R172). -/
def Ctx.fA (c : Ctx) (l : Nat) : Num := val .f32 c.o.ftz (c.a .f32 l)
def Ctx.fB (c : Ctx) (l : Nat) : Num := val .f32 c.o.ftz (c.b .f32 l)
def Ctx.fC (c : Ctx) (l : Nat) : Num := val .f32 c.o.ftz (c.c .f32 l)

/-- RoundTo F32 by the word's mode, without .sat (R172). -/
def Ctx.round32 (c : Ctx) (x : Num) : Nat := roundTo x .f32 c.o.rm false c.o.ftz

/-- FRND (R172): the rounded integer with the sign of the source. -/
def frndBits (mode : Rm) (ftz : Bool) (x : Num) : Nat :=
  match x with
  | .fin n m e => roundTo (.fin n (roundIntMag mode n m e) 0) .f32 .rne false ftz
  | y => roundTo y .f32 .rne false ftz

/-- FADD (R172). -/
def execFadd (o : Ops) (s : State) : Answered :=
  issue (.fadd o) s fun c => c.result 32 fun l => c.round32 (addExact o.rm (c.fA l) (c.fB l))

/-- FSUB (R172). -/
def execFsub (o : Ops) (s : State) : Answered :=
  issue (.fsub o) s fun c => c.result 32 fun l => c.round32 (addExact o.rm (c.fA l) (negExact (c.fB l)))

/-- FMUL (R172). -/
def execFmul (o : Ops) (s : State) : Answered :=
  issue (.fmul o) s fun c => c.result 32 fun l => c.round32 (mulExact (c.fA l) (c.fB l))

/-- FFMA (R172): one rounding. -/
def execFfma (o : Ops) (s : State) : Answered :=
  issue (.ffma o) s fun c => c.result 32 fun l => c.round32 (fmaExact o.rm (c.fA l) (c.fB l) (c.fC l))

/-- FMIN (R173). -/
def execFmin (o : Ops) (s : State) : Answered :=
  issue (.fmin o) s fun c => c.result 32 fun l => floatMinMax .f32 o.ftz false (c.a .f32 l) (c.b .f32 l)

/-- FMAX (R173). -/
def execFmax (o : Ops) (s : State) : Answered :=
  issue (.fmax o) s fun c => c.result 32 fun l => floatMinMax .f32 o.ftz true (c.a .f32 l) (c.b .f32 l)

/-- FMAXX (R175). -/
def execFmaxx (o : Ops) (s : State) : Answered :=
  issue (.fmaxx o) s fun c => c.result 64 fun l => pairMinMax true (c.a .b64 l) (c.b .b64 l)

/-- FMINX (R175). -/
def execFminx (o : Ops) (s : State) : Answered :=
  issue (.fminx o) s fun c => c.result 64 fun l => pairMinMax false (c.a .b64 l) (c.b .b64 l)

/-- FABS (R172): bit 31 cleared, a NaN's payload unchanged. -/
def execFabs (o : Ops) (s : State) : Answered :=
  issue (.fabs o) s fun c => c.result 32 fun l => flushed .f32 o.ftz (c.a .f32 l) % 2 ^ 31

/-- FNEG (R172): bit 31 inverted. -/
def execFneg (o : Ops) (s : State) : Answered :=
  issue (.fneg o) s fun c => c.result 32 fun l => (flushed .f32 o.ftz (c.a .f32 l) + 2 ^ 31) % 2 ^ 32

/-- FSET (R174). -/
def execFset (o : Ops) (cond : FCond) (s : State) : Answered :=
  issue (.fset o cond) s fun c => c.resultPred fun l => floatCond cond (c.fA l) (c.fB l)

/-- FRND (R172). -/
def execFrnd (o : Ops) (s : State) : Answered :=
  issue (.frnd o) s fun c => c.result 32 fun l => frndBits o.rm o.ftz (c.fA l)

end Sys2Proof.Machine
end

