-- ==== Sys2Proof/Machine/Packed.lean ====
section
/-!
DEFINITION. Packed instructions, major 0x5 (11 R179 to R182).
-/
namespace Sys2Proof.Machine

/-- A function on the elements of a packed form: element i of the result from element i of each source (R180). -/
def packedMap (pf : PackFmt) (g : Nat → Nat) : Nat :=
  mapElems (fmtWidth (packElem pf).1) (packElem pf).2 g

/-- Element i of a packed lane. -/
def packedAt (pf : PackFmt) (i bits : Nat) : Nat := elemAt (fmtWidth (packElem pf).1) i bits

/-- Its value. -/
def packedVal (pf : PackFmt) (ftz : Bool) (i bits : Nat) : Num := val (packElem pf).1 ftz (packedAt pf i bits)

/-- One rounded packed operation (R180). -/
def Ctx.packed (c : Ctx) (pf : PackFmt) (sat : Bool) (op : Num → Num → Num → Num) (l : Nat) : Nat :=
  packedMap pf fun i =>
    roundTo (op (packedVal pf c.o.ftz i (c.a (packCode pf) l)) (packedVal pf c.o.ftz i (c.b (packCode pf) l))
      (packedVal pf c.o.ftz i (c.c (packCode pf) l))) (packElem pf).1 c.o.rm sat c.o.ftz

/-- PADD (R180). -/
def execPadd (o : Ops) (pf : PackFmt) (sat : Bool) (s : State) : Answered :=
  issue (.padd o pf sat) s fun c => c.result 32 fun l => c.packed pf sat (fun a b _ => addExact o.rm a b) l

/-- PSUB (R180). -/
def execPsub (o : Ops) (pf : PackFmt) (sat : Bool) (s : State) : Answered :=
  issue (.psub o pf sat) s fun c => c.result 32 fun l => c.packed pf sat (fun a b _ => addExact o.rm a (negExact b)) l

/-- PMUL (R180). -/
def execPmul (o : Ops) (pf : PackFmt) (sat : Bool) (s : State) : Answered :=
  issue (.pmul o pf sat) s fun c => c.result 32 fun l => c.packed pf sat (fun a b _ => mulExact a b) l

/-- PFMA (R180): one rounding for each element. -/
def execPfma (o : Ops) (pf : PackFmt) (sat : Bool) (s : State) : Answered :=
  issue (.pfma o pf sat) s fun c => c.result 32 fun l => c.packed pf sat (fun a b d => fmaExact o.rm a b d) l

/-- PMIN (R180, R173). -/
def execPmin (o : Ops) (pf : PackFmt) (s : State) : Answered :=
  issue (.pmin o pf) s fun c => c.result 32 fun l => packedMap pf fun i =>
    floatMinMax (packElem pf).1 o.ftz false (packedAt pf i (c.a (packCode pf) l)) (packedAt pf i (c.b (packCode pf) l))

/-- PMAX (R180, R173). -/
def execPmax (o : Ops) (pf : PackFmt) (s : State) : Answered :=
  issue (.pmax o pf) s fun c => c.result 32 fun l => packedMap pf fun i =>
    floatMinMax (packElem pf).1 o.ftz true (packedAt pf i (c.a (packCode pf) l)) (packedAt pf i (c.b (packCode pf) l))

/-- The comparison of element pair i (R181). -/
def Ctx.packedCond (c : Ctx) (pf : PackFmt) (cond : FCond) (l i : Nat) : Bool :=
  floatCond cond (packedVal pf c.o.ftz i (c.a (packCode pf) l)) (packedVal pf c.o.ftz i (c.b (packCode pf) l))

/-- PSET (R181): all ones or zeros in each element of a register, or one predicate for every element (.all) or some (.any). -/
def execPset (o : Ops) (pf : PackFmt) (cond : FCond) (any : Bool) (s : State) : Answered :=
  issue (.pset o pf cond any) s fun c =>
    match o.d with
    | .cls _ _ => c.resultPred fun l =>
      let l' := (List.range (packElem pf).2).map (c.packedCond pf cond l)
      if any then l'.any id else l'.all id
    | _ => c.result 32 fun l => packedMap pf fun i =>
      if c.packedCond pf cond l i then 2 ^ fmtWidth (packElem pf).1 - 1 else 0

/-- PDOT (R182): the element products in order, the accumulator last, one window sum. -/
def execPdot (o : Ops) (pf : PackFmt) (sat : Bool) (s : State) : Answered :=
  issue (.pdot o pf sat) s fun c => c.result 32 fun l =>
    let prods := (List.range (packElem pf).2).map fun i =>
      mulExact (packedVal pf o.ftz i (c.a (packCode pf) l)) (packedVal pf o.ftz i (c.b (packCode pf) l))
    windowSum (prods ++ [mulExact (c.fC l) (.fin false 1 0)]) .f32 o.rm sat o.ftz

end Sys2Proof.Machine
end

