-- ==== Sys2Proof/Machine/Convert.lean ====
section
/-!
DEFINITION. Conversion, major 0x6 (11 R183 to R188).
-/
namespace Sys2Proof.Machine

/-- CVT (R183). -/
def execCvt (o : Ops) (dst src : Fmt) (sat : Bool) (s : State) : Answered :=
  issue (.cvt o dst src sat) s fun c => c.result (fmtWidth dst) fun l =>
    regForm dst (convert src dst o.rm sat o.ftz (c.a src l))

/-- PACK2 (R184). -/
def execPack2 (o : Ops) (bf sat : Bool) (s : State) : Answered :=
  issue (.pack2 o bf sat) s fun c => c.result 32 fun l =>
    joinElems 16 ([c.fA l, c.fB l].map fun x => roundTo x (if bf then .bf16 else .f16) o.rm sat o.ftz)

/-- PACK4 (R184). -/
def execPack4 (o : Ops) (e5 sat : Bool) (s : State) : Answered :=
  issue (.pack4 o e5 sat) s fun c => c.result 32 fun l =>
    joinElems 8 ([c.fA l, c.fB l, c.fC l, val .f32 o.ftz (c.e .f32 l)].map fun x =>
      roundTo x (if e5 then .e5m2 else .e4m3) o.rm sat o.ftz)

/-- UNPK (R185): element i, exactly as F32, to register D + i. -/
def execUnpk (o : Ops) (pf : PackFmt) (s : State) : Answered :=
  issue (.unpk o pf) s fun c => .ok (c.put (packElem pf).2 fun l =>
    joinElems 32 ((List.range (packElem pf).2).map fun i => roundTo (packedVal pf o.ftz i (c.a (packCode pf) l)) .f32 .rne false false))

/-- FKEY (R186). -/
def execFkey (o : Ops) (half : Bool) (s : State) : Answered :=
  issue (.fkey o half) s fun c => c.result 32 fun l =>
    fkeyBits (if half then widenF32 .f16 (c.a .f16 l) else c.a .f32 l)

/-- The rank of SPRUNE (R187): element i stands above element j. -/
def pruneAbove (f : Fmt) (x : List Nat) (i j : Nat) : Bool :=
  let mag := fun k => decodeNum f (x.getD k 0 % 2 ^ 15)
  let nan := fun k => (mag k).isNan
  if nan i && nan j then i < j
  else if nan i then true
  else if nan j then false
  else if numLt (mag j) (mag i) then true
  else if numLt (mag i) (mag j) then false
  else i < j

/-- The indices of the two highest of four, ascending (R187). -/
def pruneTop (f : Fmt) (x : List Nat) : List Nat :=
  (List.range 4).filter fun i => ((List.range 4).filter fun j => j != i && pruneAbove f x j i).length < 2

/-- SPRUNE (R187). -/
def execSprune (o : Ops) (bf : Bool) (s : State) : Answered :=
  issue (.sprune o bf) s fun c => c.result 64 fun l =>
    let pf : PackFmt := if bf then .bf2 else .h2
    let x := [packedAt pf 0 (c.a (packCode pf) l), packedAt pf 1 (c.a (packCode pf) l),
              packedAt pf 0 (c.b (packCode pf) l), packedAt pf 1 (c.b (packCode pf) l)]
    match pruneTop (packElem pf).1 x with
    | [i, j] => x.getD i 0 + x.getD j 0 * 2 ^ 16 + (i + 4 * j) * 2 ^ 32
    | _ => 0

/-- The format QSCALE scales to (R188). -/
def qFmt : QFmt → Fmt
  | .e4m3 => .e4m3
  | .e5m2 => .e5m2
  | .e2m1 => .e2m1

/-- The least e in 0 to 254 with x·2^(127 − e) ≤ MaxFinite (R188). -/
def leastScale (f : Fmt) (m : Nat) (e : Int) : Nat :=
  ((List.range 255).find? fun (k : Nat) => !dyadicGt m (e + 127 - (k : Int)) (maxFinite f).1 (maxFinite f).2).getD 254

/-- The scale of the values of the executing lanes (R188). -/
def qscaleOf (f : Fmt) (xs : List Num) : Nat :=
  if xs.any fun x => match x with | .fin _ _ _ => false | _ => true then 0xFF
  else if xs.all Num.isZero then 127
  else xs.foldl (fun b x => match x with | .fin _ m e => if m = 0 then b else max b (leastScale f m e) | _ => b) 0

/-- QSCALE (R188): over the executing lanes; where none executes nothing is written. -/
def execQscale (o : Ops) (q : QFmt) (s : State) : Answered :=
  issue (.qscale o q) s fun c =>
    let e := qscaleOf (qFmt q) (c.lanes.map fun l => decodeNum .f32 (c.a .f32 l))
    c.result 32 fun _ => e

end Sys2Proof.Machine
end

