-- ==== Sys2Proof/Machine/Tiles.lean ====
section
/-!
DEFINITION. Sparse tiles: TSTSP and TLDSP (08 R131 to R134, 13 R224).
-/
namespace Sys2Proof.Machine

/-- The formats a tile may have (R131). -/
def tileFmt (f : Fmt) : Bool :=
  f == .f16 || f == .bf16 || f == .e4m3 || f == .e5m2 || f == .i8 || f == .u8 || f == .i16 || f == .u16

/-- Bytes of an element, of a slot (S) and of the budget (B). -/
def tileElem (d : Nat) : Nat := memBits d / 8
def tileSlot (d : Nat) : Nat := 16 + 1024 * tileElem d
def tileRoom (d : Nat) : Nat := tdBudget d * 16

/-- The packed size of a tile (R132). -/
def packedSize (d nnz : Nat) : Nat := (144 + nnz * tileElem d + 15) / 16 * 16

/-- The checks of R131 and R224. -/
def checkTile (d ti tj : Nat) : Option FaultKind :=
  if !tileFmt (tdMfmt d) || (tdOob d == 1 && fmtBits (tdMfmt d)) then some .illegalFormat
  else
    match checkDesc d with
    | some k => some k
    | none =>
      if tdRank d != 2 || tdBox d 0 != 32 || tdBox d 1 != 32 || tdBudget d == 0 || tileRoom d > tileSlot d then some .illegalOperand
      else if 32 * ti ≥ tdDim d 1 || 32 * tj ≥ tdDim d 0 then some .illegalOperand
      else none

/-- The address of a tile's slot (R131). -/
def tileVa (d ti tj : Nat) : Nat := (tdBase d + (ti * ((tdDim d 0 + 31) / 32) + tj) * tileSlot d) % 2 ^ 64

/-- Element (i, j) of a tile lies in the matrix. -/
def tileIn (d ti tj i j : Nat) : Bool := 32 * tj + j < tdDim d 0 && 32 * ti + i < tdDim d 1

/-- The record of the descriptor in A, with the faults of its fetch and its checks. -/
def Ctx.tileDesc (c : Ctx) (ti tj : Nat) (go : Ctx → Nat → Act) : Act :=
  if c.uniA > 4095 then .uniform .illegalOperand
  else c.withDesc c.uniA fun c d =>
    match checkTile d ti tj with
    | some k => .stop c.s k 0
    | none => go { c with cap := [(0, d)], s := c.s.useDesc c.r.core c.team.vf c.uniA d } d

/-- A value of a register as a tile stores it (R96, R133): a float or an I32 number, rounded to the tile's format and clamped. -/
def tileCode (d : Nat) (rm : Rm) (ftz : Bool) (x : Nat) : Nat :=
  let f := tdMfmt d
  if fmtFloat f then narrow f rm (tdSat d) ftz x else roundTo (anyVal .i32 ftz x) f rm (tdSat d) ftz

/-- The 1,024 encodings that TSTSP stores (R133). -/
def Ctx.tileElems (c : Ctx) (d ti tj : Nat) : List Nat :=
  (List.range 32).flatMap fun i => (List.range 32).map fun j =>
    if tileIn d ti tj i j && (c.runs j || c.o.lv) then tileCode d c.o.rm c.o.ftz (c.group.vlane (c.o.e.num + i) j).toNat else 0

/-- The header of a tile (R132). -/
def tileHeader (d : Nat) (esc : Bool) (nnz : Nat) : Nat := esc.toNat + 2 * nnz + 2 ^ 12 * (tdMfmt d).code

/-- The bytes of a tile: packed where that fits the budget, else dense (R132, R133). -/
def tileBytes (d : Nat) (es : List Nat) : List Byte :=
  let kept := es.filter (· != 0)
  let size := packedSize d kept.length
  let put := fun (l : List Nat) => l.flatMap fun e => bytesOfNat (tileElem d) e
  if size ≤ tileRoom d then
    let map := (es.foldl (fun (a : Nat × Nat) e => (a.1 + 1, if e = 0 then a.2 else a.2 + 2 ^ a.1)) (0, 0)).2
    let b := bytesOfNat 16 (tileHeader d false kept.length) ++ bytesOfNat 128 map ++ put kept
    b ++ List.replicate (size - b.length) 0
  else bytesOfNat 16 (tileHeader d true kept.length) ++ put es

/-- The pieces of `n` bytes from an address that lie in one 32-byte sector each. -/
def sectorPieces (va n : Nat) : List (Nat × Nat) :=
  (List.range ((va % 32 + n + 31) / 32)).map fun k =>
    let lo := max va (va / 32 * 32 + 32 * k)
    (lo, min (va + n) (va / 32 * 32 + 32 * k + 32) - lo)

/-- Translations of such pieces, in order, or the first failure. -/
def Ctx.pieces (c : Ctx) (va n : Nat) (need : Need) : Except LaneFault (List Elem) :=
  let ps := sectorPieces va n
  checkLanes (fun k => c.atAddr (((ps.getD k (0, 0)).1) % 2 ^ 64) 1 need k) (List.range ps.length)

/-- A piece that has no translation stops the instruction, or is walked for. -/
def Ctx.stopsAt (c : Ctx) (e : LaneFault) : Act :=
  match e.kind with
  | .fault k => .stop c.s k e.va
  | .walk pa => c.askPhys pa

/-- TSTSP (R133). -/
def Ctx.tstspAct (c : Ctx) : Act :=
    let ti := c.uniB
    let tj := c.uniC
    if !c.any then .ok c.s
    else c.tileDesc ti tj fun c d =>
      let bytes := tileBytes d (c.tileElems d ti tj)
      let va := tileVa d ti tj
      match c.pieces va bytes.length .store with
      | .error e => c.stopsAt e
      | .ok es =>
        c.logged es fun _ =>
          let ps := sectorPieces va bytes.length
          let i := (c.port es.length (c.cached es)).takeIds es.length
          let qs := ((List.range es.length).zip es).map fun p =>
            let piece := ps.getD p.1 (0, 0)
            c.reqOf (i.1 + p.1) p.2
              (.write (bytesFrom (p.2.x.pa % 32) ((bytes.drop (piece.1 - va)).take piece.2)) []) false c.o.h.toNat none
          .ok (i.2.sendAll qs)

/-- TLDSP (R134): the header is read first; the split issues nothing until the tile has come. -/
def Ctx.tldspAct (c : Ctx) : Act :=
    let ti := c.uniB
    let tj := c.uniC
    if !c.any then .ok c.s
    else c.tileDesc ti tj fun c d =>
      match c.pieces (tileVa d ti tj) 16 .load with
      | .error e => c.stopsAt e
      | .ok es =>
        let r := c.loadVia es false c.o.h.toNat (fun _ => 0) (.tile c.i d ti tj none)
        .ok (r.1.acquire c.r true r.2)

/-- TSTSP. -/
def execTstsp (o : Ops) (s : State) : Answered := issue (.tstsp o) s Ctx.tstspAct

/-- TLDSP. -/
def execTldsp (o : Ops) (s : State) : Answered := issue (.tldsp o) s Ctx.tldspAct

/-- A fault of the tile's checks: precise, the split having issued nothing since (R134). -/
def State.tileFault (s : State) (o : Out) (k : FaultKind) (va : Nat) : State :=
  let s := (s.dropOut o.owner.core o.id).modSplit o.owner fun p => { p with pc := o.pc, park := .none }
  s.faultAt o.owner { kind := k, addr := va, lane := none, pc := o.pc, acc := 0 }

/-- The header's checks (R134). -/
def headerFault (d h : Nat) : Option FaultKind :=
  let nnz := bitsOf h 11 1
  if bitsOf h 16 12 != (tdMfmt d).code then some .illegalFormat
  else if bitsOf h 127 17 != 0 || nnz > 1024 || (!h.testBit 0 && packedSize d nnz > tileRoom d) then some .illegalOperand
  else none

/-- The bytes of a result's parts, in the order of its slots, `n` of each slot's. -/
def Out.bytesOf (o : Out) (ps : List (Nat × Nat)) : List Byte :=
  ((List.range ps.length).zip ps).flatMap fun p =>
    match o.slot? p.1 with
    | some x => ((getKey [] o.parts x.part).drop x.off).take p.2.2
    | none => []

/-- The encoding of element n of a tile whose bytes after the header are given. -/
def tileElement (d h : Nat) (b : List Byte) (n : Nat) : Nat :=
  let es := tileElem d
  let pick := fun at_ => natOfBytes ((b.drop at_).take es)
  if h.testBit 0 then pick (n * es)
  else
    let map := natOfBytes (b.take 128)
    if map.testBit n then pick (128 + es * ((List.range n).filter map.testBit).length) else 0

/-- The kept elements of a packed tile. -/
def popBits (m : Nat) : Nat := ((List.range 1024).filter m.testBit).length

/-- A tile element in F32 or I32, exactly; a NaN element becomes Quiet of it, whatever MFMT is (R95, R134). -/
def tileValue (f : Fmt) (bits : Nat) : Nat := if fmtFloat f then widenF32 f (bits % 2 ^ fmtWidth f) else regForm f bits

/-- What an element outside DIM0 or DIM1 reads as: the descriptor's fill, in F32 or I32 (R134). -/
def tileFill (d : Nat) (f : Fmt) : Nat :=
  match tdOob d with
  | 1 => 0x7FC00000
  | 2 => tileValue f (tdFill d % 2 ^ fmtWidth f)
  | _ => 0

/-- The 32 registers of a tile written in the lanes that executed. -/
def State.putTile (s : State) (o : Out) (reg d ti tj : Nat) (h : Nat) (b : List Byte) : State :=
  let f := tdMfmt d
  (List.range 32).foldl (fun s i =>
    s.putResult o (.vec (BitVec.ofNat 8 (reg + i))) 1 fun j =>
      if tileIn d ti tj i j then tileValue f (tileElement d h b (32 * i + j)) else tileFill d f) s

/-- The next step of a sparse tile's load, its bytes so far having come: the header is checked and the rest asked for; then the
registers are written. -/
def State.advanceTile (s : State) (o : Out) : State :=
  match o.finish with
  | .tile i d ti tj none =>
    let va := tileVa d ti tj
    let h := natOfBytes (o.bytesOf [(va, 16)])
    match headerFault d h with
    | some k => s.tileFault o k 0
    | none =>
      let n := (if h.testBit 0 then tileSlot d else packedSize d (bitsOf h 11 1)) - 16
      match { s with focus := .split o.owner }.ctx? i with
      | none => s.dropOut o.owner.core o.id
      | some c =>
        let c : Ctx := { c with s := s.dropOut o.owner.core o.id, x := o.mask, acting := true }
        match c.pieces (va + 16) n .load with
        | .error e =>
          (match e.kind with
           | .fault k => s.tileFault o k e.va
           | .walk pa => (s.askPhys c.r.core c.team.vf c.team.grid c.r (.word c.r) [pa]).getD s)
        | .ok es =>
          let hint := match i with | .tldsp p => p.h.toNat | _ => 0
          let r := c.loadVia es false hint (fun _ => 0) (.tile i d ti tj (some h))
          (r.1.modSplit o.owner fun p => { p with park := .acquire r.2 }).modCore o.owner.core fun k =>
            { k with outs := updateIf (fun x => x.id == r.2) (fun x => { x with pc := o.pc }) k.outs }
  | .tile i d ti tj (some h) =>
    let va := tileVa d ti tj + 16
    let n := (if h.testBit 0 then tileSlot d else packedSize d (bitsOf h 11 1)) - 16
    let b := o.bytesOf (sectorPieces va n)
    if !h.testBit 0 && popBits (natOfBytes (b.take 128)) != bitsOf h 11 1 then s.tileFault o .illegalOperand 0
    else
      let reg := match i with | .tldsp p => p.d.num | _ => 0
      (((s.dropOut o.owner.core o.id).freeAcquire o).putTile o reg d ti tj h b).settleGroup o.owner
  | _ => s

end Sys2Proof.Machine
end

