-- ==== Sys2Proof/Machine/Latches.lean ====
section
/-!
DEFINITION. Latches (04 R59 to R66): the record and its transitions, the latch instructions of major 0xB (13 R221 to R223), YIELD
(12 R198), continuations, and the progress monitor.
-/
namespace Sys2Proof.Machine

/-! ## The latch (R59 to R61) -/

/-- A latch at team start. -/
def Latch.fresh : Latch :=
  { exp := 0, arrb := 0, arrt := 0, arrn := 0, cnst := 0, cnsn := 0, state := .free, phase := false, over_ := false, err := 0, errVa := 0, cont := none,
    pend := 0, largest := 0, since := 0, posted := false }

/-- The largest byte count. -/
def maxBytes : Nat := 0xFFFFFF

def LatchState.code : LatchState → Nat
  | .free => 0
  | .filling => 1
  | .full => 2
  | .draining => 3

/-- The latch record (R59). ARRN and CNSN are counted without a bound, OVER and the transitions use the whole counts, and their 10-bit fields
show them modulo 1,024 (DESIGN CHOICE, log entry 66: only ARRB is said to saturate). -/
def Latch.record (l : Latch) : Nat :=
  l.exp % 2 ^ 24 + l.arrb % 2 ^ 24 * 2 ^ 24 + l.arrt % 2 ^ 10 * 2 ^ 48 + l.arrn % 2 ^ 10 * 2 ^ 58 + l.cnst % 2 ^ 10 * 2 ^ 68 +
    l.cnsn % 2 ^ 10 * 2 ^ 78 + l.state.code * 2 ^ 88 + l.phase.toNat * 2 ^ 90 + l.over_.toNat * 2 ^ 91 + l.err % 4 * 2 ^ 92 +
    l.cont.isSome.toNat * 2 ^ 94 + l.pend % 2 ^ 24 * 2 ^ 95

/-- The latch is full or draining. -/
def Latch.ready (l : Latch) : Bool := l.state == .full || l.state == .draining

/-- The condition of LTWAIT (R62). -/
def Latch.holds (l : Latch) (ph : Bool) : Bool := l.phase != ph || l.ready

/-- The return to free (R60): counts are cleared, the targets stay, PHASE flips. -/
def Latch.toFree (l : Latch) : Latch :=
  { l with exp := 0, arrb := 0, arrn := 0, cnsn := 0, state := .free, phase := !l.phase, posted := false }

/-- R60's tests, made after every change; OVER of R61; a continuation whose condition has come, or whose latch has ERR set, is due (R63,
R223). With ERR set the latch makes no transition. -/
def Latch.settle (l : Latch) : Latch :=
  let l := { l with over_ := l.over_ || l.arrb > l.exp || l.arrn > l.arrt || l.cnsn > l.cnst }
  let l :=
    if l.err ≠ 0 then l
    else
      let l := if l.state = .filling ∧ l.arrb ≥ l.exp ∧ l.arrn ≥ l.arrt then { l with state := .full } else l
      if l.ready && l.cnsn == l.cnst && l.pend == 0 then l.toFree else l
  { l with cont := l.cont.map fun k => { k with due := k.due || l.err != 0 || l.holds k.phase } }

/-- What the progress monitor watches (R66). -/
def Latch.watched (l : Latch) : LatchState × Nat × Nat × Nat := (l.state, l.arrb, l.arrn, l.cnsn)

/-- A change of a latch at a device time. -/
def Latch.change (f : Latch → Latch) (now : Nat) (l : Latch) : Latch :=
  let m := (f l).settle
  if m.watched = l.watched then m else { m with since := now }

/-- The copies a core's engine still holds. -/
def Core.copies (c : Core) : List CopyReq := c.copyQ ++ c.copyRun ++ c.copyFault

/-- A unit of a copy that an engine has still to deliver. -/
def undelivered (flying : List CopyReq) (x : Shadow) : Bool := flying.any fun q => q.id == x.copy && q.units.contains x.unit

/-- One latch of a team changed; once it is no longer filling, the bytes it has counted are defined (R58, R62). -/
def Team.modLatch (t : Team) (n now : Nat) (flying : List CopyReq) (f : Latch → Latch) : Team :=
  let l := (t.latches.getD n Latch.fresh).change f now
  { t with
    latches := t.latches.set n l
    shadow := t.shadow.filter fun x => x.latch != n || l.state == .filling || undelivered flying x }

/-- One latch changed. -/
def State.modLatch (s : State) (k team n : Nat) (f : Latch → Latch) : State :=
  s.modTeam k team fun t => t.modLatch n s.time (s.core k).copies f

/-- LTEXPECT's effect (R60). -/
def Latch.expect (b : Nat) (l : Latch) : Latch := { l with exp := l.exp + b, state := .filling }

/-- A producer's arrival (R60, R222). -/
def Latch.arrive (b : Nat) (l : Latch) : Latch := { l with arrn := l.arrn + 1, arrb := min (l.arrb + b) maxBytes }

/-- A consumer's release (R60); with ERR set only the count changes (R65). -/
def Latch.release (l : Latch) : Latch :=
  { l with cnsn := l.cnsn + 1, state := if l.err = 0 ∧ l.state = .full then .draining else l.state }

/-- LTRESET (R64): the largest completion time stays. -/
def Latch.reset (l : Latch) : Latch :=
  { Latch.fresh with phase := l.phase != (l.state != .free), largest := l.largest, since := l.since,
                     posted := l.posted && l.state == .free }

/-- Bytes of a copy counted (R57, R61). -/
def Latch.count (b t : Nat) (l : Latch) : Latch :=
  { l with arrb := min (l.arrb + b) maxBytes, pend := l.pend - b, largest := max l.largest t }

/-- A copy that ended by a fault at an address (R65): its undelivered bytes leave PEND, and the first fault stays recorded. -/
def Latch.fail (b err va : Nat) (l : Latch) : Latch :=
  { l with pend := l.pend - b, err := if l.err = 0 then err else l.err, errVa := if l.err = 0 then va else l.errVa }

/-! ## The instructions (R221 to R223) -/

/-- The latch that A names (R59). -/
def Ctx.latch (c : Ctx) (go : Nat → Latch → Act) : Act :=
  if c.uniA ≥ c.team.kernel.latches then .uniform .illegalOperand else go c.uniA (c.team.latches.getD c.uniA Latch.fresh)

/-- The latch changed by this instruction. -/
def Ctx.setLatch (c : Ctx) (n : Nat) (f : Latch → Latch) : State := c.s.modLatch c.r.core c.r.team n f

/-- The fault that ERR records, with its address (R65, R282). -/
def Ctx.errFault (l : Latch) : Act := .fault (if l.err = 1 then .access else .memoryError) l.errVa none 0

/-- LATCH_OVERRUN, then the fault that ERR records, else go on (R62, R222). -/
def Ctx.sound (l : Latch) (go : Act) : Act :=
  if l.over_ then .uniform .latchOverrun else if l.err ≠ 0 then Ctx.errFault l else go

/-- An instruction parks while the latch's state asks it to. One that is parked when OVER is set takes LATCH_OVERRUN (R61); what it keeps
says whether OVER was set when it parked. -/
def Ctx.heldBy (c : Ctx) (l : Latch) (wait : Bool) (go : Act) : Act :=
  let before := c.cap.contains (0, 1)
  if c.acting && l.over_ && !before then .uniform .latchOverrun
  else if !wait then go
  else if c.acting && before && !l.over_ then .parkIn c.s (.instr c.i (c.snap [(0, 0)]))
  else c.parkInstr (if c.acting then c.cap else [(0, l.over_.toNat)])

/-- LTINIT (R222). -/
def Ctx.ltinitAct (c : Ctx) : Act :=
  c.latch fun n l =>
    if c.uniB > 1023 || c.uniC > 1023 then .uniform .illegalOperand
    else if !c.any then .ok c.s
    else c.heldBy l (l.state != .free) (.ok (c.setLatch n fun l => { l with arrt := c.uniB, cnst := c.uniC }))

/-- LTEXPECT (R222). -/
def Ctx.ltexpectAct (c : Ctx) : Act :=
  c.latch fun n l =>
    if c.uniB > maxBytes then .uniform .illegalOperand
    else if !c.any then .ok c.s
    else Ctx.sound l (
      if l.ready then c.parkInstr []
      else if l.exp + c.uniB > maxBytes then .uniform .illegalOperand
      else .ok (c.setLatch n (Latch.expect c.uniB)))

/-- LTARRIVE and LTARRIVE.c (R222): the split's earlier scratchpad writes are performed first. -/
def Ctx.ltarriveAct (consumer : Bool) (c : Ctx) : Act :=
  let b := if c.o.b == Operand.zero then 0 else c.uniB
  c.latch fun n l =>
    if b > maxBytes then .uniform .illegalOperand
    else if !c.any then .ok c.s
    else
      c.heldBy l ((if consumer then !l.ready else l.state != .filling) || !(c.s.scratchOut c.r).isEmpty)
        (.ok (c.setLatch n (if consumer then Latch.release else Latch.arrive b)))

/-- A split that leaves a wait takes the latch's largest completion time into its own (R62). -/
def Ctx.waited (c : Ctx) (l : Latch) : State := c.s.modSplit c.r fun p => { p with lct := max p.lct l.largest }

/-- The wait of LTWAIT and YIELD.l (R62). -/
def Ctx.waitLatch (c : Ctx) (go : State → Act) : Act :=
  c.latch fun _ l =>
    if c.uniB > 1 then .uniform .illegalOperand
    else if !c.any then .ok c.s
    else Ctx.sound l (if l.holds (c.uniB == 1) then go (c.waited l) else c.parkInstr [])

/-- LTWAIT (R62, R222). -/
def Ctx.ltwaitAct (c : Ctx) : Act := c.waitLatch fun s => .ok s

/-- LTTEST (R59, R222). -/
def Ctx.lttestAct (c : Ctx) : Act := c.latch fun _ l => .ok (c.put 4 fun _ => l.record)

/-- LTRESET (R64, R222). -/
def Ctx.ltresetAct (c : Ctx) : Act :=
  c.latch fun n l =>
    if !c.any then .ok c.s
    else c.heldBy l (l.pend != 0) (.ok (c.setLatch n Latch.reset))

/-- A code target (R215): i + X, or the s register in C. -/
def Ctx.codeTarget (c : Ctx) (disp : BitVec 14) : Option Nat :=
  match c.o.c with
  | .sca _ => if c.uniC < 65536 then some c.uniC else none
  | _ =>
    let t := (c.split.pc : Int) + disp.toInt
    if 0 ≤ t ∧ t < 65536 then some t.toNat else none

/-- The lanes of a split that go with it when it ends: its mask, and those that wait in the frames above its innermost divided
frame. -/
def Split.lanesLost (p : Split) : Mask :=
  (p.frames.takeWhile fun f => match f with | .ifF true .. => false | _ => true).foldl (fun m f =>
    match f with
    | .ifF _ _ _ ms fm _ => m ||| ms ||| fm
    | .loopF _ _ ms ct => m ||| ms ||| ct
    | .callF _ ms => m ||| ms) p.mask

/-- LTCONT ends its split (R223): the executing lanes exit, the others are dropped with it (log entry 10). -/
def Ctx.endHere (c : Ctx) (s : State) : State :=
  let gone := maskMinus c.split.lanesLost c.x
  let s := s.modGroup c.r fun g =>
    { g with
      exited := g.exited ||| c.x
      splits := g.splits.map fun p => if p.sid = c.r.split then p else { p with frames := p.frames.map (Frame.without gone) } }
  (s.modSplit c.r fun p => { p with mask := 0, frames := [] }).unwind c.r

/-- LTCONT (R63, R223). -/
def Ctx.ltcontAct (disp : BitVec 14) (c : Ctx) : Act :=
  c.latch fun n l =>
    if c.uniB > 1 then .uniform .illegalOperand
    else
      match c.codeTarget disp with
      | none => .uniform .illegalOperand
      | some t =>
        if !c.any then .ok c.s
        else
          let k : Cont := { target := t, phase := c.uniB == 1, args := c.group.args, level := c.split.level, due := false, at_ := c.s.time }
          c.heldBy l l.cont.isSome (.done (c.endHere (c.setLatch n fun l => { l with cont := some k })) [] false)

/-- YIELD.l (R198). A target outside the text faults at the target (R192). -/
def Ctx.yieldAct (disp : BitVec 14) (c : Ctx) : Act :=
  c.waitLatch fun s => .done (s.modSplit c.r fun p => { p with pc := wrapTo ((c.split.pc : Int) + disp.toInt) 32 }) [] false

/-- LTINIT. -/
def execLtinit (o : Ops) (s : State) : Answered := issue (.ltinit o) s Ctx.ltinitAct

/-- LTEXPECT. -/
def execLtexpect (o : Ops) (s : State) : Answered := issue (.ltexpect o) s Ctx.ltexpectAct

/-- LTARRIVE. -/
def execLtarrive (o : Ops) (c : Bool) (s : State) : Answered := issue (.ltarrive o c) s (Ctx.ltarriveAct c)

/-- LTWAIT. -/
def execLtwait (o : Ops) (s : State) : Answered := issue (.ltwait o) s Ctx.ltwaitAct

/-- LTTEST. -/
def execLttest (o : Ops) (s : State) : Answered := issue (.lttest o) s Ctx.lttestAct

/-- LTCONT. -/
def execLtcont (o : Ops) (disp : BitVec 14) (s : State) : Answered := issue (.ltcont o disp) s (Ctx.ltcontAct disp)

/-- LTRESET. -/
def execLtreset (o : Ops) (s : State) : Answered := issue (.ltreset o) s Ctx.ltresetAct

/-- YIELD (R146, R198): without LAT it is a NOP that yields and ends its run. -/
def execYield (o : Ops) (lat : Bool) (disp : BitVec 14) (s : State) : Answered :=
  issue (.yield o lat disp) s fun c => if lat then c.yieldAct disp else .ok c.s

/-! ## Continuations start (R63, R223, R259) -/

/-- A team holds fewer than 32 groups and its core has room for one more. -/
def Core.roomForGroup (c : Core) (t : Team) : Bool := t.groups.length < 32 && (c.choosePart t.kernel.vregs).isSome

/-- The due continuations of a core that could start now: when they were registered, team and latch. -/
def Core.contsReady (c : Core) : List (Nat × Nat × Nat) :=
  c.teams.flatMap fun t =>
    if t.stopping || !c.roomForGroup t then []
    else
      ((List.range t.latches.length).zip t.latches).filterMap fun p => p.2.cont.bind fun k =>
        if k.due then some (k.at_, t.id, p.1) else none

/-- The fault that a continuation's group inherits (R63). -/
def Latch.inherited (l : Latch) (pc : Nat) : Option FaultRec :=
  if l.over_ then some { kind := .latchOverrun, addr := 0, lane := none, pc := pc, acc := 0 }
  else if l.err ≠ 0 then some { kind := if l.err = 1 then .access else .memoryError, addr := l.errVa, lane := none, pc := pc, acc := 0 }
  else none

/-- A due continuation starts its group, oldest first on its core. -/
def State.startCont (s : State) (k team n : Nat) : State :=
  let ready := (s.core k).contsReady
  match ready.find? fun x => x.2 == (team, n), s.team? k team with
  | some x, some t =>
    if ready.any fun y => y.1 < x.1 then s
    else
      let l := t.latches.getD n Latch.fresh
      match l.cont with
      | none => s
      | some ct =>
        let init := fun (g : Group) =>
          { g.withArgs ct.args with
            pending := (l.inherited ct.target).map fun f => (0, f)
            splits := g.splits.map fun p => { p with lct := l.largest } }
        match (s.core k).startGroup team ct.target allLanes ct.level init with
        | none => s
        | some (c, _) => ({ s with cores := setKey s.cores k c }).modLatch k team n fun l => { l with cont := none }
  | _, _ => s

/-- LATCH_CONTINUATION_START (R63, R223). -/
def execLatchContinuationStart (core team latch : Nat) (s : State) : Answered := .next (s.startCont core team latch).bump

end Sys2Proof.Machine
namespace Sys2Proof
open Machine

/-- The operand that names the latch an instruction may wait for (R66). -/
def Instr.latchField : Instr → Option Operand
  | .ltinit o | .ltexpect o | .ltarrive o _ | .ltwait o | .ltcont o _ | .ltreset o | .yield o true _ => some o.a
  | .cpy o _ | .cpyw o _ | .cpyb o _ _ _ => some o.e
  | _ => none

end Sys2Proof
namespace Sys2Proof.Machine

/-! ## The progress monitor (R66) -/

/-- An instruction that waits for the state of a latch would wait at this one. -/
def waitsAt (i : Instr) (l : Latch) : Bool :=
  match i with
  | .cpy _ x | .cpyw _ x | .cpyb _ x _ _ => if x then l.ready else l.state != .filling
  | _ => true

/-- The splits of a team that wait on a latch, with the tick from which they have waited, resident ticks alone counted (R293). -/
def State.latchWaiters (s : State) (k team n : Nat) : List (SplitRef × Nat) :=
  match s.team? k team with
  | none => []
  | some t =>
    t.groups.flatMap fun g => g.splits.filterMap fun p =>
      let r : SplitRef := { core := k, team := team, grp := g.grp, split := p.sid }
      match p.park with
      | .instr i a =>
        match i.latchField, s.actCtx? r i a with
        | some f, some c =>
          if c.field f false true 0 = n && waitsAt i (t.latches.getD n Latch.fresh) then some (r, p.since.getD p.parkedAt) else none
        | _, _ => none
      | _ => none

/-- A split that waits on a latch which stalls takes TRAP_255 (R66): at once, or where another split of its group is in trap mode, when that
ends (R284). -/
def State.stallTrap (s : State) (r : SplitRef) : State :=
  let trap := fun (p : Split) => { kind := .trap 255, addr := 0, lane := none, pc := p.pc, acc := 0 : FaultRec }
  (s.modSplit r fun p =>
    { p with deferred := p.deferred.orElse fun _ => some (trap p), ending := true, park := .none, since := none }).settleGroup r

/-- A latch has stood still for the stall limit while something waits on it: LATCH_STALL is posted, once a phase, and with stall traps
every waiting split takes TRAP_255. -/
def State.stall (s : State) (k team n : Nat) : State :=
  match s.team? k team with
  | none => s
  | some t =>
    match s.vf? t.vf with
    | none => s
    | some v =>
      let l := t.latches.getD n Latch.fresh
      let ws := s.latchWaiters k team n
      let starts := ws.map (·.2) ++ l.cont.toList.map (·.at_)
      match starts.min? with
      | none => s
      | some first =>
        if l.posted || n ≥ t.latches.length || s.time < max l.since first + v.cfg.stallLimit then s
        else
          let s := s.modTeam k team fun t => { t with latches := t.latches.set n { l with posted := true } }
          let s := s.post { code := 0x8001, vf := t.vf, srck := 0, src := v.cfg.coreIndex k, item := n, phase := l.phase.toNat,
                            time := s.vfTime k t.vf }
          if v.cfg.stallTraps then (ws.map (·.1)).foldl State.stallTrap s else s

/-- LATCH_STALL (R66). -/
def execLatchStall (core team latch : Nat) (s : State) : Answered := .next (s.stall core team latch).bump

end Sys2Proof.Machine
end

