-- ==== Sys2Proof/Machine/Results.lean ====
section
/-!
DEFINITION. Answers coming back (09 R145, 05 R76, 12 R212): RESULT_RETURN for a request, a scratchpad operation or a sparse tile,
FENCE_RELEASE's condition, the fabric timeout (21 R316).
-/
namespace Sys2Proof.Machine

/-! ## Scratchpad operations (R79, R80, R269) -/

/-- A byte of a team's scratchpad as a reader finds it: undefined while it is a copy's destination (R58). -/
def State.scratchByte (s : State) (k : Nat) (t : Team) (off i : Nat) : Byte :=
  if s.shadowed k t.id off 1 then BitVec.ofNat 8 (s.draw 12 i) else t.scratch.read off

/-- A copy that is to read a team's scratchpad when bytes are written there (R58): it may carry the old values too, but not of bytes that
its own split wrote before it. `op` names the operation that writes. -/
def CopyReq.overwrite (q : CopyReq) (team : Nat) (olds : List (Nat × Byte)) (op : Option Nat) : CopyReq :=
  if !q.readsPad team then q
  else if op.any q.waitFor.contains then { q with olds := q.olds.filter fun (p : Nat × Byte) => !(olds.any fun (x : Nat × Byte) => x.1 == p.1) }
  else { q with olds := q.olds ++ olds }

/-- The copies of every core that are to read a team's scratchpad learn what its bytes were. -/
def State.keepOlds (s : State) (team : Nat) (olds : List (Nat × Byte)) (op : Option Nat) : State :=
  let f := fun (l : List CopyReq) => l.map fun q => q.overwrite team olds op
  if s.cores.any fun (p : Nat × Core) => (p.2.copyQ ++ p.2.copyRun ++ p.2.copyFault).any fun q => q.readsPad team then
    { s with cores := s.cores.map fun (p : Nat × Core) =>
        (p.1, { p.2 with copyQ := f p.2.copyQ, copyRun := f p.2.copyRun, copyFault := f p.2.copyFault }) }
  else s

/-- Bytes written in a team's scratchpad, by an operation of a name or by an engine. -/
def State.scratchWrite (s : State) (k team : Nat) (bytes : List (Nat × Byte)) (op : Option Nat) : State :=
  let s := match s.team? k team with
    | some t => s.keepOlds team (bytes.map fun (p : Nat × Byte) => (p.1, s.scratchByte k t p.1 p.1)) op
    | none => s
  s.modTeam k team fun t => Team.taint { t with scratch := t.scratch.writeAll bytes } (bytes.map fun (p : Nat × Byte) => p.1) op

/-- An operation of a core `k` may be performed but for its section's other work: it has arrived; no earlier one of the split on that
section waits, one that waits for its reads included (R269); an atomic and one on another team's scratchpad come after the earlier
strong accesses (R208). Names rise in the order of issue. -/
def State.opInOrder (s : State) (k : Nat) (o : ScratchOp) : Bool :=
  let earlier := fun (x : ScratchOp) => x.id < o.batch && s.mine o.owner x.owner x.id && x.team == o.team && x.sect == o.sect
  let c := s.core k
  o.answer.isNone && s.time ≥ o.ready && !(c.sops.any earlier) &&
    !(c.outs.any fun x => match x.finish with | .scratch _ ops => ops.any earlier | _ => false) &&
    !(o.strong && s.strongBefore o.owner o.batch)

/-- The place of an operation's split in the order of ages; one whose split has ended comes first. -/
def State.bornAt (s : State) (o : ScratchOp) : Nat := ((s.split? o.owner).map (·.born)).getD 0

/-- The section serves another operation before this one: of its own core's splits the older split's (R79), of other cores' the one that
arrived first (R80). -/
def State.servesFirst (s : State) (o : ScratchOp) : Bool :=
  s.cores.any fun p => p.2.sops.any fun x =>
    x.core == o.core && x.sect == o.sect && x.id != o.id && x.remote == o.remote && s.opInOrder p.1 x &&
      (if o.remote then x.ready < o.ready else s.bornAt x < s.bornAt o)

/-- An operation may be performed now (R79): its section is free. -/
def State.opReady (s : State) (k : Nat) (o : ScratchOp) : Bool :=
  s.opInOrder k o && getKey 0 (s.core o.core).sections o.sect ≤ s.time && !s.servesFirst o

/-- The sector a lane's atomic step is made in, and the steps as offsets in it. -/
def stepsIn (o : ScratchOp) : Nat × List AtomStep :=
  let base := ((o.steps.head?.map (·.off)).getD 0) / 32 * 32
  (base, o.steps.map fun x => { x with off := x.off - base })

/-- What an operation does in a scratchpad: bytes read for a result, bytes and half-bytes written, atomic steps made. -/
def State.opEffect (s : State) (o : ScratchOp) : List Byte × List (Nat × DWord) × State :=
  match s.team? o.core o.team with
  | none => (o.reads.map fun i => BitVec.ofNat 8 (s.draw 12 i), [], s)
  | some t =>
    let read := ((List.range o.reads.length).zip o.reads).map fun p => s.scratchByte o.core t p.2 p.1
    let half := (o.nibbles.map (·.1)).eraseDups.map fun a =>
      (a, (o.nibbles.filter fun x => x.1 == a).foldl (fun b x => setNibble b x.2.1 x.2.2) (t.scratch.read a))
    let st := stepsIn o
    let a := atomSteps ((List.range 32).map fun i => s.scratchByte o.core t (st.1 + i) i) st.2
    let stored := if o.steps.isEmpty then [] else
      (bytesFrom st.1 a.1).filter fun p => o.steps.any fun x => x.off ≤ p.1 && p.1 < x.off + atomBytes x.ty
    (read, if o.steps.isEmpty then [] else a.2, s.scratchWrite o.core o.team (o.bytes ++ half ++ stored) (some o.id))

/-- The strong accesses of a split that waited for one that has returned are sent now (R208, R265). -/
def State.restamp (s : State) (owner : SplitRef) (id : Nat) : State :=
  let waits := fun (o : SplitRef) (n : Nat) => id < n && s.mine o owner id
  let s' := { s with reqs := updateIf (fun (p : Req) => p.strong && p.arrived.isNone && !p.done && waits p.owner p.batch)
                       (fun (p : Req) => { p with hop := max p.hop s.time }) s.reqs }
  s'.modCore owner.core fun c =>
    { c with sops := updateIf (fun o => o.strong && o.answer.isNone && waits o.owner o.batch)
               (fun o => { o with ready := max o.ready (s.time + (if o.remote then 3 else 0)) }) c.sops }

/-- An operation's answer reaches its split's core. -/
def State.opReturn (s : State) (k : Nat) (o : ScratchOp) (r : List Byte × List (Nat × DWord)) : State :=
  let s := s.modCore k fun c => { c with sops := c.sops.filter fun x => x.id != o.id }
  let s := if o.strong then s.restamp o.owner o.id else s
  match o.out with
  | some out => s.receive k { out := out, part := o.id, bytes := r.1, olds := r.2, err := none }
  | none =>
    ((s.core k).outs.filter fun x => x.waiting.contains o.id).foldl (fun s x =>
      s.receive k { out := x.id, part := o.id, bytes := [], olds := [], err := none }) s

/-- A scratchpad operation is performed: its section is taken for its ticks (R79); the answer of one on another team's scratchpad makes its way
back (R265). -/
def State.performOp (s : State) (k : Nat) (o : ScratchOp) : State :=
  let r := s.opEffect o
  let s := r.2.2.modCore o.core fun c => { c with sections := setKey c.sections o.sect (s.time + o.ticks) }
  if o.remote then
    s.modCore k fun c =>
      { c with sops := updateIf (fun x => x.id == o.id) (fun x => { x with answer := some (r.1, r.2.1), ready := s.time + 3 }) c.sops }
  else s.opReturn k o (r.1, r.2.1)

/-- The named operation goes on as far as it can. -/
def State.opStep (s : State) (k : Nat) (o : ScratchOp) : State :=
  match o.answer with
  | some r => if s.time ≥ o.ready then s.opReturn k o r else s
  | none => if s.opReady k o then s.performOp k o else s

/-! ## Requests -/

/-- The fences of a group's splits looked at again. -/
def State.checkFences (s : State) (r : SplitRef) : State :=
  match s.group? r with
  | none => s
  | some g => (g.splits.map (·.sid)).foldl (fun s n => s.checkFence (r.other n)) s

/-- A completion time enters the latest completion time of the split, and of splits that share the write (R76, R194). -/
def Split.completed (p : Split) (own : Bool) (id t : Nat) : Split :=
  let p := if own || p.shared.contains id then { p with lct := max p.lct t } else p
  { p with shared := p.shared.filter (· != id),
           arrivals := p.arrivals.map fun a => if a.ids.contains id then { a with lct := max a.lct t } else a }

/-- An L1 sector filled by an answer (R75, R78, R266), with the generation current at its fill (R77). -/
def State.fillL1 (s : State) (q : Req) : State :=
  match q.expiry with
  | some t =>
    if q.noInstall || q.failed.isSome then s
    else s.modCore q.core fun c =>
      c.fillSector { sector := q.sector, bytes := q.data, expiry := t, gen := c.gen, keep := q.hint = 2, repl := q.repl } q.hint
  | none => s

/-- An answer to a split's own access reaches the core: the completion time, the L1 sector, the result's part, the fault of a request that
has none. -/
def State.deliverOwn (s : State) (q : Req) : State :=
  let s := s.modGrid q.grid fun g => { g with awaits := g.awaits.filter (· != q.id) }
  let s := if q.kind.writes && q.failed.isNone && !q.home.away then
      s.modGroup q.owner fun g => { g with splits := g.splits.map fun p => p.completed (p.sid == q.owner.split) q.id q.time }
    else s
  let s := s.fillL1 q
  let s := match q.out, q.failed with
    | some out, _ => s.receive q.core
        { out := out, part := q.id, bytes := q.data, olds := q.olds, err := q.failed.map fun k => (k, q.lane, q.va) }
    | none, some k => if q.kind.writes then s.defer q.owner { kind := k, addr := q.va, lane := q.lane, pc := q.pc, acc := 1 } else s
    | none, none => s
  s.checkFences q.owner

/-- The home's answer to an ENQ reaches its split (R231): a fault; a full queue's header, at which the split parks (R217) and at whose change
the request repeats; or its completion time. -/
def State.enqAnswer (s : State) (r : SplitRef) (q : Req) : State :=
  match s.split? r with
  | none => s
  | some p =>
    match p.park with
    | .enq i a _ =>
      match s.actCtx? r i a with
      | none => s
      | some c =>
        match q.failed with
        | some k => c.finish (.fault k q.va none 1)
        | none =>
          if !q.data.isEmpty then
            let s := c.finish (.park (.enq i { a with cap := [(0, natOfBytes q.data), (1, q.va)] } true))
            let s := if a.cap.isEmpty then s.modSplit r fun p => { p with parkedAt := s.time } else s
            if c.group.dying then s.endSplit r else s.postDue r
          else if q.home.away then c.finish (.ok c.s)
          else c.finish (.ok (c.s.modSplit r fun p => { p with lct := max p.lct q.time }))
    | _ => s

/-- A core has room for one more request on its way: the first of those that waited for it is sent now (R13). -/
def State.sendNext (s : State) (core : Nat) : State :=
  match (s.reqs.filter fun p => p.core == core).drop 4095 with
  | p :: _ => if core < 192 then s.modReq p.id fun p => { p with hop := max p.hop s.time } else s
  | [] => s

/-- A request is on its way no longer: what waited for it is sent (R13, R208). -/
def State.gone (s : State) (q : Req) : State :=
  let s := State.sendNext { s with reqs := s.reqs.filter fun x => x.id != q.id } q.core
  if q.strong then s.restamp q.owner q.id else s

/-- Another package has answered an access of a split with ACCESS (R315): it is taken at once, the run going no further, with TEPC at the
access; only an ENQ that the split waits for is answered first (log entry 39). -/
def State.refused (s : State) (q : Req) : State :=
  let s := s.defer q.owner { kind := .access, addr := q.va, lane := q.lane, pc := q.pc, acc := if q.kind.writes then 1 else 0 }
  let s := s.modSplit q.owner fun p =>
    match p.park with
    | .enq _ _ false => p
    | _ => { p with ending := true, park := .none, since := none }
  s.settleGroup q.owner

/-- An answer reaches whoever asked. -/
def State.deliver (s : State) (q : Req) : State :=
  let s := s.gone q
  match q.errand with
  | none => if q.failed = some .access && q.home.away then (s.deliverOwn q).refused q else s.deliverOwn q
  | some (.push r) => if q.kind == .hold then s.enqAnswer r q else s.keepAnswer (.push r) q
  | some key => s.keepAnswer key q

/-- The answer of another package to a request (R32, R315): what it is, is not known here; an ENQ may also find its queue full or its header
illegal. -/
def State.remoteAnswer (s : State) (q : Req) (ans : Answer) : Req :=
  let olds := match q.kind with
    | .atomic steps => steps.map fun st => (st.lane, BitVec.ofNat 64 (s.drawBits 13 (64 + st.lane) (8 * atomBytes st.ty)))
    | _ => []
  let read := match q.kind with | .read _ | .strongRead | .pref => true | _ => false
  { q with done := true, data := if read then (List.range 32).map fun i => BitVec.ofNat 8 (s.draw 13 i) else [], olds := olds,
           failed := match ans with
             | .ok => if q.kind == .hold then [none, some .queueFull, some .illegalOperand].getD (s.draw 13 40 % 3) none else none
             | .access => some .access
             | .memoryError => some .memoryError }

/-- The handler of a slice waits for this line operation and takes its answer itself. -/
def State.handlerWaits (s : State) (q : Req) : Bool :=
  match q.errand with
  | some (.hinge n) => ((s.slice n).run.bind (·.op)) == some q.id
  | _ => false

/-- The fabric timeout, in ticks (R316). -/
def fabricTimeout : Nat := 2 ^ 24

/-- The routing table has a port for a device number (R315); without one nothing comes back (log entry 79). -/
def State.routed (s : State) (dev : Nat) : Bool := s.routes.any fun x => x.1 == dev

/-- RESULT_RETURN of a request: an answer on its way arrives; another package answers, a way there and a way back after the sending, and
what comes after the fabric timeout is discarded (R316). -/
def State.returnReq (s : State) (q : Req) (ans : Answer) : State :=
  match q.home with
  | .remote dev =>
    if !s.routed dev || s.time < q.hop + 6 || s.time > q.hop + fabricTimeout || !s.sent q || (q.strong && s.strongBefore q.owner q.batch) then s
    else s.deliver (s.remoteAnswer q ans)
  | _ => if q.done && s.time ≥ q.hop + q.trip && !s.handlerWaits q then s.deliver q else s

/-- The scratchpad operation of a name, with its core. -/
def State.opNamed (s : State) (id : Nat) : Option (Nat × ScratchOp) :=
  (s.cores.flatMap fun p => p.2.sops.map fun o => (p.1, o)).find? fun p => p.2.id == id

/-- The outstanding result of a name, every part of which has come. -/
def State.outNamed (s : State) (id : Nat) : Option Out :=
  (s.cores.flatMap fun p => p.2.outs).find? fun o => o.id == id && o.waiting.isEmpty

/-- RESULT_RETURN (R145): the named request, scratchpad operation or sparse tile. -/
def execResultReturn (id : Nat) (ans : Answer) (s : State) : Answered :=
  .next (match s.req? id with
    | some q => s.returnReq q ans
    | none =>
      match s.opNamed id with
      | some (k, o) => (s.opStep k o).checkFences o.owner
      | none =>
        match s.outNamed id with
        | some o => s.advanceTile o
        | none => s).bump

/-- A store to another package that stays unanswered (R316): a split that waits for it at a FENCE.sys takes MEMORY_ERROR there, and any
other remembers it for its next FENCE.sys. -/
def State.unanswered (s : State) (q : Req) (n : Nat) : State :=
  let r := q.owner.other n
  match s.split? r with
  | none => s
  | some p =>
    if p.sid != q.owner.split && !p.shared.contains q.id then s
    else
      match p.park with
      | .fence .sys false _ =>
        (s.modSplit r fun p => { p with pc := p.pc - 1, park := .none }).faultAt r
          { kind := .memoryError, addr := q.va, lane := none, pc := p.pc - 1, acc := 0 }
      | _ => s.modSplit r fun p => { p with unanswered := p.unanswered.orElse fun _ => some q.va }

/-- An ENQ to another package that has no answer (R316): its split goes on, and takes MEMORY_ERROR at its run end (R283). -/
def State.enqLost (s : State) (r : SplitRef) (q : Req) : State :=
  match s.split? r with
  | none => s
  | some p =>
    match p.park with
    | .enq i a _ =>
      match s.actCtx? r i a with
      | some c => c.finish (.ok (c.s.defer r { kind := .memoryError, addr := q.va, lane := none, pc := c.split.pc, acc := 1 }))
      | none => s
    | _ => s

/-- FABRIC_TIMEOUT (R316): a request to another package that has no answer after 2^24 ticks. A load, atomic or ENQ takes a deferred
MEMORY_ERROR, a copy request ends as for one; a FENCE.sys that waits for a store or RED takes it. -/
def execFabricTimeout (req : Nat) (s : State) : Answered :=
  .next (match s.req? req with
    | none => s
    | some q =>
      if s.time < q.hop + fabricTimeout || !s.sent q || !(match q.home with | .remote _ => true | _ => false) then s
      else if q.kind == ReqKind.hold then (s.gone q).enqLost q.owner q
      else if q.out.isSome || !q.own then s.deliver { q with done := true, data := [], failed := some .memoryError }
      else
        let s := s.gone q
        let s := s.modGrid q.grid fun g => { g with awaits := g.awaits.filter (· != q.id) }
        let sids := ((s.group? q.owner).map fun (g : Group) => g.splits.map fun (p : Split) => p.sid).getD []
        (if q.kind.writes then sids.foldl (fun (s : State) n => s.unanswered q n) s else s).checkFences q.owner).bump

end Sys2Proof.Machine
end

