-- ==== Sys2Proof/Machine/Copies.lean ====
section
/-!
DEFINITION. The copy engine (04 R55 to R58, R65, R67): TDLD and TDINV (13 R218), the copies (R219, R220), what the engine delivers,
and its faults.
-/
namespace Sys2Proof.Machine

/-! ## TDLD and TDINV (R52, R218) -/

/-- TDLD. -/
def Ctx.tdldAct (c : Ctx) : Act :=
  let id := c.uniA
  if id > 4095 then .uniform .illegalOperand
  else if !c.any then .ok c.s
  else c.reads (descSectors c.v.cfg id) fun c f => .ok (c.s.useDesc c.r.core c.team.vf id (f.record c.v.cfg id))

/-- TDLD. -/
def execTdld (o : Ops) (s : State) : Answered := issue (.tdld o) s Ctx.tdldAct

/-- TDINV. -/
def execTdinv (o : Ops) (s : State) : Answered :=
  issue (.tdinv o) s fun c =>
    if c.uniA > 4095 then .uniform .illegalOperand
    else if !c.any then .ok c.s
    else .ok (c.s.modCore c.r.core fun k => { k with desc := k.desc.filter fun d => !(d.vf == c.team.vf && d.id == c.uniA) })

/-! ## The copies at issue (R219, R220) -/

/-- Elements of a box row that lie in bounds, with their coordinates. -/
def rowElems (d : Nat) (at_ : List Int) (row : Nat) : List (Nat × List Int) :=
  ((List.range (tdBox d 0)).map fun i => (i, elemCoords d at_ row i)).filter fun p => inBounds d p.2

/-- Bytes of memory that the in-bounds elements of a box row occupy: first and number (R220). -/
def rowSpan (d : Nat) (es : List (Nat × List Int)) : Nat × Nat :=
  match es.head?, es.getLast? with
  | some a, some b =>
    let lo := elemBit d a.2 / 8
    (lo, (elemBit d b.2 + memBits d - 1) / 8 + 1 - lo)
  | _, _ => (0, 0)

/-- Bytes that one unit of a copy counts (R57, R220). -/
def unitBytes (kind : CopyKind) (d : Nat) (at_ : List Int) (len u : Nat) : Nat :=
  match kind with
  | .cpy => rowBytes d
  | .cpyw => (rowSpan d (rowElems d at_ u)).2
  | .cpyb .. => min 256 (len - 256 * u)

/-- Units of a copy: box rows, or pieces of 256 bytes. -/
def unitsOf (kind : CopyKind) (d len : Nat) : List Nat :=
  match kind with
  | .cpyb .. => List.range ((len + 255) / 256)
  | _ => List.range (boxRows d)

/-- What one lane's copy captures at issue. -/
structure CopyPlan where
  lane : Nat
  id : Nat
  record : Nat
  coords : List Int
  dst : CopyEnd
  src : CopyEnd
  len : Nat
  total : Nat
deriving DecidableEq, Repr

/-- Where the records of the lanes come from. -/
abbrev Records := Nat → Except LaneFault Nat

/-- The record id that a lane of CPY or CPYW names. -/
def Ctx.descId (c : Ctx) (lane : Nat) : Nat := c.field c.o.b false false lane

/-- The first sector of a record that has no translation. -/
def Ctx.descFault (c : Ctx) (id : Nat) : Option (FaultKind × Nat) :=
  match c.own.xlateAll c.asker .load (descSectors c.v.cfg id) with
  | .error (.fault k, va) => some (k, va)
  | _ => none

/-- A page-table entry that a record's translation waits for. -/
def Ctx.descWalk (c : Ctx) (id : Nat) : Option Nat :=
  match c.own.xlateAll c.asker .load (descSectors c.v.cfg id) with
  | .error (.walk pa, _) => some pa
  | _ => none

/-- The record a lane has captured, or finds in the cache at issue. -/
def Ctx.heldDesc (c : Ctx) (lane : Nat) : Option Nat :=
  ((c.cap.find? fun p => p.1 == lane).map (·.2)).orElse fun _ =>
    if c.acting then none else (c.s.core c.r.core).desc? c.team.vf (c.descId lane)

/-- A lane's record: the one it holds, or the one that has come (R52). -/
def Ctx.laneDesc (c : Ctx) (f : Fetch) : Records := fun lane =>
  let id := c.descId lane
  let wrong := fun (k : FaultKind) va => Except.error { lane := lane, va := va, kind := .fault k }
  match c.heldDesc lane with
  | some d => .ok d
  | none =>
    if id > 4095 then wrong .illegalOperand 0
    else
      match c.descFault id with
      | some e => wrong e.1 e.2
      | none =>
        match f.errs.find? fun e => (descSectors c.v.cfg id).contains e.2 with
        | some e => wrong e.1 e.2
        | none => .ok (f.record c.v.cfg id)

/-- The records that the lanes have to fetch. -/
def Ctx.descsWanted (c : Ctx) : List Nat := ((c.lanes.filter fun l => (c.heldDesc l).isNone && c.descId l ≤ 4095).map c.descId).eraseDups

/-- A copy that acts once the records of its lanes have come; those it found in the cache at issue are captured meanwhile. -/
def Ctx.withRecords (c : Ctx) (kind : CopyKind) (go : Ctx → Records → Act) : Act :=
  let none' := c.laneDesc (Fetch.fresh (.word c.r))
  match kind with
  | .cpyb .. => go c none'
  | _ =>
    let park := Park.asks c.i (c.snap (c.lanes.filterMap fun l => (c.heldDesc l).map fun d => (l, d)))
    match c.descsWanted.findSome? c.descWalk with
    | some pa =>
      (match c.own.askPhys c.r.core c.team.vf c.team.grid c.r (.word c.r) [pa] with
       | some s => .parkIn s park
       | none => .park park)
    | none =>
      let secs := (c.descsWanted.filter fun id => (c.descFault id).isNone).flatMap (descSectors c.v.cfg)
      if secs.isEmpty then go c none'
      else
        let ready := fun (s : State) (f : Fetch) => go { c with s := s.forget c.r.core (.word c.r) } (c.laneDesc f)
        match c.ask secs with
        | .wait => c.held
        | .sent s => .parkIn s park
        | .fail s f _ _ => ready s f
        | .got s f => ready s f

/-- The coordinate registers of a record's box (R57). -/
def Ctx.coordRegs (c : Ctx) (d : Nat) : List Reg := (List.range (tdRank d)).map fun k => .v (c.o.c.num + k)

/-- One lane's checks of CPY and CPYW (R54, R56, R219). -/
def Ctx.boxPlan (c : Ctx) (recs : Records) (kind : CopyKind) (lane : Nat) : Except LaneFault CopyPlan :=
  let wrong := fun k va => Except.error { lane := lane, va := va, kind := .fault k }
  match recs lane with
  | .error e => .error e
  | .ok d =>
    match checkDesc d with
    | some k => wrong k 0
    | none =>
      let a := c.field c.o.a false false lane
      if c.o.c.num + tdRank d > c.team.kernel.vregs then wrong .illegalOperand 0
      else if a % (if tdSkew d = 0 then 16 else 128) ≠ 0 then wrong .illegalOperand 0
      else
        match c.scratchAt a (boxBytes d) with
        | .error k => wrong k a
        | .ok (core, team, off) =>
          let g := (c.alsoReads (c.coordRegs d)).group
          let cs := (List.range (tdRank d)).map fun k => (g.vlane (c.o.c.num + k) lane).toInt
          let p : CopyEnd := .pad core team off
          .ok { lane := lane, id := c.descId lane, record := d, coords := cs, dst := if kind = .cpy then p else .global 0,
                src := if kind = .cpy then .global 0 else p, len := 0,
                total := ((unitsOf kind d 0).map (unitBytes kind d cs 0)).foldl (· + ·) 0 }

/-- An end of a CPYB (R219). -/
def Ctx.copyEnd (c : Ctx) (pad : Bool) (f : Operand) (n lane : Nat) : Except LaneFault CopyEnd :=
  let a := c.field f (!pad) false lane
  if a % 16 ≠ 0 then .error { lane := lane, va := 0, kind := .fault .illegalOperand }
  else if !pad then .ok (.global a)
  else
    match c.scratchAt a n with
    | .error k => .error { lane := lane, va := a, kind := .fault k }
    | .ok (core, team, off) => .ok (.pad core team off)

/-- One lane's checks of CPYB (R220). -/
def Ctx.runPlan (c : Ctx) (ds ss : Bool) (lane : Nat) : Except LaneFault CopyPlan :=
  let n := c.field c.o.c false false lane
  if n < 16 || n > 65536 || n % 16 ≠ 0 then .error { lane := lane, va := 0, kind := .fault .illegalOperand }
  else
    match c.copyEnd ds c.o.a n lane, c.copyEnd ss c.o.b n lane with
    | .ok d, .ok s => .ok { lane := lane, id := 0, record := 0, coords := [], dst := d, src := s, len := n, total := n }
    | .error e, .error e' => .error (if e.kind = .fault .illegalOperand || e'.kind ≠ .fault .illegalOperand then e else e')
    | .error e, _ => .error e
    | _, .error e => .error e

/-- One lane's checks. -/
def Ctx.copyPlan (c : Ctx) (recs : Records) (kind : CopyKind) (lane : Nat) : Except LaneFault CopyPlan :=
  match kind with
  | .cpyb ds ss => c.runPlan ds ss lane
  | _ => c.boxPlan recs kind lane

/-- A copy has captured every lane's record: it waits for its latch and the queue. -/
def Ctx.captured (c : Ctx) (ps : List CopyPlan) : Bool := ps.all fun p => c.cap.any fun x => x.1 == p.lane

/-- The records that the lanes fetched or used stay cached (R52). -/
def Ctx.keepDescs (c : Ctx) (kind : CopyKind) (ps : List CopyPlan) : State :=
  match kind with
  | .cpyb .. => c.s
  | _ => if c.captured ps then c.s else ps.foldl (fun s p => s.useDesc c.r.core c.team.vf p.id p.record) c.s

/-- Free entries of the copy queue (R58): requests being served keep theirs. -/
def Core.copyRoom (c : Core) : Nat := 64 - (c.copyQ.length + c.copyRun.length)

/-- The copy waits for scratchpad writes of its split (R58). -/
def CopyEnd.isPad : CopyEnd → Bool
  | .pad .. => true
  | .global _ => false

/-- One lane's request. -/
def Ctx.copyReq (c : Ctx) (kind : CopyKind) (latch id : Nat) (p : CopyPlan) : CopyReq :=
  { id := id, team := c.r.team, vf := c.team.vf, grid := c.team.grid, latch := latch, kind := kind, record := p.record, coords := p.coords,
    dst := p.dst, src := p.src, len := p.len, hint := c.o.h.toNat, owner := c.r,
    waitFor := if p.src.isPad then c.s.scratchOut c.r else [], units := unitsOf kind p.record p.len, left := p.total, ghost := none,
    olds := [], token := none }

/-- A place some bytes further on. -/
def CopyEnd.plus (e : CopyEnd) (n : Nat) : CopyEnd :=
  match e with
  | .pad core team off => .pad core team (off + n)
  | .global va => .global (va + n)

/-- The destination bytes of one unit of a request, undefined until its latch has counted them and completed (R58). -/
def CopyReq.shadowOf (q : CopyReq) (u : Nat) : Shadow :=
  let at_ := fun (dst : CopyEnd) (len : Nat) => { copy := q.id, latch := q.latch, unit := u, dst := dst, len := len }
  match q.kind with
  | .cpy => at_ (q.dst.plus (u * rowBytes q.record)) (rowBytes q.record)
  | .cpyw =>
    let sp := rowSpan q.record (rowElems q.record q.coords u)
    at_ (.global sp.1) sp.2
  | .cpyb .. => at_ (q.dst.plus (256 * u)) (min 256 (q.len - 256 * u))

/-- The requests enter the copy queue and PEND (R220); each takes the memory port for a tick (R216). -/
def Ctx.enqueue (c : Ctx) (kind : CopyKind) (x : Bool) (n : Nat) (ps : List CopyPlan) : State :=
  let sum := (ps.map (·.total)).foldl (· + ·) 0
  let i := (c.port ps.length (c.keepDescs kind ps)).takeIds ps.length
  let qs := ((List.range ps.length).zip ps).map fun p => c.copyReq kind n (i.1 + p.1) p.2
  let s := i.2.modCore c.r.core fun k => { k with copyQ := k.copyQ ++ qs }
  let s := s.modTeam c.r.core c.r.team fun t => { t with shadow := t.shadow ++ qs.flatMap fun q => q.units.map q.shadowOf }
  s.modLatch c.r.core c.r.team n fun l => let l := if x then l.expect sum else l; { l with pend := l.pend + sum }

/-- CPY, CPYW and CPYB once their records are there (R220). While the copy waits for its latch and the queue, OVER and ERR are not looked
at; with the .x modifier they are tested before and after. -/
def Ctx.copyStep (c : Ctx) (kind : CopyKind) (x : Bool) (n : Nat) (recs : Records) : Act :=
  match checkLanes (c.copyPlan recs kind) c.lanes with
  | .error e => c.lane e false 0
  | .ok ps =>
    let l := c.team.latches.getD n Latch.fresh
    let coords := match kind with | .cpyb .. => [] | _ => (ps.flatMap fun p => c.coordRegs p.record).eraseDups
    let go :=
      if x && l.exp + (ps.map (·.total)).foldl (· + ·) 0 > maxBytes then .uniform .illegalOperand
      else .done (c.enqueue kind x n ps) coords true
    if ps.isEmpty then .ok c.s
    else if (c.s.core c.r.core).copyRoom < ps.length || (if x then l.ready else l.state != .filling) then
      if c.captured ps then c.parkInstr c.cap
      else
        let park := Act.parkIn (c.keepDescs kind ps) (.instr c.i (c.snap (ps.map fun p => (p.lane, p.record))))
        if x then Ctx.sound l park else park
    else if x then Ctx.sound l go else go

/-- CPY, CPYW and CPYB (R220). -/
def Ctx.copyAct (kind : CopyKind) (x : Bool) (c : Ctx) : Act :=
  let n := c.field c.o.e false false 0
  if n ≥ c.team.kernel.latches then .uniform .illegalOperand else c.withRecords kind fun c recs => c.copyStep kind x n recs

/-- CPY. -/
def execCpy (o : Ops) (x : Bool) (s : State) : Answered := issue (.cpy o x) s (Ctx.copyAct .cpy x)

/-- CPYW. -/
def execCpyw (o : Ops) (x : Bool) (s : State) : Answered := issue (.cpyw o x) s (Ctx.copyAct .cpyw x)

/-- CPYB. -/
def execCpyb (o : Ops) (x ds ss : Bool) (s : State) : Answered := issue (.cpyb o x ds ss) s (Ctx.copyAct (.cpyb ds ss) x)

/-! ## Delivering (R55 to R57) -/

/-- A byte of the scratchpad a copy reads, its team's or what that held when the team ended: where it has been written since the copy's
issue, the value now or one it had, byte by byte (R58). -/
def State.padByte (s : State) (q : CopyReq) (core team off i : Nat) : Byte :=
  let now := match s.team? core team, q.ghost with
    | some t, _ => s.scratchByte core t off i
    | none, some m => m.read off
    | none, none => BitVec.ofNat 8 (s.draw 12 i)
  let all := now :: (q.olds.filter fun p => p.1 == off).map (·.2)
  all.getD (s.draw 25 i % all.length) now

/-- A number made of the bytes a function gives. -/
def gather (n : Nat) (f : Nat → Byte) : Nat := natOfBytes ((List.range n).map f)

/-- The scale byte of an element, where the record has scales. -/
def scaleOf (d : Nat) (get : Nat → Byte) (cs : List Int) : Option Nat := if tdScale d = 0 then none else some (get (scaleVa d cs)).toNat

/-- The sectors of the scale bytes of a row's elements. -/
def scaleSectors (d : Nat) (es : List (Nat × List Int)) : List Nat :=
  if tdScale d = 0 then [] else (es.map fun e => scaleVa d e.2 / 32 * 32).eraseDups

/-- A box row put together for the scratchpad (R53, R55): converted elements, fill elsewhere; `hi` is what FILL leaves open of each. -/
def rowImage (d : Nat) (es : List (Nat × List Int)) (get : Nat → Byte) (hi : Nat → Nat) : Nat :=
  let w := fmtWidth (tdSfmt d)
  (List.range (tdBox d 0)).foldl (fun n i =>
    let bits := match es.find? fun e => e.1 == i with
      | some e =>
        let b := elemBit d e.2
        let m := gather ((memBits d + 7) / 8) (fun j => get (b / 8 + j)) / 2 ^ (b % 8) % 2 ^ memBits d
        convertScaled d false (scaleOf d get e.2) m
      | none => fillBits d (tdSfmt d) (hi i)
    n + bits % 2 ^ w * 2 ^ (w * i)) 0

/-- What becomes of one unit of a copy: its requests are on their way, or have just been sent; it fails at an address; or it is done, with
the bytes to count and the completion time of its writes. -/
inductive Haul where
  | wait (s : State)
  | fail (s : State) (k : FaultKind) (va acc : Nat)
  | done (s : State) (n t : Nat)

/-- A unit's reads, then what follows with the bytes. -/
def State.haulReads (s : State) (k : Nat) (v : Vf) (q : CopyReq) (u : Nat) (secs : List Nat) (go : State → (Nat → Byte) → Haul) : Haul :=
  match s.reading (engineAsker k v.cfg q.grid q.owner (.get q.id u) q.hint) secs with
  | .wait => .wait s
  | .sent s => .wait s
  | .fail s _ kind va => .fail s kind va 0
  | .got s f => go s f.get

/-- A unit's writes to memory: weak stores (R58). -/
def State.haulWrites (s : State) (k : Nat) (v : Vf) (q : CopyReq) (u : Nat) (ws : List (Nat × Byte)) (hs : List (Nat × Bool × BitVec 4))
    (n : Nat) : Haul :=
  match s.writing (engineAsker k v.cfg q.grid q.owner (.put q.id u) q.hint) ws hs with
  | .wait => .wait s
  | .sent s => .wait s
  | .fail s _ kind va => .fail s kind va 1
  | .got s f => .done s n f.time

/-- A unit's bytes put into scratchpad, at most 256 bytes a tick (R58). -/
def State.haulPad (s : State) (k core team : Nat) (bytes : List (Nat × Byte)) : Haul :=
  if s.time < (s.core k).copyFree then .wait s
  else
    let s := s.modCore k fun c => { c with copyFree := s.time + (bytes.length + 255) / 256 }
    .done (s.scratchWrite core team bytes none) bytes.length 0

/-- A box row delivered into scratchpad (CPY); `rest` holds what FILL leaves open of each element, 32 bits apart (log entry 65). -/
def State.haulIn (s : State) (k : Nat) (v : Vf) (q : CopyReq) (row rest : Nat) : Haul :=
  let d := q.record
  let es := rowElems d q.coords row
  let sp := rowSpan d es
  s.haulReads k v q row (sectorsOf sp.1 sp.2 ++ scaleSectors d es).eraseDups fun s get =>
    let img := rowImage d es get fun i => rest / 2 ^ (32 * i)
    match q.dst with
    | .pad core team off =>
      s.haulPad k core team ((List.range (rowBytes d)).map fun c => (off + skewed d row c, BitVec.ofNat 8 (img / 2 ^ (8 * c))))
    | .global _ => .done s (rowBytes d) 0

/-- A box row taken out of scratchpad (CPYW). -/
def State.haulOut (s : State) (k : Nat) (v : Vf) (q : CopyReq) (row : Nat) : Haul :=
  let d := q.record
  let es := rowElems d q.coords row
  s.haulReads k v q row (scaleSectors d es) fun s get =>
    match q.src with
    | .global _ => .done s 0 0
    | .pad core team off =>
      let w := fmtWidth (tdSfmt d)
      let img := gather (rowBytes d) fun c => s.padByte q core team (off + skewed d row c) c
      let out := es.map fun e => (elemBit d e.2, convertScaled d true (scaleOf d get e.2) (img / 2 ^ (w * e.1) % 2 ^ w))
      let n := (rowSpan d es).2
      if memBits d = 4 then s.haulWrites k v q row [] (out.map fun p => (p.1 / 8, p.1 % 8 == 4, BitVec.ofNat 4 p.2)) n
      else s.haulWrites k v q row (out.flatMap fun p => bytesFrom (p.1 / 8) (bytesOfNat (memBits d / 8) p.2)) [] n

/-- 256 bytes of a linear run (CPYB). -/
def State.haulRun (s : State) (k : Nat) (v : Vf) (q : CopyReq) (u : Nat) : Haul :=
  let o := 256 * u
  let n := min 256 (q.len - o)
  s.haulReads k v q u (match q.src with | .global va => sectorsOf (va + o) n | .pad .. => []) fun s get =>
    let bytes := (List.range n).map fun i =>
      match q.src with
      | .global va => get (va + o + i)
      | .pad core team off => s.padByte q core team (off + o + i) i
    match q.dst with
    | .pad core team off => s.haulPad k core team (bytesFrom (off + o) bytes)
    | .global va => s.haulWrites k v q u (bytesFrom (va + o) bytes) [] n

/-- One unit of a copy. -/
def State.haul (s : State) (k : Nat) (v : Vf) (q : CopyReq) (u rest : Nat) : Haul :=
  match q.kind with
  | .cpy => s.haulIn k v q u rest
  | .cpyw => s.haulOut k v q u
  | .cpyb .. => s.haulRun k v q u

/-- The answers kept for a copy are no longer needed: those of one unit, or of all. -/
def State.forgetUnits (s : State) (k id : Nat) (p : Nat → Bool) : State :=
  s.modCore k fun c => { c with fetches := c.fetches.filter fun f => match f.key with | .get i u | .put i u => i != id || !p u | _ => true }

/-- A running request changed, or gone. -/
def State.modCopy (s : State) (k id : Nat) (f : CopyReq → Option CopyReq) : State :=
  s.modCore k fun c => { c with copyRun := c.copyRun.filterMap fun q => if q.id = id then f q else some q }

/-- A unit delivered: its bytes are counted into the latch, and a request with nothing left leaves the engine. -/
def State.delivered (s : State) (k : Nat) (q : CopyReq) (u n t : Nat) : State :=
  let s := (s.forgetUnits k q.id (· == u)).modCopy k q.id fun x =>
    let x := { x with units := x.units.filter (· != u), left := x.left - n }
    if x.units.isEmpty then none else some x
  s.modLatch k q.team q.latch (Latch.count n t)

/-- A copy ends by a fault (R65): its undelivered bytes leave PEND, and the latch records the fault and its address. -/
def State.copyEnds (s : State) (k : Nat) (q : CopyReq) (kind : FaultKind) (va : Nat) : State :=
  let s := (s.forgetUnits k q.id fun _ => true).modCore k fun c =>
    { c with copyRun := c.copyRun.filter fun x => x.id != q.id, copyFault := c.copyFault.filter fun x => x.id != q.id }
  s.modLatch k q.team q.latch (Latch.fail q.left (if kind = .memoryError then 2 else 1) va)

/-- COPY_FAULT (R65): a missing page moves the request to the copy fault buffer, where there is room; any other fault ends it. -/
def State.copyFaults (s : State) (k : Nat) (q : CopyReq) (kind : FaultKind) (va acc : Nat) : State :=
  if kind = .pageFault then
    if (s.core k).copyFault.length ≥ 8 then s
    else
      let p := s.postPageFault q.vf k va acc (.copy k q.id) { kind := kind, addr := va, lane := none, pc := 0, acc := acc }
      p.1.modCore k fun c =>
        { c with copyRun := c.copyRun.filter fun x => x.id != q.id, copyFault := c.copyFault ++ [{ q with token := some p.2 }] }
  else s.copyEnds k q kind va

/-- COPY_REQUEST_START (R58, R65): a request whose page has come resumes; else the first of the queue starts, while fewer than 8
run and the copy fault buffer has room. -/
def State.startCopy (s : State) (k : Nat) : State :=
  let c := s.core k
  if c.copyRun.length ≥ 8 then s
  else
    match c.copyFault.find? fun q => q.token.isNone with
    | some q =>
      s.modCore k fun c => { c with copyFault := c.copyFault.filter fun x => x.id != q.id, copyRun := c.copyRun ++ [q] }
    | none =>
      match c.copyQ with
      | q :: r => if c.copyFault.length ≥ 8 then s else s.modCore k fun c => { c with copyQ := r, copyRun := c.copyRun ++ [q] }
      | [] => s

def execCopyRequestStart (core : Nat) (s : State) : Answered := .next (s.startCopy core).bump

/-- COPY_DELIVER (R57): one unit of a running request goes as far as it can. -/
def State.deliverUnit (s : State) (k id u rest : Nat) : State :=
  match (s.core k).copyRun.find? fun q => q.id == id && q.units.contains u with
  | none => s
  | some q =>
    match s.vf? q.vf with
    | none => s
    | some v =>
      if q.waitFor.any (s.core k).unperformed then s
      else
        match s.haul k v q u rest with
        | .wait s => s
        | .fail s kind va acc => s.copyFaults k q kind va acc
        | .done s n t => s.delivered k q u n t

/-- COPY_DELIVER; `rest` is what the rules leave open of the unit's bytes. -/
def execCopyDeliver (core req unit rest : Nat) (s : State) : Answered := .next (s.deliverUnit core req unit rest).bump

end Sys2Proof.Machine
end

