-- ==== Sys2Proof/Machine/Streams.lean ====
section
/-!
DEFINITION. Streams and the merging of two of them (08 R115 to R122): descriptors and their checks, decoding a row, the check pass, the
merge pass.
-/
namespace Sys2Proof.Machine

/-! ## Stream descriptors (R115, R117) -/

def sdIbase (d : Nat) : Nat := bitsOf d 55 0
def sdEnc (d : Nat) : Nat := bitsOf d 59 56
def sdVbase (d : Nat) : Nat := bitsOf d 119 64
def sdVfmt (d : Nat) : Fmt := Fmt.ofCode (bitsOf d 124 120)
def sdRowp (d : Nat) : Nat := bitsOf d 183 128
def sdNrow (d : Nat) : Nat := bitsOf d 223 192
def sdSegl (d : Nat) : Nat := bitsOf d 239 224

/-- The reserved bits of a descriptor. -/
def sdReserved (d : Nat) : Bool := bitsOf d 63 60 != 0 || bitsOf d 127 125 != 0 || bitsOf d 191 184 != 0 || bitsOf d 255 240 != 0

/-- The checks of R117 in table order; the range ends at `endRow`. SEGL is read from stream A only. -/
def checkStream (d : Nat) (isA : Bool) (endRow : Nat) : Option FaultKind :=
  let segl := if isA then sdSegl d else 0
  if sdVbase d ≠ 0 && !fmtTyped (sdVfmt d) then some .illegalFormat
  else if sdReserved d || sdEnc d > 3 || sdNrow d = 0 || (1 ≤ segl && segl ≤ 31) || sdRowp d % 8 ≠ 0 ||
      (sdEnc d ≠ 1 && sdIbase d % 4 ≠ 0) then some .illegalOperand
  else if segl ≠ 0 && (sdEnc d = 1 || sdEnc d = 2) then some .illegalOperand
  else if endRow > sdNrow d then some .illegalOperand
  else none

/-- Every check on stream A, then every check on stream B (R226). -/
def checkStreams (a b endRow : Nat) : Option FaultKind := (checkStream a true endRow).orElse fun _ => checkStream b false endRow

/-! ## Bytes that have come -/

/-- A byte of a stream, none where it has not come yet. -/
abbrev Bytes := Nat → Option Byte

/-- `n` bytes from an address, or the address of the first that has not come. -/
def Bytes.take (get : Bytes) : (n : Nat) → (va : Nat) → Except Nat (List Byte)
  | 0, _ => .ok []
  | n + 1, va =>
    match get va with
    | none => .error va
    | some b =>
      match Bytes.take get n (va + 1) with
      | .error e => .error e
      | .ok l => .ok (b :: l)

/-- A little-endian 32-bit number. -/
def Bytes.u32 (get : Bytes) (va : Nat) : Except Nat Nat :=
  match Bytes.take get 4 va with
  | .error e => .error e
  | .ok b => .ok (natOfBytes b)

/-- What a row pointer pair says of a row (R116): its first position, its position count, the address and number of its bytes, and whether
either pointer decreases. -/
structure RowPtr where
  pos : Nat
  n : Nat
  base : Nat
  size : Nat
  down : Bool
deriving DecidableEq, Repr

/-- Row `row` of a stream. -/
def rowPtr (d : Nat) (row : Nat) (get : Bytes) : Except Nat RowPtr :=
  let va := sdRowp d + 8 * row
  match Bytes.take get 16 va with
  | .error e => .error e
  | .ok b =>
    let n := fun i => natOfBytes ((b.drop (4 * i)).take 4)
    .ok { pos := n 0, n := n 2 - n 0, base := sdIbase d + n 1, size := n 3 - n 1, down := n 2 < n 0 || n 3 < n 1 }

/-! ## Units (R116, R122) -/

/-- A unit as it stands in memory: its coordinates, listed or as a run; its bytes; the reason it breaks by itself (0 or 2); the number
that must exceed the one before it, and the one the next must exceed. -/
structure RawUnit where
  cs : List Nat
  start : Nat
  count : Nat
  bytes : Nat
  err : Nat
  key : Nat
  top : Nat
  ends : Bool
deriving DecidableEq, Repr

/-- The bytes of a VARINT: its groups while they continue, at most 5. -/
def varintBytes (get : Bytes) : (fuel : Nat) → (va left : Nat) → Except Nat (List Byte)
  | 0, _, _ => .ok []
  | f + 1, va, left =>
    if left = 0 then .ok []
    else
      match get va with
      | none => .error va
      | some b =>
        if b.toNat < 128 then .ok [b]
        else
          match varintBytes get f (va + 1) (left - 1) with
          | .error e => .error e
          | .ok l => .ok (b :: l)

/-- One unit decoded at an address with `left` bytes of the row left; `prev` is the coordinate before it. None: the row ends inside it. -/
def rawUnit (enc : Nat) (get : Bytes) (va left : Nat) (prev : Option Nat) : Except Nat (Option RawUnit) :=
  match enc with
  | 0 =>
    if left < 4 then .ok none
    else
      match Bytes.u32 get va with
      | .error e => .error e
      | .ok v => .ok (some { cs := [v], start := v, count := 1, bytes := 4, err := 0, key := v, top := v, ends := false })
  | 1 =>
    match varintBytes get 5 va left with
    | .error e => .error e
    | .ok b =>
      let v := ((List.range b.length).map fun i => byteAt b i % 128 * 2 ^ (7 * i)).foldl (· + ·) 0
      let open_ := byteAt b (b.length - 1) ≥ 128
      let c := prev.getD 0 + v
      let fifth := b.length = 5 && byteAt b 4 / 16 % 8 ≠ 0
      if open_ && b.length < 5 then .ok none
      else
        .ok (some { cs := [c % 2 ^ 32], start := c % 2 ^ 32, count := 1, bytes := b.length,
                    err := if open_ || fifth || c ≥ 2 ^ 32 then 2 else 0, key := c, top := c % 2 ^ 32, ends := open_ })
  | 2 =>
    if left < 36 then .ok none
    else
      match Bytes.take get 36 va with
      | .error e => .error e
      | .ok b =>
        let no := natOfBytes (b.take 4)
        let cs := ((List.range 256).filter fun i => (byteAt b (4 + i / 8)).testBit (i % 8)).map fun i => (256 * no + i) % 2 ^ 32
        .ok (some { cs := cs, start := 0, count := cs.length, bytes := 36, err := if no > 0xFFFFFF then 2 else 0, key := no, top := no,
                    ends := false })
  | _ =>
    if left < 8 then .ok none
    else
      match Bytes.take get 8 va with
      | .error e => .error e
      | .ok b =>
        let st := natOfBytes (b.take 4)
        let ct := natOfBytes (b.drop 4)
        .ok (some { cs := [], start := st, count := ct, bytes := 8, err := if ct = 0 || st + ct > 2 ^ 32 then 2 else 0, key := st,
                    top := st + ct - 1, ends := false })

/-- A unit of a decoded row: its positions in the row from `first`, its coordinates, the reason it breaks (0: none), and the last
coordinate before it. -/
structure SUnit where
  first : Nat
  raw : RawUnit
  err : Nat
  prev : Nat
deriving DecidableEq, Repr

def SUnit.last (u : SUnit) : Nat := u.first + u.raw.count

/-- The coordinate of a unit's i-th position. -/
def RawUnit.coord (u : RawUnit) (i : Nat) : Nat := if u.cs.isEmpty then u.start + i else u.cs.getD i 0

/-- The last coordinate of a unit that has any. -/
def RawUnit.lastCoord (u : RawUnit) : Option Nat := if u.count = 0 then none else some (u.coord (u.count - 1))

/-- What has been decoded of a row: its units in order from within-row position `base` on; whether the row's end has been reached; a byte
span that breaks the row rule. -/
structure SRow where
  base : Nat
  units : List SUnit
  full : Bool
  span : Bool
deriving DecidableEq, Repr

/-- Positions up to the last one decoded. -/
def SRow.total (r : SRow) : Nat := (r.units.getLast?.map SUnit.last).getD r.base

/-- The last coordinate decoded. -/
def SRow.lastCoord (r : SRow) : Option Nat := (r.units.reverse.filterMap fun u => u.raw.lastCoord).head?

/-- The coordinate at a within-row position. -/
def SRow.coord? (r : SRow) (p : Nat) : Option Nat :=
  (r.units.find? fun u => u.first ≤ p && p < u.last).map fun u => u.raw.coord (p - u.first)

/-- One more unit: it breaks by itself, or because it does not exceed the one before it. -/
def SRow.add (r : SRow) (u : RawUnit) : SRow :=
  let low := match r.units.getLast? with
    | some x => decide (u.key ≤ x.raw.top)
    | none => false
  { r with units := r.units ++ [{ first := r.total, raw := u, err := if u.err ≠ 0 then u.err else if low then 1 else 0,
                                  prev := r.lastCoord.getD 0 }] }

/-- Units decoded in ascending byte order, `left` bytes of the row being left, until enough of them are there or the row ends; a byte that is
missing is given with the units before it. -/
def decodeUnits (enc : Nat) (get : Bytes) (enough : SRow → Bool) : (fuel : Nat) → (va left : Nat) → SRow → Except (Nat × SRow) SRow
  | 0, _, _, r => .ok r
  | f + 1, va, left, r =>
    if left = 0 then .ok { r with full := true }
    else if enough r then .ok r
    else
      match rawUnit enc get va left r.lastCoord with
      | .error e => .error (e, r)
      | .ok none => .ok { r with full := true, span := true }
      | .ok (some u) =>
        if u.ends then .ok { r.add u with full := true, span := true }
        else decodeUnits enc get enough f (va + u.bytes) (left - u.bytes) (r.add u)

/-- The smallest number of bytes of a unit. -/
def unitSize (enc : Nat) : Nat := if enc = 0 then 4 else if enc = 1 then 1 else if enc = 2 then 36 else 8

/-- A row decoded from within-row position `from_` on, which only U32 may choose, until enough is there. The span breaks the row rule where
the bytes are no whole units, or those of a row decoded to its end bring another number of positions (R116). -/
def RowPtr.decode (p : RowPtr) (enc from_ : Nat) (get : Bytes) (enough : SRow → Bool) : Except (Nat × SRow) SRow :=
  let at_ := if enc = 0 then 4 * from_ else 0
  let r : SRow := { base := if enc = 0 then from_ else 0, units := [], full := false, span := false }
  match decodeUnits enc get enough (p.size + 1) (p.base + at_) (p.size - at_) r with
  | .error e => .error e
  | .ok r =>
    let odd := p.size % unitSize enc ≠ 0 || (enc = 0 && p.size ≠ 4 * p.n)
    .ok { r with span := r.span || odd || (r.full && r.total ≠ p.n) }

/-! ## The check pass (R121, R122) -/

/-- The first unit of positions r0 to r1 of a row that breaks a rule by reason 2 or 1: the reason, and the last coordinate that decoded
validly before it. `toEnd` tells whether the range reaches the row's end. The unit just before the range is tested for what it shows by
itself: reason 2, and of a VARINT a delta of 0 (log entry 43). -/
def SRow.broken (r : SRow) (enc r0 r1 : Nat) (toEnd : Bool) : Option (Nat × Nat) :=
  let bad := fun (u : SUnit) => u.err ≠ 0 &&
    ((u.first ≥ r0 && toEnd) || (u.first < r1 && max u.last (u.first + 1) > r0) || ((u.err = 2 || enc = 1) && u.last = r0))
  (r.units.find? bad).map fun u => (u.err, u.prev)

/-- What the check pass finds in positions r0 to r1 of a row: its units in ascending order, then its span. -/
def SRow.check (r : SRow) (enc r0 r1 : Nat) (toEnd : Bool) : Option (Nat × Nat) :=
  match r.broken enc r0 r1 toEnd with
  | some x => some x
  | none =>
    if r.span then
      let known := (r.units.filter fun u => u.first < r1 || toEnd).filterMap fun u =>
        if u.raw.count = 0 then none
        else if toEnd || u.last ≤ r1 then u.raw.lastCoord else some (u.raw.coord (r1 - 1 - u.first))
      some (3, known.getLast?.getD 0)
    else none

/-! ## Segments (R120) -/

/-- The first of units `lo` to `hi` whose last coordinate reaches a bound, by halving; where each halving falls is free, which no row in
order shows. -/
def searchUnits (last : Nat → Except Nat Nat) (c : Nat) (free : Nat → Nat) : (fuel : Nat) → (lo hi : Nat) → Except Nat Nat
  | 0, lo, _ => .ok lo
  | f + 1, lo, hi =>
    if lo ≥ hi then .ok lo
    else
      let mid := lo + free (lo * 2 ^ 33 + hi) % (hi - lo)
      match last mid with
      | .error e => .error e
      | .ok x => if c ≤ x then searchUnits last c free f lo mid else searchUnits last c free f (mid + 1) hi

/-- The last coordinate of unit `i` of a U32 or RUNS row. -/
def RowPtr.lastOfUnit (p : RowPtr) (enc : Nat) (get : Bytes) (i : Nat) : Except Nat Nat :=
  match rawUnit enc get (p.base + unitSize enc * i) (unitSize enc) none with
  | .error e => .error e
  | .ok none => .ok 0
  | .ok (some u) => .ok (u.start + max u.count 1 - 1)

/-- Whole units of a U32 or RUNS row. -/
def RowPtr.units (p : RowPtr) (enc : Nat) : Nat := p.size / unitSize enc

/-- A search of a U32 or RUNS row for a bound. -/
def RowPtr.search (p : RowPtr) (enc : Nat) (get : Bytes) (free : Nat → Nat) (c : Nat) : Except Nat Nat :=
  searchUnits (p.lastOfUnit enc get) c free (p.units enc + 1) 0 (p.units enc)

/-- A search finds what any other would: the units below the bound come first. -/
def RowPtr.determinate (p : RowPtr) (enc : Nat) (get : Bytes) (c : Nat) : Bool :=
  let reach := (List.range (p.units enc)).filterMap fun i => match p.lastOfUnit enc get i with | .ok x => some (decide (c ≤ x)) | .error _ => none
  (reach.dropWhile fun b => !b).all id

/-- The first position of a decoded row whose coordinate reaches a bound. -/
def SRow.search (r : SRow) (c : Nat) : Nat :=
  match r.units.find? fun u => u.raw.lastCoord.any (c ≤ ·) with
  | none => r.total
  | some u => u.first + (if u.raw.cs.isEmpty then c - u.raw.start else u.raw.cs.findIdx (c ≤ ·))

/-- The position of a bound that a search has found to lie in unit `i`. -/
def SRow.posIn (r : SRow) (i c : Nat) : Nat :=
  match r.units[i]? with
  | none => r.total
  | some u => u.first + (c - u.raw.start)

/-- A byte of B's part that is missing: its address; the part's first position in the row, where it is known by then; the unit before the
missing byte that breaks a rule. -/
structure Missing where
  va : Nat
  pos : Option Nat
  broken : Option (Nat × Nat)
deriving DecidableEq, Repr

/-- The range of a scanned row, as far as it has been decoded: its first position once the scan has reached the bound. -/
def SRow.scanned (r : SRow) (lo hi : Nat) (first last : Bool) : Option Nat × Nat :=
  let b0 := if first then some 0 else if r.full || r.lastCoord.any (lo ≤ ·) then some (r.search lo) else none
  (b0, if last then r.total else max (b0.getD 0) (r.search hi))

/-- The range of a searched row whose bounds lie in units u0 and u1, as far as it has been decoded. -/
def SRow.searched (r : SRow) (enc u0 u1 lo hi : Nat) (first last : Bool) : Option Nat × Nat :=
  let at_ := fun u c => if enc = 0 then u else r.posIn u c
  let b0 := if first then some 0 else if enc = 0 || r.full || u0 < r.units.length then some (at_ u0 lo) else none
  (b0, if last then r.total else max (b0.getD 0) (at_ u1 hi))

/-- B's part of a segment between two bounds (R120): the row as far as it has been decoded, and the range. U32 and RUNS are searched, VARINT
and BITMAP are scanned. Positions of RUNS are counted from the row's start. -/
def RowPtr.part (p : RowPtr) (enc : Nat) (get : Bytes) (free : Nat → Nat) (lo hi : Nat) (first last : Bool) :
    Except Missing (SRow × Nat × Nat) :=
  let come := fun (d : Except (Nat × SRow) SRow) (range : SRow → Option Nat × Nat) =>
    match d with
    | .error (va, r) =>
      let x := range r
      Except.error { va := va, pos := x.1, broken := x.1.bind fun b0 => r.broken enc b0 x.2 last }
    | .ok r => .ok (r, (range r).1.getD 0, (range r).2)
  if enc = 1 || enc = 2 then
    come (p.decode enc 0 get fun r => !last && r.lastCoord.any (hi ≤ ·)) fun r => r.scanned lo hi first last
  else
    let known := if first then some 0 else none
    match (if first then .ok 0 else p.search enc get free lo) with
    | .error va => .error { va := va, pos := known, broken := none }
    | .ok u0 =>
      match (if last then .ok (p.units enc) else p.search enc get free hi) with
      | .error va => .error { va := va, pos := if enc = 0 then some u0 else known, broken := none }
      | .ok u1 =>
        let enough := fun (r : SRow) => !last && r.units.length + (if enc = 0 then u0 - 1 else 0) > max u0 u1
        come (p.decode enc (u0 - 1) get enough) fun r => r.searched enc u0 u1 lo hi first last

/-! ## The merge pass (R118, R121) -/

/-- The position of an absent coordinate. -/
def absentPos : Nat := 2 ^ 32 - 1

/-- One survivor. -/
def survivor (row sect coord : Nat) (pa pb : Option Nat) (na nb : Nat) : Survivor :=
  { coord := coord, posA := pa.getD absentPos, posB := pb.getD absentPos, inA := pa.isSome, inB := pb.isSome, row := row, sect := sect,
    nextA := na, nextB := nb }

/-- Survivors of two lists of coordinates with positions, in ascending order of coordinate. `ea` and `eb` are the positions just past
the ranges. -/
def mergeLists (op : JoinOp) (row sect ea eb : Nat) : (fuel : Nat) → List (Nat × Nat) → List (Nat × Nat) → List Survivor
  | 0, _, _ => []
  | f + 1, as, bs =>
    let next := fun (l : List (Nat × Nat)) (e : Nat) => (l.head?.map (·.2)).getD e
    let onlyA := fun (a : Nat × Nat) (r : List (Nat × Nat)) =>
      (if op = .intersect then [] else [survivor row sect a.1 (some a.2) none (next r ea) (next bs eb)]) ++
        mergeLists op row sect ea eb f r bs
    let onlyB := fun (b : Nat × Nat) (r : List (Nat × Nat)) =>
      (if op = .union then [survivor row sect b.1 none (some b.2) (next as ea) (next r eb)] else []) ++
        mergeLists op row sect ea eb f as r
    match as, bs with
    | [], [] => []
    | a :: r, [] => onlyA a r
    | [], b :: r => onlyB b r
    | a :: ra, b :: rb =>
      if a.1 < b.1 then onlyA a ra
      else if b.1 < a.1 then onlyB b rb
      else
        (if op = .diff then [] else [survivor row sect a.1 (some a.2) (some b.2) (next ra ea) (next rb eb)]) ++
          mergeLists op row sect ea eb f ra rb

/-- Positions p0 to p1 of a row with their coordinates, positions counted over the stream. -/
def SRow.slice (r : SRow) (pos p0 p1 : Nat) : List (Nat × Nat) :=
  (List.range (p1 - p0)).map fun i => ((r.coord? (p0 + i)).getD 0, pos + p0 + i)

/-- A row's part of a segment: the row pointers, what has been decoded, the range. -/
structure Part where
  ptr : RowPtr
  row : SRow
  lo : Nat
  hi : Nat

/-- The survivors of one segment; merging starts at the given positions where they lie past its first ones (R129). -/
def segSurvivors (op : JoinOp) (row k : Nat) (a b : Part) (posA posB : Nat) : List Survivor :=
  let cut := fun (x : Part) (pos : Nat) => x.row.slice x.ptr.pos (if pos = absentPos then x.lo else max x.lo (pos - x.ptr.pos)) x.hi
  let as := cut a posA
  let bs := cut b posB
  mergeLists op row k (a.ptr.pos + a.hi) (b.ptr.pos + b.hi) (as.length + bs.length + 1) as bs

/-- Survivors of a segment whose search of B is open, B being unsorted where no range covers it: some triples drawn from the two rows
(R122). -/
def straySurvivors (op : JoinOp) (row k : Nat) (a b : Part) (whole : SRow) (draw : Nat → Nat) : List Survivor :=
  (List.range (draw 0 % (a.ptr.n + b.ptr.n + 1))).filterMap fun i =>
    let ia := a.lo + draw (3 * i + 1) % max (a.hi - a.lo) 1
    let ib := draw (3 * i + 2) % max whole.total 1
    let pick := draw (3 * i + 3) % 3
    let both := op = .intersect || (op = .union && pick = 0)
    let onlyB := op = .union && pick = 1
    match a.row.coord? ia, whole.coord? ib with
    | some ca, some cb =>
      some (survivor row k (if onlyB then cb else ca) (if onlyB then none else some (a.ptr.pos + ia))
        (if both || onlyB then some (b.ptr.pos + ib) else none) (a.ptr.pos + ia + 1) (b.ptr.pos + ib + 1))
    | some ca, none => if both || onlyB then none else some (survivor row k ca (some (a.ptr.pos + ia)) none (a.ptr.pos + ia + 1) (b.ptr.pos + 1))
    | none, some cb => if onlyB then some (survivor row k cb none (some (b.ptr.pos + ib)) (a.ptr.pos + a.lo + 1) (b.ptr.pos + ib + 1)) else none
    | none, none => none

/-! ## One segment (R120 to R122) -/

/-- A join stops: the reason, the stream, the segment's first positions and LASTC of its cursor (R128). -/
structure SegStop where
  reason : Nat
  side : Nat
  posA : Nat
  posB : Nat
  lastc : Nat
deriving DecidableEq, Repr

/-- How far a segment has come: a byte of a stream is to be read next, the positions known so far being given, and where that byte cannot
be read, how the join stops by what comes before it (R122); the join stops; the range lies past this segment's row; the segment is done. -/
inductive SegStep where
  | need (side posA posB va : Nat) (first : Option SegStop)
  | stop (x : SegStop)
  | past (segs : Nat)
  | done (segs : Nat) (l : List Survivor)
deriving DecidableEq, Repr

/-- The check pass on B's part, then the merge pass. `open_` tells whether B's search was open. -/
def Join.mergePass (j : Join) (segs : Nat) (last open_ : Bool) (a b : Part) (get : Bytes) (draw : Nat → Nat) : SegStep :=
  match b.row.check (sdEnc j.descB) b.lo b.hi last with
  | some (reason, lastc) => .stop ⟨reason, 1, a.ptr.pos + a.lo, b.ptr.pos + b.lo, lastc⟩
  | none =>
    if open_ then
      let whole := match b.ptr.decode (sdEnc j.descB) 0 get fun _ => false with | .ok r => r | .error e => e.2
      .done segs (straySurvivors j.op j.row j.sect a b whole draw)
    else .done segs (segSurvivors j.op j.row j.sect a b j.posA j.posB)

/-- The search of B, then the check pass on A's part. `peek` shows B's bytes as they stand, to tell whether a search of it is open: it brings
nothing into the survivors of a row in order. -/
def Join.checkPass (j : Join) (segs : Nat) (last : Bool) (a : Part) (pb : RowPtr) (lo hi : Nat) (get peek : Bytes) (draw : Nat → Nat) :
    SegStep :=
  let first := j.sect = 0
  let enc := sdEnc j.descB
  let at_ := a.ptr.pos + a.lo
  let inA := a.row.check (sdEnc j.descA) a.lo a.hi last
  if pb.down then
    let posB := if first then pb.pos else absentPos
    match inA with
    | some (reason, lastc) => .stop ⟨reason, 0, at_, posB, lastc⟩
    | none => .stop ⟨3, 1, at_, posB, 0⟩
  else
    match pb.part enc get draw lo hi first last with
    | .error m =>
      let posB := match m.pos with | some b0 => pb.pos + b0 | none => absentPos
      .need 1 at_ posB m.va
        (match inA with
         | some (reason, lastc) => some ⟨reason, 0, at_, posB, lastc⟩
         | none => m.broken.map fun x => ⟨x.1, 1, at_, posB, x.2⟩)
    | .ok (r, b0, b1) =>
      match inA with
      | some (reason, lastc) => .stop ⟨reason, 0, at_, pb.pos + b0, lastc⟩
      | none =>
        let open_ := (enc = 0 || enc = 3) &&
          !((first || pb.determinate enc peek lo) && (last || pb.determinate enc peek hi))
        j.mergePass segs last open_ a { ptr := pb, row := r, lo := b0, hi := b1 } peek fun i => draw (2 ^ 70 + i)

/-- One segment of a join as far as the bytes that have come reach (R120 to R122, R127): the row pointers of both streams, A's range with
the unit before it and the coordinate that bounds it, B's search, the check pass, the merge pass. -/
def Join.segStep (j : Join) (get peek : Bytes) (draw : Nat → Nat) : SegStep :=
  match rowPtr j.descA j.row get with
  | .error va => .need 0 absentPos absentPos va none
  | .ok pa =>
    let l := sdSegl j.descA
    let segs := if l = 0 then 1 else max 1 ((pa.n + l - 1) / l)
    let at_ := pa.pos + j.sect * l
    if !pa.down && j.seg && segs < j.endSeg then .stop ⟨6, 0, absentPos, absentPos, j.lastc⟩
    else if !pa.down && j.sect ≥ segs then .past segs
    else
      match rowPtr j.descB j.row get with
      | .error va => .need 1 at_ absentPos va none
      | .ok pb =>
        let posB := if j.sect = 0 then pb.pos else absentPos
        if pa.down then .stop ⟨3, 0, at_, posB, 0⟩
        else
          let last := j.sect + 1 ≥ segs
          let a0 := min pa.n (j.sect * l)
          let a1 := if last then pa.n else min pa.n ((j.sect + 1) * l)
          match pa.decode (sdEnc j.descA) (a0 - 1) get fun r => !last && r.total > a1 with
          | .error (va, r) =>
            .need 0 at_ posB va ((r.broken (sdEnc j.descA) a0 (2 ^ 64) false).map fun x => ⟨x.1, 0, at_, posB, x.2⟩)
          | .ok r =>
            let lo := if j.sect = 0 then 0 else (r.coord? a0).getD (2 ^ 32)
            let hi := if last then 2 ^ 32 else (r.coord? a1).getD (2 ^ 32)
            j.checkPass segs last { ptr := pa, row := r, lo := a0, hi := a1 } pb lo hi get peek draw

end Sys2Proof.Machine
end

