-- ==== Sys2Proof/Machine/Keyway.lean ====
section
/-!
DEFINITION. The keyway (08 R119 to R129): the instructions of major 0xC (13 R225 to R227), a join's segments, its stops, cursors,
and the groups it forms.
-/
namespace Sys2Proof.Machine

/-! ## Handles (R119, R126) -/

/-- A join handle of a core. -/
def Core.join? (c : Core) (h : Nat) : Option Join := getKey none c.joins h

/-- The lowest free handle of 4. -/
def Core.freeHandle (c : Core) : Option Nat := (List.range 4).find? fun h => (c.join? h).isNone

def State.setJoin (s : State) (k h : Nat) (j : Option Join) : State := s.modCore k fun c => { c with joins := setKey c.joins h j }

/-- The handle as its owner sees it (R227). -/
def Ctx.ownJoin (c : Ctx) (h : Nat) : Option Join := ((c.s.core c.r.core).join? h).filter fun j => j.team == c.r.team

def JoinState.code : JoinState → Nat
  | .running => 1
  | .done => 2
  | .stopped => 3

/-- The status word (R126). -/
def Join.status (j : Join) : Nat :=
  j.state.code + (if j.state = .stopped then j.reason else 0) * 4 + min j.emit 0xFFFFFF * 2 ^ 8

/-! ## Cursors (R128) -/

/-- The cursor of a join that stops: where it resumes, and the last coordinate. -/
def Join.cursorWord (j : Join) (reason side row sect posA posB lastc : Nat) : Nat :=
  row % 2 ^ 32 + sect % 2 ^ 16 * 2 ^ 32 + reason * 2 ^ 48 + side * 2 ^ 52 + j.op.code * 2 ^ 53 + j.slotA * 2 ^ 55 + j.slotB * 2 ^ 59 +
    posA % 2 ^ 32 * 2 ^ 64 + posB % 2 ^ 32 * 2 ^ 96 + lastc % 2 ^ 32 * 2 ^ 128 + j.emit % 2 ^ 32 * 2 ^ 160 + j.endRow % 2 ^ 32 * 2 ^ 192 +
    (if j.seg then j.endSeg % 2 ^ 16 else 0) * 2 ^ 224 + j.entry % 2 ^ 16 * 2 ^ 240

/-- The cursor of a join that is cancelled (R127, R128). -/
def Join.cancelWord (j : Join) : Nat := j.cursorWord 0 0 j.lastRow j.lastSeg j.lastA j.lastB j.lastc

/-- An illegal REASON or OP, or a nonzero reserved bit (R129). -/
def badCursor (w : Nat) : Bool := bitsOf w 51 48 > 6 || bitsOf w 54 53 = 3 || w.testBit 63

/-- The operation a cursor names. -/
def cursorOp (w : Nat) : JoinOp := if bitsOf w 54 53 = 0 then .intersect else if bitsOf w 54 53 = 1 then .union else .diff

/-- A join as a cursor continues it (R129). -/
def joinAt (team vf grid level a b cursor w : Nat) (waitFor : List Nat) : Join :=
  { team := team, vf := vf, grid := grid, op := cursorOp w, seg := bitsOf w 239 224 ≠ 0, slotA := bitsOf w 58 55, slotB := bitsOf w 62 59,
    descA := a, descB := b, row := bitsOf w 31 0, sect := bitsOf w 47 32, endRow := bitsOf w 223 192, endSeg := bitsOf w 239 224,
    entry := bitsOf w 255 240, cursor := cursor, level := level, emit := bitsOf w 191 160, posA := bitsOf w 95 64, posB := bitsOf w 127 96,
    lastRow := bitsOf w 31 0, lastSeg := bitsOf w 47 32, lastA := bitsOf w 95 64, lastB := bitsOf w 127 96, lastc := 0, pending := [],
    since := 0, finished := false, state := .running, reason := 0, waitFor := waitFor, token := none, step := 0, failVa := 0,
    failAt := (0, absentPos, absentPos), stop := none }

/-! ## The instructions (R225 to R227) -/

/-- JDESC: the 32 bytes of s B to s B+7. -/
def execJdesc (o : Ops) (s : State) : Answered :=
  issue (.jdesc o) s fun c =>
    if c.uniA > 15 then .uniform .illegalOperand
    else if !c.any then .ok c.s
    else
      let w := ((List.range 8).map fun i => (c.group.sreg (o.b.num + i)).toNat * 2 ^ (32 * i)).foldl (· + ·) 0
      .ok (c.s.modTeam c.r.core c.r.team fun t => { t with streams := t.streams.set c.uniA w })

/-- Stores of the issuing split that its join's reads come after (R121). -/
def Ctx.storesOut (c : Ctx) : List Nat := c.s.writesOut c.r ++ c.s.remoteOut c.r

/-- The descriptor captured from a slot at issue (R115). -/
def Ctx.stream (c : Ctx) (slot : Nat) : Nat := getKey 0 c.cap slot

/-- The context in which the team's descriptors are those of the issue (R115): a JDESC while the split is parked changes nothing. -/
def Ctx.withStreams (c : Ctx) : Ctx :=
  if c.acting then c else { c with cap := (List.range 16).map fun i => (i, c.team.streams.getD i 0) }

/-- A join starts on a handle, with a name of its own for its first segment. -/
def Ctx.startJoin (c : Ctx) (h : Nat) (j : Join) : Act :=
  let i := c.s.takeId
  let s := i.2.forget c.r.core (.cursor h)
  .ok (({ c with s := s }.put 1 fun _ => h).setJoin c.r.core h (some { j with step := i.1 }))

/-- The split parks until a handle is free, all checks having been made (R217). -/
def Ctx.parkForHandle (c : Ctx) : Act :=
  if c.cap.any fun p => p.1 == 16 then c.parkInstr c.cap
  else .parkIn (c.s.forget c.r.core (.word c.r)) (.instr c.i (c.snap (c.cap ++ [(16, 1)])))

/-- JOIN (R226): checks in the order of R225, R117, the entry (R119), then the cursor address is translated for write; the lowest free
handle is taken, or the split parks for one. -/
def Ctx.joinAct (op : JoinOp) (seg : Bool) (disp : BitVec 14) (c : Ctx) : Act :=
  let c := c.withStreams
  let at_ := fun i => (c.group.sreg (c.o.c.num + i)).toNat
  let row := at_ 0
  let endRow := if seg then row + 1 else row + at_ 1
  let cur := c.uniE64
  let t := (c.split.pc : Int) + disp.toInt
  let a := c.stream c.uniA
  let b := c.stream c.uniB
  let go :=
    match (c.s.core c.r.core).freeHandle with
    | none => c.parkForHandle
    | some h =>
      let k0 := if seg then at_ 1 else 0
      let w := row % 2 ^ 32 + op.code * 2 ^ 53 + c.uniA * 2 ^ 55 + c.uniB * 2 ^ 59 + absentPos * 2 ^ 64 + absentPos * 2 ^ 96 +
        endRow % 2 ^ 32 * 2 ^ 192 + t.toNat * 2 ^ 240
      let j := joinAt c.r.team c.team.vf c.team.grid c.grid.prio a b cur w c.storesOut
      c.startJoin h { j with seg := seg, sect := k0, lastSeg := k0, endRow := endRow, endSeg := if seg then k0 + at_ 2 else 0 }
  if c.uniA > 15 || c.uniB > 15 then .uniform .illegalOperand
  else if at_ (if seg then 2 else 1) = 0 then .uniform .illegalOperand
  else if cur % 32 ≠ 0 then .uniform .illegalOperand
  else
    match checkStreams a b endRow with
    | some k => .uniform k
    | none =>
      if !(0 ≤ t ∧ t < 65536) then .uniform .illegalOperand
      else if !c.any then .ok c.s
      else if c.cap.any fun p => p.1 == 16 then go
      else
        match c.translate cur .store with
        | .error (.fault k) => .fault k cur none 1
        | .error (.walk pa) => c.askPhys pa
        | .ok _ => go

/-- JRESUME's checks on a cursor that has been read (R129), and its start. -/
def Ctx.resumeAt (c : Ctx) (h cur w : Nat) : Act :=
  let a := c.stream (bitsOf w 58 55)
  let b := c.stream (bitsOf w 62 59)
  if badCursor w then .uniform .illegalOperand
  else
    match checkStreams a b (bitsOf w 223 192) with
    | some k => .uniform k
    | none => c.startJoin h (joinAt c.r.team c.team.vf c.team.grid c.grid.prio a b cur w c.storesOut)

/-- JRESUME (R227, R129): the cursor is read once a handle is free. -/
def Ctx.jresumeAct (c : Ctx) : Act :=
  let c := c.withStreams
  let cur := c.uniA64
  if cur % 32 ≠ 0 then .uniform .illegalOperand
  else if !c.any then .ok c.s
  else
    match (c.s.core c.r.core).freeHandle with
    | none => c.parkForHandle
    | some h => c.reads [cur] fun c f => c.resumeAt h cur (natOfBytes ((List.range 32).map fun i => f.get (cur + i)))

/-- JSTAT and JSTAT.w (R126, R227): a handle that is reported DONE or STOPPED is freed. -/
def Ctx.jstatAct (wait : Bool) (c : Ctx) : Act :=
  let h := c.uniA
  if h > 3 then .uniform .illegalOperand
  else if !c.any then .ok c.s
  else
    match c.ownJoin h with
    | none => .ok (c.put 1 fun _ => 0)
    | some j =>
      if j.state = .running then (if wait then c.parkInstr [] else .ok (c.put 1 fun _ => j.status))
      else
        let freed := c.s.setJoin c.r.core h none
        if wait && j.state = .stopped && j.reason ≠ 0 then
          if j.reason ≤ 3 then .stop freed (.unsorted j.reason) 0
          else if j.reason = 4 then .stop freed .access j.failVa
          else if j.reason = 5 then .stop freed .memoryError j.failVa
          else .stop freed .illegalOperand 0
        else .ok ({ c with s := freed }.put 1 fun _ => j.status)

/-- JDESC to JCANCEL. -/
def execJoin (o : Ops) (op : JoinOp) (seg : Bool) (disp : BitVec 14) (s : State) : Answered :=
  issue (.join o op seg disp) s (Ctx.joinAct op seg disp)

/-- JRESUME. -/
def execJresume (o : Ops) (s : State) : Answered := issue (.jresume o) s Ctx.jresumeAct

/-- JSTAT. -/
def execJstat (o : Ops) (w : Bool) (s : State) : Answered := issue (.jstat o w) s (Ctx.jstatAct w)

/-! ## Stops (R127) -/

/-- The handle becomes STOPPED; its team may end. `va` is the address of the fault that stopped it. -/
def State.joinStopped (s : State) (k h : Nat) (j : Join) (reason va : Nat) : State :=
  (s.setJoin k h (some { j with state := .stopped, reason := reason, failVa := va, stop := none, token := none })).checkTeam k j.team

/-- The keyway as an asker: its reads and writes belong to no split. -/
def joinAsker (k : Nat) (v : VfConfig) (j : Join) (key : Errand) : Asker :=
  engineAsker k v j.grid { core := k, team := j.team, grp := 32, split := 0 } key 0

/-- The cursor of a join that stops is written; a missing page makes it wait, and a cursor that meets ACCESS is lost (R226). -/
def State.writeCursor (s : State) (k h : Nat) : State :=
  match (s.core k).join? h with
  | none => s
  | some j =>
    match j.stop, s.vf? j.vf with
    | some (reason, w), some v =>
      match s.writing (joinAsker k v.cfg j (.cursor h)) (bytesFrom j.cursor (bytesOfNat 32 w)) [] with
      | .wait => s
      | .sent s => s
      | .got s _ => (s.forget k (.cursor h)).joinStopped k h j reason j.failVa
      | .fail s _ kind va =>
        if kind = .pageFault then
          let p := s.postPageFault j.vf k va 1 (.join k h) { kind := kind, addr := va, lane := none, pc := 0, acc := 1 }
          p.1.setJoin k h (some { j with token := some p.2 })
        else s.joinStopped k h j 4 va
    | _, _ => s

/-- JOIN_STOP (R127): survivors merged but not in a formed group are discarded; the cursor is written, and only then is the handle
STOPPED. -/
def State.stopJoin (s : State) (k h : Nat) (j : Join) (reason word : Nat) : State :=
  ((s.forget k (.join h j.step)).setJoin k h (some { j with pending := [], token := none, stop := some (reason, word) })).writeCursor k h

/-- JCANCEL (R127, R227). -/
def execJcancel (o : Ops) (s : State) : Answered :=
  issue (.jcancel o) s fun c =>
    if c.uniA > 3 then .uniform .illegalOperand
    else if !c.any then .ok c.s
    else
      match c.ownJoin c.uniA with
      | none => .ok c.s
      | some j =>
        if j.state ≠ .running then .ok (c.s.setJoin c.r.core c.uniA none)
        else if j.stop.isSome then .ok c.s
        else .ok (c.s.stopJoin c.r.core c.uniA j 0 j.cancelWord)

/-! ## Segments (R120 to R122) -/

/-- A read of the keyway that fails, nothing before it breaking a rule (R122): on a missing page it waits, else the join stops with reason 4 or 5. -/
def State.keywayFails (s : State) (k h : Nat) (j : Join) (side posA posB : Nat) (kind : FaultKind) (va acc : Nat) : State :=
  if kind = .pageFault then
    let p := s.postPageFault j.vf k va acc (.join k h) { kind := kind, addr := va, lane := none, pc := 0, acc := acc }
    p.1.setJoin k h (some { j with token := some p.2, failAt := (side, posA, posB) })
  else
    let reason := if kind = .memoryError then 5 else 4
    s.stopJoin k h { j with failVa := va } reason (j.cursorWord reason side j.row j.sect posA posB j.lastc)

/-- The next segment of the range, or its end. R129 checks no cursor: of one whose SEG is not below a nonzero ENDSEG the one segment SEG is
processed (DESIGN CHOICE, log entry 43). -/
def Join.advance (j : Join) (segs : Nat) : Join :=
  if j.sect + 1 < (if j.seg then j.endSeg else segs) then { j with sect := j.sect + 1, posA := absentPos, posB := absentPos }
  else if j.seg || j.row + 1 ≥ j.endRow then { j with finished := true }
  else { j with row := j.row + 1, sect := 0, posA := absentPos, posB := absentPos }

/-- A group can be formed: it holds 32 survivors, or the range has been merged (R124). -/
def Join.formable (j : Join) : Bool := j.state == .running && j.stop.isNone && (j.pending.length ≥ 32 || (j.finished && !j.pending.isEmpty))

/-- A join after a change: since when a group can be formed; DONE once nothing is left (R126). -/
def State.keepJoin (s : State) (k h : Nat) (old j : Join) : State :=
  let j := if j.formable && !old.formable then { j with since := s.time } else j
  if j.finished && j.pending.isEmpty then (s.setJoin k h (some { j with state := .done })).checkTeam k j.team else s.setJoin k h (some j)

/-- The addresses of the survivors' values, of a stream that has values (R116). -/
def valueVas (d : Nat) (ps : List Nat) : List Nat :=
  if sdVbase d = 0 then [] else ps.map fun p => sdVbase d + p * (max (fmtWidth (sdVfmt d)) 8 / 8)

/-- A page-table entry that one of the addresses still waits for. -/
def State.walkOf (s : State) (a : Asker) (vas : List Nat) : Option Nat :=
  vas.findSome? fun va => match s.askXlate a va .load with | .error (.walk pa) => some pa | _ => none

/-- The homes of the survivors' values are asked to fill their lines, as PREF asks (R39, R121); nobody waits for the answers. -/
def State.fillValues (s : State) (a : Asker) (vas : List Nat) : State :=
  let xs := vas.filterMap fun va => (s.askXlate a va .load).toOption.map fun x => (va, x)
  let i := s.takeIds xs.length
  i.2.sendAll (((List.range xs.length).zip xs).map fun p => a.req (i.1 + p.1) p.2.1 p.2.2 .pref s.time 3)

/-- A byte of a stream that has come. -/
def Fetch.byte? (f : Fetch) (va : Nat) : Option Byte :=
  let sec := va / 32 * 32
  if (f.got.any fun p => p.1 == sec) && !(f.errs.any fun e => e.2 == sec) then some (f.get va) else none

/-- A byte as it stands at its home; none where it is not this package's. -/
def State.peek (s : State) (a : Asker) (va : Nat) : Option Byte :=
  match s.askXlate a va .load with
  | .ok x => if x.home.away then none else (s.valueAt x.home x.pa 1).head?
  | .error _ => none

/-- What the rules leave open of a segment: where a search over an unsorted row falls, and the survivors there (R122, log entry 43). -/
def Join.chance (j : Join) (fall i : Nat) : Nat := Config.free j.step (2 ^ 80 + 2 ^ 96 * fall + i)

/-- A join that stops in a segment writes its cursor (R127, R128). -/
def State.stopAt (s : State) (k h : Nat) (j : Join) (x : SegStop) : State :=
  s.stopJoin k h j x.reason (j.cursorWord x.reason x.side j.row j.sect x.posA x.posB x.lastc)

/-- The segment a join stands at goes as far as the bytes that have come reach: one more sector is asked for, or the join stops, or goes on
to the next segment. -/
def State.segment (s : State) (k h fall : Nat) (v : Vf) (j : Join) : State :=
  let a := joinAsker k v.cfg j (.join h j.step)
  let f := (s.core k).answers a.key
  let next := fun (s : State) (j : Join) =>
    let i := (s.forget k a.key).takeId
    (i.2, { j with step := i.1 })
  match j.segStep f.byte? (s.peek a) (j.chance fall) with
  | .need side posA posB va first =>
    match s.reading a (f.got.map (·.1) ++ [va / 32 * 32]) with
    | .wait => s
    | .sent s => s
    | .got s _ => s
    | .fail s _ kind va =>
      match first with
      | some x => s.stopAt k h j x
      | none => s.keywayFails k h j side posA posB kind va 0
  | .stop x => s.stopAt k h j x
  | .past segs =>
    let n := next s (j.advance segs)
    n.1.keepJoin k h j n.2
  | .done segs sv =>
    let vas := valueVas j.descA ((sv.filter (·.inA)).map (·.posA)) ++ valueVas j.descB ((sv.filter (·.inB)).map (·.posB))
    match s.walkOf a vas with
    | some pa => (s.askPhys k v.cfg.id j.grid a.owner a.key [pa]).getD s
    | none =>
      let n := next (s.fillValues a vas) ({ j with pending := j.pending ++ sv }.advance segs)
      n.1.keepJoin k h j n.2

/-- JOIN_SEGMENT (R121): a join whose issuing split's earlier stores have returned goes one step on in its segment. A join that stops
writes its cursor. One whose cursor gives a ROW not below ENDROW, which R129 and R227 do not check, is DONE at once (DESIGN CHOICE, log
entry 43). -/
def State.joinSegment (s : State) (k h fall : Nat) : State :=
  match (s.core k).join? h with
  | none => s
  | some j =>
    match s.vf? j.vf with
    | none => s
    | some v =>
      if j.state ≠ .running || j.token.isSome then s
      else if j.stop.isSome then s.writeCursor k h
      else if j.finished || j.pending.length ≥ 32 || (j.waitFor.any fun id => (s.req? id).isSome || (s.core k).unperformed id) then s
      else if j.row ≥ j.endRow then s.keepJoin k h j { j with finished := true }
      else s.segment k h fall v j

/-- JOIN_SEGMENT; `fall` chooses among what the rules leave open. -/
def execJoinSegment (core h fall : Nat) (s : State) : Answered := .next (s.joinSegment core h fall).bump

/-! ## Groups from survivors (R123 to R125) -/

/-- The registers of a group of survivors (R124). -/
def Group.withSurvivors (g : Group) (l : List Survivor) : Group :=
  let at_ := fun (f : Survivor → Nat) (k : Nat) => BitVec.ofNat 32 ((l.map f).getD k 0)
  let m := maskOf fun k => k < l.length
  let g := g.setVec 0 m (at_ (·.coord))
  let g := g.setVec 1 m (at_ (·.posA))
  let g := g.setVec 2 m (at_ (·.posB))
  let g := g.setPreg 0 m fun k => (l.map (·.inA)).getD k false
  g.setPreg 1 m fun k => (l.map (·.inB)).getD k false

/-- Joins of a core that could form a group now: since when, and the handle. -/
def Core.joinsReady (c : Core) : List (Nat × Nat) :=
  (List.range 4).filterMap fun h => (c.join? h).bind fun j => (c.team? j.team).bind fun t =>
    if j.formable && !t.stopping && c.roomForGroup t then some (j.since, h) else none

/-- KEYWAY_GROUP_FORM (R124, R125, R259): continuations come first, older requests before younger ones. -/
def State.formGroup (s : State) (k h : Nat) : State :=
  let c := s.core k
  match c.join? h, c.joinsReady.find? fun p => p.2 == h with
  | some j, some p =>
    if !c.contsReady.isEmpty || c.joinsReady.any fun q => q.1 < p.1 then s
    else
      let l := j.pending.take 32
      match c.startGroup j.team j.entry (maskOf fun i => i < l.length) j.level fun g => g.withSurvivors l with
      | none => s
      | some (c, _) =>
        let e := (l.getLast?).getD default
        let j' := { j with
          pending := j.pending.drop 32, emit := j.emit + l.length, lastc := e.coord, lastA := e.nextA, lastB := e.nextB, lastRow := e.row,
          lastSeg := e.sect }
        ({ s with cores := setKey s.cores k c }).keepJoin k h { j with finished := false, pending := [] } j'
  | _, _ => s

def execKeywayGroupForm (core h : Nat) (s : State) : Answered := .next (s.formGroup core h).bump

end Sys2Proof.Machine
end

