-- ==== Sys2Proof/Machine/Place.lean ====
section
/-!
DEFINITION. Placing teams and clusters (14 R246 to R250): resources, shapes, footprints, and TEAM_PLACE.
-/
namespace Sys2Proof.Machine

/-! ## Shapes and footprints (R249) -/

/-- The legal cluster shapes. -/
def legalShape (w h : Nat) : Bool :=
  (1 ≤ w && w ≤ 4 && 1 ≤ h && h ≤ 4 && w * h ≤ 12) || (w, h) == (2, 6) || (w, h) == (6, 2) || (w, h) == (12, 1) || (w, h) == (1, 12)

/-- The footprint of a shape, and where rank k sits in it. -/
def footprintOf (w h : Nat) : Nat × Nat := if (w, h) = (12, 1) then (6, 2) else if (w, h) = (1, 12) then (2, 6) else (w, h)

def rankAt (w h k : Nat) : Nat × Nat :=
  if (w, h) = (12, 1) then (k % 6, k / 6) else if (w, h) = (1, 12) then (k / 6, k % 6) else (k % w, k / w)

/-- The cores of the ranks of a cluster whose footprint has its origin on a die. -/
def footprintCores (w h die y0 x0 : Nat) : List Nat :=
  (List.range (w * h)).map fun k => 48 * die + 8 * (y0 + (rankAt w h k).2) + x0 + (rankAt w h k).1

/-- The footprints of a shape in the order they are tried: lowest die, then y0, then x0. -/
def footprints (w h : Nat) : List (List Nat) :=
  let f := footprintOf w h
  (List.range 4).flatMap fun d => (List.range (7 - f.2)).flatMap fun y => (List.range (9 - f.1)).map fun x => footprintCores w h d y x

/-! ## Room on a core (R247) -/

/-- KiB of a core's scratchpad that pinned windows take (R27). -/
def State.pinnedKiB (s : State) (k : Nat) : Nat := ((s.vfs.filter fun v => v.cfg.cores.contains k).map (·.cfg.pinnedKiB)).foldl (· + ·) 0

/-- The virtual function a shared core serves now (R312). -/
def State.served (s : State) (k : Nat) : Option Nat := (s.quanta.find? fun q => q.1 == k).map (·.2.1)

/-- A core accepts teams of a virtual function: it is one of its cores, in reduced service one of D0's (R319), and a shared core serves it and
holds no other's teams (R312). -/
def State.accepts (s : State) (k : Nat) (v : Vf) : Bool :=
  v.cfg.cores.contains k && (s.service == .full || (s.service == .reduced && k < 48)) &&
    (!v.cfg.shared || ((match s.served k with | none => true | some x => x == v.cfg.id) && (s.core k).teams.all fun t => t.vf == v.cfg.id))

/-- Scratchpad, latches and the lq reservation for one more team. -/
def State.holds (s : State) (k : Nat) (ke : Kernel) : Bool :=
  let c := s.core k
  let sum := fun (f : Kernel → Nat) => (c.teams.map fun t => f t.kernel).foldl (· + ·) 0
  sum (·.scratch) + ke.scratch + 1024 * s.pinnedKiB k ≤ 2 ^ 20 && sum (·.latches) + ke.latches ≤ 512 && (!ke.lq || c.lqTeam.isNone)

/-- A team on a core, holding the lq reservation where its kernel uses one. -/
def Core.addTeam (c : Core) (t : Team) : Core :=
  { c with
    teams := c.teams ++ [t]
    lqTeam := if t.kernel.lq then some t.id else c.lqTeam
    lqs := if t.kernel.lq then [] else c.lqs }

/-- The launch groups of a team placed one by one (R248); none where a context or registers are missing. -/
def Core.launchGroups (c : Core) (team level : Nat) (args : List Word) : Nat → Option Core
  | 0 => some c
  | n + 1 => (c.startGroup team 0 allLanes level fun g => g.withArgs args).bind fun x => Core.launchGroups x.1 team level args n

/-- A kernel as the die of a core runs it: only its length may differ (R300, R302). -/
def Kernel.on (ke : Kernel) (o : Option CodeObject) (k : Nat) : Kernel :=
  { ke with words := ((o.bind fun o => o.image? (k / 48)).map fun i => (i.kernels.getD ke.num (0, ke.words)).2).getD ke.words }

/-- A team of a grid by its linear index (R246, R249). -/
def Grid.team (gr : Grid) (o : Option CodeObject) (k id lin : Nat) : Team :=
  let n := max (gr.kernel.cw * gr.kernel.ch) 1
  { id := id, grid := gr.id, vf := gr.vf, lin := lin, clu := lin / n, rank := lin % n, kernel := gr.kernel.on o k,
    scratch := [], latches := List.replicate gr.kernel.latches Latch.fresh, barriers := List.replicate 16 Barrier.empty,
    cluBarriers := List.replicate 4 Barrier.empty, binds := List.replicate gr.kernel.cams Binding.unbound,
    streams := List.replicate 16 0, shadow := [], groups := [], stopping := false, halted := false, quiescing := false }

/-- One team placed on a core with all it needs, or nothing. -/
def State.placeTeam (s : State) (k : Nat) (v : Vf) (gr : Grid) (lin : Nat) : Option State :=
  if !s.accepts k v || !s.holds k gr.kernel || (gr.kernel.cw * gr.kernel.ch > 1 && !(s.core k).teams.isEmpty) then none
  else
    let i := s.takeId
    let t := gr.team (v.objects.find? fun o => o.id == gr.kernel.obj) k i.1 lin
    (((s.core k).addTeam t).launchGroups t.id gr.prio gr.args gr.kernel.groups).map fun c =>
      let s := { i.2 with cores := setKey s.cores k c }
      let s := if v.cfg.shared && (s.served k).isNone then { s with quanta := s.quanta ++ [(k, v.cfg.id, v.cfg.quantum)] } else s
      s.modGrid gr.id fun g => { g with teams := g.teams ++ [t.id] }

/-- Teams of a cluster placed together, or none (R249). -/
def State.placeAll (s : State) (v : Vf) (gr : Grid) : List (Nat × Nat) → Option State
  | [] => some s
  | (k, lin) :: r => (s.placeTeam k v gr lin).bind fun s => State.placeAll s v gr r

/-- The first footprint that takes the next cluster of a grid (R250). -/
def State.placeCluster (s : State) (v : Vf) (gr : Grid) : Option State :=
  let n := gr.kernel.cw * gr.kernel.ch
  if n = 0 || gr.placed + n > gr.count then none
  else
    ((footprints gr.kernel.cw gr.kernel.ch).findSome? fun ks =>
      s.placeAll v gr (ks.zip ((List.range n).map (gr.placed + ·)))).map fun s => s.modGrid gr.id fun g => { g with placed := g.placed + n }

/-- TEAM_PLACE (R247 to R250). A virtual function that has stopped or is leaving places nothing (R35, R313); on shared cores its
pre-empted teams come first (R312). -/
def execTeamPlace (grid : Nat) (s : State) : Answered :=
  match s.grid? grid with
  | none => .next s.bump
  | some gr =>
    match s.vf? gr.vf with
    | none => .next s.bump
    | some v =>
      if v.stopped || v.leaving || (v.cfg.shared && !v.saved.isEmpty) then .next s.bump
      else .next ((s.placeCluster v gr).getD s).bump

end Sys2Proof.Machine
end

