-- ==== Sys2Proof/Machine/Queues.lean ====
section
/-!
DEFINITION. Task queues, subscriptions and the tumbler (13 R228 to R233), local queues (R234).
-/
namespace Sys2Proof.Machine

/-! ## Headers and items (R228, R229) -/

def qhRing (w : Nat) : Nat := bitsOf w 55 0
def qhLogn (w : Nat) : Nat := bitsOf w 60 56
def qhFullb (w : Nat) : Bool := w.testBit 64
def qhTail (w : Nat) : Nat := bitsOf w 159 128
def qhHead (w : Nat) : Nat := bitsOf w 191 160
def qhNfull (w : Nat) : Nat := bitsOf w 223 192

/-- LOGN, RING or reserved bits are illegal (R231). -/
def badHeader (w : Nat) : Bool :=
  qhLogn w < 4 || qhLogn w > 20 || qhRing w % 32 ≠ 0 || bitsOf w 63 61 ≠ 0 || bitsOf w 127 65 ≠ 0 || bitsOf w 511 224 ≠ 0

/-- Items that the queue holds. -/
def qhCount (w : Nat) : Nat := (qhTail w + 2 ^ 32 - qhHead w) % 2 ^ 32

/-- The address of item t. -/
def itemVa (w t : Nat) : Nat := qhRing w + 32 * (t % 2 ^ qhLogn w)

/-- An item's ENTRY bits 31:16 or reserved bits are not zero (R233). -/
def badItem (x : Nat) : Bool := bitsOf x 31 16 ≠ 0 || bitsOf x 63 33 ≠ 0

/-! ## A step at a header's home (R31, R231, R232) -/

/-- The header that a step holds. -/
def State.header (s : State) (q : Req) : Nat := natOfBytes (s.valueAt q.home q.pa 64)

/-- Four bytes of a header changed, at a bit position. -/
def State.setHeader (s : State) (q : Req) (bit v : Nat) : State :=
  s.writeAt q.home q.line (bytesFrom (q.pa + bit / 8) (bytesOfNat 4 v))

/-- The home of a header as an asker: it reaches the items through its slice TLB (R233). -/
def homeAsker (q : Req) (v : VfConfig) (key : Errand) : Asker :=
  let a := engineAsker q.core v q.grid q.owner key 0
  match q.home with
  | .slice n | .direct n => { a with slice := some n, srck := 1, src := n }
  | _ => a

/-- A step on a header has been made: it is answered. -/
def State.endHold (s : State) (a : Asker) (q : Req) (f : Req → Req) : State := (s.forget a.core a.key).answered q f

/-- A step on a header fails, with a fault at an address. -/
def State.failHold (s : State) (a : Asker) (q : Req) (k : FaultKind) (va : Nat) : State :=
  s.endHold a q fun x => { x with failed := some k, va := va }

/-- The sector of a header, 0 or 1, that is lost (R35). -/
def State.badSector (s : State) (q : Req) : Option Nat := (List.range 2).find? fun i => s.bad q.home (q.sector + i)

/-- A header that is lost answers MEMORY_ERROR. -/
def State.loseHeader (s : State) (a : Asker) (q : Req) (i : Nat) : State :=
  (if s.isLost q.home (q.sector + i) then s else s.loseSector q.home (q.sector + i)).failHold a q .memoryError (q.va + 32 * i)

/-- A write of the header must wait for the dirty log (R73): the state meanwhile; none where it may be made. -/
def State.holdLog (s : State) (a : Asker) (q : Req) : Option State :=
  match s.askXlate a q.va .store with
  | .error (.fault _) => none
  | .error (.walk pa) => some ((s.askPhys a.core a.v.id a.grid a.owner a.key [pa]).getD s)
  | .ok x =>
    match s.logWrite a.core a.v.id a.grid a.owner a.key [x] with
    | .ready => none
    | .wait s _ => some s
    | .full s _ => some (s.logFull a.v.id a.srck a.src (s.vfTime a.core a.v.id))

/-- A step that holds a header goes on at the head of its line's order, the line being present; `err` tells whether its first sector is
struck by an uncorrectable error. -/
def State.holdStep (s : State) (id : Nat) (err : Bool) (go : State → Req → State) : State :=
  match s.req? id with
  | none => s
  | some q =>
    let s := (if err then s.strike q.sector else s).serve id
    match s.req? id with
    | none => s
    | some q => if q.done || q.arrived.isNone || !s.atHead q || !s.present q.home q.line then s else go s q

/-! ## ENQ (R231) -/

/-- The uniform address of a header, aligned to 64 bytes and translated for write. -/
def Ctx.header (c : Ctx) (sc : Scale) (disp : Int) : Except LaneFault Elem :=
  c.atBase (c.group.breg c.o.a.num) (c.offset sc disp 0) false 64 .store 0

/-- The first executing lane whose ENTRY or FLAGS word is illegal. -/
def Ctx.badLane (c : Ctx) : Option Nat :=
  c.lanes.find? fun l => (c.group.vlane c.o.c.num l).toNat ≥ 65536 || (c.group.vlane (c.o.c.num + 1) l).toNat > 1

/-- One lane's item (R229, R231). -/
def Ctx.item (c : Ctx) (l : Nat) : List Byte := (List.range 8).flatMap fun i => bytesOfNat 4 (c.group.vlane (c.o.c.num + i) l).toNat

/-- The request of an ENQ is sent, and the core drops its copies of the header (R76); each sending takes the memory port (R254). -/
def Ctx.sendEnq (c : Ctx) (e : Elem) (trip : Nat) : State :=
  let i := (c.cached [e]).takeId
  let q := { c.reqOf i.1 e .hold true 0 none with errand := some (.push c.r), lane := none, trip := trip }
  c.port 1 ((i.2.sendAll [q]).dropL1 c.r.core [q.sector + 1])

/-- ENQ: the checks; then the request is sent, and the split waits for the home's answer. -/
def Ctx.enqAct (sc : Scale) (disp : Int) (c : Ctx) : Act :=
  if !c.any then .ok c.s
  else
    match c.header sc disp with
    | .error e => c.lane e true 1
    | .ok e =>
      match c.badLane with
      | some l => .fault .illegalOperand 0 (some l) 0
      | none => .parkIn (c.sendEnq e 3) (.enq c.i (c.snap []) false)

/-- ENQ. -/
def execEnq (o : Ops) (sc : Scale) (disp : BitVec 13) (s : State) : Answered := issue (.enq o sc disp) s (Ctx.enqAct sc disp.toInt)

/-- What ENQ writes: its items, from TAIL on. -/
def itemBytes (w : Nat) (items : List (List Byte)) : List (Nat × Byte) :=
  ((List.range items.length).zip items).flatMap fun p => bytesFrom (itemVa w (qhTail w + p.1)) p.2

/-- The step of an ENQ on its header (R231): a full queue counts in NFULL; else the items are written at their homes, and once they are
there TAIL covers them. -/
def State.pushAt (s : State) (v : VfConfig) (q : Req) (items : List (List Byte)) : State :=
  let a := homeAsker q v (.push q.owner)
  let w := s.header q
  match s.badSector q with
  | some i => s.loseHeader a q i
  | none =>
    if badHeader w then s.failHold a q .illegalOperand q.va
    else if !s.leasesOver q.home q.line then s
    else
      match s.holdLog a q with
      | some s => s
      | none =>
        if qhCount w + items.length > 2 ^ qhLogn w then
          let s := s.setHeader q 192 (min (qhNfull w + 1) (2 ^ 32 - 1))
          if qhFullb w then s.endHold a q fun x => { x with data := s.valueAt q.home q.pa 64 } else s.failHold a q .queueFull q.va
        else
          match s.writing a (itemBytes w items) [] with
          | .wait => s
          | .sent s => s
          | .fail s _ k va => s.failHold a q k va
          | .got s f =>
            (s.setHeader q 128 ((qhTail w + items.length) % 2 ^ 32)).endHold a q fun x => { x with time := max x.time f.time }

/-- A split that parked earlier on the same queue and acts first, the header having changed for both (R217): it may repeat its request, or
has done so and the request has not reached the header's home. -/
def State.queuesBefore (s : State) (r : SplitRef) (t now : Nat) (vf va : Nat) : Bool :=
  s.splitRefs.any fun x =>
    x.1 != r && x.2.parkedAt < t &&
      (match x.2.park, s.team? x.1.core x.1.team, s.group? x.1 with
       | .enq _ a full, some u, some g =>
         u.vf == vf && !a.cap.isEmpty && getKey 0 a.cap 1 == va &&
           (if full then x.2.mayAct u g && getKey 0 a.cap 0 != now
            else s.reqs.any fun q => q.errand == some (.push x.1) && q.kind == .hold && q.arrived.isNone && !q.done)
       | _, _, _ => false)

/-- An ENQ parked on a full queue repeats its request when the header has changed (R231); word of the change takes its way too. -/
def State.enqAgain (s : State) (r : SplitRef) : State :=
  match s.team? r.core r.team, s.group? r, s.split? r with
  | some t, some g, some p =>
    match p.park with
    | .enq (.enq o sc disp) a true =>
      match s.actCtx? r (.enq o sc disp) a with
      | none => s
      | some c =>
        if !p.mayAct t g then s
        else
          match c.header sc disp.toInt with
          | .error e =>
            (match e.kind with
             | .walk pa => (s.askPhys r.core t.vf t.grid r (.word r) [pa]).getD s
             | .fault _ => c.finish (c.lane e true 1))
          | .ok e =>
            let now := natOfBytes (s.valueAt e.x.home e.x.pa 64)
            if now == getKey 0 a.cap 0 || s.queuesBefore r p.parkedAt now t.vf e.va then s
            else c.finish (.parkIn (c.sendEnq e 6) (.enq c.i a false))
    | _ => s
  | _, _, _ => s

/-- The number of a core that stands for the requesters outside the package (R32): the requests they send are told apart by their teams'
names. -/
def outsideCore : Nat := 512

/-- ENQ_PUSH (R231): the step of an ENQ's request at its header's home; where a full queue has made it wait, the request repeats. One whose
split has ended does nothing; one from outside the package brings its items with it (R32). -/
def State.enqPush (s : State) (r : SplitRef) (err : Bool) : State :=
  match s.reqs.find? fun q => q.errand == some (.push r) && q.kind == .hold with
  | none => s.enqAgain r
  | some q =>
    s.holdStep q.id err fun s q =>
      match s.split? r with
      | none =>
        match (if r.core = outsideCore then s.vf? q.vf else none) with
        | some v => s.pushAt v.cfg q (pieces 32 (q.data.length / 32) q.data)
        | none => s.endHold (homeAsker q default (.push r)) q id
      | some p =>
        match p.park with
        | .enq i a _ =>
          match s.actCtx? r i a with
          | some c => s.pushAt c.v.cfg q (c.lanes.map c.item)
          | none => s
        | _ => s.endHold (homeAsker q default (.push r)) q id

def execEnqPush (r : SplitRef) (err : Bool) (s : State) : Answered := .next (s.enqPush r err).bump

/-! ## Subscriptions and the tumbler (R232, R233) -/

/-- The virtual address of a memory operand of a *once* form. -/
def Ctx.onceVa (c : Ctx) (sc : Scale) (disp : Int) : Nat := wrapTo ((c.group.breg c.o.a.num).vbase.toNat + c.offset sc disp 0) 64

/-- The subscription of a header joins the core's table (R232). -/
def Ctx.subscribe (c : Ctx) (va : Nat) : Act :=
  let subs := (c.s.core c.r.core).subs
  if subs.any fun b => b.header == va && b.team == c.r.team then .ok c.s
  else
    match (List.range 8).find? fun n => !(subs.any fun b => b.entry == n) with
    | none => .uniform .queueFull
    | some n => .ok (c.s.modCore c.r.core fun k => { k with subs := k.subs ++ [{ entry := n, header := va, team := c.r.team, token := none }] })

/-- QSUB (R232): the header is read once and checked as ENQ checks it; one that is remote, or in the host window (R310), takes ACCESS. -/
def Ctx.qsubAct (sc : Scale) (disp : Int) (c : Ctx) : Act :=
  if !c.any then .ok c.s
  else
    match c.header sc disp with
    | .error e => c.lane e true 1
    | .ok e =>
      if e.x.home.away then .fault .access e.va none 1
      else
        c.reads (sectorsOf e.va 64) fun c f =>
          if badHeader (natOfBytes ((List.range 64).map fun i => f.get (e.va + i))) then .uniform .illegalOperand else c.subscribe e.va

/-- QSUB. -/
def execQsub (o : Ops) (sc : Scale) (disp : BitVec 13) (s : State) : Answered := issue (.qsub o sc disp) s (Ctx.qsubAct sc disp.toInt)

/-- QUNSUB (R232). -/
def execQunsub (o : Ops) (sc : Scale) (disp : BitVec 13) (s : State) : Answered :=
  issue (.qunsub o sc disp) s fun c =>
    if !c.any then .ok c.s
    else
      let va := c.onceVa sc disp.toInt
      .ok (c.s.modCore c.r.core fun k => { k with subs := k.subs.filter fun b => !(b.header == va && b.team == c.r.team) })

/-- A team has room for a draw (R232). -/
def Core.hasRoom (c : Core) (t : Team) : Bool := !t.stopping && c.roomForGroup t && !(c.held.any fun h => h.team == t.id)

/-- The step of a draw, of one team or of any. -/
def Req.draws (q : Req) (k : Nat) : Bool := q.core == k && q.kind == .hold && (match q.errand with | some (.draw _) => true | _ => false)

/-- The held classes of a core that could be placed now: word of the draw has come. -/
def State.heldReady (s : State) (k : Nat) : List HeldClass :=
  let c := s.core k
  c.held.filter fun h => (!s.reqs.any fun q => q.draws k && q.owner.team == h.team) &&
    (c.team? h.team).any fun t => !t.stopping && c.roomForGroup t

/-- The registers of a group of items: REC in v0 to v5 (R232). -/
def Group.withItems (g : Group) (items : List (List Word)) : Group :=
  let m := maskOf fun l => l < items.length
  (List.range 6).foldl (fun g i => g.setVec i m fun l => (items.getD l []).getD i 0) g

/-- A class becomes a group of its team; the core's generation advances before its first instruction (R77, R232). -/
def State.placeClass (s : State) (k : Nat) (h : HeldClass) : Option State :=
  match (s.core k).startGroup h.team h.entry (maskOf fun l => l < h.items.length) h.hi.toNat fun g => g.withItems h.items with
  | none => none
  | some (c, _) => some { s with cores := setKey s.cores k { c with gen := (c.gen + 1) % 256, l1 := if c.gen = 255 then [] else c.l1 } }

/-- Items sorted into classes by (ENTRY, HI), in the drawn order. -/
def classesOf (team : Nat) (items : List Nat) : List HeldClass :=
  let key := fun (x : Nat) => (bitsOf x 15 0, x.testBit 32)
  (items.map key).eraseDups.map fun k =>
    { team := team, entry := k.1, hi := k.2,
      items := (items.filter fun x => key x == k).map fun x => (List.range 6).map fun i => BitVec.ofNat 32 (x / 2 ^ (64 + 32 * i)) }

/-- A draw that fails at an item (R233): on a missing page it waits; else the subscription ends, with QUEUE_FAULT. -/
def State.drawFails (s : State) (k : Nat) (v : Vf) (b : Subscription) (kind : FaultKind) (va : Nat) : State :=
  if kind = .pageFault then
    let p := s.postPageFault v.cfg.id k va 0 (.draw k b.header b.team) { kind := kind, addr := va, lane := none, pc := 0, acc := 0 }
    p.1.modCore k fun c => { c with subs := updateIf (fun x => x.entry == b.entry) (fun x => { x with token := some p.2 }) c.subs }
  else
    let s := s.modCore k fun c => { c with subs := c.subs.filter fun x => x.entry != b.entry }
    s.post { code := 0x800A, vf := v.cfg.id, srck := 0, src := v.cfg.coreIndex k, item := b.entry, addr := va, code1 := kind.code,
             time := s.vfTime k v.cfg.id }

/-- What a draw finds at its header's home (R232): nothing where its team has no room, or the queue is illegal or empty; else the oldest
items are read, HEAD advances past them, and their classes are held for the team until word has reached its core. -/
def State.drawAt (s : State) (q : Req) (v : Vf) (b : Subscription) : State :=
  let k := q.core
  let a := homeAsker q v.cfg (.draw b.entry)
  let w := s.header q
  let n := min 32 (qhCount w)
  let vas := (List.range n).map fun i => itemVa w (qhHead w + i)
  let room := ((s.core k).team? b.team).any fun t => (s.core k).hasRoom t
  match s.badSector q with
  | some i => (s.loseHeader a q i).drawFails k v b .memoryError (q.va + 32 * i)
  | none =>
    if !room || badHeader w || n = 0 then s.endHold a q id
    else
      match s.reading a vas with
      | .wait => s
      | .sent s => s
      | .fail s _ kind va => (s.endHold a q id).drawFails k v b kind va
      | .got s f =>
        let items := vas.map fun va => natOfBytes ((List.range 32).map fun i => f.get (va + i))
        match (vas.zip items).find? fun p => badItem p.2 with
        | some p => (s.endHold a q id).drawFails k v b .illegalOperand p.1
        | none =>
          if !s.leasesOver q.home q.line then s
          else
            match s.holdLog a q with
            | some s => s
            | none =>
              ((s.setHeader q 160 ((qhHead w + n) % 2 ^ 32)).endHold a q id).modCore k fun c =>
                { c with held := c.held ++ classesOf b.team items }

/-- The tumbler may visit a subscription: its draw waits for nothing, and its team has room (R232). -/
def Core.visitable (c : Core) (b : Subscription) : Bool := b.token.isNone && (c.team? b.team).any c.hasRoom

/-- A visit of a subscription, the `i`-th: the request of a draw is sent to the header's home, once its address has been translated. -/
def State.visit (s : State) (k i : Nat) (v : Vf) (b : Subscription) (grid : Nat) : State :=
  let a := engineAsker k v.cfg grid { core := k, team := b.team, grp := 32, split := 0 } (.draw b.entry) 0
  let seen := (s.modCore k fun c => { c with subs := c.subs.drop (i + 1) ++ c.subs.take (i + 1) }).forget k (.draw b.entry)
  match s.askXlate a b.header .store with
  | .error (.walk pa) => (s.askPhys k v.cfg.id grid a.owner a.key [pa]).getD s
  | .error (.fault e) => seen.drawFails k v b e b.header
  | .ok x =>
    if x.home.away then seen.drawFails k v b .access b.header
    else
      let i := (seen.cacheCore k v.cfg.id [x]).takeId
      i.2.sendAll [a.req i.1 b.header x .hold s.time 3]

/-- TUMBLER_DRAW (R232, R259): the draw under way goes on at its header's home; where there is none, and nothing that comes first could
start, the next subscription in round robin that may be drawn is visited. -/
def State.tumble (s : State) (k : Nat) (err : Bool) : State :=
  let c := s.core k
  match s.reqs.find? fun q => q.draws k with
  | some q =>
    s.holdStep q.id err fun s q =>
      let its := (s.core k).subs.find? fun b => q.errand == some (.draw b.entry) && b.team == q.owner.team && b.header == q.va
      match its, s.vf? q.vf with
      | some b, some v => s.drawAt q v b
      | _, _ => s.endHold (homeAsker q default (q.errand.getD .outside)) q id
  | none =>
    if !c.contsReady.isEmpty || !c.joinsReady.isEmpty || !(s.heldReady k).isEmpty then s
    else
      let i := c.subs.findIdx c.visitable
      match c.subs[i]? with
      | none => s
      | some b =>
        match c.team? b.team with
        | none => s
        | some t =>
          match s.vf? t.vf with
          | none => s
          | some v => s.visit k i v b t.grid

def execTumblerDraw (core : Nat) (err : Bool) (s : State) : Answered := .next (s.tumble core err).bump

/-- HELD_CLASS_PLACE (R232, R259): the oldest held class of the core that fits. -/
def State.placeHeld (s : State) (k team : Nat) : State :=
  let c := s.core k
  if !c.contsReady.isEmpty || !c.joinsReady.isEmpty then s
  else
    match s.heldReady k with
    | [] => s
    | h :: _ =>
      if h.team ≠ team then s
      else
        match s.placeClass k h with
        | none => s
        | some t => t.modCore k fun c => { c with held := c.held.erase h }

def execHeldClassPlace (core team : Nat) (s : State) : Answered := .next (s.placeHeld core team).bump

/-! ## Local queues (R89, R234) -/

/-- The queue that a field names. -/
def Core.lq (c : Core) (n : Nat) : List Word := getKey [] c.lqs n

/-- A lane's place among the executing lanes. -/
def Ctx.place (c : Ctx) (l : Nat) : Nat := c.lanes.findIdx (· == l)

/-- The first m executing lanes. -/
def Ctx.firstLanes (c : Ctx) (m : Nat) : Mask := maskOf fun l => c.runs l && c.place l < m

/-- pB := 1 in the first m executing lanes, 0 in the others. -/
def Ctx.putDone (c : Ctx) (s : State) (nb : Bool) (m : Nat) : State :=
  if nb then s.modGroup c.r fun g => g.setPreg c.o.b.num c.x fun l => c.place l < m else s

/-- QPOP. -/
def Ctx.qpopAct (nb : Bool) (c : Ctx) : Act :=
  let n := c.o.a.num
  let q := (c.s.core c.r.core).lq n
  let k := c.lanes.length
  if !c.team.kernel.lq then .uniform .illegalOperand
  else if !c.any then .ok c.s
  else if !nb && q.length < k then c.parkInstr []
  else
    let m := min q.length k
    let s := c.s.modCore c.r.core fun x => { x with lqs := setKey x.lqs n (q.drop m) }
    let s := s.modGroup c.r fun g => g.setVec c.o.d.num (c.firstLanes m) fun l => q.getD (c.place l) 0
    .ok (c.putDone s nb m)

/-- QPUSH. -/
def Ctx.qpushAct (nb : Bool) (c : Ctx) : Act :=
  let n := c.o.d.num
  let q := (c.s.core c.r.core).lq n
  let k := c.lanes.length
  if !c.team.kernel.lq then .uniform .illegalOperand
  else if !c.any then .ok c.s
  else if !nb && q.length + k > 256 then c.parkInstr []
  else
    let m := min (256 - q.length) k
    let more := (c.lanes.take m).map (c.group.vlane c.o.a.num)
    let s := c.s.modCore c.r.core fun x => { x with lqs := setKey x.lqs n (q ++ more) }
    .ok (c.putDone s nb m)

/-- QPOP. -/
def execQpop (o : Ops) (nb : Bool) (s : State) : Answered := issue (.qpop o nb) s (Ctx.qpopAct nb)

/-- QPUSH. -/
def execQpush (o : Ops) (nb : Bool) (s : State) : Answered := issue (.qpush o nb) s (Ctx.qpushAct nb)

end Sys2Proof.Machine
end

