-- ==== Sys2Proof/Machine/Preempt.lean ====
section
/-!
DEFINITION. Pre-emption and resumption of teams (18 R291 to R293) and the quanta of shared cores (21 R312).
-/
namespace Sys2Proof.Machine

/-! ## Saving (R291, R292) -/

/-- Every split of a team stands at a run end or is parked (R217, R291), and no page fault waits to be posted. A split at its run end
whose fault waits, for the trap handler of another split or for a page (R284, R288), stands too. -/
def State.teamStands (s : State) (k : Nat) (t : Team) : Bool :=
  t.groups.all fun g => g.pageDue.isNone && g.splits.all fun p => s.standing { core := k, team := t.id, grp := g.grp, split := p.sid } p

/-- What a team does has come to rest (R291 steps 1 to 4): every split is between runs, results are written, binds and copies complete,
writes have returned; of a team that quiesces the copies that faulted have gone too (R295, R313). -/
def State.atRest (s : State) (k : Nat) (t : Team) : Bool :=
  let c := s.core k
  s.teamStands k t &&
    !(c.outs.any fun o => o.owner.team == t.id) && t.binds.all (fun b => b.state != .binding) &&
    !((c.copyQ ++ c.copyRun ++ if t.quiescing then c.copyFault else []).any fun q => q.team == t.id) && !(c.sops.any fun o => o.owner.team == t.id) &&
    !(s.reqs.any fun q => q.owner.team == t.id && q.kind.writes)

/-- A split in the frame: a parked instruction issues again from its checks (R217), the ticks of its wait on a latch kept (R66, R293); a
barrier, a fence or a merge goes on. -/
def Split.saved (p : Split) : Split :=
  { p with
    run := [], poison := [], readyTicks := 0, promoted := false
    park := match p.park with
      | .instr .. | .asks .. | .release .. | .enq .. | .interlock _ | .acquire _ | .fill _ | .none => .none
      | x => x }

/-- A group in the frame: base registers keep their virtual base alone (R74). -/
def Group.saved (g : Group) : Group :=
  { g with splits := g.splits.map Split.saved, usync := [], b := g.b.map fun p => (p.1, { p.2 with page := none, limit := 0 }) }

/-- A running join in the frame: as JCANCEL leaves it, to go on from its cursor (R130). The descriptors it captured at issue go with it
(DEDUCED, log entry 68: R115 captures them at the JOIN, and the frame's list of R292 does not name them). -/
def Join.saved (j : Join) : Join :=
  if j.state = .running then
    if j.stop.isSome then { j with token := none, waitFor := [] }
    else
      { j with token := none, waitFor := [], pending := [], finished := false, row := j.lastRow, sect := j.lastSeg, posA := j.lastA,
               posB := j.lastB }
  else j

/-- What a core holds of a team, as the frame keeps it. -/
def Core.frame (c : Core) (t : Team) (now : Nat) : SavedTeam :=
  { team := { t with groups := t.groups.map Group.saved, stopping := false, quiescing := false }
    order := c.parts.flatMap fun p => (p.2.order.filter fun o => o.1 == t.id).map fun o => (o.2.1, o.2.2)
    joins := (c.joinsOf t.id).map fun p => (p.1, p.2.saved)
    copies := (c.copyFault.filter fun q => q.team == t.id).map fun q => { q with token := none }
    subs := (c.subs.filter fun b => b.team == t.id).map (·.header)
    held := c.held.filter fun h => h.team == t.id
    lqs := if c.lqTeam = some t.id then some c.lqs else none
    time := now }

/-- A page fault of the team's engines: its requester is in the frame and asks again when it resumes. -/
def FaultWait.isEngineOf (w : FaultWait) (k : Nat) (t : Team) (x : SavedTeam) : Bool :=
  match w.who with
  | .group .. => false
  | .copy c id => c == k && x.copies.any fun q => q.id == id
  | .join c h => c == k && x.joins.any fun p => p.1 == h
  | .draw _ _ u => u == t.id

/-- A page fault of a group of the team whose answer has come while no context was free (R289). -/
def FaultWait.answeredFor (w : FaultWait) (team : Nat) : Bool :=
  match w.who with
  | .group _ t _ _ => t == team && w.answer.isSome
  | _ => false

/-- A group of the frame with such an answer: it waits no longer, and takes the fault of a FAIL at its resume (R294). -/
def Group.answered (g : Group) (w : FaultWait) : Group :=
  match w.who, w.answer with
  | .group _ _ grp n, some retry => if grp = g.grp then { g with pageWait := none, pending := if retry then g.pending else some (n, w.fault) } else g
  | _, _ => g

/-- The frame of one team written, its resources freed. -/
def State.saveTeam (s : State) (p : Nat × Team) : State :=
  let ws := ((s.vf? p.2.vf).map (·.waits)).getD []
  let mine := ws.filter fun w => w.answeredFor p.2.id
  let t := { p.2 with groups := p.2.groups.map fun g => mine.foldl Group.answered g }
  let x := (s.core p.1).frame t s.time
  let s := s.modCore p.1 fun c => { c.dropTeam p.2 with copyFault := (c.dropTeam p.2).copyFault.filter fun q => q.team != p.2.id }
  s.modVf p.2.vf fun v =>
    { v with saved := v.saved ++ [x], waits := v.waits.filter fun w => !w.isEngineOf p.1 p.2 x && !w.answeredFor p.2.id }

/-- Every team of a cluster is asked to stop. -/
def State.stopTeams (s : State) (l : List (Nat × Team)) : State :=
  l.foldl (fun s p => s.modTeam p.1 p.2.id fun t => { t with stopping := true }) s

/-- PREEMPT_TEAM (R291): a team stops with its whole cluster, and once all are at rest they are saved. -/
def State.preempt (s : State) (team : Nat) : State :=
  match s.residents.find? fun p => p.2.id == team with
  | none => s
  | some p =>
    let l := s.cluster p.2.grid p.2.clu
    if l.any fun q => !q.2.stopping then s.stopTeams l
    else if l.all fun q => s.atRest q.1 q.2 then l.foldl State.saveTeam s
    else s

def execPreemptTeam (team : Nat) (s : State) : Answered := .next (s.preempt team).bump

/-! ## Resuming (R293) -/

/-- A group back on a core, with the ages its splits had; one that waits for a page holds no context, and keeps them (R251, R293). -/
def Core.resumeGroup (c : Core) (t : Team) (order : List (Nat × Nat)) (g : Group) : Option Core :=
  let put := fun (part : Nat) => c.modTeam t.id fun t => { t with groups := t.groups ++ [{ g with part := part }] }
  if g.pageWait.isSome then some (put 0)
  else
    (c.choosePart t.kernel.vregs).map fun part =>
      let sids := (order.filter fun o => o.1 == g.grp).map (·.2)
      (put part).enterSplits t.id g.grp part (if sids.isEmpty then g.ages else sids)

def Core.resumeGroups (c : Core) (t : Team) (order : List (Nat × Nat)) : List Group → Option Core
  | [] => some c
  | g :: r => (c.resumeGroup t order g).bind fun c => Core.resumeGroups c t order r

/-- Times that a stall limit counts from, moved by the ticks the team was away: resident ticks alone count (R66, R293). -/
def Team.shift (t : Team) (d : Nat) : Team :=
  { t with
    latches := t.latches.map fun l => { l with since := l.since + d, cont := l.cont.map fun k => { k with at_ := k.at_ + d } }
    groups := t.groups.map fun g => { g with splits := g.splits.map fun p => { p with since := p.since.map (· + d), parkedAt := p.parkedAt + d } } }

/-- The subscriptions of a resumed team in free entries. -/
def Core.subscribe (c : Core) (team : Nat) (headers : List Nat) : Core :=
  let free := (List.range 8).filter fun n => !(c.subs.any fun b => b.entry == n)
  { c with subs := c.subs ++ (free.zip headers).map fun p => { entry := p.1, header := p.2, team := team, token := none } }

/-- A saved team placed on a core with its joins, copies, subscriptions, classes and queues; nothing where anything is missing (R227,
R247, R293). It comes back in a later tick than it left, so that device time never falls for it, whatever the offsets of the dies
(R16). -/
def State.resumeTeam (s : State) (k : Nat) (v : Vf) (x : SavedTeam) : Option State :=
  let c := s.core k
  let t := x.team.shift (s.time - x.time)
  let t := { t with kernel := t.kernel.on (v.objects.find? fun o => o.id == t.kernel.obj) k }
  if s.time ≤ x.time || !s.accepts k v || !s.holds k t.kernel || x.joins.any (fun p => (c.join? p.1).isSome) || c.subs.length + x.subs.length > 8 ||
      c.copyQ.length + c.copyRun.length + x.copies.length > 64 || (t.kernel.cw * t.kernel.ch > 1 && !c.teams.isEmpty) then none
  else
    ((c.addTeam { t with groups := [] }).resumeGroups t x.order t.groups).map fun c =>
      let c := c.subscribe t.id x.subs
      let c : Core := { c with
        joins := x.joins.foldl (fun l p => setKey l p.1 (some p.2)) c.joins
        copyQ := c.copyQ ++ x.copies
        held := c.held ++ x.held
        lqs := x.lqs.getD c.lqs }
      let s : State := { s with cores := setKey s.cores k c }
      let s := if v.cfg.shared && (s.served k).isNone then { s with quanta := s.quanta ++ [(k, v.cfg.id, v.cfg.quantum)] } else s
      s.modVf v.cfg.id fun v => { v with saved := v.saved.filter fun y => y.team.id != t.id }

def State.resumeAll (s : State) (v : Vf) : List (Nat × SavedTeam) → Option State
  | [] => some s
  | (k, x) :: r => (s.resumeTeam k v x).bind fun s => State.resumeAll s v r

/-- The end of a copy in scratchpad follows its team. -/
def CopyEnd.moved (s : State) : CopyEnd → CopyEnd
  | .pad k t off => .pad (((s.residents.find? fun p => p.2.id == t).map (·.1)).getD k) t off
  | e => e

/-- Copies queued on a core, their ends where the teams are now. -/
def State.moveCopies (s : State) : State :=
  { s with cores := s.cores.map fun (p : Nat × Core) =>
      (p.1, { p.2 with copyQ := p.2.copyQ.map fun q => { q with dst := q.dst.moved s, src := q.src.moved s } }) }

/-- The saved teams of a cluster, by rank. -/
def Vf.savedCluster (v : Vf) (grid clu : Nat) : List SavedTeam :=
  (List.range 12).flatMap fun r => v.saved.filter fun x => x.team.grid == grid && x.team.clu == clu && x.team.rank == r

/-- TEAM_RESUME (R293): a team comes back with its whole cluster, on the first footprint of its shape that takes it. -/
def State.resume (s : State) (team : Nat) : State :=
  match s.vfs.find? fun v => v.saved.any fun x => x.team.id == team with
  | none => s
  | some v =>
    match v.saved.find? fun x => x.team.id == team with
    | none => s
    | some x =>
      if v.stopped || v.leaving then s
      else
        let l := v.savedCluster x.team.grid x.team.clu
        let place := fun (ks : List Nat) => s.resumeAll v (l.map fun y => (ks.getD y.team.rank 0, y))
        match (footprints x.team.kernel.cw x.team.kernel.ch).findSome? place with
        | some t => t.moveCopies
        | none => s

def execTeamResume (team : Nat) (s : State) : Answered := .next (s.resume team).bump

/-! ## Quanta (R312) -/

/-- A virtual function has work for a core. -/
def State.hasWork (s : State) (k : Nat) (v : Vf) : Bool :=
  v.cfg.cores.contains k && !v.stopped && !v.leaving &&
    (!v.saved.isEmpty || (s.core k).teams.any (fun t => t.vf == v.cfg.id) || s.grids.any fun g => g.vf == v.cfg.id && g.placed < g.count)

/-- The next virtual function in round robin, by number, that shares a core and has work for it, after the one it serves. -/
def State.nextServed (s : State) (k cur : Nat) : Option Vf :=
  let l := s.vfs.filter fun v => v.cfg.shared && s.hasWork k v && v.cfg.id != cur
  let first := fun (l : List Vf) => l.foldl (fun (b : Option Vf) v =>
    match b with
    | none => some v
    | some x => if v.cfg.id < x.cfg.id then some v else some x) none
  (first (l.filter fun v => v.cfg.id > cur)).orElse fun _ => first l

/-- The ticks that a virtual function gets on a core when its turn comes: what was left when it was stopped to migrate, else its
quantum. -/
def State.share (s : State) (k : Nat) (v : Vf) : Nat := ((s.quanta.find? fun q => q.1 == k && q.2.1 == v.cfg.id).map (·.2.2)).getD v.cfg.quantum

/-- QUANTUM_END (R312): when the quantum of a shared core has run out, or what it serves has nothing left there, the next is served, and
every team of the outgoing one is pre-empted. A function that is stopped to migrate passes its turn, and keeps what is left of its
quantum, for migration does not restart it. -/
def execQuantumEnd (core : Nat) (s : State) : Answered :=
  match s.quanta.find? fun q => q.1 == core with
  | none => .next s.bump
  | some (_, vf, left) =>
    let migrates := (s.vf? vf).any (·.leaving)
    let idle := !((s.vf? vf).any fun v => s.hasWork core v)
    if left > 0 && !idle then .next s.bump
    else
      let others := fun (id : Nat) => s.quanta.filter fun (q : Nat × Nat × Nat) => q.1 != core || (q.2.1 != vf && q.2.1 != id)
      match s.nextServed core vf with
      | none =>
        if idle then .next (if migrates then s else { s with quanta := others vf }).bump
        else .next { s with quanta := others vf ++ ((s.vf? vf).map fun (y : Vf) => (core, vf, y.cfg.quantum)).toList }.bump
      | some v =>
        let rest := if migrates && left > 0 then [(core, vf, left)] else []
        .next ({ s with quanta := (core, v.cfg.id, s.share core v) :: others v.cfg.id ++ rest }.stopTeams
          (s.residents.filter fun p => p.2.vf == vf)).bump

end Sys2Proof.Machine
end

