-- ==== Sys2Proof/Machine/Resolve.lean ====
section
/-!
DEFINITION. What the host and the hypervisor do to memory and faults: resolving page faults (18 R288 to R290), room in the fault and dirty
log rings (R290, 05 R73), invalidates (R72), and requests from outside the package (21 R310, R315).
-/
namespace Sys2Proof.Machine

/-! ## Resolving page faults (R289) -/

/-- A wait of a token, posted to the host and not answered yet. -/
def Vf.waitOf (v : Vf) (token : Nat) : Option FaultWait := v.waits.find? fun w => w.token == token && w.posted && w.answer.isNone

def State.dropWait (s : State) (vf token : Nat) : State :=
  s.modVf vf fun v => { v with waits := v.waits.filter fun w => w.token != token }

/-- A group that waited for a page back on its core (R248, R289): its splits are the youngest, in the order of their ages. None where
no context is free. -/
def State.restoreGroup (s : State) (k : Nat) (t : Team) (g : Group) : Option State :=
  let c := s.core k
  (c.choosePart t.kernel.vregs).map fun part =>
    let c := c.modTeam t.id fun t => t.modGroup g.grp fun g => { g with pageWait := none, ages := [], part := part }
    { s with cores := setKey s.cores k (c.enterSplits t.id g.grp part (g.ages.filter fun n => (g.split? n).isSome)) }

/-- An answer that finds no free context is kept until there is one (R289). -/
def State.keepFaultAnswer (s : State) (vf token : Nat) (retry : Bool) : State :=
  s.modVf vf fun v => { v with waits := updateIf (fun w => w.token == token) (fun w => { w with answer := some retry }) v.waits }

/-- A group of a saved team (R294). -/
def State.modSaved (s : State) (vf team grp : Nat) (f : Group → Group) : State :=
  s.modVf vf fun v => { v with saved := updateIf (fun x => x.team.id == team) (fun x => { x with team := x.team.modGroup grp f }) v.saved }

/-- The answer for a group: `fault` is what it takes on FAIL. -/
def State.resolveGroup (s : State) (vf token team grp split : Nat) (fault : Option FaultRec) : State :=
  match s.residents.find? fun p => p.2.id == team with
  | some p =>
    match p.2.group? grp with
    | none => s.dropWait vf token
    | some g =>
      if g.pageWait ≠ some token then s.dropWait vf token
      else
        match s.restoreGroup p.1 p.2 g with
        | none => s.keepFaultAnswer vf token fault.isNone
        | some s =>
          let r : SplitRef := { core := p.1, team := team, grp := grp, split := split }
          let s := s.dropWait vf token
          match fault with
          | some f => (if (s.split? r).isSome then s.enterFault r f else s).settleGroup r
          | none => s.settleGroup r
  | none =>
    (s.dropWait vf token).modSaved vf team grp fun g =>
      { g with pageWait := none, pending := (fault.map fun f => (split, f)).orElse fun _ => g.pending }

/-- RETRY: the requester issues again. -/
def State.retry (s : State) (vf : Nat) (w : FaultWait) : State :=
  match w.who with
  | .group _ team grp split => s.resolveGroup vf w.token team grp split none
  | .copy k id =>
    (s.dropWait vf w.token).modCore k fun c => { c with copyFault := updateIf (fun q => q.id == id) (fun q => { q with token := none }) c.copyFault }
  | .join k h =>
    let s := s.dropWait vf w.token
    match (s.core k).join? h with
    | some j => if j.token = some w.token then s.setJoin k h (some { j with token := none }) else s
    | none => s
  | .draw k header team =>
    (s.dropWait vf w.token).modCore k fun c =>
      { c with subs := updateIf (fun b => b.header == header && b.team == team) (fun b => { b with token := none }) c.subs }

/-- FAIL: a split takes PAGE_FAULT, a copy ends as for ACCESS, a join stops with reason 4, a subscription ends (R233). -/
def State.fail (s : State) (vf : Nat) (w : FaultWait) : State :=
  match w.who with
  | .group _ team grp split => s.resolveGroup vf w.token team grp split (some w.fault)
  | .copy k id =>
    let s := s.dropWait vf w.token
    match (s.core k).copyFault.find? fun q => q.id == id with
    | some q => s.copyEnds k q .access w.va
    | none => s
  | .join k h =>
    let s := s.dropWait vf w.token
    match (s.core k).join? h with
    | some j =>
      if j.token ≠ some w.token then s
      else if j.stop.isSome then s.joinStopped k h j 4 w.va
      else s.stopJoin k h { j with failVa := w.va } 4 (j.cursorWord 4 j.failAt.1 j.row j.sect j.failAt.2.1 j.failAt.2.2 j.lastc)
    | none => s
  | .draw k header team =>
    let s := s.dropWait vf w.token
    match (s.core k).subs.find? fun b => b.header == header && b.team == team, s.vf? vf with
    | some b, some v =>
      let s := s.modCore k fun c => { c with subs := c.subs.filter fun x => x.entry != b.entry }
      s.post { code := 0x800A, vf := vf, srck := 0, src := v.cfg.coreIndex k, item := b.entry, addr := w.va,
               code1 := FaultKind.pageFault.code, time := s.vfTime k vf }
    | _, _ => s

/-- A resolve command with its status record (R309); a token that is not waiting does nothing. -/
def State.resolve (s : State) (vf token : Nat) (f : State → FaultWait → State) : State :=
  match s.vf? vf with
  | none => s.status "RESOLVE" vf "REFUSED" token
  | some v =>
    let s := s.status "RESOLVE" vf "OK" token
    match v.waitOf token with
    | none => s
    | some w => f s w

/-- Groups whose answer has come and that a free context can take now, the oldest answer first (R289). -/
def State.restoreAnswered (s : State) : State :=
  s.vfs.foldl (fun s v => v.waits.foldl (fun s w =>
    match w.answer with
    | some true => s.retry v.cfg.id w
    | some false => s.fail v.cfg.id w
    | none => s) s) s

/-- RESOLVE_RETRY (R289). -/
def execResolveRetry (vf token : Nat) (s : State) : Answered := .next (s.resolve vf token fun s w => s.retry vf w).bump

/-- RESOLVE_FAIL (R289). -/
def execResolveFail (vf token : Nat) (s : State) : Answered := .next (s.resolve vf token fun s w => s.fail vf w).bump

/-! ## Rings with room (R290, R73) -/

/-- What the host writes of a control block (R4, R73, R287): the read-write fields, which read back what was written, and 1 to OVF, which
clears it. PROD, DROPPED and, of a command ring, CONS are the device's: a write of them is ignored. -/
def Ring.written (r : Ring) (commands : Bool) : RingWrite → Ring
  | .base v => { r with base := v % 2 ^ 64 }
  | .logn v => { r with logn := v % 32 }
  | .cons v => if commands then r else { r with cons := v % 2 ^ 64 }
  | .prod v => if commands then { r with prod := v % 2 ^ 64 } else r
  | .clearOvf => { r with ovf := false }

/-- What bytes that the host writes over a control block, at offsets in it, make of the ring, each field by its own access (R4). -/
def Ring.overlaid (r : Ring) (commands : Bool) (bytes : List (Nat × Byte)) : Ring :=
  let n := natOfBytes (bytes.foldl (fun d p => d.set p.1 p.2) (bytesOfNat 32 r.word))
  let r := ((r.written commands (.base (bitsOf n 63 0))).written commands (.logn (bitsOf n 68 64))).written commands (.cons (bitsOf n 255 192))
  let r := r.written commands (.prod (bitsOf n 191 128))
  if bytes.any fun p => p.1 == 8 && p.2.getLsbD 5 then r.written commands .clearOvf else r

/-- The ring takes no record: a fault ring that is disabled counts as full (R288). -/
def Ring.stuck (r : Ring) : RingName → Bool
  | .faults _ => r.full || !r.enabled
  | _ => r.full

/-- The oldest held fault posted, while the ring has room. -/
def State.postHeld : Nat → State → Nat → State
  | 0, s, _ => s
  | n + 1, s, vf =>
    match s.vf? vf with
    | none => s
    | some v =>
      if !v.faults.enabled || v.faults.full then s
      else
        match v.waits.find? fun w => !w.posted with
        | none => s
        | some w =>
          let s := (s.writeFault v w).modVf vf fun v =>
            { v with waits := updateIf (fun x => x.token == w.token) (fun x => { x with posted := true }) v.waits }
          State.postHeld n s vf

/-- A control block as the host has written it: a ring with room is no longer told full, and a fault ring takes the faults that were held
(R290). -/
def State.ringWritten (s : State) (n : RingName) (r : Ring) : State :=
  let s := s.setRing n { r with told := r.told && r.stuck n }
  match n with
  | .faults vf => State.postHeld (((s.vf? vf).map fun v => v.waits.length).getD 0) s vf
  | _ => s

/-- One field of a control block written by the host. -/
def State.writeRing (s : State) (n : RingName) (w : RingWrite) : State :=
  match s.ring? n with
  | none => s
  | some r => s.ringWritten n (r.written (ringOfCommands n) w)

/-- Every ring of the part. -/
def State.ringNames (s : State) : List RingName :=
  [.pfEvents, .pfCommands] ++ s.vfs.flatMap fun v => [.events v.cfg.id, .faults v.cfg.id, .dirty v.cfg.id, .commands v.cfg.id]

/-- The bytes written at host addresses that lie in a ring's control block, by their offsets in it. -/
def blockBytes (n : RingName) (block : Nat) (bytes : List (Nat × Byte)) : List (Nat × Byte) :=
  (List.range 32).filterMap fun i =>
    (bytes.find? fun p => p.1 == hostAddress (ringFunction n) (block + i) % 2 ^ 40).map fun p => (i, p.2)

/-- Bytes that the host writes in its memory; where they fall on a control block they are a write of its fields (R4, R73). -/
def State.hostWrites (s : State) (bytes : List (Nat × Byte)) : State :=
  s.ringNames.foldl (fun s n =>
    match s.ring? n with
    | none => s
    | some r =>
      let own := blockBytes n r.block bytes
      if r.block = 0 || own.isEmpty then s else s.ringWritten n (r.overlaid (ringOfCommands n) own))
    { s with host := s.host.writeAll bytes }

/-- FAULT_RING_ROOM (R290). -/
def execFaultRingRoom (vf cons : Nat) (s : State) : Answered := .next (s.writeRing (.faults vf) (.cons cons)).bump

/-- DIRTY_RING_ROOM (R73): writes that wait find the room themselves. -/
def execDirtyRingRoom (vf cons : Nat) (s : State) : Answered := .next (s.writeRing (.dirty vf) (.cons cons)).bump

/-- A line of the fabric grant table taken out (R315). -/
def State.revoke (s : State) (dev vf : Nat) : State := { s with grants := s.grants.filter fun g => !(g.dev == dev && g.vf == vf) }

/-- What the host, its firmware and the hypervisor do of their own accord (log entries 69, 79). The part has 32 ports (R315). -/
def State.hostStep (s : State) : HostStep → State
  | .memory a b => s.hostWrites (((List.range b.length).zip b).map fun p => ((a + p.1) % 2 ^ 40, p.2))
  | .grant dev vf own => { s.revoke dev vf with grants := (s.revoke dev vf).grants ++ [{ dev := dev, vf := vf, own := own }] }
  | .revoke dev vf => s.revoke dev vf
  | .route dev port =>
    { s with routes := s.routes.filter (fun x => x.1 != dev) ++ (match port with | some p => if p < 32 then [(dev, p)] else [] | none => []) }
  | .firmware good => { s with firmwareOk := good }
  | .ring n w => s.writeRing n w
  | .place n a =>
    match s.ring? n with
    | some r => s.setRing n { r with block := a % 2 ^ 64 }
    | none => s

/-! ## Invalidates (R72) -/

/-- A page of a virtual function lies in a range, in part or whole. -/
def touches (lo hi va size : Nat) : Bool := va < hi && lo < va + size

/-- Translations dropped from a list. -/
def dropXlates (l : List TlbEntry) (vf lo hi : Nat) : List TlbEntry := l.filter fun e => !(e.vf == vf && touches lo hi e.va e.page.size)

/-- A base register without its translation: each access goes through its own (R74). -/
def BaseReg.drop (b : BaseReg) (lo hi : Nat) : BaseReg :=
  match b.page with
  | some p => if touches lo hi (b.vbase.toNat / p.size * p.size) p.size then { b with page := none, limit := 0 } else b
  | none => b

/-- The registers a parked instruction has read keep their base; the translation goes. -/
def Split.dropBase (lo hi : Nat) (p : Split) : Split :=
  let snap := fun (a : Snap) => { a with b := a.b.map fun x => (x.1, x.2.drop lo hi) }
  { p with
    park := match p.park with
      | .instr i a => .instr i (snap a)
      | .asks i a => .asks i (snap a)
      | .release i a => .release i (snap a)
      | .enq i a f => .enq i (snap a) f
      | x => x }

def Group.dropBase (lo hi : Nat) (g : Group) : Group :=
  { g with b := g.b.map fun x => (x.1, x.2.drop lo hi), splits := g.splits.map (Split.dropBase lo hi) }

/-- INVALIDATE (R72): every translation of the range goes, and what walks under way have read; the command waits for the accesses that used one. -/
def execInvalidate (vf lo hi : Nat) (s : State) : Answered :=
  let used := fun (q : Req) => q.vf == vf && touches lo hi q.page q.size
  let ids := (s.reqs.filter fun q => used q && !q.done).map (·.id) ++ (s.msgs.filter fun m => m.vf == vf && touches lo hi m.va 1).map (·.id) ++
    s.cores.flatMap fun c => c.2.outs.flatMap fun o => match o.finish with | .stores _ qs => (qs.filter used).map (·.id) | _ => []
  let i := s.takeId
  .next ({ i.2 with
    cores := i.2.cores.map fun (p : Nat × Core) =>
      (p.1, { p.2 with
        tlb := dropXlates p.2.tlb vf lo hi
        fetches := p.2.fetches.map Fetch.dropWalks
        teams := updateIf (fun t => t.vf == vf) (fun t => { t with groups := t.groups.map (Group.dropBase lo hi) }) p.2.teams })
    slices := i.2.slices.map fun (p : Nat × Slice) => (p.1, { p.2 with tlb := dropXlates p.2.tlb vf lo hi })
    invals := i.2.invals ++ [{ id := i.1, vf := vf, ids := ids }] } : State).bump

/-- An access of a name has not completed at its home. -/
def State.accessOpen (s : State) (n : Nat) : Bool :=
  s.reqs.any (fun q => q.id == n && !q.done) || s.msgs.any (fun m => m.id == n) || s.cores.any fun c => c.2.outs.any fun o => o.finish.ids.contains n

/-- INVALIDATE_COMPLETE (R72): once every access that used a dropped translation has completed at its home. -/
def execInvalidateComplete (id : Nat) (s : State) : Answered :=
  match s.invals.find? fun x => x.id == id with
  | none => .next s.bump
  | some x =>
    if x.ids.any s.accessOpen then .next s.bump
    else .next (({ s with invals := s.invals.filter fun y => y.id != id } : State).status "INVALIDATE" x.vf "OK" id).bump

/-! ## Requests from outside (R310, R315) -/

/-- What a request needs of the page. -/
def remoteNeed : RemoteOp → Need
  | .read => .load
  | _ => .store

/-- It stays within its sector; an ENQ names a header, aligned to 64 bytes. -/
def remoteFits (va : Nat) : RemoteOp → Bool
  | .read | .enq _ => true
  | .write b l => b.all (fun p => p.1 < 32) && l.all fun p => p.1 < 32
  | .atomic _ ty _ _ => va % 32 + atomBytes ty ≤ 32

/-- What the home makes of it; offsets are within the sector. -/
def remoteKind (off : Nat) : RemoteOp → ReqKind
  | .read => .strongRead
  | .write b l => .write b l
  | .atomic op ty c e => .atomic [{ lane := 0, off := off, op := op, ty := ty, c := c, e := e }]
  | .enq _ => .hold

/-- The request as it joins the others (R32): an ENQ brings its items with it. -/
def outsideReq (id vf : Nat) (x : Xlated) (va : Nat) (op : RemoteOp) (now : Nat) : Req :=
  let owner : SplitRef := { core := outsideCore, team := id, grp := 0, split := 0 }
  { id := id, batch := id, core := outsideCore, vf := vf, grid := 2 ^ 64, owner := owner, home := x.home, sector := x.pa / 32, page := x.va,
    size := x.page.size, hv := x.page.hv, pinned := x.page.home == 1, va := va, lane := none, pc := 0, kind := remoteKind (va % 32) op,
    errand := some (match op with | .enq _ => .push owner | _ => .outside), strong := false, hint := 0, out := none, arrived := none,
    done := false, data := (match op with | .enq items => items.flatMap fun i => (i ++ List.replicate 32 0).take 32 | _ => []), olds := [],
    time := 0, expiry := none, noInstall := true, repl := false, failed := none, hop := now, trip := 0 }

/-- Who asks for the walk of a request from outside, and sets DIRTY for it. -/
def outsideOwner : SplitRef := { core := outsideCore, team := 0, grp := 0, split := 0 }

/-- A request takes its place in the order of its line at its home, and is executed as far as it can be (R32); where its page needs an
entry of the dirty log, it comes again once that is written (R73). -/
def State.outside (s : State) (v : Option Vf) (x : Xlated) (va : Nat) (op : RemoteOp) : State :=
  let vf := (v.map (·.cfg.id)).getD 512
  match (if remoteNeed op = .store then s.logWrite outsideCore vf (2 ^ 64) outsideOwner .outside [x] else .ready) with
  | .wait s _ => s
  | .full s _ => s.logFull vf 1 (match x.home with | .slice n | .direct n => n | _ => 0) (s.homeTime x.home)
  | .ready =>
    let i := (s.forget outsideCore .outside).takeId
    State.serve { i.2 with reqs := i.2.reqs ++ [outsideReq i.1 vf x va op s.time] } i.1

/-- REMOTE_REQUEST (R310, R315): of another package, where the grant table maps its (device, virtual function) to one of this package's
that has remote addresses (R240); of the host, to a LOCAL address. While the walk of its address reads the tables it comes again (R69). Every
other request is answered with ACCESS, and has no effect; so is one that crosses a sector. -/
def execRemoteRequest (dev vf : Nat) (host : Bool) (va : Nat) (op : RemoteOp) (s : State) : Answered :=
  let va := match op with | .enq _ => va / 64 * 64 | _ => va
  if !remoteFits va op then .next s.bump
  else if host then
    match targetOf va, op with
    | _, .enq _ => .next s.bump
    | .dram, _ =>
      let p : PageInfo := { pa := va / 65536 * 65536, size := 65536, rd := true, wr := true, ex := false, hv := false, dle := false,
                            home := 0, tgt := 0, entry := 0 }
      .next (s.outside none { va := va, pa := va, page := p, home := .slice (homeSlice va) } va op).bump
    | _, _ => .next s.bump
  else
    match s.grants.find? fun g => g.dev == dev && g.vf == vf with
    | none => .next s.bump
    | some g =>
      match s.vf? g.own with
      | none => .next s.bump
      | some v =>
        if !v.cfg.features.getLsbD 3 then .next s.bump
        else
          match s.translate [] ((s.core outsideCore).answers .outside) v.cfg va (remoteNeed op) with
          | .error (.walk pa) => .next ((s.askPhys outsideCore v.cfg.id (2 ^ 64) outsideOwner .outside [pa]).getD s).bump
          | .error (.fault _) => .next (s.forget outsideCore .outside).bump
          | .ok x =>
            match x.home with
            | .remote _ => .next (s.forget outsideCore .outside).bump
            | _ => .next (s.outside (some v) x va op).bump

end Sys2Proof.Machine
end

