-- ==== Sys2Proof/Machine/Frames.lean ====
section
/-!
DEFINITION. The bytes of a context frame (18 R292), which the host reads through the command processor. The table gives the sections, their
order, sizes and contents; where a field stands within its section it tells for some alone. The others stand in the order in which the table
names them, in the widths given here (DESIGN CHOICE, log entry 70). A byte past the fields of an entry has no value.
-/
namespace Sys2Proof.Machine

/-! ## Fields -/

/-- A section: its size, and its bytes from the start as far as fields reach; an inner none where no field stands. -/
structure FrameSection where
  size : Nat
  byte : Nat → Option Byte

/-- Fields one after another: numbers with their widths in bytes. -/
def packed (l : List (Nat × Nat)) : List Byte := l.flatMap fun p => bytesOfNat p.1 p.2

/-- A section of bytes that are all fields. -/
def FrameSection.of (size : Nat) (b : List Byte) : FrameSection := { size := size, byte := fun i => b[i]? }

/-- A section of entries of `n` bytes each, the bytes of an entry as far as its fields reach. -/
def FrameSection.table (size n : Nat) (entry : Nat → List Byte) : FrameSection := { size := size, byte := fun i => (entry (i / n))[i % n]? }

/-! ## The sections of a team -/

/-- Header: kernel address, linear index, %clu, %tm, launch groups, vector registers, scratchpad bytes, latches, cams, the HALTED flag, and a
pending-fault flag for each %grp. -/
def Team.header (t : Team) : List Byte :=
  let flags := (t.groups.filter fun g => g.pending.isSome).foldl (fun n g => n + 2 ^ g.grp) 0
  packed [(8, t.kernel.text), (4, t.lin), (4, t.clu), (4, t.rank), (4, t.kernel.groups), (4, t.kernel.vregs), (4, t.kernel.scratch),
          (4, t.kernel.latches), (4, t.kernel.cams), (4, t.halted.toNat), (4, flags)]

/-- A barrier: count, target, phase (R199). -/
def Barrier.bytes (b : Barrier) : List Byte := packed [(2, b.count), (4, b.target), (2, b.phase)]

/-- A binding table entry: the word of R102, with RES clear, and the FAILED reason. -/
def Binding.bytes (b : Binding) : List Byte := packed [(4, b.info false), (1, b.reason)]

/-- A latch: its record (R59), the continuation target, the largest completion time. -/
def Latch.bytes (l : Latch) : List Byte := packed [(16, l.record), (4, (l.cont.map (·.target)).getD 0), (8, l.largest)]

/-- A join handle: number, state, cursor, cursor address (R130). -/
def Join.bytes (p : Nat × Join) : List Byte :=
  let state := match p.2.state with | .running => 1 | .done => 2 | .stopped => 3
  packed [(1, p.1), (1, state), (32, p.2.stop.elim p.2.cancelWord (·.2)), (8, p.2.cursor)]

/-- Keyway: the 16 stream slots, then the handles in entries of 64 bytes. -/
def SavedTeam.keyway (x : SavedTeam) : FrameSection :=
  { size := 1024
    byte := fun i =>
      if i < 512 then some (BitVec.ofNat 8 (x.team.streams.getD (i / 32) 0 / 256 ^ (i % 32)))
      else (x.joins[(i - 512) / 64]?).bind fun p => (Join.bytes p)[i % 64]? }

/-- The virtual address or scratchpad offset of an end of a copy. -/
def CopyEnd.place : CopyEnd → Nat
  | .global va => va
  | .pad _ _ off => off

/-- A request of the copy fault buffer: its descriptor record, coordinates, both ends, the bytes still to count, its latch and its kind. -/
def CopyReq.bytes (q : CopyReq) : List Byte :=
  let kind := match q.kind with | .cpy => 0 | .cpyw => 1 | .cpyb ds ss => 2 + 4 * ds.toNat + 8 * ss.toNat
  match q.kind with
  | .cpyb .. => packed [(8, q.dst.place), (8, q.src.place), (4, q.len), (40, 0), (2, q.latch), (1, kind), (1, q.hint)]
  | .cpy | .cpyw =>
    let pad := match q.dst, q.src with | .pad _ _ o, _ => o | _, e => e.place
    packed ([(32, q.record)] ++ (List.range 5).map (fun i => (4, ((q.coords.getD i 0) % 2 ^ 32).toNat)) ++
      [(4, pad), (4, q.left), (2, q.latch), (1, kind), (1, q.hint)])

/-- Local queues: each queue's 256 entries, the oldest first, then the eight counts (R89). -/
def lqByte (lqs : List (Nat × List Word)) (i : Nat) : Option Byte :=
  if i < 8192 then ((getKey [] lqs (i / 1024))[i % 1024 / 4]?).map fun w => BitVec.ofNat 8 (w.toNat / 256 ^ (i % 4))
  else some (BitVec.ofNat 8 ((getKey [] lqs ((i - 8192) / 8)).length / 256 ^ (i % 8)))

/-! ## The block of a group -/

/-- A frame of the mask stack: its kind, the other split of a divided frame, code indices and masks. -/
def Frame.bytes : Frame → List Byte
  | .ifF div els next ms fm pair => packed [(1, 1 + 4 * div.toNat + 8 * els.toNat), (1, pair), (4, next), (2, 0), (4, ms.toNat), (4, fm.toNat)]
  | .loopF st fin ms ct => packed [(1, 2), (1, 0), (2, st), (4, fin), (4, ms.toNat), (4, ct.toNat)]
  | .callF ret ms => packed [(1, 3), (1, 0), (4, ret), (2, 0), (4, ms.toNat), (4, 0)]

/-- A split parked in the frame (R291): by what, and the number it waits at. -/
def Park.bytes : Park → List Byte
  | .merge => packed [(1, 1), (1, 0)]
  | .barrier clu id .. | .barFence clu id .. => packed [(1, 2 + clu.toNat), (1, id)]
  | .fence .. => packed [(1, 4), (1, 0)]
  | _ => packed [(1, 0), (1, 0)]

/-- A split: that there is one, its age rank, level, park, PC, mask, latest completion time, device-time capture, and its mask frames. -/
def Split.bytes (p : Split) (rank : Nat) : List Byte :=
  packed [(1, 1), (1, rank), (1, p.level)] ++ p.park.bytes ++ packed [(1, p.capture.isSome.toNat), (2, p.pc), (4, p.mask.toNat), (8, p.lct), (8, p.capture.getD 0)] ++
    p.frames.reverse.flatMap Frame.bytes

/-- The binding that each cam slot of a group has: the table entry plus 1, or 0. -/
def Team.slotEntries (t : Team) (g : Group) : List Byte :=
  (List.range 16).map fun n =>
    let i := t.binds.findIdx fun b => b.state != .unbound && !b.tm && b.grp == g.grp && b.slot == n
    BitVec.ofNat 8 (if i < t.binds.length then i + 1 else 0)

/-- A group's block up to its splits: s0 to s159, q0 to q6, p0 to p7, the virtual bases, its cam slots, the exit set, and the trap state with
the TCODE registers (R285). -/
def Team.blockHead (t : Team) (g : Group) : List Byte :=
  (List.range 160).flatMap (fun n => bytesOfNat 4 (g.sreg n).toNat) ++
    packed [(4, (List.range 7).foldl (fun m n => m + (g.qreg n).toNat * 2 ^ n) 0)] ++ (List.range 8).flatMap (fun n => bytesOfNat 4 (g.preg n).toNat) ++
    (List.range 8).flatMap (fun n => bytesOfNat 8 (g.breg n).vbase.toNat) ++ t.slotEntries g ++
    packed [(4, g.exited.toNat), (1, (g.trapSplit.map (· + 1)).getD 0), (1, g.trapDepth), (2, 0), (4, g.trapMask.toNat), (4, g.tcode), (4, g.tepc),
            (8, g.taddr), (4, g.tlane)]

/-- A group's block: its head, from byte 800 on its splits of 304 bytes each, and from byte 2,048 on the vector registers. -/
def SavedTeam.block (x : SavedTeam) (g : Group) : FrameSection :=
  let rank := fun (p : Split) => (x.order.filter fun o => o.1 == g.grp).findIdx fun o => o.2 == p.sid
  { size := 2048 + 128 * x.team.kernel.vregs
    byte := fun i =>
      if i < 800 then (x.team.blockHead g)[i]?
      else if i < 2016 then (g.splits[(i - 800) / 304]?).bind fun p => (p.bytes (rank p))[(i - 800) % 304]?
      else if i < 2048 then none
      else some (BitVec.ofNat 8 ((g.vlane ((i - 2048) / 128) ((i - 2048) % 128 / 4)).toNat / 256 ^ (i % 4))) }

/-! ## The frame -/

/-- The sections of a frame in their order. -/
def SavedTeam.sections (x : SavedTeam) : List FrameSection :=
  let t := x.team
  [.of 256 t.header,
   .table (if t.rank = 0 then 160 else 128) 8 fun i =>
     (if i < 16 then t.barriers.getD i Barrier.empty else t.cluBarriers.getD (i - 16) Barrier.empty).bytes,
   .table (8 * t.kernel.cams) 8 fun i => (t.binds.getD i Binding.unbound).bytes,
   .table (32 * t.kernel.latches) 32 fun i => ((t.latches[i]?).map Latch.bytes).getD [],
   x.keyway,
   .table 512 64 fun i => ((x.copies[i]?).map CopyReq.bytes).getD [],
   { size := if x.lqs.isSome then 8256 else 0, byte := lqByte (x.lqs.getD []) },
   .table 64 8 fun i => ((x.subs[i]?).map (bytesOfNat 8)).getD []] ++
  (t.groups.mergeSort fun a b => a.grp ≤ b.grp).map x.block ++
  [{ size := t.kernel.scratch, byte := fun i => some (t.scratch.read i) }]

/-- A byte of sections that are each 64-byte aligned; none beyond their end, and an inner none where no field stands. -/
def sectionByte : List FrameSection → Nat → Option (Option Byte)
  | [], _ => none
  | f :: r, off =>
    let size := (f.size + 63) / 64 * 64
    if off < size then some (if off < f.size then f.byte off else none) else sectionByte r (off - size)

/-- A byte of a saved team's frame; one that holds no field reads as a free value (log entry 70). -/
def State.frameByte (s : State) (x : SavedTeam) (off : Nat) : Option Nat :=
  (sectionByte x.sections off).map fun b => (b.map BitVec.toNat).getD (s.drawBits 18 (off % 16777216) 8)

/-- A saved team with its virtual function. -/
def State.savedTeam? (s : State) (team : Nat) : Option (Nat × SavedTeam) :=
  (s.vfs.flatMap fun v => v.saved.map fun x => (v.cfg.id, x)).find? fun p => p.2.team.id == team

end Sys2Proof.Machine
end

