-- ==== Sys2Proof/Machine/Debug.lean ====
section
/-!
DEFINITION. The debugger (18 R295): attaching, halts, reading and writing a halted team, reading a frame.
-/
namespace Sys2Proof.Machine

/-- DEBUGGER_ATTACH (R295): BREAKPOINT halts from then on, or is an ordinary fault again. -/
def execDebuggerAttach (vf : Nat) (on : Bool) (s : State) : Answered := .next (s.modVf vf fun v => { v with debugger := on }).bump

/-- A resident team whose virtual function a debugger is attached to. -/
def State.debugged (s : State) (team : Nat) : Option (Nat × Team) :=
  (s.residents.find? fun p => p.2.id == team).bind fun p => if (s.vf? p.2.vf).any (·.debugger) then some p else none

/-- A command for a team that is not there, or that no debugger is attached to, is refused; without the team there is no function whose
ring it came through but the physical one's. -/
def State.refuseTeam (s : State) (command : String) (team : Nat) : State :=
  let vf := ((s.residents.find? fun p => p.2.id == team).map fun p => p.2.vf).getD 512
  s.status command vf "REFUSED" team

/-- HALT (R295): no split of the team starts a run; the team stays resident. -/
def execHalt (team : Nat) (s : State) : Answered :=
  match s.debugged team with
  | none => .next (s.refuseTeam "HALT" team).bump
  | some p => .next ((s.modTeam p.1 team fun t => { t with halted := true }).status "HALT" p.2.vf "OK" team).bump

/-- The copies and binds of a team have drained. -/
def State.drained (s : State) (k : Nat) (t : Team) : Bool :=
  let c := s.core k
  (c.copyQ ++ c.copyRun ++ c.copyFault).all (fun q => q.team != t.id) && t.binds.all fun b => b.state != .binding

/-- Every split of a halted team stands at a run end. -/
def State.haltStands (s : State) (k : Nat) (t : Team) : Bool := t.halted && s.teamStands k t

/-- QUIESCE (R295): a halt that is reported once every split stands and the team's copies and binds have drained. -/
def execQuiesce (team : Nat) (s : State) : Answered :=
  match s.debugged team with
  | none => .next (s.refuseTeam "QUIESCE" team).bump
  | some p =>
    if s.drained p.1 p.2 && s.haltStands p.1 p.2 then
      .next ((s.modTeam p.1 team fun t => { t with quiescing := false }).status "QUIESCE" p.2.vf "OK" team).bump
    else .next (s.modTeam p.1 team fun t => { t with halted := true, quiescing := true }).bump

/-- RESUME (R295). -/
def execResume (team : Nat) (s : State) : Answered :=
  match s.debugged team with
  | none => .next (s.refuseTeam "RESUME" team).bump
  | some p => .next ((s.modTeam p.1 team fun t => { t with halted := false, quiescing := false }).status "RESUME" p.2.vf "OK" team).bump

/-! ## Registers and scratchpad -/

/-- A trap register of a group (R285). -/
def Group.trapReg (g : Group) : TrapReg → Nat
  | .tcode => g.tcode
  | .tepc => g.tepc
  | .taddrLow => g.taddr % 2 ^ 32
  | .taddrHigh => g.taddr / 2 ^ 32 % 2 ^ 32
  | .tlane => g.tlane

/-- A trap register set. -/
def Group.setTrapReg (g : Group) (v : Nat) : TrapReg → Group
  | .tcode => { g with tcode := v }
  | .tepc => { g with tepc := v }
  | .taddrLow => { g with taddr := g.taddr / 2 ^ 32 * 2 ^ 32 + v }
  | .taddrHigh => { g with taddr := g.taddr % 2 ^ 32 + v * 2 ^ 32 }
  | .tlane => { g with tlane := v }

/-- A register of a group (of a base register one half of its virtual base) or a byte of scratchpad. -/
def Team.item (t : Team) : CtxItem → Nat
  | .vreg g n l => ((t.group? g).map fun x => (x.vlane n l).toNat).getD 0
  | .sreg g n => ((t.group? g).map fun x => (x.sreg n).toNat).getD 0
  | .preg g n => ((t.group? g).map fun x => (x.preg n).toNat).getD 0
  | .qreg g n => ((t.group? g).map fun x => (x.qreg n).toNat).getD 0
  | .breg g n high => ((t.group? g).map fun x => (x.breg n).vbase.toNat / (if high then 2 ^ 32 else 1) % 2 ^ 32).getD 0
  | .scratchByte o => (t.scratch.read o).toNat
  | .trapReg g r => ((t.group? g).map fun x => x.trapReg r).getD 0
  | .frameByte _ => 0

/-- The item lies within the team's registers and allocation. -/
def Team.holdsItem (t : Team) : CtxItem → Bool
  | .vreg g n l => (t.group? g).isSome && n < t.kernel.vregs && l < 32
  | .sreg g n => (t.group? g).isSome && n < 160
  | .preg g n => (t.group? g).isSome && n < 8
  | .qreg g n => (t.group? g).isSome && n < 7
  | .breg g n _ => (t.group? g).isSome && n < 8
  | .scratchByte o => o < t.kernel.scratch
  | .trapReg g _ => (t.group? g).isSome
  | .frameByte _ => false

/-- One half of a virtual base set; it translates again at its next use (R74). -/
def BaseReg.setHalf (b : BaseReg) (high : Bool) (v : Word) : BaseReg :=
  let n := b.vbase.toNat
  { vbase := BitVec.ofNat 64 (if high then n % 2 ^ 32 + v.toNat * 2 ^ 32 else n / 2 ^ 32 * 2 ^ 32 + v.toNat), page := none, limit := 0 }

/-- An item set. -/
def Team.setItem (t : Team) (v : Word) : CtxItem → Team
  | .vreg g n l => t.modGroup g fun x => x.setVec n (maskOf fun i => i == l) fun _ => v
  | .sreg g n => t.modGroup g fun x => x.setSreg n v
  | .preg g n => t.modGroup g fun x => x.setPreg n allLanes fun i => v.getLsbD i
  | .qreg g n => t.modGroup g fun x => x.setQreg n (v.getLsbD 0)
  | .breg g n high => t.modGroup g fun x => x.setBreg n ((x.breg n).setHalf high v)
  | .scratchByte o => Team.taint { t with scratch := t.scratch.write o (BitVec.ofNat 8 v.toNat) } [o] none
  | .trapReg g r => t.modGroup g fun x => x.setTrapReg v.toNat r
  | .frameByte _ => t

/-- READ_CONTEXT of a byte of a frame (R292). -/
def State.readFrame (s : State) (team off : Nat) : State :=
  match s.savedTeam? team with
  | none => s.refuseTeam "READ_CONTEXT" team
  | some (vf, x) =>
    match s.frameByte x off with
    | some v => s.status "READ_CONTEXT" vf "OK" v
    | none => s.status "READ_CONTEXT" vf "REFUSED" 0

/-- READ_CONTEXT (R295) of a register or byte. -/
def State.readItem (s : State) (team : Nat) (item : CtxItem) : State :=
  match s.debugged team with
  | none => s.refuseTeam "READ_CONTEXT" team
  | some p =>
    if s.haltStands p.1 p.2 && p.2.holdsItem item then s.status "READ_CONTEXT" p.2.vf "OK" (p.2.item item)
    else s.status "READ_CONTEXT" p.2.vf "REFUSED" 0

/-- READ_CONTEXT. -/
def execReadContext (team : Nat) (item : CtxItem) (s : State) : Answered :=
  .next (match item with
    | .frameByte off => s.readFrame team off
    | _ => s.readItem team item).bump

/-- WRITE_CONTEXT (R295). -/
def execWriteContext (team : Nat) (item : CtxItem) (value : Word) (s : State) : Answered :=
  match s.debugged team with
  | none => .next (s.refuseTeam "WRITE_CONTEXT" team).bump
  | some p =>
    if s.haltStands p.1 p.2 && p.2.holdsItem item then
      .next ((s.modTeam p.1 team fun t => t.setItem value item).status "WRITE_CONTEXT" p.2.vf "OK" 0).bump
    else .next (s.status "WRITE_CONTEXT" p.2.vf "REFUSED" 0).bump

end Sys2Proof.Machine
end

