-- ==== Sys2Proof/Machine/Graphs.lean ====
section
/-!
DEFINITION. Kernel graphs (14 R256 to R258, 13 R237): node records and their refusal, choosing images (20 R302), starts, arrivals,
conditional and loop nodes, the triggering and the retirement of a grid.
-/
namespace Sys2Proof.Machine

/-! ## Choosing an image (R302) -/

/-- The logical-to-physical core and slice map of a die, as bytes; an empty map is the identity. -/
def State.dieMap (s : State) (die : Nat) : List Byte :=
  ((List.range 48).map fun i => BitVec.ofNat 8 (s.coreMap.getD (48 * die + i) i)) ++
    (List.range 64).map fun i => BitVec.ofNat 8 (s.sliceMap.getD (64 * die + i) i)

/-- The first image, by index, that a test holds for. -/
def CodeObject.firstImage (o : CodeObject) (p : Image → Bool) : Option Nat := (List.range o.images.length).find? fun i => o.images[i]?.any p

/-- A native image that a K9 can run: of the K9's part number and of level 3 (R299; R1: KIS-2 code does not run). -/
def Image.native (i : Image) : Bool := i.kind == 0 && i.revid / 256 == 0x000903

/-- The image a die runs under a contract's revision id: the first step of R302 that applies; none is PLACEMENT_MISMATCH. -/
def CodeObject.choose (o : CodeObject) (rev : Nat) (sig : List Byte) : Option Nat :=
  let exact := fun (i : Image) => i.native && i.revid == rev
  let lower := fun (i : Image) => i.native && !i.sigv && i.revid / 256 == rev / 256 && i.revid % 256 < rev % 256
  match o.firstImage fun i => exact i && i.sigv && i.psig == sig with
  | some i => some i
  | none =>
    match o.firstImage fun i => exact i && !i.sigv with
    | some i => some i
    | none =>
      if o.images.any exact then none
      else
        match o.firstImage fun i => lower i && o.images.all fun j => !lower j || j.revid ≤ i.revid with
        | some i => some i
        | none => o.firstImage fun i => i.kind == 1

/-- The selection of every die on which the virtual function has cores. -/
def State.selection (s : State) (v : Vf) (o : CodeObject) : List (Option Nat) :=
  (List.range 4).map fun d =>
    if v.cfg.cores.any fun k => k / 48 = d then o.choose v.cfg.revid.toNat (sha384 (s.dieMap d)) else none

/-- Some die with cores has no image it may run. -/
def mismatch (v : Vf) (l : List (Option Nat)) : Bool := v.cfg.cores.any fun k => (l.getD (k / 48) none).isNone

/-- The selection made, at the first launch of the object's kernels. -/
def State.select (s : State) (v : Vf) (o : CodeObject) : State × List (Option Nat) :=
  match o.pick with
  | some l => (s, l)
  | none =>
    let l := s.selection v o
    (s.modVf v.cfg.id fun v => { v with objects := updateIf (fun x => x.id == o.id) (fun x => { x with pick := some l }) v.objects }, l)

/-! ## Reading as the command processor (R256, R257) -/

/-- A command processor as an asker: its reads are strong (R257), and those for different nodes have no order. -/
def cpAsker (v : VfConfig) (graph node : Nat) : Asker :=
  { engineAsker cpCore v (2 ^ 64) { core := cpCore, team := graph, grp := node, split := 0 } (.node graph node) 0 with strong := true }

/-- A strong read of n bytes at a virtual address under a node's name; `bad` is the state where it fails, `go` what follows. -/
def State.cpRead (s : State) (v : VfConfig) (graph node va n : Nat) (bad : State → State) (go : State → Nat → State) : State :=
  match s.reading (cpAsker v graph node) (sectorsOf va n) with
  | .wait => s
  | .sent s => s
  | .fail s _ _ _ => bad s
  | .got s f => go (s.forget cpCore (.node graph node)) (gather n fun i => f.get (va + i))

/-- A node's record read. -/
def State.readNode (s : State) (v : VfConfig) (g : Graph) (n : Nat) (bad : State → State) (go : State → Nat → State) : State :=
  s.cpRead v g.id n (g.base + 128 * n) 128 bad go

/-! ## Node records (R256) -/

def nodeKind (w : Nat) : Nat := bitsOf w 1 0
def nodeWait (w : Nat) : Nat := bitsOf w 15 8
def nodeSucc (w : Nat) (i : Nat) : Nat := bitsOf w (47 + 16 * i) (32 + 16 * i)
def nodeKaddr (w : Nat) : Nat := bitsOf w 183 128
def nodeMaxit (w : Nat) : Nat := bitsOf w 223 192

/-- The successors SUCCi to SUCCj that are named. -/
def nodeSuccs (w i j : Nat) : List Nat := (([0, 1, 2, 3].filter fun k => i ≤ k && k ≤ j).map (nodeSucc w)).filter (· != 0xFFFF)

/-- The common part is legal. -/
def nodeOk (w nodes : Nat) : Bool :=
  nodeKind w != 3 && bitsOf w 7 2 == 0 && bitsOf w 31 16 == 0 && bitsOf w 127 96 == 0 && bitsOf w 191 184 == 0 &&
    (nodeSuccs w 0 3).all (· < nodes)

/-- A conditional or loop node is legal. -/
def condOk (w : Nat) : Bool := bitsOf w 1023 224 == 0 && (nodeKind w == 2 || nodeMaxit w == 0) && nodeKaddr w % 4 == 0

/-- The fields of a launch record. -/
def lrDims (w : Nat) : Nat × Nat × Nat := (bitsOf w 223 192, bitsOf w 239 224, bitsOf w 255 240)
def lrCeil (w : Nat) : Nat := bitsOf w 287 256
def lrShape (w : Nat) : Nat × Nat := (bitsOf w 291 288, bitsOf w 295 292)
def lrFlags (w : Nat) : Nat := bitsOf w 301 297
def lrArgs (w : Nat) : List Word := (List.range 8).map fun i => BitVec.ofNat 32 (w / 2 ^ (384 + 32 * i))

/-- An empty core has room for one team of a kernel beside the pinned windows (R27, R247). -/
def State.roomEmpty (s : State) (ke : Kernel) (k : Nat) : Bool := ke.scratch + 1024 * s.pinnedKiB k ≤ 2 ^ 20

/-- A team fits a core at all (R246, R247), and some footprint of the shape lies within the virtual function's cores with room on each of
them (R311). -/
def State.fitsSet (s : State) (v : Vf) (ke : Kernel) (w h : Nat) : Bool :=
  ke.groups ≤ 16 * min 8 (512 / max ke.vregs 1) && ke.latches ≤ 512 &&
    (footprints w h).any fun ks => ks.all fun k => v.cfg.cores.contains k && s.roomEmpty ke k

/-- A launch record is legal for a kernel (R240, R247, R249, R256, R311). -/
def State.launchOk (s : State) (v : Vf) (ke : Kernel) (w : Nat) : Bool :=
  let d := lrDims w
  let sh := lrShape w
  let f := lrFlags w
  1 ≤ d.1 && 1 ≤ d.2.1 && 1 ≤ d.2.2 && d.1 ≤ lrCeil w && (f.testBit 0 || lrCeil w == d.1) &&
    legalShape sh.1 sh.2 && sh == (ke.cw, ke.ch) && d.1 * d.2.1 * d.2.2 % (sh.1 * sh.2) == 0 && (!f.testBit 0 || sh == (1, 1)) &&
    bitsOf w 319 302 == 0 && bitsOf w 383 337 == 0 && bitsOf w 1023 640 == 0 &&
    (!f.testBit 3 || v.cfg.features.getLsbD 0) && (!f.testBit 2 || v.cfg.features.getLsbD 1) &&
    s.fitsSet v ke sh.1 sh.2

/-! ## Starts (R257) -/

/-- A node is refused (R256): NODE_REFUSED with its address, and PLACEMENT_MISMATCH where no image may run. -/
def State.refuseNode (s : State) (v : Vf) (g : Graph) (n code : Nat) : State :=
  let k := v.cfg.cores.headD 0
  s.post { code := 0x8008, vf := v.cfg.id, srck := 2, src := k / 48, addr := g.base + 128 * n, code1 := code, time := s.vfTime k v.cfg.id }

/-- A kernel node starts a grid. -/
def State.startKernel (s : State) (v : Vf) (g : Graph) (n w : Nat) (args : Option (List Word)) : State :=
  match v.textAt (nodeKaddr w) with
  | some (o, k, 0) =>
    match o.kernels[k]? with
    | none => s.refuseNode v g n 0
    | some ke =>
      let (s, sel) := s.select v o
      if mismatch v sel then s.refuseNode v g n 0x000E
      else if !s.launchOk v ke w then s.refuseNode v g n 0
      else
        let d := lrDims w
        let i := s.takeId
        let gr : Grid :=
          { id := i.1, vf := v.cfg.id, graph := g.id, node := n, kernel := ke, ngx := d.1, ngy := d.2.1, ngz := d.2.2, ceil := lrCeil w,
            count := d.1 * d.2.1 * d.2.2, placed := 0, flags := lrFlags w, prio := bitsOf w 296 296, trapv := w.testBit 336,
            trape := bitsOf w 335 320, args := args.getD (lrArgs w), triggered := false, awaits := [], succ := nodeSuccs w 0 3, teams := [] }
        { i.2 with grids := i.2.grids ++ [gr] }
  | _ => s.refuseNode v g n 0

/-- One instance of a node starts, its record read, or is refused. -/
def State.startNode (s : State) (v : Vf) (g : Graph) (n w : Nat) (args : Option (List Word)) : State :=
  if !nodeOk w g.nodes then s.refuseNode v g n 0
  else if nodeKind w = 0 then s.startKernel v g n w args
  else if !condOk w then s.refuseNode v g n 0
  else s.modGraph g.id fun g => { g with evals := g.evals ++ [(n, w)] }

/-- The first entry that fits, and the list without it. -/
def takeFirst {α : Type} (p : α → Bool) : List α → Option (α × List α)
  | [] => none
  | x :: r => if p x then some (x, r) else (takeFirst p r).map fun y => (y.1, x :: y.2)

/-! ## Arrivals (R257) -/

/-- Arrivals sent to nodes: each counts once the node's record has been read. -/
def State.arriveAll (s : State) (graph : Nat) (l : List Nat) : State := s.modGraph graph fun g => { g with arriving := g.arriving ++ l }

/-- One arrival counts at a node with a record: a loop node starts on each, any other when the count reaches WAIT. -/
def Graph.count (g : Graph) (n w : Nat) : Graph :=
  let c := getKey 0 g.arrivals n + 1
  let g := { g with arriving := g.arriving.erase n }
  if nodeKind w = 2 || c = nodeWait w then { g with starts := g.starts ++ [(n, none)], arrivals := setKey g.arrivals n 0 }
  else { g with arrivals := setKey g.arrivals n c }

/-- NODE_START (R257, R237): an arrival that has come counts; then an instance whose arrivals have come, a root, or a node a LAUNCH names,
starts once it is accepted. The record is read first. -/
def State.nodeStart (s : State) (v : Vf) (g : Graph) (node : Nat) : State :=
  let begin_ := fun (drop : State → State) (args : Option (List Word)) =>
    if node ≥ g.nodes then (drop s).refuseNode v g node 0
    else s.readNode v.cfg g node (fun s => (drop s).refuseNode v g node 0) fun s w => (drop s).startNode v g node w args
  if g.arriving.contains node then
    s.readNode v.cfg g node (fun s => s.modGraph g.id fun g => g.count node 0) fun s w => s.modGraph g.id fun g => g.count node w
  else
    match takeFirst (fun x => x.1 == node) g.starts with
    | some (x, r) => begin_ (fun s => s.modGraph g.id fun g => { g with starts := r }) x.2
    | none =>
      match takeFirst (fun (x : Nat × Nat × Option (List Word)) => x.1 == g.id && x.2.1 == node) v.launches with
      | some (x, r) => begin_ (fun s => s.modVf v.cfg.id fun v => { v with launches := r }) x.2.2
      | none => s

/-- NODE_START. -/
def execNodeStart (graph node : Nat) (s : State) : Answered :=
  .next (match s.graph? graph with
    | none => s
    | some g =>
      match s.vf? g.vf with
      | none => s
      | some v => if v.stopped || v.leaving || g.stopped then s else s.nodeStart v g node).bump

/-- What a conditional or loop node does with its condition word (R257). -/
def State.evaluate (s : State) (g : Graph) (n w x : Nat) : State :=
  if nodeKind w = 1 then s.arriveAll g.id (if x ≠ 0 then nodeSuccs w 0 1 else nodeSuccs w 2 3)
  else
    let p := getKey 0 g.passes n
    if x ≠ 0 && (nodeMaxit w = 0 || p < nodeMaxit w) then
      (s.modGraph g.id fun g => { g with passes := setKey g.passes n (p + 1) }).arriveAll g.id (nodeSuccs w 0 1)
    else (s.modGraph g.id fun g => { g with passes := setKey g.passes n 0 }).arriveAll g.id (nodeSuccs w 2 3)

/-- NODE_EVALUATE (R257): the condition word is read and decides which successors get an arrival; where it cannot be read, the graph
stops. -/
def execNodeEvaluate (graph node : Nat) (s : State) : Answered :=
  .next (match s.graph? graph with
    | none => s
    | some g =>
      match s.vf? g.vf, takeFirst (fun (x : Nat × Nat) => x.1 == node) g.evals with
      | some v, some (x, r) =>
        if v.stopped || v.leaving || g.stopped then s
        else
          let drop := fun (s : State) => s.modGraph graph fun g => { g with evals := r }
          s.cpRead v.cfg graph (65536 + node) (nodeKaddr x.2) 4
            (fun s => ((drop s).refuseNode v g node 0).modGraph graph fun g => { g with stopped := true })
            fun s c => (drop s).evaluate g node x.2 c
      | _, _ => s).bump

/-! ## Triggering (R237) and retirement (R258) -/

/-- The teams of a grid, resident or saved. -/
def State.gridTeams (s : State) (grid : Nat) : List Team :=
  (s.residents.map (·.2) ++ s.vfs.flatMap fun v => v.saved.map (·.team)).filter fun t => t.grid == grid

/-- A group start is pending in a team (R237): a continuation, a SPAWN parked at issue. -/
def Team.startsPending (t : Team) : Bool :=
  t.latches.any (fun l => l.cont.isSome) || t.groups.any fun g => g.splits.any fun p =>
    match p.park with
    | .instr (.spawn ..) _ => true
    | _ => false

/-- A join of the grid runs, or a class of one of its teams is held. -/
def State.formsPending (s : State) (gr : Grid) : Bool :=
  s.cores.any (fun c => c.2.joins.any (fun p => p.2.any fun j => j.grid == gr.id && j.state == .running) ||
    c.2.held.any fun h => gr.teams.contains h.team) ||
  s.vfs.any fun v => v.saved.any fun x => x.team.grid == gr.id && (!x.held.isEmpty || x.joins.any fun p => p.2.state == .running)

/-- A write has not returned: a request, a scratchpad write, a store that waits for its reads. -/
def State.writeOut (s : State) (id : Nat) : Bool := s.reqs.any (fun q => q.id == id) || s.cores.any fun c => c.2.unperformed id

/-- The three conditions of R237 hold for a grid that has not triggered. -/
def State.triggers (s : State) (gr : Grid) : Bool :=
  !gr.triggered && (s.vf? gr.vf).isSome && gr.count ≤ gr.placed &&
    !((s.gridTeams gr.id).any fun t => t.startsPending || t.groups.any fun g => !g.triggered) && !s.formsPending gr && !gr.awaits.any s.writeOut

/-- A grid that triggers now: it does so before anything else happens, at the first moment at which its conditions hold (R237). -/
def State.triggerDue (s : State) : Option Nat := (s.grids.find? s.triggers).map (·.id)

/-- GRID_TRIGGER: its successors get their arrivals. -/
def execGridTrigger (grid : Nat) (s : State) : Answered :=
  .next (match s.grid? grid with
    | none => s
    | some gr => if s.triggers gr then (s.modGrid grid fun g => { g with triggered := true }).arriveAll gr.graph gr.succ else s).bump

/-- A store, atomic or copy write of the grid's groups has not completed. -/
def State.gridWrites (s : State) (gr : Grid) : Bool :=
  s.reqs.any (fun q => q.grid == gr.id && q.kind.writes && !q.done) ||
    s.cores.any fun c =>
      (c.2.copyQ ++ c.2.copyRun ++ c.2.copyFault).any (fun q => q.grid == gr.id) ||
        c.2.outs.any fun o => o.finish.stores? && gr.teams.contains o.owner.team

/-- GRID_RETIRE (R30, R52, R258): the replica generation advances, and drops every replica where it wraps; descriptor caches lose the
virtual function's records; then the retirement is reported, and the grid is gone. -/
def execGridRetire (grid : Nat) (s : State) : Answered :=
  match s.grid? grid with
  | none => .next s.bump
  | some gr =>
    if !gr.triggered || gr.placed < gr.count || !(s.gridTeams grid).isEmpty || s.gridWrites gr then .next s.bump
    else
      let wraps := (s.vf? gr.vf).any fun v => v.repGen == 65535
      let s := s.modVf gr.vf fun v => { v with repGen := (v.repGen + 1) % 65536 }
      let s := if wraps then
          { s with slices := s.slices.map fun (p : Nat × Slice) =>
            (p.1, { p.2 with replicas := p.2.replicas.filter fun r => r.vf != gr.vf }) }
        else s
      let s := { s with cores := s.cores.map fun (p : Nat × Core) => (p.1, { p.2 with desc := p.2.desc.filter fun d => d.vf != gr.vf }) }
      .next ({ s with grids := s.grids.filter fun g => g.id != grid, signals := s.signals ++ [.retired gr.vf gr.graph gr.node gr.id] } : State).bump

end Sys2Proof.Machine
end

