-- ==== Sys2Proof/Machine/Objects.lean ====
section
/-!
DEFINITION. Loading and unloading code objects (20 R299 to R301, R305 to R308).
-/
namespace Sys2Proof.Machine

/-! ## The layout (R299, R300) -/

/-- A field of `n` bytes of an object. -/
def objNat (b : List Byte) (off n : Nat) : Nat := natOfBytes ((b.drop off).take n)

/-- A directory entry's words. -/
def dirEntry (b : List Byte) (i : Nat) : Nat := objNat b (256 + 64 * i) 64

/-- The image of a directory entry, its kernel table not read yet. -/
def imageOf (w : Nat) : Image :=
  { kind := bitsOf w 1 0, revid := bitsOf w 39 8, sigv := w.testBit 40, off := bitsOf w 95 64, size := bitsOf w 127 96,
    psig := bytesOfNat 48 (bitsOf w 511 128), kernels := [] }

/-- A directory entry is legal: its reserved bits, its kind's fields, its place within the object. -/
def entryOk (w nimg total : Nat) : Bool :=
  let i := imageOf w
  i.kind != 3 && bitsOf w 7 2 == 0 && bitsOf w 63 41 == 0 && (i.kind == 0 || (i.revid == 0 && !i.sigv)) &&
    (i.sigv || bitsOf w 511 128 == 0) && i.off % 128 == 0 && i.size % 128 == 0 && 256 + 64 * nimg ≤ i.off && i.off + i.size + 96 ≤ total

/-- No two images overlap. -/
def disjointImages : List Image → Bool
  | [] => true
  | i :: r => r.all (fun j => i.off + i.size ≤ j.off || j.off + j.size ≤ i.off) && disjointImages r

/-- The header is legal. -/
def headerOk (b : List Byte) : Bool :=
  let h := objNat b 0 256
  let total := bitsOf h 255 192
  let nimg := bitsOf h 39 32
  b.length == total && total % 128 == 0 && total ≥ 256 && bitsOf h 31 0 == 0x4B390C0B && 1 ≤ nimg && nimg ≤ 64 && bitsOf h 63 43 == 0 &&
    bitsOf h 2047 320 == 0 && 1 ≤ bitsOf h 191 160 && bitsOf h 191 160 ≤ 4096 &&
    (h.testBit 40 || bitsOf h 319 256 == 0)

/-- A kernel table entry is legal in an image of a size. -/
def kernelOk (w size : Nat) : Bool :=
  bitsOf w 31 0 % 128 == 0 && bitsOf w 31 0 + 16 * (bitsOf w 47 32 + 1) ≤ size && bitsOf w 64 58 ≤ 64 && bitsOf w 74 65 ≤ 512 &&
    bitsOf w 83 75 ≤ 256 && bitsOf w 95 92 ≤ 8 && bitsOf w 127 97 == 0

/-- What must agree between the tables of an object: everything but START and WORDS. -/
def kernelShape (w : Nat) : Nat := w / 2 ^ 48

/-- The kernel of a table entry (R300). -/
def kernelOf (obj num text w : Nat) : Kernel :=
  { obj := obj, num := num, text := text, words := bitsOf w 47 32 + 1, groups := bitsOf w 52 48 + 1, vregs := 8 * (bitsOf w 57 53 + 1),
    cams := bitsOf w 64 58, latches := bitsOf w 74 65, scratch := 4096 * bitsOf w 83 75, cw := bitsOf w 87 84, ch := bitsOf w 91 88,
    lq := w.testBit 96 }

/-- The plain bytes of the first lines of an image that hold `n` bytes: decrypted where the object is protected (R306); none when a tag
fails, so that they cannot be read. The command processor reads no other line before it runs or is installed. -/
def plainStart (b : List Byte) (o : CodeObject) (i : Image) (n : Nat) : Option (List Byte) :=
  if !o.enc then some ((b.drop i.off).take (min n i.size))
  else
    ((List.range (min ((n + 127) / 128) (i.size / 128))).mapM fun n =>
      let line := i.off / 128 + n
      gcmOpen o.key (o.iv line) ((b.drop (128 * line)).take 128) ((b.drop (o.tagOff + 16 * line)).take 16)).map List.flatten

/-- The kernel table entries of an image's plain bytes. -/
def tableOf (b : List Byte) (n : Nat) : List Nat := (List.range n).map fun k => objNat b (32 * k) 32

/-- A hinge image is legal (R38, R300). -/
def hingeOk (b : List Byte) (size : Nat) : Bool := bitsOf (objNat b 0 8) 63 45 == 0 && objNat b 0 8 % 2 == 0 && 128 ≤ size && size ≤ 128 + 8192

/-- The header and the directory are legal (R299, R301, R308). -/
def directoryOk (v : Vf) (b : List Byte) : Bool :=
  let h := objNat b 0 256
  let nimg := bitsOf h 39 32
  let ws := (List.range nimg).map (dirEntry b)
  let imgs := ws.map imageOf
  headerOk b && (ws.all fun w => entryOk w nimg (bitsOf h 255 192)) && disjointImages imgs && (imgs.filter fun i => i.kind == 1).length ≤ 1 &&
    (imgs.filter fun i => i.kind == 2).length ≤ 1 && !((imgs.any fun i => i.kind == 2) && v.cfg.hingeSlot.isNone)

/-- An object as its header and directory describe it, with its key. -/
def objectOf (b : List Byte) (plan : LoadPlan) (id : Nat) (key : List Byte) : CodeObject :=
  let h := objNat b 0 256
  { id := id, plan := plan, total := bitsOf h 255 192, enc := h.testBit 40, nonce := bytesOfNat 8 (bitsOf h 127 64), tagOff := bitsOf h 319 256,
    key := key, kernels := [], images := (List.range (bitsOf h 39 32)).map fun i => imageOf (dirEntry b i), pick := none, area := 0, busy := [] }

/-- The object with its kernels, of `nk` in number: its kernel tables agree and its handler's control word is legal (R300); none for
BAD_FORMAT. -/
def withTables (b : List Byte) (nk : Nat) (o : CodeObject) : Option CodeObject :=
  match o.images.mapM fun i => plainStart b o i (if i.kind = 2 then 128 else 32 * nk) with
  | none => none
  | some plain =>
    let both := o.images.zip plain
    let text := both.filter fun p => p.1.kind != 2
    let tables := text.map fun p => tableOf p.2 nk
    let shapes := tables.map fun t => t.map kernelShape
    if !(text.all fun p => 32 * nk ≤ p.1.size && (tableOf p.2 nk).all fun w => kernelOk w p.1.size) || !(shapes.all fun s => s == shapes.headD []) ||
        !(both.all fun p => p.1.kind != 2 || hingeOk p.2 p.1.size) then none
    else
      let first := tables.headD []
      some
        { o with
          kernels := ((List.range first.length).zip first).map fun p => kernelOf o.id p.1 (o.plan.textVa + 2 ^ 20 * p.1) p.2
          images := both.map fun p =>
            { p.1 with kernels := if p.1.kind = 2 then [] else (tableOf p.2 nk).map fun w => (bitsOf w 31 0, bitsOf w 47 32 + 1) } }

/-! ## Mapping (R301) -/

/-- The address of the level-3 entry of a virtual address, where the tables reach it. -/
def State.pteAddr (s : State) (vf va : Nat) : (fuel : Nat) → (table : Nat) → Option Nat
  | 0, _ => none
  | n + 1, table =>
    let addr := table + 8 * levelIndex (3 - n) va
    if n = 0 then some addr
    else
      match s.cpPeek vf addr 8 with
      | none => none
      | some b => if pteV (natOfBytes b) && !pteLeaf (natOfBytes b) then s.pteAddr vf va n (pteBase (natOfBytes b)) else none

/-- The pages of a mapping: virtual address, physical address, permissions (bits RD, WR and EX of the entry). -/
def pagesOf (va pa len perm : Nat) : List (Nat × Nat × Nat) :=
  (List.range ((len + 65535) / 65536)).map fun i => (va + 65536 * i, pa + 65536 * i, perm)

/-- The writes of leaf entries for a list of pages; none where a table is missing. DLE of data pages is as the hypervisor has set it. -/
def State.mapPages (s : State) (v : Vf) (dle : Bool) : List (Nat × Nat × Nat) → Option (List (Nat × List Byte))
  | [] => some []
  | (va, pa, perm) :: r =>
    match s.pteAddr v.cfg.id va 4 v.cfg.root with
    | none => none
    | some a =>
      let bit := if dle && perm &&& 16 = 0 then 256 else 0
      (s.mapPages v dle r).map fun l => (a, bytesOfNat 8 (3 + perm + bit + pa / 65536 * 2 ^ 20 + s.devNumber * 2 ^ 45)) :: l

/-! ## The virtual function's memory (R305, R309) -/

/-- The leaf pages of the package's DRAM that a virtual function's tables map, and the tables themselves, with their sizes. -/
def State.heldPages (s : State) (vf : Nat) : (fuel : Nat) → (table : Nat) → List (Nat × Nat)
  | 0, _ => []
  | n + 1, table =>
    (table, 8192) :: (List.range 1024).flatMap fun i =>
      match s.cpPeek vf (table + 8 * i) 8 with
      | none => []
      | some b =>
        let e := natOfBytes b
        if !pteV e || pteDev e ≠ s.devNumber then []
        else if pteLeaf e then
          (if targetOf (pteBase e) != .dram then [] else if n = 0 then [(pteBase e, 2 ^ 16)] else if n = 1 then [(pteBase e, 2 ^ 26)] else [])
        else s.heldPages vf n (pteBase e)

/-- The ranges of a virtual function's memory: address and size. -/
def rangesOf (c : VfConfig) : List (Nat × Nat) := c.memory.map fun p => (p.1 * 2 ^ 20, p.2 * 2 ^ 20)

/-- Bytes of an object's translated area (R305). -/
def CodeObject.areaSize (o : CodeObject) : Nat :=
  match o.images.find? fun i => i.kind == 1 with
  | none => 0
  | some i => o.textTags i + 16 * (i.size / 128) - o.area

/-- What an object takes of the memory: its bytes, its data, its translated area. -/
def CodeObject.takes (o : CodeObject) : List (Nat × Nat) :=
  [(o.plan.textPa, o.total), (o.plan.dataPa, o.plan.dataLen), (o.plan.roPa, o.plan.roLen), (o.area, o.areaSize)]

/-- The lowest place, 64 KiB aligned, for `n` bytes within ranges and beside what is taken. -/
def placeFor (n : Nat) (ranges taken : List (Nat × Nat)) : Option Nat :=
  let fits := fun (a : Nat) =>
    ranges.any (fun r => r.1 ≤ a && a + n ≤ r.1 + r.2) && taken.all fun t => t.2 = 0 || a + n ≤ t.1 || t.1 + t.2 ≤ a
  let starts := ((ranges.map (·.1)) ++ taken.map fun t => t.1 + t.2).map fun a => (a + 65535) / 65536 * 65536
  (starts.filter fits).foldl (fun (b : Option Nat) a => some (match b with | some x => min x a | none => a)) none

/-- The translated area allocated from the virtual function's memory (R305); none for NO_SPACE. Which place is the model's choice (log
entry 21). -/
def State.allocate (s : State) (v : Vf) (o : CodeObject) : Option CodeObject :=
  if o.areaSize = 0 then some o
  else
    (placeFor o.areaSize (rangesOf v.cfg) (s.heldPages v.cfg.id 4 v.cfg.root ++ v.objects.flatMap CodeObject.takes ++ o.takes.take 3)).map fun a =>
      { o with area := a }

/-- The writes that put the object's bytes, its area and its pages into the virtual function's memory; none for NO_SPACE. -/
def State.placement (s : State) (v : Vf) (o : CodeObject) (b : List Byte) : Option (List (Nat × List Byte)) :=
  let p := o.plan
  let words := fun (k : Kernel) => (o.images.map fun i => (i.kernels.getD k.num (0, 0)).2).foldl max k.words
  let text := o.kernels.flatMap fun k => pagesOf k.text (p.textPa / 65536 * 65536) (16 * words k) 16
  (s.mapPages v p.dle (text ++ pagesOf p.dataVa p.dataPa p.dataLen 12 ++ pagesOf p.roVa p.roPa p.roLen 4)).map fun l =>
    l ++ lineWrites p.textPa b ++ lineWrites o.area (List.replicate o.areaSize 0) ++ lineWrites p.dataPa ((b.drop p.dataOff).take p.dataLen) ++
      lineWrites p.roPa ((b.drop p.roOff).take p.roLen)

/-- A checked object put into memory once the homes of its lines take the writes (R76), or the load's status. With OK a handler image waits
to be installed, its slot taking no triggers meanwhile (R308). -/
def State.installObject (s : State) (v : Vf) (o : CodeObject) (keygen : Nat) (b : List Byte) : State :=
  let vf := v.cfg.id
  match (s.allocate v o).bind fun o => (s.placement v o b).map fun ws => (o, ws) with
  | none => s.status "LOAD_OBJECT" vf "NO_SPACE" 0
  | some (o, ws) =>
    if ws.any fun w => !s.physReady w.1 then s
    else
      let t := (s.physWrites ws).modVf vf fun v =>
        { v with objects := v.objects ++ [o], newestKey := if o.enc then max v.newestKey keygen else v.newestKey }
      let t := match v.cfg.hingeSlot with
        | some slot => if o.images.any fun i => i.kind == 2 then (t.clearSlot slot).modVf vf fun v => { v with handler := some o.id } else t
        | none => t
      t.status "LOAD_OBJECT" vf "OK" o.id

/-- The loading of an object: the first cause, in the order of R301's table. The tables of an object whose key is not held cannot be
read. -/
def State.load (s : State) (v : Vf) (b : List Byte) (plan : LoadPlan) : State :=
  let ends := fun (t : String) => s.status "LOAD_OBJECT" v.cfg.id t 0
  let h := objNat b 0 256
  let keygen := bitsOf h 159 128
  let i := s.takeId
  let o := objectOf b plan i.1 (codeKey v.cfg.secret v.cfg.id keygen)
  let held := !(o.enc && keygen + 4 ≤ v.newestKey)
  let full := if held then withTables b (bitsOf h 191 160) o else some o
  if v.stopped then ends "VF_STOPPED"
  else if !directoryOk v b then ends "BAD_FORMAT"
  else
    match full with
    | none => ends "BAD_FORMAT"
    | some o =>
      let key := v.cfg.signKeys[bitsOf h 42 41]?
      if !(key.any fun k => ecdsaVerify k (sha384 (b.take (o.total - 96))) (b.drop (o.total - 96))) then ends "BAD_SIGNATURE"
      else if !held then ends "KEY_ABSENT"
      else i.2.installObject v o keygen b

/-- LOAD_OBJECT (R301, R308). -/
def execLoadObject (vf : Nat) (object : List Byte) (plan : LoadPlan) (s : State) : Answered :=
  .next (match s.vf? vf with
    | none => s.status "LOAD_OBJECT" vf "REFUSED" 0
    | some v => s.load v object plan).bump

/-- UNLOAD_OBJECT (R301): its lines leave every instruction cache; its area is free again (R305). -/
def execUnloadObject (vf obj : Nat) (s : State) : Answered :=
  match (s.vf? vf).bind fun v => v.objects.find? fun o => o.id == obj with
  | none => .next (s.status "UNLOAD_OBJECT" vf "REFUSED" 0).bump
  | some o =>
    let lo := o.plan.textVa / 128
    let hi := lo + 2 ^ 13 * o.kernels.length
    let s := s.modVf vf fun v => { v with objects := v.objects.filter fun x => x.id != obj }
    .next (({ s with cores := s.cores.map fun (p : Nat × Core) =>
      (p.1, { p.2 with ic := p.2.ic.filter fun l => !(l.vf == vf && lo ≤ l.line && l.line < hi) }) } : State).status "UNLOAD_OBJECT" vf "OK" 0).bump

end Sys2Proof.Machine
end

