-- ==== Sys2Proof/Machine/Functions.lean ====
section
/-!
DEFINITION. The host's commands on virtual functions (21 R309, R311, R313, R314): creation, destruction, return to service, graphs,
counters, migration.
-/
namespace Sys2Proof.Machine

/-! ## Creation (R311) -/

/-- Numbers strictly rising, each below a bound. -/
def rising (n : Nat) : List Nat → Bool
  | [] => true
  | [a] => a < n
  | a :: b :: r => a < b && rising n (b :: r)

/-- Two virtual functions may hold their cores side by side: shared sets may overlap, quotas may not (R312). -/
def coresApart (a b : VfConfig) : Bool := (a.shared && b.shared) || a.cores.all fun k => !b.cores.contains k

/-- The default lease length (R75), stall limit (R66) and quantum (R311), for a value given as 0. -/
def withDefaults (c : VfConfig) : VfConfig :=
  { c with
    lease := if c.lease = 0 then 512 else c.lease
    stallLimit := if c.stallLimit = 0 then 2 ^ 24 else c.stallLimit
    quantum := if c.quantum = 0 then 2 ^ 22 else c.quantum }

/-- Ranges of memory that lie in the DRAM of one die each (R22) and are apart from each other. -/
def rangesOk : List (Nat × Nat) → Bool
  | [] => true
  | (a, n) :: r =>
    a % 0x20_0000_0000 + n ≤ 0x18_0000_0000 && a + n ≤ 0x080_0000_0000 && r.all (fun q => a + n ≤ q.1 || q.1 + q.2 ≤ a) && rangesOk r

/-- The pinned windows of a core's functions fit in its 1 MiB of scratchpad (R13, R27) beside what resident teams have; the spec does not say
what becomes of windows of several functions that together do not (DESIGN CHOICE, log entry 62). -/
def State.windowsFit (s : State) (c : VfConfig) : Bool :=
  c.cores.all fun k => 1024 * (c.pinnedKiB + s.pinnedKiB k) + ((s.core k).teams.map fun t => t.kernel.scratch).foldl (· + ·) 0 ≤ 2 ^ 20

/-- The values are within their ranges, and nothing another virtual function holds is taken; the contract's revision is a K9's of level
3 (R1, R244). -/
def State.vfOk (s : State) (c : VfConfig) : Bool :=
  c.id < 512 && c.revid.toNat / 256 == 0x000903 && (c.memory.map (·.2)).foldl (· + ·) 0 == c.memMiB &&
    rangesOk (rangesOf c ++ s.vfs.flatMap fun v => rangesOf v.cfg) && (s.vf? c.id).isNone && !c.cores.isEmpty &&
    rising 192 c.cores && s.vfs.all (fun v => coresApart c v.cfg) &&
    (s.vfs.map (·.cfg.memMiB)).foldl (· + ·) c.memMiB ≤ 384 * 1024 &&
    (match c.hingeSlot with | none => true | some n => n < 8 && s.vfs.all fun v => v.cfg.hingeSlot != some n) &&
    32 ≤ c.lease && c.lease ≤ 8192 && c.pinnedKiB ≤ 512 && c.pinnedKiB % 64 == 0 && s.windowsFit c &&
    2 ^ 16 ≤ c.stallLimit && c.stallLimit ≤ 2 ^ 30 &&
    2 ^ 16 ≤ c.quantum && c.quantum ≤ 2 ^ 26

/-- A ring as its control block begins (R73, R287). -/
def Ring.at_ (block base logn : Nat) : Ring := { Ring.reset with block := block, base := base, logn := logn }

/-- A virtual function as it is created. -/
def Vf.fresh (c : VfConfig) : Vf :=
  { cfg := c, events := Ring.at_ c.eventBlock c.eventBase c.eventLogn, faults := Ring.at_ c.faultBlock c.faultBase c.faultLogn,
    dirty := Ring.at_ c.dirtyBlock c.dirtyBase c.dirtyLogn, commands := Ring.at_ c.commandBlock 0 0, waits := [], nextToken := 0, repGen := 0,
    stopped := false, leaving := false, movedOut := false, dying := false, offset := 0, debugger := false, objects := [], saved := [], launches := [],
    handler := none, newestKey := 0 }

/-- The control blocks of a new virtual function's rings as they stand in host memory (R73, R287). -/
def State.placeRings (s : State) (v : Nat) : State :=
  [RingName.events v, .faults v, .dirty v, .commands v].foldl (fun s n => match s.ring? n with | some r => s.setRing n r | none => s) s

/-- CREATE_VF (R311): in reduced service a virtual function gets, and keeps, D0's cores alone (R319). -/
def execCreateVf (c : VfConfig) (s : State) : Answered :=
  if s.service == .off then .next s.bump
  else
    let c := withDefaults c
    let c := if s.service == .reduced then { c with cores := c.cores.filter (· < 48) } else c
    if s.vfOk c then .next ((State.placeRings { s with vfs := s.vfs ++ [Vf.fresh c] } c.id).status "CREATE_VF" c.id "OK" 0).bump
    else .next (s.status "CREATE_VF" c.id "REFUSED" 0).bump

/-! ## Destruction (R309) -/

/-- A byte address lies in one of a list of pages. -/
def inPages (ps : List (Nat × Nat)) (a : Nat) : Bool := ps.any fun p => p.1 ≤ a && a < p.1 + p.2

/-- A home's lines and lost sectors of those pages gone. -/
def HomeStore.zero (h : HomeStore) (ps : List (Nat × Nat)) : HomeStore :=
  { h with lines := h.lines.filter fun l => !inPages ps (128 * l.line), lost := h.lost.filter fun x => !inPages ps (32 * x),
           fills := h.fills.filter fun f => !inPages ps (128 * f.line) }

/-- Pages zeroed wherever they are held. -/
def State.zeroPages (s : State) (ps : List (Nat × Nat)) : State :=
  { s with
    dram := s.dram.filter fun p => !inPages ps p.1
    flaws := s.flaws.filter fun x => !inPages ps (32 * x)
    cores := s.cores.map fun (p : Nat × Core) =>
      (p.1, { p.2 with window := p.2.window.zero ps, l1 := p.2.l1.filter fun x => !inPages ps (32 * x.sector) })
    slices := s.slices.map fun (p : Nat × Slice) => (p.1, { p.2 with store := p.2.store.zero ps }) }

/-- Nothing of a virtual function is under way. -/
def State.idleVf (s : State) (v : Vf) : Bool :=
  s.residents.all (fun p => p.2.vf != v.cfg.id) && s.reqs.all (fun q => q.vf != v.cfg.id) &&
    s.cores.all (fun c => (c.2.copyQ ++ c.2.copyRun ++ c.2.copyFault).all fun q => q.vf != v.cfg.id) &&
    (match v.cfg.hingeSlot with | some n => !s.slotRuns n | none => true)

/-- Reads kept for a node of a virtual function's graphs, for its text, a kernel of its objects, its handler image. -/
def State.cpWork (s : State) (vf : Nat) : Errand → Bool
  | .node g _ => (s.graph? g).any fun x => x.vf == vf
  | .text v _ | .image v => v == vf
  | .kernel o _ => (s.vf? vf).any fun v => v.objects.any fun x => x.id == o
  | _ => false

/-- What a virtual function left in caches and tables removed. When events of its slot were last posted stays known (R50), and an invalidate
under way still completes (R72, R309). -/
def State.forgetVf (s : State) (v : Vf) : State :=
  let id := v.cfg.id
  let s := match v.cfg.hingeSlot with
    | some n =>
      { s.clearSlot n with
        slices := (s.clearSlot n).slices.map fun (p : Nat × Slice) => (p.1, p.2.modSlot n fun h => { HingeSlot.reset with posted := h.posted }) }
    | none => s
  { s with
    vfs := s.vfs.filter fun x => x.cfg.id != id
    grids := s.grids.filter fun g => g.vf != id
    graphs := s.graphs.filter fun g => g.vf != id
    msgs := s.msgs.filter fun m => m.vf != id
    replicaMsgs := s.replicaMsgs.filter fun m => m.replica.vf != id
    grants := s.grants.filter fun g => g.own != id
    quanta := s.quanta.filter fun q => q.2.1 != id
    cores := s.cores.map fun (p : Nat × Core) =>
      (p.1, { p.2 with tlb := p.2.tlb.filter fun e => e.vf != id, ic := p.2.ic.filter fun l => l.vf != id,
                       desc := p.2.desc.filter fun d => d.vf != id, fetches := p.2.fetches.filter fun f => !s.cpWork id f.key })
    slices := s.slices.map fun (p : Nat × Slice) =>
      (p.1, { p.2 with tlb := p.2.tlb.filter fun e => e.vf != id, replicas := p.2.replicas.filter fun r => r.vf != id }) }

/-- A virtual function leaves: nothing of it starts, and its teams are asked to stop; to migrate, they quiesce (R313). -/
def State.leave (s : State) (vf : Nat) (drain : Bool) : State :=
  let ts := s.residents.filter fun p => p.2.vf == vf
  let s := (s.modVf vf fun v => { v with leaving := true, movedOut := false }).stopTeams ts
  if drain then ts.foldl (fun s p => s.modTeam p.1 p.2.id fun t => { t with quiescing := true }) s else s

/-- DESTROY_VF (R309): its teams are pre-empted and discarded, its memory is zeroed. -/
def execDestroyVf (vf : Nat) (s : State) : Answered :=
  match s.vf? vf with
  | none => .next (s.status "DESTROY_VF" vf "REFUSED" 0).bump
  | some v =>
    if !v.dying || !s.idleVf v then .next ((s.leave vf false).modVf vf fun v => { v with dying := true }).bump
    else .next (((s.zeroPages (rangesOf v.cfg)).forgetVf v).status "DESTROY_VF" vf "OK" 0).bump

/-! ## Service, graphs, counters -/

/-- RESUME_VF (R35). -/
def execResumeVf (vf : Nat) (s : State) : Answered :=
  if (s.vf? vf).any (·.stopped) then .next ((s.modVf vf fun v => { v with stopped := false }).status "RESUME_VF" vf "OK" 0).bump
  else .next (s.status "RESUME_VF" vf "REFUSED" 0).bump

/-- SUBMIT_GRAPH (R256, R257): its root nodes start. -/
def execSubmitGraph (vf base nodes : Nat) (roots : List Nat) (s : State) : Answered :=
  match s.vf? vf with
  | none => .next (s.status "SUBMIT_GRAPH" vf "REFUSED" 0).bump
  | some v =>
    if v.stopped then .next (s.status "SUBMIT_GRAPH" vf "VF_STOPPED" 0).bump
    else
      let i := s.takeId
      let g : Graph := { id := i.1, vf := vf, base := base, nodes := min nodes 65535, arriving := [], arrivals := [], passes := [],
                         starts := roots.map fun n => (n, none), evals := [], stopped := false }
      .next (({ i.2 with graphs := i.2.graphs ++ [g] } : State).status "SUBMIT_GRAPH" vf "OK" i.1).bump

/-- The counters of a slot at a slice (R51). -/
def HingeSlot.counters (h : HingeSlot) : List Byte :=
  bytesOfNat 4 h.hrun ++ bytesOfNat 4 h.hover ++ bytesOfNat 4 h.hdrop ++ bytesOfNat 4 h.hfault

/-- READ_COUNTERS (R51): the hinge counter block copied to a host buffer. -/
def execReadCounters (vf buf : Nat) (s : State) : Answered :=
  match (s.vf? vf).bind fun v => v.cfg.hingeSlot with
  | none => .next (s.status "READ_COUNTERS" vf "REFUSED" 0).bump
  | some slot =>
    let b := (List.range 256).flatMap fun n => ((s.slice n).slot slot).counters
    .next ((s.writeHost vf buf b).status "READ_COUNTERS" vf "OK" 0).bump

/-! ## Migration (R313, R314) -/

/-- MIGRATE_OUT (R313): nothing more is placed, every team is saved, every event and fault record posted. A function that is being destroyed
does not migrate (log entry 38). -/
def execMigrateOut (vf : Nat) (s : State) : Answered :=
  match s.vf? vf with
  | none => .next (s.status "MIGRATE_OUT" vf "REFUSED" 0).bump
  | some v =>
    if v.dying then .next (s.status "MIGRATE_OUT" vf "REFUSED" 0).bump
    else if v.movedOut then .next (s.status "MIGRATE_OUT" vf "OK" 0).bump
    else if !v.leaving || !s.idleVf v || v.waits.any fun w => !w.posted then .next (s.leave vf true).bump
    else .next ((s.modVf vf fun v => { v with movedOut := true }).status "MIGRATE_OUT" vf "OK" 0).bump

/-- The ranges that a function's memory may move to: where it lies now, or memory that nobody has (R311). -/
def State.memoryFree (s : State) (v : Vf) (c : VfConfig) : Bool :=
  c.memory == v.cfg.memory ||
    ((c.memory.map (·.2)).foldl (· + ·) 0 == c.memMiB && rangesOk (rangesOf c ++ s.vfs.flatMap fun x => rangesOf x.cfg))

/-- The destination presents every contract word and every value of R311: cores as many as the source's, and as much memory, be it in other
places. -/
def State.presents (s : State) (v : Vf) (c : VfConfig) : Bool :=
  { c with cores := v.cfg.cores, root := v.cfg.root, memory := v.cfg.memory } == v.cfg && c.cores.length == v.cfg.cores.length &&
    rising 192 c.cores && s.memoryFree v c &&
    (s.vfs.filter fun x => x.cfg.id != v.cfg.id).all (fun x => coresApart c x.cfg) &&
    State.windowsFit { s with vfs := s.vfs.filter fun x => x.cfg.id != v.cfg.id } c

/-- Completion times are 0 after a migration (R313): every write has completed. -/
def Split.settled (p : Split) : Split :=
  { p with
    lct := 0, arrivals := p.arrivals.map fun a => { a with lct := 0 }
    park := match p.park with | .fence sc o _ => .fence sc o 0 | x => x }

def Team.settled (t : Team) : Team :=
  { t with latches := t.latches.map fun l => { l with largest := 0 },
           groups := t.groups.map fun g => { g with splits := g.splits.map Split.settled } }

/-- A home's lines of pages written to DRAM. -/
def HomeStore.flush (h : HomeStore) (ps : List (Nat × Nat)) (dram : Memory) : Memory :=
  (h.lines.filter fun l => l.dirty && inPages ps (128 * l.line)).foldl (fun (m : Memory) (l : Line) => m.writeBytes (128 * l.line) l.data) dram

/-- What the homes hold of pages newer than DRAM, and the pinned windows, written back and dropped. -/
def State.flushPages (s : State) (ps : List (Nat × Nat)) : State :=
  let dram := s.cores.foldl (fun (m : Memory) (p : Nat × Core) => p.2.window.flush ps m) s.dram
  let dram := s.slices.foldl (fun (m : Memory) (p : Nat × Slice) => p.2.store.flush ps m) dram
  let drop := fun (h : HomeStore) => { h with lines := h.lines.filter fun l => !inPages ps (128 * l.line) }
  { s with
    dram := dram
    cores := s.cores.map fun (p : Nat × Core) => (p.1, { p.2 with window := drop p.2.window })
    slices := s.slices.map fun (p : Nat × Slice) => (p.1, { p.2 with store := drop p.2.store }) }

/-- Where the byte at an address of ranges lies in others of the same size, taken one after another. -/
def relocate : (old new : List (Nat × Nat)) → Nat → Nat
  | old, new, a => (placeAt new (offsetIn old a)).getD a
where
  offsetIn : List (Nat × Nat) → Nat → Option Nat
    | [], _ => none
    | (b, n) :: r, a => if b ≤ a && a < b + n then some (a - b) else (offsetIn r a).map (n + ·)
  placeAt : List (Nat × Nat) → Option Nat → Option Nat
    | _, none => none
    | [], _ => none
    | (b, n) :: r, some k => if k < n then some (b + k) else placeAt r (some (k - n))

/-- The page-table entries below a table that name memory which moves, with the addresses where they lie then, rewritten (R313). -/
def State.movedTables (s : State) (move : Nat → Nat) : (fuel : Nat) → (table : Nat) → List (Nat × List Byte)
  | 0, _ => []
  | n + 1, table =>
    ((List.range 1024).map fun i => table + 8 * i).flatMap fun a =>
      let e := natOfBytes (s.valueAt (.slice (homeSlice a)) a 8)
      if !pteV e || pteDev e ≠ s.devNumber then []
      else
        let e' := e - pteBase e * 2 ^ 4 + move (pteBase e) / 2 ^ 16 * 2 ^ 20
        (if e' = e then [] else [(move a, bytesOfNat 8 e')]) ++ if pteLeaf e then [] else s.movedTables move n (pteBase e)

/-- A function's memory moved to other ranges: its bytes, its sectors that hold no value, and the tables that lie in it (R313); what it leaves
is zero, and no copy of either place stays in a cache. -/
def State.moveMemory (s : State) (root : Nat) (old new : List (Nat × Nat)) : State :=
  if old == new then s
  else
    let s := s.flushPages old
    let move := relocate old new
    let bytes := (s.dram.filter fun p => inPages old p.1).map fun p => (move p.1, p.2)
    let lost := (s.flaws ++ s.cores.flatMap (fun p => p.2.window.lost) ++ s.slices.flatMap fun p => p.2.store.lost).filter fun x => inPages old (32 * x)
    let tables := s.movedTables move 4 root
    let s := s.zeroPages (old ++ new)
    State.physWrites { s with dram := s.dram.writeAll bytes, flaws := s.flaws ++ (lost.map fun x => move (32 * x) / 32).eraseDups } tables

/-- What the destination has not: cached translations, text and descriptors, and replicas (R313: a load returns no value older than a
store completed before the move). -/
def State.emptyCaches (s : State) (vf : Nat) : State :=
  { s with
    replicaMsgs := s.replicaMsgs.filter fun m => m.replica.vf != vf
    cores := s.cores.map fun (p : Nat × Core) =>
      (p.1, { p.2 with tlb := p.2.tlb.filter fun e => e.vf != vf, ic := p.2.ic.filter fun l => l.vf != vf,
                       desc := p.2.desc.filter fun d => d.vf != vf, l1 := p.2.l1.filter fun x => !x.repl })
    slices := s.slices.map fun (p : Nat × Slice) =>
      (p.1, { p.2 with tlb := p.2.tlb.filter fun e => e.vf != vf, replicas := p.2.replicas.filter fun r => r.vf != vf }) }

/-- An object whose memory has moved. -/
def CodeObject.moved (o : CodeObject) (move : Nat → Nat) : CodeObject :=
  { o with area := move o.area
           plan := { o.plan with textPa := move o.plan.textPa, dataPa := move o.plan.dataPa, roPa := move o.plan.roPa } }

/-- The virtual function on its new cores (R313, R314): images are selected again, completion times are 0, device time goes on from above
the last value read on any die. -/
def Vf.moved (v : Vf) (s : State) (cfg : VfConfig) (offset : Nat) : Vf :=
  { v with cfg := cfg, leaving := false, movedOut := false, offset := max offset (v.offset + 2), repGen := 0,
           saved := v.saved.map fun x => { x with team := x.team.settled },
           objects := v.objects.map fun o =>
             { o.moved (relocate (rangesOf v.cfg) (rangesOf cfg)) with pick := o.pick.map fun _ => s.selection { v with cfg := cfg } o } }

/-- MIGRATE_IN (R313, R314), once MIGRATE_OUT has completed: on a destination that cannot present what the contract promises it completes
REFUSED, and the function goes on where it was. -/
def execMigrateIn (vf : Nat) (offered : VfConfig) (offset root : Nat) (s : State) : Answered :=
  match s.vf? vf with
  | none => .next (s.status "MIGRATE_IN" vf "REFUSED" 0).bump
  | some v =>
    if !v.movedOut then .next (s.status "MIGRATE_IN" vf "REFUSED" 0).bump
    else if !s.presents v offered then
      .next ((s.modVf vf fun v => { v with leaving := false, movedOut := false }).status "MIGRATE_IN" vf "REFUSED" 0).bump
    else
      let cfg := { v.cfg with cores := offered.cores, root := root, memory := offered.memory }
      let t := (((s.flushPages (rangesOf v.cfg)).moveMemory v.cfg.root (rangesOf v.cfg) (rangesOf cfg)).emptyCaches vf).modVf vf fun v => v.moved s cfg offset
      .next (({ t with quanta := t.quanta.filter fun q => q.2.1 != vf } : State).status "MIGRATE_IN" vf "OK" 0).bump

end Sys2Proof.Machine
end

