-- ==== Sys2Proof/Machine/Hinge.lean ====
section
/-!
DEFINITION. The hinge core's instructions (03 R36, R37, R45 to R49, R326): RV64IMAC with Zicsr over the slot's windows, the Xhinge
line operations, dispatch, overruns, and messages (R39, R41, R43). The encodings and effects of the RISC-V instructions are those of
the RISC-V ISA (log entry 8).
-/
namespace Sys2Proof.Machine

/-! ## The running handler -/

/-- What an instruction of a handler runs in: the slice, the handler, its slot. -/
structure HCtx where
  s : State
  n : Nat
  run : HingeRun
  slot : HingeSlot

/-- What an instruction of a handler does: it aborts (R49), it waits for its line operation, it is tried again, in this slice cycle (`now`)
or in the next tick, it is done at a cost in slice cycles, or it ends the handler. -/
inductive HAct where
  | abort (s : State) (reason : Nat)
  | wait (s : State) (h : HingeRun)
  | again (s : State) (now : Bool)
  | done (s : State) (rd : BitVec 5) (x : DWord) (pc cost : Nat)
  | finish (s : State)

/-- The handler in focus; none where the focus names no slice with one. -/
def State.handler? (s : State) : Option HCtx :=
  match s.focus with
  | .slice n => (s.slice n).run.map fun h => { s := s, n := n, run := h, slot := (s.slice n).slot h.slot }
  | _ => none

/-- A register of the hinge core; x0 reads as 0. -/
def HingeRun.x? (h : HingeRun) (r : BitVec 5) : DWord := if r = 0 then 0 else getKey 0 h.x r.toNat

def HCtx.reg (c : HCtx) (r : BitVec 5) : DWord := c.run.x? r

/-- A register written; a write to x0 is discarded. -/
def HingeRun.put (h : HingeRun) (r : BitVec 5) (v : DWord) : HingeRun := if r = 0 then h else { h with x := setKey h.x r.toNat v }

/-- The budget of the running handler (R48). -/
def HCtx.budget (c : HCtx) : Nat := c.slot.budget c.run.trigger.kind

/-- The handler of a slice changed. -/
def State.setRun (s : State) (n : Nat) (h : Option HingeRun) : State := s.modSlice n fun x => { x with run := h }

/-- The handler of a slice ends in a slice cycle, counted from the start of device time. R326 gives hl.done no cost: the next handler may be
dispatched from the slice cycle after it (DESIGN CHOICE, log entry 71). -/
def State.endHandler (s : State) (n at_ : Nat) : State :=
  (s.forget (hingeCore n) (.hinge n)).modSlice n fun x => { x with run := none, freeAt := at_ + 1 }

/-- The state after an instruction of a handler. -/
def HCtx.finish (c : HCtx) (a : HAct) : State :=
  match a with
  | .abort s reason => s.abortHandler c.n reason
  | .wait s h => s.setRun c.n (some { h with waits := true })
  | .again s now =>
    s.setRun c.n (some (if now then c.run else { c.run with cycle := max c.run.cycle (2 * (c.s.time + 1) - c.run.start) }))
  | .finish s => s.endHandler c.n (c.run.start + c.run.cycle)
  | .done s rd x pc cost =>
    let h := ((s.slice c.n).run.getD c.run).put rd x
    (s.forget (hingeCore c.n) (.hinge c.n)).setRun c.n
      (some { h with pc := pc % 2 ^ 64, cycle := h.cycle + cost, instret := h.instret + 1, op := none, waits := false })

/-- The meaning of an instruction of a handler with a body. -/
def hinge (s : State) (body : HCtx → HAct) : Answered :=
  match s.handler? with
  | none => .fault .noHandler
  | some c => .next (c.finish (body c)).bump

/-- The instruction is done, and the next follows it. -/
def HCtx.ok (c : HCtx) (s : State) (rd : BitVec 5) (x : DWord) (cost : Nat) : HAct := .done s rd x (c.run.pc + 4) cost

/-! ## Local windows (R36) -/

/-- The slot's data window. -/
def HCtx.dataBase (c : HCtx) : Nat := 0x20000 + 0x1000 * c.run.slot

/-- A place of n bytes in the data window. -/
def HCtx.inData (c : HCtx) (a n : Nat) : Option Nat :=
  if c.dataBase ≤ a && a + n ≤ c.dataBase + 0x1000 then some (a - c.dataBase) else none

/-- A load from the data window or the message buffer. -/
def HCtx.localLoad (c : HCtx) (a n : Nat) : Option Nat :=
  match c.inData a n with
  | some o => some (natOfBytes (c.slot.data.readBytes o n))
  | none => if 0x30000 ≤ a && a + n ≤ 0x30020 then some (natOfBytes ((c.run.trigger.body.drop (a - 0x30000)).take n)) else none

/-- A store to the data window. -/
def HCtx.localStore (c : HCtx) (o n v : Nat) : State :=
  c.s.modSlice c.n fun x => x.modSlot c.run.slot fun h => { h with data := h.data.writeBytes o (bytesOfNat n v) }

/-! ## Integer instructions (RV64IM) -/

/-- A 32-bit result, sign-extended. -/
def sext32 (v : Nat) : DWord := BitVec.ofInt 64 (signedOf v 32)

def rvAlu (op : RvAlu) (a b : DWord) : DWord :=
  match op with
  | .add => a + b
  | .sub => a - b
  | .sll => a <<< (b.toNat % 64)
  | .slt => if a.toInt < b.toInt then 1 else 0
  | .sltu => if a.toNat < b.toNat then 1 else 0
  | .xor => a ^^^ b
  | .srl => a >>> (b.toNat % 64)
  | .sra => a.sshiftRight (b.toNat % 64)
  | .or => a ||| b
  | .and => a &&& b

def rvAluW (op : RvAluW) (a b : DWord) : DWord :=
  let x : Word := BitVec.ofNat 32 a.toNat
  let y : Word := BitVec.ofNat 32 b.toNat
  sext32 (match op with
    | .addw => x + y
    | .subw => x - y
    | .sllw => x <<< (y.toNat % 32)
    | .srlw => x >>> (y.toNat % 32)
    | .sraw => x.sshiftRight (y.toNat % 32)).toNat

/-- Signed division that rounds toward zero; by zero it gives −1, and the most negative number by −1 itself. -/
def rvDiv (w : Nat) (a b : Int) : Int := if b = 0 then -1 else if a = -(2 ^ (w - 1) : Int) ∧ b = -1 then a else a.tdiv b

/-- The remainder, with the dividend's sign; by zero the dividend. -/
def rvRem (w : Nat) (a b : Int) : Int := if b = 0 then a else if a = -(2 ^ (w - 1) : Int) ∧ b = -1 then 0 else a.tmod b

def rvDivU (w a b : Nat) : Nat := if b = 0 then 2 ^ w - 1 else a / b

def rvRemU (a b : Nat) : Nat := if b = 0 then a else a % b

def rvMul (op : RvMul) (a b : DWord) : DWord :=
  let x := a.toNat % 2 ^ 32
  let y := b.toNat % 2 ^ 32
  match op with
  | .mul => a * b
  | .mulh => BitVec.ofInt 64 (a.toInt * b.toInt / 2 ^ 64)
  | .mulhsu => BitVec.ofInt 64 (a.toInt * b.toNat / 2 ^ 64)
  | .mulhu => BitVec.ofNat 64 (a.toNat * b.toNat / 2 ^ 64)
  | .div => BitVec.ofInt 64 (rvDiv 64 a.toInt b.toInt)
  | .divu => BitVec.ofNat 64 (rvDivU 64 a.toNat b.toNat)
  | .rem => BitVec.ofInt 64 (rvRem 64 a.toInt b.toInt)
  | .remu => BitVec.ofNat 64 (rvRemU a.toNat b.toNat)
  | .mulw => sext32 (x * y)
  | .divw => sext32 (wrapTo (rvDiv 32 (signedOf x 32) (signedOf y 32)) 32)
  | .divuw => sext32 (rvDivU 32 x y)
  | .remw => sext32 (wrapTo (rvRem 32 (signedOf x 32) (signedOf y 32)) 32)
  | .remuw => sext32 (rvRemU x y)

/-- Slice cycles of the M extension (R326). -/
def RvMul_cost (op : RvMul) : Nat :=
  match op with
  | .mul | .mulh | .mulhsu | .mulhu | .mulw => 4
  | _ => 36

def rvTaken (op : RvBranch) (a b : DWord) : Bool :=
  match op with
  | .beq => a == b
  | .bne => a != b
  | .blt => a.toInt < b.toInt
  | .bge => b.toInt ≤ a.toInt
  | .bltu => a.toNat < b.toNat
  | .bgeu => b.toNat ≤ a.toNat

/-- Bytes of a load, and whether it is signed. -/
def rvLoadSize : RvLoad → Nat × Bool
  | .lb => (1, true)
  | .lh => (2, true)
  | .lw => (4, true)
  | .ld => (8, false)
  | .lbu => (1, false)
  | .lhu => (2, false)
  | .lwu => (4, false)

def rvStoreSize : RvStore → Nat
  | .sb => 1
  | .sh => 2
  | .sw => 4
  | .sd => 8

/-- What an atomic of the A extension stores. -/
def rvAmoNew (op : RvAmo) (w old x : Nat) : Nat :=
  match op with
  | .swap => x
  | .add => (old + x) % 2 ^ w
  | .xor => old.xor x
  | .and => old &&& x
  | .or => old ||| x
  | .min => if signedOf x w < signedOf old w then x else old
  | .max => if signedOf old w < signedOf x w then x else old
  | .minu => min old x
  | .maxu => max old x

/-- A value of 32 bits, sign-extended, or of 64. -/
def rvWide (wide : Bool) (v : Nat) : DWord := if wide then BitVec.ofNat 64 v else sext32 v

/-- The CSRs a handler may read (R37, R314: the time carries the virtual function's offset). -/
def HCtx.csr (c : HCtx) (n : Nat) : Option Nat :=
  match n with
  | 0xC00 => some c.run.cycle
  | 0xC01 => some (c.s.sliceTime c.n + ((c.s.vf? c.slot.vf).map (·.offset)).getD 0)
  | 0xC02 => some c.run.instret
  | 0xCC0 => some c.slot.hrun
  | 0xCC1 => some c.slot.hover
  | 0xCC2 => some c.slot.hdrop
  | 0xCC3 => some c.slot.hfault
  | 0xCC4 => some c.slot.control
  | _ => none

/-- An address from a register and a signed offset. -/
def HCtx.addr (c : HCtx) (rs1 : BitVec 5) (imm : BitVec 12) : Nat := (c.reg rs1 + imm.signExtend 64).toNat

/-- An atomic of the A extension on the data window; elsewhere reason WINDOW. -/
def HCtx.atomic (c : HCtx) (wide : Bool) (rd rs1 : BitVec 5) (next : Nat) (new : Nat → Nat) : HAct :=
  let n := if wide then 8 else 4
  match c.inData (c.reg rs1).toNat n with
  | none => .abort c.s 2
  | some o =>
    let old := natOfBytes (c.slot.data.readBytes o n)
    .done (c.localStore o n (new old)) rd (rvWide wide old) next 4

/-- An ordinary instruction of `len` bytes, at its cost (R326). FENCE, which the table of costs does not list, takes 1 slice cycle, and LR, an
A-extension operation, reaches the data window alone: from the message buffer it aborts with WINDOW (DESIGN CHOICE, log entry 67). -/
def HCtx.riscv (c : HCtx) (len : Nat) (r : Rv) : HAct :=
  let next := c.run.pc + len
  let rel := fun (imm : Int) => wrapTo ((c.run.pc : Int) + imm) 64
  let link := BitVec.ofNat 64 next
  match r with
  | .lui rd imm => .done c.s rd (sext32 (imm.toNat * 4096)) next 1
  | .auipc rd imm => .done c.s rd (BitVec.ofNat 64 c.run.pc + sext32 (imm.toNat * 4096)) next 1
  | .jal rd imm => .done c.s rd link (rel imm.toInt) 2
  | .jalr rd rs1 imm => .done c.s rd link (c.addr rs1 imm / 2 * 2) 2
  | .branch op rs1 rs2 imm =>
    if rvTaken op (c.reg rs1) (c.reg rs2) then .done c.s 0 0 (rel imm.toInt) 2 else .done c.s 0 0 next 1
  | .load op rd rs1 imm =>
    match c.localLoad (c.addr rs1 imm) (rvLoadSize op).1 with
    | none => .abort c.s 2
    | some v =>
      .done c.s rd (if (rvLoadSize op).2 then BitVec.ofInt 64 (signedOf v (8 * (rvLoadSize op).1)) else BitVec.ofNat 64 v) next 2
  | .store op rs1 rs2 imm =>
    match c.inData (c.addr rs1 imm) (rvStoreSize op) with
    | none => .abort c.s 2
    | some o => .done (c.localStore o (rvStoreSize op) (c.reg rs2).toNat) 0 0 next 2
  | .aluImm op rd rs1 imm => .done c.s rd (rvAlu op (c.reg rs1) (imm.signExtend 64)) next 1
  | .alu op rd rs1 rs2 => .done c.s rd (rvAlu op (c.reg rs1) (c.reg rs2)) next 1
  | .aluImmW op rd rs1 imm => .done c.s rd (rvAluW op (c.reg rs1) (imm.signExtend 64)) next 1
  | .aluW op rd rs1 rs2 => .done c.s rd (rvAluW op (c.reg rs1) (c.reg rs2)) next 1
  | .mul op rd rs1 rs2 => .done c.s rd (rvMul op (c.reg rs1) (c.reg rs2)) next (RvMul_cost op)
  | .fence => .done c.s 0 0 next 1
  | .csr op _ rd src num =>
    if op == .rw || src != 0 then .abort c.s 1
    else
      match c.csr num.toNat with
      | none => .abort c.s 1
      | some v => .done c.s rd (BitVec.ofNat 64 v) next 1
  | .lr wide rd rs1 =>
    let n := if wide then 8 else 4
    match c.inData (c.reg rs1).toNat n with
    | none => .abort c.s 2
    | some o =>
      .done (c.s.setRun c.n (some { c.run with reserve := some (c.reg rs1).toNat })) rd
        (rvWide wide (natOfBytes (c.slot.data.readBytes o n))) next 4
  | .sc wide rd rs1 rs2 =>
    let n := if wide then 8 else 4
    let a := (c.reg rs1).toNat
    match c.inData a n with
    | none => .abort c.s 2
    | some o =>
      let hit := c.run.reserve == some a
      let s := if hit then c.localStore o n (c.reg rs2).toNat else c.s
      .done (s.setRun c.n (some { c.run with reserve := none })) rd (if hit then 0 else 1) next 4
  | .amo op wide rd rs1 rs2 =>
    c.atomic wide rd rs1 next fun old => rvAmoNew op (if wide then 64 else 32) old ((c.reg rs2).toNat % 2 ^ (if wide then 64 else 32))
  | .illegal => .abort c.s 1

/-- HINGE_RISCV_INSTRUCTION (R36, R37, R326). -/
def execHingeRiscvInstruction (len : Nat) (r : Rv) (s : State) : Answered := hinge s fun c => c.riscv len r

/-! ## Xhinge line operations (R46, R47) -/

/-- The grid that a handler's line operations belong to: none. -/
def noGrid : Nat := 2 ^ 64

/-- The handler as the owner of its line operations. -/
def hingeOwner (n : Nat) : SplitRef := { core := hingeCore n, team := 0, grp := 0, split := 0 }

/-- What checking a line operation finds: a reason to abort (R49), a page-table entry that has yet to be read, or the translation. -/
inductive Checked where
  | bad (reason : Nat)
  | walk (pa : Nat)
  | ok (v : Vf) (x : Xlated)

/-- The reason of a translation that fails. -/
def reasonOf : FaultKind → Nat
  | .pageFault => 4
  | .memoryError => 6
  | _ => 3

/-- Checks of a line operation (R46) in their order: translation through the slice TLB or a walk (R44), ownership and permission,
alignment. -/
def HCtx.check (c : HCtx) (va : Nat) (perm : PageInfo → Bool) (align : Nat) : Checked :=
  match c.s.vf? c.slot.vf with
  | none => .bad 4
  | some v =>
    match c.s.translate (c.s.slice c.n).tlb ((c.s.core (hingeCore c.n)).answers (.hinge c.n)) v.cfg va .none with
    | .error (.fault k) => .bad (reasonOf k)
    | .error (.walk pa) => .walk pa
    | .ok x =>
      if x.home.away || !x.page.hv || !perm x.page then .bad 3
      else if va % align ≠ 0 then .bad 5
      else .ok v x

/-- The line's home is this slice (R25, R28). -/
def HCtx.here (c : HCtx) (x : Xlated) : Bool := x.home == .slice c.n || x.home == .direct c.n

/-- An entry that a handler has asked for is read at its home in its order, and taken where it has come (log entry 16). -/
def State.takeEntry (s : State) (n id : Nat) : State :=
  let s := s.serve id
  match s.req? id with
  | some q => if q.done then { s with reqs := s.reqs.filter fun x => x.id != id }.keepAnswer (.hinge n) q else s
  | none => s

/-- The entries that the handler of a slice waits for. -/
def State.entriesAsked (s : State) (n : Nat) : List (Nat × Nat) := ((s.core (hingeCore n)).answers (.hinge n)).asked

/-- The instruction is tried again: at once where the entries that it asked for have come, else in the next tick (log entry 16). -/
def HCtx.retry (c : HCtx) (s : State) : HAct :=
  let t := (s.entriesAsked c.n).foldl (fun s p => s.takeEntry c.n p.1) s
  .again t (!(s.entriesAsked c.n).isEmpty && (t.entriesAsked c.n).isEmpty)

/-- An instruction needs a page-table entry (R44): its sector is asked for, where it is not on its way. -/
def HCtx.walks (c : HCtx) (pa : Nat) : HAct :=
  c.retry ((c.s.askPhys (hingeCore c.n) c.slot.vf noGrid (hingeOwner c.n) (.hinge c.n) [pa]).getD c.s)

/-- A line operation as a request: at once at this slice, else a trip away (R265). -/
def HCtx.opReq (c : HCtx) (id : Nat) (v : Vf) (va : Nat) (x : Xlated) (op : LineOp) : Req :=
  let a : Asker :=
    { core := hingeCore c.n, v := v.cfg, grid := noGrid, owner := hingeOwner c.n, key := .hinge c.n, strong := false, hint := 0,
      slice := some c.n, srck := 1, src := c.n }
  a.req id va x (.line op) c.s.time (if c.here x then 0 else 3)

/-- A line operation sent; one whose home is this slice is served at once where nothing makes it wait. -/
def HCtx.send (c : HCtx) (s : State) (v : Vf) (va : Nat) (x : Xlated) (op : LineOp) : Nat × State :=
  let i := s.takeId
  let s := i.2.sendAll [c.opReq i.1 v va x op]
  (i.1, if c.here x then s.serve i.1 else s)

/-- The answer of a line operation is back: the instruction is done. The operation takes 14 slice cycles and what the home and the way
took (R326). -/
def HCtx.took (c : HCtx) (s : State) (q : Req) (rd : BitVec 5) (value : Req → DWord) : HAct :=
  let s := { s with reqs := s.reqs.filter fun x => x.id != q.id }
  if q.failed.isSome then .abort s 6
  else c.ok s rd (value q) (max c.run.cycle (2 * (q.hop + q.trip) - c.run.start) - c.run.cycle + 14)

/-- A line operation, before it has been sent: the checks, the dirty log (R73), the sending; one that is answered at once is done. -/
def HCtx.start (c : HCtx) (va align : Nat) (perm : PageInfo → Bool) (op : LineOp) (rd : BitVec 5) (value : Req → DWord) : HAct :=
  match c.check va perm align with
  | .bad r => .abort c.s r
  | .walk pa => c.walks pa
  | .ok v x =>
    let s := c.s.cacheSlice c.n v.cfg.id [x]
    match (if (ReqKind.line op).writes then s.logWrite (hingeCore c.n) v.cfg.id noGrid (hingeOwner c.n) (.hinge c.n) [x] else .ready) with
    | .full s _ => .abort (s.logFull v.cfg.id 1 c.n (s.sliceTime c.n)) 8
    | .wait s _ => c.retry s
    | .ready =>
      let i := c.send s v va x op
      match i.2.req? i.1 with
      | some q => if q.done && c.here x then c.took i.2 q rd value else .wait i.2 { c.run with op := some i.1 }
      | none => .wait i.2 c.run

/-- A line operation at the line's home, in its order (R31, R46): it is checked and sent, and the instruction is done when its answer is
back (R265). Nothing is checked again once it has been sent (R48). -/
def HCtx.line (c : HCtx) (va align : Nat) (perm : PageInfo → Bool) (op : LineOp) (rd : BitVec 5) (value : Req → DWord) : HAct :=
  match c.run.op.bind c.s.req? with
  | some q => if q.done && q.hop + q.trip ≤ c.s.time then c.took c.s q rd value else .wait c.s c.run
  | none => if c.run.op.isSome then .wait c.s c.run else c.start va align perm op rd value

/-- hl.ld of a line in the snapshot of the running EVICT (R40). -/
def HCtx.snapshot (c : HCtx) (va : Nat) : Option (List Byte) :=
  if c.run.trigger.kind == .evict && va / 128 * 128 = c.run.trigger.a1 then c.run.trigger.snap else none

/-- The 8 bytes that a load brings. -/
def Req.dword (q : Req) : DWord := BitVec.ofNat 64 (natOfBytes ((q.data.drop (q.va % 32)).take 8))

/-- HL_LD (R47). A load from the snapshot asks no home and takes 14 slice cycles (log entry 16). -/
def execHlLd (rd rs1 : BitVec 5) (imm : BitVec 12) (s : State) : Answered :=
  hinge s fun c =>
    let va := c.addr rs1 imm
    match c.snapshot va with
    | some b =>
      match c.check va (·.rd) 8 with
      | .bad r => .abort c.s r
      | .walk pa => c.walks pa
      | .ok v x => c.ok (c.s.cacheSlice c.n v.cfg.id [x]) rd (BitVec.ofNat 64 (natOfBytes ((b.drop (va % 128)).take 8))) 14
    | none => c.line va 8 (·.rd) .load rd Req.dword

/-- HL_ST (R47). -/
def execHlSt (rs1 rs2 : BitVec 5) (imm : BitVec 12) (s : State) : Answered :=
  hinge s fun c => c.line (c.addr rs1 imm) 8 (·.wr) (.store (c.reg rs2).toNat) 0 fun _ => 0

/-- HL_ATOMIC (R47). -/
def execHlAtomic (op : HlOp) (rd rs1 rs2 : BitVec 5) (s : State) : Answered :=
  hinge s fun c =>
    c.line (c.reg rs1).toNat 8 (fun p => p.rd && p.wr) (.atomic op (c.reg rs2).toNat (c.reg rd).toNat) rd fun q =>
      ((q.olds.head?).map (·.2)).getD 0

/-- HL_INSTALL (R47): the whole line is written with no read of DRAM and no trigger; its listed sectors are cleared (R35). -/
def execHlInstall (rs1 rs2 : BitVec 5) (s : State) : Answered :=
  hinge s fun c =>
    let va := (c.reg rs1).toNat
    let a := (c.reg rs2).toNat
    if c.run.op.isSome then c.line va 128 (·.wr) (.install []) 0 fun _ => 0
    else
      match c.check va (·.wr) 128 with
      | .bad r => .abort c.s r
      | .walk pa => c.walks pa
      | .ok _ x =>
        if !c.here x then .abort c.s 3
        else
          match (if a % 128 = 0 then c.inData a 128 else none) with
          | none => .abort c.s 2
          | some o => c.line va 128 (·.wr) (.install (c.slot.data.readBytes o 128)) 0 fun _ => 0

/-- The depth of a fill that this handler's hl.pref causes (R42, R324). -/
def HCtx.depth (c : HCtx) : Nat := (if c.run.trigger.kind == .fill then c.run.trigger.a4 else 0) + 1

/-- HL_PREF (R47): it never aborts, and is done when its request is sent. -/
def execHlPref (rs1 : BitVec 5) (s : State) : Answered :=
  hinge s fun c =>
    let va := (c.reg rs1).toNat
    match c.check va (·.rd) 1 with
    | .bad _ => c.ok c.s 0 0 9
    | .walk pa => c.walks pa
    | .ok v x => c.ok (c.send (c.s.cacheSlice c.n v.cfg.id [x]) v va x (.pref c.depth)).2 0 0 9

/-- HL_MSG (R47): a message to a pinned window, or with messages disabled (R240), is discarded without count. -/
def execHlMsg (rs1 rs2 : BitVec 5) (s : State) : Answered :=
  hinge s fun c =>
    let a := (c.reg rs1).toNat
    let va := (c.reg rs2).toNat
    match (if a % 32 = 0 then c.inData a 32 else none) with
    | none => .abort c.s 2
    | some o =>
      match c.check va (fun _ => true) 1 with
      | .bad r => .abort c.s r
      | .walk pa => c.walks pa
      | .ok v x =>
        let s := c.s.cacheSlice c.n v.cfg.id [x]
        match x.home with
        | .slice n =>
          if !v.cfg.features.getLsbD 2 then c.ok s 0 0 9
          else
            let i := s.takeId
            let m : Message := { id := i.1, owner := none, slice := n, vf := v.cfg.id, va := va, hv := true, sender := 0x1000 + c.n,
                                 body := c.slot.data.readBytes o 32, hop := s.time }
            c.ok { i.2 with msgs := i.2.msgs ++ [m] } 0 0 9
        | _ => c.ok s 0 0 9

/-- HL_BUDGET (R47). -/
def execHlBudget (rd : BitVec 5) (s : State) : Answered :=
  hinge s fun c => c.ok c.s rd (BitVec.ofNat 64 (c.budget - c.run.cycle)) 1

/-- HL_DONE (R47): the handler ends, and with it its snapshot. -/
def execHlDone (s : State) : Answered := hinge s fun c => .finish c.s

/-! ## Dispatch, overrun, messages -/

/-- The handler of a trigger at its dispatch in a slice cycle (R43). -/
def HingeRun.fresh (h : HingeSlot) (t : Trigger) (start : Nat) : HingeRun :=
  let data := 0x20000 + 0x1000 * t.slot
  let set := [(2, data + 0x1000), (10, t.kind.code), (11, t.a1 % 2 ^ 56), (12, data), (13, if t.kind == .msg then 0x30000 else 0), (14, t.a4)]
  { slot := t.slot, trigger := t, x := set.map fun p => (p.1, BitVec.ofNat 64 p.2), pc := 0x10000 + 0x2000 * t.slot + h.entry,
    cycle := 0, instret := 0, reserve := none, start := start, op := none, waits := false }

/-- The slice cycle in which the next handler starts (R326): its trigger has been raised, and no handler runs. -/
def Slice.nextStart (c : Slice) : Nat := max ((c.queue.head?.map (·.at_)).getD 0) c.freeAt

/-- A handler is to be dispatched in this tick: no handler runs, and a trigger waits (R326). -/
def State.dispatchDue (s : State) (n : Nat) : Bool :=
  let c := s.slice n
  c.run.isNone && !c.queue.isEmpty && c.nextStart / 2 ≤ s.time

/-- HANDLER_DISPATCH (R41, R43, R326): the head of the queue, when no handler runs, in the slice cycle in which both hold first. -/
def State.dispatch (s : State) (n : Nat) : State :=
  let c := s.slice n
  match c.queue with
  | t :: r =>
    if !s.dispatchDue n then s
    else
      s.modSlice n fun c =>
        { c.modSlot t.slot (fun h => { h with hrun := satInc h.hrun }) with
          queue := r, run := some (.fresh (c.slot t.slot) t c.nextStart) }
  | [] => s

def execHandlerDispatch (slice : Nat) (s : State) : Answered := .next (s.dispatch slice).bump

/-- The slice cycle that a handler has reached, counted from its dispatch: that of its next instruction, or while the instruction at its pc
waits the last of this tick. -/
def State.handlerCycle (s : State) (h : HingeRun) : Nat := if h.waits then max h.cycle (2 * s.time + 1 - h.start) else h.cycle

/-- A handler has reached its budget before hl.done, and the slice cycle in which it does has come (R48). An instruction acts in the cycle in
which it begins (DESIGN CHOICE, log entry 16), and one that waits then is cut short. -/
def State.overruns (s : State) (n : Nat) : Bool :=
  match (s.slice n).run with
  | none => false
  | some h =>
    let budget := ((s.slice n).slot h.slot).budget h.trigger.kind
    s.handlerCycle h ≥ budget && h.start + budget ≤ 2 * s.time + 1

/-- HINGE_OVERRUN (R48): an operation that has been sent completes without it. -/
def execHingeOverrun (slice : Nat) (s : State) : Answered :=
  .next (if s.overruns slice then s.abortHandler slice 7 else s).bump

/-- An instruction of a handler can go on in this tick (R3, R326): its slice cycle has come, and what it waits for. -/
def State.handlerDue (s : State) (n : Nat) : Bool :=
  match (s.slice n).run with
  | none => false
  | some h =>
    s.overruns n ||
      (match h.op with
       | none => h.start + h.cycle ≤ 2 * s.time + 1
       | some id => (s.req? id).any fun q => q.done && q.hop + q.trip ≤ s.time)

/-- Messages of one sender to one slice arrive in the order sent. -/
def Message.before (m x : Message) : Bool :=
  m.slice == x.slice && m.vf == x.vf && m.sender == x.sender && m.owner == x.owner

/-- MESSAGE_ARRIVE (R39): an MSG trigger, or discarded when the slot does not take it. -/
def execMessageArrive (id : Nat) (s : State) : Answered :=
  match s.msgs.find? fun m => m.id == id with
  | none => .next s.bump
  | some m =>
    if s.time < m.hop + 3 || (s.msgs.takeWhile fun x => x.id != id).any (·.before m) then .next s.bump
    else
      let s := { s with msgs := s.msgs.filter fun x => x.id != id }
      match s.triggerSlot m.slice m.vf .msg with
      | none => .next s.bump
      | some slot =>
        .next (s.raiseTrigger m.slice
          { slot := slot, kind := .msg, a1 := m.va / 128 * 128, a4 := m.sender, body := m.body, snap := none, at_ := 0 }).bump

end Sys2Proof.Machine
end

