-- ==== Sys2Proof/Machine/Lanes.lean ====
section
/-!
DEFINITION. Lane instructions of major 0x7 (12 R203).
-/
namespace Sys2Proof.Machine

/-- A[k]: a vector register, or a pair with .B64. -/
def Ctx.laneA (c : Ctx) (b64 : Bool) (k : Nat) : Nat := c.field c.o.a b64 false k

/-- A[k] where lane k executes, or .lv is set, else 0. -/
def Ctx.laneOr0 (c : Ctx) (b64 : Bool) (k : Nat) : Nat := if c.runs k || c.o.lv then c.laneA b64 k else 0

def SegW.size : SegW → Nat
  | .w32 => 32
  | .w16 => 16
  | .w8 => 8
  | .w4 => 4

/-- SHFL (R203). -/
def execShfl (o : Ops) (w : SegW) (b64 : Bool) (s : State) : Answered :=
  issue (.shfl o w b64) s fun c => c.result (if b64 then 64 else 32) fun l =>
    let n := SegW.size w
    c.laneOr0 b64 (n * (l / n) + c.field o.b false false l % n)

/-- LANEBC (R203). -/
def execLanebc (o : Ops) (b64 : Bool) (s : State) : Answered :=
  issue (.lanebc o b64) s fun c => c.result (if b64 then 64 else 32) fun _ => c.laneOr0 b64 (c.field o.b false false 0 % 32)

/-- VOTE (R203). -/
def execVote (o : Ops) (mode : VoteMode) (s : State) : Answered :=
  issue (.vote o mode) s fun c => c.result 32 fun _ =>
    let p := maskOf fun l => c.runs l && c.pred o.a l
    match mode with
    | .all => (p == c.x).toNat
    | .any => (p != 0).toNat
    | .uni => (p == c.x || p == 0).toNat
    | .ballot => p.toNat

/-- MATCH (R203). -/
def execMatch (o : Ops) (b64 : Bool) (s : State) : Answered :=
  issue (.match_ o b64) s fun c => c.result 32 fun l => (maskOf fun k => c.runs k && c.laneA b64 k == c.laneA b64 l).toNat

/-- ELECT (R203): the lowest executing lane. -/
def execElect (o : Ops) (s : State) : Answered :=
  issue (.elect o) s fun c => c.result 32 fun l =>
    let k := (lowestLane c.x).getD 0
    match o.d with
    | .sca _ => k
    | _ => (l == k).toNat

end Sys2Proof.Machine
end

