-- ==== Sys2Proof/Machine/Life.lean ====
section
/-!
DEFINITION. The part's own life: device time (01 R16), power and temperature (R19, 02 R33), errors and spares (R35, 21 R317), starts and the
change to full service (R318, R319).
-/
namespace Sys2Proof.Machine

/-! ## Device time (R16) -/

/-- The ticks for which a level-0 split has been ready without issuing (R255), at the end of a tick: it is ready then, or it has issued in
it. Ticks in which the power controller withholds slots do not count. -/
def Split.wait (p : Split) (ready issued withheld : Bool) : Split :=
  if issued then { p with readyTicks := 0 }
  else if withheld then p
  else { p with readyTicks := if ready && p.level = 0 && !p.promoted then p.readyTicks + 1 else 0 }

/-- The splits of a partition that are ready at the end of a tick: one that has yielded is held back, and so not ready, in a tick in which
another has issued or could (R146). -/
def State.notHeld (s : State) (k p : Nat) : List Candidate :=
  let l := s.candidates k p
  l.filter fun x => !x.yielded || !(((s.core k).part p).picks.any (fun q => q.split != x.r) || l.any fun y => !y.yielded)

/-- The waits of a core's splits at the end of a tick. -/
def State.waitCore (s : State) (k : Nat) (c : Core) : Core :=
  let ready := c.parts.flatMap fun p => (s.notHeld k p.1).map (·.r)
  let issued := c.parts.flatMap fun p => p.2.picks.map (·.split)
  let wait := fun (t : Team) (g : Group) (p : Split) =>
    let r : SplitRef := { core := k, team := t.id, grp := g.grp, split := p.sid }
    p.wait (ready.contains r) (issued.contains r) (s.withhold > 0)
  let group := fun (t : Team) (g : Group) => { g with splits := g.splits.map (wait t g) }
  { c with
    teams := c.teams.map fun (t : Team) => { t with groups := t.groups.map (group t) }
    parts := c.parts.map fun p => (p.1, p.2.tick) }

/-- Something is still to be done in this tick: a pick that fits (R253), an instruction of a handler, a dispatch (R326). -/
def State.tickBusy (s : State) : Bool :=
  s.cores.any (fun c => c.2.parts.any fun p => (s.nextPick c.1 p.1).isSome) ||
    s.slices.any fun c => s.handlerDue c.1 || s.dispatchDue c.1

/-- Device time counts on by one tick. -/
def State.tick (s : State) : State :=
  let t : State := { s with
    time := s.time + 1
    cores := s.cores.map fun (p : Nat × Core) => (p.1, s.waitCore p.1 p.2)
    quanta := s.quanta.map fun (q : Nat × Nat × Nat) =>
      if (s.core q.1).teams.any fun t => t.vf == q.2.1 then (q.1, q.2.1, q.2.2 - 1) else q }
  ({ t with withhold := t.lostSlots }).restoreAnswered.settleDue

/-- DEVICE_TIME_TICK (R16), once everything of this tick has been done: a new tick's slots are free (R254), of which some may be withheld
(R19), a quantum counts resident ticks (R312), groups whose page fault has been answered return (R289), and results due have been written
(R162). -/
def execDeviceTimeTick (s : State) : Answered := .next (if s.tickBusy then s else s.tick).bump

/-! ## Power, temperature, refresh -/

/-- POWER_THROTTLE (R19). -/
def execPowerThrottle (s : State) : Answered := .next ({ s with throttled := true } : State).bump

/-- POWER_THROTTLE_END (R19). -/
def execPowerThrottleEnd (s : State) : Answered := .next ({ s with throttled := false } : State).bump

/-- The refresh interval of a temperature, in nanoseconds (R33). -/
def refreshInterval (celsius : Nat) : Nat := if celsius ≤ 85 then 3900 else if celsius ≤ 95 then 1950 else 980

def State.modDie (s : State) (n : Nat) (f : Die → Die) : State := { s with dies := s.dies.mapIdx fun i d => if i = n then f d else d }

/-- TEMPERATURE_REPORT (R33). -/
def execTemperatureReport (die celsius : Nat) (s : State) : Answered :=
  .next (s.modDie die fun d => { d with celsius := celsius, interval := refreshInterval celsius }).bump

/-- DRAM_REFRESH (R33): results and ordering are unchanged. -/
def execDramRefresh (die : Nat) (s : State) : Answered := .next (s.modDie die fun d => { d with refreshes := d.refreshes + 1 }).bump

/-! ## Errors and spares (R35, R317) -/

/-- LOST_SECTOR_CLEAR (R35 item 4). -/
def execLostSectorClear (home : HomeLoc) (sector : Nat) (s : State) : Answered := .next (s.clearLost home sector).bump

/-- UNIT_MARKED_SUSPECT (R317). -/
def execUnitMarkedSuspect (u : PartUnit) (s : State) : Answered :=
  .next ({ s with suspects := if s.suspects.contains u then s.suspects else s.suspects ++ [u] } : State).bump

/-- A unit of the part wears out (R317): it fails, which the next self-test may find (R318). -/
def State.wear (s : State) (u : PartUnit) : State := { s with defects := if s.defects.contains u then s.defects else s.defects ++ [u] }

/-- Rows of a die that have been replaced. -/
def State.rowsUsed (s : State) (die : Nat) : Nat := (s.replacedRows.filter fun x => x.1 == die).length

/-- ONLINE_ROW_REPLACEMENT (R317, R23): a suspect row of a channel (`channelOf` gives an address's) is replaced at the same channel number
and offset while a spare is left (log entry 78); what memory holds stays. -/
def execOnlineRowReplacement (die channel row : Nat) (s : State) : Answered :=
  let u := PartUnit.dramRow die channel row
  if s.suspects.contains u && s.rowsUsed die < Config.spareRows then
    .next ({ s with suspects := s.suspects.erase u, defects := s.defects.erase u, replacedRows := s.replacedRows ++ [(die, channel, row)] } : State).bump
  else .next s.bump

/-- FABRIC_LANE_RETRAIN (R317): a port has one spare lane (R315). -/
def execFabricLaneRetrain (port lane : Nat) (s : State) : Answered :=
  let u := PartUnit.fabricLane port lane
  if s.suspects.contains u && !s.retrained.any fun p => p.1 == port then
    .next ({ s with suspects := s.suspects.erase u, defects := s.defects.erase u, retrained := s.retrained ++ [(port, lane)] } : State).bump
  else .next s.bump

/-! ## Starts (R318) -/

/-- Suspect core sites, slices, rows, banks and channels of a die, and lanes of a port. -/
def suspectCores (l : List PartUnit) (die : Nat) : List Nat := l.filterMap fun u => match u with | .coreSite d n => if d = die then some n else none | _ => none
def suspectSlices (l : List PartUnit) (die : Nat) : List Nat :=
  l.filterMap fun u => match u with | .sliceSite d n => if d = die then some n else none | _ => none
def suspectRows (l : List PartUnit) (die : Nat) : Nat := (l.filter fun u => match u with | .dramRow d _ _ => d == die | _ => false).length
def suspectBanks (l : List PartUnit) (die : Nat) : Nat := (l.filter fun u => match u with | .dramBank d _ _ => d == die | _ => false).length
def suspectChannels (l : List PartUnit) (die : Nat) : Nat := (l.filter fun u => match u with | .dramChannel d _ => d == die | _ => false).length
def suspectLanes (l : List PartUnit) (port : Nat) : Nat := (l.filter fun u => match u with | .fabricLane p _ => p == port | _ => false).length

/-- A bank or a channel. -/
def dramSwap : PartUnit → Bool
  | .dramBank .. | .dramChannel .. => true
  | _ => false

/-- A die, or a port, whose spares do not suffice (R10 to R12, R315, R317): 4 core sites, 4 slices, 16 channels, the rows and banks it has to
spare, one lane a port. Those in use already count. -/
def State.startFails (s : State) : Bool :=
  ((List.range 4).any fun d =>
    (suspectCores s.suspects d).length > 4 || (suspectSlices s.suspects d).length > 4 ||
      suspectRows s.suspects d + s.rowsUsed d > Config.spareRows ||
      suspectBanks (s.suspects ++ s.dramSpares) d > Config.spareBanks || suspectChannels (s.suspects ++ s.dramSpares) d > 16) ||
    (List.range 32).any fun p => suspectLanes s.suspects p + (s.retrained.filter fun x => x.1 == p).length > 1

/-- The map entries of a die; an empty map is the identity. -/
def mapOf (m : List Nat) (n die : Nat) : List Nat := (List.range n).map fun i => m.getD (n * die + i) i

/-- A map of n logical units a die onto sites that are no suspects, each used once. -/
def mapOk (m : List Nat) (n sites : Nat) (suspect : Nat → List Nat) : Bool :=
  (List.range 4).all fun d =>
    let l := mapOf m n d
    l.all (fun x => x < sites && !(suspect d).contains x) && l.eraseDups.length == n

/-- Suspect sites of a die replaced by the lowest free ones. -/
def substitute (l : List Nat) (sites : Nat) (suspect : List Nat) : List Nat :=
  (List.range l.length).foldl (fun l i =>
    let x := l.getD i 0
    if suspect.contains x then
      match (List.range sites).find? fun y => !suspect.contains y && !l.contains y with
      | some y => l.set i y
      | none => l
    else l) l

/-- The offsets of the dies: D0 has none, the others 0 or 1 (R16). -/
def skewOk (l : List Nat) : Bool := l.length == 4 && l.headD 0 == 0 && l.all (· ≤ 1)

/-- What a start's self-test finds (R318): a full one every failed unit, a quick one some of them (DESIGN CHOICE, log entry 78). -/
def State.selfTest (s : State) (full : Bool) : List PartUnit :=
  (((List.range s.defects.length).zip s.defects).filter fun p => full || s.drawBool 27 p.1).map (·.2)

/-- The units that a self-test has found failed are suspects from then on (R318). -/
def State.found (s : State) (full : Bool) : State :=
  { s with suspects := s.suspects ++ (s.selfTest full).filter fun u => !s.suspects.contains u }

/-- The part after a start: everything as at reset but what outlives one (suspects and failed units, spares in use, the firmware in its store,
the host's memory, the package's number, the model's counters and agenda). A good start brings in banks and channels for suspect ones. -/
def State.started (s : State) (service : Service) (failed : Bool) (skew coreMap sliceMap : List Nat) : State :=
  let swaps := fun (u : PartUnit) => !failed && dramSwap u
  { State.reset with
    skew := skew, service := service, coreMap := coreMap, sliceMap := sliceMap, suspects := s.suspects.filter fun u => !swaps u,
    startFailed := failed, defects := s.defects.filter fun u => !(swaps u && s.suspects.contains u), firmwareOk := s.firmwareOk,
    dramSpares := s.dramSpares ++ s.suspects.filter swaps,
    replacedRows := s.replacedRows, retrained := s.retrained, host := s.host, devNumber := s.devNumber, fresh := s.fresh,
    nextId := s.nextId, agenda := s.agenda }

/-- A failed start: nothing runs, and the next one is cold (R318). -/
def State.startFailure (s : State) : State := s.started .off true s.skew s.coreMap s.sliceMap

/-- The maps avoid every suspect site. -/
def State.mapsOk (s : State) (coreMap sliceMap : List Nat) : Bool :=
  mapOk coreMap 48 52 (suspectCores s.suspects) && mapOk sliceMap 64 68 (suspectSlices s.suspects)

/-- COLD_START (R318): the firmware is verified, the self-test made, the spare map rebuilt. A start fails where the firmware does not verify,
where spares do not suffice (R317), and where the map uses a unit that the self-test has found failed. -/
def execColdStart (reduced : Bool) (skew coreMap sliceMap : List Nat) (s : State) : Answered :=
  let t := s.found true
  if !(skewOk skew && s.mapsOk coreMap sliceMap) && !s.startFails then .next s.bump
  else if !s.firmwareOk then .next s.startFailure.bump
  else if t.startFails || !t.mapsOk coreMap sliceMap then .next t.startFailure.bump
  else .next (t.started (if reduced then .reduced else .full) false skew coreMap sliceMap).bump

/-- WARM_START (R318): the firmware is verified and a quick self-test made; a unit found failed fails it. The spare map is kept, with marked
substitutions applied. After a failed start the next one is cold. -/
def execWarmStart (reduced : Bool) (skew : List Nat) (s : State) : Answered :=
  let t := s.found false
  if s.startFailed || !skewOk skew then .next s.bump
  else if !s.firmwareOk then .next s.startFailure.bump
  else if t.startFails || t.suspects.length > s.suspects.length then .next t.startFailure.bump
  else
    let cores := (List.range 4).flatMap fun d => substitute (mapOf s.coreMap 48 d) 52 (suspectCores s.suspects d)
    let slices := (List.range 4).flatMap fun d => substitute (mapOf s.sliceMap 64 d) 68 (suspectSlices s.suspects d)
    .next (s.started (if reduced then .reduced else .full) false skew cores slices).bump

/-- FULL_SERVICE_CHANGE (R319): every team is pre-empted; then the clocks rise, and the teams resume. -/
def execFullServiceChange (s : State) : Answered :=
  if s.service != .reduced then .next s.bump
  else if s.residents.isEmpty then .next ({ s with service := .full } : State).bump
  else .next (s.stopTeams s.residents).bump

end Sys2Proof.Machine
end

