-- ==== Sys2Proof/Machine/Work.lean ====
section
/-!
DEFINITION. New work from running groups: SPAWN, GGROW, LAUNCH, TRIGGER and SMSG (13 R235 to R238).
-/
namespace Sys2Proof.Machine

/-- SPAWN (R235): plain SPAWN waits for room, behind continuations that could start (R259); .nb tells whether it made the group. -/
def Ctx.spawnAct (nb : Bool) (disp : BitVec 14) (c : Ctx) : Act :=
  match c.codeTarget disp with
  | none => .uniform .illegalOperand
  | some t =>
    let core := c.s.core c.r.core
    if !c.any then .ok c.s
    else if !nb && (!core.roomForGroup c.team || !core.contsReady.isEmpty) then c.parkInstr []
    else
      let made := if core.roomForGroup c.team then core.startGroup c.r.team t allLanes c.split.level fun g => g.withArgs c.group.args else none
      let s := match made with
        | some (k, _) => { c.s with cores := setKey c.s.cores c.r.core k }
        | none => c.s
      if nb then .ok ({ c with s := s }.put 1 fun _ => made.isSome.toNat) else .ok s

/-- SPAWN. -/
def execSpawn (o : Ops) (nb : Bool) (disp : BitVec 14) (s : State) : Answered := issue (.spawn o nb disp) s (Ctx.spawnAct nb disp)

/-- GGROW (R236): one step at the command processor. -/
def execGgrow (o : Ops) (s : State) : Answered :=
  issue (.ggrow o) s fun c =>
    if !c.any then .ok c.s
    else
      let old := c.grid.count
      .ok ({ c with s := c.s.modGrid c.team.grid fun g => { g with count := min (old + c.uniA) g.ceil } }.put 1 fun _ => old)

/-- LAUNCH (R237): after FENCE.dev, while the virtual function holds fewer than 256 unaccepted requests. -/
def Ctx.launchAct (args : Bool) (c : Ctx) : Act :=
  match c.s.graph? c.grid.graph with
  | none => .uniform .illegalOperand
  | some g =>
    if c.uniA ≥ g.nodes then .uniform .illegalOperand
    else if !c.any then .ok c.s
    else
      c.released true fun _ =>
        if c.v.launches.length ≥ 256 then c.parkInstr []
        else
          let a := if args then some c.group.args else none
          .ok (c.s.modVf c.team.vf fun v => { v with launches := v.launches ++ [(c.grid.graph, c.uniA, a)] })

/-- LAUNCH. -/
def execLaunch (o : Ops) (args : Bool) (s : State) : Answered := issue (.launch o args) s (Ctx.launchAct args)

/-- TRIGGER (R237): the group is triggered after FENCE.dev. -/
def Ctx.triggerAct (c : Ctx) : Act :=
  if !c.any then .ok c.s
  else c.released true fun _ => .ok (c.s.modGroup c.r fun g => { g with triggered := true })

/-- TRIGGER. -/
def execTrigger (o : Ops) (s : State) : Answered := issue (.trigger o) s Ctx.triggerAct

/-- The message of one lane, unless it is discarded at once: only a line of a handler-visible page at home 00 or 01 has a slot to go
to (R39, R238). -/
def Ctx.message (c : Ctx) (id : Nat) (e : Elem) : Option Message :=
  match e.x.home with
  | .slice n =>
    if e.x.page.hv then
      some { id := id, owner := some c.r, slice := n, vf := c.team.vf, va := e.va, hv := true, sender := c.v.cfg.coreIndex c.r.core,
             body := (List.range 8).flatMap fun i => bytesOfNat 4 (c.group.vlane (c.o.c.num + i) e.lane).toNat, hop := c.s.time }
    else none
  | _ => none

/-- The check of a lane of SMSG: the address is translated with no permission needed; a remote one, or one in the host window (R310), takes
ACCESS. -/
def Ctx.smsgElem (c : Ctx) (sc : Scale) (disp : Int) (l : Nat) : Except LaneFault Elem :=
  match c.atBase (c.group.breg c.o.a.num) (c.offset sc disp l) false 1 .none l with
  | .error e => .error e
  | .ok e => if e.x.home.away then .error { lane := l, va := e.va, kind := .fault .access } else .ok e

/-- SMSG (R238): a message for each executing lane, each of which takes the memory port (R216). -/
def Ctx.smsgAct (sc : Scale) (disp : Int) (c : Ctx) : Act :=
  match checkLanes (c.smsgElem sc disp) c.lanes with
  | .error e => c.lane e false 0
  | .ok es =>
    let i := (c.port es.length (c.cached es)).takeIds es.length
    let ms := ((List.range es.length).zip es).filterMap fun p => c.message (i.1 + p.1) p.2
    .ok { i.2 with msgs := i.2.msgs ++ ms }

/-- SMSG. -/
def execSmsg (o : Ops) (sc : Scale) (disp : BitVec 13) (s : State) : Answered := issue (.smsg o sc disp) s (Ctx.smsgAct sc disp.toInt)

end Sys2Proof.Machine
end

