-- ==== Sys2Proof/Machine/Parked.lean ====
section
/-!
DEFINITION. Parked instructions that act (13 R217), and those whose own reads hold their issue (05 R69), fences and .rel forms whose
condition has come (12 R208, R212), and promotion (14 R255).
-/
namespace Sys2Proof.Machine

/-- What a parked instruction does once its condition holds: the body it parked in. Instructions that never park do nothing here. -/
def parkedBody : Instr → Ctx → Act
  | .camwait _ => Ctx.camwaitAct
  | .camfree _ tm => Ctx.camfreeAct tm
  | .tstsp _ => Ctx.tstspAct
  | .tldsp _ => Ctx.tldspAct
  | .tdld _ => Ctx.tdldAct
  | .cpy _ x => Ctx.copyAct .cpy x
  | .cpyw _ x => Ctx.copyAct .cpyw x
  | .cpyb _ x ds ss => Ctx.copyAct (.cpyb ds ss) x
  | .ltinit _ => Ctx.ltinitAct
  | .ltexpect _ => Ctx.ltexpectAct
  | .ltarrive _ c => Ctx.ltarriveAct c
  | .ltwait _ => Ctx.ltwaitAct
  | .ltcont _ disp => Ctx.ltcontAct disp
  | .ltreset _ => Ctx.ltresetAct
  | .yield _ _ disp => Ctx.yieldAct disp
  | .join _ op seg disp => Ctx.joinAct op seg disp
  | .jresume _ => Ctx.jresumeAct
  | .jstat _ w => Ctx.jstatAct w
  | .qsub _ sc disp => Ctx.qsubAct sc disp.toInt
  | .qpop _ nb => Ctx.qpopAct nb
  | .qpush _ nb => Ctx.qpushAct nb
  | .spawn _ nb disp => Ctx.spawnAct nb disp
  | .launch _ args => Ctx.launchAct args
  | .trigger _ => Ctx.triggerAct
  | .base _ => Ctx.baseAct
  | .pref _ sc disp => fun c => c.prefAct sc disp.toInt
  | .ld _ m => fun c => c.loadAct m c.lanes
  | .ldu _ m => fun c => c.loadAct m (if c.any then [0] else [])
  | .gld _ m => fun c => c.gldAct m
  | .glds _ m => fun c => c.gldsAct m
  | .smsg _ sc disp => Ctx.smsgAct sc disp.toInt
  | .enq _ sc disp => Ctx.enqAct sc disp.toInt
  | .st _ m => fun c => c.storeAct m c.lanes
  | .stu _ m => fun c => c.storeAct m (if c.any then [0] else [])
  | .gst _ m => fun c => c.gstAct m
  | .gsts _ m => fun c => c.gstsAct m
  | .atom _ m => fun c => c.atomicAct m true c.lanes
  | .atomu _ m => fun c => c.atomicAct m true (if c.any then [0] else [])
  | .red _ m => fun c => c.atomicAct m false c.lanes
  | _ => fun c => .ok c.s

/-- The act leaves the split parked as it is, and nothing else has changed. -/
def Act.stays (now : Park) : Act → Bool
  | .park (.instr ..) => (match now with | .instr .. => true | _ => false)
  | .park _ => true
  | _ => false

/-- What an instruction that is parked, or held by its own reads, would do now. -/
def State.parkedAct? (s : State) (r : SplitRef) : Option (Ctx × Act) :=
  match s.team? r.core r.team, s.group? r, s.split? r with
  | some t, some g, some p =>
    match p.park with
    | .instr i a | .asks i a =>
      if p.mayAct t g then
        (s.actCtx? r i a).bind fun c =>
          let x := parkedBody i c
          if x.stays p.park then none else some (c, x)
      else none
    | _ => none
  | _, _, _ => none

/-- An instruction that its own reads have held parks (R217): it takes its place in the order of parking now, and its split stands between
runs (R284, R288). -/
def State.parksNow (s : State) (r : SplitRef) : State :=
  let s := s.modSplit r fun p => { p with parkedAt := s.time, since := p.since.orElse fun _ => some s.time }
  if (s.group? r).any (·.dying) then s.endSplit r else s.postDue r

/-- A parked instruction acts in one step, where its condition holds (R217). -/
def State.actParked (s : State) (r : SplitRef) : State :=
  match s.parkedAct? r with
  | some (c, a) =>
    match a, (s.split? r).map (·.park) with
    | .park (.instr ..), some (Park.asks ..) | .parkIn _ (.instr ..), some (Park.asks ..) => (c.finish a).parksNow r
    | _, _ => c.finish a
  | none => s

/-- PARKED_INSTRUCTION_ACT (R217). -/
def execParkedInstructionAct (r : SplitRef) (s : State) : Answered := .next (s.actParked r).bump

/-- The parked splits of a core whose instructions could act now, with the time at which each parked. -/
def State.dueOn (s : State) (k : Nat) : List (SplitRef × Nat) :=
  (s.core k).teams.flatMap fun t => t.groups.flatMap fun g => g.splits.filterMap fun p =>
    let r : SplitRef := { core := k, team := t.id, grp := g.grp, split := p.sid }
    (s.parkedAct? r).map fun _ => (r, p.parkedAt)

/-- The split whose parked instruction acts before anything else happens: the first parked of all cores; among those of one tick, any
(R217). So a parked CAMFREE of an entry whose bind has ended acts before a mapped source that interlocked on it issues (DESIGN CHOICE, log
entry 77: R108 orders them by issue only while the bind is not in flight). -/
def State.due (s : State) : Option SplitRef :=
  let l := s.coreNumbers.flatMap s.dueOn
  let t := l.foldl (fun m p => min m p.2) ((l.map (·.2)).headD 0)
  let first := (l.filter fun p => p.2 == t).map (·.1)
  first[s.draw 17 0 % first.length]?

/-- What a split that waits at a fence does when the condition holds: it goes on, or its .rel form acts (R208, R212). -/
def State.releaseFence (s : State) (r : SplitRef) : State :=
  match s.team? r.core r.team, s.group? r, s.split? r with
  | some t, some g, some p =>
    match p.park with
    | .release i a =>
      if p.mayAct t g && s.fenceMet r .dev p.lct then
        match s.actCtx? r i a with
        | some c => c.finish (parkedBody i c)
        | none => s
      else s
    | _ => s.checkFence r
  | _, _, _ => s

/-- FENCE_RELEASE (R212). -/
def execFenceRelease (r : SplitRef) (s : State) : Answered := .next (s.releaseFence r).bump

/-- A level-0 split that has been ready for 1,024 ticks without issuing (R255). -/
def Split.overdue (p : Split) : Bool := p.level = 0 && !p.promoted && p.readyTicks ≥ 1024

/-- A split whose promotion is due: it comes before anything else of its tick (R255, R260). -/
def State.promotionDue (s : State) : Option SplitRef := (s.splitRefs.find? fun p => p.2.overdue).map (·.1)

/-- PROMOTION (R255): the split counts as level 1 until it issues. -/
def execPromotion (r : SplitRef) (s : State) : Answered :=
  .next (if (s.split? r).any (·.overdue) then s.modSplit r fun p => { p with promoted := true, readyTicks := 0 } else s).bump

end Sys2Proof.Machine
end

