-- ==== Sys2Proof/Machine/Special.lean ====
section
/-!
DEFINITION. The special functions (11 R176 to R178). FRCP and FSQRT are computed exactly and rounded. The others are faithful or
bounded (R177): their exact values are computed as fixed-point numbers far finer than F32, which gives the bounds, and a free
function of the input picks among the results that lie within them (log entry 6).
-/
namespace Sys2Proof.Machine

/-- Fraction bits of the fixed-point numbers of this file. -/
def fixBits : Nat := 512

/-- The digits of the integer square root, from bit `k` down. -/
def isqrtFrom (n : Nat) : Nat → Nat → Nat
  | 0, r => r
  | k + 1, r =>
    let t := r + 2 ^ k
    if t * t ≤ n then isqrtFrom n k t else isqrtFrom n k r

/-- Floor(√n). -/
def isqrt (n : Nat) : Nat := isqrtFrom n (n.log2 / 2 + 1) 0

/-- 1/(m·2^e) with a sticky bit, for rounding. -/
def recipExact (neg : Bool) (m : Nat) (e : Int) : Num :=
  let k := m.log2 + 64
  let q := 2 ^ k / m
  .fin neg (2 * q + if 2 ^ k % m = 0 then 0 else 1) (-(k : Int) - 1 - e)

/-- √(m·2^e) with a sticky bit, for rounding. -/
def sqrtExact (m : Nat) (e : Int) : Num :=
  let odd := (e % 2).toNat
  let mm := m * 2 ^ (odd + 128)
  let r := isqrt mm
  .fin false (2 * r + if r * r = mm then 0 else 1) ((e - odd - 128) / 2 - 1)

/-- Σ x^(2i+1)·(−1)^i/(2i+1) for x = 1/d, in fixed point: arctan(1/d). -/
def atanInv (d : Nat) : Nat → Nat → Nat → Int
  | 0, _, _ => 0
  | k + 1, i, p =>
    let t : Int := p / (2 * i + 1)
    (if i % 2 = 0 then t else -t) + atanInv d k (i + 1) (p / (d * d))

/-- π in fixed point (Machin's formula). -/
def piFix : Nat :=
  (16 * atanInv 5 130 0 (2 ^ (fixBits + 32) / 5) - 4 * atanInv 239 50 0 (2 ^ (fixBits + 32) / 239)).toNat / 2 ^ 32

/-- Σ x^(2i+1)/(2i+1) for a fixed-point x below 1: artanh x. -/
def atanhSum (x2 : Nat) : Nat → Nat → Nat → Nat
  | 0, _, _ => 0
  | k + 1, i, p => p / (2 * i + 1) + atanhSum x2 k (i + 1) (p * x2 / 2 ^ fixBits)

/-- ln y for y = n/d in 1 to 2, in fixed point: 2·artanh((y − 1)/(y + 1)). -/
def lnFix (n d : Nat) : Nat :=
  let x := (n - d) * 2 ^ fixBits / (n + d)
  2 * atanhSum (x * x / 2 ^ fixBits) 170 0 x

/-- ln 2 in fixed point. -/
def ln2Fix : Nat := lnFix 2 1

/-- Σ x^i/i! for a fixed-point x, from term `t` of number `i`. -/
def expSum (x : Nat) : Nat → Nat → Nat → Nat
  | 0, _, _ => 0
  | k + 1, i, t => t + expSum x k (i + 1) (t * x / 2 ^ fixBits / (i + 1))

/-- e^x for a fixed-point x in 0 to 1. -/
def expFix (x : Nat) : Nat := expSum x 110 0 (2 ^ fixBits)

/-- Σ (−1)^i·x^(2i)/(2i)! from term `t`, where `i` is the power of `t`. -/
def trigSum (x2 : Nat) : Nat → Nat → Bool → Nat → Int
  | 0, _, _, _ => 0
  | k + 1, i, s, t =>
    (if s then -(t : Int) else t) + trigSum x2 k (i + 2) (!s) (t * x2 / 2 ^ fixBits / ((i + 1) * (i + 2)))

/-- sin x and cos x for a fixed-point x in 0 to π/2. -/
def sinFix (x : Nat) : Int := trigSum (x * x / 2 ^ fixBits) 60 1 false x
def cosFix (x : Nat) : Int := trigSum (x * x / 2 ^ fixBits) 60 0 false (2 ^ fixBits)

/-- sin of an exact value ±m·2^e (e ≥ −512), in fixed point: the argument is reduced by quarter turns of π/2. -/
def sinExact (neg : Bool) (m : Nat) (e : Int) : Int :=
  let a := m * 2 ^ (e + fixBits).toNat
  let half := piFix / 2
  let q := a / half % 4
  let r := a % half
  let s := if q = 0 then sinFix r else if q = 1 then cosFix r else if q = 2 then -sinFix r else -cosFix r
  if neg then -s else s

/-- cos likewise. -/
def cosExact (m : Nat) (e : Int) : Int :=
  let a := m * 2 ^ (e + fixBits).toNat
  let half := piFix / 2
  let q := a / half % 4
  let r := a % half
  if q = 0 then cosFix r else if q = 1 then -sinFix r else if q = 2 then -cosFix r else sinFix r

/-- The numbers of the special functions, for the free choice. -/
inductive SfuOp where
  | frsq | fex2 | flg2 | fsin | fcos | ftanh
deriving DecidableEq, Repr

def SfuOp.num : SfuOp → Nat
  | .frsq => 0
  | .fex2 => 1
  | .flg2 => 2
  | .fsin => 3
  | .fcos => 4
  | .ftanh => 5

/-- A faithful result (R177): one of the two F32 values that bracket ±v, where `lo` is the lower magnitude's encoding; the exact
value when `exact`. -/
def faithful (op : SfuOp) (bits : Nat) (ftz exact : Bool) (lo : Nat) : Nat :=
  if exact then lo else if Config.sfuChoice op.num bits ftz % 2 = 0 then lo else lo + 1

/-- The lower F32 bracket of a magnitude m·2^e with a sign. -/
def lowBracket (neg : Bool) (m : Nat) (e : Int) : Nat := roundTo (.fin neg m e) .f32 .rz false false

/-- The magnitude |x| of a fixed-point number. -/
def lowFix (neg : Bool) (x : Nat) : Nat := lowBracket neg x (-(fixBits : Int))

/-- A bounded result (R177): any F32 value within 2^−22 of the fixed-point value and of magnitude at most 1. -/
def bounded (op : SfuOp) (bits : Nat) (ftz : Bool) (x : Int) : Nat :=
  let near := roundTo (ofScaled x (-(fixBits : Int)) false) .f32 .rne false false
  let c := Config.sfuOffset op.num bits ftz % 2 ^ 32
  match decodeNum .f32 c with
  | .fin n m e =>
    let v := scaled n m e (-(fixBits : Int))
    if (v - x).natAbs ≤ 2 ^ (fixBits - 22) ∧ v.natAbs ≤ 2 ^ fixBits then c else near
  | _ => near

/-- FRCP (R177). -/
def frcpBits (mode : Rm) (ftz : Bool) (bits : Nat) : Nat :=
  match val .f32 ftz bits with
  | .nan n fr => quiet .f32 n fr
  | .inf n => packFloat .f32 n 0 0
  | .fin n m e => if m = 0 then encodeInf .f32 n false else roundTo (recipExact n m e) .f32 mode false ftz

/-- FSQRT (R177). -/
def fsqrtBits (mode : Rm) (ftz : Bool) (bits : Nat) : Nat :=
  match val .f32 ftz bits with
  | .nan n fr => quiet .f32 n fr
  | .inf n => if n then roundTo .canonical .f32 mode false ftz else encodeInf .f32 false false
  | .fin n m e =>
    if m = 0 then packFloat .f32 n 0 0
    else if n then roundTo .canonical .f32 mode false ftz
    else roundTo (sqrtExact m e) .f32 mode false ftz

/-- Flush a subnormal result under FTZ (R98). -/
def flushF32 (ftz : Bool) (bits : Nat) : Nat :=
  if ftz && subnormalBits .f32 bits then bits / 2 ^ 31 * 2 ^ 31 else bits

/-- FRSQ (R177). -/
def frsqBits (ftz : Bool) (bits : Nat) : Nat :=
  match val .f32 ftz bits with
  | .nan n fr => quiet .f32 n fr
  | .inf n => if n then roundTo .canonical .f32 .rne false false else 0
  | .fin n m e =>
    if m = 0 then encodeInf .f32 n false
    else if n then roundTo .canonical .f32 .rne false false
    else
      let odd := (e % 2).toNat
      let mm := m * 2 ^ odd
      let num := 2 ^ 256
      let r := isqrt (num / mm)
      flushF32 ftz (faithful .frsq bits ftz (r * r * mm == num) (lowBracket false r (-(128 : Int) - (e - odd) / 2)))

/-- FEX2 (R177): exact for an integral argument whose power is an F32 value. -/
def fex2Bits (ftz : Bool) (bits : Nat) : Nat :=
  match val .f32 ftz bits with
  | .nan n fr => quiet .f32 n fr
  | .inf n => if n then 0 else encodeInf .f32 false false
  | .fin n m e =>
    if m = 0 then 0x3F800000
    else
      let a := scaled n m e (-(fixBits : Int))
      let k := a / (2 ^ fixBits : Nat)
      let fr := (a % (2 ^ fixBits : Nat)).toNat
      if k ≥ 128 then encodeInf .f32 false false
      else if k < -150 then flushF32 ftz (faithful .fex2 bits ftz false 0)
      else
        let y := expFix (fr * ln2Fix / 2 ^ fixBits)
        let exact := fr == 0 && k ≥ -149
        flushF32 ftz (faithful .fex2 bits ftz exact (lowBracket false (if fr = 0 then 2 ^ fixBits else y) (k - fixBits)))

/-- FLG2 (R177): exact for a power of two. -/
def flg2Bits (ftz : Bool) (bits : Nat) : Nat :=
  match val .f32 ftz bits with
  | .nan n fr => quiet .f32 n fr
  | .inf n => if n then roundTo .canonical .f32 .rne false false else encodeInf .f32 false false
  | .fin n m e =>
    if m = 0 then encodeInf .f32 true false
    else if n then roundTo .canonical .f32 .rne false false
    else
      let k := topExp m e
      if m = 2 ^ m.log2 then roundTo (numOfInt k) .f32 .rne false false
      else
        let fr := lnFix m (2 ^ m.log2) * 2 ^ fixBits / ln2Fix
        let x := k * (2 ^ fixBits : Nat) + fr
        flushF32 ftz (faithful .flg2 bits ftz false (lowFix (x < 0) x.natAbs))

/-- FSIN (R177). -/
def fsinBits (ftz : Bool) (bits : Nat) : Nat :=
  match val .f32 ftz bits with
  | .nan n fr => quiet .f32 n fr
  | .inf _ => roundTo .canonical .f32 .rne false false
  | .fin n m e =>
    if m = 0 then packFloat .f32 n 0 0 else flushF32 ftz (bounded .fsin bits ftz (sinExact n m e))

/-- FCOS (R177). -/
def fcosBits (ftz : Bool) (bits : Nat) : Nat :=
  match val .f32 ftz bits with
  | .nan n fr => quiet .f32 n fr
  | .inf _ => roundTo .canonical .f32 .rne false false
  | .fin _ m e => if m = 0 then 0x3F800000 else flushF32 ftz (bounded .fcos bits ftz (cosExact m e))

/-- tanh of a magnitude m·2^e below 64, in fixed point: (y − 1)/(y + 1) with y = e^(2a). -/
def tanhFix (m : Nat) (e : Int) : Nat :=
  let a2 := m * 2 ^ (e + fixBits + 1).toNat
  let k := a2 / ln2Fix
  let y := expFix (a2 % ln2Fix) * 2 ^ k
  (y - 2 ^ fixBits) * 2 ^ fixBits / (y + 2 ^ fixBits)

/-- FTANH (R177). -/
def ftanhBits (ftz : Bool) (bits : Nat) : Nat :=
  match val .f32 ftz bits with
  | .nan n fr => quiet .f32 n fr
  | .inf n => packFloat .f32 n 127 0
  | .fin n m e =>
    if m = 0 then packFloat .f32 n 0 0
    else if topExp m e ≥ 6 then faithful .ftanh bits ftz false (packFloat .f32 n 126 (2 ^ 23 - 1))
    else flushF32 ftz (faithful .ftanh bits ftz false (lowFix n (tanhFix m e)))

/-- The multipliers of HRND (R178). -/
def hrndKeys : List Nat := [0x8F3C5D27B16A49E3, 0xC2D76E15A9F03B8D, 0x5B91E4A307DCF26F]

/-- HRND (R178). -/
def hrndBits (a b : Nat) : Nat :=
  let x := hrndKeys.foldl (fun x k => (x ^^^ x / 2 ^ 31) * k % 2 ^ 64) (a ^^^ b)
  (x ^^^ x / 2 ^ 29) / 2 ^ 32

end Sys2Proof.Machine
end

