-- ==== Sys2Proof/Machine/Sfu.lean ====
section
/-!
DEFINITION. Special functions, major 0x4 (11 R176 to R178).
-/
namespace Sys2Proof.Machine

/-- FRCP (R177): 1/a rounded by RM. -/
def execFrcp (o : Ops) (s : State) : Answered :=
  issue (.frcp o) s fun c => c.result 32 fun l => frcpBits o.rm o.ftz (c.a .f32 l)

/-- FRSQ (R177). -/
def execFrsq (o : Ops) (s : State) : Answered :=
  issue (.frsq o) s fun c => c.result 32 fun l => frsqBits o.ftz (c.a .f32 l)

/-- FSQRT (R177): the root rounded by RM. -/
def execFsqrt (o : Ops) (s : State) : Answered :=
  issue (.fsqrt o) s fun c => c.result 32 fun l => fsqrtBits o.rm o.ftz (c.a .f32 l)

/-- FEX2 (R177). -/
def execFex2 (o : Ops) (s : State) : Answered :=
  issue (.fex2 o) s fun c => c.result 32 fun l => fex2Bits o.ftz (c.a .f32 l)

/-- FLG2 (R177). -/
def execFlg2 (o : Ops) (s : State) : Answered :=
  issue (.flg2 o) s fun c => c.result 32 fun l => flg2Bits o.ftz (c.a .f32 l)

/-- FSIN (R177). -/
def execFsin (o : Ops) (s : State) : Answered :=
  issue (.fsin o) s fun c => c.result 32 fun l => fsinBits o.ftz (c.a .f32 l)

/-- FCOS (R177). -/
def execFcos (o : Ops) (s : State) : Answered :=
  issue (.fcos o) s fun c => c.result 32 fun l => fcosBits o.ftz (c.a .f32 l)

/-- FTANH (R177). -/
def execFtanh (o : Ops) (s : State) : Answered :=
  issue (.ftanh o) s fun c => c.result 32 fun l => ftanhBits o.ftz (c.a .f32 l)

/-- HRND (R178). -/
def execHrnd (o : Ops) (s : State) : Answered :=
  issue (.hrnd o) s fun c => c.result 32 fun l => hrndBits (c.a .u64 l) (c.b .u64 l)

end Sys2Proof.Machine
end

