-- ==== Sys2Proof/Machine/System.lean ====
section
/-!
DEFINITION. System instructions, major 0xE (13 R241 to R245): traps and the return from them, system registers, the contract, the time.
-/
namespace Sys2Proof.Machine

/-- The group is in trap mode, and this split is its handler's. -/
def Ctx.inTrap (c : Ctx) : Bool := c.group.trapSplit.isSome

/-- TRAP (R242): illegal in trap mode; an n of 255 or more is an illegal operand. -/
def execTrap (o : Ops) (s : State) : Answered :=
  issue (.trap o) s fun c =>
    if c.inTrap then .uniform .illegalInstruction
    else if c.uniA ≥ 255 then .uniform .illegalOperand
    else if !c.any then .ok c.s
    else .uniform (.trap c.uniA)

/-- BRK (R242). -/
def execBrk (o : Ops) (s : State) : Answered :=
  issue (.brk o) s fun c =>
    if c.inTrap then .uniform .illegalInstruction
    else if c.uniA ≥ 256 then .uniform .illegalOperand
    else if !c.any then .ok c.s
    else .uniform (.breakpoint c.uniA)

/-- RETT (R242, R286): the mask-stack depth must be the trap depth. -/
def execRett (o : Ops) (skip : Bool) (s : State) : Answered :=
  issue (.rett o skip) s fun c =>
    if !c.inTrap then .uniform .illegalInstruction
    else if !c.any then .ok c.s
    else if c.split.frames.length ≠ c.group.trapDepth then .uniform .maskStack
    else .done ((c.s.modGroup c.r fun g => g.leaveTrap c.r.split skip).unwind c.r) [] false

/-- A system register (R243); none for any other number. A latest completion time is a device time, which the virtual function reads with its
offset (R314). -/
def Ctx.sysReg (c : Ctx) (n : Nat) : Option Nat :=
  match n with
  | 0x000 => some c.group.tcode
  | 0x001 => some c.group.tepc
  | 0x002 => some (c.group.taddr % 2 ^ 32)
  | 0x003 => some (c.group.taddr / 2 ^ 32 % 2 ^ 32)
  | 0x004 => some c.group.tlane
  | 0x010 => some c.split.level
  | 0x011 => some c.v.cfg.lease
  | 0x012 => some ((c.split.lct + c.v.offset) % 2 ^ 32)
  | 0x013 => some ((c.split.lct + c.v.offset) / 2 ^ 32 % 2 ^ 32)
  | 0x014 => some (c.grid.flags % 32)
  | _ => none

/-- RDSR (R243). -/
def execRdsr (o : Ops) (reg : BitVec 12) (s : State) : Answered :=
  issue (.rdsr o reg) s fun c =>
    match c.sysReg reg.toNat with
    | none => .uniform .illegalOperand
    | some v => .ok (c.put 1 fun _ => v)

/-- WRSR (R243): TEPC alone, and in trap mode. -/
def execWrsr (o : Ops) (reg : BitVec 12) (s : State) : Answered :=
  issue (.wrsr o reg) s fun c =>
    if reg ≠ 0x001 || !c.inTrap then .uniform .illegalOperand
    else if !c.any then .ok c.s
    else .ok (c.s.modGroup c.r fun g => { g with tepc := c.uniA })

/-- The contract (R244). -/
def contractWord (v : VfConfig) (reduced : Bool) (n : Nat) : Nat :=
  match n with
  | 0 => v.revid.toNat
  | 1 => 3 + 16 + reduced.toNat * 2 ^ 8
  | 2 => v.cores.length
  | 3 => v.memMiB
  | 4 => v.hingeSlot.getD 0xFF
  | 5 => v.lease
  | 6 => v.pinnedKiB
  | 7 => v.features.toNat
  | _ => 0

/-- FEATQ (R244). -/
def execFeatq (o : Ops) (s : State) : Answered :=
  issue (.featq o) s fun c =>
    if c.uniA ≥ 16 then .uniform .illegalOperand
    else .ok (c.put 1 fun _ => contractWord c.v.cfg (c.s.service == .reduced) c.uniA)

/-- TIME (R87, R245): the capture is the split's from then on. -/
def execTime (o : Ops) (s : State) : Answered := issue (.time o) s fun c => if !c.any then .ok c.s else .ok (c.put 2 fun _ => c.now)

end Sys2Proof.Machine
end

