-- ==== Sys2Proof/Machine/Dispatch.lean ====
section
/-!
DEFINITION. The meaning of every step: one arm for each constructor of Instr, each a direct call of that instruction's own
definition.
-/
namespace Sys2Proof.Machine

/-- One step's instruction or event, executed. -/
def exec (i : Instr) (s : State) : Host.Outcome State Fault Refusal :=
  match i with
  | .nop o => Sys2Proof.Machine.execNop o s
  | .if_ o neg disp => Sys2Proof.Machine.execIf o neg disp s
  | .else_ o disp => Sys2Proof.Machine.execElse o disp s
  | .endif o => Sys2Proof.Machine.execEndif o s
  | .loop o disp => Sys2Proof.Machine.execLoop o disp s
  | .endloop o => Sys2Proof.Machine.execEndloop o s
  | .break_ o neg => Sys2Proof.Machine.execBreak o neg s
  | .cont o neg => Sys2Proof.Machine.execCont o neg s
  | .jmp o neg => Sys2Proof.Machine.execJmp o neg s
  | .call o neg => Sys2Proof.Machine.execCall o neg s
  | .ret o neg => Sys2Proof.Machine.execRet o neg s
  | .exit o => Sys2Proof.Machine.execExit o s
  | .yield o lat disp => Sys2Proof.Machine.execYield o lat disp s
  | .bar o arv => Sys2Proof.Machine.execBar o arv s
  | .barc o arv => Sys2Proof.Machine.execBarc o arv s
  | .mov o ty => Sys2Proof.Machine.execMov o ty s
  | .movi o ty => Sys2Proof.Machine.execMovi o ty s
  | .iadd o ty sat => Sys2Proof.Machine.execIadd o ty sat s
  | .isub o ty sat => Sys2Proof.Machine.execIsub o ty sat s
  | .imul o ty => Sys2Proof.Machine.execImul o ty s
  | .imad o ty => Sys2Proof.Machine.execImad o ty s
  | .imulhi o ty => Sys2Proof.Machine.execImulhi o ty s
  | .imin o ty => Sys2Proof.Machine.execImin o ty s
  | .imax o ty => Sys2Proof.Machine.execImax o ty s
  | .iabs o ty sat => Sys2Proof.Machine.execIabs o ty sat s
  | .ineg o ty sat => Sys2Proof.Machine.execIneg o ty sat s
  | .lea64 o sh zx => Sys2Proof.Machine.execLea64 o sh zx s
  | .iset o cond ty => Sys2Proof.Machine.execIset o cond ty s
  | .sel o ty => Sys2Proof.Machine.execSel o ty s
  | .plop o lut => Sys2Proof.Machine.execPlop o lut s
  | .and o w => Sys2Proof.Machine.execAnd o w s
  | .or o w => Sys2Proof.Machine.execOr o w s
  | .xor o w => Sys2Proof.Machine.execXor o w s
  | .not o w => Sys2Proof.Machine.execNot o w s
  | .shl o w => Sys2Proof.Machine.execShl o w s
  | .shr o w => Sys2Proof.Machine.execShr o w s
  | .sar o w => Sys2Proof.Machine.execSar o w s
  | .bfx o w sx => Sys2Proof.Machine.execBfx o w sx s
  | .bfi o w => Sys2Proof.Machine.execBfi o w s
  | .popc o w => Sys2Proof.Machine.execPopc o w s
  | .clz o w => Sys2Proof.Machine.execClz o w s
  | .brev o w => Sys2Proof.Machine.execBrev o w s
  | .fadd o => Sys2Proof.Machine.execFadd o s
  | .fsub o => Sys2Proof.Machine.execFsub o s
  | .fmul o => Sys2Proof.Machine.execFmul o s
  | .ffma o => Sys2Proof.Machine.execFfma o s
  | .fmin o => Sys2Proof.Machine.execFmin o s
  | .fmax o => Sys2Proof.Machine.execFmax o s
  | .fmaxx o => Sys2Proof.Machine.execFmaxx o s
  | .fminx o => Sys2Proof.Machine.execFminx o s
  | .fabs o => Sys2Proof.Machine.execFabs o s
  | .fneg o => Sys2Proof.Machine.execFneg o s
  | .fset o cond => Sys2Proof.Machine.execFset o cond s
  | .frnd o => Sys2Proof.Machine.execFrnd o s
  | .frcp o => Sys2Proof.Machine.execFrcp o s
  | .frsq o => Sys2Proof.Machine.execFrsq o s
  | .fsqrt o => Sys2Proof.Machine.execFsqrt o s
  | .fex2 o => Sys2Proof.Machine.execFex2 o s
  | .flg2 o => Sys2Proof.Machine.execFlg2 o s
  | .fsin o => Sys2Proof.Machine.execFsin o s
  | .fcos o => Sys2Proof.Machine.execFcos o s
  | .ftanh o => Sys2Proof.Machine.execFtanh o s
  | .hrnd o => Sys2Proof.Machine.execHrnd o s
  | .padd o pf sat => Sys2Proof.Machine.execPadd o pf sat s
  | .psub o pf sat => Sys2Proof.Machine.execPsub o pf sat s
  | .pmul o pf sat => Sys2Proof.Machine.execPmul o pf sat s
  | .pfma o pf sat => Sys2Proof.Machine.execPfma o pf sat s
  | .pmin o pf => Sys2Proof.Machine.execPmin o pf s
  | .pmax o pf => Sys2Proof.Machine.execPmax o pf s
  | .pset o pf cond any => Sys2Proof.Machine.execPset o pf cond any s
  | .pdot o pf sat => Sys2Proof.Machine.execPdot o pf sat s
  | .cvt o dst src sat => Sys2Proof.Machine.execCvt o dst src sat s
  | .pack2 o bf sat => Sys2Proof.Machine.execPack2 o bf sat s
  | .pack4 o e5 sat => Sys2Proof.Machine.execPack4 o e5 sat s
  | .unpk o pf => Sys2Proof.Machine.execUnpk o pf s
  | .fkey o half => Sys2Proof.Machine.execFkey o half s
  | .sprune o bf => Sys2Proof.Machine.execSprune o bf s
  | .qscale o q => Sys2Proof.Machine.execQscale o q s
  | .cambind o tm fmt wel sin => Sys2Proof.Machine.execCambind o tm fmt wel sin s
  | .camBindComplete core team entry err => Sys2Proof.Machine.execCamBindComplete core team entry err s
  | .camwait o => Sys2Proof.Machine.execCamwait o s
  | .camfree o tm => Sys2Proof.Machine.execCamfree o tm s
  | .caminfo o => Sys2Proof.Machine.execCaminfo o s
  | .camResidencyLoad core part team entry => Sys2Proof.Machine.execCamResidencyLoad core part team entry s
  | .shfl o w b64 => Sys2Proof.Machine.execShfl o w b64 s
  | .lanebc o b64 => Sys2Proof.Machine.execLanebc o b64 s
  | .vote o mode => Sys2Proof.Machine.execVote o mode s
  | .match_ o b64 => Sys2Proof.Machine.execMatch o b64 s
  | .elect o => Sys2Proof.Machine.execElect o s
  | .base o => Sys2Proof.Machine.execBase o s
  | .ld o m => Sys2Proof.Machine.execLd o m s
  | .st o m => Sys2Proof.Machine.execSt o m s
  | .ldu o m => Sys2Proof.Machine.execLdu o m s
  | .stu o m => Sys2Proof.Machine.execStu o m s
  | .lds o m => Sys2Proof.Machine.execLds o m s
  | .sts o m => Sys2Proof.Machine.execSts o m s
  | .pref o sc disp => Sys2Proof.Machine.execPref o sc disp s
  | .icpref o => Sys2Proof.Machine.execIcpref o s
  | .gld o m => Sys2Proof.Machine.execGld o m s
  | .gst o m => Sys2Proof.Machine.execGst o m s
  | .glds o m => Sys2Proof.Machine.execGlds o m s
  | .gsts o m => Sys2Proof.Machine.execGsts o m s
  | .atom o m => Sys2Proof.Machine.execAtom o m s
  | .atoms o m => Sys2Proof.Machine.execAtoms o m s
  | .atomu o m => Sys2Proof.Machine.execAtomu o m s
  | .red o m => Sys2Proof.Machine.execRed o m s
  | .fence o scope => Sys2Proof.Machine.execFence o scope s
  | .fencew o scope => Sys2Proof.Machine.execFencew o scope s
  | .fenceRelease r => Sys2Proof.Machine.execFenceRelease r s
  | .tdld o => Sys2Proof.Machine.execTdld o s
  | .tdinv o => Sys2Proof.Machine.execTdinv o s
  | .cpy o x => Sys2Proof.Machine.execCpy o x s
  | .cpyw o x => Sys2Proof.Machine.execCpyw o x s
  | .cpyb o x ds ss => Sys2Proof.Machine.execCpyb o x ds ss s
  | .copyRequestStart core => Sys2Proof.Machine.execCopyRequestStart core s
  | .copyDeliver core req unit rest => Sys2Proof.Machine.execCopyDeliver core req unit rest s
  | .ltinit o => Sys2Proof.Machine.execLtinit o s
  | .ltexpect o => Sys2Proof.Machine.execLtexpect o s
  | .ltarrive o c => Sys2Proof.Machine.execLtarrive o c s
  | .ltwait o => Sys2Proof.Machine.execLtwait o s
  | .lttest o => Sys2Proof.Machine.execLttest o s
  | .ltcont o disp => Sys2Proof.Machine.execLtcont o disp s
  | .ltreset o => Sys2Proof.Machine.execLtreset o s
  | .latchContinuationStart core team latch => Sys2Proof.Machine.execLatchContinuationStart core team latch s
  | .latchStall core team latch => Sys2Proof.Machine.execLatchStall core team latch s
  | .tstsp o => Sys2Proof.Machine.execTstsp o s
  | .tldsp o => Sys2Proof.Machine.execTldsp o s
  | .jdesc o => Sys2Proof.Machine.execJdesc o s
  | .join o op seg disp => Sys2Proof.Machine.execJoin o op seg disp s
  | .jresume o => Sys2Proof.Machine.execJresume o s
  | .jstat o w => Sys2Proof.Machine.execJstat o w s
  | .jcancel o => Sys2Proof.Machine.execJcancel o s
  | .joinSegment core h fall => Sys2Proof.Machine.execJoinSegment core h fall s
  | .keywayGroupForm core h => Sys2Proof.Machine.execKeywayGroupForm core h s
  | .enq o sc disp => Sys2Proof.Machine.execEnq o sc disp s
  | .qsub o sc disp => Sys2Proof.Machine.execQsub o sc disp s
  | .qunsub o sc disp => Sys2Proof.Machine.execQunsub o sc disp s
  | .tumblerDraw core err => Sys2Proof.Machine.execTumblerDraw core err s
  | .heldClassPlace core team => Sys2Proof.Machine.execHeldClassPlace core team s
  | .qpop o nb => Sys2Proof.Machine.execQpop o nb s
  | .qpush o nb => Sys2Proof.Machine.execQpush o nb s
  | .spawn o nb disp => Sys2Proof.Machine.execSpawn o nb disp s
  | .ggrow o => Sys2Proof.Machine.execGgrow o s
  | .launch o args => Sys2Proof.Machine.execLaunch o args s
  | .trigger o => Sys2Proof.Machine.execTrigger o s
  | .smsg o sc disp => Sys2Proof.Machine.execSmsg o sc disp s
  | .trap o => Sys2Proof.Machine.execTrap o s
  | .rett o skip => Sys2Proof.Machine.execRett o skip s
  | .rdsr o reg => Sys2Proof.Machine.execRdsr o reg s
  | .wrsr o reg => Sys2Proof.Machine.execWrsr o reg s
  | .featq o => Sys2Proof.Machine.execFeatq o s
  | .icinv o => Sys2Proof.Machine.execIcinv o s
  | .brk o => Sys2Proof.Machine.execBrk o s
  | .time o => Sys2Proof.Machine.execTime o s
  | .resultReturn id ans => Sys2Proof.Machine.execResultReturn id ans s
  | .parkedInstructionAct r => Sys2Proof.Machine.execParkedInstructionAct r s
  | .promotion r => Sys2Proof.Machine.execPromotion r s
  | .hlLd rd rs1 imm => Sys2Proof.Machine.execHlLd rd rs1 imm s
  | .hlSt rs1 rs2 imm => Sys2Proof.Machine.execHlSt rs1 rs2 imm s
  | .hlAtomic op rd rs1 rs2 => Sys2Proof.Machine.execHlAtomic op rd rs1 rs2 s
  | .hlInstall rs1 rs2 => Sys2Proof.Machine.execHlInstall rs1 rs2 s
  | .hlPref rs1 => Sys2Proof.Machine.execHlPref rs1 s
  | .hlMsg rs1 rs2 => Sys2Proof.Machine.execHlMsg rs1 rs2 s
  | .hlBudget rd => Sys2Proof.Machine.execHlBudget rd s
  | .hlDone => Sys2Proof.Machine.execHlDone s
  | .handlerDispatch slice => Sys2Proof.Machine.execHandlerDispatch slice s
  | .hingeOverrun slice => Sys2Proof.Machine.execHingeOverrun slice s
  | .messageArrive id => Sys2Proof.Machine.execMessageArrive id s
  | .homeRead req err => Sys2Proof.Machine.execHomeRead req err s
  | .homeWrite req err => Sys2Proof.Machine.execHomeWrite req err s
  | .homeStrongAccess req err => Sys2Proof.Machine.execHomeStrongAccess req err s
  | .homeAtomic req err => Sys2Proof.Machine.execHomeAtomic req err s
  | .enqPush r err => Sys2Proof.Machine.execEnqPush r err s
  | .lineFill home line err => Sys2Proof.Machine.execLineFill home line err s
  | .lineEvict home line => Sys2Proof.Machine.execLineEvict home line s
  | .replicaInstall id => Sys2Proof.Machine.execReplicaInstall id s
  | .dirtyRingRoom vf cons => Sys2Proof.Machine.execDirtyRingRoom vf cons s
  | .remoteRequest dev vf host va op => Sys2Proof.Machine.execRemoteRequest dev vf host va op s
  | .fabricTimeout req => Sys2Proof.Machine.execFabricTimeout req s
  | .dramRefresh die => Sys2Proof.Machine.execDramRefresh die s
  | .temperatureReport die celsius => Sys2Proof.Machine.execTemperatureReport die celsius s
  | .powerThrottle => Sys2Proof.Machine.execPowerThrottle s
  | .teamPlace grid => Sys2Proof.Machine.execTeamPlace grid s
  | .nodeStart graph node => Sys2Proof.Machine.execNodeStart graph node s
  | .nodeEvaluate graph node => Sys2Proof.Machine.execNodeEvaluate graph node s
  | .gridTrigger grid => Sys2Proof.Machine.execGridTrigger grid s
  | .gridRetire grid => Sys2Proof.Machine.execGridRetire grid s
  | .preemptTeam team => Sys2Proof.Machine.execPreemptTeam team s
  | .teamResume team => Sys2Proof.Machine.execTeamResume team s
  | .quantumEnd core => Sys2Proof.Machine.execQuantumEnd core s
  | .faultRingRoom vf cons => Sys2Proof.Machine.execFaultRingRoom vf cons s
  | .kis1Translate vf obj kernel => Sys2Proof.Machine.execKis1Translate vf obj kernel s
  | .icFill core vf line err => Sys2Proof.Machine.execIcFill core vf line err s
  | .handlerImageInstall vf => Sys2Proof.Machine.execHandlerImageInstall vf s
  | .createVf c => Sys2Proof.Machine.execCreateVf c s
  | .destroyVf vf => Sys2Proof.Machine.execDestroyVf vf s
  | .resumeVf vf => Sys2Proof.Machine.execResumeVf vf s
  | .loadObject vf object plan => Sys2Proof.Machine.execLoadObject vf object plan s
  | .unloadObject vf obj => Sys2Proof.Machine.execUnloadObject vf obj s
  | .submitGraph vf base nodes roots => Sys2Proof.Machine.execSubmitGraph vf base nodes roots s
  | .invalidate vf lo hi => Sys2Proof.Machine.execInvalidate vf lo hi s
  | .invalidateComplete id => Sys2Proof.Machine.execInvalidateComplete id s
  | .resolveRetry vf token => Sys2Proof.Machine.execResolveRetry vf token s
  | .resolveFail vf token => Sys2Proof.Machine.execResolveFail vf token s
  | .readCounters vf buf => Sys2Proof.Machine.execReadCounters vf buf s
  | .halt team => Sys2Proof.Machine.execHalt team s
  | .quiesce team => Sys2Proof.Machine.execQuiesce team s
  | .resume team => Sys2Proof.Machine.execResume team s
  | .readContext team item => Sys2Proof.Machine.execReadContext team item s
  | .writeContext team item value => Sys2Proof.Machine.execWriteContext team item value s
  | .migrateOut vf => Sys2Proof.Machine.execMigrateOut vf s
  | .migrateIn vf offered offset root => Sys2Proof.Machine.execMigrateIn vf offered offset root s
  | .coldStart reduced skew coreMap sliceMap => Sys2Proof.Machine.execColdStart reduced skew coreMap sliceMap s
  | .warmStart reduced skew => Sys2Proof.Machine.execWarmStart reduced skew s
  | .fullServiceChange => Sys2Proof.Machine.execFullServiceChange s
  | .onlineRowReplacement die channel row => Sys2Proof.Machine.execOnlineRowReplacement die channel row s
  | .fabricLaneRetrain port lane => Sys2Proof.Machine.execFabricLaneRetrain port lane s
  | .deviceTimeTick => Sys2Proof.Machine.execDeviceTimeTick s
  | .lostSectorClear home sector => Sys2Proof.Machine.execLostSectorClear home sector s
  | .powerThrottleEnd => Sys2Proof.Machine.execPowerThrottleEnd s
  | .debuggerAttach vf on => Sys2Proof.Machine.execDebuggerAttach vf on s
  | .hingeRiscvInstruction len r => Sys2Proof.Machine.execHingeRiscvInstruction len r s
  | .unitMarkedSuspect u => Sys2Proof.Machine.execUnitMarkedSuspect u s

end Sys2Proof.Machine
end

