-- ==== Sys2Proof/Machine/Step.lean ====
section
/-!
DEFINITION. One step of the part: the next turn of the agenda, or where it is empty the turn that `Config.turn` names (log entry 5).
A turn whose agent has nothing it may do passes.
-/
namespace Sys2Proof.Machine

/-- The turn of a step. -/
def State.nextTurn (s : State) : Turn × State :=
  match s.agenda with
  | t :: r => (t, { s with agenda := r })
  | [] => (Config.turn s.fresh, s.bump)

/-- A partition issues one instruction: the next of the picks it has chosen for this tick (R253). -/
def stepIssue (k p : Nat) (s : State) : Host.Outcome State Fault Refusal :=
  match s.nextPick k p with
  | none => .next s
  | some ((x, pick), second) =>
    let s := s.modCore k fun c => c.modPart p fun q => q.take pick second
    let s := { s with focus := .split x.r }
    if x.pending then .next (s.takePending x.r)
    else
      match x.what with
      | .absent => .next s
      | .beyond => .next (s.badWord x.r true)
      | .bad => .next (s.badWord x.r false)
      | .instr i => exec i s

/-- A hinge core goes on with its handler in this tick (R326, R48). -/
def stepHinge (n : Nat) (s : State) : Host.Outcome State Fault Refusal :=
  match (s.slice n).run with
  | none => .next s
  | some h =>
    if !s.handlerDue n then .next s
    else if s.overruns n then exec (.hingeOverrun n) s
    else
      let s := { s with focus := .slice n }
      match ((s.slice n).slot h.slot).fetch h.slot h.pc with
      | none => .next (s.abortHandler n 2)
      | some (_, .ok i) => exec i s
      | some (len, .error _) => exec (.hingeRiscvInstruction len .illegal) s

/-- A turn taken. -/
def takeTurn (t : Turn) (s : State) : Host.Outcome State Fault Refusal :=
  match t with
  | .issue k p => stepIssue k p s
  | .hinge n => stepHinge n s
  | .event i => exec i s
  | .host w => .next (s.hostStep w).bump
  | .wear u => .next (s.wear u).bump

/-- One step. A parked instruction whose condition holds acts before any other turn is taken (R217), a grid whose conditions hold triggers
(R237), and a split that has waited its 1,024 ticks is promoted (R255). -/
def step (s : State) : Host.Outcome State Fault Refusal :=
  match s.due with
  | some r => exec (.parkedInstructionAct r) s
  | none =>
    match s.triggerDue with
    | some g => exec (.gridTrigger g) s
    | none =>
      match s.promotionDue with
      | some r => exec (.promotion r) s
      | none => takeTurn s.nextTurn.1 s.nextTurn.2

/-! ## Placing an instruction where the next step fetches it -/

/-- The virtual function, grid, team and group that an instruction placed from outside belongs to (log entry 5). -/
def slotVf : VfConfig :=
  { id := 0, cores := [0], shared := false, memMiB := 64, root := 0, hingeSlot := some 0, lease := 512, pinnedKiB := 0, features := 15,
    descBase := 0, revid := 0x00090300, eventBase := 0, eventLogn := 0, faultBase := 0, faultLogn := 0, dirtyBase := 0, dirtyLogn := 0,
    eventBlock := 0, faultBlock := 0, dirtyBlock := 0, commandBlock := 0, stallLimit := 2 ^ 24, stallTraps := false, quantum := 2 ^ 22,
    signKeys := [], memory := [(0, 64)], secret := [] }

def slotKernel : Kernel :=
  { obj := 0, num := 0, text := 0, words := 65536, groups := 1, vregs := 64, cams := 16, latches := 16, scratch := 65536, cw := 1, ch := 1,
    lq := false }

def slotVfState : Vf := Vf.fresh slotVf

def slotGrid : Grid :=
  { id := 0, vf := 0, graph := 0, node := 0, kernel := slotKernel, ngx := 1, ngy := 1, ngz := 1, ceil := 1, count := 1, placed := 1,
    flags := 31, prio := 0, trapv := false, trape := 0, args := [], triggered := false, awaits := [], succ := [], teams := [] }

def slotTeam : Team :=
  { id := 0, grid := 0, vf := 0, lin := 0, clu := 0, rank := 0, kernel := slotKernel, scratch := [],
    latches := List.replicate 16 Latch.fresh, barriers := List.replicate 16 Barrier.empty,
    cluBarriers := List.replicate 4 Barrier.empty, binds := List.replicate 16 Binding.unbound, streams := List.replicate 16 0, shadow := [],
    groups := [Group.fresh 0 0 0 allLanes 0], stopping := false, halted := false, quiescing := false }

/-- Core 0 with that team, the word at the split's pc. -/
def slotCore (w : Nat) : Core :=
  { Core.reset with
    teams := [slotTeam], parts := [(0, { Partition.empty with order := [(0, 0, 0)] })],
    ic := [{ vf := 0, line := 0, bytes := bytesOfNat 16 w ++ List.replicate 112 0 }] }

/-- Slice 0 with a handler dispatched in a slice cycle, the bytes at its pc. -/
def slotSlice (start w : Nat) : Slice :=
  { Slice.reset with
    slots := [(0, { HingeSlot.reset with loaded := true, code := Memory.writeBytes [] 0 (bytesOfNat 4 w) })],
    run := some { slot := 0, trigger := { slot := 0, kind := .msg, a1 := 0, a4 := 0, body := [], snap := none, at_ := 0 }, x := [], pc := 0x10000,
                  cycle := 0, instret := 0, reserve := none, start := start, op := none, waits := false } }

/-- The instruction word `w` of `nbits` bits placed where the next step fetches it: a KIS-3 word as the first instruction of a split
on core 0, a shorter one as the first of a handler on slice 0. -/
def State.withFetchWord (s : State) (nbits w : Nat) : State :=
  let s := { s with vfs := [slotVfState] }
  if nbits = 128 then { s with grids := [slotGrid], cores := setKey s.cores 0 (slotCore w), agenda := [.issue 0 0] }
  else { s with slices := setKey s.slices 0 (slotSlice (2 * s.time) w), agenda := [.hinge 0] }

end Sys2Proof.Machine
end

