-- ==== Sys2Proof/Safety.lean ====
section
/-!
DEFINITION. What claims call a safe state and a safe run: the memories of the part and of the host are in their canonical form
(log entry 3), the focus never stops a step, and a run goes on from state to state.
-/
namespace Sys2Proof.Machine

/-- DRAM and the host's memory are in their canonical form. -/
def State.canonical (s : State) : Bool := s.dram.wf && s.host.wf

/-- The agenda holds no instruction of a split or a handler as an event: those are executed only when their turn fetches them. -/
def Turn.fair : Turn → Bool
  | .event i => i.code.isNone && (encodeHinge i).isNone && (match i with | .hingeRiscvInstruction .. => false | _ => true)
  | _ => true

def State.fairAgenda (s : State) : Bool := s.agenda.all Turn.fair

/-- A step answers a next state. -/
def State.goesOn (s : State) : Prop := ∃ t, step s = .next t

/-- `n` steps from a state, where each answers a next state. -/
def runFor : Nat → State → Option State
  | 0, s => some s
  | n + 1, s =>
    match step s with
    | .next t => runFor n t
    | _ => none

/-- A state from which no number of steps ends in a fault or a refusal. -/
def State.safe (s : State) : Prop := ∀ n, (runFor n s).isSome = true

/-! ## An instruction that acts -/

/-- The split in focus may act on instruction i: c is its context, and the checks that R148 puts before the instruction's own are passed
(where control came by an unwind, the word that the split must find there, R195; the family enabled; formats; operands; maps). -/
structure State.Ready (s : State) (i : Instr) (c : Ctx) : Prop where
  ctx : s.ctx? i = some c
  unwound : c.split.unwound = false ∨ c.expected = true
  enabled : c.enabled = true
  formats : formatsOk i = true
  operands : operandsOk i c.o c.team.kernel.vregs = true
  maps : c.mapsStop = none

/-- Instruction i acts: but for what ends every instruction (the run record, the pc, and at a run end the settling of R145), the state
becomes t. `reads` are registers it reads beyond its operand fields, `next` whether the pc goes on to the next word. -/
def State.Acts (s : State) (i : Instr) (c : Ctx) (t : State) (reads : List Reg) (next : Bool) : Prop :=
  exec i s = .next (c.retire t reads next).bump

/-- Instruction i takes a fault at its own word, with no other effect (R8). -/
def State.Faults (s : State) (i : Instr) (c : Ctx) (k : FaultKind) : Prop :=
  ∃ f : FaultRec, f.kind = k ∧ f.pc = c.split.pc ∧ exec i s = .next (c.s.faultAt c.r f).bump

/-- Instruction i parks with no other effect than the requests it has sent, which leave the state u (R217); it keeps what it read of uniform
registers, and the records `cap` that it captured. -/
def State.Waits (s : State) (i : Instr) (c : Ctx) (u : State) (cap : List (Nat × Nat)) : Prop :=
  exec i s = .next (({ c with s := u } : Ctx).parkAt (.instr i (c.snap cap))).bump

/-- Instruction i is held by reads of its own, with no other effect than the requests it has sent, which leave the state u (R69, R265); its
split issues nothing until they have come. -/
def State.Holds (s : State) (i : Instr) (c : Ctx) (u : State) (cap : List (Nat × Nat)) : Prop :=
  exec i s = .next (({ c with s := u } : Ctx).parkAt (.asks i (c.snap cap))).bump

/-- Every earlier scratchpad write of a split has been performed: its own, and those it shares with the split it came from (R212). -/
def State.ScratchBack (s : State) (r : SplitRef) : Prop :=
  (∀ o ∈ (s.core r.core).sops, s.mine r o.owner o.id = true → o.writes = false) ∧
  (∀ o ∈ (s.core r.core).outs, ∀ n ops, o.finish = .scratch n ops → ∀ x ∈ ops, s.mine r o.owner x.id = false)

/-- Every earlier store, scatter, atomic, RED and scratchpad write of a split has been performed and has returned, but for those to another
package or the host window (R212, R275). -/
def State.WritesBack (s : State) (r : SplitRef) : Prop :=
  (∀ q ∈ s.reqs, q.own = true → s.mine r q.owner q.id = true → q.kind.writes = true → q.home.away = true) ∧
  (∀ o ∈ (s.core r.core).outs, ∀ n qs, o.finish = .stores n qs → ∀ q ∈ qs, s.mine r o.owner q.id = true → q.home.away = true) ∧
  s.ScratchBack r

/-- Every earlier access of a split to a remote address or the host window has been acknowledged (R212, R310). -/
def State.RemoteBack (s : State) (r : SplitRef) : Prop :=
  (∀ q ∈ s.reqs, q.own = true → s.mine r q.owner q.id = true → q.home.away = false) ∧
  (∀ o ∈ (s.core r.core).outs, ∀ n qs, o.finish = .stores n qs → ∀ q ∈ qs, s.mine r o.owner q.id = true → q.home.away = false)

/-- What a parked instruction asked for has come, without a failure: the answers are f (R265). -/
def Ctx.Answered (c : Ctx) (f : Fetch) (secs : List Nat) : Prop :=
  c.acting = true ∧ (c.s.core c.r.core).answers (.word c.r) = f ∧ f.asked = [] ∧ f.errs = [] ∧ secs.all f.knows = true

/-- The answers that an asking waited for have come, without a failure: they are f (R265). -/
def State.Came (s : State) (core : Nat) (key : Errand) (secs : List Nat) (f : Fetch) : Prop :=
  (s.core core).answers key = f ∧ f.asked = [] ∧ f.errs = [] ∧ secs.all f.knows = true

/-- A core can start one more group for a resident team, on this place (R248). -/
def Core.TakesGroup (c : Core) (team : Nat) (t : Team) (grp part : Nat) : Prop :=
  c.team? team = some t ∧ t.freeGrp = some grp ∧ c.choosePart t.kernel.vregs = some part

/-- A join is at work on its range: it runs, waits for no page and no earlier store, stops nowhere, and has room for survivors (R121, R125). -/
def State.Merging (s : State) (k : Nat) (j : Join) : Prop :=
  j.state = .running ∧ j.token = none ∧ j.stop = none ∧ j.finished = false ∧ j.pending.length < 32 ∧
    (j.waitFor.any fun id => (s.req? id).isSome || (s.core k).unperformed id) = false

/-- A step on a queue header holds its line's order at a slice or a pinned window, and the header's two sectors can be read (R31, R231). -/
def State.HoldsLine (s : State) (q : Req) : Prop :=
  s.req? q.id = some q ∧ q.done = false ∧ q.arrived.isSome = true ∧ s.atHead q = true ∧ q.kind = .hold ∧ q.home.allocates = true ∧
    (∃ l, (s.store q.home).line? q.line = some l ∧ l.data.length = 128) ∧ s.bad q.home q.sector = false ∧ s.bad q.home (q.sector + 1) = false

/-- The running handler's instruction i is done: the state becomes t, rd holds x, the next instruction is at pc, and `cost` cycles of the
budget are spent. -/
def State.HingeDone (s : State) (i : Instr) (c : HCtx) (t : State) (rd : BitVec 5) (x : DWord) (pc cost : Nat) : Prop :=
  exec i s = .next (c.finish (.done t rd x pc cost)).bump

/-- Nothing stands in the way of a request of a core at a line: no request is under way on it, names are fresh, and the core's own requests
are within R13's bound. Slices and the requesters outside the package have core numbers of their own. -/
def State.Quiet (s : State) (core : Nat) (x : Xlated) : Prop :=
  (∀ q ∈ s.reqs, q.id < s.nextId ∧ ¬(q.home = x.home ∧ q.line = x.pa / 128)) ∧ s.reqs.length < 4096 ∧ (s.core core).outs = []

/-- The cycles of a line operation that is answered in the tick it is sent (R326): its 14, and those to the start of this tick. -/
def HCtx.atOnce (c : HCtx) : Nat := max c.run.cycle (2 * c.s.time - c.run.start) - c.run.cycle + 14

/-- The running handler's instruction i ends the handler with an abort (R49). -/
def State.HingeAborts (s : State) (i : Instr) (c : HCtx) (reason : Nat) : Prop := ∃ t : State, exec i s = .next (t.abortHandler c.n reason).bump

/-- Whenever instruction i may act it completes, and its destination of `n` 32-bit registers receives `f c l` for lane l. -/
def Delivers (i : Instr) (n : Nat) (f : Ctx → Nat → Nat) : Prop := ∀ (s : State) (c : Ctx), s.Ready i c → s.Acts i c (c.put n (f c)) [] true

/-- Whenever instruction i may act it completes, and a predicate destination receives `f c l` for lane l. -/
def DeliversPred (i : Instr) (f : Ctx → Nat → Bool) : Prop := Delivers i 1 fun c l => (f c l).toNat

/-- The exact value of a source of an integer type (R164). -/
def intOf (ty : IntTy) (n : Nat) : Int :=
  match ty with
  | .i32 => (BitVec.ofNat 32 n).toInt
  | .u32 => ((BitVec.ofNat 32 n).toNat : Int)
  | .i64 => (BitVec.ofNat 64 n).toInt
  | .u64 => ((BitVec.ofNat 64 n).toNat : Int)

/-- An exact integer wrapped to a type (R164). -/
def wrapOf (ty : IntTy) (x : Int) : Nat := (BitVec.ofInt (tyWidth ty) x).toNat

/-- The least and the greatest value of an integer type (R164). -/
def leastOf : IntTy → Int
  | .i32 => -2147483648
  | .i64 => -9223372036854775808
  | .u32 | .u64 => 0

def greatestOf : IntTy → Int
  | .i32 => 2147483647
  | .u32 => 4294967295
  | .i64 => 9223372036854775807
  | .u64 => 18446744073709551615

/-- With .sat an exact integer is clamped to the type, without it wraps (R164). -/
def fitOf (ty : IntTy) (sat : Bool) (x : Int) : Nat :=
  wrapOf ty (if sat then (if x < leastOf ty then leastOf ty else if x > greatestOf ty then greatestOf ty else x) else x)

end Sys2Proof.Machine
end

