-- ==== Sys2Proof/Certificates/Slice0/Obligations.lean ====
section
/-!
DEFINITION. What the provers are asked to prove of this model, from the numbered rules of the spec.
-/
open Sys2Proof Sys2Proof.Machine

/-- 11 R164 to R168: every integer instruction that may act completes, and each executing lane of D receives the value the rule gives,
from the sources as the instruction reads them. -/
def Obligations.IntegerResults : Prop :=
  (∀ o ty, Delivers (.mov o ty) (tyWidth ty / 32) fun c l => c.a (tyFmt ty) l) ∧
  (∀ o ty, Delivers (.movi o ty) (tyWidth ty / 32) fun _ _ =>
    (if ty = .i64 then ((o.imm.getD 0).signExtend 64).toNat else (o.imm.getD 0).toNat)) ∧
  (∀ o ty sat, Delivers (.iadd o ty sat) (tyWidth ty / 32) fun c l =>
    fitOf ty sat (intOf ty (c.a (tyFmt ty) l) + intOf ty (c.b (tyFmt ty) l))) ∧
  (∀ o ty sat, Delivers (.isub o ty sat) (tyWidth ty / 32) fun c l =>
    fitOf ty sat (intOf ty (c.a (tyFmt ty) l) - intOf ty (c.b (tyFmt ty) l))) ∧
  (∀ o ty, Delivers (.imul o ty) (tyWidth ty / 32) fun c l =>
    wrapOf ty (intOf ty (c.a (tyFmt ty) l) * intOf ty (c.b (tyFmt ty) l))) ∧
  (∀ o ty, Delivers (.imad o ty) (tyWidth ty / 32) fun c l =>
    wrapOf ty (intOf ty (c.a (tyFmt ty) l) * intOf ty (c.b (tyFmt ty) l) + intOf ty (c.c (tyFmt ty) l))) ∧
  (∀ o ty, Delivers (.imulhi o ty) (tyWidth ty / 32) fun c l =>
    wrapOf ty (intOf ty (c.a (tyFmt ty) l) * intOf ty (c.b (tyFmt ty) l) / 2 ^ tyWidth ty)) ∧
  (∀ o ty, Delivers (.imin o ty) (tyWidth ty / 32) fun c l =>
    (if intOf ty (c.a (tyFmt ty) l) ≤ intOf ty (c.b (tyFmt ty) l) then c.a (tyFmt ty) l else c.b (tyFmt ty) l)) ∧
  (∀ o ty, Delivers (.imax o ty) (tyWidth ty / 32) fun c l =>
    (if intOf ty (c.a (tyFmt ty) l) ≤ intOf ty (c.b (tyFmt ty) l) then c.b (tyFmt ty) l else c.a (tyFmt ty) l)) ∧
  (∀ o ty sat, Delivers (.iabs o ty sat) (tyWidth ty / 32) fun c l =>
    fitOf ty sat (if intOf ty (c.a (tyFmt ty) l) < 0 then -intOf ty (c.a (tyFmt ty) l) else intOf ty (c.a (tyFmt ty) l))) ∧
  (∀ o ty sat, Delivers (.ineg o ty sat) (tyWidth ty / 32) fun c l => fitOf ty sat (-intOf ty (c.a (tyFmt ty) l))) ∧
  (∀ o sh zx, Delivers (.lea64 o sh zx) 2 fun c l =>
    (BitVec.ofNat 64 (c.a .u64 l) +
      (if zx then (BitVec.ofNat 32 (c.b .b32 l)).setWidth 64 else (BitVec.ofNat 32 (c.b .b32 l)).signExtend 64) <<< sh.val).toNat) ∧
  (∀ o cond ty, DeliversPred (.iset o cond ty) fun c l =>
    (match cond with
     | .eq => decide (intOf ty (c.a (tyFmt ty) l) = intOf ty (c.b (tyFmt ty) l))
     | .ne => decide (intOf ty (c.a (tyFmt ty) l) ≠ intOf ty (c.b (tyFmt ty) l))
     | .lt => decide (intOf ty (c.a (tyFmt ty) l) < intOf ty (c.b (tyFmt ty) l))
     | .le => decide (intOf ty (c.a (tyFmt ty) l) ≤ intOf ty (c.b (tyFmt ty) l))
     | .gt => decide (intOf ty (c.a (tyFmt ty) l) > intOf ty (c.b (tyFmt ty) l))
     | .ge => decide (intOf ty (c.a (tyFmt ty) l) ≥ intOf ty (c.b (tyFmt ty) l)))) ∧
  (∀ o ty, Delivers (.sel o ty) (tyWidth ty / 32) fun c l => if c.pred o.c l then c.a (tyFmt ty) l else c.b (tyFmt ty) l) ∧
  (∀ o lut, DeliversPred (.plop o lut) fun c l =>
    lut.getLsbD ((if c.pred o.a l then 4 else 0) + (if c.pred o.b l then 2 else 0) + (if c.pred o.c l then 1 else 0)))

/-- 11 R169, R170: every bit instruction that may act completes with the value the rule gives: shifts by the width or more give 0 (SAR the
sign), BFX and BFI act on the field that lies within the width, POPC, CLZ and BREV count and reverse. -/
def Obligations.BitResults : Prop :=
  ∀ (o : Ops) (w : Bool),
    Delivers (.and o w) (bitWidth w / 32) (fun c l => (BitVec.ofNat (bitWidth w) (c.a (bitFmt w) l) &&& BitVec.ofNat (bitWidth w) (c.b (bitFmt w) l)).toNat) ∧
    Delivers (.or o w) (bitWidth w / 32) (fun c l => (BitVec.ofNat (bitWidth w) (c.a (bitFmt w) l) ||| BitVec.ofNat (bitWidth w) (c.b (bitFmt w) l)).toNat) ∧
    Delivers (.xor o w) (bitWidth w / 32) (fun c l => (BitVec.ofNat (bitWidth w) (c.a (bitFmt w) l) ^^^ BitVec.ofNat (bitWidth w) (c.b (bitFmt w) l)).toNat) ∧
    Delivers (.not o w) (bitWidth w / 32) (fun c l => (~~~ BitVec.ofNat (bitWidth w) (c.a (bitFmt w) l)).toNat) ∧
    Delivers (.shl o w) (bitWidth w / 32) (fun c l => (BitVec.ofNat (bitWidth w) (c.a (bitFmt w) l) <<< (c.b .u32 l)).toNat) ∧
    Delivers (.shr o w) (bitWidth w / 32) (fun c l => (BitVec.ofNat (bitWidth w) (c.a (bitFmt w) l) >>> (c.b .u32 l)).toNat) ∧
    Delivers (.sar o w) (bitWidth w / 32) (fun c l => ((BitVec.ofNat (bitWidth w) (c.a (bitFmt w) l)).sshiftRight (c.b .u32 l)).toNat) ∧
    (∀ sx, Delivers (.bfx o w sx) (bitWidth w / 32) fun c l =>
      (BitVec.ofInt (bitWidth w) (
        if sx then (((BitVec.ofNat (bitWidth w) (c.a (bitFmt w) l)).extractLsb' (c.b .u32 l) (min (c.c .u32 l) (bitWidth w - c.b .u32 l))).toInt)
        else ((BitVec.ofNat (bitWidth w) (c.a (bitFmt w) l)).extractLsb' (c.b .u32 l) (min (c.c .u32 l) (bitWidth w - c.b .u32 l))).toNat)).toNat) ∧
    (∀ (s : State) (c : Ctx) (l : Nat), s.Ready (.bfi o w) c → ∀ k, k < bitWidth w →
      (bfiBits (bitWidth w) (c.a (bitFmt w) l) (c.b (bitFmt w) l) (c.c .u32 l) (c.e .u32 l)).testBit k =
        (if c.c .u32 l ≤ k ∧ k < c.c .u32 l + c.e .u32 l then (c.b (bitFmt w) l).testBit (k - c.c .u32 l) else (c.a (bitFmt w) l).testBit k)) ∧
    Delivers (.bfi o w) (bitWidth w / 32) (fun c l => bfiBits (bitWidth w) (c.a (bitFmt w) l) (c.b (bitFmt w) l) (c.c .u32 l) (c.e .u32 l)) ∧
    Delivers (.popc o w) 1 (fun c l => ((List.range (bitWidth w)).filter (c.a (bitFmt w) l).testBit).length) ∧
    Delivers (.clz o w) 1 (fun c l => (BitVec.ofNat (bitWidth w) (c.a (bitFmt w) l)).clz.toNat) ∧
    Delivers (.brev o w) (bitWidth w / 32) (fun c l => (BitVec.ofNat (bitWidth w) (c.a (bitFmt w) l)).reverse.toNat)

/-- 11 R172 to R178: every FP32 instruction that may act completes: sums, products and fused products are computed exactly and rounded once
by RM, flushed under FTZ; FMIN to FNEG deliver bits; FSET compares. The special functions deliver a function of the bits of A (and for HRND of B);
FRCP of zero is an infinity of its sign and FSQRT of a negative number a NaN, whatever the mode. FRSQ gives one of the two F32 values that
bracket the exact result, and the exact one where it is an F32 value; FEX2 of an integer and FLG2 of a power of two are exact; FSIN and FCOS lie
within 2^-22 of the value computed to 512 bits and within 1, flushed under FTZ. Which value within the bounds is returned is free (log entry 6). -/
def Obligations.FloatResults : Prop :=
  (∀ (o : Ops),
     Delivers (.fadd o) 1 (fun c l => roundTo (addExact o.rm (val .f32 o.ftz (c.a .f32 l)) (val .f32 o.ftz (c.b .f32 l))) .f32 o.rm false o.ftz) ∧
     Delivers (.fsub o) 1 (fun c l => roundTo (addExact o.rm (val .f32 o.ftz (c.a .f32 l)) (negExact (val .f32 o.ftz (c.b .f32 l)))) .f32 o.rm false o.ftz) ∧
     Delivers (.fmul o) 1 (fun c l => roundTo (mulExact (val .f32 o.ftz (c.a .f32 l)) (val .f32 o.ftz (c.b .f32 l))) .f32 o.rm false o.ftz) ∧
     Delivers (.ffma o) 1 (fun c l =>
       roundTo (fmaExact o.rm (val .f32 o.ftz (c.a .f32 l)) (val .f32 o.ftz (c.b .f32 l)) (val .f32 o.ftz (c.c .f32 l))) .f32 o.rm false o.ftz) ∧
     Delivers (.fmin o) 1 (fun c l => floatMinMax .f32 o.ftz false (c.a .f32 l) (c.b .f32 l)) ∧
     Delivers (.fmax o) 1 (fun c l => floatMinMax .f32 o.ftz true (c.a .f32 l) (c.b .f32 l)) ∧
     Delivers (.fmaxx o) 2 (fun c l => pairMinMax true (c.a .b64 l) (c.b .b64 l)) ∧
     Delivers (.fminx o) 2 (fun c l => pairMinMax false (c.a .b64 l) (c.b .b64 l)) ∧
     Delivers (.fabs o) 1 (fun c l => (BitVec.ofNat 32 (flushed .f32 o.ftz (c.a .f32 l)) &&& 0x7FFFFFFF#32).toNat) ∧
     Delivers (.fneg o) 1 (fun c l => (BitVec.ofNat 32 (flushed .f32 o.ftz (c.a .f32 l)) ^^^ 0x80000000#32).toNat) ∧
     (∀ cond, DeliversPred (.fset o cond) fun c l =>
       (let a := val .f32 o.ftz (c.a .f32 l)
        let b := val .f32 o.ftz (c.b .f32 l)
        if a.isNan || b.isNan then decide (cond = .ne ∨ cond = .nan)
        else
          match cond with
          | .lt => numLt a b
          | .gt => numLt b a
          | .le => !numLt b a
          | .ge => !numLt a b
          | .eq => !numLt a b && !numLt b a
          | .ne => numLt a b || numLt b a
          | .num => true
          | .nan => false)) ∧
     Delivers (.frnd o) 1 (fun c l =>
       (match val .f32 o.ftz (c.a .f32 l) with
        | .fin n m e => roundTo (.fin n (roundIntMag o.rm n m e) 0) .f32 .rne false o.ftz
        | y => roundTo y .f32 .rne false o.ftz))) ∧
  ((∀ (o : Ops),
     Delivers (.frcp o) 1 (fun c l => frcpBits o.rm o.ftz (c.a .f32 l)) ∧
     Delivers (.fsqrt o) 1 (fun c l => fsqrtBits o.rm o.ftz (c.a .f32 l)) ∧
     Delivers (.frsq o) 1 (fun c l => frsqBits o.ftz (c.a .f32 l)) ∧
     Delivers (.fex2 o) 1 (fun c l => fex2Bits o.ftz (c.a .f32 l)) ∧
     Delivers (.flg2 o) 1 (fun c l => flg2Bits o.ftz (c.a .f32 l)) ∧
     Delivers (.fsin o) 1 (fun c l => fsinBits o.ftz (c.a .f32 l)) ∧
     Delivers (.fcos o) 1 (fun c l => fcosBits o.ftz (c.a .f32 l)) ∧
     Delivers (.ftanh o) 1 (fun c l => ftanhBits o.ftz (c.a .f32 l)) ∧
     Delivers (.hrnd o) 1 (fun c l => hrndBits (c.a .u64 l) (c.b .u64 l))) ∧
   (∀ rm ftz, frcpBits rm ftz 0x00000000 = 0x7F800000 ∧ frcpBits rm ftz 0x80000000 = 0xFF800000 ∧
     frcpBits rm ftz 0x7F800000 = 0 ∧ frcpBits rm ftz 0xFF800000 = 0x80000000 ∧
     fsqrtBits rm ftz 0xBF800000 = 0x7FC00000 ∧ fsqrtBits rm ftz 0x80000000 = 0x80000000 ∧ fsqrtBits rm ftz 0x40800000 = 0x40000000)) ∧
  (∀ ftz, frsqBits ftz 0 = 0x7F800000 ∧ frsqBits ftz 0x80000000 = 0xFF800000 ∧ frsqBits ftz 0xBF800000 = 0x7FC00000 ∧ frsqBits ftz 0x7F800000 = 0 ∧
    fex2Bits ftz 0xFF800000 = 0 ∧ fex2Bits ftz 0x7F800000 = 0x7F800000 ∧ fex2Bits ftz 0x43000000 = 0x7F800000 ∧
    flg2Bits ftz 0 = 0xFF800000 ∧ flg2Bits ftz 0x80000000 = 0xFF800000 ∧ flg2Bits ftz 0xBF800000 = 0x7FC00000 ∧ flg2Bits ftz 0x7F800000 = 0x7F800000 ∧
    fsinBits ftz 0x80000000 = 0x80000000 ∧ fsinBits ftz 0x7F800000 = 0x7FC00000 ∧ fcosBits ftz 0 = 0x3F800000 ∧ fcosBits ftz 0xFF800000 = 0x7FC00000 ∧
    ftanhBits ftz 0x80000000 = 0x80000000 ∧ ftanhBits ftz 0x7F800000 = 0x3F800000 ∧ ftanhBits ftz 0xFF800000 = 0xBF800000) ∧
  (∀ (ftz : Bool) (bits m : Nat) (e : Int), val .f32 ftz bits = .fin false m e → m ≠ 0 →
    ∃ (lo m1 m2 : Nat) (e1 e2 : Int), decodeNum .f32 lo = .fin false m1 e1 ∧ decodeNum .f32 (lo + 1) = .fin false m2 e2 ∧
      (frsqBits ftz bits = lo ∨ frsqBits ftz bits = lo + 1) ∧
      scaled false m1 e1 (-100) ^ 2 * scaled false m e (-149) ≤ 2 ^ 349 ∧ 2 ^ 349 < scaled false m2 e2 (-100) ^ 2 * scaled false m e (-149) ∧
      (scaled false m1 e1 (-100) ^ 2 * scaled false m e (-149) = 2 ^ 349 → frsqBits ftz bits = lo)) ∧
  (∀ k : Int, -149 ≤ k → k < 128 → fex2Bits false (roundTo (numOfInt k) .f32 .rne false false) = roundTo (.fin false 1 k) .f32 .rne false false ∧
    flg2Bits false (roundTo (.fin false 1 k) .f32 .rne false false) = roundTo (numOfInt k) .f32 .rne false false) ∧
  (∀ (op : SfuOp) (ftz : Bool) (bits : Nat) (x : Int), x.natAbs ≤ 2 ^ fixBits → ∃ (n : Bool) (m : Nat) (e : Int),
    decodeNum .f32 (bounded op bits ftz x) = .fin n m e ∧ (scaled n m e (-(fixBits : Int)) - x).natAbs ≤ 2 ^ (fixBits - 22) ∧
      (scaled n m e (-(fixBits : Int))).natAbs ≤ 2 ^ fixBits) ∧
  (∀ (ftz n : Bool) (bits m : Nat) (e : Int), val .f32 ftz bits = .fin n m e → m ≠ 0 →
    fsinBits ftz bits = flushF32 ftz (bounded .fsin bits ftz (sinExact n m e)) ∧ fcosBits ftz bits = flushF32 ftz (bounded .fcos bits ftz (cosExact m e)))

/-- 11 R180 to R182: every packed instruction that may act completes: element i of D comes from element i of the sources, each computed
exactly and rounded once; PSET's predicate; PDOT's one window sum with the accumulator last. -/
def Obligations.PackedResults : Prop :=
  ∀ (o : Ops) (pf : PackFmt),
    let w := fmtWidth (packElem pf).1
    let n := (packElem pf).2
    let A := fun (c : Ctx) l i => val (packElem pf).1 o.ftz (c.a (packCode pf) l / 2 ^ (w * i) % 2 ^ w)
    let B := fun (c : Ctx) l i => val (packElem pf).1 o.ftz (c.b (packCode pf) l / 2 ^ (w * i) % 2 ^ w)
    let C := fun (c : Ctx) l i => val (packElem pf).1 o.ftz (c.c (packCode pf) l / 2 ^ (w * i) % 2 ^ w)
    let R := fun (sat : Bool) (x : Machine.Num) => roundTo x (packElem pf).1 o.rm sat o.ftz
    (∀ sat, Delivers (.padd o pf sat) 1 fun c l => mapElems w n fun i => R sat (addExact o.rm (A c l i) (B c l i))) ∧
    (∀ sat, Delivers (.psub o pf sat) 1 fun c l => mapElems w n fun i => R sat (addExact o.rm (A c l i) (negExact (B c l i)))) ∧
    (∀ sat, Delivers (.pmul o pf sat) 1 fun c l => mapElems w n fun i => R sat (mulExact (A c l i) (B c l i))) ∧
    (∀ sat, Delivers (.pfma o pf sat) 1 fun c l => mapElems w n fun i => R sat (fmaExact o.rm (A c l i) (B c l i) (C c l i))) ∧
    Delivers (.pmin o pf) 1 (fun c l => mapElems w n fun i =>
      floatMinMax (packElem pf).1 o.ftz false (c.a (packCode pf) l / 2 ^ (w * i) % 2 ^ w) (c.b (packCode pf) l / 2 ^ (w * i) % 2 ^ w)) ∧
    Delivers (.pmax o pf) 1 (fun c l => mapElems w n fun i =>
      floatMinMax (packElem pf).1 o.ftz true (c.a (packCode pf) l / 2 ^ (w * i) % 2 ^ w) (c.b (packCode pf) l / 2 ^ (w * i) % 2 ^ w)) ∧
    (∀ cond k j, o.d = .cls k j → DeliversPred (.pset o pf cond false) fun c l => decide (∀ i, i < n → floatCond cond (A c l i) (B c l i) = true)) ∧
    (∀ cond k j, o.d = .cls k j → DeliversPred (.pset o pf cond true) fun c l => decide (∃ i, i < n ∧ floatCond cond (A c l i) (B c l i) = true)) ∧
    (∀ cond any, (∀ k j, o.d ≠ .cls k j) → Delivers (.pset o pf cond any) 1 fun c l =>
      mapElems w n fun i => if floatCond cond (A c l i) (B c l i) then 2 ^ w - 1 else 0) ∧
    (∀ sat, Delivers (.pdot o pf sat) 1 fun c l =>
      windowSum ((List.range n).map (fun i => mulExact (A c l i) (B c l i)) ++ [mulExact (val .f32 o.ftz (c.c .f32 l)) (.fin false 1 0)])
        .f32 o.rm sat o.ftz)

/-- 11 R183 to R188: every conversion that may act completes with the value the rule gives; PACK joins rounded elements, UNPK writes one
register for each element, QSCALE one scale for all executing lanes. -/
def Obligations.ConversionResults : Prop :=
  ∀ (o : Ops),
    (∀ dst src sat, Delivers (.cvt o dst src sat) (fmtWidth dst / 32 + if fmtWidth dst % 32 = 0 then 0 else 1) fun c l =>
      regForm dst (convert src dst o.rm sat o.ftz (c.a src l))) ∧
    (∀ bf sat, Delivers (.pack2 o bf sat) 1 fun c l =>
      (let f : Fmt := if bf then .bf16 else .f16
       roundTo (val .f32 o.ftz (c.a .f32 l)) f o.rm sat o.ftz % 2 ^ 16 +
         2 ^ 16 * (roundTo (val .f32 o.ftz (c.b .f32 l)) f o.rm sat o.ftz % 2 ^ 16))) ∧
    (∀ e5 sat, Delivers (.pack4 o e5 sat) 1 fun c l =>
      (let f : Fmt := if e5 then .e5m2 else .e4m3
       let r := fun x => roundTo (val .f32 o.ftz x) f o.rm sat o.ftz % 2 ^ 8
       r (c.a .f32 l) + 2 ^ 8 * r (c.b .f32 l) + 2 ^ 16 * r (c.c .f32 l) + 2 ^ 24 * r (c.e .f32 l))) ∧
    (∀ pf, Delivers (.unpk o pf) (packElem pf).2 fun c l =>
      joinElems 32 ((List.range (packElem pf).2).map fun i =>
        roundTo (val (packElem pf).1 o.ftz (c.a (packCode pf) l / 2 ^ (fmtWidth (packElem pf).1 * i) % 2 ^ fmtWidth (packElem pf).1))
          .f32 .rne false false)) ∧
    Delivers (.fkey o false) 1 (fun c l => fkeyBits (c.a .f32 l)) ∧
    Delivers (.fkey o true) 1 (fun c l => fkeyBits (widenF32 .f16 (c.a .f16 l))) ∧
    (∀ q, Delivers (.qscale o q) 1 fun c _ => qscaleOf (qFmt q) (c.lanes.map fun l => decodeNum .f32 (c.a .f32 l))) ∧
    (∀ bf, Delivers (.sprune o bf) 2 fun c l =>
      (let f : Fmt := if bf then .bf16 else .f16
       let pf : PackFmt := if bf then .bf2 else .h2
       let x := [c.a (packCode pf) l % 2 ^ 16, c.a (packCode pf) l / 2 ^ 16 % 2 ^ 16, c.b (packCode pf) l % 2 ^ 16, c.b (packCode pf) l / 2 ^ 16 % 2 ^ 16]
       let i := (pruneTop f x).getD 0 0
       let j := (pruneTop f x).getD 1 0
       x.getD i 0 + x.getD j 0 * 2 ^ 16 + (i + 4 * j) * 2 ^ 32))

/-- 12 R197, R198, R199, R235 to R245 and others: NOP, and YIELD without LAT, change nothing but what ends every instruction; and where no
lane executes, an instruction that acts once for its group has no effect of its own. -/
def Obligations.NoEffect : Prop :=
  (∀ o s c, State.Ready s (.nop o) c → s.Acts (.nop o) c s [] true) ∧
  (∀ o disp s c, State.Ready s (.yield o false disp) c → s.Acts (.yield o false disp) c s [] true) ∧
  (∀ i s c, State.Ready s i c → c.x = 0 →
    (match i with
     | .base _ | .ggrow _ | .trigger _ | .time _ | .camwait _ | .camfree .. | .fence .. | .fencew .. | .enq .. | .qsub .. | .qunsub .. => True
     | _ => False) → s.Acts i c s [] true)

/-- 12 R193, R194: IF, LOOP, and what they push. The lanes in which the condition holds run on, the others wait in the frame; where both sides
have lanes and the group has fewer than four splits, the split divides: the new split, youngest but for its elder, holds the other lanes at the
ELSE side, and both carry a divided frame that names the other. A full stack takes MASK_STACK. -/
def Obligations.StructuredEntry : Prop :=
  ((∀ o neg disp s c, State.Ready s (.if_ o neg disp) c →
     let t := ((c.split.pc : Int) + disp.toInt).toNat
     let tm := maskOf fun l => laneIn c.split.mask l && (c.pred c.o.a l != neg)
     let fm := c.split.mask &&& ~~~tm
     (c.split.frames.length ≥ 16 → s.Faults (.if_ o neg disp) c .maskStack) ∧
     (c.split.frames.length < 16 → tm ≠ 0 → fm ≠ 0 → c.group.splits.length < 4 →
       s.Acts (.if_ o neg disp) c (c.divide t tm fm) [] false) ∧
     (c.split.frames.length < 16 → (tm = 0 ∨ fm = 0 ∨ c.group.splits.length ≥ 4) →
       s.Acts (.if_ o neg disp) c
         (s.modSplit c.r fun p =>
           { p with pc := if tm = 0 then t else p.pc + 1, mask := tm, unwound := tm == 0, frames := .ifF false false t p.mask fm 0 :: p.frames }) [] false)) ∧
   (∀ o disp s c, State.Ready s (.loop o disp) c →
     (c.split.frames.length ≥ 16 → s.Faults (.loop o disp) c .maskStack) ∧
     (c.split.frames.length < 16 →
       s.Acts (.loop o disp) c
         ((s.modSplit c.r fun p =>
           { p with pc := c.split.pc + 1, mask := c.split.mask, unwound := false,
                    frames := .loopF (c.split.pc + 1) ((c.split.pc : Int) + disp.toInt).toNat c.split.mask 0 :: c.split.frames }).unwind c.r)
         [] false))) ∧
  (∀ (c : Ctx) (t : Nat) (tm fm : Mask) (g : Group), c.s.group? c.r = some g → g.split? c.r.split = some c.split →
     c.group.nextSid = g.nextSid → (∀ p ∈ g.splits, p.sid < g.nextSid) → c.split.sid = c.r.split →
     ∃ a b, (c.divide t tm fm).split? c.r = some a ∧ (c.divide t tm fm).split? (c.r.other g.nextSid) = some b ∧
       a.pc = c.split.pc + 1 ∧ a.mask = tm ∧ a.frames = .ifF true false t c.split.mask 0 g.nextSid :: c.split.frames ∧
       b.pc = t ∧ b.mask = fm ∧ b.frames = .ifF true true t c.split.mask 0 c.split.sid :: c.split.frames ∧
       b.lct = c.split.lct ∧ b.level = c.split.level ∧ b.park = .none ∧
       (∀ n, n ≠ c.r.split → n ≠ g.nextSid → (c.divide t tm fm).split? (c.r.other n) = c.s.split? (c.r.other n)))

/-- 12 R193: ELSE, ENDIF and ENDLOOP at the frame they belong to, and MASK_STACK where the top frame is not that frame. -/
def Obligations.StructuredExit : Prop :=
  (∀ o disp s c dv side next ms fm pair rest, State.Ready s (.else_ o disp) c → c.split.frames = .ifF dv side next ms fm pair :: rest →
    let t := ((c.split.pc : Int) + disp.toInt).toNat
    (next ≠ c.split.pc → s.Faults (.else_ o disp) c .maskStack) ∧
    (next = c.split.pc → side = true →
      s.Acts (.else_ o disp) c (c.steer (c.split.pc + 1) c.split.mask (.ifF dv side t ms fm pair :: rest)) [] false) ∧
    (next = c.split.pc → side = false → dv = true →
      s.Acts (.else_ o disp) c (c.steer t c.split.mask (.ifF dv side t ms fm pair :: rest)) [] false) ∧
    (next = c.split.pc → side = false → dv = false →
      s.Acts (.else_ o disp) c
        (c.steer (if fm &&& ~~~c.group.exited = 0 then t else c.split.pc + 1) (fm &&& ~~~c.group.exited) (.ifF dv true t ms fm pair :: rest))
        [] false)) ∧
  (∀ o s c dv side next ms fm pair rest, State.Ready s (.endif o) c → c.split.frames = .ifF dv side next ms fm pair :: rest →
    (next ≠ c.split.pc → s.Faults (.endif o) c .maskStack) ∧
    (next = c.split.pc → dv = true → s.Acts (.endif o) c (s.modSplit c.r fun p => { p with park := .merge }) [] false) ∧
    (next = c.split.pc → dv = false → s.Acts (.endif o) c (c.steer (c.split.pc + 1) (ms &&& ~~~c.group.exited) rest) [] false)) ∧
  (∀ o s c start fin ms ct rest, State.Ready s (.endloop o) c → c.split.frames = .loopF start fin ms ct :: rest →
    let m := c.split.mask ||| (ct &&& ~~~c.group.exited)
    (fin ≠ c.split.pc → s.Faults (.endloop o) c .maskStack) ∧
    (fin = c.split.pc → m ≠ 0 → s.Acts (.endloop o) c (c.steer start m (.loopF start fin ms 0 :: rest)) [] false) ∧
    (fin = c.split.pc → m = 0 → s.Acts (.endloop o) c (c.steer (c.split.pc + 1) (ms &&& ~~~c.group.exited) rest) [] false)) ∧
  (∀ i s c, State.Ready s i c → c.split.frames = [] → (∃ o disp, i = .else_ o disp) ∨ (∃ o, i = .endif o) ∨ (∃ o, i = .endloop o) →
    s.Faults i c .maskStack)

/-- 12 R193, R196, R197: BREAK and CONT take lanes out of the topmost loop, JMP, CALL and RET move the whole split or nothing, EXIT takes its
lanes out of the group for good. A condition that holds in some lanes of the split only is DIVERGENT_JUMP. -/
def Obligations.JumpsAndExits : Prop :=
  (∀ o neg s c fr, State.Ready s (.break_ o neg) c → leaveLoop false (c.cond neg) c.split.frames = some fr →
    s.Acts (.break_ o neg) c (c.steer (c.split.pc + 1) (c.split.mask &&& ~~~c.cond neg) fr) [] false) ∧
  (∀ o neg s c fr, State.Ready s (.cont o neg) c → leaveLoop true (c.cond neg) c.split.frames = some fr →
    s.Acts (.cont o neg) c (c.steer (c.split.pc + 1) (c.split.mask &&& ~~~c.cond neg) fr) [] false) ∧
  (∀ o neg s c, State.Ready s (.jmp o neg) c → c.badTarget = false →
    (c.cond neg ≠ 0 → c.cond neg ≠ c.split.mask → s.Faults (.jmp o neg) c .divergentJump) ∧
    (c.cond neg = c.split.mask → s.Acts (.jmp o neg) c (c.steer c.uniB c.split.mask c.split.frames) [] false) ∧
    (c.cond neg = 0 → c.split.mask ≠ 0 → s.Acts (.jmp o neg) c (c.steer (c.split.pc + 1) c.split.mask c.split.frames) [] false)) ∧
  (∀ o neg s c, State.Ready s (.call o neg) c → c.badTarget = false →
    (c.cond neg ≠ 0 → c.cond neg ≠ c.split.mask → s.Faults (.call o neg) c .divergentJump) ∧
    (c.cond neg = c.split.mask → c.split.frames.length < 16 →
      s.Acts (.call o neg) c (c.steer c.uniB c.split.mask (.callF (c.split.pc + 1) c.split.mask :: c.split.frames)) [] false) ∧
    (c.cond neg = 0 → c.split.mask ≠ 0 → s.Acts (.call o neg) c (c.steer (c.split.pc + 1) c.split.mask c.split.frames) [] false)) ∧
  (∀ o neg s c, State.Ready s (.ret o neg) c →
    (c.cond neg ≠ 0 → c.cond neg ≠ c.split.mask → s.Faults (.ret o neg) c .divergentJump) ∧
    (∀ ret ms rest, c.cond neg = c.split.mask → c.split.frames = .callF ret ms :: rest →
      s.Acts (.ret o neg) c (c.steer ret (ms &&& ~~~c.group.exited) rest) [] false) ∧
    (c.cond neg = c.split.mask → (∀ ret ms rest, c.split.frames ≠ .callF ret ms :: rest) → s.Faults (.ret o neg) c .maskStack) ∧
    (c.cond neg = 0 → c.split.mask ≠ 0 → s.Acts (.ret o neg) c (c.steer (c.split.pc + 1) c.split.mask c.split.frames) [] false)) ∧
  (∀ o s c, State.Ready s (.exit o) c →
    s.Acts (.exit o) c
      (((s.modGroup c.r fun g => { g with exited := g.exited ||| c.x }).modSplit c.r fun p =>
        { p with pc := p.pc + 1, mask := p.mask &&& ~~~c.x }).unwind c.r) [] false)

/-- 12 R199, R200: with .arv the split's arrival is recorded with the writes its fence waits for and it goes on; without, it parks at the
barrier. An id or count out of range is ILLEGAL_OPERAND. BAR names the team's 16 barriers, BARC the cluster's 4. -/
def Obligations.Barriers : Prop :=
  ∀ (clu arv : Bool) (o : Ops) (s : State) (c : Ctx),
    let i : Instr := if clu then .barc o arv else .bar o arv
    let last := if clu then 3 else 15
    s.Ready i c →
    (c.uniA > last ∨ c.uniB > 32 → s.Faults i c .illegalOperand) ∧
    (c.uniA ≤ last → c.uniB ≤ 32 → c.x = 0 → s.Acts i c s [] true) ∧
    (c.uniA ≤ last → c.uniB ≤ 32 → c.x ≠ 0 → arv = false →
      s.Acts i c (((s.modSplit c.r fun p =>
        { p with park := .barFence clu c.uniA (s.barPhase c.team clu c.uniA) c.uniB }).passing c.r (clu, c.uniA, s.barPhase c.team clu c.uniA)).checkFence
          c.r) [] true) ∧
    (c.uniA ≤ last → c.uniB ≤ 32 → c.x ≠ 0 → arv = true →
      s.Acts i c (((s.modSplit c.r fun p =>
        { p with arrivals := p.arrivals ++ [{ clu := clu, id := c.uniA, phase := s.barPhase c.team clu c.uniA, n := c.uniB,
                                              ids := s.writesOut c.r, lct := p.lct, met := false }] }).passing c.r
          (clu, c.uniA, s.barPhase c.team clu c.uniA)).checkFence c.r) [] true)

/-- 12 R203: the lane instructions that may act complete: SHFL and LANEBC read A in another lane, 0 where that lane does not execute (unless
.lv), VOTE and MATCH count executing lanes only, ELECT names the lowest. -/
def Obligations.LaneResults : Prop :=
  ∀ (o : Ops),
    (∀ w b64, Delivers (.shfl o w b64) (if b64 then 2 else 1) fun c l =>
      (let n := match w with | .w32 => 32 | .w16 => 16 | .w8 => 8 | .w4 => 4
       let k := l / n * n + c.field o.b false false l % n
       if laneIn c.x k || o.lv then c.field o.a b64 false k else 0)) ∧
    (∀ b64, Delivers (.lanebc o b64) (if b64 then 2 else 1) fun c _ =>
      (let k := c.field o.b false false 0 % 32
       if laneIn c.x k || o.lv then c.field o.a b64 false k else 0)) ∧
    Delivers (.vote o .all) 1 (fun c _ => if lanes.all fun l => !laneIn c.x l || c.pred o.a l then 1 else 0) ∧
    Delivers (.vote o .any) 1 (fun c _ => if lanes.any fun l => laneIn c.x l && c.pred o.a l then 1 else 0) ∧
    Delivers (.vote o .uni) 1 (fun c _ =>
      if (lanes.all fun l => !laneIn c.x l || c.pred o.a l) || (lanes.all fun l => !laneIn c.x l || !c.pred o.a l) then 1 else 0) ∧
    Delivers (.vote o .ballot) 1 (fun c _ => (maskOf fun l => laneIn c.x l && c.pred o.a l).toNat) ∧
    (∀ b64, Delivers (.match_ o b64) 1 fun c l => (maskOf fun k => laneIn c.x k && c.field o.a b64 false k == c.field o.a b64 false l).toNat) ∧
    ((∀ n, o.d ≠ .sca n) → Delivers (.elect o) 1 fun c l => if l = ((lowestLane c.x).getD 0) then 1 else 0) ∧
    ((∃ n, o.d = .sca n) → Delivers (.elect o) 1 fun c _ => (lowestLane c.x).getD 0)

/-- 07 R101, R102: CAMBIND puts its binding, BINDING, into the entry that held the slot in its scope, or else into the lowest unbound entry,
and drops that entry's resident arrays; where there is neither it takes CAM_BIND reason 1; with no executing lane it does neither. CAMWAIT
goes on at a bound or absent binding and takes a failed one's fault; CAMFREE empties the entry; CAMINFO shows it. That a CAMBIND with no executing
lane takes no CAM_BIND where the table is full is read from R140 (log entry 42, DEDUCED). -/
def Obligations.CamInstructions : Prop :=
  (∀ o tm fmt wel sin s c e, State.Ready s (.cambind o tm fmt wel sin) c → c.x ≠ 0 →
    c.uniA / 2 ^ 20 = 15 → c.uniA % 128 = 0 → c.uniA % 2 ^ 20 + fixedPart fmt ≤ c.team.kernel.scratch →
    (c.team.entryOf c.r.grp c.o.d.camSlot tm = some e ∨
      c.team.entryOf c.r.grp c.o.d.camSlot tm = none ∧ e < c.team.binds.length ∧ (c.team.binds.getD e Binding.unbound).state = .unbound ∧
        ∀ j, j < e → (c.team.binds.getD j Binding.unbound).state ≠ .unbound) →
    let b : Binding :=
      { state := .binding, fmt := fmt, tm := tm, grp := c.r.grp, slot := c.o.d.camSlot, back := c.uniA % 2 ^ 20, wel := wel, sin := sin,
        reason := 0, failVa := 0, part := c.group.part, sid := c.r.split, freeing := false, tainted := false, waitFor := s.scratchOut c.r }
    s.Acts (.cambind o tm fmt wel sin) c
      ((s.dropEntry c.r.core c.r.team e).modTeam c.r.core c.r.team fun t => { t with binds := t.binds.set e b }) [] true) ∧
  (∀ o tm fmt wel sin s c, State.Ready s (.cambind o tm fmt wel sin) c →
    (c.uniA / 2 ^ 20 ≠ 15 ∨ c.uniA % 128 ≠ 0 ∨ c.uniA % 2 ^ 20 + fixedPart fmt > c.team.kernel.scratch) →
    s.Faults (.cambind o tm fmt wel sin) c .access) ∧
  (∀ o tm fmt wel sin s c, State.Ready s (.cambind o tm fmt wel sin) c →
    c.uniA / 2 ^ 20 = 15 → c.uniA % 128 = 0 → c.uniA % 2 ^ 20 + fixedPart fmt ≤ c.team.kernel.scratch →
    (c.x = 0 → s.Acts (.cambind o tm fmt wel sin) c s [] true) ∧
    (c.x ≠ 0 → c.team.entryOf c.r.grp c.o.d.camSlot tm = none →
      (∀ j, j < c.team.binds.length → (c.team.binds.getD j Binding.unbound).state ≠ .unbound) →
      s.Faults (.cambind o tm fmt wel sin) c (.camBind 1))) ∧
  (∀ o s c, State.Ready s (.camwait o) c → c.x ≠ 0 →
    (c.team.resolve c.r.grp c.o.a.camSlot = none → s.Acts (.camwait o) c s [] true) ∧
    (∀ e, c.team.resolve c.r.grp c.o.a.camSlot = some e →
      ((c.team.binds.getD e Binding.unbound).state = .bound → s.Acts (.camwait o) c s [] true) ∧
      ((c.team.binds.getD e Binding.unbound).state = .failed →
        s.Faults (.camwait o) c (if (c.team.binds.getD e Binding.unbound).reason = 6 then .memoryError
          else .camBind (c.team.binds.getD e Binding.unbound).reason)))) ∧
  (∀ o tm s c e, State.Ready s (.camfree o tm) c → c.x ≠ 0 → c.team.entryOf c.r.grp c.o.d.camSlot tm = some e →
    (c.team.binds.getD e Binding.unbound).state ≠ .binding →
    s.Acts (.camfree o tm) c ((s.dropEntry c.r.core c.r.team e).modTeam c.r.core c.r.team fun t => { t with binds := t.binds.set e Binding.unbound })
      [] true) ∧
  (∀ o, Delivers (.caminfo o) 1 fun c _ =>
    (match c.team.resolve c.r.grp o.a.camSlot with
     | none => 0
     | some e => (c.team.binds.getD e Binding.unbound).info (((c.s.core c.r.core).part c.group.part).arrays.contains (c.r.team, e))))

/-- 07 R105, R108, R109: CAM_BIND_COMPLETE completes a bind whose earlier scratchpad writes are performed: BOUND, its image resident, where the
image passes every test, FAILED with its reason where it does not, unbound where it was freed meanwhile. CAM_RESIDENCY_LOAD completes a load
that a mapped source asked for 32 ticks ago. Either array becomes the most recently used of at most four (which one makes room where mapped sources
use all four is the model's choice, log entry 73). -/
def Obligations.CamUnits : Prop :=
  (∀ core team e err s t, State.team? s core team = some t → (t.binds.getD e Binding.unbound).state = .binding → e < t.binds.length →
    (t.binds.getD e Binding.unbound).waitFor.any (s.core core).unperformed = false →
    let b := t.binds.getD e Binding.unbound
    let img := t.scratch.readBytes b.back (if b.fmt == .e2m1g then 676 else imageBytes b.fmt)
    ∃ (u : State) (t' : Team), exec (.camBindComplete core team e err) s = .next u ∧ u.team? core team = some t' ∧
      (b.freeing = true → (t'.binds.getD e Binding.unbound).state = .unbound) ∧
      (b.freeing = false → err = true → (t'.binds.getD e Binding.unbound).state = .failed ∧ (t'.binds.getD e Binding.unbound).reason = 6) ∧
      (∀ r, b.freeing = false → bindReason b.fmt img b.back t.kernel.scratch err = some r →
        (t'.binds.getD e Binding.unbound).state = .failed ∧ (t'.binds.getD e Binding.unbound).reason = r) ∧
      (b.freeing = false → bindReason b.fmt img b.back t.kernel.scratch err = none →
        (t'.binds.getD e Binding.unbound).state = .bound ∧
        (((s.core core).part b.part).arrays.length ≤ 4 → ((u.core core).part b.part).arrays.getLast? = some (team, e) ∧
          ((u.core core).part b.part).arrays.length ≤ 4)) ∧
      (∀ j, j ≠ e → t'.binds.getD j Binding.unbound = t.binds.getD j Binding.unbound)) ∧
  (∀ core part team e s t, State.team? s core team = some t → (t.binds.getD e Binding.unbound).state = .bound →
    ((s.core core).part part).loadDone (team, e) s.time = true → ((s.core core).part part).arrays.length ≤ 4 →
    ∃ u : State, exec (.camResidencyLoad core part team e) s = .next u ∧
      (((u.core core).part part).arrays.getLast? = some (team, e)) ∧ ((u.core core).part part).arrays.length ≤ 4 ∧
      (∀ x ∈ ((u.core core).part part).loads, x.1 ≠ (team, e)) ∧ u.dram = s.dram)

/-- 12 R204, R207, R208, R211: loads through a base register and gathers, whose lanes all pass their checks, complete by asking for every
lane's sector at its home: strong where SEM says so; only a weak load may instead be answered by an L1 sector under lease. -/
def Obligations.LoadsAsk : Prop :=
  ∀ (i : Instr) (m : MemMode) (s : State) (c : Ctx) (es : List Elem),
    (i = .ld c.o m ∧ c.baseElems m.fmt m.sc m.disp.toInt (elemSize m.fmt) .load c.lanes = .ok es ∨
     i = .ldu c.o m ∧ c.baseElems m.fmt m.sc m.disp.toInt (elemSize m.fmt) .load [0] = .ok es ∧ c.x ≠ 0 ∨
     i = .gld c.o m ∧ checkLanes (fun l => c.atAddr (c.ownAddr c.o.a m.disp l) (elemSize m.fmt) .load l) c.lanes = .ok es) →
    s.Ready i c → c.x ≠ 0 →
    ∃ t : State, s.Acts i c t [] true ∧
      ∀ e ∈ es,
        (∃ q ∈ t.reqs, q.core = c.r.core ∧ q.owner = c.r ∧ q.home = e.x.home ∧ q.sector = e.x.pa / 32 ∧ q.pc = c.split.pc ∧
          q.strong = (m.sem != .weak) ∧ (m.sem ≠ .weak → q.kind = .strongRead) ∧ (m.sem = .weak → ∃ b, q.kind = .read b)) ∨
        (m.sem = .weak ∧ c.o.h ≠ 3 ∧ ((s.core c.r.core).l1Hit (s.coreTime c.r.core) (e.x.pa / 32) c.o.h.toNat).isSome)

/-- 12 R207, R208, R211: stores through a base register and scatters, whose lanes all pass their checks, once a .rel fence is met and no
page they touch may need an entry of the dirty log, complete by sending every lane's bytes, narrowed to the memory format, to the home of its sector. -/
def Obligations.StoresSend : Prop :=
  ∀ (i : Instr) (m : MemMode) (s : State) (c : Ctx) (es : List Elem),
    (i = .st c.o m ∧ c.baseElems m.fmt m.sc m.disp.toInt (elemSize m.fmt) .store c.lanes = .ok es ∨
     i = .stu c.o m ∧ c.baseElems m.fmt m.sc m.disp.toInt (elemSize m.fmt) .store [0] = .ok es ∧ c.x ≠ 0 ∨
     i = .gst c.o m ∧ checkLanes (fun l => c.atAddr (c.ownAddr c.o.a m.disp l) (elemSize m.fmt) .store l) c.lanes = .ok es) →
    s.Ready i c → c.x ≠ 0 → (m.sem = .ordered → s.fenceMet c.r .dev c.split.lct = true) → s.toLog c.v (Fetch.fresh (.word c.r)) (es.map (·.x)) = [] →
    ∃ t : State, s.Acts i c t [] true ∧
      ∀ e ∈ es, ∃ q ∈ t.reqs, q.core = c.r.core ∧ q.owner = c.r ∧ q.home = e.x.home ∧ q.sector = e.x.pa / 32 ∧ q.pc = c.split.pc ∧
        q.strong = (m.sem != .weak) ∧ q.out = none ∧
        ∃ bytes halves, q.kind = .write bytes halves ∧
          (m.fmt = .e2m1 → (e.x.pa % 32, e.high, BitVec.ofNat 4 (c.stored m e.lane)) ∈ halves) ∧
          (m.fmt ≠ .e2m1 → ∀ k, k < elemSize m.fmt → (e.x.pa % 32 + k, BitVec.ofNat 8 (c.stored m e.lane / 256 ^ k)) ∈ bytes)

/-- 12 R213, R214: ATOM, ATOMU and RED, whose lanes pass their checks, complete by sending each lane's step to its sector's home, strong, the
old values coming back for ATOM and ATOMU. -/
def Obligations.AtomicsSend : Prop :=
  ∀ (i : Instr) (m : AtomMode) (s : State) (c : Ctx) (es : List Elem) (ls : List Nat),
    (i = .atom c.o m ∧ ls = c.lanes ∨ i = .red c.o m ∧ ls = c.lanes ∨ i = .atomu c.o m ∧ ls = [0]) →
    checkLanes (fun l => c.atBase (c.group.breg c.o.a.num) (c.offset m.sc m.disp.toInt l) false (atomBytes m.ty) .store l) ls = .ok es →
    s.Ready i c → c.x ≠ 0 → (m.rel = true → s.fenceMet c.r .dev c.split.lct = true) → s.toLog c.v (Fetch.fresh (.word c.r)) (es.map (·.x)) = [] →
    ∃ t : State, s.Acts i c t [] true ∧
      ∀ e ∈ es, ∃ q ∈ t.reqs, q.core = c.r.core ∧ q.owner = c.r ∧ q.home = e.x.home ∧ q.sector = e.x.pa / 32 ∧ q.strong = true ∧
        (q.out.isSome = true ↔ i ≠ .red c.o m) ∧ ∃ steps, q.kind = .atomic steps ∧
          ∃ st ∈ steps, st.lane = e.lane ∧ st.off = e.x.pa % 32 ∧ st.op = m.op ∧ st.ty = m.ty ∧
            st.c = BitVec.ofNat 64 (c.c (atomFmt m.ty) e.lane) ∧ st.e = BitVec.ofNat 64 (c.e (atomFmt m.ty) e.lane)

/-- 12 R207, R211, R214: LDS, STS, ATOMS, GLDS and GSTS, whose lanes pass their checks, complete by asking for every lane's scratchpad
bytes, by naming every lane's bytes to write, or by naming its atomic step; GLDS asks memory for the bytes, GSTS the scratchpad. 05 R74, 12 R207,
R209: BASE loads a base register from a uniform pair, with the page where the address translates, else with limit 0; where a page-table entry has
yet to be read it is held by that read. PREF asks for the sectors of the lanes whose check succeeds, takes no fault and writes no register; ICPREF
has the text lines of B groups of eight words from index A filled that the core does not hold, and keeps the registers and the memory. -/
def Obligations.ScratchpadAccesses : Prop :=
  ((∀ o m s c ps, State.Ready s (.lds o m) c → c.x ≠ 0 → c.scratchElems m.fmt m.sc m.disp.toInt = .ok ps →
     ∃ t : State, s.Acts (.lds o m) c t [] true ∧ t.dram = s.dram ∧
       ∀ p ∈ ps, ∃ q ∈ (t.core c.r.core).sops, q.owner = c.r ∧ q.team = p.team ∧ q.out.isSome = true ∧
         ∀ k, k < elemSize m.fmt → p.off + k ∈ q.reads) ∧
   (∀ o m s c ps, State.Ready s (.sts o m) c → c.scratchElems m.fmt m.sc m.disp.toInt = .ok ps →
     ∃ t : State, s.Acts (.sts o m) c t [] true ∧ t.dram = s.dram ∧
       ∀ p ∈ ps, ∃ q ∈ (t.core c.r.core).sops, q.owner = c.r ∧ q.team = p.team ∧ q.out = none ∧
         (m.fmt = .e2m1 → (p.off, p.high, BitVec.ofNat 4 (c.stored m p.lane)) ∈ q.nibbles) ∧
         (m.fmt ≠ .e2m1 → ∀ k, k < elemSize m.fmt → (p.off + k, BitVec.ofNat 8 (c.stored m p.lane / 256 ^ k)) ∈ q.bytes)) ∧
   (∀ o m s c ps, State.Ready s (.atoms o m) c → c.x ≠ 0 → checkLanes (c.atScratch m.sc m.disp.toInt .b32 (atomBytes m.ty)) c.lanes = .ok ps →
     ∃ t : State, s.Acts (.atoms o m) c t [] true ∧ t.dram = s.dram ∧
       ∀ p ∈ ps, ∃ q ∈ (t.core c.r.core).sops, q.owner = c.r ∧ q.team = p.team ∧ q.out.isSome = true ∧ c.atomStep m p.off p.lane ∈ q.steps) ∧
   (∀ o m s c ends, State.Ready s (.glds o m) c → c.x ≠ 0 → checkLanes (c.bothEnds m .load) c.lanes = .ok ends →
     ∃ t : State, s.Acts (.glds o m) c t [] true ∧
       ∀ e ∈ ends,
         (∃ q ∈ t.reqs, q.owner = c.r ∧ q.home = e.2.x.home ∧ q.sector = e.2.x.pa / 32 ∧ q.out.isSome = true) ∨
         ((s.core c.r.core).l1Hit (s.coreTime c.r.core) (e.2.x.pa / 32) c.o.h.toNat).isSome) ∧
   (∀ o m s c ends, State.Ready s (.gsts o m) c → c.x ≠ 0 → checkLanes (c.bothEnds m .store) c.lanes = .ok ends →
     s.toLog c.v (Fetch.fresh (.word c.r)) (ends.map (·.2.x)) = [] →
     ∃ t : State, s.Acts (.gsts o m) c t [] true ∧
       ∀ e ∈ ends, ∃ q ∈ (t.core c.r.core).sops, q.owner = c.r ∧ q.team = e.1.team ∧ q.out.isSome = true ∧
         ∀ k, k < elemSize m.fmt → e.1.off + k ∈ q.reads)) ∧
  ((∀ o s c, State.Ready s (.base o) c → c.x ≠ 0 →
     let D := fun (b : BaseReg) => s.Acts (.base o) c (s.modGroup c.r fun g => g.setBreg c.o.d.num b) [] true
     let va := c.uniA64
     let page := s.pageVia (s.core c.r.core).tlb (Fetch.fresh (.word c.r)) c.v.cfg va
     ((∃ v, c.o.a = .imm v) → D { vbase := 0, page := none, limit := 0 }) ∧
       ((∀ v, c.o.a ≠ .imm v) →
         (va ≥ 2 ^ 56 → D { vbase := BitVec.ofNat 64 va, page := none, limit := 0 }) ∧
         (∀ k, page = .error (.fault k) → D { vbase := BitVec.ofNat 64 va, page := none, limit := 0 }) ∧
         (∀ p, va < 2 ^ 56 → page = .ok p → D { vbase := BitVec.ofNat 64 va, page := some p, limit := p.size - va % p.size }) ∧
         (∀ pa, va < 2 ^ 56 → page = .error (.walk pa) → ∃ u : State, s.Holds (.base o) c u [] ∧
           ∃ q ∈ u.reqs, q.va = physKey pa ∧ q.kind = .strongRead ∧ q.errand = some (.word c.r)))) ∧
   (∀ o sc disp s c, State.Ready s (.pref o sc disp) c → (∀ l e, l ∈ c.lanes → c.prefElem sc disp.toInt l = .error e → ∃ k, e.kind = .fault k) →
     ∃ t : State, s.Acts (.pref o sc disp) c t [] true ∧ t.dram = s.dram ∧
     t.group? c.r = s.group? c.r ∧
     ∀ l e, l ∈ c.lanes → c.atBase (c.group.breg c.o.a.num) (c.offset sc disp.toInt l) false 1 .load l = .ok e →
       (∃ q ∈ t.reqs, q.owner = c.r ∧ q.home = e.x.home ∧ q.sector = e.x.pa / 32 ∧ q.out = none) ∨
       ((s.core c.r.core).l1Hit (s.coreTime c.r.core) (e.x.pa / 32) c.o.h.toNat).isSome) ∧
   (∀ o s c, State.Ready s (.icpref o) c → ∃ t : State, s.Acts (.icpref o) c t [] true ∧ t.dram = s.dram ∧ t.reqs = s.reqs ∧
     t.group? c.r = s.group? c.r ∧
     ∀ i, c.x ≠ 0 → i < max 1 (min c.uniB 64) → 8 * (c.uniA / 8 + i) < c.team.kernel.words →
       let line := (c.team.kernel.text + 128 * (c.uniA / 8 + i)) / 128
       (s.core c.r.core).icLine c.team.vf line = none → t.wantsLine c.r.core c.team.vf line = true))

/-- 12 R212, 16 R275: a fence whose condition holds lets the split go on at once (a FENCE.sys where no store has gone unanswered, R316);
otherwise the split parks at it, remembering for FENCEW the latest completion time at issue; FENCE_RELEASE lets it go on once the condition
holds. The condition of FENCE at grp and team is that every earlier write of the split has returned, at clu and dev also that the core's device
time is greater than LCT, at sys also that every earlier access to a remote address or the host window has been acknowledged; that of FENCEW at grp
and team is that every earlier scratchpad write has been performed, at the others that the core's device time is greater than LCT as it stood
at issue. What a split shares with the one it divided from counts for both (R194); only local writes return within a scope (log entry 30). -/
def Obligations.Fences : Prop :=
  (∀ o scope s c, State.Ready s (.fence o scope) c → c.x ≠ 0 → (scope = .sys → c.split.unanswered = none) →
    (s.fenceMet c.r scope c.split.lct = true → s.Acts (.fence o scope) c s [] true) ∧
    (s.fenceMet c.r scope c.split.lct = false →
      s.Acts (.fence o scope) c (s.modSplit c.r fun p => { p with park := .fence scope false p.lct }) [] true)) ∧
  (∀ o scope s c, State.Ready s (.fencew o scope) c → c.x ≠ 0 →
    (s.fencewMet c.r scope c.split.lct = true → s.Acts (.fencew o scope) c s [] true) ∧
    (s.fencewMet c.r scope c.split.lct = false →
      s.Acts (.fencew o scope) c (s.modSplit c.r fun p => { p with park := .fence scope true p.lct }) [] true)) ∧
  (∀ (s : State) r lct,
    (s.fenceMet r .grp lct = true ↔ s.WritesBack r) ∧ (s.fenceMet r .team lct = true ↔ s.WritesBack r) ∧
    (s.fenceMet r .clu lct = true ↔ s.WritesBack r ∧ lct < s.coreTime r.core) ∧ (s.fenceMet r .dev lct = true ↔ s.WritesBack r ∧ lct < s.coreTime r.core) ∧
    (s.fenceMet r .sys lct = true ↔ s.WritesBack r ∧ lct < s.coreTime r.core ∧ s.RemoteBack r) ∧
    (s.fencewMet r .grp lct = true ↔ s.ScratchBack r) ∧ (s.fencewMet r .team lct = true ↔ s.ScratchBack r) ∧
    (∀ scope, scope = .clu ∨ scope = .dev ∨ scope = .sys → (s.fencewMet r scope lct = true ↔ lct < s.coreTime r.core))) ∧
  (∀ (s : State) r g p scope only lct, s.group? r = some g → g.split? r.split = some p → p.park = .fence scope only lct →
    (if only then s.fencewMet r scope lct else s.fenceMet r scope p.lct) = true →
    ∃ (u : State) (p' : Split), exec (.fenceRelease r) s = .next (u.checkBarriers r.core r.team).bump ∧ u.split? r = some p' ∧ p'.park = .none ∧
      p'.pc = p.pc ∧ p'.mask = p.mask ∧ u.dram = s.dram ∧ u.reqs = s.reqs) ∧
  (∀ (s : State) r t g p i a c u rs n, s.team? r.core r.team = some t → t.group? r.grp = some g → g.split? r.split = some p → p.park = .release i a →
    p.mayAct t g = true → s.fenceMet r .dev p.lct = true → s.actCtx? r i a = some c → parkedBody i c = .done u rs n →
    exec (.fenceRelease r) s = .next (c.retire u rs n).bump)

/-- 04 R59, R60, R62, R64, 13 R222: every latch instruction completes where its condition holds, and the latch it names becomes what the
rules say: LTINIT sets the targets, LTEXPECT adds to EXP, LTARRIVE counts, LTARRIVE.c releases, LTRESET frees, LTTEST reads the record, LTWAIT
passes taking the largest completion time, YIELD.l continues at its target. An index not below .latches is ILLEGAL_OPERAND. -/
def Obligations.LatchInstructions : Prop :=
  (∀ i s c, State.Ready s i c → c.uniA ≥ c.team.kernel.latches →
    (i = .ltinit c.o ∨ i = .ltexpect c.o ∨ (∃ k, i = .ltarrive c.o k) ∨ i = .ltwait c.o ∨ i = .lttest c.o ∨ (∃ d, i = .ltcont c.o d) ∨
      (∃ d, i = .yield c.o true d) ∨ i = .ltreset c.o) → s.Faults i c .illegalOperand) ∧
  (∀ (s : State) (c : Ctx) (l : Latch), c.uniA < c.team.kernel.latches → c.team.latches.getD c.uniA Latch.fresh = l → c.x ≠ 0 →
    (∀ o, s.Ready (.ltinit o) c → c.uniB ≤ 1023 → c.uniC ≤ 1023 → l.state = .free →
      s.Acts (.ltinit o) c (s.modLatch c.r.core c.r.team c.uniA fun l => { l with arrt := c.uniB, cnst := c.uniC }) [] true) ∧
    (∀ o, s.Ready (.ltexpect o) c → l.over_ = false → l.err = 0 → (l.state = .free ∨ l.state = .filling) → l.exp + c.uniB ≤ 0xFFFFFF →
      s.Acts (.ltexpect o) c (s.modLatch c.r.core c.r.team c.uniA fun l => { l with exp := l.exp + c.uniB, state := .filling }) [] true) ∧
    (∀ o, s.Ready (.ltarrive o false) c → l.state = .filling → s.scratchOut c.r = [] →
      (if c.o.b = Operand.zero then 0 else c.uniB) ≤ 0xFFFFFF →
      s.Acts (.ltarrive o false) c (s.modLatch c.r.core c.r.team c.uniA fun l =>
        { l with arrn := l.arrn + 1, arrb := min (l.arrb + if c.o.b = Operand.zero then 0 else c.uniB) 0xFFFFFF }) [] true) ∧
    (∀ o, s.Ready (.ltarrive o true) c → (l.state = .full ∨ l.state = .draining) → s.scratchOut c.r = [] →
      (if c.o.b = Operand.zero then 0 else c.uniB) ≤ 0xFFFFFF →
      s.Acts (.ltarrive o true) c (s.modLatch c.r.core c.r.team c.uniA fun l =>
        { l with cnsn := l.cnsn + 1, state := if l.err = 0 ∧ l.state = .full then .draining else l.state }) [] true) ∧
    (∀ o, s.Ready (.ltwait o) c → c.uniB ≤ 1 → l.over_ = false → l.err = 0 → (l.phase ≠ (c.uniB == 1) ∨ l.state = .full ∨ l.state = .draining) →
      s.Acts (.ltwait o) c (s.modSplit c.r fun p => { p with lct := max p.lct l.largest }) [] true) ∧
    (∀ o disp, s.Ready (.yield o true disp) c →
      c.uniB ≤ 1 → l.over_ = false → l.err = 0 → (l.phase ≠ (c.uniB == 1) ∨ l.state = .full ∨ l.state = .draining) →
      s.Acts (.yield o true disp) c
        ((s.modSplit c.r fun p => { p with lct := max p.lct l.largest }).modSplit c.r fun p =>
          { p with pc := (((c.split.pc : Int) + disp.toInt) % 2 ^ 32).toNat }) [] false) ∧
    (∀ o, s.Ready (.lttest o) c → s.Acts (.lttest o) c (c.put 4 fun _ => l.record) [] true) ∧
    (∀ o, s.Ready (.ltreset o) c → l.pend = 0 → s.Acts (.ltreset o) c (s.modLatch c.r.core c.r.team c.uniA Latch.reset) [] true)) ∧
  (∀ o disp s c t, State.Ready s (.ltcont o disp) c → c.uniA < c.team.kernel.latches → c.uniB ≤ 1 → c.codeTarget disp = some t → c.x ≠ 0 →
     (c.team.latches.getD c.uniA Latch.fresh).cont = none →
     s.Acts (.ltcont o disp) c
       (c.endHere (s.modLatch c.r.core c.r.team c.uniA fun l =>
         { l with cont := some { target := t, phase := c.uniB == 1, args := c.group.args, level := c.split.level, due := false, at_ := s.time } }))
       [] false)

/-- 04 R60, R61, R64: what a change of a latch settles to: it becomes full when both counts reach their targets, free with PHASE flipped when
every consumer has released it and PEND is 0; a count past its target sets OVER, which stays until LTRESET. -/
def Obligations.LatchTransitions : Prop :=
  ∀ l : Latch,
    (l.err = 0 → l.state = .filling → l.arrb ≥ l.exp → l.arrn ≥ l.arrt → ¬(l.cnsn = l.cnst ∧ l.pend = 0) → l.settle.state = .full) ∧
    (l.err = 0 → l.state = .filling → (l.arrb < l.exp ∨ l.arrn < l.arrt) → l.settle.state = .filling) ∧
    (l.err = 0 → (l.state = .full ∨ l.state = .draining) → l.cnsn = l.cnst → l.pend = 0 →
      l.settle.state = .free ∧ l.settle.phase = !l.phase ∧ l.settle.exp = 0 ∧ l.settle.arrb = 0 ∧ l.settle.arrn = 0 ∧ l.settle.cnsn = 0 ∧
        l.settle.arrt = l.arrt ∧ l.settle.cnst = l.cnst) ∧
    (l.err ≠ 0 → l.settle.state = l.state) ∧
    (l.arrb > l.exp ∨ l.arrn > l.arrt ∨ l.cnsn > l.cnst → l.settle.over_ = true) ∧
    (l.over_ = true → l.settle.over_ = true) ∧
    (l.reset.state = .free ∧ l.reset.over_ = false ∧ l.reset.err = 0 ∧ l.reset.exp = 0 ∧ l.reset.arrb = 0 ∧ l.reset.arrt = 0 ∧ l.reset.arrn = 0 ∧
      l.reset.cnst = 0 ∧ l.reset.cnsn = 0 ∧ l.reset.cont = none ∧ l.reset.largest = l.largest ∧
      (l.state = .free → l.reset.phase = l.phase) ∧ (l.state ≠ .free → l.reset.phase = !l.phase))

/-- 04 R52, R56 to R58, 13 R218 to R220: a copy whose records are cached and whose lanes pass their checks, while the queue has room and the
latch is filling (or, with .x, free or filling and sound), completes: one request for each executing lane enters the core's queue, and PEND
grows by their bytes. TDLD asks for its record's sectors by strong reads, and caches the record once they have come; TDINV drops it. -/
def Obligations.CopiesEnter : Prop :=
  (∀ (kind : CopyKind) (x : Bool) (i : Instr) (s : State) (c : Ctx) (ps : List CopyPlan) (l : Latch),
    (i = .cpy c.o x ∧ kind = .cpy ∨ i = .cpyw c.o x ∧ kind = .cpyw ∨ ∃ ds ss, i = .cpyb c.o x ds ss ∧ kind = .cpyb ds ss) →
    s.Ready i c → c.x ≠ 0 → c.field c.o.e false false 0 < c.team.kernel.latches → c.field c.o.e false false 0 < c.team.latches.length →
    c.team.latches.getD (c.field c.o.e false false 0) Latch.fresh = l →
    ((∃ ds ss, kind = .cpyb ds ss) ∨ ∀ n ∈ c.lanes, ((s.core c.r.core).desc? c.team.vf (c.descId n)).isSome = true) →
    checkLanes (c.copyPlan (c.laneDesc (Fetch.fresh (.word c.r))) kind) c.lanes = .ok ps → ps.length ≤ (s.core c.r.core).copyRoom →
    (x = false → l.state = .filling) →
    (x = true → l.over_ = false ∧ l.err = 0 ∧ (l.state = .free ∨ l.state = .filling) ∧
      l.exp + (ps.map (·.total)).foldl (· + ·) 0 ≤ 0xFFFFFF) →
    ∃ (u : State) (qs : List CopyReq) (t' : Team) (rs : List Reg), s.Acts i c u rs true ∧
      (u.core c.r.core).copyQ = (s.core c.r.core).copyQ ++ qs ∧ qs.length = ps.length ∧
      (∀ q ∈ qs, q.team = c.r.team ∧ q.latch = c.field c.o.e false false 0 ∧ q.kind = kind ∧
        ∃ p ∈ ps, q.dst = p.dst ∧ q.src = p.src ∧ q.record = p.record ∧ q.coords = p.coords ∧ q.left = p.total) ∧
      u.team? c.r.core c.r.team = some t' ∧
      (t'.latches.getD (c.field c.o.e false false 0) Latch.fresh).pend = l.pend + (ps.map (·.total)).foldl (· + ·) 0) ∧
  (∀ o s c xs, State.Ready s (.tdld o) c → c.x ≠ 0 → c.uniA ≤ 4095 →
    (s.forget c.r.core (.word c.r)).xlateAll c.asker .load (descSectors c.v.cfg c.uniA) = .ok xs →
    ∃ u : State, s.Holds (.tdld o) c u [] ∧
      ∀ p ∈ xs, ∃ q ∈ u.reqs, q.va = p.1 ∧ q.home = p.2.home ∧ q.sector = p.2.pa / 32 ∧ q.kind = .strongRead ∧ q.strong = true ∧
        q.errand = some (.word c.r)) ∧
  (∀ (c : Ctx) (f : Fetch), c.x ≠ 0 → c.uniA ≤ 4095 → c.Answered f (descSectors c.v.cfg c.uniA) →
    c.tdldAct = .ok ((c.s.forget c.r.core (.word c.r)).useDesc c.r.core c.team.vf c.uniA (f.record c.v.cfg c.uniA))) ∧
  (∀ o s c, State.Ready s (.tdinv o) c → c.x ≠ 0 → c.uniA ≤ 4095 →
    ∃ t : State, s.Acts (.tdinv o) c t [] true ∧ (∀ d ∈ (t.core c.r.core).desc, ¬(d.vf = c.team.vf ∧ d.id = c.uniA)) ∧
      ∀ d ∈ (s.core c.r.core).desc, ¬(d.vf = c.team.vf ∧ d.id = c.uniA) → d ∈ (t.core c.r.core).desc) ∧
  (∀ i s c, State.Ready s i c → i = .tdld c.o ∨ i = .tdinv c.o → c.uniA > 4095 → s.Faults i c .illegalOperand)

/-- 08 R131 to R134, 13 R224: TSTSP, whose descriptor is cached and whose checks pass, completes by sending every byte of the tile, header first,
to its home; TLDSP completes by asking for the header and holds its split, which issues nothing until the tile has come (how it is held is the
model's reading, log entry 56). Either asks by strong reads for a descriptor that is not cached, and is held by them. -/
def Obligations.SparseTiles : Prop :=
  (∀ o s c d es, State.Ready s (.tstsp o) c → c.x ≠ 0 → c.uniA ≤ 4095 → (s.core c.r.core).desc? c.team.vf c.uniA = some d →
    checkTile d c.uniB c.uniC = none →
    let c' : Ctx := { c with cap := [(0, d)], s := s.useDesc c.r.core c.team.vf c.uniA d }
    let bytes := tileBytes d (c.tileElems d c.uniB c.uniC)
    let va := tileVa d c.uniB c.uniC
    c'.pieces va bytes.length .store = .ok es → c'.s.toLog c.v (Fetch.fresh (.word c.r)) (es.map (·.x)) = [] →
    ∃ t : State, s.Acts (.tstsp o) c t [] true ∧
      ∀ k, k < bytes.length → ∃ (e : Elem) (q : Req) (w : List (Nat × Byte)) (j : Nat), e ∈ es ∧ q ∈ t.reqs ∧ j ≤ k ∧ (va + j) / 32 = (va + k) / 32 ∧
        e.va = (va + j) % 2 ^ 64 ∧ q.owner = c.r ∧ q.home = e.x.home ∧ q.sector = e.x.pa / 32 ∧ q.strong = false ∧ q.out = none ∧
        q.kind = .write w [] ∧ (e.x.pa % 32 + (k - j), bytes.getD k 0) ∈ w) ∧
  (∀ o s c d es, State.Ready s (.tldsp o) c → c.x ≠ 0 → c.uniA ≤ 4095 → (s.core c.r.core).desc? c.team.vf c.uniA = some d →
    checkTile d c.uniB c.uniC = none →
    let c' : Ctx := { c with cap := [(0, d)], s := s.useDesc c.r.core c.team.vf c.uniA d }
    c'.pieces (tileVa d c.uniB c.uniC) 16 .load = .ok es →
    ∃ (t : State) (p : Split) (out : Out), s.Acts (.tldsp o) c t [] true ∧
      out ∈ (t.core c.r.core).outs ∧ out.finish = .tile (.tldsp o) d c.uniB c.uniC none ∧ out.owner = c.r ∧
      t.split? c.r = some p ∧ p.park = .acquire out.id ∧
      ∀ e ∈ es, (∃ q ∈ t.reqs, q.owner = c.r ∧ q.home = e.x.home ∧ q.sector = e.x.pa / 32 ∧ q.out = some out.id) ∨
        ((s.core c.r.core).l1Hit (s.coreTime c.r.core) (e.x.pa / 32) c.o.h.toNat).isSome) ∧
  (∀ (t : Team) (g : Group) (p : Split) id, p.park = .acquire id → p.ready t g = false) ∧
  (∀ i s c xs, State.Ready s i c → c.x ≠ 0 → (i = .tstsp c.o ∨ i = .tldsp c.o) → c.uniA ≤ 4095 →
    (s.core c.r.core).desc? c.team.vf c.uniA = none →
    (s.forget c.r.core (.word c.r)).xlateAll c.asker .load (descSectors c.v.cfg c.uniA) = .ok xs →
    ∃ u : State, s.Holds i c u [] ∧
      ∀ p ∈ xs, ∃ q ∈ u.reqs, q.va = p.1 ∧ q.home = p.2.home ∧ q.kind = .strongRead ∧ q.strong = true ∧ q.errand = some (.word c.r)) ∧
  (∀ i s c, State.Ready s i c → c.x ≠ 0 → (i = .tstsp c.o ∨ i = .tldsp c.o) → c.uniA > 4095 → s.Faults i c .illegalOperand) ∧
  (∀ d es, (tileBytes d es).take 16 =
    bytesOfNat 16 ((if packedSize d (es.filter (· != 0)).length ≤ tileRoom d then 0 else 1) + 2 * (es.filter (· != 0)).length +
      2 ^ 12 * (tdMfmt d).code))

/-- 08 R115, R126, R129, 13 R226, R227: JDESC writes a stream slot; JOIN, whose checks pass, captures its two slots and takes the lowest
free handle for a RUNNING join; JSTAT reads a handle's status and frees one that is DONE or STOPPED; JCANCEL frees one that has ended, and
stops one that runs; JRESUME reads its cursor, and takes the join up where it says. -/
def Obligations.JoinInstructions : Prop :=
  (∀ o s c, State.Ready s (.jdesc o) c → c.uniA ≤ 15 → c.x ≠ 0 →
    let w := natOfBytes ((List.range 8).flatMap fun i => bytesOfNat 4 (c.group.sreg (c.o.b.num + i)).toNat)
    s.Acts (.jdesc o) c (s.modTeam c.r.core c.r.team fun t => { t with streams := t.streams.set c.uniA w }) [] true) ∧
  (∀ o op seg disp s c h, State.Ready s (.join o op seg disp) c → c.x ≠ 0 → c.uniA ≤ 15 → c.uniB ≤ 15 →
    (c.group.sreg (c.o.c.num + if seg then 2 else 1)).toNat ≠ 0 → c.uniE64 % 32 = 0 →
    0 ≤ (c.split.pc : Int) + disp.toInt → (c.split.pc : Int) + disp.toInt < 65536 →
    checkStreams (c.team.streams.getD c.uniA 0) (c.team.streams.getD c.uniB 0)
      (if seg then (c.group.sreg (c.o.c.num + 0)).toNat + 1 else (c.group.sreg (c.o.c.num + 0)).toNat + (c.group.sreg (c.o.c.num + 1)).toNat) = none →
    (∃ x, c.translate c.uniE64 .store = .ok x) → (s.core c.r.core).freeHandle = some h →
    ∃ j : Join,
      s.Acts (.join o op seg disp) c
        (({ c with s := s.takeId.2.forget c.r.core (.cursor h) }.put 1 fun _ => h).setJoin c.r.core h (some j)) [] true ∧
      j.team = c.r.team ∧ j.state = .running ∧ j.op = op ∧ j.seg = seg ∧ j.descA = c.team.streams.getD c.uniA 0 ∧
      j.descB = c.team.streams.getD c.uniB 0 ∧ j.row = (c.group.sreg (c.o.c.num + 0)).toNat ∧ j.cursor = c.uniE64 ∧ j.emit = 0 ∧ j.pending = [] ∧
      j.entry = ((c.split.pc : Int) + disp.toInt).toNat ∧ j.level = c.grid.prio) ∧
  (∀ o s c h x, State.Ready s (.jresume o) c → c.x ≠ 0 → c.uniA64 % 32 = 0 → (s.core c.r.core).freeHandle = some h →
    (s.forget c.r.core (.word c.r)).xlateAll c.asker .load [c.uniA64] = .ok [(c.uniA64, x)] →
    ∃ u : State, s.Holds (.jresume o) c u ((List.range 16).map fun i => (i, c.team.streams.getD i 0)) ∧
      ∃ q ∈ u.reqs, q.va = c.uniA64 ∧ q.home = x.home ∧ q.kind = .strongRead ∧ q.strong = true ∧ q.errand = some (.word c.r)) ∧
  (∀ (c : Ctx) (f : Fetch) (h : Nat), c.x ≠ 0 → c.uniA64 % 32 = 0 → (c.s.core c.r.core).freeHandle = some h → c.Answered f [c.uniA64] →
    let w := natOfBytes ((List.range 32).map fun i => f.get (c.uniA64 + i))
    badCursor w = false → checkStreams (c.stream (bitsOf w 58 55)) (c.stream (bitsOf w 62 59)) (bitsOf w 223 192) = none →
    ∃ (t : State) (j : Join), c.jresumeAct = .ok (t.setJoin c.r.core h (some j)) ∧ j.team = c.r.team ∧ j.state = .running ∧
      j.cursor = c.uniA64 ∧ j.row = bitsOf w 31 0 ∧ j.sect = bitsOf w 47 32 ∧ j.emit = bitsOf w 191 160 ∧ j.endRow = bitsOf w 223 192 ∧
      j.entry = bitsOf w 255 240 ∧ j.descA = c.stream (bitsOf w 58 55) ∧ j.descB = c.stream (bitsOf w 62 59)) ∧
  (∀ o w s c, State.Ready s (.jstat o w) c → c.uniA ≤ 3 → c.x ≠ 0 →
    (c.ownJoin c.uniA = none → s.Acts (.jstat o w) c (c.put 1 fun _ => 0) [] true) ∧
    (∀ j, c.ownJoin c.uniA = some j → j.state = .running → w = false → s.Acts (.jstat o w) c (c.put 1 fun _ => j.status) [] true) ∧
    (∀ j, c.ownJoin c.uniA = some j → j.state ≠ .running → (w = false ∨ j.state = .done ∨ j.reason = 0) →
      s.Acts (.jstat o w) c ({ c with s := s.setJoin c.r.core c.uniA none }.put 1 fun _ => j.status) [] true)) ∧
  (∀ o s c, State.Ready s (.jcancel o) c → c.uniA ≤ 3 → c.x ≠ 0 →
    (c.ownJoin c.uniA = none → s.Acts (.jcancel o) c s [] true) ∧
    (∀ j, c.ownJoin c.uniA = some j → j.state ≠ .running → s.Acts (.jcancel o) c (s.setJoin c.r.core c.uniA none) [] true) ∧
    (∀ j, c.ownJoin c.uniA = some j → j.state = .running → j.stop = none →
      s.Acts (.jcancel o) c (s.stopJoin c.r.core c.uniA j 0 j.cancelWord) [] true)) ∧
  (∀ i s c, State.Ready s i c →
    (i = .jdesc c.o ∧ c.uniA > 15 ∨ (∃ w, i = .jstat c.o w) ∧ c.uniA > 3 ∨ i = .jcancel c.o ∧ c.uniA > 3 ∨
      (∃ op seg d, i = .join c.o op seg d) ∧ (c.uniA > 15 ∨ c.uniB > 15) ∨ i = .jresume c.o ∧ c.uniA64 % 32 ≠ 0) → s.Faults i c .illegalOperand)

/-- 13 R231, R232, R234: ENQ, whose address and lanes pass their checks, sends its request to the header's home and waits for the answer; QSUB
reads its header by strong reads, and on a sound one takes the lowest free entry for its team; a header outside the package's slices is
ACCESS; QUNSUB removes the entry; QPOP and QPUSH move words between the executing lanes, lowest first, and the front and the back of a local
queue. -/
def Obligations.QueueInstructions : Prop :=
  (∀ o sc disp s c e, State.Ready s (.enq o sc disp) c → c.x ≠ 0 → c.header sc disp.toInt = .ok e → c.badLane = none →
    ∃ u : State, exec (.enq o sc disp) s = .next (({ c with s := u } : Ctx).parkAt (.enq (.enq o sc disp) (c.snap []) false)).bump ∧
      u.dram = s.dram ∧ ∃ q ∈ u.reqs, q.kind = .hold ∧ q.errand = some (.push c.r) ∧ q.strong = true ∧ q.home = e.x.home ∧ q.va = e.va ∧
        q.sector = e.x.pa / 32) ∧
  (∀ o sc disp s c e xs, State.Ready s (.qsub o sc disp) c → c.x ≠ 0 → c.header sc disp.toInt = .ok e →
    (e.x.home.away = true → s.Faults (.qsub o sc disp) c .access) ∧
    (e.x.home.away = false → (s.forget c.r.core (.word c.r)).xlateAll c.asker .load (sectorsOf e.va 64) = .ok xs →
      ∃ u : State, s.Holds (.qsub o sc disp) c u [] ∧
        ∀ p ∈ xs, ∃ q ∈ u.reqs, q.va = p.1 ∧ q.home = p.2.home ∧ q.kind = .strongRead ∧ q.strong = true ∧ q.errand = some (.word c.r))) ∧
  (∀ (c : Ctx) (f : Fetch) (sc : Scale) (disp : Int) (e : Elem) (n : Nat), c.x ≠ 0 → c.header sc disp = .ok e → e.x.home.away = false →
    c.Answered f (sectorsOf e.va 64) → badHeader (natOfBytes ((List.range 64).map fun i => f.get (e.va + i))) = false →
    (∀ b ∈ (c.s.core c.r.core).subs, ¬(b.header = e.va ∧ b.team = c.r.team)) → n < 8 →
    (∀ b ∈ (c.s.core c.r.core).subs, b.entry ≠ n) → (∀ m, m < n → ∃ b ∈ (c.s.core c.r.core).subs, b.entry = m) →
    c.qsubAct sc disp = .ok ((c.s.forget c.r.core (.word c.r)).modCore c.r.core fun k =>
      { k with subs := k.subs ++ [{ entry := n, header := e.va, team := c.r.team, token := none }] })) ∧
  (∀ o sc disp s c, State.Ready s (.qunsub o sc disp) c → c.x ≠ 0 →
    ∃ t : State, s.Acts (.qunsub o sc disp) c t [] true ∧ t.dram = s.dram ∧
      ∀ b, b ∈ (t.core c.r.core).subs ↔ b ∈ (s.core c.r.core).subs ∧ ¬(b.header = c.onceVa sc disp.toInt ∧ b.team = c.r.team)) ∧
  (∀ o nb s c, State.Ready s (.qpop o nb) c → c.x ≠ 0 → c.team.kernel.lq = true →
    let q := (s.core c.r.core).lq c.o.a.num
    let m := min q.length c.lanes.length
    (nb = true ∨ c.lanes.length ≤ q.length) →
    ∃ t : State, s.Acts (.qpop o nb) c (c.putDone (t.modGroup c.r fun g => g.setVec c.o.d.num (c.firstLanes m) fun l => q.getD (c.place l) 0) nb m) [] true ∧
      (t.core c.r.core).lq c.o.a.num = q.drop m ∧ (∀ n, n ≠ c.o.a.num → (t.core c.r.core).lq n = (s.core c.r.core).lq n) ∧
      t.group? c.r = s.group? c.r ∧ t.dram = s.dram) ∧
  (∀ o nb s c, State.Ready s (.qpush o nb) c → c.x ≠ 0 → c.team.kernel.lq = true →
    let q := (s.core c.r.core).lq c.o.d.num
    let m := min (256 - q.length) c.lanes.length
    (nb = true ∨ q.length + c.lanes.length ≤ 256) →
    ∃ t : State, s.Acts (.qpush o nb) c (c.putDone t nb m) [] true ∧
      (t.core c.r.core).lq c.o.d.num = q ++ (c.lanes.take m).map (c.group.vlane c.o.a.num) ∧
      (∀ n, n ≠ c.o.d.num → (t.core c.r.core).lq n = (s.core c.r.core).lq n) ∧ t.group? c.r = s.group? c.r ∧ t.dram = s.dram)

/-- 13 R235 to R238: SPAWN with room adds a group of 32 lanes at its target with s0 to s7 of the spawner, and .nb tells whether it did; GGROW
adds to the team count up to the ceiling and returns the old count; LAUNCH adds a request to the graph's list after FENCE.dev; TRIGGER marks
the group; SMSG sends one message for each executing lane whose line is a handler's. -/
def Obligations.NewWork : Prop :=
  (∀ o nb disp s c t k n, State.Ready s (.spawn o nb disp) c → c.x ≠ 0 → c.codeTarget disp = some t →
    (s.core c.r.core).roomForGroup c.team = true → (nb = true ∨ (s.core c.r.core).contsReady = []) →
    (s.core c.r.core).startGroup c.r.team t allLanes c.split.level (fun g => g.withArgs c.group.args) = some (k, n) →
    s.Acts (.spawn o nb disp) c
      (if nb then { c with s := { s with cores := setKey s.cores c.r.core k } }.put 1 fun _ => 1 else { s with cores := setKey s.cores c.r.core k })
      [] true) ∧
  (∀ o disp s c t, State.Ready s (.spawn o true disp) c → c.x ≠ 0 → c.codeTarget disp = some t →
    (s.core c.r.core).roomForGroup c.team = false → s.Acts (.spawn o true disp) c (c.put 1 fun _ => 0) [] true) ∧
  (∀ o s c, State.Ready s (.ggrow o) c → c.x ≠ 0 →
    s.Acts (.ggrow o) c
      ({ c with s := s.modGrid c.team.grid fun g =>
          { g with count := if g.ceil ≤ c.grid.count + c.uniA then g.ceil else c.grid.count + c.uniA } }.put 1 fun _ => c.grid.count) [] true) ∧
  (∀ o args s c g, State.Ready s (.launch o args) c → s.graph? c.grid.graph = some g → c.uniA < g.nodes → c.x ≠ 0 →
    s.fenceMet c.r .dev c.split.lct = true → c.v.launches.length < 256 →
    s.Acts (.launch o args) c (s.modVf c.team.vf fun v =>
      { v with launches := v.launches ++ [(c.grid.graph, c.uniA, if args then some c.group.args else none)] }) [] true) ∧
  (∀ o s c, State.Ready s (.trigger o) c → c.x ≠ 0 → s.fenceMet c.r .dev c.split.lct = true →
    s.Acts (.trigger o) c (s.modGroup c.r fun g => { g with triggered := true }) [] true) ∧
  (∀ o sc disp s c es, State.Ready s (.smsg o sc disp) c →
    checkLanes (fun l => c.atBase (c.group.breg c.o.a.num) (c.offset sc disp.toInt l) false 1 .none l) c.lanes = .ok es →
    ((∃ e ∈ es, e.x.home.away = true) → s.Faults (.smsg o sc disp) c .access) ∧
    ((∀ e ∈ es, e.x.home.away = false) → ∃ t : State, s.Acts (.smsg o sc disp) c t [] true ∧ t.dram = s.dram ∧
      ∀ e ∈ es, e.x.page.hv = true → ∀ n, e.x.home = .slice n →
        ∃ m ∈ t.msgs, m.owner = some c.r ∧ m.slice = n ∧ m.va = e.va ∧
          m.body = (List.range 8).flatMap fun i => bytesOfNat 4 (c.group.vlane (c.o.c.num + i) e.lane).toNat))

/-- 13 R241 to R245: RDSR reads TCODE, TEPC, TADDRLO and TADDRHI, TLANE, PRIO, LEASE, LCTLO and LCTHI, LFLAGS by their numbers, and any other
number is ILLEGAL_OPERAND. The latest completion time is a device time (R76), which the virtual function reads with its offset (21 R314;
that LCT is among what the offset is added to is the model's reading, log entry 47). WRSR writes TEPC, in trap mode only; FEATQ reads the
contract; TIME writes the device time and captures it; ICINV drops lines of this virtual function only. -/
def Obligations.SystemRegisters : Prop :=
  (∀ o reg s c, State.Ready s (.rdsr o reg) c →
    let D := fun (v : Nat) => s.Acts (.rdsr o reg) c (c.put 1 fun _ => v) [] true
    (reg = 0x000#12 → D c.group.tcode) ∧ (reg = 0x001#12 → D c.group.tepc) ∧ (reg = 0x002#12 → D (c.group.taddr % 2 ^ 32)) ∧
    (reg = 0x003#12 → D (c.group.taddr / 2 ^ 32 % 2 ^ 32)) ∧ (reg = 0x004#12 → D c.group.tlane) ∧ (reg = 0x010#12 → D c.split.level) ∧
    (reg = 0x011#12 → D c.v.cfg.lease) ∧ (reg = 0x012#12 → D ((c.split.lct + c.v.offset) % 2 ^ 32)) ∧
    (reg = 0x013#12 → D ((c.split.lct + c.v.offset) / 2 ^ 32 % 2 ^ 32)) ∧ (reg = 0x014#12 → D (c.grid.flags % 32)) ∧
    (reg ∉ [0x000#12, 0x001#12, 0x002#12, 0x003#12, 0x004#12, 0x010#12, 0x011#12, 0x012#12, 0x013#12, 0x014#12] →
      s.Faults (.rdsr o reg) c .illegalOperand)) ∧
  (∀ o reg s c, State.Ready s (.wrsr o reg) c → c.x ≠ 0 →
    (reg = 0x001#12 → c.group.trapSplit.isSome = true →
      s.Acts (.wrsr o reg) c (s.modGroup c.r fun g => { g with tepc := c.uniA }) [] true) ∧
    (reg ≠ 0x001#12 ∨ c.group.trapSplit = none → s.Faults (.wrsr o reg) c .illegalOperand)) ∧
  (∀ o s c, State.Ready s (.featq o) c →
    (c.uniA < 16 → s.Acts (.featq o) c (c.put 1 fun _ => contractWord c.v.cfg (s.service == .reduced) c.uniA) [] true) ∧
    (c.uniA ≥ 16 → s.Faults (.featq o) c .illegalOperand)) ∧
  (∀ o s c, State.Ready s (.time o) c → c.x ≠ 0 →
    s.Acts (.time o) c (c.put 2 fun _ => s.vfTime c.r.core c.team.vf) [] true ∧
      ∀ p : Split, (p.acted c [] [] true).capture = some (s.vfTime c.r.core c.team.vf)) ∧
  (∀ o s c, State.Ready s (.icinv o) c → ∃ t : State, s.Acts (.icinv o) c t [] true ∧ t.dram = s.dram ∧ t.group? c.r = s.group? c.r ∧
    (∀ l ∈ (s.core c.r.core).ic, l.vf ≠ c.team.vf → l ∈ (t.core c.r.core).ic) ∧ (∀ l ∈ (t.core c.r.core).ic, l ∈ (s.core c.r.core).ic))

/-- 13 R242, 18 R286: outside trap mode TRAP takes TRAP_n and BRK BREAKPOINT with their number; in trap mode both are ILLEGAL_INSTRUCTION, and
RETT, at the trap depth, leaves trap mode for TEPC or, with .skip, the word after it; outside, RETT is ILLEGAL_INSTRUCTION. That TRAP in trap mode
is ILLEGAL_INSTRUCTION whatever its number rests on the order of two faults that R242 leaves open (log entry 42, DEDUCED). -/
def Obligations.TrapInstructions : Prop :=
  (∀ o s c, State.Ready s (.trap o) c → c.uniA < 255 → c.group.trapSplit = none → c.x ≠ 0 → s.Faults (.trap o) c (.trap c.uniA)) ∧
  (∀ o s c, State.Ready s (.brk o) c → c.uniA < 256 → c.group.trapSplit = none → c.x ≠ 0 → s.Faults (.brk o) c (.breakpoint c.uniA)) ∧
  (∀ i s c, State.Ready s i c → c.group.trapSplit = none → (i = .trap c.o ∧ c.uniA ≥ 255 ∨ i = .brk c.o ∧ c.uniA ≥ 256) → s.Faults i c .illegalOperand) ∧
  (∀ i s c, State.Ready s i c → (i = .trap c.o ∨ i = .brk c.o) → c.group.trapSplit.isSome = true →
    s.Faults i c .illegalInstruction) ∧
  (∀ i s c, State.Ready s i c → (i = .trap c.o ∧ c.uniA < 255 ∨ i = .brk c.o ∧ c.uniA < 256) → c.group.trapSplit = none → c.x = 0 →
    s.Acts i c s [] true) ∧
  (∀ o skip s c, State.Ready s (.rett o skip) c →
    (c.group.trapSplit = none → s.Faults (.rett o skip) c .illegalInstruction) ∧
    (c.group.trapSplit.isSome = true → c.x ≠ 0 → c.split.frames.length ≠ c.group.trapDepth → s.Faults (.rett o skip) c .maskStack) ∧
    (c.group.trapSplit.isSome = true → c.x ≠ 0 → c.split.frames.length = c.group.trapDepth →
      s.Acts (.rett o skip) c ((s.modGroup c.r fun g => g.leaveTrap c.r.split skip).unwind c.r) [] false)) ∧
  (∀ (g : Group) n skip p, g.resume.split? n = some p →
    (g.leaveTrap n skip).tcode = 0 ∧ (g.leaveTrap n skip).taddr = 0 ∧ (g.leaveTrap n skip).tlane = 0 ∧ (g.leaveTrap n skip).trapSplit = none ∧
      ∃ p', (g.leaveTrap n skip).split? n = some p' ∧ p'.pc = (if skip then g.tepc + 1 else g.tepc) ∧ p'.mask = g.trapMask &&& ~~~g.exited)

/-- 02 R26, R31, R35, 05 R75, R76: a request that is first in its line's order, its line present and its sector neither lost nor struck, executes
at its home: a read answers the bytes the home holds there (none of them a copy's destination, 04 R58), a write, once no lease is out, changes exactly the bytes it names, an
atomic makes its steps on the sector, changes nothing outside it, and answers the old values; each answer carries the home's device time. -/
def Obligations.HomesExecute : Prop :=
  ∀ (s : State) (id n : Nat) (q : Req), s.req? id = some q → q.id = id → q.done = false → (∀ d, q.home ≠ .remote d) → q.arrived = some n →
    s.atHead q = true → s.present q.home q.line = true → s.bad q.home q.sector = false → s.canonical = true →
    (∀ i, i < 32 → s.shadowedVa q.vf (q.va / 32 * 32 + i) 1 = false) →
    (∀ l, (s.store q.home).line? q.line = some l → l.data.length = 128) →
    (∀ lease, q.kind = .read lease → q.strong = false → ∃ (t : State) (r : Req), exec (.homeRead id false) s = .next t ∧ t.req? id = some r ∧
      r.done = true ∧ r.failed = q.failed ∧ r.data = s.valueAt q.home q.pa 32 ∧ r.time = s.homeTime q.home ∧ t.dram = s.dram) ∧
    (q.kind = .pref → ∃ (t : State) (r : Req), exec (.homeRead id false) s = .next t ∧ t.req? id = some r ∧ r.done = true ∧ t.dram = s.dram) ∧
    (q.kind = .strongRead → ∃ (t : State) (r : Req), exec (.homeStrongAccess id false) s = .next t ∧ t.req? id = some r ∧
      r.done = true ∧ r.data = s.valueAt q.home q.pa 32 ∧ r.time = s.homeTime q.home ∧ t.dram = s.dram) ∧
    (∀ bytes, q.kind = .write bytes [] → (∀ p ∈ bytes, p.1 < 32) → s.leasesOver q.home q.line = true → ∃ (t : State) (r : Req),
      exec (if q.strong then .homeStrongAccess id false else .homeWrite id false) s = .next t ∧ t.req? id = some r ∧ r.done = true ∧
        r.time = s.homeTime q.home ∧
        (∀ o, o < 32 → (t.valueAt q.home (q.pa + o) 1).head? =
          some (((bytes.reverse.find? fun p => p.1 == o).map (·.2)).getD ((s.valueAt q.home (q.pa + o) 1).headD 0))) ∧
        (∀ a, (a < q.pa ∨ q.pa + 32 ≤ a) → (q.home = .host → a < 2 ^ 40 ∧ q.pa + 32 ≤ 2 ^ 40) → t.valueAt q.home a 1 = s.valueAt q.home a 1)) ∧
    (∀ steps, q.kind = .atomic steps → s.leasesOver q.home q.line = true → ∃ (t : State) (r : Req),
      exec (.homeAtomic id false) s = .next t ∧ t.req? id = some r ∧ r.done = true ∧ r.time = s.homeTime q.home ∧
        r.olds = (atomSteps (s.valueAt q.home q.pa 32) steps).2 ∧
        ((q.home = .host → q.pa + 32 ≤ 2 ^ 40) → t.valueAt q.home q.pa 32 = (atomSteps (s.valueAt q.home q.pa 32) steps).1) ∧
        (∀ a, (a < q.pa ∨ q.pa + 32 ≤ a) → (q.home = .host → a < 2 ^ 40 ∧ q.pa + 32 ≤ 2 ^ 40) → t.valueAt q.home a 1 = s.valueAt q.home a 1))

/-- 02 R31, R26, 03 R39: a write that has crossed the fabric and stands behind no earlier one of its core on the line takes its place in the line's
order; one that is first while its line is absent starts or joins a fill of the line, and keeps its place. A demand access to a
handler-visible page that starts a fill raises MISS where the slot takes it and the queue has room (03 R39, R41). -/
def Obligations.RequestsArrive : Prop :=
  ∀ (s : State) (id : Nat) (q : Req), s.req? id = some q → q.done = false → (∀ d, q.home ≠ .remote d) → q.kind.writes = true → q.strong = false →
    q.kind.isLine = false → q.kind.isAtomic = false →
    (q.arrived = none → s.enters q = true → s.replica? q = none →
      ∃ (t : State) (r : Req), exec (.homeWrite id false) s = .next t ∧ t.req? id = some r ∧ r.arrived = some s.nextId) ∧
    (q.arrived = none → s.enters q = false → exec (.homeWrite id false) s = .next s.bump) ∧
    (∀ n, q.arrived = some n → s.atHead q = false → exec (.homeWrite id false) s = .next s.bump) ∧
    (∀ n, q.arrived = some n → s.atHead q = true → s.present q.home q.line = false →
      ∃ t : State, exec (.homeWrite id false) s = .next t ∧ t.req? id = some q ∧ (∃ f ∈ (t.store q.home).fills, f.line = q.line) ∧
        ∀ m slot, q.home = .slice m → q.hv = true → q.demands = true → (s.store q.home).fills.any (fun f => f.line == q.line) = false →
          s.triggerSlot m q.vf .miss = some slot → (s.slice m).queue.length < 32 →
          ∃ g ∈ (t.slice m).queue, g.slot = slot ∧ g.kind = .miss ∧ g.a1 = q.va / 128 * 128 ∧ g.a4 = 0 ∧ g.snap = none)

/-- 02 R26, 03 R39, R40, 02 R29, 02 R35: a fill whose line has room installs DRAM's bytes; an eviction writes a line newer than DRAM back and
drops it; a fill that raises one raises FILL with its chain depth, and the eviction of a line of a handler-visible page EVICT with its snapshot (the
virtual tag being the one its fill gave, log entry 63); a replica copy that has crossed is installed in place of an older one of its line; a lost sector is cleared from the list. -/
def Obligations.LinesComeAndGo : Prop :=
  (∀ (s : State) (h : HomeLoc) (line : Nat) (f : Fill), h.allocates = true → (s.store h).fills.find? (fun f => f.line == line) = some f → s.roomFor h line f.pinned = true →
    (∀ i, i < 4 → s.flaws.contains (line * 4 + i) = false) → s.waiting h line = [] → (f.vtag = none ∨ f.raises = false) →
    ∃ (t : State) (l : Line), exec (.lineFill h line false) s = .next t ∧ (t.store h).line? line = some l ∧
      l.data = s.dram.readBytes (line * 128) 128 ∧ l.dirty = false ∧ l.pinned = f.pinned ∧ l.vtag = f.vtag ∧
      (∀ x ∈ (t.store h).fills, x.line ≠ line) ∧ t.dram = s.dram) ∧
  (∀ (s : State) (h : HomeLoc) (line : Nat) (l : Line), (s.store h).line? line = some l → s.evictable h l = true → l.vtag = none →
    l.data.length = 128 → h.allocates = true → s.canonical = true →
    ∃ t : State, exec (.lineEvict h line) s = .next t ∧ (t.store h).line? line = none ∧
      (l.dirty = false → t.dram = s.dram) ∧ (l.dirty = true → t.dram.readBytes (line * 128) 128 = l.data) ∧
      (∀ a, a / 128 ≠ line → t.dram.read a = s.dram.read a)) ∧
  (∀ (s : State) (n line : Nat) (f : Fill) vf va slot, (s.store (.slice n)).fills.find? (fun f => f.line == line) = some f →
    s.roomFor (.slice n) line f.pinned = true → (∀ i, i < 4 → s.flaws.contains (line * 4 + i) = false) → s.waiting (.slice n) line = [] →
    f.vtag = some (vf, va) → f.raises = true → s.triggerSlot n vf .fill = some slot → (s.slice n).queue.length < 32 →
    ∃ (t : State) (g : Trigger), exec (.lineFill (.slice n) line false) s = .next t ∧ (t.slice n).queue = (s.slice n).queue ++ [g] ∧ g.slot = slot ∧
      g.kind = .fill ∧ g.a1 = va / 128 * 128 ∧ g.a4 = f.depth ∧ g.snap = none) ∧
  (∀ (s : State) (n line : Nat) (l : Line) vf va slot, (s.store (.slice n)).line? line = some l → s.evictable (.slice n) l = true →
    l.vtag = some (vf, va) → s.triggerSlot n vf .evict = some slot → (s.slice n).queue.length < 32 → (s.slice n).snapshots < 8 →
    ∃ (t : State) (g : Trigger), exec (.lineEvict (.slice n) line) s = .next t ∧ (t.store (.slice n)).line? line = none ∧
      (t.slice n).queue = (s.slice n).queue ++ [g] ∧ g.slot = slot ∧ g.kind = .evict ∧ g.a1 = va / 128 * 128 ∧ g.snap = some l.data) ∧
  (∀ (s : State) (id : Nat) (m : ReplicaMsg), s.replicaMsgs.find? (fun m => m.id == id) = some m → s.time ≥ m.hop + 3 →
    ((s.slice m.slice).store.inSet (setOf m.replica.line)).length < 16 →
    ∃ t : State, exec (.replicaInstall id) s = .next t ∧ m.replica ∈ (t.slice m.slice).replicas ∧
      (∀ r ∈ (t.slice m.slice).replicas, r.vf = m.replica.vf → r.line = m.replica.line → r = m.replica) ∧
      (∀ x ∈ t.replicaMsgs, x.id ≠ id) ∧ t.dram = s.dram) ∧
  (∀ (s : State) (h : HomeLoc) (sector : Nat), h.lister.allocates = true → ∃ t : State, exec (.lostSectorClear h sector) s = .next t ∧ t.isLost h sector = false ∧
    (∀ x, x ≠ sector → t.isLost h x = s.isLost h x) ∧ t.dram = s.dram)

/-- 09 R145, 05 R76, R79, 12 R207, 16 R265: an answer that has crossed back leaves the requests under way and gives its part of a result; that of a
write enters its device time into the split's latest completion time; one that an errand asked for is kept for it. The last part completes the result: its registers receive, lane by lane, the bytes that came, widened from the memory
format, and the group is settled. A scratchpad operation writes exactly its bytes. -/
def Obligations.AnswersReturn : Prop :=
  (∀ (s : State) (id : Nat) (q : Req) (ans : Answer), s.req? id = some q → (∀ d, q.home ≠ .remote d) → q.done = true → q.own = true →
    s.time ≥ q.hop + q.trip → (q.failed ≠ some .access ∨ q.home.away = false) →
    exec (.resultReturn id ans) s = .next ((s.gone q).deliverOwn q).bump ∧ (∀ x ∈ (s.gone q).reqs, x.id ≠ q.id) ∧
      (q.strong = false → s.reqs.length < 4096 → ∀ x ∈ s.reqs, x.id ≠ q.id → x ∈ (s.gone q).reqs) ∧ (s.gone q).dram = s.dram) ∧
  (∀ (s : State) (q : Req), ∃ u : State, u.dram = s.dram ∧ u.reqs = s.reqs ∧ (u.core q.core).outs = (s.core q.core).outs ∧
    (∀ n, q.out = some n → s.deliverOwn q =
      (u.receive q.core { out := n, part := q.id, bytes := q.data, olds := q.olds, err := q.failed.map fun k => (k, q.lane, q.va) }).checkFences q.owner) ∧
    (q.out = none → q.failed = none → s.deliverOwn q = u.checkFences q.owner) ∧
    (∀ g p, s.group? q.owner = some g → g.split? q.owner.split = some p → ∃ p', u.split? q.owner = some p' ∧ p'.pc = p.pc ∧ p'.mask = p.mask ∧
      p'.lct = (if q.kind.writes = true ∧ q.failed = none ∧ q.home.away = false then max p.lct q.time else p.lct))) ∧
  (∀ (s : State) (id : Nat) (q : Req) (ans : Answer) (key : Errand), s.req? id = some q → (∀ d, q.home ≠ .remote d) → q.done = true →
    s.time ≥ q.hop + q.trip → q.errand = some key → q.kind ≠ .hold → s.handlerWaits q = false →
    ((s.core q.core).answers key).asked.any (fun p => p.1 == id) = true →
    ∃ t : State, exec (.resultReturn id ans) s = .next t ∧ t.req? id = none ∧
      ((t.core q.core).answers key).got = ((s.core q.core).answers key).got ++ [(q.va, q.data)] ∧
      ((t.core q.core).answers key).asked = ((s.core q.core).answers key).asked.filter fun p => p.1 != id) ∧
  (∀ (s : State) (k : Nat) (o : Out) (p : PartOf), (s.core k).outs.find? (fun x => x.id == p.out) = some o → (∀ n ∈ o.waiting, n = p.part) →
    s.receive k p =
      (s.modCore k fun c => { c with outs := updateIf (fun x => x.id == o.id) (fun _ => o.receive p) c.outs }).complete k (o.receive p)) ∧
  (∀ (s : State) (k : Nat) (o : Out) (d : Operand) (f : Fmt), o.finish = .regs d f → o.err = none → f ≠ .e2m1 →
    s.complete k o =
      ((((s.freeAcquire o).dropOut k o.id).putResult o d (regsFor (fmtWidth f)) fun l =>
        match o.slots.find? fun x => x.lane == l with
        | some x => widen f (natOfBytes (((getKey [] o.parts x.part).drop x.off).take (elemSize f)))
        | none => 0).settleGroup o.owner)) ∧
  (∀ (s : State) (id k : Nat) (o : ScratchOp) (t : Team), s.req? id = none → s.opNamed id = some (k, o) → s.opReady k o = true →
    o.remote = false → o.out = none → o.nibbles = [] → o.steps = [] → s.team? o.core o.team = some t → t.scratch.wf = true → (s.core k).outs = [] →
    ∃ (u : State) (t' : Team), exec (.resultReturn id .ok) s = .next (u.checkFences o.owner).bump ∧ u.team? o.core o.team = some t' ∧
      u.dram = s.dram ∧
      ∀ a, t'.scratch.read a = ((o.bytes.reverse.find? fun p => p.1 == a).map (·.2)).getD (t.scratch.read a)) ∧
  (∀ (s : State) (id : Nat) (ans : Answer), s.req? id = none → s.opNamed id = none → s.outNamed id = none →
    exec (.resultReturn id ans) s = .next s.bump)

/-- 13 R217: a parked instruction whose condition holds acts as its own body says, with what it read of uniform registers and captured at issue;
one whose condition does not hold stays parked. One that waits for what it has asked of memory goes on with it once all has come. -/
def Obligations.ParkedActs : Prop :=
  (∀ (s : State) (r : SplitRef) (t : Team) (g : Group) (p : Split) (i : Instr) (a : Snap) (c : Ctx), s.team? r.core r.team = some t →
    t.group? r.grp = some g → g.split? r.split = some p → (p.park = .instr i a ∨ p.park = .asks i a) → s.actCtx? r i a = some c →
    (p.mayAct t g = false → exec (.parkedInstructionAct r) s = .next s.bump) ∧
    (p.mayAct t g = true → (parkedBody i c).stays p.park = true → exec (.parkedInstructionAct r) s = .next s.bump) ∧
    (∀ u rs n, p.mayAct t g = true → parkedBody i c = .done u rs n → exec (.parkedInstructionAct r) s = .next (c.retire u rs n).bump) ∧
    (∀ k va l acc, p.mayAct t g = true → parkedBody i c = .fault k va l acc → exec (.parkedInstructionAct r) s =
      .next (c.s.faultAt c.r { kind := k, addr := va % 2 ^ 64, lane := l, pc := c.split.pc, acc := acc }).bump) ∧
    (∀ b, p.park = .instr i a → parkedBody i c = .park (.instr i b) → exec (.parkedInstructionAct r) s = .next s.bump)) ∧
  (∀ (s : State) (r : SplitRef) (i : Instr) (a : Snap) (c : Ctx), s.actCtx? r i a = some c →
    c.group.s = a.s ∧ c.group.q = a.q ∧ c.group.b = a.b ∧ c.gen = a.gen ∧ c.ngx = a.ngx ∧ c.capt = a.capture ∧ c.cams = a.cams ∧ c.cap = a.cap ∧
      c.i = i ∧ c.r = r) ∧
  (∀ (c : Ctx) (f : Fetch) (secs : List Nat) (go : Ctx → Fetch → Act), c.Answered f secs →
    c.reads secs go = go { c with s := c.s.forget c.r.core (.word c.r) } f)

/-- 03 R36, R37, R326: the hinge core's ordinary instructions complete: register operations and their immediate forms, jumps, branches, local
loads and stores; the words R45 does not allow abort with reason 1. x0 reads as zero and discards writes; every other register
but rd keeps its value. The operations are RISC-V's own (log entry 8: the model's choice). -/
def Obligations.HingeOrdinary : Prop :=
  (∀ (s : State) (c : HCtx) (len : Nat), s.handler? = some c →
     let D := fun (r : Rv) (t : State) (rd : BitVec 5) (x : DWord) (pc cost : Nat) => s.HingeDone (.hingeRiscvInstruction len r) c t rd x pc cost
     (∀ rd a b, D (.alu .add rd a b) s rd (c.reg a + c.reg b) (c.run.pc + len) 1 ∧ D (.alu .sub rd a b) s rd (c.reg a - c.reg b) (c.run.pc + len) 1 ∧
       D (.alu .and rd a b) s rd (c.reg a &&& c.reg b) (c.run.pc + len) 1 ∧ D (.alu .or rd a b) s rd (c.reg a ||| c.reg b) (c.run.pc + len) 1 ∧
       D (.alu .xor rd a b) s rd (c.reg a ^^^ c.reg b) (c.run.pc + len) 1 ∧
       D (.alu .sltu rd a b) s rd (if c.reg a < c.reg b then 1 else 0) (c.run.pc + len) 1 ∧
       D (.alu .slt rd a b) s rd (if (c.reg a).slt (c.reg b) then 1 else 0) (c.run.pc + len) 1 ∧
       D (.alu .sll rd a b) s rd (c.reg a <<< ((c.reg b).toNat % 64)) (c.run.pc + len) 1 ∧
       D (.alu .srl rd a b) s rd (c.reg a >>> ((c.reg b).toNat % 64)) (c.run.pc + len) 1 ∧
       D (.alu .sra rd a b) s rd ((c.reg a).sshiftRight ((c.reg b).toNat % 64)) (c.run.pc + len) 1) ∧
     (∀ rd a imm, D (.aluImm .add rd a imm) s rd (c.reg a + imm.signExtend 64) (c.run.pc + len) 1) ∧
     (∀ rd imm, D (.lui rd imm) s rd ((imm ++ 0#12).signExtend 64) (c.run.pc + len) 1) ∧
     (∀ rd imm, D (.jal rd imm) s rd (BitVec.ofNat 64 (c.run.pc + len)) (((c.run.pc : Int) + imm.toInt) % 2 ^ 64).toNat 2) ∧
     (∀ a b imm, c.reg a = c.reg b → D (.branch .beq a b imm) s 0 0 (((c.run.pc : Int) + imm.toInt) % 2 ^ 64).toNat 2) ∧
     (∀ a b imm, c.reg a ≠ c.reg b → D (.branch .beq a b imm) s 0 0 (c.run.pc + len) 1) ∧
     (∀ rd a imm v, c.localLoad ((c.reg a + imm.signExtend 64).toNat) 8 = some v → D (.load .ld rd a imm) s rd (BitVec.ofInt 64 (signedOf v 64)) (c.run.pc + len) 2) ∧
     (∀ a b imm o, c.inData ((c.reg a + imm.signExtend 64).toNat) 8 = some o →
       D (.store .sd a b imm) (c.localStore o 8 (c.reg b).toNat) 0 0 (c.run.pc + len) 2) ∧
     (∀ a b imm, c.inData ((c.reg a + imm.signExtend 64).toNat) 8 = none → s.HingeAborts (.hingeRiscvInstruction len (.store .sd a b imm)) c 2) ∧
     s.HingeAborts (.hingeRiscvInstruction len .illegal) c 1) ∧
  (∀ (c : HCtx) (t : State) (rd : BitVec 5) (x : DWord) (pc cost : Nat), ∃ h, ((c.finish (.done t rd x pc cost)).slice c.n).run = some h ∧
     h.x? 0 = 0 ∧ (rd ≠ 0 → h.x? rd = x) ∧ (∀ r, r ≠ rd → h.x? r = (((t.slice c.n).run.getD c.run).x? r)) ∧ h.pc = pc % 2 ^ 64 ∧
     h.instret = ((t.slice c.n).run.getD c.run).instret + 1 ∧ h.cycle = ((t.slice c.n).run.getD c.run).cycle + cost ∧
     (c.finish (.done t rd x pc cost)).dram = t.dram ∧ (∀ n, n ≠ c.n → (c.finish (.done t rd x pc cost)).slice n = t.slice n))

/-- 03 R46, R47, R49, 02 R28, R31: an Xhinge line operation checks its address in R46's order (no translation aborts with 4, an entry that cannot be
read with 6, ownership or permission with 3, misalignment with 5) and is then sent to its line's home, and the handler waits; when its answer is
back it is done, or aborts with 6 where the home could not read the data. At a line that this slice holds, or a home-11 line of it, in whose
order nothing stands, it is done at once: hl.ld reads 8 bytes, hl.st writes exactly them, hl.atomic answers the old value. A write whose dirty
log is full aborts with 8. An entry of the tables that it needs is asked for at its home, and the instruction is tried again, in the same slice
cycle where the entry has come and in the next tick else; that, that a load from the snapshot costs 14 cycles, and what a wait adds, is
the model's reading (log entry 16), as is the way that a request has to go (log entry 15). -/
def Obligations.HingeLines : Prop :=
  (∀ (c : HCtx) va perm align,
    (c.s.vf? c.slot.vf = none → c.check va perm align = .bad 4) ∧
    (∀ v, c.s.vf? c.slot.vf = some v →
      let tr := c.s.translate (c.s.slice c.n).tlb ((c.s.core (hingeCore c.n)).answers (.hinge c.n)) v.cfg va .none
      (tr = .error (.fault .pageFault) → c.check va perm align = .bad 4) ∧ (tr = .error (.fault .memoryError) → c.check va perm align = .bad 6) ∧
      (∀ k, tr = .error (.fault k) → k ≠ .pageFault → k ≠ .memoryError → c.check va perm align = .bad 3) ∧
      (∀ pa, tr = .error (.walk pa) → c.check va perm align = .walk pa) ∧
      (∀ x, tr = .ok x → ((x.home.away = true ∨ x.page.hv = false ∨ perm x.page = false) → c.check va perm align = .bad 3) ∧
        (x.home.away = false → x.page.hv = true → perm x.page = true →
          c.check va perm align = (if va % align = 0 then .ok v x else .bad 5))))) ∧
  (∀ (s : State) (c : HCtx) r, s.handler? = some c → c.run.op = none →
    (∀ rd rs1 imm, c.check (c.addr rs1 imm) (·.rd) 8 = .bad r → s.HingeAborts (.hlLd rd rs1 imm) c r) ∧
    (∀ rs1 rs2 imm, c.check (c.addr rs1 imm) (·.wr) 8 = .bad r → s.HingeAborts (.hlSt rs1 rs2 imm) c r) ∧
    (∀ op rd rs1 rs2, c.check (c.reg rs1).toNat (fun p => p.rd && p.wr) 8 = .bad r → s.HingeAborts (.hlAtomic op rd rs1 rs2) c r) ∧
    (∀ rs1 rs2, c.check (c.reg rs1).toNat (·.wr) 128 = .bad r → s.HingeAborts (.hlInstall rs1 rs2) c r)) ∧
  (∀ (s : State) (c : HCtx) pa, s.handler? = some c → c.run.op = none →
    (∀ rd rs1 imm, c.check (c.addr rs1 imm) (·.rd) 8 = .walk pa → exec (.hlLd rd rs1 imm) s = .next (c.finish (c.walks pa)).bump) ∧
    (∀ rs1 rs2 imm, c.check (c.addr rs1 imm) (·.wr) 8 = .walk pa → exec (.hlSt rs1 rs2 imm) s = .next (c.finish (c.walks pa)).bump) ∧
    (∀ op rd rs1 rs2, c.check (c.reg rs1).toNat (fun p => p.rd && p.wr) 8 = .walk pa →
      exec (.hlAtomic op rd rs1 rs2) s = .next (c.finish (c.walks pa)).bump) ∧
    (∀ rs1 rs2, c.check (c.reg rs1).toNat (·.wr) 128 = .walk pa → exec (.hlInstall rs1 rs2) s = .next (c.finish (c.walks pa)).bump)) ∧
  (∀ (c : HCtx) pa, ((c.s.core (hingeCore c.n)).answers (.hinge c.n)).knows (physKey (pa / 32 * 32)) = false →
    ∃ u : State, c.walks pa = c.retry u ∧ u.dram = c.s.dram ∧
      ∃ q ∈ u.reqs, q.id = c.s.nextId ∧ q.kind = .strongRead ∧ q.errand = some (.hinge c.n) ∧ q.va = physKey (pa / 32 * 32) ∧ q.hop = c.s.time ∧ q.trip = 0) ∧
  (∀ (c : HCtx) (u : State), ∃ t now, c.retry u = .again t now ∧ (now = true ↔ u.entriesAsked c.n ≠ [] ∧ t.entriesAsked c.n = [])) ∧
  (∀ (c : HCtx) (t : State) now, ∃ h, ((c.finish (.again t now)).slice c.n).run = some h ∧ h.pc = c.run.pc ∧ h.x = c.run.x ∧
    h.cycle = if now then c.run.cycle else max c.run.cycle (2 * (c.s.time + 1) - c.run.start)) ∧
  (∀ (s : State) (c : HCtx) rd rs1 imm v x, s.handler? = some c → c.run.op = none → c.snapshot (c.addr rs1 imm) = none →
    c.check (c.addr rs1 imm) (·.rd) 8 = .ok v x → c.here x = true → s.Quiet (hingeCore c.n) x → s.bad x.home (x.pa / 32) = false →
    (∀ o, o < 32 → s.shadowedVa v.cfg.id (c.addr rs1 imm / 32 * 32 + o) 1 = false) →
    (s.present x.home (x.pa / 128) = true →
      ∃ t : State, s.HingeDone (.hlLd rd rs1 imm) c t rd
          (BitVec.ofNat 64 (natOfBytes (((s.valueAt x.home (x.pa / 32 * 32) 32).drop (c.addr rs1 imm % 32)).take 8))) (c.run.pc + 4) c.atOnce ∧
        t.dram = s.dram) ∧
    (s.present x.home (x.pa / 128) = false →
      ∃ u : State, exec (.hlLd rd rs1 imm) s = .next (c.finish (.wait u { c.run with op := some s.nextId })).bump ∧
        ∃ f ∈ (u.store x.home).fills, f.line = x.pa / 128)) ∧
  (∀ (s : State) (c : HCtx) rs1 rs2 imm v x, s.handler? = some c → c.run.op = none → c.check (c.addr rs1 imm) (·.wr) 8 = .ok v x →
    c.here x = true → s.Quiet (hingeCore c.n) x → s.toLog v ((s.core (hingeCore c.n)).answers (.hinge c.n)) [x] = [] →
    s.leasesOver x.home (x.pa / 128) = true → s.present x.home (x.pa / 128) = true → s.flaws.contains (x.pa / 32) = false → s.canonical = true →
    (∀ l, (s.store x.home).line? (x.pa / 128) = some l → l.data.length = 128) →
    ∃ t : State, s.HingeDone (.hlSt rs1 rs2 imm) c t 0 0 (c.run.pc + 4) c.atOnce ∧
      t.valueAt x.home (x.pa / 32 * 32 + c.addr rs1 imm % 32) 8 = bytesOfNat 8 (c.reg rs2).toNat ∧
      ∀ a, (a < x.pa / 32 * 32 + c.addr rs1 imm % 32 ∨ x.pa / 32 * 32 + c.addr rs1 imm % 32 + 8 ≤ a) →
        t.valueAt x.home a 1 = s.valueAt x.home a 1) ∧
  (∀ (s : State) (c : HCtx) op rd rs1 rs2 v x, s.handler? = some c → c.run.op = none →
    c.check (c.reg rs1).toNat (fun p => p.rd && p.wr) 8 = .ok v x → c.here x = true → s.Quiet (hingeCore c.n) x →
    s.toLog v ((s.core (hingeCore c.n)).answers (.hinge c.n)) [x] = [] → s.leasesOver x.home (x.pa / 128) = true →
    s.present x.home (x.pa / 128) = true → s.bad x.home (x.pa / 32) = false → s.canonical = true →
    (∀ o, o < 32 → s.shadowedVa v.cfg.id ((c.reg rs1).toNat / 32 * 32 + o) 1 = false) →
    (∀ l, (s.store x.home).line? (x.pa / 128) = some l → l.data.length = 128) →
    let at_ := x.pa / 32 * 32 + (c.reg rs1).toNat % 32
    let old := natOfBytes (s.valueAt x.home at_ 8)
    ∃ t : State, s.HingeDone (.hlAtomic op rd rs1 rs2) c t rd (BitVec.ofNat 64 old) (c.run.pc + 4) c.atOnce ∧
      natOfBytes (t.valueAt x.home at_ 8) = (hlNew op old (c.reg rs2).toNat (c.reg rd).toNat).getD old ∧
      ∀ a, (a < at_ ∨ at_ + 8 ≤ a) → t.valueAt x.home a 1 = s.valueAt x.home a 1) ∧
  (∀ (s : State) (c : HCtx) rd rs1 imm v x, s.handler? = some c → c.run.op = none → c.snapshot (c.addr rs1 imm) = none →
    c.check (c.addr rs1 imm) (·.rd) 8 = .ok v x → c.here x = false →
    ∃ u : State, exec (.hlLd rd rs1 imm) s = .next (c.finish (.wait u { c.run with op := some s.nextId })).bump ∧
      ∃ q ∈ u.reqs, q.id = s.nextId ∧ q.kind = .line .load ∧ q.home = x.home ∧ q.va = c.addr rs1 imm ∧ q.hop = s.time ∧ q.trip = 3) ∧
  (∀ (s : State) (c : HCtx) (id : Nat) (q : Req), s.handler? = some c → c.run.op = some id → s.req? id = some q → q.done = true →
    q.hop + q.trip ≤ s.time →
    let t := { s with reqs := s.reqs.filter fun y => y.id != q.id }
    let cost := max c.run.cycle (2 * (q.hop + q.trip) - c.run.start) - c.run.cycle + 14
    (q.failed = none →
      (∀ rd rs1 imm, c.snapshot (c.addr rs1 imm) = none → s.HingeDone (.hlLd rd rs1 imm) c t rd q.dword (c.run.pc + 4) cost) ∧
      (∀ rs1 rs2 imm, s.HingeDone (.hlSt rs1 rs2 imm) c t 0 0 (c.run.pc + 4) cost) ∧
      (∀ op rd rs1 rs2, s.HingeDone (.hlAtomic op rd rs1 rs2) c t rd (((q.olds.head?).map (·.2)).getD 0) (c.run.pc + 4) cost) ∧
      (∀ rs1 rs2, s.HingeDone (.hlInstall rs1 rs2) c t 0 0 (c.run.pc + 4) cost)) ∧
    (q.failed ≠ none → (∀ rd rs1 imm, c.snapshot (c.addr rs1 imm) = none → s.HingeAborts (.hlLd rd rs1 imm) c 6) ∧
      (∀ op rd rs1 rs2, s.HingeAborts (.hlAtomic op rd rs1 rs2) c 6))) ∧
  (∀ (s : State) (c : HCtx) rd rs1 imm b v x, s.handler? = some c → c.snapshot (c.addr rs1 imm) = some b →
    c.check (c.addr rs1 imm) (·.rd) 8 = .ok v x →
    s.HingeDone (.hlLd rd rs1 imm) c (s.cacheSlice c.n v.cfg.id [x]) rd
      (BitVec.ofNat 64 (natOfBytes ((b.drop (c.addr rs1 imm % 128)).take 8))) (c.run.pc + 4) 14) ∧
  (∀ (s : State) (c : HCtx) v x u m, s.handler? = some c → c.run.op = none →
    (s.cacheSlice c.n v.cfg.id [x]).logWrite (hingeCore c.n) v.cfg.id noGrid (hingeOwner c.n) (.hinge c.n) [x] = .full u m →
    (∀ rs1 rs2 imm, c.check (c.addr rs1 imm) (·.wr) 8 = .ok v x → s.HingeAborts (.hlSt rs1 rs2 imm) c 8) ∧
    (∀ op rd rs1 rs2, c.check (c.reg rs1).toNat (fun p => p.rd && p.wr) 8 = .ok v x → s.HingeAborts (.hlAtomic op rd rs1 rs2) c 8))

/-- 02 R28, 03 R42, R47, R49: hl.install of a slot's 128 bytes puts the line into this slice, present or not, newer than DRAM, with no read of DRAM, a home-11
line into DRAM; it waits for a fill of the line, and aborts with 3 at another home and with 2 off the data window; hl.pref sends a request and is
done, at this slice starting a fill of a line that is absent, and never aborts; hl.msg sends 32 bytes to the line's slice, or discards them, and
aborts with 2 off the data window; hl.budget reads the cycles left; hl.done ends the handler, its cycle the last of it (log entry 71: the
model's choice). -/
def Obligations.HingeOthers : Prop :=
  (∀ (s : State) (c : HCtx) rs1 rs2 v x, s.handler? = some c → c.run.op = none → c.check (c.reg rs1).toNat (·.wr) 128 = .ok v x →
    (c.here x = false → s.HingeAborts (.hlInstall rs1 rs2) c 3) ∧
    (c.here x = true → ((c.reg rs2).toNat % 128 ≠ 0 ∨ c.inData (c.reg rs2).toNat 128 = none) → s.HingeAborts (.hlInstall rs1 rs2) c 2) ∧
    (∀ o, c.here x = true → (c.reg rs2).toNat % 128 = 0 → c.inData (c.reg rs2).toNat 128 = some o → s.Quiet (hingeCore c.n) x →
      s.toLog v ((s.core (hingeCore c.n)).answers (.hinge c.n)) [x] = [] → s.leasesOver x.home (x.pa / 128) = true →
      (x.home = .slice c.n → (s.store x.home).fills.any (fun y => y.line == x.pa / 128) = false →
        ((s.store x.home).line? (x.pa / 128) ≠ none ∨ s.roomFor x.home (x.pa / 128) (x.page.home == 1) = true) →
        ∃ (t : State) (l : Line), s.HingeDone (.hlInstall rs1 rs2) c t 0 0 (c.run.pc + 4) c.atOnce ∧ (t.store x.home).line? (x.pa / 128) = some l ∧
          l.data = c.slot.data.readBytes o 128 ∧ l.dirty = true ∧ l.pinned = (x.page.home == 1) ∧ t.dram = s.dram ∧
          (t.slice c.n).queue = (s.slice c.n).queue) ∧
      (x.home = .slice c.n → (s.store x.home).fills.any (fun y => y.line == x.pa / 128) = true →
        ∃ u : State, exec (.hlInstall rs1 rs2) s = .next (c.finish (.wait u { c.run with op := some s.nextId })).bump ∧ u.dram = s.dram) ∧
      (x.home = .direct c.n → s.canonical = true →
        ∃ t : State, s.HingeDone (.hlInstall rs1 rs2) c t 0 0 (c.run.pc + 4) c.atOnce ∧
          t.dram.readBytes (x.pa / 128 * 128) 128 = c.slot.data.readBytes o 128 ∧ ∀ a, a / 128 ≠ x.pa / 128 → t.dram.read a = s.dram.read a))) ∧
  (∀ (s : State) (c : HCtx) rs1, s.handler? = some c →
    (∀ r, c.check (c.reg rs1).toNat (·.rd) 1 = .bad r → s.HingeDone (.hlPref rs1) c s 0 0 (c.run.pc + 4) 9) ∧
    (∀ pa, c.check (c.reg rs1).toNat (·.rd) 1 = .walk pa → exec (.hlPref rs1) s = .next (c.finish (c.walks pa)).bump) ∧
    (∀ v x, c.check (c.reg rs1).toNat (·.rd) 1 = .ok v x → ∃ t : State, s.HingeDone (.hlPref rs1) c t 0 0 (c.run.pc + 4) 9 ∧
      (c.here x = false → ∃ q ∈ t.reqs, q.kind = .line (.pref c.depth) ∧ q.home = x.home ∧ q.line = x.pa / 128 ∧ q.trip = 3) ∧
      (c.here x = true → s.Quiet (hingeCore c.n) x → s.present x.home (x.pa / 128) = false →
        ∃ f ∈ (t.store x.home).fills, f.line = x.pa / 128 ∧
          ((s.store x.home).fills.any (fun y => y.line == x.pa / 128) = false → f.depth = c.depth ∧ f.raises = decide (c.depth < 16))))) ∧
  (∀ (s : State) (c : HCtx) rs1 rs2, s.handler? = some c →
    (((c.reg rs1).toNat % 32 ≠ 0 ∨ c.inData (c.reg rs1).toNat 32 = none) → s.HingeAborts (.hlMsg rs1 rs2) c 2) ∧
    (∀ o, (c.reg rs1).toNat % 32 = 0 → c.inData (c.reg rs1).toNat 32 = some o →
      (∀ r, c.check (c.reg rs2).toNat (fun _ => true) 1 = .bad r → s.HingeAborts (.hlMsg rs1 rs2) c r) ∧
      (∀ pa, c.check (c.reg rs2).toNat (fun _ => true) 1 = .walk pa → exec (.hlMsg rs1 rs2) s = .next (c.finish (c.walks pa)).bump) ∧
      (∀ v x, c.check (c.reg rs2).toNat (fun _ => true) 1 = .ok v x →
        ∃ t : State, s.HingeDone (.hlMsg rs1 rs2) c t 0 0 (c.run.pc + 4) 9 ∧ t.dram = s.dram ∧
          (∀ n, x.home = .slice n → v.cfg.features.getLsbD 2 = true →
            ∃ m ∈ t.msgs, m.slice = n ∧ m.sender = 0x1000 + c.n ∧ m.va = (c.reg rs2).toNat ∧ m.body = c.slot.data.readBytes o 32 ∧ m.hop = s.time) ∧
          ((v.cfg.features.getLsbD 2 = false ∨ ∃ k, x.home = .window k) → t.msgs = s.msgs)))) ∧
  (∀ (s : State) (c : HCtx) rd, s.handler? = some c →
    s.HingeDone (.hlBudget rd) c s rd (BitVec.ofNat 64 (c.slot.budget c.run.trigger.kind - c.run.cycle)) (c.run.pc + 4) 1) ∧
  (∀ (s : State) (c : HCtx), s.handler? = some c → ∃ t : State, exec .hlDone s = .next t ∧ (t.slice c.n).run = none ∧ t.dram = s.dram ∧
    (t.slice c.n).queue = (s.slice c.n).queue ∧ (t.slice c.n).freeAt = c.run.start + c.run.cycle + 1)

/-- 03 R39 to R43, R48, R50, R326: a waiting trigger's handler starts when none runs and the one before has ended, oldest first, with R43's registers, and
hrun counts it; a handler that reaches its budget, in its own instructions or while it waits, is aborted with reason 7; a message that has crossed
joins the queue of a slot that takes messages; it is gone without count where none does, and with hdrop counted where the queue holds 32, as any
trigger is. An event of one type is posted for a slot at most once in 65,536 ticks. In which slice cycle of its tick a trigger reaches the queue
is free (log entry 16), and the next handler starts one cycle after an aborting instruction issued (log entry 71): the model's choice. -/
def Obligations.HandlersRun : Prop :=
  (∀ (s : State) n t rest, (s.slice n).run = none → (s.slice n).queue = t :: rest →
    (max t.at_ (s.slice n).freeAt / 2 ≤ s.time →
      ∃ (u : State) (h : HingeRun), exec (.handlerDispatch n) s = .next u ∧ (u.slice n).run = some h ∧ h.trigger = t ∧ h.slot = t.slot ∧
        h.cycle = 0 ∧ h.start = max t.at_ (s.slice n).freeAt ∧ h.pc = 0x10000 + 0x2000 * t.slot + ((s.slice n).slot t.slot).entry ∧
        h.x? 2 = BitVec.ofNat 64 (0x21000 + 0x1000 * t.slot) ∧ h.x? 10 = BitVec.ofNat 64 t.kind.code ∧ h.x? 11 = BitVec.ofNat 64 (t.a1 % 2 ^ 56) ∧
        h.x? 12 = BitVec.ofNat 64 (0x20000 + 0x1000 * t.slot) ∧ h.x? 13 = (if t.kind = .msg then 0x30000#64 else 0#64) ∧
        h.x? 14 = BitVec.ofNat 64 t.a4 ∧ (∀ r, r ∉ [2#5, 10#5, 11#5, 12#5, 13#5, 14#5] → h.x? r = 0) ∧
        (u.slice n).queue = rest ∧ ((u.slice n).slot t.slot).hrun = min (((s.slice n).slot t.slot).hrun + 1) (2 ^ 32 - 1) ∧ u.dram = s.dram) ∧
    (s.time < max t.at_ (s.slice n).freeAt / 2 → exec (.handlerDispatch n) s = .next s.bump)) ∧
  (∀ (s : State) n, ((s.slice n).run ≠ none ∨ (s.slice n).queue = []) → exec (.handlerDispatch n) s = .next s.bump) ∧
  (∀ (s : State) n h, (s.slice n).run = some h →
    let cycle := if h.waits then max h.cycle (2 * s.time + 1 - h.start) else h.cycle
    let budget := ((s.slice n).slot h.slot).budget h.trigger.kind
    (cycle ≥ budget → h.start + budget ≤ 2 * s.time + 1 →
      ∃ u : State, exec (.hingeOverrun n) s = .next u ∧ (u.slice n).run = none ∧ (u.slice n).queue = (s.slice n).queue ∧ u.dram = s.dram ∧
        (u.slice n).freeAt = h.start + budget ∧ ((u.slice n).slot h.slot).hover = min (((s.slice n).slot h.slot).hover + 1) (2 ^ 32 - 1) ∧
        ((u.slice n).slot h.slot).hfault = ((s.slice n).slot h.slot).hfault) ∧
    ((cycle < budget ∨ 2 * s.time + 1 < h.start + budget) → exec (.hingeOverrun n) s = .next s.bump)) ∧
  (∀ (s : State) n reason h, (s.slice n).run = some h → reason ≠ 7 → let u := s.abortHandler n reason
    (u.slice n).run = none ∧ (u.slice n).queue = (s.slice n).queue ∧ u.dram = s.dram ∧ (u.slice n).freeAt = h.start + h.cycle + 1 ∧
      ((u.slice n).slot h.slot).hfault = min (((s.slice n).slot h.slot).hfault + 1) (2 ^ 32 - 1) ∧
      ((u.slice n).slot h.slot).hover = ((s.slice n).slot h.slot).hover ∧ ((u.slice n).slot h.slot).data = ((s.slice n).slot h.slot).data) ∧
  (∀ (s : State) id m, s.msgs.find? (fun m => m.id == id) = some m →
    ((s.time < m.hop + 3 ∨ (s.msgs.takeWhile fun x => x.id != id).any (·.before m) = true) → exec (.messageArrive id) s = .next s.bump) ∧
    (s.time ≥ m.hop + 3 → (s.msgs.takeWhile fun x => x.id != id).any (·.before m) = false →
      let s' := { s with msgs := s.msgs.filter fun x => x.id != id }
      (s.triggerSlot m.slice m.vf .msg = none → exec (.messageArrive id) s = .next s'.bump) ∧
      (∀ slot, s.triggerSlot m.slice m.vf .msg = some slot →
        exec (.messageArrive id) s = .next (s'.raiseTrigger m.slice
          { slot := slot, kind := .msg, a1 := m.va / 128 * 128, a4 := m.sender, body := m.body, snap := none, at_ := 0 }).bump))) ∧
  (∀ (s : State) n (t : Trigger),
    ((s.slice n).queue.length < 32 → (t.snap = none ∨ (s.slice n).snapshots < 8) → ∃ at_, 2 * s.time ≤ at_ ∧ at_ ≤ 2 * s.time + 1 ∧
      s.raiseTrigger n t = s.modSlice n fun c => { c with queue := c.queue ++ [{ t with at_ := at_ }] }) ∧
    (((s.slice n).queue.length ≥ 32 ∨ (t.snap ≠ none ∧ (s.slice n).snapshots ≥ 8)) → let u := s.raiseTrigger n t
      (u.slice n).queue = (s.slice n).queue ∧ (u.slice n).run = (s.slice n).run ∧ u.dram = s.dram ∧
        ((u.slice n).slot t.slot).hdrop = min (((s.slice n).slot t.slot).hdrop + 1) (2 ^ 32 - 1))) ∧
  (∀ (s : State) n slot code kind reason a1 count, let now := s.sliceTime n
    (∀ t, ((s.slice n).slot slot).posted.find? (fun p => p.1 == code) = some (code, t) → now - t < 65536 →
      s.postHinge n slot code kind reason a1 count = s) ∧
    ((∀ t, (code, t) ∈ ((s.slice n).slot slot).posted → now - t ≥ 65536) → ∃ u : State,
      s.postHinge n slot code kind reason a1 count =
        u.post { code := code, vf := ((s.slice n).slot slot).vf, srck := 1, src := n, item := slot, tkind := kind, reason := reason, addr := a1,
                 count := count, time := (now + ((s.vf? ((s.slice n).slot slot).vf).map (·.offset)).getD 0) % 2 ^ 64 } ∧
        getKey 0 ((u.slice n).slot slot).posted code = now ∧ u.dram = s.dram))

/-- 04 R57, R58, R65, 16 R277: a copy request starts when fewer than 8 run: first one whose missing page has come, else the oldest queued while the fault
buffer has room; a unit that is delivered counts its bytes into its latch and leaves the request, which is gone after its last unit; a fault
other than a missing page ends the copy, and the latch keeps the first one. A unit of a linear run from scratchpad to scratchpad moves its
bytes, as no other write has changed since the copy's issue; one that reads memory asks for its sectors first, behind no store of the core. That a
request whose page has come goes before a queued one, and that a linear run moves by units of 256 bytes, are the model's own (log entry 24). -/
def Obligations.CopyEngine : Prop :=
  (∀ (s : State) k q r, (s.core k).copyRun.length < 8 → (s.core k).copyFault.length < 8 → (s.core k).copyFault.find? (fun q => q.token.isNone) = none →
    (s.core k).copyQ = q :: r →
    ∃ t : State, exec (.copyRequestStart k) s = .next t ∧ (t.core k).copyQ = r ∧ (t.core k).copyRun = (s.core k).copyRun ++ [q] ∧ t.dram = s.dram) ∧
  (∀ (s : State) k q, (s.core k).copyRun.length < 8 → (s.core k).copyFault.find? (fun q => q.token.isNone) = some q →
    ∃ t : State, exec (.copyRequestStart k) s = .next t ∧ (t.core k).copyRun = (s.core k).copyRun ++ [q] ∧
      (∀ x ∈ (t.core k).copyFault, x.id ≠ q.id) ∧ (t.core k).copyQ = (s.core k).copyQ) ∧
  (∀ (s : State) k, 8 ≤ (s.core k).copyRun.length → exec (.copyRequestStart k) s = .next s.bump) ∧
  (∀ (s : State) k id u rest q v h n tm, (s.core k).copyRun.find? (fun q => q.id == id && q.units.contains u) = some q → s.vf? q.vf = some v →
    q.waitFor.any (s.core k).unperformed = false → s.haul k v q u rest = .done h n tm →
    exec (.copyDeliver k id u rest) s = .next
      (((h.forgetUnits k q.id (· == u)).modCopy k q.id fun x =>
          if (x.units.filter (· != u)).isEmpty then none else some { x with units := x.units.filter (· != u), left := x.left - n }).modLatch
        k q.team q.latch fun l =>
          { l with arrb := min (l.arrb + n) 0xFFFFFF, pend := l.pend - n, largest := max l.largest tm }).bump) ∧
  (∀ (s : State) k id u rest q v h kind va acc, (s.core k).copyRun.find? (fun q => q.id == id && q.units.contains u) = some q → s.vf? q.vf = some v →
    q.waitFor.any (s.core k).unperformed = false → s.haul k v q u rest = .fail h kind va acc → kind ≠ .pageFault →
    ∃ t : State, exec (.copyDeliver k id u rest) s = .next (t.modLatch k q.team q.latch fun l =>
      { l with pend := l.pend - q.left, err := if l.err = 0 then (if kind = .memoryError then 2 else 1) else l.err,
               errVa := if l.err = 0 then va else l.errVa }).bump ∧
      (∀ x ∈ (t.core k).copyRun, x.id ≠ q.id) ∧ (∀ x ∈ (t.core k).copyFault, x.id ≠ q.id)) ∧
  (∀ (s : State) k id u rest q v c1 t1 o1 c2 t2 o2 a b, (s.core k).copyRun.find? (fun q => q.id == id && q.units.contains u) = some q →
    s.vf? q.vf = some v → q.waitFor = [] → q.kind = .cpyb true true → q.src = .pad c1 t1 o1 → q.dst = .pad c2 t2 o2 →
    (s.core k).answers (.get q.id u) = Fetch.fresh (.get q.id u) → s.time ≥ (s.core k).copyFree → s.team? c1 t1 = some a →
    s.team? c2 t2 = some b → b.scratch.wf = true → q.olds = [] →
    let n := min 256 (q.len - 256 * u)
    (∀ i, i < n → s.shadowed c1 t1 (o1 + 256 * u + i) 1 = false) →
    ∃ (t : State) (b' : Team), exec (.copyDeliver k id u rest) s = .next t ∧ t.team? c2 t2 = some b' ∧ t.dram = s.dram ∧
      (∀ i, i < n → b'.scratch.read (o2 + 256 * u + i) = a.scratch.read (o1 + 256 * u + i)) ∧
      (∀ i, (i < o2 + 256 * u ∨ o2 + 256 * u + n ≤ i) → b'.scratch.read i = b.scratch.read i)) ∧
  (∀ (s : State) k id u rest q v va xs, (s.core k).copyRun.find? (fun q => q.id == id && q.units.contains u) = some q → s.vf? q.vf = some v →
    q.waitFor = [] → q.kind = .cpyb true false → q.src = .global va → q.len > 256 * u →
    (s.core k).answers (.get q.id u) = Fetch.fresh (.get q.id u) →
    let a := engineAsker k v.cfg q.grid q.owner (.get q.id u) q.hint
    s.xlateAll a .load (sectorsOf (va + 256 * u) (min 256 (q.len - 256 * u))) = .ok xs →
    ∃ t : State, exec (.copyDeliver k id u rest) s = .next t ∧ (t.core k).copyRun = (s.core k).copyRun ∧ t.dram = s.dram ∧
      ∀ p ∈ xs, ∃ r ∈ t.reqs, r.va = p.1 ∧ r.home = p.2.home ∧ r.kind = .read false ∧ r.hint = q.hint ∧ r.errand = some (.get q.id u)) ∧
  (∀ (s : State) (r : Req) id u, (r.errand = some (.get id u) ∨ r.errand = some (.put id u)) → r.strong = false →
    (s.enters r = true ↔ s.time ≥ r.hop + r.trip ∧ s.sent r = true))

/-- 04 R63, R66, 13 R223, R248, R259: the oldest due continuation of a core that can start becomes a group of 32 lanes at its target, with the
saved s0 to s7 and the level, inheriting the latch's fault and largest completion time, and the latch holds none; a latch that has stood still
past the stall limit while something waits posts LATCH_STALL once. -/
def Obligations.Continuations : Prop :=
  (∀ (s : State) k team n t ct at_ grp part, (s.core k).TakesGroup team t grp part → (t.latches.getD n Latch.fresh).cont = some ct →
    (s.core k).contsReady.find? (fun x => x.2 == (team, n)) = some (at_, team, n) → (∀ y ∈ (s.core k).contsReady, at_ ≤ y.1) →
    let l := t.latches.getD n Latch.fresh
    let g := (Group.fresh grp part ct.target allLanes ct.level).withArgs ct.args
    exec (.latchContinuationStart k team n) s =
      .next (({ s with cores := setKey s.cores k ((s.core k).addGroup team
        { g with
          pending := if l.over_ then some (0, { kind := .latchOverrun, addr := 0, lane := none, pc := ct.target, acc := 0 })
            else if l.err = 0 then none
            else some (0, { kind := if l.err = 1 then .access else .memoryError, addr := l.errVa, lane := none, pc := ct.target, acc := 0 })
          splits := g.splits.map fun p => { p with lct := l.largest } }) } : State).modLatch k team n fun l => { l with cont := none }).bump) ∧
  (∀ (s : State) k team n, (s.core k).contsReady.find? (fun x => x.2 == (team, n)) = none →
    exec (.latchContinuationStart k team n) s = .next s.bump) ∧
  (∀ (l : Latch) (ct : Cont), (l.settle.cont.map (·.due)) = (l.cont.map fun k => k.due || l.err != 0 || l.settle.holds k.phase) ∧
    (l.cont = some ct → ct.due = false → l.err = 0 → l.settle.holds ct.phase = false → l.settle.cont = some ct)) ∧
  (∀ (s : State) k team n t v first, s.team? k team = some t → s.vf? t.vf = some v → v.cfg.stallTraps = false → n < t.latches.length →
    ((s.latchWaiters k team n).map (·.2) ++ (t.latches.getD n Latch.fresh).cont.toList.map (·.at_)).min? = some first →
    (t.latches.getD n Latch.fresh).posted = false → s.time ≥ max (t.latches.getD n Latch.fresh).since first + v.cfg.stallLimit →
    exec (.latchStall k team n) s =
      .next ((s.modTeam k team fun x => { x with latches := t.latches.set n { t.latches.getD n Latch.fresh with posted := true } }).post
        { code := 0x8001, vf := t.vf, srck := 0, src := v.cfg.coreIndex k, item := n, phase := (t.latches.getD n Latch.fresh).phase.toNat,
          time := (s.modTeam k team fun x => { x with latches := t.latches.set n { t.latches.getD n Latch.fresh with posted := true } }).vfTime k t.vf }).bump) ∧
  (∀ (s : State) k team n t, s.team? k team = some t → (t.latches.getD n Latch.fresh).posted = true → exec (.latchStall k team n) s = .next s.bump)

/-- 08 R118, R120 to R122, R124, R126 to R129: a segment covers its positions of A; where its check pass finds nothing, and its search of B is determined, its merge
pass emits, in ascending order, for INTERSECT the coordinates of both streams, for UNION those of either, for DIFF those of A that are not in B,
each once, with its positions and what is absent marked. JOIN_SEGMENT adds a segment's survivors to those that wait, asks for the lines of
their values and goes on to the next; it asks for the sector that a segment needs next; where that cannot be read it waits for a missing page,
or discards what waits and stops with its cursor written, as where a rule is broken; it leaves a join that is not RUNNING, waits for a page, or
has 32 survivors waiting; past its last row it is finished, and DONE when nothing waits. KEYWAY_GROUP_FORM makes a group of the first 32
survivors, or of the last ones, at the join's entry, lane by lane, and EMIT counts them. The order of reads and checks, and that a range past
its end is finished at once, are the model's readings (log entry 43). -/
def Obligations.JoinsProceed : Prop :=
  (∀ (r : SRow) (pos p0 p1 i : Nat), i < p1 - p0 → (r.slice pos p0 p1)[i]? = some ((r.coord? (p0 + i)).getD 0, pos + p0 + i)) ∧
  (∀ (r : SRow) (pos p0 p1 : Nat), (r.slice pos p0 p1).length = p1 - p0) ∧
  (∀ (op : JoinOp) (row sect : Nat) (a b : Part) (pa pb : Nat),
     let as := a.row.slice a.ptr.pos (if pa = 0xFFFFFFFF then a.lo else max a.lo (pa - a.ptr.pos)) a.hi
     let bs := b.row.slice b.ptr.pos (if pb = 0xFFFFFFFF then b.lo else max b.lo (pb - b.ptr.pos)) b.hi
     let l := segSurvivors op row sect a b pa pb
     (as.map (·.1)).Pairwise (· < ·) → (bs.map (·.1)).Pairwise (· < ·) →
     (l.map (·.coord)).Pairwise (· < ·) ∧
     (∀ x, x ∈ l.map (·.coord) ↔ match op with
       | .intersect => x ∈ as.map (·.1) ∧ x ∈ bs.map (·.1)
       | .union => x ∈ as.map (·.1) ∨ x ∈ bs.map (·.1)
       | .diff => x ∈ as.map (·.1) ∧ x ∉ bs.map (·.1)) ∧
     (∀ v ∈ l, v.row = row ∧ v.sect = sect ∧ (v.inA = true ↔ v.coord ∈ as.map (·.1)) ∧ (v.inB = true ↔ v.coord ∈ bs.map (·.1)) ∧
       (v.inA = true → (v.coord, v.posA) ∈ as) ∧ (v.inB = true → (v.coord, v.posB) ∈ bs) ∧
       (v.inA = false → v.posA = 0xFFFFFFFF) ∧ (v.inB = false → v.posB = 0xFFFFFFFF))) ∧
  (∀ (j : Join) (get peek : Bytes) (draw : Nat → Nat) segs sv, j.segStep get peek draw = .done segs sv →
     ∃ pa pb a b, rowPtr j.descA j.row get = .ok pa ∧ rowPtr j.descB j.row get = .ok pb ∧ pa.down = false ∧ pb.down = false ∧ a.ptr = pa ∧ b.ptr = pb ∧
       segs = (if sdSegl j.descA = 0 then 1 else max 1 ((pa.n + sdSegl j.descA - 1) / sdSegl j.descA)) ∧ j.sect < segs ∧
       a.lo = min pa.n (j.sect * sdSegl j.descA) ∧ a.hi = (if j.sect + 1 ≥ segs then pa.n else min pa.n ((j.sect + 1) * sdSegl j.descA)) ∧
       a.row.check (sdEnc j.descA) a.lo a.hi (decide (j.sect + 1 ≥ segs)) = none ∧
       b.row.check (sdEnc j.descB) b.lo b.hi (decide (j.sect + 1 ≥ segs)) = none ∧
       ((sdEnc j.descB = 1 ∨ sdEnc j.descB = 2) → sv = segSurvivors j.op j.row j.sect a b j.posA j.posB)) ∧
  (∀ (s : State) k h fall j, (s.core k).join? h = some j →
    (j.state ≠ .running ∨ j.token.isSome = true ∨ j.stop = none ∧ (j.finished = true ∨ j.pending.length ≥ 32)) →
    exec (.joinSegment k h fall) s = .next s.bump) ∧
  (∀ (s : State) k h fall j v, (s.core k).join? h = some j → s.vf? j.vf = some v → s.Merging k j → j.row ≥ j.endRow → j.pending = [] → h < 4 →
    ∃ (t : State), exec (.joinSegment k h fall) s = .next (t.checkTeam k j.team).bump ∧
      (t.core k).join? h = some { j with finished := true, state := .done }) ∧
  (∀ (s : State) k h fall j v, (s.core k).join? h = some j → s.vf? j.vf = some v → s.Merging k j → j.row < j.endRow → h < 4 →
    let a := joinAsker k v.cfg j (.join h j.step)
    let f := (s.core k).answers a.key
    let go := j.segStep f.byte? (s.peek a) (j.chance fall)
    let cur := j.cursor % 32 = 0 ∧ (s.core k).answers (.cursor h) = Fetch.fresh (.cursor h) ∧
      ∃ x, s.askXlate (joinAsker k v.cfg j (.cursor h)) j.cursor .store = .ok x
    let stops := fun (x : SegStop) => ∃ (t : State) (j' : Join), exec (.joinSegment k h fall) s = .next t ∧ (t.core k).join? h = some j' ∧
      j'.pending = [] ∧ j'.state = .running ∧ j'.stop = some (x.reason, j.cursorWord x.reason x.side j.row j.sect x.posA x.posB x.lastc)
    (∀ segs sv, go = .done segs sv →
      let vas := valueVas j.descA ((sv.filter (·.inA)).map (·.posA)) ++ valueVas j.descB ((sv.filter (·.inB)).map (·.posB))
      s.walkOf a vas = none →
      ∃ (u : State) (n : Nat), exec (.joinSegment k h fall) s =
          .next (u.keepJoin k h j { ({ j with pending := j.pending ++ sv } : Join).advance segs with step := n }).bump ∧
        u.dram = s.dram ∧ (u.core k).joins = (s.core k).joins ∧
        ∀ va ∈ vas, ∀ x, s.askXlate a va .load = .ok x → ∃ q ∈ u.reqs, q.va = va ∧ q.home = x.home ∧ q.kind = .pref) ∧
    (∀ segs, go = .past segs → ∃ (u : State) (n : Nat), u.dram = s.dram ∧ (u.core k).joins = (s.core k).joins ∧
      exec (.joinSegment k h fall) s = .next (u.keepJoin k h j { j.advance segs with step := n }).bump) ∧
    (∀ side pa pb va first, go = .need side pa pb va first →
      (∀ x, f.knows (va / 32 * 32) = false → s.askXlate a (va / 32 * 32) .load = .ok x →
        ∃ t : State, exec (.joinSegment k h fall) s = .next t ∧ (t.core k).join? h = some j ∧ t.dram = s.dram ∧
          ∃ q ∈ t.reqs, q.va = va / 32 * 32 ∧ q.home = x.home ∧ q.kind = .read false ∧ q.errand = some (.join h j.step)) ∧
      (∀ kind e, f.knows (va / 32 * 32) = true → f.asked = [] → f.failure = some (kind, e) →
        (∀ x, first = some x → cur → stops x) ∧
        (first = none → kind ≠ .pageFault → cur → stops ⟨if kind = .memoryError then 5 else 4, side, pa, pb, j.lastc⟩) ∧
        (first = none → kind = .pageFault → ∃ (t : State) (j' : Join), exec (.joinSegment k h fall) s = .next t ∧ (t.core k).join? h = some j' ∧
          j'.token ≠ none ∧ j'.pending = j.pending ∧ j'.state = .running ∧ j'.stop = none ∧ j'.failAt = (side, pa, pb)))) ∧
    (∀ x, go = .stop x → cur → stops x)) ∧
  (∀ (s : State) k h fall j v reason w, (s.core k).join? h = some j → s.vf? j.vf = some v → j.state = .running → j.token = none →
    j.stop = some (reason, w) → j.cursor % 32 = 0 →
    (let f := (s.core k).answers (.cursor h); f.asked = [] ∧ f.errs = [] ∧ f.knows j.cursor = true) →
    let j' := { j with state := .stopped, reason := reason, stop := none, token := none }
    exec (.joinSegment k h fall) s = .next (((s.forget k (.cursor h)).setJoin k h (some j')).checkTeam k j.team).bump) ∧
  (∀ (s : State) k h j t grp part, h < 4 → (s.core k).join? h = some j → j.formable = true → (s.core k).TakesGroup j.team t grp part →
    t.stopping = false → t.groups.length < 32 → (s.core k).contsReady = [] → (∀ q ∈ (s.core k).joinsReady, j.since ≤ q.1) →
    let l := j.pending.take 32
    let e := (l.getLast?).getD default
    exec (.keywayGroupForm k h) s = .next (({ s with cores := setKey s.cores k ((s.core k).addGroup j.team
        ((Group.fresh grp part j.entry (maskOf fun i => i < l.length) j.level).withSurvivors l)) } : State).keepJoin k h
      { j with finished := false, pending := [] }
      { j with pending := j.pending.drop 32, emit := j.emit + l.length, lastc := e.coord, lastA := e.nextA, lastB := e.nextB, lastRow := e.row,
               lastSeg := e.sect }).bump) ∧
  (∀ (s : State) k h (old j : Join), (¬(j.finished = true ∧ j.pending = []) → ∃ n, s.keepJoin k h old j = s.setJoin k h (some { j with since := n })) ∧
    (j.finished = true → j.pending = [] → ∃ n, s.keepJoin k h old j =
      (s.setJoin k h (some { j with since := n, state := .done })).checkTeam k j.team)) ∧
  (∀ (g : Group) (l : List Survivor) (n : Nat) (x : Survivor), l.length ≤ 32 → l[n]? = some x →
    (g.withSurvivors l).vlane 0 n = BitVec.ofNat 32 x.coord ∧ (g.withSurvivors l).vlane 1 n = BitVec.ofNat 32 x.posA ∧
      (g.withSurvivors l).vlane 2 n = BitVec.ofNat 32 x.posB ∧ laneIn ((g.withSurvivors l).preg 0) n = x.inA ∧
      laneIn ((g.withSurvivors l).preg 1) n = x.inB)

/-- 13 R229, R231 to R233, R248, R259: ENQ_PUSH at the head of its header's line sends one write of 32 bytes for each executing lane, the words of its C
registers, to the places from TAIL on, and once they are there TAIL covers them and the answer goes back; a full queue counts in NFULL and refuses or answers with its header. A draw visits the next
subscription whose team has room, once nothing that comes first could start: its request is sent; at the header's home HEAD advances past
the items read and their classes are held; a held class is placed oldest first, one group each, and the core's generation advances. How the
steps hold the line and reach the items (log entry 44), and what comes before what (log entry 54), are the model's readings. -/
def Obligations.QueuesProceed : Prop :=
  (∀ (s : State) k err, (s.reqs.find? fun q => q.draws k) = none →
    ((s.core k).contsReady ≠ [] ∨ (s.core k).joinsReady ≠ [] ∨ s.heldReady k ≠ [] ∨ (s.core k).subs = []) →
    exec (.tumblerDraw k err) s = .next s.bump) ∧
  (∀ (s : State) k err b rest t v x, (s.reqs.find? fun q => q.draws k) = none → (s.core k).contsReady = [] → (s.core k).joinsReady = [] →
    s.heldReady k = [] → (s.core k).subs = b :: rest → (s.core k).visitable b = true → (s.core k).team? b.team = some t → s.vf? t.vf = some v →
    s.askXlate (engineAsker k v.cfg t.grid { core := k, team := b.team, grp := 32, split := 0 } (.draw b.entry) 0) b.header .store = .ok x →
    x.home.away = false →
    ∃ u : State, exec (.tumblerDraw k err) s = .next u ∧ (u.core k).subs = rest ++ [b] ∧ u.dram = s.dram ∧
      ∃ q ∈ u.reqs, q.kind = .hold ∧ q.errand = some (.draw b.entry) ∧ q.home = x.home ∧ q.sector = x.pa / 32 ∧ q.va = b.header ∧ q.core = k ∧
        q.owner.team = b.team ∧ q.hop = s.time ∧ q.trip = 3) ∧
  (∀ (s : State) k q b v t, (s.reqs.find? fun q => q.draws k) = some q → s.HoldsLine q → q.errand = some (.draw b.entry) →
    ((s.core k).subs.find? fun b => q.errand == some (.draw b.entry) && b.team == q.owner.team && b.header == q.va) = some b →
    s.vf? q.vf = some v → (s.core k).team? b.team = some t →
    let w := s.header q
    let n := min 32 (qhCount w)
    let vas := (List.range n).map fun i => itemVa w (qhHead w + i)
    let f := (s.core k).answers (.draw b.entry)
    (((s.core k).hasRoom t = false ∨ badHeader w = true ∨ n = 0) →
      ∃ (u : State) (r : Req), exec (.tumblerDraw k false) s = .next u ∧ u.req? q.id = some r ∧ r.done = true ∧ r.failed = q.failed ∧
        u.dram = s.dram ∧ (u.core k).held = (s.core k).held) ∧
    ((s.core k).hasRoom t = true → badHeader w = false → n ≠ 0 → f.asked = [] → f.errs = [] → vas.all f.knows = true →
      (∀ va ∈ vas, badItem (natOfBytes ((List.range 32).map fun i => f.get (va + i))) = false) → s.leasesOver q.home q.line = true →
      (∃ x, s.askXlate (homeAsker q v.cfg (.draw b.entry)) q.va .store = .ok x ∧ s.toLog v f [x] = []) →
      ∃ (u : State) (r : Req), exec (.tumblerDraw k false) s = .next u ∧ u.req? q.id = some r ∧ r.done = true ∧
        u.valueAt q.home (q.pa + 20) 4 = bytesOfNat 4 ((qhHead w + n) % 2 ^ 32) ∧
        (u.core k).held = (s.core k).held ++ classesOf b.team (vas.map fun va => natOfBytes ((List.range 32).map fun i => f.get (va + i))) ∧
        u.dram = s.dram)) ∧
  (∀ (s : State) k team h r t grp part, (s.core k).contsReady = [] → (s.core k).joinsReady = [] → s.heldReady k = h :: r → h.team = team →
    (s.core k).TakesGroup team t grp part →
    let c' := (s.core k).addGroup team ((Group.fresh grp part h.entry (maskOf fun l => l < h.items.length) h.hi.toNat).withItems h.items)
    ∃ u : State, exec (.heldClassPlace k team) s = .next u ∧ (u.core k).teams = c'.teams ∧ (u.core k).held = (s.core k).held.erase h ∧
      (u.core k).gen = ((s.core k).gen + 1) % 256 ∧ u.dram = s.dram) ∧
  (∀ (s : State) r q i a full c p v, (s.reqs.find? fun q => q.errand == some (.push r) && q.kind == .hold) = some q → s.HoldsLine q →
    s.split? r = some p → p.park = .enq i a full → (s.countSlice q.home).actCtx? r i a = some c → c.v = v →
    s.vf? v.cfg.id = some v →
    let w := s.header q
    let items := c.lanes.map c.item
    let key := Errand.push q.owner
    let asker := homeAsker q v.cfg key
    let f := (s.core asker.core).answers key
    badHeader w = false → s.leasesOver q.home q.line = true → (∃ x, s.askXlate asker q.va .store = .ok x ∧ s.toLog v f [x] = []) →
    (∀ xs, qhCount w + items.length ≤ 2 ^ qhLogn w → f = Fetch.fresh key → items ≠ [] →
      s.xlateAll asker .store (((itemBytes w items).map fun b => b.1 / 32 * 32).eraseDups) = .ok xs → s.toLog v f (xs.map (·.2)) = [] →
      ∃ u : State, exec (.enqPush r false) s = .next u ∧ u.header q = w ∧ u.dram = s.dram ∧
        ∀ n, n < items.length → ∃ y ∈ u.reqs, y.va = itemVa w (qhTail w + n) ∧ y.errand = some key ∧
          ∃ bytes, y.kind = .write bytes [] ∧ ∀ p, p ∈ bytes ↔ p ∈ bytesFrom 0 (items.getD n [])) ∧
    (qhCount w + items.length ≤ 2 ^ qhLogn w → f.asked = [] → f.errs = [] → (∀ b ∈ itemBytes w items, f.knows (b.1 / 32 * 32) = true) →
      ∃ (u : State) (x : Req), exec (.enqPush r false) s = .next u ∧ u.req? q.id = some x ∧ x.done = true ∧ x.failed = q.failed ∧
        u.valueAt q.home (q.pa + 16) 4 = bytesOfNat 4 ((qhTail w + items.length) % 2 ^ 32) ∧ u.dram = s.dram) ∧
    (qhCount w + items.length > 2 ^ qhLogn w →
      ∃ (u : State) (x : Req), exec (.enqPush r false) s = .next u ∧ u.req? q.id = some x ∧ x.done = true ∧
        (qhFullb w = false → x.failed = some .queueFull) ∧
        u.valueAt q.home (q.pa + 24) 4 = bytesOfNat 4 (min (qhNfull w + 1) (2 ^ 32 - 1)) ∧ u.dram = s.dram)) ∧
  (∀ (s : State) r q i a full c p, s.split? r = some p → p.park = .enq i a full → s.actCtx? r i a = some c → q.home.away = false →
    (∀ k, q.failed = some k → s.enqAnswer r q = c.finish (.fault k q.va none 1)) ∧
    (q.failed = none → q.data = [] → s.enqAnswer r q = c.finish (.ok (c.s.modSplit r fun p => { p with lct := max p.lct q.time }))))

/-- 01 R16, R19, 02 R33, 21 R317 to R319: device time counts on by one, once every pick that fits has been made and every handler has gone
on (R253, R326); a report sets the refresh interval; a refresh and a throttle change no
result; suspect rows and lanes are replaced while a spare is left; a start leaves the part as at reset but for its spares, and fails where the firmware does
not verify, where the self-test finds a unit that is in use, which it marks suspect, and where spares do not suffice; after a failed start only a
cold one does anything; the change to full service comes once no team is resident. What outlives a start, and that the change asks teams to
stop, is the model's reading (log entry 41); that a start carries its service and skew as operands (log entry 2), the numbers of spare rows and
banks and what a quick self-test finds (log entry 78), and which spares a warm start takes (log entry 41) are its choices. -/
def Obligations.PartLife : Prop :=
  (∀ s : State, s.tickBusy = true → exec .deviceTimeTick s = .next s.bump) ∧
  (∀ s : State, s.tickBusy = false → (∀ v ∈ s.vfs, ∀ w ∈ v.waits, w.answer = none) →
    ∃ t : State, exec .deviceTimeTick s = .next t ∧ t.time = s.time + 1 ∧ t.dram = s.dram ∧ t.slices = s.slices) ∧
  (∀ (s : State) die c d, s.dies[die]? = some d →
    ∃ t : State, exec (.temperatureReport die c) s = .next t ∧
      t.dies[die]? = some { d with celsius := c, interval := if c ≤ 85 then 3900 else if c ≤ 95 then 1950 else 980 } ∧
      (∀ n, n ≠ die → t.dies[n]? = s.dies[n]?) ∧ t.dram = s.dram ∧ t.cores = s.cores) ∧
  (∀ (s : State) die d, s.dies[die]? = some d →
    ∃ t : State, exec (.dramRefresh die) s = .next t ∧ t.dies[die]? = some { d with refreshes := d.refreshes + 1 } ∧
      t.dram = s.dram ∧ t.reqs = s.reqs ∧ t.cores = s.cores ∧ t.slices = s.slices) ∧
  (∀ s : State, exec .powerThrottle s = .next ({ s with throttled := true } : State).bump ∧
    exec .powerThrottleEnd s = .next ({ s with throttled := false } : State).bump) ∧
  (∀ (s : State) u, ∃ t : State, exec (.unitMarkedSuspect u) s = .next t ∧ u ∈ t.suspects ∧ (∀ x ∈ s.suspects, x ∈ t.suspects) ∧
    (∀ x ∈ t.suspects, x = u ∨ x ∈ s.suspects) ∧ t.dram = s.dram) ∧
  (∀ (s : State) die ch row,
    (PartUnit.dramRow die ch row ∈ s.suspects → s.rowsUsed die < Config.spareRows → ∃ t : State, exec (.onlineRowReplacement die ch row) s = .next t ∧
      t.suspects = s.suspects.erase (.dramRow die ch row) ∧ (die, ch, row) ∈ t.replacedRows ∧ t.dram = s.dram ∧ t.reqs = s.reqs) ∧
    ((PartUnit.dramRow die ch row ∉ s.suspects ∨ Config.spareRows ≤ s.rowsUsed die) → exec (.onlineRowReplacement die ch row) s = .next s.bump)) ∧
  (∀ (s : State) port lane,
    (PartUnit.fabricLane port lane ∈ s.suspects → (∀ p ∈ s.retrained, p.1 ≠ port) → ∃ t : State, exec (.fabricLaneRetrain port lane) s = .next t ∧
      t.suspects = s.suspects.erase (.fabricLane port lane) ∧ t.retrained = s.retrained ++ [(port, lane)]) ∧
    ((∃ p ∈ s.retrained, p.1 = port) → exec (.fabricLaneRetrain port lane) s = .next s.bump)) ∧
  (∀ s : State, s.startFails = true ↔
    (∃ d, d < 4 ∧ (4 < (suspectCores s.suspects d).length ∨ 4 < (suspectSlices s.suspects d).length ∨
      Config.spareRows < suspectRows s.suspects d + s.rowsUsed d ∨ Config.spareBanks < suspectBanks (s.suspects ++ s.dramSpares) d ∨
      16 < suspectChannels (s.suspects ++ s.dramSpares) d)) ∨
    (∃ p, p < 32 ∧ 1 < suspectLanes s.suspects p + (s.retrained.filter fun x => x.1 == p).length)) ∧
  (∀ (s : State) u, (u ∈ (s.found true).suspects ↔ u ∈ s.suspects ∨ u ∈ s.defects) ∧
    (u ∈ (s.found false).suspects → u ∈ s.suspects ∨ u ∈ s.defects) ∧ (u ∈ s.suspects → u ∈ (s.found false).suspects)) ∧
  (∀ (s : State) red skew cm sm, ((skewOk skew = true ∧ s.mapsOk cm sm = true) ∨ s.startFails = true) →
    (s.firmwareOk = false → ∃ t : State, exec (.coldStart red skew cm sm) s = .next t ∧ t.service = .off ∧ t.startFailed = true ∧ t.suspects = s.suspects) ∧
    (s.firmwareOk = true → ((s.found true).startFails = true ∨ (s.found true).mapsOk cm sm = false) →
      ∃ t : State, exec (.coldStart red skew cm sm) s = .next t ∧ t.service = .off ∧ t.startFailed = true ∧ t.suspects = (s.found true).suspects)) ∧
  (∀ (s : State) red skew cm sm, skewOk skew = true → s.firmwareOk = true → (s.found true).startFails = false → (s.found true).mapsOk cm sm = true →
    ∃ t : State, exec (.coldStart red skew cm sm) s = .next t ∧ t.service = (if red then .reduced else .full) ∧ t.startFailed = false ∧ t.time = 0 ∧
      t.dram = [] ∧ t.vfs = [] ∧ t.cores = [] ∧ t.slices = [] ∧ t.coreMap = cm ∧ t.sliceMap = sm ∧
      t.suspects = (s.found true).suspects.filter (fun u => !dramSwap u) ∧ t.dramSpares = s.dramSpares ++ (s.found true).suspects.filter dramSwap ∧
      t.host = s.host) ∧
  (∀ (s : State) red skew, s.startFailed = false → skewOk skew = true →
    (s.firmwareOk = false → ∃ t : State, exec (.warmStart red skew) s = .next t ∧ t.service = .off ∧ t.startFailed = true ∧ t.suspects = s.suspects) ∧
    (s.firmwareOk = true → ((s.found false).startFails = true ∨ s.suspects.length < (s.found false).suspects.length) →
      ∃ t : State, exec (.warmStart red skew) s = .next t ∧ t.service = .off ∧ t.startFailed = true ∧ t.suspects = (s.found false).suspects) ∧
    (s.firmwareOk = true → (s.found false).startFails = false → (s.found false).suspects.length = s.suspects.length →
      ∃ t : State, exec (.warmStart red skew) s = .next t ∧ t.service = (if red then .reduced else .full) ∧ t.startFailed = false ∧ t.time = 0 ∧
        t.dram = [] ∧ t.vfs = [] ∧ t.cores = [] ∧
        (s.suspects = [] → ∀ d n, d < 4 → n < 48 → t.coreMap[48 * d + n]? = some (s.coreMap.getD (48 * d + n) n)))) ∧
  (∀ (s : State) red skew, s.startFailed = true → exec (.warmStart red skew) s = .next s.bump) ∧
  (∀ s : State, (s.service ≠ .reduced → exec .fullServiceChange s = .next s.bump) ∧
    (s.service = .reduced → s.residents = [] → ∃ t : State, exec .fullServiceChange s = .next t ∧ t.service = .full ∧ t.cores = s.cores ∧ t.dram = s.dram) ∧
    (s.service = .reduced → s.residents ≠ [] → (s.cores.map (·.1)).Nodup → ∃ t : State, exec .fullServiceChange s = .next t ∧ t.service = .reduced ∧
      ∀ p ∈ t.residents, p.2.stopping = true))

/-- 00 R4, 18 R287, R289, R290, 05 R72, R73: room in a ring is what the host has consumed; held faults are posted while it lasts; a write that
waits for the log appends its page then. The host writes the read-write fields of a control block, and 1 to OVF clears it; the block stands in
host memory. INVALIDATE leaves no cached translation of its range, and completes once the accesses that used one have. RETRY and FAIL answer
the token they name, and no other, with a status record; a group that finds no free context keeps its answer. The texts of the status records
(log entry 51), the host's turns and what a write of a control block does (log entries 9, 69), when a write logs its pages (log entry 60), an
answer kept (log entries 37, 52) and where a block stands in the host's memory (log entry 69) are the model's choices. -/
def Obligations.HostResolves : Prop :=
  (∀ (s : State) vf cons v, s.vf? vf = some v →
    let r : Ring := { v.dirty with cons := cons % 2 ^ 64 }
    ∃ t : State, exec (.dirtyRingRoom vf cons) s = .next t ∧ t.vf? vf = some { v with dirty := { r with told := r.told && r.full } } ∧ t.dram = s.dram ∧
      t.cores = s.cores ∧ t.reqs = s.reqs) ∧
  (∀ r : Ring, r.cons < 2 ^ 64 → r.prod < 2 ^ 64 → (r.full = true ↔ (r.prod + (2 ^ 64 - r.cons)) % 2 ^ 64 = 2 ^ r.logn % 2 ^ 64)) ∧
  (∀ (s : State) core vf grid owner key x v, s.vf? vf = some v → s.logging x.page.entry = false →
    ((s.core core).answers key).needsLog v x = .ok true →
    (v.dirty.full = false → s.logWrite core vf grid owner key [x] = .wait (s.logPage core vf grid owner key x) true) ∧
    (v.dirty.full = true → s.logWrite core vf grid owner key [x] = .full s false) ∧
    (v.dirty.block = 0 → let t := s.logPage core vf grid owner key x
      (t.vf? vf).map (·.dirty.prod) = some (v.dirty.prod + 1) ∧ t.dram = s.dram ∧
        t.host = (s.writeHost vf (v.dirty.base + 8 * (v.dirty.prod % 2 ^ v.dirty.logn)) (bytesOfNat 8 (x.page.pa / 2 ^ 16 * 2 ^ 16))).host ∧
        ∃ q ∈ t.reqs, q.errand = some .log ∧ q.home = (physHome vf x.page.entry).1 ∧ q.sector = (physHome vf x.page.entry).2 ∧
          q.kind = .atomic [{ lane := 0, off := x.page.entry % 32, op := .or, ty := .u64, c := 512, e := 0 }])) ∧
  (∀ (s : State) n r w, s.ring? n = some r → (∀ v, n ≠ .faults v) →
    let r' := r.written (ringOfCommands n) w
    (s.hostStep (.ring n w)).ring? n = some { r' with told := r.told && r'.full } ∧
    (r.block ≠ 0 → r.block % 4096 + 32 ≤ 4096 → s.host.wf = true →
      (s.hostStep (.ring n w)).host.readBytes (hostAddress (ringFunction n) r.block % 2 ^ 40) 32 = bytesOfNat 32 r'.word)) ∧
  (∀ (r : Ring) c n, (r.written c (.base n)).base = n % 2 ^ 64 ∧ (r.written c (.logn n)).logn = n % 32 ∧ r.written c .clearOvf = { r with ovf := false } ∧
    (r.written false (.cons n)).cons = n % 2 ^ 64 ∧ r.written false (.prod n) = r ∧ (r.written true (.prod n)).prod = n % 2 ^ 64 ∧
    r.written true (.cons n) = r) ∧
  (∀ (s : State) a b, (∀ n r, s.ring? n = some r → r.block = 0) → s.hostStep (.memory a b) =
    { s with host := s.host.writeAll (((List.range b.length).zip b).map fun p => ((a + p.1) % 2 ^ 40, p.2)) }) ∧
  (∀ (s : State) vf cons v, s.vf? vf = some v →
    ∃ (t : State) (v' : Vf), exec (.faultRingRoom vf cons) s = .next t ∧ t.vf? vf = some v' ∧ t.dram = s.dram ∧ t.cores = s.cores ∧
      v'.faults.cons = cons % 2 ^ 64 ∧
      ((∀ w ∈ v'.waits, w.posted = true) ∨ v'.faults.full = true ∨ v'.faults.enabled = false)) ∧
  (∀ (s : State) vf lo hi, ∃ t : State, exec (.invalidate vf lo hi) s = .next t ∧ t.dram = s.dram ∧ t.reqs = s.reqs ∧
    (∀ p ∈ t.cores, ∀ e ∈ p.2.tlb, e.vf = vf → touches lo hi e.va e.page.size = false) ∧
    (∀ p ∈ t.slices, ∀ e ∈ p.2.tlb, e.vf = vf → touches lo hi e.va e.page.size = false) ∧
    (∀ p ∈ t.cores, ∀ f ∈ p.2.fetches, ∀ g ∈ f.got, g.1 < 2 ^ 64) ∧
    (∃ x ∈ t.invals, x.id = s.nextId ∧ x.vf = vf ∧ ∀ q ∈ s.reqs, q.vf = vf → q.done = false → touches lo hi q.page q.size = true → q.id ∈ x.ids)) ∧
  (∀ (s : State) id x, s.invals.find? (fun x => x.id == id) = some x →
    ((∃ q ∈ s.reqs, q.id ∈ x.ids ∧ q.done = false) → exec (.invalidateComplete id) s = .next s.bump) ∧
    ((∀ q ∈ s.reqs, q.id ∈ x.ids → q.done = true) → (∀ m ∈ s.msgs, m.id ∉ x.ids) → (∀ c ∈ s.cores, ∀ o ∈ c.2.outs, ∀ n ∈ x.ids, n ∉ o.finish.ids) →
      ∃ t : State, exec (.invalidateComplete id) s = .next t ∧ (∀ y ∈ t.invals, y.id ≠ id) ∧
        t.statuses = s.statuses ++ [{ command := "INVALIDATE", vf := x.vf, status := "OK", value := id }])) ∧
  (∀ (s : State) vf token, s.vf? vf = none →
    exec (.resolveRetry vf token) s = .next (s.status "RESOLVE" vf "REFUSED" token).bump ∧
    exec (.resolveFail vf token) s = .next (s.status "RESOLVE" vf "REFUSED" token).bump) ∧
  (∀ (s : State) vf token v, s.vf? vf = some v → v.waitOf token = none →
    exec (.resolveRetry vf token) s = .next (s.status "RESOLVE" vf "OK" token).bump ∧
    exec (.resolveFail vf token) s = .next (s.status "RESOLVE" vf "OK" token).bump) ∧
  (∀ (s : State) vf token v w k team grp sp t g, s.vf? vf = some v → v.waitOf token = some w → w.who = .group k team grp sp →
    s.residents.find? (fun p => p.2.id == team) = some (k, t) → t.group? grp = some g → g.pageWait = some token → w.token = token →
    let s' := s.status "RESOLVE" vf "OK" token
    let r : SplitRef := { core := k, team := team, grp := grp, split := sp }
    ((s.core k).choosePart t.kernel.vregs = none →
      exec (.resolveRetry vf token) s = .next (s'.keepFaultAnswer vf token true).bump ∧
      exec (.resolveFail vf token) s = .next (s'.keepFaultAnswer vf token false).bump) ∧
    (∀ part, (s.core k).choosePart t.kernel.vregs = some part →
      ∃ u : State, s'.restoreGroup k t g = some u ∧ u.dram = s.dram ∧ exec (.resolveRetry vf token) s = .next ((u.dropWait vf token).settleGroup r).bump ∧
        (((u.dropWait vf token).split? r).isSome = true →
          exec (.resolveFail vf token) s = .next (((u.dropWait vf token).enterFault r w.fault).settleGroup r).bump))) ∧
  (∀ (s : State) vf token v w k id, s.vf? vf = some v → v.waitOf token = some w → w.who = .copy k id →
    ∃ (t : State) (v' : Vf), exec (.resolveRetry vf token) s = .next t ∧ t.vf? vf = some v' ∧ (∀ x ∈ v'.waits, x.token ≠ token) ∧
      (∀ q ∈ (t.core k).copyFault, q.id = id → q.token = none) ∧ t.dram = s.dram) ∧
  (∀ (s : State) vf token v w k h b team, s.vf? vf = some v → v.waitOf token = some w → w.who = .draw k h team →
    (s.core k).subs.find? (fun b => b.header == h && b.team == team) = some b →
    ∃ t : State, exec (.resolveFail vf token) s = .next t ∧ (∀ x ∈ (t.core k).subs, x.entry ≠ b.entry) ∧ t.dram = s.dram)

/-- 21 R310, R315, R316, 02 R32: a request of another package that no grant maps, or that its tables refuse, has no effect; one that is granted
takes its place in its line's order and writes, or reads, its bytes at the home of its address, after the leases, once the walk of its address
has read the tables; a request to another package is answered through the routing table, at least 6 ticks after it was sent, and what comes
later than 2^24 ticks is discarded; without an answer by then it fails with MEMORY_ERROR, an ENQ at its run end; ACCESS ends the run at the access.
That an unanswered store is remembered for the next FENCE.sys (log entry 31), what a refused request and one to a host address do (log entry
39), and that the host's turns write the grants and routes (log entry 79) are the model's readings and choices. -/
def Obligations.FabricRequests : Prop :=
  (∀ (s : State) dev vf va op, s.grants.find? (fun g => g.dev == dev && g.vf == vf) = none →
    exec (.remoteRequest dev vf false va op) s = .next s.bump) ∧
  (∀ (s : State) dev vf own port, ((s.hostStep (.grant dev vf own)).grants.find? fun g => g.dev == dev && g.vf == vf) = some ⟨dev, vf, own⟩ ∧
    ((s.hostStep (.revoke dev vf)).grants.find? fun g => g.dev == dev && g.vf == vf) = none ∧
    (s.hostStep (.route dev (some port))).routed dev = decide (port < 32) ∧ (s.hostStep (.route dev none)).routed dev = false) ∧
  (∀ (s : State) dev vf va op g v, s.grants.find? (fun g => g.dev == dev && g.vf == vf) = some g → s.vf? g.own = some v →
    (va % 64 = 0 ∨ ∀ l, op ≠ .enq l) → remoteFits va op = true →
    let f := (s.core outsideCore).answers .outside
    (v.cfg.features.getLsbD 3 = false → exec (.remoteRequest dev vf false va op) s = .next s.bump) ∧
    (∀ k, v.cfg.features.getLsbD 3 = true → s.translate [] f v.cfg va (remoteNeed op) = .error (.fault k) →
      exec (.remoteRequest dev vf false va op) s = .next (s.forget outsideCore .outside).bump) ∧
    (∀ pa, v.cfg.features.getLsbD 3 = true → s.translate [] f v.cfg va (remoteNeed op) = .error (.walk pa) → f.knows (physKey (pa / 32 * 32)) = false →
      ∃ u : State, exec (.remoteRequest dev vf false va op) s = .next u ∧ u.dram = s.dram ∧
        ∃ q ∈ u.reqs, q.id = s.nextId ∧ q.kind = .strongRead ∧ q.errand = some .outside ∧ q.va = physKey (pa / 32 * 32) ∧ q.trip = 3)) ∧
  (∀ (s : State) dev vf va b g v x, s.grants.find? (fun g => g.dev == dev && g.vf == vf) = some g → s.vf? g.own = some v →
    v.cfg.features.getLsbD 3 = true → (∀ p ∈ b, p.1 < 32) →
    let f := (s.core outsideCore).answers .outside
    s.translate [] f v.cfg va .store = .ok x → x.home.allocates = true → s.Quiet outsideCore x → s.toLog v f [x] = [] →
    s.leasesOver x.home (x.pa / 128) = true → s.present x.home (x.pa / 128) = true → s.flaws.contains (x.pa / 32) = false →
    (∀ l, (s.store x.home).line? (x.pa / 128) = some l → l.data.length = 128) →
    let pa := x.pa / 32 * 32
    ∃ t : State, exec (.remoteRequest dev vf false va (.write b [])) s = .next t ∧ t.dram = s.dram ∧
      (∀ o, o < 32 → (t.valueAt x.home (pa + o) 1).head? =
        some (((b.reverse.find? fun p => p.1 == o).map (·.2)).getD ((s.valueAt x.home (pa + o) 1).headD 0))) ∧
      (∀ a, (a < pa ∨ pa + 32 ≤ a) → t.valueAt x.home a 1 = s.valueAt x.home a 1) ∧
      ∃ q ∈ t.reqs, q.id = s.nextId ∧ q.done = true ∧ q.failed = none) ∧
  (∀ (s : State) dev vf va g v x, s.grants.find? (fun g => g.dev == dev && g.vf == vf) = some g → s.vf? g.own = some v →
    v.cfg.features.getLsbD 3 = true → s.translate [] ((s.core outsideCore).answers .outside) v.cfg va .load = .ok x → x.home.allocates = true →
    s.Quiet outsideCore x → s.present x.home (x.pa / 128) = true → s.bad x.home (x.pa / 32) = false →
    (∀ i, i < 32 → s.shadowedVa v.cfg.id (va / 32 * 32 + i) 1 = false) →
    ∃ t : State, exec (.remoteRequest dev vf false va .read) s = .next t ∧ t.dram = s.dram ∧
      ∃ q ∈ t.reqs, q.id = s.nextId ∧ q.done = true ∧ q.failed = none ∧ q.data = s.valueAt x.home (x.pa / 32 * 32) 32) ∧
  (∀ (s : State) dev vf va b l, (∀ p ∈ b, p.1 < 32) → targetOf va = .dram → s.vf? 512 = none →
    (∀ x : Xlated, x.home = .slice (homeSlice va) → x.pa = va → s.Quiet outsideCore x) → s.flaws.contains (va / 32) = false →
    s.leasesOver (.slice (homeSlice va)) (va / 128) = true → (s.store (.slice (homeSlice va))).line? (va / 128) = some l → l.data.length = 128 →
    ∃ t : State, exec (.remoteRequest dev vf true va (.write b [])) s = .next t ∧ t.dram = s.dram ∧
      ∀ o, o < 32 → (t.valueAt (.slice (homeSlice va)) (va / 32 * 32 + o) 1).head? =
        some (((b.reverse.find? fun p => p.1 == o).map (·.2)).getD ((s.valueAt (.slice (homeSlice va)) (va / 32 * 32 + o) 1).headD 0))) ∧
  (∀ (s : State) id q d ans, s.req? id = some q → q.home = .remote d →
    ((s.routed d = false ∨ s.time < q.hop + 6 ∨ s.time > q.hop + 2 ^ 24) → exec (.resultReturn id ans) s = .next s.bump) ∧
    (s.routed d = true → q.hop + 6 ≤ s.time → s.time ≤ q.hop + 2 ^ 24 → s.sent q = true →
      (q.strong = false ∨ s.strongBefore q.owner q.batch = false) →
      exec (.resultReturn id ans) s = .next (s.deliver (s.remoteAnswer q ans)).bump)) ∧
  (∀ (s : State) (q : Req), q.errand = none → q.failed = some .access → q.home.away = true →
    let f : FaultRec := { kind := .access, addr := q.va, lane := q.lane, pc := q.pc, acc := if q.kind.writes then 1 else 0 }
    let u := (s.gone q).deliverOwn q
    s.deliver q = ((u.defer q.owner f).modSplit q.owner fun p =>
      match p.park with
      | .enq _ _ false => p
      | _ => { p with ending := true, park := .none, since := none }).settleGroup q.owner) ∧
  (∀ (s : State) id q d, s.req? id = some q → q.home = .remote d → s.time ≥ q.hop + 2 ^ 24 → s.sent q = true →
    (∀ n, q.kind ≠ .hold → q.out = some n →
      exec (.fabricTimeout id) s = .next (s.deliver { q with done := true, data := [], failed := some .memoryError }).bump) ∧
    (q.kind ≠ .hold → q.out = none → q.own = true → s.group? q.owner = none →
      ∃ t : State, exec (.fabricTimeout id) s = .next t ∧ t.req? id = none ∧ t.dram = s.dram) ∧
    (q.kind = .hold → exec (.fabricTimeout id) s = .next ((s.gone q).enqLost q.owner q).bump)) ∧
  (∀ (s : State) r (q : Req) p i a full c, s.split? r = some p → p.park = .enq i a full → s.actCtx? r i a = some c →
    s.enqLost r q = c.finish (.ok (c.s.defer r { kind := .memoryError, addr := q.va, lane := none, pc := c.split.pc, acc := 1 }))) ∧
  (∀ (s : State) (q : Req) n p, s.split? (q.owner.other n) = some p → (p.sid = q.owner.split ∨ p.shared.contains q.id = true) →
    (∀ lct, p.park = .fence .sys false lct → s.unanswered q n =
      (s.modSplit (q.owner.other n) fun p => { p with pc := p.pc - 1, park := .none }).faultAt (q.owner.other n)
        { kind := .memoryError, addr := q.va, lane := none, pc := p.pc - 1, acc := 0 }) ∧
    (p.park = .none → s.unanswered q n = s.modSplit (q.owner.other n) fun p => { p with unanswered := p.unanswered.orElse fun _ => some q.va })) ∧
  (∀ (s : State) id q, s.req? id = some q → s.time < q.hop + 2 ^ 24 → exec (.fabricTimeout id) s = .next s.bump)

/-- 14 R246 to R250, R256 to R258, 13 R237: a cluster is placed whole on the first footprint that takes it, on cores of its virtual function, each
team with its launch groups, or not at all; a node instance that starts makes a grid of its launch record; arrivals count to WAIT; a grid
triggers once, and gives its successors their arrivals; it retires when nothing of it is left, the replica generation advances, and the
retirement is reported. Records and condition words are read by strong loads that take their way (R257). That WAIT is read at each arrival, and that
the retirement is one of the device's signals, is the model's choice (log entry 35). -/
def Obligations.GridsRun : Prop :=
  (∀ (s : State) grid gr v, s.grid? grid = some gr → s.vf? gr.vf = some v →
    (v.stopped = false → v.leaving = false → (v.cfg.shared = false ∨ v.saved = []) →
      exec (.teamPlace grid) s = .next ((s.placeCluster v gr).getD s).bump) ∧
    ((v.stopped = true ∨ v.leaving = true) → exec (.teamPlace grid) s = .next s.bump)) ∧
  (∀ (s : State) v gr t, s.grid? gr.id = some gr → s.placeCluster v gr = some t →
    ∃ ks ∈ footprints gr.kernel.cw gr.kernel.ch, ks.length = gr.kernel.cw * gr.kernel.ch ∧ (∀ k ∈ ks, k ∈ v.cfg.cores) ∧ t.dram = s.dram ∧
      ∃ gr', t.grid? gr.id = some gr' ∧ gr'.placed = gr.placed + ks.length ∧ gr'.placed ≤ gr.count ∧ gr'.teams.length = gr.teams.length + ks.length) ∧
  (∀ (s : State) k v gr lin c, s.accepts k v = true → s.holds k gr.kernel = true → (gr.kernel.cw * gr.kernel.ch ≤ 1 ∨ (s.core k).teams = []) →
    ((s.core k).addTeam (gr.team (v.objects.find? fun o => o.id == gr.kernel.obj) k s.nextId lin)).launchGroups s.nextId gr.prio gr.args
      gr.kernel.groups = some c →
    ∃ t : State, s.placeTeam k v gr lin = some t ∧ (t.core k).teams = c.teams ∧ (∀ j, j ≠ k → t.core j = s.core j) ∧ t.dram = s.dram) ∧
  (∀ (s : State) v gr pre ks post t, 0 < gr.kernel.cw * gr.kernel.ch → gr.placed + gr.kernel.cw * gr.kernel.ch ≤ gr.count →
    footprints gr.kernel.cw gr.kernel.ch = pre ++ ks :: post →
    let on := fun (l : List Nat) => s.placeAll v gr (l.zip ((List.range (gr.kernel.cw * gr.kernel.ch)).map (gr.placed + ·)))
    (∀ l ∈ pre, on l = none) → on ks = some t →
    s.placeCluster v gr = some (t.modGrid gr.id fun g => { g with placed := g.placed + gr.kernel.cw * gr.kernel.ch })) ∧
  (∀ (c c' : Core) team level args n, c.launchGroups team level args n = some c' →
    (c'.team? team).map (·.groups.length) = (c.team? team).map (·.groups.length + n)) ∧
  (∀ (s : State) graph node g v f, s.graph? graph = some g → s.vf? g.vf = some v → v.stopped = false → v.leaving = false → g.stopped = false →
    s.Came cpCore (.node g.id node) (sectorsOf (g.base + 128 * node) 128) f →
    let w := gather 128 fun i => f.get (g.base + 128 * node + i)
    let u := s.forget cpCore (.node g.id node)
    (node ∈ g.arriving → exec (.nodeStart graph node) s = .next (u.modGraph g.id fun g => g.count node w).bump) ∧
    (∀ x r, node ∉ g.arriving → node < g.nodes → takeFirst (fun x => x.1 == node) g.starts = some (x, r) →
      exec (.nodeStart graph node) s = .next ((u.modGraph g.id fun g => { g with starts := r }).startNode v g node w x.2).bump) ∧
    (∀ x r, node ∉ g.arriving → node < g.nodes → takeFirst (fun x => x.1 == node) g.starts = none →
      takeFirst (fun (x : Nat × Nat × Option (List Word)) => x.1 == g.id && x.2.1 == node) v.launches = some (x, r) →
      exec (.nodeStart graph node) s = .next ((u.modVf v.cfg.id fun v => { v with launches := r }).startNode v g node w x.2.2).bump)) ∧
  (∀ (s : State) graph node g v xs, s.graph? graph = some g → s.vf? g.vf = some v → v.stopped = false → v.leaving = false → g.stopped = false →
    (node ∈ g.arriving ∨ node < g.nodes ∧ ∃ a, (node, a) ∈ g.starts) → (s.core cpCore).answers (.node g.id node) = Fetch.fresh (.node g.id node) →
    s.xlateAll (cpAsker v.cfg g.id node) .load (sectorsOf (g.base + 128 * node) 128) = .ok xs →
    ∃ t : State, exec (.nodeStart graph node) s = .next t ∧ t.graph? graph = some g ∧ t.dram = s.dram ∧
      ∀ p ∈ xs, ∃ q ∈ t.reqs, q.va = p.1 ∧ q.home = p.2.home ∧ q.kind = .strongRead ∧ q.errand = some (.node g.id node)) ∧
  (∀ (s : State) v g n w args o k ke, v.textAt (nodeKaddr w) = some (o, k, 0) → o.kernels[k]? = some ke → mismatch v (s.select v o).2 = false →
    (s.select v o).1.launchOk v ke w = true →
    ∃ gr, (s.startKernel v g n w args).grids = s.grids ++ [gr] ∧ gr.id = s.nextId ∧ gr.kernel = ke ∧ gr.placed = 0 ∧ gr.triggered = false ∧
      gr.ngx = bitsOf w 223 192 ∧ gr.ngy = bitsOf w 239 224 ∧ gr.ngz = bitsOf w 255 240 ∧ gr.count = gr.ngx * gr.ngy * gr.ngz ∧
      gr.trape = bitsOf w 335 320 ∧ gr.trapv = w.testBit 336 ∧ gr.succ = nodeSuccs w 0 3 ∧ (s.startKernel v g n w args).dram = s.dram) ∧
  (∀ (g : Graph) n w, (nodeKind w = 2 → (g.count n w).starts = g.starts ++ [(n, none)]) ∧
    (nodeKind w ≠ 2 → getKey 0 g.arrivals n + 1 = nodeWait w → (g.count n w).starts = g.starts ++ [(n, none)] ∧ getKey 0 (g.count n w).arrivals n = 0) ∧
    (nodeKind w ≠ 2 → getKey 0 g.arrivals n + 1 ≠ nodeWait w → (g.count n w).starts = g.starts ∧
      getKey 0 (g.count n w).arrivals n = getKey 0 g.arrivals n + 1) ∧
    (g.count n w).arriving = g.arriving.erase n) ∧
  (∀ (s : State) graph node g v x r f, s.graph? graph = some g → s.vf? g.vf = some v → v.stopped = false → v.leaving = false → g.stopped = false →
    takeFirst (fun (x : Nat × Nat) => x.1 == node) g.evals = some (x, r) →
    s.Came cpCore (.node graph (65536 + node)) (sectorsOf (nodeKaddr x.2) 4) f →
    let c := gather 4 fun i => f.get (nodeKaddr x.2 + i)
    let u := (s.forget cpCore (.node graph (65536 + node))).modGraph graph fun g => { g with evals := r }
    let p := getKey 0 g.passes node
    (nodeKind x.2 = 1 → exec (.nodeEvaluate graph node) s = .next (u.arriveAll g.id (if c ≠ 0 then nodeSuccs x.2 0 1 else nodeSuccs x.2 2 3)).bump) ∧
    (nodeKind x.2 = 2 → (c ≠ 0 ∧ (nodeMaxit x.2 = 0 ∨ p < nodeMaxit x.2)) → exec (.nodeEvaluate graph node) s =
      .next ((u.modGraph g.id fun g => { g with passes := setKey g.passes node (p + 1) }).arriveAll g.id (nodeSuccs x.2 0 1)).bump) ∧
    (nodeKind x.2 = 2 → (c = 0 ∨ nodeMaxit x.2 ≠ 0 ∧ nodeMaxit x.2 ≤ p) → exec (.nodeEvaluate graph node) s =
      .next ((u.modGraph g.id fun g => { g with passes := setKey g.passes node 0 }).arriveAll g.id (nodeSuccs x.2 2 3)).bump)) ∧
  (∀ (s : State) grid gr v, s.grid? grid = some gr → s.vf? gr.vf = some v →
    (gr.triggered = true ∨ gr.placed < gr.count ∨ (∃ id ∈ gr.awaits, ∃ q ∈ s.reqs, q.id = id) → exec (.gridTrigger grid) s = .next s.bump) ∧
    (gr.triggered = false → gr.placed ≥ gr.count → (∀ t ∈ s.gridTeams grid, t.startsPending = false ∧ ∀ g ∈ t.groups, g.triggered = true) →
      s.formsPending gr = false → gr.awaits = [] →
      exec (.gridTrigger grid) s = .next ((s.modGrid grid fun g => { g with triggered := true }).arriveAll gr.graph gr.succ).bump)) ∧
  (∀ (s : State) grid gr v, s.grid? grid = some gr → s.vf? gr.vf = some v →
    ((gr.triggered = false ∨ gr.placed < gr.count ∨ s.gridTeams grid ≠ [] ∨ s.gridWrites gr = true) → exec (.gridRetire grid) s = .next s.bump) ∧
    (gr.triggered = true → gr.placed ≥ gr.count → s.gridTeams grid = [] → s.gridWrites gr = false →
      ∃ t : State, exec (.gridRetire grid) s = .next t ∧ t.grid? grid = none ∧ .retired gr.vf gr.graph gr.node gr.id ∈ t.signals ∧ t.vf? gr.vf = some { v with repGen := (v.repGen + 1) % 65536 } ∧
        (v.repGen = 65535 → ∀ p ∈ t.slices, ∀ r ∈ p.2.replicas, r.vf ≠ gr.vf) ∧ (∀ p ∈ t.cores, ∀ d ∈ p.2.desc, d.vf ≠ gr.vf) ∧ t.dram = s.dram))

/-- 18 R291 to R293, 21 R312: a team is asked to stop with its whole cluster, and is saved, its registers as they stand, once all of it is at
rest; it resumes on a core with the registers it had; a shared core whose quantum has run out serves the next, and stops the teams of the one it
served. -/
def Obligations.TeamsPreempted : Prop :=
  (∀ (s : State) team p, s.residents.find? (fun p => p.2.id == team) = some p → (∃ q ∈ s.cluster p.2.grid p.2.clu, q.2.stopping = false) →
    exec (.preemptTeam team) s = .next (s.stopTeams (s.cluster p.2.grid p.2.clu)).bump) ∧
  (∀ (s : State) l, (s.cores.map (·.1)).Nodup → ∀ p ∈ (s.stopTeams l).residents, (∃ q ∈ l, q.1 = p.1 ∧ q.2.id = p.2.id) → p.2.stopping = true) ∧
  (∀ (s : State) team p, s.residents.find? (fun p => p.2.id == team) = some p → s.cluster p.2.grid p.2.clu = [p] → p.2.stopping = true →
    (s.atRest p.1 p.2 = false → exec (.preemptTeam team) s = .next s.bump) ∧
    (s.atRest p.1 p.2 = true → ∀ v, s.vf? p.2.vf = some v → (∀ w ∈ v.waits, w.answeredFor p.2.id = false) →
      ∃ (t : State) (v' : Vf), exec (.preemptTeam team) s = .next t ∧ t.vf? p.2.vf = some v' ∧
        v'.saved = v.saved ++ [(s.core p.1).frame p.2 s.time] ∧ (∀ u ∈ (t.core p.1).teams, u.id ≠ p.2.id) ∧ t.dram = s.dram)) ∧
  (∀ (c : Core) (t : Team) now, ((c.frame t now).team.groups.map fun g => (g.grp, g.v, g.s, g.p, g.q)) = (t.groups.map fun g => (g.grp, g.v, g.s, g.p, g.q)) ∧
    (c.frame t now).team.scratch = t.scratch ∧ (c.frame t now).team.binds = t.binds ∧ (c.frame t now).team.latches = t.latches) ∧
  (∀ (s t : State) k v x, s.resumeTeam k v x = some t → s.team? k x.team.id = none →
    ∃ u : Team, t.team? k x.team.id = some u ∧
      (u.groups.map fun g => (g.grp, g.v, g.s, g.p, g.q)) = (x.team.groups.map fun g => (g.grp, g.v, g.s, g.p, g.q)) ∧
      u.scratch = x.team.scratch ∧ u.binds = x.team.binds ∧ t.dram = s.dram) ∧
  (∀ (s : State) k v x c, s.time > x.time → s.accepts k v = true → (x.team.kernel.cw * x.team.kernel.ch ≤ 1 ∨ (s.core k).teams = []) →
    let t := x.team.shift (s.time - x.time)
    let u := { t with kernel := t.kernel.on (v.objects.find? fun o => o.id == t.kernel.obj) k }
    s.holds k u.kernel = true → (∀ p ∈ x.joins, (s.core k).join? p.1 = none) → (s.core k).subs.length + x.subs.length ≤ 8 →
    (s.core k).copyQ.length + (s.core k).copyRun.length + x.copies.length ≤ 64 →
    ((s.core k).addTeam { u with groups := [] }).resumeGroups u x.order u.groups = some c →
    ∃ r : State, s.resumeTeam k v x = some r ∧ (r.core k).teams = c.teams ∧ r.dram = s.dram) ∧
  (∀ (s : State) team v x ks t, s.vfs.find? (fun v => v.saved.any fun x => x.team.id == team) = some v → v.saved.find? (fun x => x.team.id == team) = some x →
    v.stopped = false → v.leaving = false → (footprints x.team.kernel.cw x.team.kernel.ch).head? = some ks →
    s.resumeAll v ((v.savedCluster x.team.grid x.team.clu).map fun y => (ks.getD y.team.rank 0, y)) = some t →
    exec (.teamResume team) s = .next t.moveCopies.bump) ∧
  (∀ (s : State) k vf left, s.quanta.find? (fun q => q.1 == k) = some (k, vf, left) →
    (0 < left → (∃ v, s.vf? vf = some v ∧ s.hasWork k v = true) → exec (.quantumEnd k) s = .next s.bump) ∧
    (∀ w, left = 0 → s.nextServed k vf = some w → (s.cores.map (·.1)).Nodup →
      ∃ t : State, exec (.quantumEnd k) s = .next t ∧ t.quanta.find? (fun q => q.1 == k) = some (k, w.cfg.id, s.share k w) ∧
        (∀ p ∈ t.residents, p.2.vf = vf → p.2.stopping = true) ∧ t.dram = s.dram))

/-- 14 R252, 20 R301 to R308: a line that a split waits for, or ICPREF has asked for, is read at its homes sector by sector and comes into its
core's instruction cache, or the splits that fetch from it take the fault; a KIS-1 kernel that a split waits for is won by
one die, which marks it BUSY, writes its translated text, and marks it READY once FENCE.dev's condition holds there; each word of KIS-1 text that
is legal keeps its bits 126:0, any other becomes the illegal word, and the last word ends its run; a loaded object is kept and its handler
image waits to be installed; a status names the first cause in the order of R301. The range of text that UNLOAD_OBJECT drops is the model's choice
(log entry 21); so are the order of the causes within R301's table and the key
window of KEY_ABSENT (log entry 51). -/
def Obligations.CodeComes : Prop :=
  (∀ (s : State) k vf line err v, s.vf? vf = some v → s.wantsLine k vf line = true →
    (∀ b x, s.textLine k v line = .line b x → (s.core k).ic.length < 1024 →
      ∃ t : State, exec (.icFill k vf line err) s = .next t ∧ (t.core k).icLine vf line = some { vf := vf, line := line, bytes := b } ∧
        (∀ vf' n, (vf', n) ≠ (vf, line) → (t.core k).icLine vf' n = (s.core k).icLine vf' n) ∧ t.dram = s.dram) ∧
    (∀ pa, s.textLine k v line = .walk pa → exec (.icFill k vf line err) s =
      .next ((State.askPhys (if err then s.strike (pa / 32) else s) k vf (2 ^ 64) (fetchOwner k) (.text vf line) [pa]).getD s).bump) ∧
    (∀ e, s.textLine k v line = .bad e → exec (.icFill k vf line err) s = .next ((s.forget k (.text vf line)).fetchFault k vf line e).bump) ∧
    (s.textLine k v line = .nothing → exec (.icFill k vf line err) s = .next (s.forget k (.text vf line)).bump)) ∧
  (∀ (s : State) k vf line err, s.fetchers k vf line = [] → (∀ f ∈ (s.core k).fetches, f.key ≠ .text vf line) →
    exec (.icFill k vf line err) s = .next s.bump) ∧
  (∀ (s : State) vf obj kernel v o img, s.vf? vf = some v → v.objects.find? (fun o => o.id == obj) = some o →
    o.images.find? (fun i => i.kind == 1) = some img →
    (s.physReady (o.stateWord kernel) = false → exec (.kis1Translate vf obj kernel) s = .next s.bump) ∧
    (s.physReady (o.stateWord kernel) = true →
      (∀ k line rest, o.busy.find? (fun b => b.1 == kernel) = none → s.kis1Fetches vf o kernel = (k, line) :: rest → s.textState vf o kernel = some 0 →
        exec (.kis1Translate vf obj kernel) s = .next (s.setKernel vf o kernel 1 (some (k / 48, none))).bump) ∧
      (o.busy.find? (fun b => b.1 == kernel) = none → (s.kis1Fetches vf o kernel = [] ∨ s.textState vf o kernel ≠ some 0) →
        exec (.kis1Translate vf obj kernel) s = .next s.bump) ∧
      (∀ die b, o.busy.find? (fun b => b.1 == kernel) = some (kernel, die, none) →
        readLines (fun i => ((s.core cpCore).answers (.kernel o.id kernel)).imageLine o img ((img.kernels.getD kernel (0, 0)).1 + 128 * i))
          (List.range ((16 * (img.kernels.getD kernel (0, 0)).2 + 127) / 128)) = .ok b →
        (∀ w ∈ o.translation img kernel b, s.physReady w.1 = true) →
        ∃ t, exec (.kis1Translate vf obj kernel) s = .next (((s.forget cpCore (.kernel o.id kernel)).physWrites (o.translation img kernel b)).modObject vf o.id fun o =>
            { o with busy := o.busy.filter (fun b => b.1 != kernel) ++ [(kernel, die, some t)] }).bump ∧
          ∀ w ∈ o.translation img kernel b, s.homeTime (.slice (homeSlice w.1)) ≤ t) ∧
      (∀ die pa, o.busy.find? (fun b => b.1 == kernel) = some (kernel, die, none) →
        readLines (fun i => ((s.core cpCore).answers (.kernel o.id kernel)).imageLine o img ((img.kernels.getD kernel (0, 0)).1 + 128 * i))
          (List.range ((16 * (img.kernels.getD kernel (0, 0)).2 + 127) / 128)) = .error (some (.walk pa)) →
        exec (.kis1Translate vf obj kernel) s = .next (s.cpAsk vf (.kernel o.id kernel) pa).bump) ∧
      (∀ die t, o.busy.find? (fun b => b.1 == kernel) = some (kernel, die, some t) →
        (s.timeAt die > t → exec (.kis1Translate vf obj kernel) s = .next (s.setKernel vf o kernel 2 none).bump) ∧
        (s.timeAt die ≤ t → exec (.kis1Translate vf obj kernel) s = .next s.bump)))) ∧
  (∀ (s : State) vf o k word win, word < 2 ^ 64 → s.canonical = true → (∀ h l, l ∈ (s.store h).lines → l.data.length = 128) →
    targetOf (o.stateWord k) = .dram → o.stateWord k % 128 + 8 ≤ 128 →
    s.bad (.slice (homeSlice (o.stateWord k))) (o.stateWord k / 32) = false →
    (s.setKernel vf o k word win).textState vf o k = some word) ∧
  (∀ (run : List RunRec) (ws : List Nat) n w, (∀ w ∈ ws, w < 2 ^ 128) → ws[n]? = some w →
    ∃ x, (kis1Words run ws)[n]? = some x ∧ x % 2 ^ 127 = (if (kis1Instr w).isSome then w else 0x0F * 2 ^ 120) ∧
      ((kis1Instr w).isNone = true → x.testBit 127 = false) ∧ ((kis1Instr w).isSome = true → n + 1 = ws.length → x.testBit 127 = true)) ∧
  (∀ (s : State) vf v obj slot, s.vf? vf = some v → v.handler = some obj → v.cfg.hingeSlot = some slot →
    (s.slotRuns slot = true → exec (.handlerImageInstall vf) s = .next s.bump) ∧
    (∀ o b, s.slotRuns slot = false → v.objects.find? (fun o => o.id == obj) = some o →
      ((s.core cpCore).answers (.image vf)).handlerImage o = .ok b →
      ∃ (t : State) (v' : Vf), exec (.handlerImageInstall vf) s = .next t ∧ t.vf? vf = some v' ∧ v'.handler = none ∧ t.dram = s.dram ∧
        ∀ n, n < 256 → (t.slice n).slot slot =
          { HingeSlot.ofControl (natOfBytes (b.take 8)) vf with
            code := Memory.writeBytes [] 0 ((b.drop 128).take 8192), posted := ((s.slice n).slot slot).posted }) ∧
    (∀ o pa, s.slotRuns slot = false → v.objects.find? (fun o => o.id == obj) = some o →
      ((s.core cpCore).answers (.image vf)).handlerImage o = .error (some (.walk pa)) →
      exec (.handlerImageInstall vf) s = .next (s.cpAsk vf (.image vf) pa).bump)) ∧
  (∀ (s : State) vf v b plan, s.vf? vf = some v →
    let ends := fun (m : String) => exec (.loadObject vf b plan) s = .next (s.status "LOAD_OBJECT" vf m 0).bump
    let h := objNat b 0 256
    let keygen := bitsOf h 159 128
    let o := objectOf b plan s.nextId (codeKey v.cfg.secret v.cfg.id keygen)
    let signed := fun (total : Nat) => ∃ k, v.cfg.signKeys[bitsOf h 42 41]? = some k ∧ ecdsaVerify k (sha384 (b.take (total - 96))) (b.drop (total - 96)) = true
    let absent := o.enc = true ∧ keygen + 4 ≤ v.newestKey
    (v.stopped = true → ends "VF_STOPPED") ∧
    (v.stopped = false → directoryOk v b = false → ends "BAD_FORMAT") ∧
    (v.stopped = false → directoryOk v b = true → ¬absent → withTables b (bitsOf h 191 160) o = none → ends "BAD_FORMAT") ∧
    (v.stopped = false → directoryOk v b = true → absent → ¬signed o.total → ends "BAD_SIGNATURE") ∧
    (v.stopped = false → directoryOk v b = true → absent → signed o.total → ends "KEY_ABSENT") ∧
    (∀ p, v.stopped = false → directoryOk v b = true → ¬absent → withTables b (bitsOf h 191 160) o = some p →
      (¬signed p.total → ends "BAD_SIGNATURE") ∧
      (signed p.total → exec (.loadObject vf b plan) s = .next (s.takeId.2.installObject v p keygen b).bump))) ∧
  (∀ (s : State) v o keygen b, s.vf? v.cfg.id = some v →
    (((s.allocate v o).bind fun o => s.placement v o b) = none → s.installObject v o keygen b = s.status "LOAD_OBJECT" v.cfg.id "NO_SPACE" 0) ∧
    (∀ p ws, s.allocate v o = some p → s.placement v p b = some ws → (∀ w ∈ ws, s.physReady w.1 = true) →
      ∃ v', (s.installObject v o keygen b).vf? v.cfg.id = some v' ∧ v'.objects = v.objects ++ [p] ∧
        (v.cfg.hingeSlot.isSome = true → (∃ i ∈ p.images, i.kind = 2) → v'.handler = some p.id) ∧
        (s.installObject v o keygen b).statuses = s.statuses ++ [{ command := "LOAD_OBJECT", vf := v.cfg.id, status := "OK", value := p.id }]) ∧
    (∀ p ws, s.allocate v o = some p → s.placement v p b = some ws → (∃ w ∈ ws, s.physReady w.1 = false) → s.installObject v o keygen b = s)) ∧
  (∀ (s : State) vf v obj o, s.vf? vf = some v → v.objects.find? (fun o => o.id == obj) = some o →
    ∃ (t : State) (v' : Vf), exec (.unloadObject vf obj) s = .next t ∧ t.vf? vf = some v' ∧ (∀ x ∈ v'.objects, x.id ≠ obj) ∧ t.dram = s.dram ∧
      (∀ p ∈ t.cores, ∀ l ∈ p.2.ic, l.vf = vf → ¬(o.plan.textVa / 128 ≤ l.line ∧ l.line < o.plan.textVa / 128 + 2 ^ 13 * o.kernels.length)))

/-- 21 R309, R311, R313, R314, 02 R35, 03 R51: a virtual function is made with what is asked for, the defaults standing for values given as 0, where
that is in range and free; DESTROY_VF stops it, and once it is idle zeroes its memory and removes it; the counters go to the host's buffer; a
migration keeps the state, changes cores and root, drops what the destination has not, and lets device time not run back; a contract that
cannot be presented is refused and the function goes on. Every command leaves its status. The statuses OK and REFUSED are the model's choice (log
entry 51); so are the least rise of the offset, the order of MIGRATE_IN's steps, and that a function which is being destroyed does not
migrate (log entry 38). -/
def Obligations.FunctionsLive : Prop :=
  (∀ (s : State) c, s.service = .full →
    let d := withDefaults c
    (s.vfOk d = true → ∃ t : State, exec (.createVf c) s = .next t ∧ t.vf? c.id = some (Vf.fresh d) ∧ (∀ n, n ≠ c.id → t.vf? n = s.vf? n) ∧
      t.statuses = s.statuses ++ [{ command := "CREATE_VF", vf := c.id, status := "OK", value := 0 }] ∧ t.dram = s.dram) ∧
    (s.vfOk d = false → ∃ t : State, exec (.createVf c) s = .next t ∧ t.vfs = s.vfs ∧
      t.statuses = s.statuses ++ [{ command := "CREATE_VF", vf := c.id, status := "REFUSED", value := 0 }])) ∧
  (∀ c : VfConfig, (c.lease = 0 → (withDefaults c).lease = 512) ∧ (c.stallLimit = 0 → (withDefaults c).stallLimit = 2 ^ 24) ∧
    (c.quantum = 0 → (withDefaults c).quantum = 2 ^ 22)) ∧
  (∀ (s : State) vf v, s.vf? vf = some v →
    ((v.dying = false ∨ s.idleVf v = false) → ∃ (t : State) (v' : Vf), exec (.destroyVf vf) s = .next t ∧ t.vf? vf = some v' ∧ v'.leaving = true ∧
      v'.dying = true ∧ t.dram = s.dram ∧ ((s.cores.map (·.1)).Nodup → ∀ p ∈ t.residents, p.2.vf = vf → p.2.stopping = true)) ∧
    (v.dying = true → s.idleVf v = true → ∃ t : State, exec (.destroyVf vf) s = .next t ∧ t.vf? vf = none ∧ (∀ n, n ≠ vf → t.vf? n = s.vf? n) ∧
      (∀ a, t.dram.read a = if inPages (rangesOf v.cfg) a then 0 else s.dram.read a) ∧
      (∀ g ∈ t.grids, g.vf ≠ vf) ∧ (∀ p ∈ t.cores, ∀ e ∈ p.2.tlb, e.vf ≠ vf) ∧
      t.statuses = s.statuses ++ [{ command := "DESTROY_VF", vf := vf, status := "OK", value := 0 }])) ∧
  (∀ (s : State) vf v, s.vf? vf = some v →
    (v.stopped = true → ∃ t : State, exec (.resumeVf vf) s = .next t ∧ t.vf? vf = some { v with stopped := false } ∧ t.cores = s.cores ∧
      t.statuses = s.statuses ++ [{ command := "RESUME_VF", vf := vf, status := "OK", value := 0 }]) ∧
    (v.stopped = false → exec (.resumeVf vf) s = .next (s.status "RESUME_VF" vf "REFUSED" 0).bump)) ∧
  (∀ (s : State) vf v base nodes roots, s.vf? vf = some v →
    (v.stopped = true → exec (.submitGraph vf base nodes roots) s = .next (s.status "SUBMIT_GRAPH" vf "VF_STOPPED" 0).bump) ∧
    (v.stopped = false → ∃ (t : State) (g : Graph), exec (.submitGraph vf base nodes roots) s = .next t ∧ t.graphs = s.graphs ++ [g] ∧ g.id = s.nextId ∧
      g.vf = vf ∧ g.base = base ∧ g.starts = roots.map (fun n => (n, none)) ∧ g.arrivals = [] ∧ t.dram = s.dram)) ∧
  (∀ (s : State) vf v slot buf, s.vf? vf = some v → v.cfg.hingeSlot = some slot → s.canonical = true → buf % 4096 = 0 →
    let at_ := hostAddress vf buf % 2 ^ 40
    let onBlock := fun (a : Nat) => v.commands.block ≠ 0 ∧ ∃ i < 32, a = hostAddress vf (v.commands.block + i) % 2 ^ 40
    (∀ a, onBlock a → a < at_ ∨ at_ + 4096 ≤ a) →
    ∃ t : State, exec (.readCounters vf buf) s = .next t ∧ t.dram = s.dram ∧
      (∀ n j, n < 256 → j < 16 → some (t.host.read (at_ + 16 * n + j)) = ((s.slice n).slot slot).counters[j]?) ∧
      (∀ a, (a < at_ ∨ at_ + 4096 ≤ a) → ¬onBlock a → t.host.read a = s.host.read a)) ∧
  (∀ (s : State) vf v, s.vf? vf = some v →
    (v.dying = true → exec (.migrateOut vf) s = .next (s.status "MIGRATE_OUT" vf "REFUSED" 0).bump) ∧
    (v.dying = false → v.movedOut = true → exec (.migrateOut vf) s = .next (s.status "MIGRATE_OUT" vf "OK" 0).bump) ∧
    (v.dying = false → v.movedOut = false → (v.leaving = false ∨ s.idleVf v = false ∨ ∃ w ∈ v.waits, w.posted = false) →
      ∃ (t : State) (v' : Vf), exec (.migrateOut vf) s = .next t ∧ t.vf? vf = some v' ∧ v'.leaving = true ∧ t.statuses = s.statuses) ∧
    (v.dying = false → v.movedOut = false → v.leaving = true → s.idleVf v = true → (∀ w ∈ v.waits, w.posted = true) →
      exec (.migrateOut vf) s = .next ((s.modVf vf fun v => { v with movedOut := true }).status "MIGRATE_OUT" vf "OK" 0).bump)) ∧
  (∀ (s : State) vf v offered offset root, s.vf? vf = some v →
    (v.movedOut = false → exec (.migrateIn vf offered offset root) s = .next (s.status "MIGRATE_IN" vf "REFUSED" 0).bump) ∧
    (v.movedOut = true → s.presents v offered = false → exec (.migrateIn vf offered offset root) s =
      .next ((s.modVf vf fun v => { v with leaving := false, movedOut := false }).status "MIGRATE_IN" vf "REFUSED" 0).bump) ∧
    (v.movedOut = true → s.presents v offered = true → ∃ (t : State) (v' : Vf), exec (.migrateIn vf offered offset root) s = .next t ∧
      t.vf? vf = some v' ∧ v'.cfg = { v.cfg with cores := offered.cores, root := root, memory := offered.memory } ∧ v'.leaving = false ∧ v'.movedOut = false ∧
      v.offset + 2 ≤ v'.offset ∧ offset ≤ v'.offset ∧ v'.saved.length = v.saved.length ∧ t.grids = s.grids ∧ t.graphs = s.graphs ∧
      (∀ q ∈ t.quanta, q.2.1 ≠ vf) ∧ (∀ p ∈ t.cores, ∀ e ∈ p.2.tlb, e.vf ≠ vf) ∧
      (∀ p ∈ t.slices, ∀ r ∈ p.2.replicas, r.vf ≠ vf) ∧
      t.statuses = s.statuses ++ [{ command := "MIGRATE_IN", vf := vf, status := "OK", value := 0 }]))

/-- 18 R292, R295: a debugger of a team's virtual function halts, quiesces and resumes it, and reads and writes the registers, the trap registers
and the scratchpad of a halted team whose splits stand at their run ends; where no debugger is attached the command is refused. A byte of a
saved team's frame is read by its offset. That READ_CONTEXT reads a frame so, and where a field stands in a section that the table does not lay
out, are the model's choice (log entry 70); so are the statuses (log entry 51). -/
def Obligations.DebuggerActs : Prop :=
  (∀ (s : State) vf v on, s.vf? vf = some v → ∃ t : State, exec (.debuggerAttach vf on) s = .next t ∧ t.vf? vf = some { v with debugger := on } ∧
    t.cores = s.cores ∧ t.dram = s.dram) ∧
  (∀ (s : State) team item value, s.debugged team = none → (∀ o, item ≠ .frameByte o) →
    exec (.halt team) s = .next (s.refuseTeam "HALT" team).bump ∧ exec (.quiesce team) s = .next (s.refuseTeam "QUIESCE" team).bump ∧
    exec (.resume team) s = .next (s.refuseTeam "RESUME" team).bump ∧ exec (.readContext team item) s = .next (s.refuseTeam "READ_CONTEXT" team).bump ∧
    exec (.writeContext team item value) s = .next (s.refuseTeam "WRITE_CONTEXT" team).bump) ∧
  (∀ (s : State) team k t, s.debugged team = some (k, t) →
    exec (.halt team) s = .next ((s.modTeam k team fun t => { t with halted := true }).status "HALT" t.vf "OK" team).bump ∧
    exec (.resume team) s = .next ((s.modTeam k team fun t => { t with halted := false, quiescing := false }).status "RESUME" t.vf "OK" team).bump ∧
    (s.drained k t = true → s.haltStands k t = true → exec (.quiesce team) s =
      .next ((s.modTeam k team fun t => { t with quiescing := false }).status "QUIESCE" t.vf "OK" team).bump) ∧
    (s.drained k t = false ∨ s.haltStands k t = false →
      exec (.quiesce team) s = .next (s.modTeam k team fun t => { t with halted := true, quiescing := true }).bump) ∧
    (∀ item value, (∀ o, item ≠ .frameByte o) → s.haltStands k t = true → t.holdsItem item = true →
      exec (.readContext team item) s = .next (s.status "READ_CONTEXT" t.vf "OK" (t.item item)).bump ∧
      exec (.writeContext team item value) s = .next ((s.modTeam k team fun t => t.setItem value item).status "WRITE_CONTEXT" t.vf "OK" 0).bump) ∧
    (∀ item value, (∀ o, item ≠ .frameByte o) → (s.haltStands k t = false ∨ t.holdsItem item = false) →
      exec (.readContext team item) s = .next (s.status "READ_CONTEXT" t.vf "REFUSED" 0).bump ∧
      exec (.writeContext team item value) s = .next (s.status "WRITE_CONTEXT" t.vf "REFUSED" 0).bump)) ∧
  (∀ (s : State) team off vf x, s.savedTeam? team = some (vf, x) →
    (∀ b, sectionByte x.sections off = some (some b) → exec (.readContext team (.frameByte off)) s = .next (s.status "READ_CONTEXT" vf "OK" b.toNat).bump) ∧
    (sectionByte x.sections off = some none → ∃ b < 256, exec (.readContext team (.frameByte off)) s = .next (s.status "READ_CONTEXT" vf "OK" b).bump) ∧
    (sectionByte x.sections off = none → exec (.readContext team (.frameByte off)) s = .next (s.status "READ_CONTEXT" vf "REFUSED" 0).bump)) ∧
  (∀ (t : Team) (item : CtxItem) (v : Word), t.holdsItem item = true → t.scratch.wf = true →
    (t.setItem v item).item item = (match item with
      | .qreg _ _ => v.toNat % 2
      | .scratchByte _ => v.toNat % 256
      | _ => v.toNat))

/-- A step runs the decoded instruction (14 R252, R253, 09 R135, 13 R217, R237, 03 R326): a turn of a partition fetches the word at the pc of
the split it picks, and is that instruction's meaning in focus; a turn of a hinge core fetches at its handler's pc; an event's turn is its
meaning; a parked instruction that may act comes first, then a grid that triggers, then a split whose promotion is due (14 R255). The order of
the turns is the model's choice (log entry 5), and so is when wear shows (log entry 78). -/
def Obligations.StepRunsTheInstruction : Prop :=
  (∀ (s : State) k p x pick second i, s.due = none → s.triggerDue = none → s.promotionDue = none → s.nextTurn.1 = .issue k p →
    s.nextTurn.2.nextPick k p = some ((x, pick), second) → x.pending = false → x.what = .instr i →
    step s = exec i { (s.nextTurn.2.modCore k fun c => c.modPart p fun q => q.take pick second) with focus := .split x.r }) ∧
  (∀ (s : State) k p x pick second, s.nextPick k p = some ((x, pick), second) → (((s.core k).part p).picks = [] → x.r.core = k) ∧
    ∃ t g q, s.team? x.r.core x.r.team = some t ∧ t.group? x.r.grp = some g ∧ g.split? x.r.split = some q ∧ q.ready t g = true ∧
      x.what = (s.core x.r.core).fetch t.vf t.kernel q.pc) ∧
  (∀ (c : Core) vf (ke : Kernel) pc l i, pc < ke.words → ke.text % 16 = 0 → c.icLine vf ((ke.text + 16 * pc) / 128) = some l →
    decodeWord (BitVec.ofNat 128 (natOfBytes ((l.bytes.drop ((ke.text + 16 * pc) % 128)).take 16))) = .ok i → c.fetch vf ke pc = .instr i) ∧
  (∀ (s : State) n h len i, s.due = none → s.triggerDue = none → s.promotionDue = none → s.nextTurn.1 = .hinge n → (s.nextTurn.2.slice n).run = some h →
    s.nextTurn.2.handlerDue n = true → s.nextTurn.2.overruns n = false →
    ((s.nextTurn.2.slice n).slot h.slot).fetch h.slot h.pc = some (len, .ok i) →
    step s = exec i { s.nextTurn.2 with focus := .slice n }) ∧
  (∀ (s : State) i, s.due = none → s.triggerDue = none → s.promotionDue = none → s.nextTurn.1 = .event i → step s = exec i s.nextTurn.2) ∧
  (∀ (s : State) w, s.due = none → s.triggerDue = none → s.promotionDue = none → s.nextTurn.1 = .host w → step s = .next (s.nextTurn.2.hostStep w).bump) ∧
  (∀ (s : State) u, s.due = none → s.triggerDue = none → s.promotionDue = none → s.nextTurn.1 = .wear u → step s = .next (s.nextTurn.2.wear u).bump) ∧
  (∀ (s : State) r, s.due = some r → step s = exec (.parkedInstructionAct r) s) ∧
  (∀ (s : State) g, s.due = none → s.triggerDue = some g → step s = exec (.gridTrigger g) s) ∧
  (∀ (s : State) r, s.due = none → s.triggerDue = none → s.promotionDue = some r → step s = exec (.promotion r) s) ∧
  (∀ s : State, s.promotionDue = none ↔ ∀ q ∈ s.splitRefs, ¬(q.2.level = 0 ∧ q.2.promoted = false ∧ q.2.readyTicks ≥ 1024)) ∧
  (∀ (s : State) t rest, s.agenda = t :: rest → s.nextTurn = (t, { s with agenda := rest }))

/-- Ordinary data never end a run: where every resident team's grid and virtual function exist, a turn of a partition and a turn of a hinge core
answer a next state, whatever they fetch (12 R148, 03 R49: a word that is no instruction faults or aborts). -/
def Obligations.TurnsGoOn : Prop :=
  (∀ (s : State) k p, (∀ q ∈ s.residents, (s.grid? q.2.grid).isSome = true ∧ (s.vf? q.2.vf).isSome = true) → ∃ t, stepIssue k p s = .next t) ∧
  (∀ (s : State) n, ∃ t, stepHinge n s = .next t) ∧
  (∀ (s : State) (i : Instr), i.code = none → encodeHinge i = none → (∀ len r, i ≠ .hingeRiscvInstruction len r) → ∃ t, exec i s = .next t)

/-- 09 R135 to R144, 12 R192, 07 R201, 12 R206, 13 R213, R219, R230, 18 R286, 20 R303, 03 R45, R47: words that the spec writes out decode to the
instructions they stand for. -/
def Obligations.WordsDecode : Prop :=
  let w : Ops := { stop := false, yieldHint := false, d := .zero, a := .zero, b := .zero, c := .zero, e := .zero, ma := .none, mb := .none,
                   mc := .none, g1 := .always, g2 := .always, h := 0, lv := false, ftz := false, rm := .rne, imm := none }
  decodeWord 0x0001002010000000000007BC00000002#128 = .ok (.if_ { w with a := .cls 0 1 } false 2) ∧
  decodeWord 0x8306008020080000005807BC00000000#128 =
    .ok (.fmaxx { w with stop := true, d := .vec 2, a := .vec 2, b := .vec 2, mb := .xor 4 }) ∧
  decodeWord 0x0502028014480000010007BC00000000#128 =
    .ok (.pmul { w with d := .vec 10, a := .vec 1, b := .sca 18, ma := .user 0 } .h2 false) ∧
  decodeWord 0x87008C10C0000000000007BC00000002#128 =
    .ok (.cambind { w with stop := true, d := .cls 3 0, a := .sca 12 } false .f16 false .h2) ∧
  decodeWord 0x0801012200000000000007BC00088000#128 =
    .ok (.ld { w with d := .vec 4, a := .cls 2 0 } { fmt := .f16, sc := .x2, sem := .weak, sat := false, disp := 0 }) ∧
  decodeWord 0x880341A21C000000000007BC00040008#128 =
    .ok (.ldu { w with stop := true, d := .sca 6, a := .cls 2 1, b := .imm 0 } { fmt := .b64, sc := .x1, sem := .weak, sat := false, disp := 8 }) ∧
  decodeWord 0x0B0200107C2404414000003C00004000#128 =
    .ok (.cpy { w with a := .sca 7, b := .imm 9, c := .vec 4, e := .sca 5, g1 := { neg := false, qs := false, idx := 0 } } true) ∧
  decodeWord 0x8B08001054280000000007BC00000000#128 = .ok (.ltwait { w with stop := true, a := .sca 5, b := .sca 10 }) ∧
  decodeWord 0x8C0148B00C052041000007BC00000057#128 =
    .ok (.join { w with stop := true, d := .sca 34, a := .imm 0, b := .imm 1, c := .sca 32, e := .sca 4 } .intersect false 87) ∧
  decodeWord 0x0D0900220C0008000000002800000000#128 =
    .ok (.smsg { w with a := .cls 2 0, b := .imm 0, c := .vec 8, g1 := { neg := false, qs := false, idx := 0 },
                        g2 := { neg := false, qs := true, idx := 2 } } .x1 0) ∧
  decodeWord 0x0E01000000000000000007BC00004000#128 = .ok (.rett w true) ∧
  decodeWord 0x0F000000000000000000000000000000#128 = .error .noOpcode

/-- Decoding and encoding agree (09 R135 to R144, 03 R45, R47): every well-formed KIS-3 instruction has a word and is what that word decodes to;
a word that decodes gives a well-formed instruction, and is its word; every well-formed hinge instruction is what its 32-bit word decodes to. -/
def Obligations.DecodeEncodeAgree : Prop :=
  (∀ (i : Instr) (w : IWord), i.wf = true → encodeWord i = some w → decodeWord w = .ok i) ∧
  (∀ i : Instr, i.code.isSome = true → (encodeWord i).isSome = true) ∧
  (∀ (i : Instr) (w : IWord), decodeWord w = .ok i → i.wf = true ∧ encodeWord i = some w) ∧
  (∀ (i : Instr) (w : Nat), i.wf = true → encodeHinge i = some w → w < 2 ^ 32 ∧ w % 4 = 3 ∧ decodeHinge w = .ok i) ∧
  (∀ (i : Instr) (w : Nat), w < 2 ^ 32 → decodeHinge w = .ok i → i.wf = true)

/-- 01 R16, 03 R38, 05 R73, 18 R287, 21 R318: right after reset device time is 0, all DRAM reads as zero, every ring is empty and every hinge slot
holds nothing, with budgets of 15; no virtual function exists, no team is resident, the part is in full service; the memories are canonical.
Service, skew and the order of turns are the model's choice (log entries 1, 2, 5). -/
def Obligations.AtReset : Prop :=
  let s := State.reset
  s.time = 0 ∧ (∀ a, s.dram.read a = 0) ∧ s.vfs = [] ∧ s.residents = [] ∧ s.reqs = [] ∧ s.service = .full ∧ s.canonical = true ∧
    s.pfEvents.prod = 0 ∧ s.pfEvents.cons = 0 ∧ s.pfEvents.dropped = 0 ∧ s.pfEvents.ovf = false ∧
    (∀ n m, ((s.slice n).slot m).loaded = false ∧ ((s.slice n).slot m).bmsg = 15 ∧ ((s.slice n).slot m).bevict = 15 ∧
      ((s.slice n).slot m).bfill = 15 ∧ ((s.slice n).slot m).bmiss = 15 ∧ ((s.slice n).slot m).trig = 0 ∧ ((s.slice n).slot m).hrun = 0) ∧
    (∀ n, (s.slice n).run = none ∧ (s.slice n).store.lines = []) ∧ (∀ k, (s.core k).gen = 0 ∧ (s.core k).l1 = [] ∧ (s.core k).tlb = []) ∧
    (∀ d, (s.dies[d]?).isSome = true ↔ d < 4)

/-- Every step keeps the memories of the part and of the host in their canonical form, whatever the state (log entry 3). -/
def Obligations.CanonicalKept : Prop :=
  (∀ s t : State, s.canonical = true → step s = .next t → t.canonical = true) ∧
  (∀ (s t : State) (i : Instr), s.canonical = true → exec i s = .next t → t.canonical = true)

/-- 11 R158, R160, 06 R83, R84, R85, R88: what a destination receives, and the frame of it. A vector destination is written in the executing
lanes alone, the even register the low half of a pair; an s or q destination once, when at least one lane executes; every other register of the
group, every other group, and all memory keep what they held. An instruction that ends no run then changes no register and no byte of memory:
its split's pc goes on, its mask, frames and completion time stay, and of the other splits nothing changes but which results they no longer write
(06 R84). -/
def Obligations.DestinationFrame : Prop :=
  (∀ (g : Group) sid x k n f, n ≤ 4 →
    (∀ i l, i < n → l < 32 → (g.put sid x (.vec k) n f).vlane (k.toNat + i) l =
      if laneIn x l then BitVec.ofNat 32 (f l / 2 ^ (32 * i)) else g.vlane (k.toNat + i) l) ∧
    (∀ m l, (m < k.toNat ∨ k.toNat + n ≤ m) → (g.put sid x (.vec k) n f).vlane m l = g.vlane m l) ∧
    (g.put sid x (.vec k) n f).s = g.s ∧ (g.put sid x (.vec k) n f).p = g.p ∧ (g.put sid x (.vec k) n f).q = g.q ∧
    (g.put sid x (.vec k) n f).b = g.b ∧
    (∀ i, i < n → x ≠ 0 → (g.put sid x (.sca k) n f).sreg (k.toNat + i) = BitVec.ofNat 32 (f 0 / 2 ^ (32 * i))) ∧
    (∀ m, (m < k.toNat ∨ k.toNat + n ≤ m ∨ x = 0) → (g.put sid x (.sca k) n f).sreg m = g.sreg m) ∧
    (g.put sid x (.sca k) n f).v = g.v ∧ (g.put sid x (.sca k) n f).p = g.p ∧ (g.put sid x (.sca k) n f).q = g.q) ∧
  (∀ (g : Group) sid x (i : BitVec 4) n f,
    (∀ l, l < 32 → laneIn ((g.put sid x (.cls 0 i) n f).preg i.toNat) l = if laneIn x l then decide (f l % 2 = 1) else laneIn (g.preg i.toNat) l) ∧
    (∀ m, m ≠ i.toNat → (g.put sid x (.cls 0 i) n f).preg m = g.preg m) ∧ (g.put sid x (.cls 0 i) n f).v = g.v ∧
    (g.put sid x (.cls 0 i) n f).q = g.q ∧
    (x ≠ 0 → i.toNat ≠ 7 → (g.put sid x (.cls 1 i) n f).qreg i.toNat = decide (f 0 % 2 = 1)) ∧
    (∀ m, (m ≠ i.toNat ∨ x = 0) → (g.put sid x (.cls 1 i) n f).qreg m = g.qreg m) ∧ (g.put sid x (.cls 1 i) n f).v = g.v) ∧
  (∀ (g : Group) sid x d n f, (g.put sid x d n f).qreg 7 = true ∧ (g.put sid x d n f).splits = g.splits ∧ (g.put sid x d n f).exited = g.exited ∧
    (g.put sid x d n f).tcode = g.tcode ∧ (g.put sid x d n f).tepc = g.tepc ∧ (g.put sid x d n f).taddr = g.taddr ∧
    (g.put sid x d n f).trapSplit = g.trapSplit) ∧
  (∀ (c : Ctx) n f r, (r.core, r.team, r.grp) ≠ (c.r.core, c.r.team, c.r.grp) → (c.put n f).group? r = c.s.group? r) ∧
  (∀ (c : Ctx) n f, (c.put n f).dram = c.s.dram ∧ (c.put n f).host = c.s.host ∧ (c.put n f).slices = c.s.slices ∧ (c.put n f).reqs = c.s.reqs ∧
    (c.put n f).vfs = c.s.vfs ∧ (c.put n f).time = c.s.time) ∧
  (∀ (c : Ctx) (s : State) reads next g p, s.group? c.r = some g → g.split? c.r.split = some p → c.i.endsRun c.o = false →
    c.acting = false → hazards c.split.run c.writes = [] →
    ∃ g' p', (c.retire s reads next).group? c.r = some g' ∧ g'.split? c.r.split = some p' ∧ g'.v = g.v ∧ g'.s = g.s ∧ g'.p = g.p ∧ g'.q = g.q ∧
      g'.b = g.b ∧ g'.exited = g.exited ∧ g'.tcode = g.tcode ∧ g'.tepc = g.tepc ∧ g'.trapSplit = g.trapSplit ∧
      p'.pc = (if next then p.pc + 1 else p.pc) ∧ p'.mask = p.mask ∧ p'.frames = p.frames ∧ p'.lct = p.lct ∧ p'.park = p.park ∧
      (∀ n q, n ≠ c.r.split → g.split? n = some q → ∃ l, g'.split? n = some { q with outdone := l }) ∧
      (c.retire s reads next).dram = s.dram ∧ (c.retire s reads next).host = s.host ∧ (c.retire s reads next).slices = s.slices ∧
      (c.retire s reads next).reqs = s.reqs ∧ (c.retire s reads next).vfs = s.vfs ∧ (c.retire s reads next).time = s.time) ∧
  (∀ (i : Instr) op o (s t : State), i.code = some (op, o) → op < 0x700 → exec i s = .next t →
    t.dram = s.dram ∧ t.slices = s.slices ∧ t.time = s.time)

/-- 18 R283 to R285, R288: a fault waits until the split's earlier results are written and its registers are unchanged by it; with TRAPV the split
enters trap mode: TCODE, TEPC, TADDR and TLANE say what and where, it goes on at TRAPE with its mask unchanged, and the other splits of the group
park; without TRAPV, or in trap mode, an event is posted and the group ends; a BREAKPOINT under an attached debugger halts the team in place of
that, the split going on after the BRK (the model's reading, log entry 11); a page fault parks the group, and once its splits all stand at run
ends its context is freed and the fault is posted and waits under a token. -/
def Obligations.FaultsTaken : Prop :=
  (∀ (s : State) r f p g, s.group? r = some g → g.split? r.split = some p → s.hasOuts r = true →
    (p.mask ≠ 0 ∨ p.frames ≠ []) → (∀ q ∈ g.splits, q.sid ≠ r.split → q.ending = false) →
    ∃ p', (s.faultAt r f).split? r = some p' ∧ p'.ending = true ∧ (s.faultAt r f).dram = s.dram ∧ (s.faultAt r f).host = s.host ∧
      (p.deferred = none → g.dying = false → g.suspends r.split = false → g.stalled = false → p'.deferred = some f) ∧
      p'.pc = p.pc ∧ p'.mask = p.mask) ∧
  (∀ (s : State) r f p g, s.group? r = some g → g.split? r.split = some p → s.hasOuts r = false → p.resultAt ≤ s.time → p.deferred = none →
    g.dying = false → g.suspends r.split = false → g.stalled = false → (∀ q ∈ g.splits, q.sid ≠ r.split → q.ending = false) →
    ∃ (u : State) (g' : Group), s.faultAt r f = (u.raise r f).postDue r ∧ u.group? r = some g' ∧ g'.v = g.v ∧ g'.s = g.s ∧ g'.p = g.p ∧
      g'.q = g.q ∧ g'.b = g.b ∧ u.dram = s.dram ∧ u.host = s.host ∧ u.reqs = s.reqs ∧ u.slices = s.slices) ∧
  (∀ (s : State) r f, f.kind ≠ .pageFault → (∀ n, f.kind ≠ .breakpoint n) → s.raise r f = s.enterFault r f) ∧
  (∀ (s : State) r f n t v, f.kind = .breakpoint n → s.team? r.core r.team = some t → s.vf? t.vf = some v →
    (v.debugger = false → s.raise r f = s.enterFault r f) ∧
    (∀ p, v.debugger = true → s.split? r = some p → ∃ t', (s.raise r f).team? r.core r.team = some t' ∧ t'.halted = true ∧
      (s.raise r f).split? r = some { p with pc := f.pc + 1 } ∧ (s.raise r f).dram = s.dram)) ∧
  (∀ (s : State) r f t g p gr v, s.team? r.core r.team = some t → t.group? r.grp = some g → g.split? r.split = some p → s.grid? t.grid = some gr →
    s.vf? t.vf = some v → gr.trapv = true → g.trapSplit = none → (p.mask ≠ 0 ∨ p.frames ≠ []) →
    ∃ g' p', (s.enterFault r f).group? r = some g' ∧ g'.split? r.split = some p' ∧ g'.tcode = f.kind.code ∧ g'.tepc = f.pc ∧
      g'.taddr = (if f.kind.hasAddr then f.addr else 0) ∧ g'.tlane = f.lane.getD 0xFFFFFFFF ∧ g'.trapSplit = some r.split ∧ g'.trapMask = p.mask ∧
      g'.trapDepth = p.frames.length ∧ p'.pc = gr.trape ∧ p'.mask = p.mask ∧ p'.frames = p.frames ∧ p'.held = false ∧
      (∀ q ∈ g'.splits, q.sid ≠ r.split → q.held = true) ∧ g'.v = g.v ∧ g'.s = g.s ∧ g'.p = g.p ∧ g'.q = g.q ∧ g'.b = g.b ∧
      (s.enterFault r f).dram = s.dram ∧ (s.enterFault r f).host = s.host) ∧
  (∀ (s : State) r f t g gr v, s.team? r.core r.team = some t → t.group? r.grp = some g → s.grid? t.grid = some gr → s.vf? t.vf = some v →
    (gr.trapv = false ∨ g.trapSplit.isSome = true) →
    s.enterFault r f =
      (s.post { code := 0x8007, vf := v.cfg.id, srck := 0, src := v.cfg.coreIndex r.core, item := g.grp, lane := f.lane.getD 63,
                addr := if f.kind.hasAddr then f.addr else 0, count := f.pc, time := s.vfTime r.core t.vf,
                code1 := if g.trapSplit.isSome then g.tcode else f.kind.code, code2 := if g.trapSplit.isSome then f.kind.code else 0 }).killGroup r) ∧
  (∀ (s : State) r g p, s.group? r = some g → g.splits = [p] → p.sid = r.split → (s.killGroup r).group? r = none) ∧
  (∀ (s : State) r f g, s.group? r = some g → f.kind = .pageFault →
    ∃ g', (s.raise r f).group? r = some g' ∧ g'.pageDue = some (r.split, f) ∧ g'.stalled = true ∧ g'.v = g.v ∧ g'.s = g.s ∧ g'.p = g.p ∧
      g'.q = g.q ∧ g'.splits = g.splits ∧ (s.raise r f).dram = s.dram) ∧
  (∀ (s : State) r f t g v n, s.team? r.core r.team = some t → t.group? r.grp = some g → s.vf? t.vf = some v → g.pageDue = some (n, f) →
    g.dying = false → (∀ p ∈ g.splits, s.standing (r.other p.sid) p = true) →
    ∃ g' v' w, (s.postDue r).group? r = some g' ∧ g'.pageDue = none ∧ g'.pageWait = some w.token ∧ g'.v = g.v ∧ g'.s = g.s ∧
      g'.splits = g.splits ∧ (s.postDue r).vf? t.vf = some v' ∧ v'.waits = v.waits ++ [w] ∧ w.who = .group r.core r.team r.grp n ∧
      w.va = f.addr ∧ w.posted = (v.faults.enabled && !v.faults.full) ∧ (s.postDue r).dram = s.dram ∧
      (v.nextToken < 65536 → v.waits.length < 65536 → ∀ x ∈ v.waits, x.token ≠ w.token) ∧
      (∀ o ∈ (((s.postDue r).core r.core).part g.part).order, (o.1, o.2.1) ≠ (r.team, r.grp))) ∧
  (FaultKind.illegalInstruction.code = 0x01 ∧ FaultKind.divergentJump.code = 0x06 ∧ FaultKind.maskStack.code = 0x07 ∧ FaultKind.pageFault.code = 0x08 ∧
    FaultKind.access.code = 0x09 ∧ FaultKind.memoryError.code = 0x0A ∧ (FaultKind.trap 7).code = 0x070F ∧ (FaultKind.camBind 3).code = 0x0305)

/-- 05 R69 to R71, 02 R21, R22, R27: four levels of entries, each read at its home by a strong load; a clear V at any level is PAGE_FAULT, a leaf
above level 2, a reserved bit or a missing permission ACCESS; an entry that has not come is asked for; bits 63:56 of an address must be
zero. -/
def Obligations.TranslationChecks : Prop :=
  (∀ (s : State) l f v va need, va ≥ 2 ^ 56 → s.translate l f v va need = .error (.fault .access)) ∧
  (∀ (f : Fetch) pa n, targetOf pa ≠ .absent →
    ((∀ e ∈ f.errs, e.2 ≠ physKey pa) → (∀ g ∈ f.got, g.1 ≠ physKey pa) → f.phys pa n = .error (.walk pa)) ∧
    (∀ b, (∀ e ∈ f.errs, e.2 ≠ physKey pa) → f.got.find? (fun g => g.1 == physKey pa) = some (physKey pa, b) →
      f.phys pa n = .ok ((b.drop (pa % 32)).take n)) ∧
    (∀ k, f.errs.find? (fun e => e.2 == physKey pa) = some (k, physKey pa) → f.phys pa n = .error (.fault k))) ∧
  (∀ (f : Fetch) own (v : VfConfig) va e0 e1 e2 e3,
    f.phys (v.root + 8 * (va / 2 ^ 46 % 1024)) 8 = .ok (bytesOfNat 8 e0) → f.phys (pteBase e0 + 8 * (va / 2 ^ 36 % 1024)) 8 = .ok (bytesOfNat 8 e1) →
    f.phys (pteBase e1 + 8 * (va / 2 ^ 26 % 1024)) 8 = .ok (bytesOfNat 8 e2) →
    e0 < 2 ^ 64 → e1 < 2 ^ 64 → e2 < 2 ^ 64 → e3 < 2 ^ 64 →
    (∀ e ∈ [e0, e1], e % 4 = 1 ∧ bitsOf e 19 2 = 0 ∧ bitsOf e 63 45 = own) →
    (e2 % 2 = 0 → f.walkPage own v va = .error (.fault .pageFault)) ∧
    (e2 % 4 = 3 → bitsOf e2 19 18 = 0 → bitsOf e2 29 20 = 0 →
      ∃ p, f.walkPage own v va = .ok p ∧ p.size = 2 ^ 26 ∧ p.pa = bitsOf e2 44 20 * 2 ^ 16 + bitsOf e2 63 45 * 2 ^ 44 ∧
        p.rd = e2.testBit 2 ∧ p.wr = e2.testBit 3 ∧ p.ex = e2.testBit 4 ∧ p.home = bitsOf e2 6 5 ∧ p.tgt = bitsOf e2 17 10) ∧
    (e2 % 4 = 3 → (bitsOf e2 19 18 ≠ 0 ∨ bitsOf e2 29 20 ≠ 0) → f.walkPage own v va = .error (.fault .access)) ∧
    (e2 % 4 = 1 → bitsOf e2 19 2 = 0 → bitsOf e2 63 45 = own →
      (∀ m, f.phys (pteBase e2 + 8 * (va / 2 ^ 16 % 1024)) 8 = .error m → f.walkPage own v va = .error m) ∧
      (f.phys (pteBase e2 + 8 * (va / 2 ^ 16 % 1024)) 8 = .ok (bytesOfNat 8 e3) →
      (e3 % 2 = 0 → f.walkPage own v va = .error (.fault .pageFault)) ∧
      (e3 % 4 = 1 → f.walkPage own v va = .error (.fault .access)) ∧
      (e3 % 4 = 3 → bitsOf e3 19 18 = 0 → ∃ p, f.walkPage own v va = .ok p ∧ p.size = 2 ^ 16 ∧
        p.pa = bitsOf e3 44 20 * 2 ^ 16 + bitsOf e3 63 45 * 2 ^ 44 ∧ p.rd = e3.testBit 2 ∧ p.wr = e3.testBit 3 ∧ p.ex = e3.testBit 4 ∧
        p.hv = e3.testBit 7 ∧ p.dle = e3.testBit 8 ∧ p.home = bitsOf e3 6 5 ∧ p.tgt = bitsOf e3 17 10)))) ∧
  (∀ (f : Fetch) own (v : VfConfig) va e, f.phys (v.root + 8 * (va / 2 ^ 46 % 1024)) 8 = .ok (bytesOfNat 8 e) → e < 2 ^ 64 →
    (e % 2 = 0 → f.walkPage own v va = .error (.fault .pageFault)) ∧ (e % 4 = 3 → f.walkPage own v va = .error (.fault .access))) ∧
  (∀ (f : Fetch) own (v : VfConfig) va m, f.phys (v.root + 8 * (va / 2 ^ 46 % 1024)) 8 = .error m → f.walkPage own v va = .error m) ∧
  (∀ (s : State) v p va, (p.rd = false → s.onPage v p va .load = .error .access) ∧
    ((p.wr = false ∨ p.rd = false) → s.onPage v p va .store = .error .access) ∧ (p.ex = false → s.onPage v p va .fetch = .error .access)) ∧
  (∀ (s : State) f v va x, s.translate [] f v va .store = .ok x → x.page.rd = true ∧ x.page.wr = true ∧ va < 2 ^ 56 ∧
    f.walkPage s.devNumber v va = .ok x.page ∧
    (devOf (x.page.pa + va % x.page.size) = s.devNumber → targetOf (localOf (x.page.pa + va % x.page.size)) = .dram →
      x.pa = localOf (x.page.pa + va % x.page.size))) ∧
  (∀ (s : State) (v : VfConfig) p pa, p.home = 2 → v.pinnedKiB = 0 → s.homeOf v p pa = .error .access)

/-- 02 R24: the home slice of a line is the exclusive or of the four bytes of bits 43:12 of its address, for pages of home attribute 00 and 11. -/
def Obligations.HomeSliceOfLine : Prop :=
  (∀ pa, homeSlice pa < 256 ∧
    BitVec.ofNat 8 (homeSlice pa) = BitVec.ofNat 8 (pa / 2 ^ 12) ^^^ BitVec.ofNat 8 (pa / 2 ^ 20) ^^^ BitVec.ofNat 8 (pa / 2 ^ 28) ^^^ BitVec.ofNat 8 (pa / 2 ^ 36)) ∧
  (∀ a b, a / 4096 = b / 4096 → homeSlice a = homeSlice b) ∧
  (∀ (s : State) v p pa, (p.home = 0 ∨ p.home = 3) → p.tgt = 0 → devOf pa = s.devNumber → targetOf (localOf pa) = .dram →
    s.homeOf v p pa = .ok (if p.home = 0 then .slice (homeSlice (localOf pa)) else .direct (homeSlice (localOf pa)))) ∧
  homeSlice 0x0ABCD000 = 0x66

/-- 04 R64: LTRESET waits until PEND is 0; it then frees the latch, clears every count, target, OVER, ERR and continuation, keeps the largest
completion time, and flips PHASE if the latch was not free; waiters of the old phase are released and take no fault. -/
def Obligations.LatchReset : Prop :=
  (∀ (s : State) (c : Ctx) o l, s.Ready (.ltreset o) c → c.uniA < c.team.kernel.latches → c.x ≠ 0 → c.team.latches.getD c.uniA Latch.fresh = l →
    (l.pend ≠ 0 → s.Waits (.ltreset o) c (s.forget c.r.core (.word c.r)) [(0, l.over_.toNat)]) ∧
    (l.pend = 0 → s.Acts (.ltreset o) c (s.modLatch c.r.core c.r.team c.uniA Latch.reset) [] true)) ∧
  (∀ (s : State) k team n t, s.team? k team = some t → n < t.latches.length →
    ∃ (t' : Team) (l' : Latch), (s.modLatch k team n Latch.reset).team? k team = some t' ∧ t'.latches[n]? = some l' ∧
      (∀ l, t.latches[n]? = some l →
        l'.state = .free ∧ l'.exp = 0 ∧ l'.arrb = 0 ∧ l'.arrt = 0 ∧ l'.arrn = 0 ∧ l'.cnst = 0 ∧ l'.cnsn = 0 ∧ l'.over_ = false ∧ l'.err = 0 ∧
          l'.cont = none ∧ l'.largest = l.largest ∧ l'.phase = (if l.state = .free then l.phase else !l.phase)) ∧
      (∀ m, m ≠ n → t'.latches[m]? = t.latches[m]?)) ∧
  (∀ (s : State) (c : Ctx) l now, l.state ≠ .free → c.team.latches.getD c.uniA Latch.fresh = Latch.change Latch.reset now l →
    c.uniA < c.team.kernel.latches → c.uniB ≤ 1 → l.phase = (c.uniB == 1) →
    (∀ o, s.Ready (.ltwait o) c → ∃ t, s.Acts (.ltwait o) c t [] true) ∧
    (∀ o disp, s.Ready (.yield o true disp) c → c.x ≠ 0 →
      ∃ t, s.Acts (.yield o true disp) c t [] false))

/-- 14 R255: a level-0 split that has been ready for 1,024 consecutive ticks without issuing is treated as level 1 until its next issue, be that an
instruction that acts or one that parks; ticks with withheld slots do not count, nor those in which a yield holds the split back
(09 R146). -/
def Obligations.Promoted : Prop :=
  (∀ (p : Split) ready, p.wait ready false true = p) ∧
  (∀ p : Split, p.level = 0 → p.promoted = false → p.wait true false false = { p with readyTicks := p.readyTicks + 1 }) ∧
  (∀ p : Split, p.wait false false false = { p with readyTicks := 0 }) ∧
  (∀ (p : Split) ready lost, p.wait ready true lost = { p with readyTicks := 0 }) ∧
  (∀ (s : State) (r : SplitRef) (p : Split), s.split? r = some p → p.level = 0 → p.promoted = false → p.readyTicks ≥ 1024 →
    ∃ (t : State) (p' : Split), exec (.promotion r) s = .next t ∧ t.split? r = some p' ∧ p' = { p with promoted := true, readyTicks := 0 } ∧ t.dram = s.dram) ∧
  (∀ (s : State) (r : SplitRef) (p : Split), s.split? r = some p → (p.level ≠ 0 ∨ p.promoted = true ∨ p.readyTicks < 1024) →
    exec (.promotion r) s = .next s.bump) ∧
  (∀ (s : State) k p x, x ∈ s.candidates k p → ∃ q, s.split? x.r = some q ∧ x.level = if q.promoted then 1 else q.level) ∧
  (∀ (s : State) k p x, x ∈ s.notHeld k p ↔ x ∈ s.candidates k p ∧
    (x.yielded = true → (∀ y ∈ s.candidates k p, y.yielded = true) ∧ ∀ q ∈ ((s.core k).part p).picks, q.split = x.r)) ∧
  (∀ (c : Ctx) park p, c.acting = false → c.group.dying = false → c.s.split? c.r = some p →
    ∃ p', (c.parkAt park).split? c.r = some p' ∧ p'.promoted = false ∧ p'.readyTicks = 0) ∧
  (∀ (p : Split) (c : Ctx) reads bad next, (p.acted c reads bad next).promoted = false ∧ (p.acted c reads bad next).readyTicks = 0)
end

