-- ==== Sys2Proof/Laws/Memory.lean ====
section
/-!
SUPPORT. Laws of lists kept by key, of memories and of registers: what a read gives after a write, and that every memory
operation keeps the canonical form.
-/
namespace Sys2Proof.Machine

/-! ## Lists kept by key -/

@[simp] theorem getKey_setKey_self {α : Type} (d : α) (l : List (Nat × α)) (n : Nat) (x : α) :
    getKey d (setKey l n x) n = x := by
  induction l with
  | nil => simp [setKey, getKey]
  | cons p r ih =>
    obtain ⟨k, v⟩ := p
    by_cases h : k = n <;> simp [setKey, getKey, h, ih]

theorem getKey_setKey_ne {α : Type} (d : α) (l : List (Nat × α)) {n m : Nat} (x : α) (h : m ≠ n) :
    getKey d (setKey l n x) m = getKey d l m := by
  induction l with
  | nil => simp [setKey, getKey, Ne.symm h]
  | cons p r ih =>
    obtain ⟨k, v⟩ := p
    by_cases hk : k = n
    · subst hk; simp [setKey, getKey, Ne.symm h]
    · by_cases hm : k = m
      · have : m ≠ n := h
        simp [setKey, getKey, hm, this]
      · simp [setKey, getKey, hk, hm, ih]

theorem getKey_setKey {α : Type} (d : α) (l : List (Nat × α)) (n m : Nat) (x : α) :
    getKey d (setKey l n x) m = if m = n then x else getKey d l m := by
  by_cases h : m = n
  · subst h; simp
  · simp [h, getKey_setKey_ne d l x h]

/-! ## Memories -/

theorem Memory.wfFrom_le {m : Memory} {lo lo' : Nat} (h : lo' ≤ lo) (hw : Memory.wfFrom lo m = true) :
    Memory.wfFrom lo' m = true := by
  cases m with
  | nil => rfl
  | cons p r =>
    simp only [Memory.wfFrom, Bool.and_eq_true, decide_eq_true_eq] at hw ⊢
    exact ⟨⟨by omega, hw.1.2⟩, hw.2⟩

/-- A memory whose entries start at `lo` reads as zero below. -/
theorem Memory.read_below {m : Memory} {lo a : Nat} (hw : Memory.wfFrom lo m = true) (h : a < lo) : m.read a = 0 := by
  induction m generalizing lo with
  | nil => rfl
  | cons p r ih =>
    simp only [Memory.wfFrom, Bool.and_eq_true, decide_eq_true_eq] at hw
    have : p.1 ≠ a := by omega
    simp only [Memory.read, if_neg this]
    exact ih hw.2 (by omega)

theorem Memory.wfFrom_write {m : Memory} {lo a : Nat} (x : Byte) (hw : Memory.wfFrom lo m = true) (h : lo ≤ a) :
    Memory.wfFrom lo (m.write a x) = true := by
  induction m generalizing lo with
  | nil =>
    simp only [Memory.write]
    split
    · rfl
    · simp_all [Memory.wfFrom]
  | cons p r ih =>
    obtain ⟨k, v⟩ := p
    simp only [Memory.wfFrom, Bool.and_eq_true, decide_eq_true_eq] at hw
    obtain ⟨⟨hk, hv⟩, hr⟩ := hw
    simp only [Memory.write]
    split
    · split
      · simp only [Memory.wfFrom, hk, hv, hr]; rfl
      · simp_all [Memory.wfFrom] <;> omega
    · split
      · split
        · exact Memory.wfFrom_le (by omega) hr
        · simp_all [Memory.wfFrom]
      · simp only [Memory.wfFrom, hk, hv, ih hr (show k + 1 ≤ a by omega)]; rfl

/-- Writing a byte keeps the canonical form. -/
theorem Memory.wf_write {m : Memory} (a : Nat) (x : Byte) (hw : m.wf = true) : (m.write a x).wf = true :=
  Memory.wfFrom_write x hw (Nat.zero_le a)

theorem Memory.read_write_from {m : Memory} {lo : Nat} (a b : Nat) (x : Byte) (hw : Memory.wfFrom lo m = true) :
    (m.write a x).read b = if b = a then x else m.read b := by
  induction m generalizing lo with
  | nil =>
    simp only [Memory.write]
    split
    · rename_i hx; simp [Memory.read, hx]
    · by_cases hb : b = a
      · simp [Memory.read, hb]
      · simp [Memory.read, hb, Ne.symm hb]
  | cons p r ih =>
    obtain ⟨k, v⟩ := p
    simp only [Memory.wfFrom, Bool.and_eq_true, decide_eq_true_eq] at hw
    obtain ⟨-, hr⟩ := hw
    have below := fun (h : a ≤ k) => Memory.read_below hr (a := a) (by omega)
    simp only [Memory.write]
    split
    · rename_i hlt
      split
      · rename_i hx
        by_cases hb : b = a
        · subst hb
          have : k ≠ b := by omega
          simp [Memory.read, this, hx, below (by omega)]
        · simp [hb]
      · by_cases hb : b = a
        · simp [Memory.read, hb]
        · simp [Memory.read, hb, Ne.symm hb]
    · split
      · rename_i hlt heq
        subst heq
        split
        · rename_i hx
          by_cases hb : b = a
          · subst hb; simp [hx, below (Nat.le_refl _)]
          · simp [Memory.read, hb, Ne.symm hb]
        · by_cases hb : b = a
          · simp [Memory.read, hb]
          · simp [Memory.read, hb, Ne.symm hb]
      · rename_i hlt heq
        by_cases hk : k = b
        · have : b ≠ a := by omega
          simp [Memory.read, hk, this]
        · simp [Memory.read, hk, ih hr]

/-- A read after a write. -/
theorem Memory.read_write {m : Memory} (a b : Nat) (x : Byte) (hw : m.wf = true) :
    (m.write a x).read b = if b = a then x else m.read b := Memory.read_write_from a b x hw

/-- Writing bytes keeps the canonical form. -/
theorem Memory.wf_writeBytes {m : Memory} (a : Nat) (l : List Byte) (hw : m.wf = true) : (m.writeBytes a l).wf = true := by
  induction l generalizing m a with
  | nil => exact hw
  | cons x r ih => exact ih _ (Memory.wf_write a x hw)

/-- Writing bytes at given addresses keeps the canonical form. -/
theorem Memory.wf_writeAll {m : Memory} (l : List (Nat × Byte)) (hw : m.wf = true) : (m.writeAll l).wf = true := by
  induction l generalizing m with
  | nil => exact hw
  | cons p r ih => exact ih (Memory.wf_write p.1 p.2 hw)

/-- A read after bytes were written. -/
theorem Memory.read_writeBytes {m : Memory} (a b : Nat) (l : List Byte) (hw : m.wf = true) :
    (m.writeBytes a l).read b = if a ≤ b ∧ b < a + l.length then l.getD (b - a) 0 else m.read b := by
  induction l generalizing m a with
  | nil =>
    have : ¬ (a ≤ b ∧ b < a + 0) := by omega
    simp only [Memory.writeBytes, List.length_nil, if_neg this]
  | cons x r ih =>
    rw [Memory.writeBytes, ih _ (Memory.wf_write a x hw), Memory.read_write _ _ _ hw]
    by_cases hb : b = a
    · subst hb
      have : ¬ (b + 1 ≤ b ∧ b < b + 1 + r.length) := by omega
      rw [if_neg this, if_pos rfl]
      simp
    · by_cases h : a + 1 ≤ b ∧ b < a + 1 + r.length
      · have h' : a ≤ b ∧ b < a + (x :: r).length := by simp only [List.length_cons]; omega
        obtain ⟨d, rfl⟩ : ∃ d, b = a + 1 + d := ⟨b - (a + 1), by omega⟩
        rw [if_pos h, if_pos h']
        have e1 : a + 1 + d - (a + 1) = d := by omega
        have e2 : a + 1 + d - a = d + 1 := by omega
        rw [e1, e2]; rfl
      · have h' : ¬ (a ≤ b ∧ b < a + (x :: r).length) := by simp only [List.length_cons]; omega
        rw [if_neg h, if_neg h', if_neg hb]

theorem Memory.read_writeAll_of_not_mem {m : Memory} (l : List (Nat × Byte)) (b : Nat) (hw : m.wf = true)
    (h : ∀ p ∈ l, p.1 ≠ b) : (m.writeAll l).read b = m.read b := by
  induction l generalizing m with
  | nil => rfl
  | cons p r ih =>
    have := ih (Memory.wf_write p.1 p.2 hw) fun q hq => h q (List.mem_cons_of_mem _ hq)
    simp only [Memory.writeAll, List.foldl_cons] at this ⊢
    rw [this, Memory.read_write _ _ _ hw, if_neg (Ne.symm (h p List.mem_cons_self))]

theorem Memory.wfFrom_filter {m : Memory} {lo : Nat} (f : Nat × Byte → Bool) (hw : Memory.wfFrom lo m = true) :
    Memory.wfFrom lo (m.filter f) = true := by
  induction m generalizing lo with
  | nil => rfl
  | cons p r ih =>
    simp only [Memory.wfFrom, Bool.and_eq_true, decide_eq_true_eq] at hw
    simp only [List.filter_cons]
    split
    · simp only [Memory.wfFrom, Bool.and_eq_true, decide_eq_true_eq]; exact ⟨hw.1, ih hw.2⟩
    · exact Memory.wfFrom_le (by omega) (ih hw.2)

/-- Taking entries out keeps the canonical form. -/
theorem Memory.wf_filter {m : Memory} (f : Nat × Byte → Bool) (hw : m.wf = true) : Memory.wf (m.filter f) = true :=
  Memory.wfFrom_filter f hw

theorem Memory.eq_of_read {m n : Memory} {lo : Nat} (hm : Memory.wfFrom lo m = true) (hn : Memory.wfFrom lo n = true)
    (h : ∀ a, m.read a = n.read a) : m = n := by
  induction m generalizing n lo with
  | nil =>
    cases n with
    | nil => rfl
    | cons q r =>
      simp only [Memory.wfFrom, Bool.and_eq_true, bne_iff_ne, ne_eq] at hn
      have := h q.1
      simp only [Memory.read, ite_true] at this
      exact absurd this.symm hn.1.2
  | cons p r ih =>
    cases n with
    | nil =>
      simp only [Memory.wfFrom, Bool.and_eq_true, bne_iff_ne, ne_eq] at hm
      have := h p.1
      simp only [Memory.read, ite_true] at this
      exact absurd this hm.1.2
    | cons q t =>
      simp only [Memory.wfFrom, Bool.and_eq_true, bne_iff_ne, ne_eq, decide_eq_true_eq] at hm hn
      have hk : p.1 = q.1 := by
        rcases Nat.lt_trichotomy p.1 q.1 with hlt | he | hlt
        · have h1 := h p.1
          have : Memory.read (q :: t) p.1 = 0 := by
            have hne : q.1 ≠ p.1 := by omega
            simp only [Memory.read, if_neg hne]; exact Memory.read_below hn.2 (by omega)
          rw [this] at h1
          simp only [Memory.read, ite_true] at h1
          exact absurd h1 hm.1.2
        · exact he
        · have h1 := h q.1
          have : Memory.read (p :: r) q.1 = 0 := by
            have hne : p.1 ≠ q.1 := by omega
            simp only [Memory.read, if_neg hne]; exact Memory.read_below hm.2 (by omega)
          rw [this] at h1
          simp only [Memory.read, ite_true] at h1
          exact absurd h1.symm hn.1.2
      have hv : p.2 = q.2 := by
        have := h p.1
        simpa [Memory.read, hk] using this
      have hr : r = t := by
        refine ih (lo := p.1 + 1) hm.2 (hk ▸ hn.2) fun a => ?_
        by_cases ha : a ≤ p.1
        · rw [Memory.read_below hm.2 (by omega), Memory.read_below hn.2 (by omega)]
        · have := h a
          have hp : p.1 ≠ a := by omega
          have hq : q.1 ≠ a := by omega
          simpa [Memory.read, hp, hq] using this
      rw [hr, Prod.ext hk hv]

/-- Two canonical memories that read alike are the same data. -/
theorem Memory.ext_read {m n : Memory} (hm : m.wf = true) (hn : n.wf = true) (h : ∀ a, m.read a = n.read a) : m = n :=
  Memory.eq_of_read hm hn h

@[simp] theorem Memory.readBytes_length (m : Memory) (a n : Nat) : (m.readBytes a n).length = n := by
  induction n generalizing a with
  | zero => rfl
  | succ n ih => simp [Memory.readBytes, ih]

/-- The bytes read are those at the addresses that follow. -/
theorem Memory.readBytes_getD (m : Memory) (a n i : Nat) (h : i < n) : (m.readBytes a n).getD i 0 = m.read (a + i) := by
  induction n generalizing a i with
  | zero => omega
  | succ n ih =>
    cases i with
    | zero => rfl
    | succ i =>
      have := ih (a + 1) i (by omega)
      rw [show a + 1 + i = a + (i + 1) by omega] at this
      simpa [Memory.readBytes] using this

/-! ## Bytes and numbers -/

@[simp] theorem bytesOfNat_length (n v : Nat) : (bytesOfNat n v).length = n := by
  induction n generalizing v with
  | zero => rfl
  | succ n ih => simp [bytesOfNat, ih]

/-- Little-endian bytes give the number back, modulo their width. -/
theorem natOfBytes_bytesOfNat (n v : Nat) : natOfBytes (bytesOfNat n v) = v % 256 ^ n := by
  induction n generalizing v with
  | zero => simp [bytesOfNat, natOfBytes, Nat.mod_one]
  | succ n ih =>
    have e : (BitVec.ofNat 8 v).toNat = v % 256 := by simp
    rw [bytesOfNat, natOfBytes, ih, e, Nat.pow_succ, Nat.mul_comm (256 ^ n), Nat.mod_mul]

end Sys2Proof.Machine
end

