-- ==== Sys2Proof/Laws/State.lean ====
section
/-!
SUPPORT. What each update of the state leaves alone: one lemma for each field and each update, all true by computation.
-/
namespace Sys2Proof.Machine

/-! ## A core changed -/

@[simp] theorem State.modCore_time (s : State) (k : Nat) (f : Core → Core) : (s.modCore k f).time = s.time := rfl
@[simp] theorem State.modCore_skew (s : State) (k : Nat) (f : Core → Core) : (s.modCore k f).skew = s.skew := rfl
@[simp] theorem State.modCore_service (s : State) (k : Nat) (f : Core → Core) : (s.modCore k f).service = s.service := rfl
@[simp] theorem State.modCore_coreMap (s : State) (k : Nat) (f : Core → Core) : (s.modCore k f).coreMap = s.coreMap := rfl
@[simp] theorem State.modCore_sliceMap (s : State) (k : Nat) (f : Core → Core) : (s.modCore k f).sliceMap = s.sliceMap := rfl
@[simp] theorem State.modCore_suspects (s : State) (k : Nat) (f : Core → Core) : (s.modCore k f).suspects = s.suspects := rfl
@[simp] theorem State.modCore_startFailed (s : State) (k : Nat) (f : Core → Core) : (s.modCore k f).startFailed = s.startFailed := rfl
@[simp] theorem State.modCore_defects (s : State) (k : Nat) (f : Core → Core) : (s.modCore k f).defects = s.defects := rfl
@[simp] theorem State.modCore_firmwareOk (s : State) (k : Nat) (f : Core → Core) : (s.modCore k f).firmwareOk = s.firmwareOk := rfl
@[simp] theorem State.modCore_replacedRows (s : State) (k : Nat) (f : Core → Core) : (s.modCore k f).replacedRows = s.replacedRows := rfl
@[simp] theorem State.modCore_dramSpares (s : State) (k : Nat) (f : Core → Core) : (s.modCore k f).dramSpares = s.dramSpares := rfl
@[simp] theorem State.modCore_retrained (s : State) (k : Nat) (f : Core → Core) : (s.modCore k f).retrained = s.retrained := rfl
@[simp] theorem State.modCore_throttled (s : State) (k : Nat) (f : Core → Core) : (s.modCore k f).throttled = s.throttled := rfl
@[simp] theorem State.modCore_withhold (s : State) (k : Nat) (f : Core → Core) : (s.modCore k f).withhold = s.withhold := rfl
@[simp] theorem State.modCore_dies (s : State) (k : Nat) (f : Core → Core) : (s.modCore k f).dies = s.dies := rfl
@[simp] theorem State.modCore_dram (s : State) (k : Nat) (f : Core → Core) : (s.modCore k f).dram = s.dram := rfl
@[simp] theorem State.modCore_host (s : State) (k : Nat) (f : Core → Core) : (s.modCore k f).host = s.host := rfl
@[simp] theorem State.modCore_devNumber (s : State) (k : Nat) (f : Core → Core) : (s.modCore k f).devNumber = s.devNumber := rfl
@[simp] theorem State.modCore_slices (s : State) (k : Nat) (f : Core → Core) : (s.modCore k f).slices = s.slices := rfl
@[simp] theorem State.modCore_vfs (s : State) (k : Nat) (f : Core → Core) : (s.modCore k f).vfs = s.vfs := rfl
@[simp] theorem State.modCore_grids (s : State) (k : Nat) (f : Core → Core) : (s.modCore k f).grids = s.grids := rfl
@[simp] theorem State.modCore_graphs (s : State) (k : Nat) (f : Core → Core) : (s.modCore k f).graphs = s.graphs := rfl
@[simp] theorem State.modCore_reqs (s : State) (k : Nat) (f : Core → Core) : (s.modCore k f).reqs = s.reqs := rfl
@[simp] theorem State.modCore_msgs (s : State) (k : Nat) (f : Core → Core) : (s.modCore k f).msgs = s.msgs := rfl
@[simp] theorem State.modCore_replicaMsgs (s : State) (k : Nat) (f : Core → Core) : (s.modCore k f).replicaMsgs = s.replicaMsgs := rfl
@[simp] theorem State.modCore_flaws (s : State) (k : Nat) (f : Core → Core) : (s.modCore k f).flaws = s.flaws := rfl
@[simp] theorem State.modCore_channelErrors (s : State) (k : Nat) (f : Core → Core) : (s.modCore k f).channelErrors = s.channelErrors := rfl
@[simp] theorem State.modCore_sliceErrors (s : State) (k : Nat) (f : Core → Core) : (s.modCore k f).sliceErrors = s.sliceErrors := rfl
@[simp] theorem State.modCore_signals (s : State) (k : Nat) (f : Core → Core) : (s.modCore k f).signals = s.signals := rfl
@[simp] theorem State.modCore_invals (s : State) (k : Nat) (f : Core → Core) : (s.modCore k f).invals = s.invals := rfl
@[simp] theorem State.modCore_grants (s : State) (k : Nat) (f : Core → Core) : (s.modCore k f).grants = s.grants := rfl
@[simp] theorem State.modCore_routes (s : State) (k : Nat) (f : Core → Core) : (s.modCore k f).routes = s.routes := rfl
@[simp] theorem State.modCore_pfEvents (s : State) (k : Nat) (f : Core → Core) : (s.modCore k f).pfEvents = s.pfEvents := rfl
@[simp] theorem State.modCore_pfCommands (s : State) (k : Nat) (f : Core → Core) : (s.modCore k f).pfCommands = s.pfCommands := rfl
@[simp] theorem State.modCore_quanta (s : State) (k : Nat) (f : Core → Core) : (s.modCore k f).quanta = s.quanta := rfl
@[simp] theorem State.modCore_statuses (s : State) (k : Nat) (f : Core → Core) : (s.modCore k f).statuses = s.statuses := rfl
@[simp] theorem State.modCore_fresh (s : State) (k : Nat) (f : Core → Core) : (s.modCore k f).fresh = s.fresh := rfl
@[simp] theorem State.modCore_nextId (s : State) (k : Nat) (f : Core → Core) : (s.modCore k f).nextId = s.nextId := rfl
@[simp] theorem State.modCore_agenda (s : State) (k : Nat) (f : Core → Core) : (s.modCore k f).agenda = s.agenda := rfl
@[simp] theorem State.modCore_focus (s : State) (k : Nat) (f : Core → Core) : (s.modCore k f).focus = s.focus := rfl

/-! ## A slice changed -/

@[simp] theorem State.modSlice_time (s : State) (n : Nat) (f : Slice → Slice) : (s.modSlice n f).time = s.time := rfl
@[simp] theorem State.modSlice_skew (s : State) (n : Nat) (f : Slice → Slice) : (s.modSlice n f).skew = s.skew := rfl
@[simp] theorem State.modSlice_service (s : State) (n : Nat) (f : Slice → Slice) : (s.modSlice n f).service = s.service := rfl
@[simp] theorem State.modSlice_coreMap (s : State) (n : Nat) (f : Slice → Slice) : (s.modSlice n f).coreMap = s.coreMap := rfl
@[simp] theorem State.modSlice_sliceMap (s : State) (n : Nat) (f : Slice → Slice) : (s.modSlice n f).sliceMap = s.sliceMap := rfl
@[simp] theorem State.modSlice_suspects (s : State) (n : Nat) (f : Slice → Slice) : (s.modSlice n f).suspects = s.suspects := rfl
@[simp] theorem State.modSlice_startFailed (s : State) (n : Nat) (f : Slice → Slice) : (s.modSlice n f).startFailed = s.startFailed := rfl
@[simp] theorem State.modSlice_defects (s : State) (n : Nat) (f : Slice → Slice) : (s.modSlice n f).defects = s.defects := rfl
@[simp] theorem State.modSlice_firmwareOk (s : State) (n : Nat) (f : Slice → Slice) : (s.modSlice n f).firmwareOk = s.firmwareOk := rfl
@[simp] theorem State.modSlice_replacedRows (s : State) (n : Nat) (f : Slice → Slice) : (s.modSlice n f).replacedRows = s.replacedRows := rfl
@[simp] theorem State.modSlice_dramSpares (s : State) (n : Nat) (f : Slice → Slice) : (s.modSlice n f).dramSpares = s.dramSpares := rfl
@[simp] theorem State.modSlice_retrained (s : State) (n : Nat) (f : Slice → Slice) : (s.modSlice n f).retrained = s.retrained := rfl
@[simp] theorem State.modSlice_throttled (s : State) (n : Nat) (f : Slice → Slice) : (s.modSlice n f).throttled = s.throttled := rfl
@[simp] theorem State.modSlice_withhold (s : State) (n : Nat) (f : Slice → Slice) : (s.modSlice n f).withhold = s.withhold := rfl
@[simp] theorem State.modSlice_dies (s : State) (n : Nat) (f : Slice → Slice) : (s.modSlice n f).dies = s.dies := rfl
@[simp] theorem State.modSlice_dram (s : State) (n : Nat) (f : Slice → Slice) : (s.modSlice n f).dram = s.dram := rfl
@[simp] theorem State.modSlice_host (s : State) (n : Nat) (f : Slice → Slice) : (s.modSlice n f).host = s.host := rfl
@[simp] theorem State.modSlice_devNumber (s : State) (n : Nat) (f : Slice → Slice) : (s.modSlice n f).devNumber = s.devNumber := rfl
@[simp] theorem State.modSlice_cores (s : State) (n : Nat) (f : Slice → Slice) : (s.modSlice n f).cores = s.cores := rfl
@[simp] theorem State.modSlice_vfs (s : State) (n : Nat) (f : Slice → Slice) : (s.modSlice n f).vfs = s.vfs := rfl
@[simp] theorem State.modSlice_grids (s : State) (n : Nat) (f : Slice → Slice) : (s.modSlice n f).grids = s.grids := rfl
@[simp] theorem State.modSlice_graphs (s : State) (n : Nat) (f : Slice → Slice) : (s.modSlice n f).graphs = s.graphs := rfl
@[simp] theorem State.modSlice_reqs (s : State) (n : Nat) (f : Slice → Slice) : (s.modSlice n f).reqs = s.reqs := rfl
@[simp] theorem State.modSlice_msgs (s : State) (n : Nat) (f : Slice → Slice) : (s.modSlice n f).msgs = s.msgs := rfl
@[simp] theorem State.modSlice_replicaMsgs (s : State) (n : Nat) (f : Slice → Slice) : (s.modSlice n f).replicaMsgs = s.replicaMsgs := rfl
@[simp] theorem State.modSlice_flaws (s : State) (n : Nat) (f : Slice → Slice) : (s.modSlice n f).flaws = s.flaws := rfl
@[simp] theorem State.modSlice_channelErrors (s : State) (n : Nat) (f : Slice → Slice) : (s.modSlice n f).channelErrors = s.channelErrors := rfl
@[simp] theorem State.modSlice_sliceErrors (s : State) (n : Nat) (f : Slice → Slice) : (s.modSlice n f).sliceErrors = s.sliceErrors := rfl
@[simp] theorem State.modSlice_signals (s : State) (n : Nat) (f : Slice → Slice) : (s.modSlice n f).signals = s.signals := rfl
@[simp] theorem State.modSlice_invals (s : State) (n : Nat) (f : Slice → Slice) : (s.modSlice n f).invals = s.invals := rfl
@[simp] theorem State.modSlice_grants (s : State) (n : Nat) (f : Slice → Slice) : (s.modSlice n f).grants = s.grants := rfl
@[simp] theorem State.modSlice_routes (s : State) (n : Nat) (f : Slice → Slice) : (s.modSlice n f).routes = s.routes := rfl
@[simp] theorem State.modSlice_pfEvents (s : State) (n : Nat) (f : Slice → Slice) : (s.modSlice n f).pfEvents = s.pfEvents := rfl
@[simp] theorem State.modSlice_pfCommands (s : State) (n : Nat) (f : Slice → Slice) : (s.modSlice n f).pfCommands = s.pfCommands := rfl
@[simp] theorem State.modSlice_quanta (s : State) (n : Nat) (f : Slice → Slice) : (s.modSlice n f).quanta = s.quanta := rfl
@[simp] theorem State.modSlice_statuses (s : State) (n : Nat) (f : Slice → Slice) : (s.modSlice n f).statuses = s.statuses := rfl
@[simp] theorem State.modSlice_fresh (s : State) (n : Nat) (f : Slice → Slice) : (s.modSlice n f).fresh = s.fresh := rfl
@[simp] theorem State.modSlice_nextId (s : State) (n : Nat) (f : Slice → Slice) : (s.modSlice n f).nextId = s.nextId := rfl
@[simp] theorem State.modSlice_agenda (s : State) (n : Nat) (f : Slice → Slice) : (s.modSlice n f).agenda = s.agenda := rfl
@[simp] theorem State.modSlice_focus (s : State) (n : Nat) (f : Slice → Slice) : (s.modSlice n f).focus = s.focus := rfl

/-! ## A team changed -/

@[simp] theorem State.modTeam_time (s : State) (k n : Nat) (f : Team → Team) : (s.modTeam k n f).time = s.time := rfl
@[simp] theorem State.modTeam_skew (s : State) (k n : Nat) (f : Team → Team) : (s.modTeam k n f).skew = s.skew := rfl
@[simp] theorem State.modTeam_service (s : State) (k n : Nat) (f : Team → Team) : (s.modTeam k n f).service = s.service := rfl
@[simp] theorem State.modTeam_coreMap (s : State) (k n : Nat) (f : Team → Team) : (s.modTeam k n f).coreMap = s.coreMap := rfl
@[simp] theorem State.modTeam_sliceMap (s : State) (k n : Nat) (f : Team → Team) : (s.modTeam k n f).sliceMap = s.sliceMap := rfl
@[simp] theorem State.modTeam_suspects (s : State) (k n : Nat) (f : Team → Team) : (s.modTeam k n f).suspects = s.suspects := rfl
@[simp] theorem State.modTeam_startFailed (s : State) (k n : Nat) (f : Team → Team) : (s.modTeam k n f).startFailed = s.startFailed := rfl
@[simp] theorem State.modTeam_defects (s : State) (k n : Nat) (f : Team → Team) : (s.modTeam k n f).defects = s.defects := rfl
@[simp] theorem State.modTeam_firmwareOk (s : State) (k n : Nat) (f : Team → Team) : (s.modTeam k n f).firmwareOk = s.firmwareOk := rfl
@[simp] theorem State.modTeam_replacedRows (s : State) (k n : Nat) (f : Team → Team) : (s.modTeam k n f).replacedRows = s.replacedRows := rfl
@[simp] theorem State.modTeam_dramSpares (s : State) (k n : Nat) (f : Team → Team) : (s.modTeam k n f).dramSpares = s.dramSpares := rfl
@[simp] theorem State.modTeam_retrained (s : State) (k n : Nat) (f : Team → Team) : (s.modTeam k n f).retrained = s.retrained := rfl
@[simp] theorem State.modTeam_throttled (s : State) (k n : Nat) (f : Team → Team) : (s.modTeam k n f).throttled = s.throttled := rfl
@[simp] theorem State.modTeam_withhold (s : State) (k n : Nat) (f : Team → Team) : (s.modTeam k n f).withhold = s.withhold := rfl
@[simp] theorem State.modTeam_dies (s : State) (k n : Nat) (f : Team → Team) : (s.modTeam k n f).dies = s.dies := rfl
@[simp] theorem State.modTeam_dram (s : State) (k n : Nat) (f : Team → Team) : (s.modTeam k n f).dram = s.dram := rfl
@[simp] theorem State.modTeam_host (s : State) (k n : Nat) (f : Team → Team) : (s.modTeam k n f).host = s.host := rfl
@[simp] theorem State.modTeam_devNumber (s : State) (k n : Nat) (f : Team → Team) : (s.modTeam k n f).devNumber = s.devNumber := rfl
@[simp] theorem State.modTeam_slices (s : State) (k n : Nat) (f : Team → Team) : (s.modTeam k n f).slices = s.slices := rfl
@[simp] theorem State.modTeam_vfs (s : State) (k n : Nat) (f : Team → Team) : (s.modTeam k n f).vfs = s.vfs := rfl
@[simp] theorem State.modTeam_grids (s : State) (k n : Nat) (f : Team → Team) : (s.modTeam k n f).grids = s.grids := rfl
@[simp] theorem State.modTeam_graphs (s : State) (k n : Nat) (f : Team → Team) : (s.modTeam k n f).graphs = s.graphs := rfl
@[simp] theorem State.modTeam_reqs (s : State) (k n : Nat) (f : Team → Team) : (s.modTeam k n f).reqs = s.reqs := rfl
@[simp] theorem State.modTeam_msgs (s : State) (k n : Nat) (f : Team → Team) : (s.modTeam k n f).msgs = s.msgs := rfl
@[simp] theorem State.modTeam_replicaMsgs (s : State) (k n : Nat) (f : Team → Team) : (s.modTeam k n f).replicaMsgs = s.replicaMsgs := rfl
@[simp] theorem State.modTeam_flaws (s : State) (k n : Nat) (f : Team → Team) : (s.modTeam k n f).flaws = s.flaws := rfl
@[simp] theorem State.modTeam_channelErrors (s : State) (k n : Nat) (f : Team → Team) : (s.modTeam k n f).channelErrors = s.channelErrors := rfl
@[simp] theorem State.modTeam_sliceErrors (s : State) (k n : Nat) (f : Team → Team) : (s.modTeam k n f).sliceErrors = s.sliceErrors := rfl
@[simp] theorem State.modTeam_signals (s : State) (k n : Nat) (f : Team → Team) : (s.modTeam k n f).signals = s.signals := rfl
@[simp] theorem State.modTeam_invals (s : State) (k n : Nat) (f : Team → Team) : (s.modTeam k n f).invals = s.invals := rfl
@[simp] theorem State.modTeam_grants (s : State) (k n : Nat) (f : Team → Team) : (s.modTeam k n f).grants = s.grants := rfl
@[simp] theorem State.modTeam_routes (s : State) (k n : Nat) (f : Team → Team) : (s.modTeam k n f).routes = s.routes := rfl
@[simp] theorem State.modTeam_pfEvents (s : State) (k n : Nat) (f : Team → Team) : (s.modTeam k n f).pfEvents = s.pfEvents := rfl
@[simp] theorem State.modTeam_pfCommands (s : State) (k n : Nat) (f : Team → Team) : (s.modTeam k n f).pfCommands = s.pfCommands := rfl
@[simp] theorem State.modTeam_quanta (s : State) (k n : Nat) (f : Team → Team) : (s.modTeam k n f).quanta = s.quanta := rfl
@[simp] theorem State.modTeam_statuses (s : State) (k n : Nat) (f : Team → Team) : (s.modTeam k n f).statuses = s.statuses := rfl
@[simp] theorem State.modTeam_fresh (s : State) (k n : Nat) (f : Team → Team) : (s.modTeam k n f).fresh = s.fresh := rfl
@[simp] theorem State.modTeam_nextId (s : State) (k n : Nat) (f : Team → Team) : (s.modTeam k n f).nextId = s.nextId := rfl
@[simp] theorem State.modTeam_agenda (s : State) (k n : Nat) (f : Team → Team) : (s.modTeam k n f).agenda = s.agenda := rfl
@[simp] theorem State.modTeam_focus (s : State) (k n : Nat) (f : Team → Team) : (s.modTeam k n f).focus = s.focus := rfl

/-! ## A group changed -/

@[simp] theorem State.modGroup_time (s : State) (r : SplitRef) (f : Group → Group) : (s.modGroup r f).time = s.time := rfl
@[simp] theorem State.modGroup_skew (s : State) (r : SplitRef) (f : Group → Group) : (s.modGroup r f).skew = s.skew := rfl
@[simp] theorem State.modGroup_service (s : State) (r : SplitRef) (f : Group → Group) : (s.modGroup r f).service = s.service := rfl
@[simp] theorem State.modGroup_coreMap (s : State) (r : SplitRef) (f : Group → Group) : (s.modGroup r f).coreMap = s.coreMap := rfl
@[simp] theorem State.modGroup_sliceMap (s : State) (r : SplitRef) (f : Group → Group) : (s.modGroup r f).sliceMap = s.sliceMap := rfl
@[simp] theorem State.modGroup_suspects (s : State) (r : SplitRef) (f : Group → Group) : (s.modGroup r f).suspects = s.suspects := rfl
@[simp] theorem State.modGroup_startFailed (s : State) (r : SplitRef) (f : Group → Group) : (s.modGroup r f).startFailed = s.startFailed := rfl
@[simp] theorem State.modGroup_defects (s : State) (r : SplitRef) (f : Group → Group) : (s.modGroup r f).defects = s.defects := rfl
@[simp] theorem State.modGroup_firmwareOk (s : State) (r : SplitRef) (f : Group → Group) : (s.modGroup r f).firmwareOk = s.firmwareOk := rfl
@[simp] theorem State.modGroup_replacedRows (s : State) (r : SplitRef) (f : Group → Group) : (s.modGroup r f).replacedRows = s.replacedRows := rfl
@[simp] theorem State.modGroup_dramSpares (s : State) (r : SplitRef) (f : Group → Group) : (s.modGroup r f).dramSpares = s.dramSpares := rfl
@[simp] theorem State.modGroup_retrained (s : State) (r : SplitRef) (f : Group → Group) : (s.modGroup r f).retrained = s.retrained := rfl
@[simp] theorem State.modGroup_throttled (s : State) (r : SplitRef) (f : Group → Group) : (s.modGroup r f).throttled = s.throttled := rfl
@[simp] theorem State.modGroup_withhold (s : State) (r : SplitRef) (f : Group → Group) : (s.modGroup r f).withhold = s.withhold := rfl
@[simp] theorem State.modGroup_dies (s : State) (r : SplitRef) (f : Group → Group) : (s.modGroup r f).dies = s.dies := rfl
@[simp] theorem State.modGroup_dram (s : State) (r : SplitRef) (f : Group → Group) : (s.modGroup r f).dram = s.dram := rfl
@[simp] theorem State.modGroup_host (s : State) (r : SplitRef) (f : Group → Group) : (s.modGroup r f).host = s.host := rfl
@[simp] theorem State.modGroup_devNumber (s : State) (r : SplitRef) (f : Group → Group) : (s.modGroup r f).devNumber = s.devNumber := rfl
@[simp] theorem State.modGroup_slices (s : State) (r : SplitRef) (f : Group → Group) : (s.modGroup r f).slices = s.slices := rfl
@[simp] theorem State.modGroup_vfs (s : State) (r : SplitRef) (f : Group → Group) : (s.modGroup r f).vfs = s.vfs := rfl
@[simp] theorem State.modGroup_grids (s : State) (r : SplitRef) (f : Group → Group) : (s.modGroup r f).grids = s.grids := rfl
@[simp] theorem State.modGroup_graphs (s : State) (r : SplitRef) (f : Group → Group) : (s.modGroup r f).graphs = s.graphs := rfl
@[simp] theorem State.modGroup_reqs (s : State) (r : SplitRef) (f : Group → Group) : (s.modGroup r f).reqs = s.reqs := rfl
@[simp] theorem State.modGroup_msgs (s : State) (r : SplitRef) (f : Group → Group) : (s.modGroup r f).msgs = s.msgs := rfl
@[simp] theorem State.modGroup_replicaMsgs (s : State) (r : SplitRef) (f : Group → Group) : (s.modGroup r f).replicaMsgs = s.replicaMsgs := rfl
@[simp] theorem State.modGroup_flaws (s : State) (r : SplitRef) (f : Group → Group) : (s.modGroup r f).flaws = s.flaws := rfl
@[simp] theorem State.modGroup_channelErrors (s : State) (r : SplitRef) (f : Group → Group) : (s.modGroup r f).channelErrors = s.channelErrors := rfl
@[simp] theorem State.modGroup_sliceErrors (s : State) (r : SplitRef) (f : Group → Group) : (s.modGroup r f).sliceErrors = s.sliceErrors := rfl
@[simp] theorem State.modGroup_signals (s : State) (r : SplitRef) (f : Group → Group) : (s.modGroup r f).signals = s.signals := rfl
@[simp] theorem State.modGroup_invals (s : State) (r : SplitRef) (f : Group → Group) : (s.modGroup r f).invals = s.invals := rfl
@[simp] theorem State.modGroup_grants (s : State) (r : SplitRef) (f : Group → Group) : (s.modGroup r f).grants = s.grants := rfl
@[simp] theorem State.modGroup_routes (s : State) (r : SplitRef) (f : Group → Group) : (s.modGroup r f).routes = s.routes := rfl
@[simp] theorem State.modGroup_pfEvents (s : State) (r : SplitRef) (f : Group → Group) : (s.modGroup r f).pfEvents = s.pfEvents := rfl
@[simp] theorem State.modGroup_pfCommands (s : State) (r : SplitRef) (f : Group → Group) : (s.modGroup r f).pfCommands = s.pfCommands := rfl
@[simp] theorem State.modGroup_quanta (s : State) (r : SplitRef) (f : Group → Group) : (s.modGroup r f).quanta = s.quanta := rfl
@[simp] theorem State.modGroup_statuses (s : State) (r : SplitRef) (f : Group → Group) : (s.modGroup r f).statuses = s.statuses := rfl
@[simp] theorem State.modGroup_fresh (s : State) (r : SplitRef) (f : Group → Group) : (s.modGroup r f).fresh = s.fresh := rfl
@[simp] theorem State.modGroup_nextId (s : State) (r : SplitRef) (f : Group → Group) : (s.modGroup r f).nextId = s.nextId := rfl
@[simp] theorem State.modGroup_agenda (s : State) (r : SplitRef) (f : Group → Group) : (s.modGroup r f).agenda = s.agenda := rfl
@[simp] theorem State.modGroup_focus (s : State) (r : SplitRef) (f : Group → Group) : (s.modGroup r f).focus = s.focus := rfl

/-! ## A split changed -/

@[simp] theorem State.modSplit_time (s : State) (r : SplitRef) (f : Split → Split) : (s.modSplit r f).time = s.time := rfl
@[simp] theorem State.modSplit_skew (s : State) (r : SplitRef) (f : Split → Split) : (s.modSplit r f).skew = s.skew := rfl
@[simp] theorem State.modSplit_service (s : State) (r : SplitRef) (f : Split → Split) : (s.modSplit r f).service = s.service := rfl
@[simp] theorem State.modSplit_coreMap (s : State) (r : SplitRef) (f : Split → Split) : (s.modSplit r f).coreMap = s.coreMap := rfl
@[simp] theorem State.modSplit_sliceMap (s : State) (r : SplitRef) (f : Split → Split) : (s.modSplit r f).sliceMap = s.sliceMap := rfl
@[simp] theorem State.modSplit_suspects (s : State) (r : SplitRef) (f : Split → Split) : (s.modSplit r f).suspects = s.suspects := rfl
@[simp] theorem State.modSplit_startFailed (s : State) (r : SplitRef) (f : Split → Split) : (s.modSplit r f).startFailed = s.startFailed := rfl
@[simp] theorem State.modSplit_defects (s : State) (r : SplitRef) (f : Split → Split) : (s.modSplit r f).defects = s.defects := rfl
@[simp] theorem State.modSplit_firmwareOk (s : State) (r : SplitRef) (f : Split → Split) : (s.modSplit r f).firmwareOk = s.firmwareOk := rfl
@[simp] theorem State.modSplit_replacedRows (s : State) (r : SplitRef) (f : Split → Split) : (s.modSplit r f).replacedRows = s.replacedRows := rfl
@[simp] theorem State.modSplit_dramSpares (s : State) (r : SplitRef) (f : Split → Split) : (s.modSplit r f).dramSpares = s.dramSpares := rfl
@[simp] theorem State.modSplit_retrained (s : State) (r : SplitRef) (f : Split → Split) : (s.modSplit r f).retrained = s.retrained := rfl
@[simp] theorem State.modSplit_throttled (s : State) (r : SplitRef) (f : Split → Split) : (s.modSplit r f).throttled = s.throttled := rfl
@[simp] theorem State.modSplit_withhold (s : State) (r : SplitRef) (f : Split → Split) : (s.modSplit r f).withhold = s.withhold := rfl
@[simp] theorem State.modSplit_dies (s : State) (r : SplitRef) (f : Split → Split) : (s.modSplit r f).dies = s.dies := rfl
@[simp] theorem State.modSplit_dram (s : State) (r : SplitRef) (f : Split → Split) : (s.modSplit r f).dram = s.dram := rfl
@[simp] theorem State.modSplit_host (s : State) (r : SplitRef) (f : Split → Split) : (s.modSplit r f).host = s.host := rfl
@[simp] theorem State.modSplit_devNumber (s : State) (r : SplitRef) (f : Split → Split) : (s.modSplit r f).devNumber = s.devNumber := rfl
@[simp] theorem State.modSplit_slices (s : State) (r : SplitRef) (f : Split → Split) : (s.modSplit r f).slices = s.slices := rfl
@[simp] theorem State.modSplit_vfs (s : State) (r : SplitRef) (f : Split → Split) : (s.modSplit r f).vfs = s.vfs := rfl
@[simp] theorem State.modSplit_grids (s : State) (r : SplitRef) (f : Split → Split) : (s.modSplit r f).grids = s.grids := rfl
@[simp] theorem State.modSplit_graphs (s : State) (r : SplitRef) (f : Split → Split) : (s.modSplit r f).graphs = s.graphs := rfl
@[simp] theorem State.modSplit_reqs (s : State) (r : SplitRef) (f : Split → Split) : (s.modSplit r f).reqs = s.reqs := rfl
@[simp] theorem State.modSplit_msgs (s : State) (r : SplitRef) (f : Split → Split) : (s.modSplit r f).msgs = s.msgs := rfl
@[simp] theorem State.modSplit_replicaMsgs (s : State) (r : SplitRef) (f : Split → Split) : (s.modSplit r f).replicaMsgs = s.replicaMsgs := rfl
@[simp] theorem State.modSplit_flaws (s : State) (r : SplitRef) (f : Split → Split) : (s.modSplit r f).flaws = s.flaws := rfl
@[simp] theorem State.modSplit_channelErrors (s : State) (r : SplitRef) (f : Split → Split) : (s.modSplit r f).channelErrors = s.channelErrors := rfl
@[simp] theorem State.modSplit_sliceErrors (s : State) (r : SplitRef) (f : Split → Split) : (s.modSplit r f).sliceErrors = s.sliceErrors := rfl
@[simp] theorem State.modSplit_signals (s : State) (r : SplitRef) (f : Split → Split) : (s.modSplit r f).signals = s.signals := rfl
@[simp] theorem State.modSplit_invals (s : State) (r : SplitRef) (f : Split → Split) : (s.modSplit r f).invals = s.invals := rfl
@[simp] theorem State.modSplit_grants (s : State) (r : SplitRef) (f : Split → Split) : (s.modSplit r f).grants = s.grants := rfl
@[simp] theorem State.modSplit_routes (s : State) (r : SplitRef) (f : Split → Split) : (s.modSplit r f).routes = s.routes := rfl
@[simp] theorem State.modSplit_pfEvents (s : State) (r : SplitRef) (f : Split → Split) : (s.modSplit r f).pfEvents = s.pfEvents := rfl
@[simp] theorem State.modSplit_pfCommands (s : State) (r : SplitRef) (f : Split → Split) : (s.modSplit r f).pfCommands = s.pfCommands := rfl
@[simp] theorem State.modSplit_quanta (s : State) (r : SplitRef) (f : Split → Split) : (s.modSplit r f).quanta = s.quanta := rfl
@[simp] theorem State.modSplit_statuses (s : State) (r : SplitRef) (f : Split → Split) : (s.modSplit r f).statuses = s.statuses := rfl
@[simp] theorem State.modSplit_fresh (s : State) (r : SplitRef) (f : Split → Split) : (s.modSplit r f).fresh = s.fresh := rfl
@[simp] theorem State.modSplit_nextId (s : State) (r : SplitRef) (f : Split → Split) : (s.modSplit r f).nextId = s.nextId := rfl
@[simp] theorem State.modSplit_agenda (s : State) (r : SplitRef) (f : Split → Split) : (s.modSplit r f).agenda = s.agenda := rfl
@[simp] theorem State.modSplit_focus (s : State) (r : SplitRef) (f : Split → Split) : (s.modSplit r f).focus = s.focus := rfl

/-! ## A virtual function changed -/

@[simp] theorem State.modVf_time (s : State) (v : Nat) (f : Vf → Vf) : (s.modVf v f).time = s.time := rfl
@[simp] theorem State.modVf_skew (s : State) (v : Nat) (f : Vf → Vf) : (s.modVf v f).skew = s.skew := rfl
@[simp] theorem State.modVf_service (s : State) (v : Nat) (f : Vf → Vf) : (s.modVf v f).service = s.service := rfl
@[simp] theorem State.modVf_coreMap (s : State) (v : Nat) (f : Vf → Vf) : (s.modVf v f).coreMap = s.coreMap := rfl
@[simp] theorem State.modVf_sliceMap (s : State) (v : Nat) (f : Vf → Vf) : (s.modVf v f).sliceMap = s.sliceMap := rfl
@[simp] theorem State.modVf_suspects (s : State) (v : Nat) (f : Vf → Vf) : (s.modVf v f).suspects = s.suspects := rfl
@[simp] theorem State.modVf_startFailed (s : State) (v : Nat) (f : Vf → Vf) : (s.modVf v f).startFailed = s.startFailed := rfl
@[simp] theorem State.modVf_defects (s : State) (v : Nat) (f : Vf → Vf) : (s.modVf v f).defects = s.defects := rfl
@[simp] theorem State.modVf_firmwareOk (s : State) (v : Nat) (f : Vf → Vf) : (s.modVf v f).firmwareOk = s.firmwareOk := rfl
@[simp] theorem State.modVf_replacedRows (s : State) (v : Nat) (f : Vf → Vf) : (s.modVf v f).replacedRows = s.replacedRows := rfl
@[simp] theorem State.modVf_dramSpares (s : State) (v : Nat) (f : Vf → Vf) : (s.modVf v f).dramSpares = s.dramSpares := rfl
@[simp] theorem State.modVf_retrained (s : State) (v : Nat) (f : Vf → Vf) : (s.modVf v f).retrained = s.retrained := rfl
@[simp] theorem State.modVf_throttled (s : State) (v : Nat) (f : Vf → Vf) : (s.modVf v f).throttled = s.throttled := rfl
@[simp] theorem State.modVf_withhold (s : State) (v : Nat) (f : Vf → Vf) : (s.modVf v f).withhold = s.withhold := rfl
@[simp] theorem State.modVf_dies (s : State) (v : Nat) (f : Vf → Vf) : (s.modVf v f).dies = s.dies := rfl
@[simp] theorem State.modVf_dram (s : State) (v : Nat) (f : Vf → Vf) : (s.modVf v f).dram = s.dram := rfl
@[simp] theorem State.modVf_host (s : State) (v : Nat) (f : Vf → Vf) : (s.modVf v f).host = s.host := rfl
@[simp] theorem State.modVf_devNumber (s : State) (v : Nat) (f : Vf → Vf) : (s.modVf v f).devNumber = s.devNumber := rfl
@[simp] theorem State.modVf_cores (s : State) (v : Nat) (f : Vf → Vf) : (s.modVf v f).cores = s.cores := rfl
@[simp] theorem State.modVf_slices (s : State) (v : Nat) (f : Vf → Vf) : (s.modVf v f).slices = s.slices := rfl
@[simp] theorem State.modVf_grids (s : State) (v : Nat) (f : Vf → Vf) : (s.modVf v f).grids = s.grids := rfl
@[simp] theorem State.modVf_graphs (s : State) (v : Nat) (f : Vf → Vf) : (s.modVf v f).graphs = s.graphs := rfl
@[simp] theorem State.modVf_reqs (s : State) (v : Nat) (f : Vf → Vf) : (s.modVf v f).reqs = s.reqs := rfl
@[simp] theorem State.modVf_msgs (s : State) (v : Nat) (f : Vf → Vf) : (s.modVf v f).msgs = s.msgs := rfl
@[simp] theorem State.modVf_replicaMsgs (s : State) (v : Nat) (f : Vf → Vf) : (s.modVf v f).replicaMsgs = s.replicaMsgs := rfl
@[simp] theorem State.modVf_flaws (s : State) (v : Nat) (f : Vf → Vf) : (s.modVf v f).flaws = s.flaws := rfl
@[simp] theorem State.modVf_channelErrors (s : State) (v : Nat) (f : Vf → Vf) : (s.modVf v f).channelErrors = s.channelErrors := rfl
@[simp] theorem State.modVf_sliceErrors (s : State) (v : Nat) (f : Vf → Vf) : (s.modVf v f).sliceErrors = s.sliceErrors := rfl
@[simp] theorem State.modVf_signals (s : State) (v : Nat) (f : Vf → Vf) : (s.modVf v f).signals = s.signals := rfl
@[simp] theorem State.modVf_invals (s : State) (v : Nat) (f : Vf → Vf) : (s.modVf v f).invals = s.invals := rfl
@[simp] theorem State.modVf_grants (s : State) (v : Nat) (f : Vf → Vf) : (s.modVf v f).grants = s.grants := rfl
@[simp] theorem State.modVf_routes (s : State) (v : Nat) (f : Vf → Vf) : (s.modVf v f).routes = s.routes := rfl
@[simp] theorem State.modVf_pfEvents (s : State) (v : Nat) (f : Vf → Vf) : (s.modVf v f).pfEvents = s.pfEvents := rfl
@[simp] theorem State.modVf_pfCommands (s : State) (v : Nat) (f : Vf → Vf) : (s.modVf v f).pfCommands = s.pfCommands := rfl
@[simp] theorem State.modVf_quanta (s : State) (v : Nat) (f : Vf → Vf) : (s.modVf v f).quanta = s.quanta := rfl
@[simp] theorem State.modVf_statuses (s : State) (v : Nat) (f : Vf → Vf) : (s.modVf v f).statuses = s.statuses := rfl
@[simp] theorem State.modVf_fresh (s : State) (v : Nat) (f : Vf → Vf) : (s.modVf v f).fresh = s.fresh := rfl
@[simp] theorem State.modVf_nextId (s : State) (v : Nat) (f : Vf → Vf) : (s.modVf v f).nextId = s.nextId := rfl
@[simp] theorem State.modVf_agenda (s : State) (v : Nat) (f : Vf → Vf) : (s.modVf v f).agenda = s.agenda := rfl
@[simp] theorem State.modVf_focus (s : State) (v : Nat) (f : Vf → Vf) : (s.modVf v f).focus = s.focus := rfl

/-! ## A grid changed -/

@[simp] theorem State.modGrid_time (s : State) (g : Nat) (f : Grid → Grid) : (s.modGrid g f).time = s.time := rfl
@[simp] theorem State.modGrid_skew (s : State) (g : Nat) (f : Grid → Grid) : (s.modGrid g f).skew = s.skew := rfl
@[simp] theorem State.modGrid_service (s : State) (g : Nat) (f : Grid → Grid) : (s.modGrid g f).service = s.service := rfl
@[simp] theorem State.modGrid_coreMap (s : State) (g : Nat) (f : Grid → Grid) : (s.modGrid g f).coreMap = s.coreMap := rfl
@[simp] theorem State.modGrid_sliceMap (s : State) (g : Nat) (f : Grid → Grid) : (s.modGrid g f).sliceMap = s.sliceMap := rfl
@[simp] theorem State.modGrid_suspects (s : State) (g : Nat) (f : Grid → Grid) : (s.modGrid g f).suspects = s.suspects := rfl
@[simp] theorem State.modGrid_startFailed (s : State) (g : Nat) (f : Grid → Grid) : (s.modGrid g f).startFailed = s.startFailed := rfl
@[simp] theorem State.modGrid_defects (s : State) (g : Nat) (f : Grid → Grid) : (s.modGrid g f).defects = s.defects := rfl
@[simp] theorem State.modGrid_firmwareOk (s : State) (g : Nat) (f : Grid → Grid) : (s.modGrid g f).firmwareOk = s.firmwareOk := rfl
@[simp] theorem State.modGrid_replacedRows (s : State) (g : Nat) (f : Grid → Grid) : (s.modGrid g f).replacedRows = s.replacedRows := rfl
@[simp] theorem State.modGrid_dramSpares (s : State) (g : Nat) (f : Grid → Grid) : (s.modGrid g f).dramSpares = s.dramSpares := rfl
@[simp] theorem State.modGrid_retrained (s : State) (g : Nat) (f : Grid → Grid) : (s.modGrid g f).retrained = s.retrained := rfl
@[simp] theorem State.modGrid_throttled (s : State) (g : Nat) (f : Grid → Grid) : (s.modGrid g f).throttled = s.throttled := rfl
@[simp] theorem State.modGrid_withhold (s : State) (g : Nat) (f : Grid → Grid) : (s.modGrid g f).withhold = s.withhold := rfl
@[simp] theorem State.modGrid_dies (s : State) (g : Nat) (f : Grid → Grid) : (s.modGrid g f).dies = s.dies := rfl
@[simp] theorem State.modGrid_dram (s : State) (g : Nat) (f : Grid → Grid) : (s.modGrid g f).dram = s.dram := rfl
@[simp] theorem State.modGrid_host (s : State) (g : Nat) (f : Grid → Grid) : (s.modGrid g f).host = s.host := rfl
@[simp] theorem State.modGrid_devNumber (s : State) (g : Nat) (f : Grid → Grid) : (s.modGrid g f).devNumber = s.devNumber := rfl
@[simp] theorem State.modGrid_cores (s : State) (g : Nat) (f : Grid → Grid) : (s.modGrid g f).cores = s.cores := rfl
@[simp] theorem State.modGrid_slices (s : State) (g : Nat) (f : Grid → Grid) : (s.modGrid g f).slices = s.slices := rfl
@[simp] theorem State.modGrid_vfs (s : State) (g : Nat) (f : Grid → Grid) : (s.modGrid g f).vfs = s.vfs := rfl
@[simp] theorem State.modGrid_graphs (s : State) (g : Nat) (f : Grid → Grid) : (s.modGrid g f).graphs = s.graphs := rfl
@[simp] theorem State.modGrid_reqs (s : State) (g : Nat) (f : Grid → Grid) : (s.modGrid g f).reqs = s.reqs := rfl
@[simp] theorem State.modGrid_msgs (s : State) (g : Nat) (f : Grid → Grid) : (s.modGrid g f).msgs = s.msgs := rfl
@[simp] theorem State.modGrid_replicaMsgs (s : State) (g : Nat) (f : Grid → Grid) : (s.modGrid g f).replicaMsgs = s.replicaMsgs := rfl
@[simp] theorem State.modGrid_flaws (s : State) (g : Nat) (f : Grid → Grid) : (s.modGrid g f).flaws = s.flaws := rfl
@[simp] theorem State.modGrid_channelErrors (s : State) (g : Nat) (f : Grid → Grid) : (s.modGrid g f).channelErrors = s.channelErrors := rfl
@[simp] theorem State.modGrid_sliceErrors (s : State) (g : Nat) (f : Grid → Grid) : (s.modGrid g f).sliceErrors = s.sliceErrors := rfl
@[simp] theorem State.modGrid_signals (s : State) (g : Nat) (f : Grid → Grid) : (s.modGrid g f).signals = s.signals := rfl
@[simp] theorem State.modGrid_invals (s : State) (g : Nat) (f : Grid → Grid) : (s.modGrid g f).invals = s.invals := rfl
@[simp] theorem State.modGrid_grants (s : State) (g : Nat) (f : Grid → Grid) : (s.modGrid g f).grants = s.grants := rfl
@[simp] theorem State.modGrid_routes (s : State) (g : Nat) (f : Grid → Grid) : (s.modGrid g f).routes = s.routes := rfl
@[simp] theorem State.modGrid_pfEvents (s : State) (g : Nat) (f : Grid → Grid) : (s.modGrid g f).pfEvents = s.pfEvents := rfl
@[simp] theorem State.modGrid_pfCommands (s : State) (g : Nat) (f : Grid → Grid) : (s.modGrid g f).pfCommands = s.pfCommands := rfl
@[simp] theorem State.modGrid_quanta (s : State) (g : Nat) (f : Grid → Grid) : (s.modGrid g f).quanta = s.quanta := rfl
@[simp] theorem State.modGrid_statuses (s : State) (g : Nat) (f : Grid → Grid) : (s.modGrid g f).statuses = s.statuses := rfl
@[simp] theorem State.modGrid_fresh (s : State) (g : Nat) (f : Grid → Grid) : (s.modGrid g f).fresh = s.fresh := rfl
@[simp] theorem State.modGrid_nextId (s : State) (g : Nat) (f : Grid → Grid) : (s.modGrid g f).nextId = s.nextId := rfl
@[simp] theorem State.modGrid_agenda (s : State) (g : Nat) (f : Grid → Grid) : (s.modGrid g f).agenda = s.agenda := rfl
@[simp] theorem State.modGrid_focus (s : State) (g : Nat) (f : Grid → Grid) : (s.modGrid g f).focus = s.focus := rfl

/-! ## A graph changed -/

@[simp] theorem State.modGraph_time (s : State) (g : Nat) (f : Graph → Graph) : (s.modGraph g f).time = s.time := rfl
@[simp] theorem State.modGraph_skew (s : State) (g : Nat) (f : Graph → Graph) : (s.modGraph g f).skew = s.skew := rfl
@[simp] theorem State.modGraph_service (s : State) (g : Nat) (f : Graph → Graph) : (s.modGraph g f).service = s.service := rfl
@[simp] theorem State.modGraph_coreMap (s : State) (g : Nat) (f : Graph → Graph) : (s.modGraph g f).coreMap = s.coreMap := rfl
@[simp] theorem State.modGraph_sliceMap (s : State) (g : Nat) (f : Graph → Graph) : (s.modGraph g f).sliceMap = s.sliceMap := rfl
@[simp] theorem State.modGraph_suspects (s : State) (g : Nat) (f : Graph → Graph) : (s.modGraph g f).suspects = s.suspects := rfl
@[simp] theorem State.modGraph_startFailed (s : State) (g : Nat) (f : Graph → Graph) : (s.modGraph g f).startFailed = s.startFailed := rfl
@[simp] theorem State.modGraph_defects (s : State) (g : Nat) (f : Graph → Graph) : (s.modGraph g f).defects = s.defects := rfl
@[simp] theorem State.modGraph_firmwareOk (s : State) (g : Nat) (f : Graph → Graph) : (s.modGraph g f).firmwareOk = s.firmwareOk := rfl
@[simp] theorem State.modGraph_replacedRows (s : State) (g : Nat) (f : Graph → Graph) : (s.modGraph g f).replacedRows = s.replacedRows := rfl
@[simp] theorem State.modGraph_dramSpares (s : State) (g : Nat) (f : Graph → Graph) : (s.modGraph g f).dramSpares = s.dramSpares := rfl
@[simp] theorem State.modGraph_retrained (s : State) (g : Nat) (f : Graph → Graph) : (s.modGraph g f).retrained = s.retrained := rfl
@[simp] theorem State.modGraph_throttled (s : State) (g : Nat) (f : Graph → Graph) : (s.modGraph g f).throttled = s.throttled := rfl
@[simp] theorem State.modGraph_withhold (s : State) (g : Nat) (f : Graph → Graph) : (s.modGraph g f).withhold = s.withhold := rfl
@[simp] theorem State.modGraph_dies (s : State) (g : Nat) (f : Graph → Graph) : (s.modGraph g f).dies = s.dies := rfl
@[simp] theorem State.modGraph_dram (s : State) (g : Nat) (f : Graph → Graph) : (s.modGraph g f).dram = s.dram := rfl
@[simp] theorem State.modGraph_host (s : State) (g : Nat) (f : Graph → Graph) : (s.modGraph g f).host = s.host := rfl
@[simp] theorem State.modGraph_devNumber (s : State) (g : Nat) (f : Graph → Graph) : (s.modGraph g f).devNumber = s.devNumber := rfl
@[simp] theorem State.modGraph_cores (s : State) (g : Nat) (f : Graph → Graph) : (s.modGraph g f).cores = s.cores := rfl
@[simp] theorem State.modGraph_slices (s : State) (g : Nat) (f : Graph → Graph) : (s.modGraph g f).slices = s.slices := rfl
@[simp] theorem State.modGraph_vfs (s : State) (g : Nat) (f : Graph → Graph) : (s.modGraph g f).vfs = s.vfs := rfl
@[simp] theorem State.modGraph_grids (s : State) (g : Nat) (f : Graph → Graph) : (s.modGraph g f).grids = s.grids := rfl
@[simp] theorem State.modGraph_reqs (s : State) (g : Nat) (f : Graph → Graph) : (s.modGraph g f).reqs = s.reqs := rfl
@[simp] theorem State.modGraph_msgs (s : State) (g : Nat) (f : Graph → Graph) : (s.modGraph g f).msgs = s.msgs := rfl
@[simp] theorem State.modGraph_replicaMsgs (s : State) (g : Nat) (f : Graph → Graph) : (s.modGraph g f).replicaMsgs = s.replicaMsgs := rfl
@[simp] theorem State.modGraph_flaws (s : State) (g : Nat) (f : Graph → Graph) : (s.modGraph g f).flaws = s.flaws := rfl
@[simp] theorem State.modGraph_channelErrors (s : State) (g : Nat) (f : Graph → Graph) : (s.modGraph g f).channelErrors = s.channelErrors := rfl
@[simp] theorem State.modGraph_sliceErrors (s : State) (g : Nat) (f : Graph → Graph) : (s.modGraph g f).sliceErrors = s.sliceErrors := rfl
@[simp] theorem State.modGraph_signals (s : State) (g : Nat) (f : Graph → Graph) : (s.modGraph g f).signals = s.signals := rfl
@[simp] theorem State.modGraph_invals (s : State) (g : Nat) (f : Graph → Graph) : (s.modGraph g f).invals = s.invals := rfl
@[simp] theorem State.modGraph_grants (s : State) (g : Nat) (f : Graph → Graph) : (s.modGraph g f).grants = s.grants := rfl
@[simp] theorem State.modGraph_routes (s : State) (g : Nat) (f : Graph → Graph) : (s.modGraph g f).routes = s.routes := rfl
@[simp] theorem State.modGraph_pfEvents (s : State) (g : Nat) (f : Graph → Graph) : (s.modGraph g f).pfEvents = s.pfEvents := rfl
@[simp] theorem State.modGraph_pfCommands (s : State) (g : Nat) (f : Graph → Graph) : (s.modGraph g f).pfCommands = s.pfCommands := rfl
@[simp] theorem State.modGraph_quanta (s : State) (g : Nat) (f : Graph → Graph) : (s.modGraph g f).quanta = s.quanta := rfl
@[simp] theorem State.modGraph_statuses (s : State) (g : Nat) (f : Graph → Graph) : (s.modGraph g f).statuses = s.statuses := rfl
@[simp] theorem State.modGraph_fresh (s : State) (g : Nat) (f : Graph → Graph) : (s.modGraph g f).fresh = s.fresh := rfl
@[simp] theorem State.modGraph_nextId (s : State) (g : Nat) (f : Graph → Graph) : (s.modGraph g f).nextId = s.nextId := rfl
@[simp] theorem State.modGraph_agenda (s : State) (g : Nat) (f : Graph → Graph) : (s.modGraph g f).agenda = s.agenda := rfl
@[simp] theorem State.modGraph_focus (s : State) (g : Nat) (f : Graph → Graph) : (s.modGraph g f).focus = s.focus := rfl

/-! ## A request changed -/

@[simp] theorem State.modReq_time (s : State) (n : Nat) (f : Req → Req) : (s.modReq n f).time = s.time := rfl
@[simp] theorem State.modReq_skew (s : State) (n : Nat) (f : Req → Req) : (s.modReq n f).skew = s.skew := rfl
@[simp] theorem State.modReq_service (s : State) (n : Nat) (f : Req → Req) : (s.modReq n f).service = s.service := rfl
@[simp] theorem State.modReq_coreMap (s : State) (n : Nat) (f : Req → Req) : (s.modReq n f).coreMap = s.coreMap := rfl
@[simp] theorem State.modReq_sliceMap (s : State) (n : Nat) (f : Req → Req) : (s.modReq n f).sliceMap = s.sliceMap := rfl
@[simp] theorem State.modReq_suspects (s : State) (n : Nat) (f : Req → Req) : (s.modReq n f).suspects = s.suspects := rfl
@[simp] theorem State.modReq_startFailed (s : State) (n : Nat) (f : Req → Req) : (s.modReq n f).startFailed = s.startFailed := rfl
@[simp] theorem State.modReq_defects (s : State) (n : Nat) (f : Req → Req) : (s.modReq n f).defects = s.defects := rfl
@[simp] theorem State.modReq_firmwareOk (s : State) (n : Nat) (f : Req → Req) : (s.modReq n f).firmwareOk = s.firmwareOk := rfl
@[simp] theorem State.modReq_replacedRows (s : State) (n : Nat) (f : Req → Req) : (s.modReq n f).replacedRows = s.replacedRows := rfl
@[simp] theorem State.modReq_dramSpares (s : State) (n : Nat) (f : Req → Req) : (s.modReq n f).dramSpares = s.dramSpares := rfl
@[simp] theorem State.modReq_retrained (s : State) (n : Nat) (f : Req → Req) : (s.modReq n f).retrained = s.retrained := rfl
@[simp] theorem State.modReq_throttled (s : State) (n : Nat) (f : Req → Req) : (s.modReq n f).throttled = s.throttled := rfl
@[simp] theorem State.modReq_withhold (s : State) (n : Nat) (f : Req → Req) : (s.modReq n f).withhold = s.withhold := rfl
@[simp] theorem State.modReq_dies (s : State) (n : Nat) (f : Req → Req) : (s.modReq n f).dies = s.dies := rfl
@[simp] theorem State.modReq_dram (s : State) (n : Nat) (f : Req → Req) : (s.modReq n f).dram = s.dram := rfl
@[simp] theorem State.modReq_host (s : State) (n : Nat) (f : Req → Req) : (s.modReq n f).host = s.host := rfl
@[simp] theorem State.modReq_devNumber (s : State) (n : Nat) (f : Req → Req) : (s.modReq n f).devNumber = s.devNumber := rfl
@[simp] theorem State.modReq_cores (s : State) (n : Nat) (f : Req → Req) : (s.modReq n f).cores = s.cores := rfl
@[simp] theorem State.modReq_slices (s : State) (n : Nat) (f : Req → Req) : (s.modReq n f).slices = s.slices := rfl
@[simp] theorem State.modReq_vfs (s : State) (n : Nat) (f : Req → Req) : (s.modReq n f).vfs = s.vfs := rfl
@[simp] theorem State.modReq_grids (s : State) (n : Nat) (f : Req → Req) : (s.modReq n f).grids = s.grids := rfl
@[simp] theorem State.modReq_graphs (s : State) (n : Nat) (f : Req → Req) : (s.modReq n f).graphs = s.graphs := rfl
@[simp] theorem State.modReq_msgs (s : State) (n : Nat) (f : Req → Req) : (s.modReq n f).msgs = s.msgs := rfl
@[simp] theorem State.modReq_replicaMsgs (s : State) (n : Nat) (f : Req → Req) : (s.modReq n f).replicaMsgs = s.replicaMsgs := rfl
@[simp] theorem State.modReq_flaws (s : State) (n : Nat) (f : Req → Req) : (s.modReq n f).flaws = s.flaws := rfl
@[simp] theorem State.modReq_channelErrors (s : State) (n : Nat) (f : Req → Req) : (s.modReq n f).channelErrors = s.channelErrors := rfl
@[simp] theorem State.modReq_sliceErrors (s : State) (n : Nat) (f : Req → Req) : (s.modReq n f).sliceErrors = s.sliceErrors := rfl
@[simp] theorem State.modReq_signals (s : State) (n : Nat) (f : Req → Req) : (s.modReq n f).signals = s.signals := rfl
@[simp] theorem State.modReq_invals (s : State) (n : Nat) (f : Req → Req) : (s.modReq n f).invals = s.invals := rfl
@[simp] theorem State.modReq_grants (s : State) (n : Nat) (f : Req → Req) : (s.modReq n f).grants = s.grants := rfl
@[simp] theorem State.modReq_routes (s : State) (n : Nat) (f : Req → Req) : (s.modReq n f).routes = s.routes := rfl
@[simp] theorem State.modReq_pfEvents (s : State) (n : Nat) (f : Req → Req) : (s.modReq n f).pfEvents = s.pfEvents := rfl
@[simp] theorem State.modReq_pfCommands (s : State) (n : Nat) (f : Req → Req) : (s.modReq n f).pfCommands = s.pfCommands := rfl
@[simp] theorem State.modReq_quanta (s : State) (n : Nat) (f : Req → Req) : (s.modReq n f).quanta = s.quanta := rfl
@[simp] theorem State.modReq_statuses (s : State) (n : Nat) (f : Req → Req) : (s.modReq n f).statuses = s.statuses := rfl
@[simp] theorem State.modReq_fresh (s : State) (n : Nat) (f : Req → Req) : (s.modReq n f).fresh = s.fresh := rfl
@[simp] theorem State.modReq_nextId (s : State) (n : Nat) (f : Req → Req) : (s.modReq n f).nextId = s.nextId := rfl
@[simp] theorem State.modReq_agenda (s : State) (n : Nat) (f : Req → Req) : (s.modReq n f).agenda = s.agenda := rfl
@[simp] theorem State.modReq_focus (s : State) (n : Nat) (f : Req → Req) : (s.modReq n f).focus = s.focus := rfl

/-! ## The next free values -/

@[simp] theorem State.bump_time (s : State) : (s.bump).time = s.time := rfl
@[simp] theorem State.bump_skew (s : State) : (s.bump).skew = s.skew := rfl
@[simp] theorem State.bump_service (s : State) : (s.bump).service = s.service := rfl
@[simp] theorem State.bump_coreMap (s : State) : (s.bump).coreMap = s.coreMap := rfl
@[simp] theorem State.bump_sliceMap (s : State) : (s.bump).sliceMap = s.sliceMap := rfl
@[simp] theorem State.bump_suspects (s : State) : (s.bump).suspects = s.suspects := rfl
@[simp] theorem State.bump_startFailed (s : State) : (s.bump).startFailed = s.startFailed := rfl
@[simp] theorem State.bump_defects (s : State) : (s.bump).defects = s.defects := rfl
@[simp] theorem State.bump_firmwareOk (s : State) : (s.bump).firmwareOk = s.firmwareOk := rfl
@[simp] theorem State.bump_replacedRows (s : State) : (s.bump).replacedRows = s.replacedRows := rfl
@[simp] theorem State.bump_dramSpares (s : State) : (s.bump).dramSpares = s.dramSpares := rfl
@[simp] theorem State.bump_retrained (s : State) : (s.bump).retrained = s.retrained := rfl
@[simp] theorem State.bump_throttled (s : State) : (s.bump).throttled = s.throttled := rfl
@[simp] theorem State.bump_withhold (s : State) : (s.bump).withhold = s.withhold := rfl
@[simp] theorem State.bump_dies (s : State) : (s.bump).dies = s.dies := rfl
@[simp] theorem State.bump_dram (s : State) : (s.bump).dram = s.dram := rfl
@[simp] theorem State.bump_host (s : State) : (s.bump).host = s.host := rfl
@[simp] theorem State.bump_devNumber (s : State) : (s.bump).devNumber = s.devNumber := rfl
@[simp] theorem State.bump_cores (s : State) : (s.bump).cores = s.cores := rfl
@[simp] theorem State.bump_slices (s : State) : (s.bump).slices = s.slices := rfl
@[simp] theorem State.bump_vfs (s : State) : (s.bump).vfs = s.vfs := rfl
@[simp] theorem State.bump_grids (s : State) : (s.bump).grids = s.grids := rfl
@[simp] theorem State.bump_graphs (s : State) : (s.bump).graphs = s.graphs := rfl
@[simp] theorem State.bump_reqs (s : State) : (s.bump).reqs = s.reqs := rfl
@[simp] theorem State.bump_msgs (s : State) : (s.bump).msgs = s.msgs := rfl
@[simp] theorem State.bump_replicaMsgs (s : State) : (s.bump).replicaMsgs = s.replicaMsgs := rfl
@[simp] theorem State.bump_flaws (s : State) : (s.bump).flaws = s.flaws := rfl
@[simp] theorem State.bump_channelErrors (s : State) : (s.bump).channelErrors = s.channelErrors := rfl
@[simp] theorem State.bump_sliceErrors (s : State) : (s.bump).sliceErrors = s.sliceErrors := rfl
@[simp] theorem State.bump_signals (s : State) : (s.bump).signals = s.signals := rfl
@[simp] theorem State.bump_invals (s : State) : (s.bump).invals = s.invals := rfl
@[simp] theorem State.bump_grants (s : State) : (s.bump).grants = s.grants := rfl
@[simp] theorem State.bump_routes (s : State) : (s.bump).routes = s.routes := rfl
@[simp] theorem State.bump_pfEvents (s : State) : (s.bump).pfEvents = s.pfEvents := rfl
@[simp] theorem State.bump_pfCommands (s : State) : (s.bump).pfCommands = s.pfCommands := rfl
@[simp] theorem State.bump_quanta (s : State) : (s.bump).quanta = s.quanta := rfl
@[simp] theorem State.bump_statuses (s : State) : (s.bump).statuses = s.statuses := rfl
@[simp] theorem State.bump_nextId (s : State) : (s.bump).nextId = s.nextId := rfl
@[simp] theorem State.bump_agenda (s : State) : (s.bump).agenda = s.agenda := rfl
@[simp] theorem State.bump_focus (s : State) : (s.bump).focus = s.focus := rfl

/-! ## A partition of a core changed -/

@[simp] theorem Core.modPart_gen (c : Core) (p : Nat) (f : Partition → Partition) : (c.modPart p f).gen = c.gen := rfl
@[simp] theorem Core.modPart_l1 (c : Core) (p : Nat) (f : Partition → Partition) : (c.modPart p f).l1 = c.l1 := rfl
@[simp] theorem Core.modPart_tlb (c : Core) (p : Nat) (f : Partition → Partition) : (c.modPart p f).tlb = c.tlb := rfl
@[simp] theorem Core.modPart_ic (c : Core) (p : Nat) (f : Partition → Partition) : (c.modPart p f).ic = c.ic := rfl
@[simp] theorem Core.modPart_desc (c : Core) (p : Nat) (f : Partition → Partition) : (c.modPart p f).desc = c.desc := rfl
@[simp] theorem Core.modPart_teams (c : Core) (p : Nat) (f : Partition → Partition) : (c.modPart p f).teams = c.teams := rfl
@[simp] theorem Core.modPart_copyQ (c : Core) (p : Nat) (f : Partition → Partition) : (c.modPart p f).copyQ = c.copyQ := rfl
@[simp] theorem Core.modPart_copyRun (c : Core) (p : Nat) (f : Partition → Partition) : (c.modPart p f).copyRun = c.copyRun := rfl
@[simp] theorem Core.modPart_copyFault (c : Core) (p : Nat) (f : Partition → Partition) : (c.modPart p f).copyFault = c.copyFault := rfl
@[simp] theorem Core.modPart_copyFree (c : Core) (p : Nat) (f : Partition → Partition) : (c.modPart p f).copyFree = c.copyFree := rfl
@[simp] theorem Core.modPart_joins (c : Core) (p : Nat) (f : Partition → Partition) : (c.modPart p f).joins = c.joins := rfl
@[simp] theorem Core.modPart_lqs (c : Core) (p : Nat) (f : Partition → Partition) : (c.modPart p f).lqs = c.lqs := rfl
@[simp] theorem Core.modPart_lqTeam (c : Core) (p : Nat) (f : Partition → Partition) : (c.modPart p f).lqTeam = c.lqTeam := rfl
@[simp] theorem Core.modPart_subs (c : Core) (p : Nat) (f : Partition → Partition) : (c.modPart p f).subs = c.subs := rfl
@[simp] theorem Core.modPart_held (c : Core) (p : Nat) (f : Partition → Partition) : (c.modPart p f).held = c.held := rfl
@[simp] theorem Core.modPart_outs (c : Core) (p : Nat) (f : Partition → Partition) : (c.modPart p f).outs = c.outs := rfl
@[simp] theorem Core.modPart_sops (c : Core) (p : Nat) (f : Partition → Partition) : (c.modPart p f).sops = c.sops := rfl
@[simp] theorem Core.modPart_fetches (c : Core) (p : Nat) (f : Partition → Partition) : (c.modPart p f).fetches = c.fetches := rfl
@[simp] theorem Core.modPart_window (c : Core) (p : Nat) (f : Partition → Partition) : (c.modPart p f).window = c.window := rfl
@[simp] theorem Core.modPart_births (c : Core) (p : Nat) (f : Partition → Partition) : (c.modPart p f).births = c.births := rfl
@[simp] theorem Core.modPart_sections (c : Core) (p : Nat) (f : Partition → Partition) : (c.modPart p f).sections = c.sections := rfl

/-! ## A team of a core changed -/

@[simp] theorem Core.modTeam_gen (c : Core) (n : Nat) (f : Team → Team) : (c.modTeam n f).gen = c.gen := rfl
@[simp] theorem Core.modTeam_l1 (c : Core) (n : Nat) (f : Team → Team) : (c.modTeam n f).l1 = c.l1 := rfl
@[simp] theorem Core.modTeam_tlb (c : Core) (n : Nat) (f : Team → Team) : (c.modTeam n f).tlb = c.tlb := rfl
@[simp] theorem Core.modTeam_ic (c : Core) (n : Nat) (f : Team → Team) : (c.modTeam n f).ic = c.ic := rfl
@[simp] theorem Core.modTeam_desc (c : Core) (n : Nat) (f : Team → Team) : (c.modTeam n f).desc = c.desc := rfl
@[simp] theorem Core.modTeam_parts (c : Core) (n : Nat) (f : Team → Team) : (c.modTeam n f).parts = c.parts := rfl
@[simp] theorem Core.modTeam_copyQ (c : Core) (n : Nat) (f : Team → Team) : (c.modTeam n f).copyQ = c.copyQ := rfl
@[simp] theorem Core.modTeam_copyRun (c : Core) (n : Nat) (f : Team → Team) : (c.modTeam n f).copyRun = c.copyRun := rfl
@[simp] theorem Core.modTeam_copyFault (c : Core) (n : Nat) (f : Team → Team) : (c.modTeam n f).copyFault = c.copyFault := rfl
@[simp] theorem Core.modTeam_copyFree (c : Core) (n : Nat) (f : Team → Team) : (c.modTeam n f).copyFree = c.copyFree := rfl
@[simp] theorem Core.modTeam_joins (c : Core) (n : Nat) (f : Team → Team) : (c.modTeam n f).joins = c.joins := rfl
@[simp] theorem Core.modTeam_lqs (c : Core) (n : Nat) (f : Team → Team) : (c.modTeam n f).lqs = c.lqs := rfl
@[simp] theorem Core.modTeam_lqTeam (c : Core) (n : Nat) (f : Team → Team) : (c.modTeam n f).lqTeam = c.lqTeam := rfl
@[simp] theorem Core.modTeam_subs (c : Core) (n : Nat) (f : Team → Team) : (c.modTeam n f).subs = c.subs := rfl
@[simp] theorem Core.modTeam_held (c : Core) (n : Nat) (f : Team → Team) : (c.modTeam n f).held = c.held := rfl
@[simp] theorem Core.modTeam_outs (c : Core) (n : Nat) (f : Team → Team) : (c.modTeam n f).outs = c.outs := rfl
@[simp] theorem Core.modTeam_sops (c : Core) (n : Nat) (f : Team → Team) : (c.modTeam n f).sops = c.sops := rfl
@[simp] theorem Core.modTeam_fetches (c : Core) (n : Nat) (f : Team → Team) : (c.modTeam n f).fetches = c.fetches := rfl
@[simp] theorem Core.modTeam_window (c : Core) (n : Nat) (f : Team → Team) : (c.modTeam n f).window = c.window := rfl
@[simp] theorem Core.modTeam_births (c : Core) (n : Nat) (f : Team → Team) : (c.modTeam n f).births = c.births := rfl
@[simp] theorem Core.modTeam_sections (c : Core) (n : Nat) (f : Team → Team) : (c.modTeam n f).sections = c.sections := rfl

/-! ## A group of a team changed -/

@[simp] theorem Team.modGroup_id (t : Team) (n : Nat) (f : Group → Group) : (t.modGroup n f).id = t.id := rfl
@[simp] theorem Team.modGroup_grid (t : Team) (n : Nat) (f : Group → Group) : (t.modGroup n f).grid = t.grid := rfl
@[simp] theorem Team.modGroup_vf (t : Team) (n : Nat) (f : Group → Group) : (t.modGroup n f).vf = t.vf := rfl
@[simp] theorem Team.modGroup_lin (t : Team) (n : Nat) (f : Group → Group) : (t.modGroup n f).lin = t.lin := rfl
@[simp] theorem Team.modGroup_clu (t : Team) (n : Nat) (f : Group → Group) : (t.modGroup n f).clu = t.clu := rfl
@[simp] theorem Team.modGroup_rank (t : Team) (n : Nat) (f : Group → Group) : (t.modGroup n f).rank = t.rank := rfl
@[simp] theorem Team.modGroup_kernel (t : Team) (n : Nat) (f : Group → Group) : (t.modGroup n f).kernel = t.kernel := rfl
@[simp] theorem Team.modGroup_scratch (t : Team) (n : Nat) (f : Group → Group) : (t.modGroup n f).scratch = t.scratch := rfl
@[simp] theorem Team.modGroup_latches (t : Team) (n : Nat) (f : Group → Group) : (t.modGroup n f).latches = t.latches := rfl
@[simp] theorem Team.modGroup_barriers (t : Team) (n : Nat) (f : Group → Group) : (t.modGroup n f).barriers = t.barriers := rfl
@[simp] theorem Team.modGroup_cluBarriers (t : Team) (n : Nat) (f : Group → Group) : (t.modGroup n f).cluBarriers = t.cluBarriers := rfl
@[simp] theorem Team.modGroup_binds (t : Team) (n : Nat) (f : Group → Group) : (t.modGroup n f).binds = t.binds := rfl
@[simp] theorem Team.modGroup_streams (t : Team) (n : Nat) (f : Group → Group) : (t.modGroup n f).streams = t.streams := rfl
@[simp] theorem Team.modGroup_shadow (t : Team) (n : Nat) (f : Group → Group) : (t.modGroup n f).shadow = t.shadow := rfl
@[simp] theorem Team.modGroup_stopping (t : Team) (n : Nat) (f : Group → Group) : (t.modGroup n f).stopping = t.stopping := rfl
@[simp] theorem Team.modGroup_halted (t : Team) (n : Nat) (f : Group → Group) : (t.modGroup n f).halted = t.halted := rfl
@[simp] theorem Team.modGroup_quiescing (t : Team) (n : Nat) (f : Group → Group) : (t.modGroup n f).quiescing = t.quiescing := rfl

/-! ## A split of a group changed -/

@[simp] theorem Group.modSplit_grp (g : Group) (n : Nat) (f : Split → Split) : (g.modSplit n f).grp = g.grp := rfl
@[simp] theorem Group.modSplit_part (g : Group) (n : Nat) (f : Split → Split) : (g.modSplit n f).part = g.part := rfl
@[simp] theorem Group.modSplit_v (g : Group) (n : Nat) (f : Split → Split) : (g.modSplit n f).v = g.v := rfl
@[simp] theorem Group.modSplit_s (g : Group) (n : Nat) (f : Split → Split) : (g.modSplit n f).s = g.s := rfl
@[simp] theorem Group.modSplit_p (g : Group) (n : Nat) (f : Split → Split) : (g.modSplit n f).p = g.p := rfl
@[simp] theorem Group.modSplit_q (g : Group) (n : Nat) (f : Split → Split) : (g.modSplit n f).q = g.q := rfl
@[simp] theorem Group.modSplit_b (g : Group) (n : Nat) (f : Split → Split) : (g.modSplit n f).b = g.b := rfl
@[simp] theorem Group.modSplit_exited (g : Group) (n : Nat) (f : Split → Split) : (g.modSplit n f).exited = g.exited := rfl
@[simp] theorem Group.modSplit_nextSid (g : Group) (n : Nat) (f : Split → Split) : (g.modSplit n f).nextSid = g.nextSid := rfl
@[simp] theorem Group.modSplit_tcode (g : Group) (n : Nat) (f : Split → Split) : (g.modSplit n f).tcode = g.tcode := rfl
@[simp] theorem Group.modSplit_tepc (g : Group) (n : Nat) (f : Split → Split) : (g.modSplit n f).tepc = g.tepc := rfl
@[simp] theorem Group.modSplit_taddr (g : Group) (n : Nat) (f : Split → Split) : (g.modSplit n f).taddr = g.taddr := rfl
@[simp] theorem Group.modSplit_tlane (g : Group) (n : Nat) (f : Split → Split) : (g.modSplit n f).tlane = g.tlane := rfl
@[simp] theorem Group.modSplit_trapSplit (g : Group) (n : Nat) (f : Split → Split) : (g.modSplit n f).trapSplit = g.trapSplit := rfl
@[simp] theorem Group.modSplit_trapMask (g : Group) (n : Nat) (f : Split → Split) : (g.modSplit n f).trapMask = g.trapMask := rfl
@[simp] theorem Group.modSplit_trapDepth (g : Group) (n : Nat) (f : Split → Split) : (g.modSplit n f).trapDepth = g.trapDepth := rfl
@[simp] theorem Group.modSplit_usync (g : Group) (n : Nat) (f : Split → Split) : (g.modSplit n f).usync = g.usync := rfl
@[simp] theorem Group.modSplit_triggered (g : Group) (n : Nat) (f : Split → Split) : (g.modSplit n f).triggered = g.triggered := rfl
@[simp] theorem Group.modSplit_dying (g : Group) (n : Nat) (f : Split → Split) : (g.modSplit n f).dying = g.dying := rfl
@[simp] theorem Group.modSplit_pageWait (g : Group) (n : Nat) (f : Split → Split) : (g.modSplit n f).pageWait = g.pageWait := rfl
@[simp] theorem Group.modSplit_pageDue (g : Group) (n : Nat) (f : Split → Split) : (g.modSplit n f).pageDue = g.pageDue := rfl
@[simp] theorem Group.modSplit_ages (g : Group) (n : Nat) (f : Split → Split) : (g.modSplit n f).ages = g.ages := rfl
@[simp] theorem Group.modSplit_pending (g : Group) (n : Nat) (f : Split → Split) : (g.modSplit n f).pending = g.pending := rfl

/-! ## A vector register written -/

@[simp] theorem Group.setVec_grp (g : Group) (n : Nat) (m : Mask) (f : Nat → Word) : (g.setVec n m f).grp = g.grp := rfl
@[simp] theorem Group.setVec_part (g : Group) (n : Nat) (m : Mask) (f : Nat → Word) : (g.setVec n m f).part = g.part := rfl
@[simp] theorem Group.setVec_s (g : Group) (n : Nat) (m : Mask) (f : Nat → Word) : (g.setVec n m f).s = g.s := rfl
@[simp] theorem Group.setVec_p (g : Group) (n : Nat) (m : Mask) (f : Nat → Word) : (g.setVec n m f).p = g.p := rfl
@[simp] theorem Group.setVec_q (g : Group) (n : Nat) (m : Mask) (f : Nat → Word) : (g.setVec n m f).q = g.q := rfl
@[simp] theorem Group.setVec_b (g : Group) (n : Nat) (m : Mask) (f : Nat → Word) : (g.setVec n m f).b = g.b := rfl
@[simp] theorem Group.setVec_exited (g : Group) (n : Nat) (m : Mask) (f : Nat → Word) : (g.setVec n m f).exited = g.exited := rfl
@[simp] theorem Group.setVec_splits (g : Group) (n : Nat) (m : Mask) (f : Nat → Word) : (g.setVec n m f).splits = g.splits := rfl
@[simp] theorem Group.setVec_nextSid (g : Group) (n : Nat) (m : Mask) (f : Nat → Word) : (g.setVec n m f).nextSid = g.nextSid := rfl
@[simp] theorem Group.setVec_tcode (g : Group) (n : Nat) (m : Mask) (f : Nat → Word) : (g.setVec n m f).tcode = g.tcode := rfl
@[simp] theorem Group.setVec_tepc (g : Group) (n : Nat) (m : Mask) (f : Nat → Word) : (g.setVec n m f).tepc = g.tepc := rfl
@[simp] theorem Group.setVec_taddr (g : Group) (n : Nat) (m : Mask) (f : Nat → Word) : (g.setVec n m f).taddr = g.taddr := rfl
@[simp] theorem Group.setVec_tlane (g : Group) (n : Nat) (m : Mask) (f : Nat → Word) : (g.setVec n m f).tlane = g.tlane := rfl
@[simp] theorem Group.setVec_trapSplit (g : Group) (n : Nat) (m : Mask) (f : Nat → Word) : (g.setVec n m f).trapSplit = g.trapSplit := rfl
@[simp] theorem Group.setVec_trapMask (g : Group) (n : Nat) (m : Mask) (f : Nat → Word) : (g.setVec n m f).trapMask = g.trapMask := rfl
@[simp] theorem Group.setVec_trapDepth (g : Group) (n : Nat) (m : Mask) (f : Nat → Word) : (g.setVec n m f).trapDepth = g.trapDepth := rfl
@[simp] theorem Group.setVec_usync (g : Group) (n : Nat) (m : Mask) (f : Nat → Word) : (g.setVec n m f).usync = g.usync := rfl
@[simp] theorem Group.setVec_triggered (g : Group) (n : Nat) (m : Mask) (f : Nat → Word) : (g.setVec n m f).triggered = g.triggered := rfl
@[simp] theorem Group.setVec_dying (g : Group) (n : Nat) (m : Mask) (f : Nat → Word) : (g.setVec n m f).dying = g.dying := rfl
@[simp] theorem Group.setVec_pageWait (g : Group) (n : Nat) (m : Mask) (f : Nat → Word) : (g.setVec n m f).pageWait = g.pageWait := rfl
@[simp] theorem Group.setVec_pageDue (g : Group) (n : Nat) (m : Mask) (f : Nat → Word) : (g.setVec n m f).pageDue = g.pageDue := rfl
@[simp] theorem Group.setVec_ages (g : Group) (n : Nat) (m : Mask) (f : Nat → Word) : (g.setVec n m f).ages = g.ages := rfl
@[simp] theorem Group.setVec_pending (g : Group) (n : Nat) (m : Mask) (f : Nat → Word) : (g.setVec n m f).pending = g.pending := rfl

/-! ## A scalar register written -/

@[simp] theorem Group.setSreg_grp (g : Group) (n : Nat) (x : Word) : (g.setSreg n x).grp = g.grp := rfl
@[simp] theorem Group.setSreg_part (g : Group) (n : Nat) (x : Word) : (g.setSreg n x).part = g.part := rfl
@[simp] theorem Group.setSreg_v (g : Group) (n : Nat) (x : Word) : (g.setSreg n x).v = g.v := rfl
@[simp] theorem Group.setSreg_p (g : Group) (n : Nat) (x : Word) : (g.setSreg n x).p = g.p := rfl
@[simp] theorem Group.setSreg_q (g : Group) (n : Nat) (x : Word) : (g.setSreg n x).q = g.q := rfl
@[simp] theorem Group.setSreg_b (g : Group) (n : Nat) (x : Word) : (g.setSreg n x).b = g.b := rfl
@[simp] theorem Group.setSreg_exited (g : Group) (n : Nat) (x : Word) : (g.setSreg n x).exited = g.exited := rfl
@[simp] theorem Group.setSreg_splits (g : Group) (n : Nat) (x : Word) : (g.setSreg n x).splits = g.splits := rfl
@[simp] theorem Group.setSreg_nextSid (g : Group) (n : Nat) (x : Word) : (g.setSreg n x).nextSid = g.nextSid := rfl
@[simp] theorem Group.setSreg_tcode (g : Group) (n : Nat) (x : Word) : (g.setSreg n x).tcode = g.tcode := rfl
@[simp] theorem Group.setSreg_tepc (g : Group) (n : Nat) (x : Word) : (g.setSreg n x).tepc = g.tepc := rfl
@[simp] theorem Group.setSreg_taddr (g : Group) (n : Nat) (x : Word) : (g.setSreg n x).taddr = g.taddr := rfl
@[simp] theorem Group.setSreg_tlane (g : Group) (n : Nat) (x : Word) : (g.setSreg n x).tlane = g.tlane := rfl
@[simp] theorem Group.setSreg_trapSplit (g : Group) (n : Nat) (x : Word) : (g.setSreg n x).trapSplit = g.trapSplit := rfl
@[simp] theorem Group.setSreg_trapMask (g : Group) (n : Nat) (x : Word) : (g.setSreg n x).trapMask = g.trapMask := rfl
@[simp] theorem Group.setSreg_trapDepth (g : Group) (n : Nat) (x : Word) : (g.setSreg n x).trapDepth = g.trapDepth := rfl
@[simp] theorem Group.setSreg_usync (g : Group) (n : Nat) (x : Word) : (g.setSreg n x).usync = g.usync := rfl
@[simp] theorem Group.setSreg_triggered (g : Group) (n : Nat) (x : Word) : (g.setSreg n x).triggered = g.triggered := rfl
@[simp] theorem Group.setSreg_dying (g : Group) (n : Nat) (x : Word) : (g.setSreg n x).dying = g.dying := rfl
@[simp] theorem Group.setSreg_pageWait (g : Group) (n : Nat) (x : Word) : (g.setSreg n x).pageWait = g.pageWait := rfl
@[simp] theorem Group.setSreg_pageDue (g : Group) (n : Nat) (x : Word) : (g.setSreg n x).pageDue = g.pageDue := rfl
@[simp] theorem Group.setSreg_ages (g : Group) (n : Nat) (x : Word) : (g.setSreg n x).ages = g.ages := rfl
@[simp] theorem Group.setSreg_pending (g : Group) (n : Nat) (x : Word) : (g.setSreg n x).pending = g.pending := rfl

/-! ## A p register written -/

@[simp] theorem Group.setPreg_grp (g : Group) (n : Nat) (m : Mask) (f : Nat → Bool) : (g.setPreg n m f).grp = g.grp := rfl
@[simp] theorem Group.setPreg_part (g : Group) (n : Nat) (m : Mask) (f : Nat → Bool) : (g.setPreg n m f).part = g.part := rfl
@[simp] theorem Group.setPreg_v (g : Group) (n : Nat) (m : Mask) (f : Nat → Bool) : (g.setPreg n m f).v = g.v := rfl
@[simp] theorem Group.setPreg_s (g : Group) (n : Nat) (m : Mask) (f : Nat → Bool) : (g.setPreg n m f).s = g.s := rfl
@[simp] theorem Group.setPreg_q (g : Group) (n : Nat) (m : Mask) (f : Nat → Bool) : (g.setPreg n m f).q = g.q := rfl
@[simp] theorem Group.setPreg_b (g : Group) (n : Nat) (m : Mask) (f : Nat → Bool) : (g.setPreg n m f).b = g.b := rfl
@[simp] theorem Group.setPreg_exited (g : Group) (n : Nat) (m : Mask) (f : Nat → Bool) : (g.setPreg n m f).exited = g.exited := rfl
@[simp] theorem Group.setPreg_splits (g : Group) (n : Nat) (m : Mask) (f : Nat → Bool) : (g.setPreg n m f).splits = g.splits := rfl
@[simp] theorem Group.setPreg_nextSid (g : Group) (n : Nat) (m : Mask) (f : Nat → Bool) : (g.setPreg n m f).nextSid = g.nextSid := rfl
@[simp] theorem Group.setPreg_tcode (g : Group) (n : Nat) (m : Mask) (f : Nat → Bool) : (g.setPreg n m f).tcode = g.tcode := rfl
@[simp] theorem Group.setPreg_tepc (g : Group) (n : Nat) (m : Mask) (f : Nat → Bool) : (g.setPreg n m f).tepc = g.tepc := rfl
@[simp] theorem Group.setPreg_taddr (g : Group) (n : Nat) (m : Mask) (f : Nat → Bool) : (g.setPreg n m f).taddr = g.taddr := rfl
@[simp] theorem Group.setPreg_tlane (g : Group) (n : Nat) (m : Mask) (f : Nat → Bool) : (g.setPreg n m f).tlane = g.tlane := rfl
@[simp] theorem Group.setPreg_trapSplit (g : Group) (n : Nat) (m : Mask) (f : Nat → Bool) : (g.setPreg n m f).trapSplit = g.trapSplit := rfl
@[simp] theorem Group.setPreg_trapMask (g : Group) (n : Nat) (m : Mask) (f : Nat → Bool) : (g.setPreg n m f).trapMask = g.trapMask := rfl
@[simp] theorem Group.setPreg_trapDepth (g : Group) (n : Nat) (m : Mask) (f : Nat → Bool) : (g.setPreg n m f).trapDepth = g.trapDepth := rfl
@[simp] theorem Group.setPreg_usync (g : Group) (n : Nat) (m : Mask) (f : Nat → Bool) : (g.setPreg n m f).usync = g.usync := rfl
@[simp] theorem Group.setPreg_triggered (g : Group) (n : Nat) (m : Mask) (f : Nat → Bool) : (g.setPreg n m f).triggered = g.triggered := rfl
@[simp] theorem Group.setPreg_dying (g : Group) (n : Nat) (m : Mask) (f : Nat → Bool) : (g.setPreg n m f).dying = g.dying := rfl
@[simp] theorem Group.setPreg_pageWait (g : Group) (n : Nat) (m : Mask) (f : Nat → Bool) : (g.setPreg n m f).pageWait = g.pageWait := rfl
@[simp] theorem Group.setPreg_pageDue (g : Group) (n : Nat) (m : Mask) (f : Nat → Bool) : (g.setPreg n m f).pageDue = g.pageDue := rfl
@[simp] theorem Group.setPreg_ages (g : Group) (n : Nat) (m : Mask) (f : Nat → Bool) : (g.setPreg n m f).ages = g.ages := rfl
@[simp] theorem Group.setPreg_pending (g : Group) (n : Nat) (m : Mask) (f : Nat → Bool) : (g.setPreg n m f).pending = g.pending := rfl

/-! ## A q register written -/

@[simp] theorem Group.setQreg_grp (g : Group) (n : Nat) (x : Bool) : (g.setQreg n x).grp = g.grp := rfl
@[simp] theorem Group.setQreg_part (g : Group) (n : Nat) (x : Bool) : (g.setQreg n x).part = g.part := rfl
@[simp] theorem Group.setQreg_v (g : Group) (n : Nat) (x : Bool) : (g.setQreg n x).v = g.v := rfl
@[simp] theorem Group.setQreg_s (g : Group) (n : Nat) (x : Bool) : (g.setQreg n x).s = g.s := rfl
@[simp] theorem Group.setQreg_p (g : Group) (n : Nat) (x : Bool) : (g.setQreg n x).p = g.p := rfl
@[simp] theorem Group.setQreg_b (g : Group) (n : Nat) (x : Bool) : (g.setQreg n x).b = g.b := rfl
@[simp] theorem Group.setQreg_exited (g : Group) (n : Nat) (x : Bool) : (g.setQreg n x).exited = g.exited := rfl
@[simp] theorem Group.setQreg_splits (g : Group) (n : Nat) (x : Bool) : (g.setQreg n x).splits = g.splits := rfl
@[simp] theorem Group.setQreg_nextSid (g : Group) (n : Nat) (x : Bool) : (g.setQreg n x).nextSid = g.nextSid := rfl
@[simp] theorem Group.setQreg_tcode (g : Group) (n : Nat) (x : Bool) : (g.setQreg n x).tcode = g.tcode := rfl
@[simp] theorem Group.setQreg_tepc (g : Group) (n : Nat) (x : Bool) : (g.setQreg n x).tepc = g.tepc := rfl
@[simp] theorem Group.setQreg_taddr (g : Group) (n : Nat) (x : Bool) : (g.setQreg n x).taddr = g.taddr := rfl
@[simp] theorem Group.setQreg_tlane (g : Group) (n : Nat) (x : Bool) : (g.setQreg n x).tlane = g.tlane := rfl
@[simp] theorem Group.setQreg_trapSplit (g : Group) (n : Nat) (x : Bool) : (g.setQreg n x).trapSplit = g.trapSplit := rfl
@[simp] theorem Group.setQreg_trapMask (g : Group) (n : Nat) (x : Bool) : (g.setQreg n x).trapMask = g.trapMask := rfl
@[simp] theorem Group.setQreg_trapDepth (g : Group) (n : Nat) (x : Bool) : (g.setQreg n x).trapDepth = g.trapDepth := rfl
@[simp] theorem Group.setQreg_usync (g : Group) (n : Nat) (x : Bool) : (g.setQreg n x).usync = g.usync := rfl
@[simp] theorem Group.setQreg_triggered (g : Group) (n : Nat) (x : Bool) : (g.setQreg n x).triggered = g.triggered := rfl
@[simp] theorem Group.setQreg_dying (g : Group) (n : Nat) (x : Bool) : (g.setQreg n x).dying = g.dying := rfl
@[simp] theorem Group.setQreg_pageWait (g : Group) (n : Nat) (x : Bool) : (g.setQreg n x).pageWait = g.pageWait := rfl
@[simp] theorem Group.setQreg_pageDue (g : Group) (n : Nat) (x : Bool) : (g.setQreg n x).pageDue = g.pageDue := rfl
@[simp] theorem Group.setQreg_ages (g : Group) (n : Nat) (x : Bool) : (g.setQreg n x).ages = g.ages := rfl
@[simp] theorem Group.setQreg_pending (g : Group) (n : Nat) (x : Bool) : (g.setQreg n x).pending = g.pending := rfl

/-! ## A base register written -/

@[simp] theorem Group.setBreg_grp (g : Group) (n : Nat) (x : BaseReg) : (g.setBreg n x).grp = g.grp := rfl
@[simp] theorem Group.setBreg_part (g : Group) (n : Nat) (x : BaseReg) : (g.setBreg n x).part = g.part := rfl
@[simp] theorem Group.setBreg_v (g : Group) (n : Nat) (x : BaseReg) : (g.setBreg n x).v = g.v := rfl
@[simp] theorem Group.setBreg_s (g : Group) (n : Nat) (x : BaseReg) : (g.setBreg n x).s = g.s := rfl
@[simp] theorem Group.setBreg_p (g : Group) (n : Nat) (x : BaseReg) : (g.setBreg n x).p = g.p := rfl
@[simp] theorem Group.setBreg_q (g : Group) (n : Nat) (x : BaseReg) : (g.setBreg n x).q = g.q := rfl
@[simp] theorem Group.setBreg_exited (g : Group) (n : Nat) (x : BaseReg) : (g.setBreg n x).exited = g.exited := rfl
@[simp] theorem Group.setBreg_splits (g : Group) (n : Nat) (x : BaseReg) : (g.setBreg n x).splits = g.splits := rfl
@[simp] theorem Group.setBreg_nextSid (g : Group) (n : Nat) (x : BaseReg) : (g.setBreg n x).nextSid = g.nextSid := rfl
@[simp] theorem Group.setBreg_tcode (g : Group) (n : Nat) (x : BaseReg) : (g.setBreg n x).tcode = g.tcode := rfl
@[simp] theorem Group.setBreg_tepc (g : Group) (n : Nat) (x : BaseReg) : (g.setBreg n x).tepc = g.tepc := rfl
@[simp] theorem Group.setBreg_taddr (g : Group) (n : Nat) (x : BaseReg) : (g.setBreg n x).taddr = g.taddr := rfl
@[simp] theorem Group.setBreg_tlane (g : Group) (n : Nat) (x : BaseReg) : (g.setBreg n x).tlane = g.tlane := rfl
@[simp] theorem Group.setBreg_trapSplit (g : Group) (n : Nat) (x : BaseReg) : (g.setBreg n x).trapSplit = g.trapSplit := rfl
@[simp] theorem Group.setBreg_trapMask (g : Group) (n : Nat) (x : BaseReg) : (g.setBreg n x).trapMask = g.trapMask := rfl
@[simp] theorem Group.setBreg_trapDepth (g : Group) (n : Nat) (x : BaseReg) : (g.setBreg n x).trapDepth = g.trapDepth := rfl
@[simp] theorem Group.setBreg_usync (g : Group) (n : Nat) (x : BaseReg) : (g.setBreg n x).usync = g.usync := rfl
@[simp] theorem Group.setBreg_triggered (g : Group) (n : Nat) (x : BaseReg) : (g.setBreg n x).triggered = g.triggered := rfl
@[simp] theorem Group.setBreg_dying (g : Group) (n : Nat) (x : BaseReg) : (g.setBreg n x).dying = g.dying := rfl
@[simp] theorem Group.setBreg_pageWait (g : Group) (n : Nat) (x : BaseReg) : (g.setBreg n x).pageWait = g.pageWait := rfl
@[simp] theorem Group.setBreg_pageDue (g : Group) (n : Nat) (x : BaseReg) : (g.setBreg n x).pageDue = g.pageDue := rfl
@[simp] theorem Group.setBreg_ages (g : Group) (n : Nat) (x : BaseReg) : (g.setBreg n x).ages = g.ages := rfl
@[simp] theorem Group.setBreg_pending (g : Group) (n : Nat) (x : BaseReg) : (g.setBreg n x).pending = g.pending := rfl

end Sys2Proof.Machine
end

