-- ==== Sys2Proof/Laws/Records.lean ====
section
/-!
SUPPORT. What is found after a record is changed: cores, slices, teams, groups and splits by their names, and virtual functions, grids,
graphs and requests. An update names the record it changes, and every other one is found as before.
-/
namespace Sys2Proof.Machine

/-! ## Lists of named records -/

/-- Where an update keeps the names, a named record is found changed, and any other unchanged. -/
theorem find?_updateIf {α : Type} (key : α → Nat) (n m : Nat) (f : α → α) (hf : ∀ x, key x = n → key (f x) = n) (l : List α) :
    (updateIf (fun x => key x == n) f l).find? (fun x => key x == m) =
      if m = n then (l.find? fun x => key x == m).map f else l.find? fun x => key x == m := by
  induction l with
  | nil => simp [updateIf]
  | cons x r ih =>
    have he : updateIf (fun x => key x == n) f (x :: r) =
        (if key x = n then f x else x) :: updateIf (fun x => key x == n) f r := by
      by_cases hx : key x = n <;> simp [updateIf, hx]
    rw [he, List.find?_cons, List.find?_cons, ih]
    by_cases hx : key x = n
    · by_cases hm : m = n
      · subst hm; simp [hx, hf x hx]
      · have h2 : (key x == m) = false := beq_eq_false_iff_ne.2 (hx ▸ fun h => hm h.symm)
        have h1 : (key (f x) == m) = false := beq_eq_false_iff_ne.2 ((hf x hx) ▸ fun h => hm h.symm)
        rw [if_pos hx, h1, h2]
    · by_cases hm : key x = m
      · have : ¬m = n := fun h => hx (hm.trans h)
        simp [hm, this]
      · rw [if_neg hx, beq_eq_false_iff_ne.2 hm]

/-! ## Cores and slices -/

@[simp] theorem State.modCore_core (s : State) (k : Nat) (f : Core → Core) : (s.modCore k f).core k = f (s.core k) := by
  simp [State.core, State.modCore]

theorem State.modCore_core_ne (s : State) {k j : Nat} (f : Core → Core) (h : j ≠ k) : (s.modCore k f).core j = s.core j := by
  simp [State.core, State.modCore, getKey_setKey_ne _ _ _ h]

theorem State.core_of_cores {s t : State} (h : t.cores = s.cores) (k : Nat) : t.core k = s.core k := by simp [State.core, h]

@[simp] theorem State.modSlice_slice (s : State) (n : Nat) (f : Slice → Slice) : (s.modSlice n f).slice n = f (s.slice n) := by
  simp [State.slice, State.modSlice]

theorem State.modSlice_slice_ne (s : State) {n m : Nat} (f : Slice → Slice) (h : m ≠ n) : (s.modSlice n f).slice m = s.slice m := by
  simp [State.slice, State.modSlice, getKey_setKey_ne _ _ _ h]

@[simp] theorem Slice.modSlot_slot (c : Slice) (n : Nat) (f : HingeSlot → HingeSlot) : (c.modSlot n f).slot n = f (c.slot n) := by
  simp [Slice.slot, Slice.modSlot]

theorem Slice.modSlot_slot_ne (c : Slice) {n m : Nat} (f : HingeSlot → HingeSlot) (h : m ≠ n) : (c.modSlot n f).slot m = c.slot m := by
  simp [Slice.slot, Slice.modSlot, getKey_setKey_ne _ _ _ h]

@[simp] theorem Core.modPart_part (c : Core) (n : Nat) (f : Partition → Partition) : (c.modPart n f).part n = f (c.part n) := by
  simp [Core.part, Core.modPart]

/-! ## Teams, groups and splits -/

theorem Core.modTeam_team? (c : Core) (n m : Nat) (f : Team → Team) (hf : ∀ t, t.id = n → (f t).id = n) :
    (c.modTeam n f).team? m = if m = n then (c.team? m).map f else c.team? m :=
  find?_updateIf Team.id n m f hf c.teams

theorem Team.modGroup_group? (t : Team) (n m : Nat) (f : Group → Group) (hf : ∀ g, g.grp = n → (f g).grp = n) :
    (t.modGroup n f).group? m = if m = n then (t.group? m).map f else t.group? m :=
  find?_updateIf Group.grp n m f hf t.groups

theorem Group.modSplit_split? (g : Group) (n m : Nat) (f : Split → Split) (hf : ∀ p, p.sid = n → (f p).sid = n) :
    (g.modSplit n f).split? m = if m = n then (g.split? m).map f else g.split? m :=
  find?_updateIf Split.sid n m f hf g.splits

theorem Core.team?_of_teams {c d : Core} (h : d.teams = c.teams) (n : Nat) : d.team? n = c.team? n := by simp [Core.team?, h]

@[simp] theorem Core.modPart_team? (c : Core) (p : Nat) (f : Partition → Partition) (n : Nat) : (c.modPart p f).team? n = c.team? n := rfl

theorem State.team?_of_cores {s t : State} (h : t.cores = s.cores) (k n : Nat) : t.team? k n = s.team? k n := by
  simp [State.team?, State.core_of_cores h]

theorem State.group?_of_cores {s t : State} (h : t.cores = s.cores) (r : SplitRef) : t.group? r = s.group? r := by
  simp [State.group?, State.team?_of_cores h]

theorem State.split?_of_cores {s t : State} (h : t.cores = s.cores) (r : SplitRef) : t.split? r = s.split? r := by
  simp [State.split?, State.group?_of_cores h]

/-- A change of a core that leaves its teams alone is not seen by a lookup. -/
theorem State.modCore_team? (s : State) (k j n : Nat) (f : Core → Core) (hf : (f (s.core k)).teams = (s.core k).teams) :
    (s.modCore k f).team? j n = s.team? j n := by
  by_cases h : j = k
  · subst h; simp [State.team?, Core.team?, hf]
  · simp [State.team?, State.modCore_core_ne s f h]

theorem State.modCore_group? (s : State) (k : Nat) (r : SplitRef) (f : Core → Core) (hf : (f (s.core k)).teams = (s.core k).teams) :
    (s.modCore k f).group? r = s.group? r := by simp [State.group?, State.modCore_team? s k _ _ f hf]

theorem State.modCore_split? (s : State) (k : Nat) (r : SplitRef) (f : Core → Core) (hf : (f (s.core k)).teams = (s.core k).teams) :
    (s.modCore k f).split? r = s.split? r := by simp [State.split?, State.modCore_group? s k r f hf]

theorem State.modTeam_team? (s : State) (k n j m : Nat) (f : Team → Team) (hf : ∀ t, t.id = n → (f t).id = n) :
    (s.modTeam k n f).team? j m = if j = k ∧ m = n then (s.team? j m).map f else s.team? j m := by
  by_cases h : j = k
  · subst h
    simp [State.team?, State.modTeam, Core.modTeam_team? _ _ _ _ hf]
  · simp [State.team?, State.modTeam, State.modCore_core_ne s _ h, h]

@[simp] theorem State.modTeam_team?_self (s : State) (k n : Nat) (f : Team → Team) (hf : ∀ t, t.id = n → (f t).id = n) :
    (s.modTeam k n f).team? k n = (s.team? k n).map f := by simp [State.modTeam_team? s k n k n f hf]

theorem State.modGroup_group?_self (s : State) (r : SplitRef) (f : Group → Group) (hf : ∀ g, g.grp = r.grp → (f g).grp = r.grp) :
    (s.modGroup r f).group? r = (s.group? r).map f := by
  simp only [State.group?, State.modGroup]
  rw [State.modTeam_team?_self s r.core r.team (fun t => t.modGroup r.grp f) fun _ h => h]
  cases s.team? r.core r.team with
  | none => rfl
  | some t => simp [Team.modGroup_group? t r.grp r.grp f hf]

theorem State.modGroup_group?_ne (s : State) {r q : SplitRef} (f : Group → Group) (hf : ∀ g, g.grp = r.grp → (f g).grp = r.grp)
    (h : (q.core, q.team, q.grp) ≠ (r.core, r.team, r.grp)) : (s.modGroup r f).group? q = s.group? q := by
  simp only [State.group?, State.modGroup]
  rw [State.modTeam_team? s r.core r.team q.core q.team (fun t => t.modGroup r.grp f) fun _ h => h]
  by_cases hk : q.core = r.core ∧ q.team = r.team
  · rw [if_pos hk]
    have hg : q.grp ≠ r.grp := fun hg => h (by rw [hk.1, hk.2, hg])
    cases s.team? q.core q.team with
    | none => rfl
    | some t => simp [Team.modGroup_group? t r.grp q.grp f hf, hg]
  · rw [if_neg hk]

/-- The team of a changed group is the same team with that group changed. -/
theorem State.modGroup_team? (s : State) (r : SplitRef) (f : Group → Group) :
    (s.modGroup r f).team? r.core r.team = (s.team? r.core r.team).map fun t => t.modGroup r.grp f :=
  State.modTeam_team?_self s r.core r.team (fun t => t.modGroup r.grp f) fun _ h => h

theorem State.modSplit_group? (s : State) (r : SplitRef) (f : Split → Split) :
    (s.modSplit r f).group? r = (s.group? r).map fun g => g.modSplit r.split f :=
  State.modGroup_group?_self s r (fun g => g.modSplit r.split f) fun _ h => h

theorem State.modSplit_split?_self (s : State) (r : SplitRef) (f : Split → Split) (hf : ∀ p, p.sid = r.split → (f p).sid = r.split) :
    (s.modSplit r f).split? r = (s.split? r).map f := by
  simp only [State.split?, State.modSplit_group?]
  cases s.group? r with
  | none => rfl
  | some g => simp [Group.modSplit_split? g r.split r.split f hf]

theorem State.modSplit_split?_other (s : State) (r : SplitRef) (n : Nat) (f : Split → Split) (hf : ∀ p, p.sid = r.split → (f p).sid = r.split)
    (h : n ≠ r.split) : (s.modSplit r f).split? (r.other n) = s.split? (r.other n) := by
  have h1 : (s.modSplit r f).group? (r.other n) = (s.group? (r.other n)).map fun g => g.modSplit r.split f := State.modSplit_group? s r f
  simp only [State.split?, h1]
  cases hg : s.group? (r.other n) with
  | none => rfl
  | some g =>
    simp only [Option.map_some, Option.bind_some]
    rw [Group.modSplit_split? g r.split _ f hf]
    exact if_neg h

/-! ## Virtual functions, grids, graphs, requests -/

theorem State.modVf_vf? (s : State) (n m : Nat) (f : Vf → Vf) (hf : ∀ v, v.cfg.id = n → (f v).cfg.id = n) :
    (s.modVf n f).vf? m = if m = n then (s.vf? m).map f else s.vf? m :=
  find?_updateIf (fun v : Vf => v.cfg.id) n m f hf s.vfs

theorem State.modGrid_grid? (s : State) (n m : Nat) (f : Grid → Grid) (hf : ∀ g, g.id = n → (f g).id = n) :
    (s.modGrid n f).grid? m = if m = n then (s.grid? m).map f else s.grid? m :=
  find?_updateIf Grid.id n m f hf s.grids

theorem State.modGraph_graph? (s : State) (n m : Nat) (f : Graph → Graph) (hf : ∀ g, g.id = n → (f g).id = n) :
    (s.modGraph n f).graph? m = if m = n then (s.graph? m).map f else s.graph? m :=
  find?_updateIf Graph.id n m f hf s.graphs

theorem State.modReq_req? (s : State) (n m : Nat) (f : Req → Req) (hf : ∀ q, q.id = n → (f q).id = n) :
    (s.modReq n f).req? m = if m = n then (s.req? m).map f else s.req? m :=
  find?_updateIf Req.id n m f hf s.reqs

theorem State.vf?_of_vfs {s t : State} (h : t.vfs = s.vfs) (n : Nat) : t.vf? n = s.vf? n := by simp [State.vf?, h]
theorem State.grid?_of_grids {s t : State} (h : t.grids = s.grids) (n : Nat) : t.grid? n = s.grid? n := by simp [State.grid?, h]

/-- A record found by its name has that name. -/
theorem Core.team?_id {c : Core} {n : Nat} {t : Team} (h : c.team? n = some t) : t.id = n := by
  simpa using List.find?_some h
theorem Team.group?_grp {t : Team} {n : Nat} {g : Group} (h : t.group? n = some g) : g.grp = n := by
  simpa using List.find?_some h
theorem Group.split?_sid {g : Group} {n : Nat} {p : Split} (h : g.split? n = some p) : p.sid = n := by
  simpa using List.find?_some h
theorem State.vf?_id {s : State} {n : Nat} {v : Vf} (h : s.vf? n = some v) : v.cfg.id = n := by
  simpa using List.find?_some h
theorem State.grid?_id {s : State} {n : Nat} {g : Grid} (h : s.grid? n = some g) : g.id = n := by
  simpa using List.find?_some h

end Sys2Proof.Machine
end

