-- ==== Sys2Proof/Laws/Registers.lean ====
section
/-!
SUPPORT. Lane masks and the registers of a group: a write is read back in the lanes it names (06 R83, R84, R88), everything else keeps its value;
and what a destination receives, said once (11 R158, R160).
-/
namespace Sys2Proof.Machine

/-! ## Masks -/

theorem sum_pow_testBit (f : Nat → Bool) (n i : Nat) :
    ((List.range n).foldl (fun a l => a + if f l then 2 ^ l else 0) 0).testBit i = (decide (i < n) && f i) ∧
      (List.range n).foldl (fun a l => a + if f l then 2 ^ l else 0) 0 < 2 ^ n := by
  induction n with
  | zero => simp
  | succ n ih =>
    simp only [List.range_succ, List.foldl_append, List.foldl_cons, List.foldl_nil]
    obtain ⟨h1, h2⟩ := ih
    generalize (List.range n).foldl (fun a l => a + if f l then 2 ^ l else 0) 0 = a at h1 h2
    constructor
    · cases hf : f n
      · simp only [Bool.false_eq_true, if_false, Nat.add_zero, h1]
        by_cases hi : i = n
        · subst hi; simp [hf]
        · have : (i < n + 1) = (i < n) := by simp only [eq_iff_iff]; omega
          simp [this]
      · simp only [if_true]
        rw [Nat.add_comm, show (2 : Nat) ^ n = 2 ^ n * 1 by simp]
        by_cases hi : i < n
        · rw [Nat.testBit_two_pow_mul_add 1 h2, if_pos hi, h1]
          simp [hi, Nat.lt_succ_of_lt hi]
        · rw [Nat.testBit_two_pow_mul_add 1 h2, if_neg hi]
          by_cases he : i = n
          · subst he; simp [hf]
          · have h3 : ¬i < n + 1 := by omega
            obtain ⟨j, hj⟩ : ∃ j, i - n = j + 1 := ⟨i - n - 1, by omega⟩
            simp [h3, hj, Nat.testBit_succ]
    · rw [Nat.pow_succ]; split <;> omega

@[simp] theorem laneIn_maskOf (f : Nat → Bool) (l : Nat) (h : l < 32) : laneIn (maskOf f) l = f l := by
  have := (sum_pow_testBit f 32 l).1
  simp only [laneIn, maskOf, lanes, BitVec.getLsbD_ofNat]
  rw [this]; simp [h]

theorem laneIn_maskOf_ge (f : Nat → Bool) (l : Nat) (h : 32 ≤ l) : laneIn (maskOf f) l = false := by
  simp [laneIn, maskOf, BitVec.getLsbD_ofNat, Nat.not_lt.2 h]

theorem mem_lanesOf (m : Mask) (l : Nat) : l ∈ lanesOf m ↔ l < 32 ∧ laneIn m l = true := by simp [lanesOf, lanes]

theorem laneIn_allLanes (l : Nat) (h : l < 32) : laneIn allLanes l = true := by
  have : ∀ l : Fin 32, laneIn allLanes l.val = true := by decide
  exact this ⟨l, h⟩

/-! ## Registers -/

theorem Group.setVec_vlane (g : Group) (n m l : Nat) (x : Mask) (f : Nat → Word) :
    (g.setVec n x f).vlane m l = if m = n ∧ l < 32 ∧ laneIn x l then f l else if m = n ∧ ¬l < 32 then 0 else g.vlane m l := by
  by_cases h : m = n
  · subst h
    by_cases hl : l < 32
    · have e : (lanes.map fun l => if laneIn x l then f l else (g.vec m).getD l 0).getD l 0 =
          if laneIn x l then f l else (g.vec m).getD l 0 := by
        simp [lanes, List.getD, hl]
      simp only [Group.vlane, Group.vec, Group.setVec, getKey_setKey_self, hl, not_true_eq_false, true_and, and_false, if_false]
      exact e
    · simp [Group.vlane, Group.vec, Group.setVec, lanes, hl, List.getD]
  · simp [Group.vlane, Group.vec, Group.setVec, getKey_setKey_ne _ _ _ h, h]

theorem Group.setVec_vlane_ne (g : Group) {n m : Nat} (l : Nat) (x : Mask) (f : Nat → Word) (h : m ≠ n) :
    (g.setVec n x f).vlane m l = g.vlane m l := by simp [Group.setVec_vlane, h]

theorem Group.setSreg_sreg (g : Group) (n m : Nat) (x : Word) : (g.setSreg n x).sreg m = if m = n then x else g.sreg m := by
  simp [Group.sreg, Group.setSreg, getKey_setKey]

theorem Group.setPreg_lane (g : Group) (n m : Nat) (x : Mask) (f : Nat → Bool) (l : Nat) (hl : l < 32) :
    laneIn ((g.setPreg n x f).preg m) l = if m = n then (if laneIn x l then f l else laneIn (g.preg n) l) else laneIn (g.preg m) l := by
  by_cases h : m = n
  · subst h
    simp only [Group.preg, Group.setPreg, getKey_setKey_self, if_true]
    exact laneIn_maskOf _ l hl
  · simp [Group.preg, Group.setPreg, getKey_setKey_ne _ _ _ h, h]

theorem Group.setPreg_ne (g : Group) {n m : Nat} (x : Mask) (f : Nat → Bool) (h : m ≠ n) : (g.setPreg n x f).preg m = g.preg m := by
  simp [Group.preg, Group.setPreg, getKey_setKey_ne _ _ _ h]

theorem Group.setQreg_qreg (g : Group) (n m : Nat) (x : Bool) :
    (g.setQreg n x).qreg m = (m == 7 || if m = n then x else getKey false g.q m) := by
  simp [Group.qreg, Group.setQreg, getKey_setKey]

@[simp] theorem Group.qreg_7 (g : Group) : g.qreg 7 = true := rfl

theorem Group.setBreg_breg (g : Group) (n m : Nat) (x : BaseReg) : (g.setBreg n x).breg m = if m = n then x else g.breg m := by
  simp [Group.breg, Group.setBreg, getKey_setKey]

/-! ## Destinations -/

@[simp] theorem Group.note_v (g : Group) (n : Nat) (r : Reg) : (g.note n r).v = g.v := by unfold Group.note; split <;> rfl
@[simp] theorem Group.note_s (g : Group) (n : Nat) (r : Reg) : (g.note n r).s = g.s := by unfold Group.note; split <;> rfl
@[simp] theorem Group.note_p (g : Group) (n : Nat) (r : Reg) : (g.note n r).p = g.p := by unfold Group.note; split <;> rfl
@[simp] theorem Group.note_q (g : Group) (n : Nat) (r : Reg) : (g.note n r).q = g.q := by unfold Group.note; split <;> rfl
@[simp] theorem Group.note_b (g : Group) (n : Nat) (r : Reg) : (g.note n r).b = g.b := by unfold Group.note; split <;> rfl

/-- What a group keeps whatever destination is written: its place, its splits, its exit set and its trap registers. -/
structure Group.SameFrame (g h : Group) : Prop where
  grp : h.grp = g.grp
  part : h.part = g.part
  b : h.b = g.b
  exited : h.exited = g.exited
  splits : h.splits = g.splits
  nextSid : h.nextSid = g.nextSid
  tcode : h.tcode = g.tcode
  tepc : h.tepc = g.tepc
  taddr : h.taddr = g.taddr
  tlane : h.tlane = g.tlane
  trapSplit : h.trapSplit = g.trapSplit
  trapMask : h.trapMask = g.trapMask
  trapDepth : h.trapDepth = g.trapDepth
  triggered : h.triggered = g.triggered
  dying : h.dying = g.dying
  pageWait : h.pageWait = g.pageWait
  pending : h.pending = g.pending

theorem Group.SameFrame.refl (g : Group) : g.SameFrame g := by constructor <;> rfl

theorem Group.SameFrame.trans {g h k : Group} (a : g.SameFrame h) (b : h.SameFrame k) : g.SameFrame k := by
  constructor <;> first
    | exact b.grp.trans a.grp | exact b.part.trans a.part | exact b.b.trans a.b | exact b.exited.trans a.exited
    | exact b.splits.trans a.splits | exact b.nextSid.trans a.nextSid | exact b.tcode.trans a.tcode | exact b.tepc.trans a.tepc
    | exact b.taddr.trans a.taddr | exact b.tlane.trans a.tlane | exact b.trapSplit.trans a.trapSplit
    | exact b.trapMask.trans a.trapMask | exact b.trapDepth.trans a.trapDepth | exact b.triggered.trans a.triggered
    | exact b.dying.trans a.dying | exact b.pageWait.trans a.pageWait | exact b.pending.trans a.pending

theorem Group.setVec_same (g : Group) (n : Nat) (x : Mask) (f : Nat → Word) : g.SameFrame (g.setVec n x f) := by constructor <;> rfl
theorem Group.setPreg_same (g : Group) (n : Nat) (x : Mask) (f : Nat → Bool) : g.SameFrame (g.setPreg n x f) := by constructor <;> rfl
theorem Group.note_same (g : Group) (n : Nat) (r : Reg) : g.SameFrame (g.note n r) := by
  unfold Group.note; split <;> constructor <;> rfl
theorem Group.putS_same (g : Group) (sid n v : Nat) : g.SameFrame (g.putS sid n v) :=
  (g.note_same sid (.s n)).trans (by constructor <;> rfl)
theorem Group.putQ_same (g : Group) (sid n : Nat) (v : Bool) : g.SameFrame (g.putQ sid n v) :=
  (g.note_same sid (.q n)).trans (by constructor <;> rfl)

/-- A fold of writes keeps what each write keeps. -/
theorem foldl_rel {α β : Type} {R : α → α → Prop} (hr : ∀ a, R a a) (ht : ∀ {a b c}, R a b → R b c → R a c) (f : α → β → α)
    (hf : ∀ a x, R a (f a x)) (l : List β) (a : α) : R a (l.foldl f a) := by
  induction l generalizing a with
  | nil => exact hr a
  | cons x r ih => exact ht (hf a x) (ih _)

theorem Group.put_same (g : Group) (sid : Nat) (x : Mask) (d : Operand) (n : Nat) (f : Nat → Nat) : g.SameFrame (g.put sid x d n f) := by
  unfold Group.put
  split
  · exact foldl_rel SameFrame.refl SameFrame.trans _ (fun g i => g.setVec_same _ x _) _ g
  · split
    · exact .refl g
    · exact foldl_rel SameFrame.refl SameFrame.trans _ (fun g i => g.putS_same _ _ _) _ g
  · split
    · exact g.setPreg_same _ _ _
    · split
      · split
        · exact .refl g
        · exact g.putQ_same _ _ _
      · exact .refl g
  · exact .refl g

/-- A vector destination: `n` registers, each written in the executing lanes. -/
theorem Group.put_vec (g : Group) (sid : Nat) (x : Mask) (k : BitVec 8) (n : Nat) (f : Nat → Nat) (m l : Nat) (hl : l < 32) :
    (g.put sid x (.vec k) n f).vlane m l =
      if k.toNat ≤ m ∧ m < k.toNat + n ∧ laneIn x l then BitVec.ofNat 32 (f l / 2 ^ (32 * (m - k.toNat))) else g.vlane m l := by
  simp only [Group.put]
  induction n with
  | zero => simp only [List.range_zero, List.foldl_nil]; rw [if_neg (by omega)]
  | succ n ih =>
    rw [List.range_succ, List.foldl_append, List.foldl_cons, List.foldl_nil, Group.setVec_vlane]
    by_cases h : m = k.toNat + n
    · subst h
      by_cases hx : laneIn x l
      · simp [hx, hl]
      · simp only [hx, Bool.false_eq_true, and_false, if_false, hl, not_true_eq_false]
        rw [ih]; simp [hx]
    · simp only [h, false_and, if_false]
      rw [ih]
      have : (k.toNat ≤ m ∧ m < k.toNat + (n + 1) ∧ laneIn x l = true) = (k.toNat ≤ m ∧ m < k.toNat + n ∧ laneIn x l = true) := by
        simp only [eq_iff_iff]; constructor <;> rintro ⟨a, b, c⟩ <;> exact ⟨a, by omega, c⟩
      simp only [this]

theorem Group.put_vec_other (g : Group) (sid : Nat) (x : Mask) (k : BitVec 8) (n : Nat) (f : Nat → Nat) :
    (g.put sid x (.vec k) n f).s = g.s ∧ (g.put sid x (.vec k) n f).p = g.p ∧ (g.put sid x (.vec k) n f).q = g.q := by
  simp only [Group.put]
  exact foldl_rel (R := fun a b : Group => b.s = a.s ∧ b.p = a.p ∧ b.q = a.q) (fun _ => ⟨rfl, rfl, rfl⟩)
    (fun a b => ⟨b.1.trans a.1, b.2.1.trans a.2.1, b.2.2.trans a.2.2⟩)
    (fun g i => g.setVec (k.toNat + i) x fun l => BitVec.ofNat 32 (f l / 2 ^ (32 * i))) (fun _ _ => ⟨rfl, rfl, rfl⟩) _ g

theorem Group.putS_sreg (g : Group) (sid n v m : Nat) : (g.putS sid n v).sreg m = if m = n then BitVec.ofNat 32 v else g.sreg m := by
  rw [Group.putS, Group.setSreg_sreg]; simp [Group.sreg]

/-- A scalar destination is written once, when at least one lane executes. -/
theorem Group.put_sca (g : Group) (sid : Nat) (x : Mask) (k : BitVec 8) (n : Nat) (f : Nat → Nat) (m : Nat) :
    (g.put sid x (.sca k) n f).sreg m =
      if x ≠ 0 ∧ k.toNat ≤ m ∧ m < k.toNat + n then BitVec.ofNat 32 (f 0 / 2 ^ (32 * (m - k.toNat))) else g.sreg m := by
  simp only [Group.put]
  by_cases hx : x = 0
  · simp [hx]
  · simp only [hx, if_false, ne_eq, not_false_eq_true, true_and]
    induction n with
    | zero => simp only [List.range_zero, List.foldl_nil]; rw [if_neg (by omega)]
    | succ n ih =>
      rw [List.range_succ, List.foldl_append, List.foldl_cons, List.foldl_nil, Group.putS_sreg]
      by_cases h : m = k.toNat + n
      · subst h; simp
      · simp only [h, if_false]
        rw [ih]
        have : (k.toNat ≤ m ∧ m < k.toNat + (n + 1)) = (k.toNat ≤ m ∧ m < k.toNat + n) := by
          simp only [eq_iff_iff]; constructor <;> rintro ⟨a, b⟩ <;> exact ⟨a, by omega⟩
        simp only [this]

theorem Group.put_sca_other (g : Group) (sid : Nat) (x : Mask) (k : BitVec 8) (n : Nat) (f : Nat → Nat) :
    (g.put sid x (.sca k) n f).v = g.v ∧ (g.put sid x (.sca k) n f).p = g.p ∧ (g.put sid x (.sca k) n f).q = g.q := by
  simp only [Group.put]
  split
  · exact ⟨rfl, rfl, rfl⟩
  · exact foldl_rel (R := fun a b : Group => b.v = a.v ∧ b.p = a.p ∧ b.q = a.q) (fun _ => ⟨rfl, rfl, rfl⟩)
      (fun a b => ⟨b.1.trans a.1, b.2.1.trans a.2.1, b.2.2.trans a.2.2⟩) _
      (fun g i => ⟨by simp [Group.putS], by simp [Group.putS], by simp [Group.putS]⟩) _ g

/-- The group of the instruction receives the destination; every other group, and everything but the cores, is as before. -/
theorem Ctx.put_group? (c : Ctx) (n : Nat) (f : Nat → Nat) :
    (c.put n f).group? c.r = (c.s.group? c.r).map fun g => g.put c.r.split c.x c.o.d n f :=
  State.modGroup_group?_self _ _ _ fun g h => (Group.put_same g _ _ _ _ _).grp.trans h

theorem Ctx.put_group?_ne (c : Ctx) (n : Nat) (f : Nat → Nat) {r : SplitRef} (h : (r.core, r.team, r.grp) ≠ (c.r.core, c.r.team, c.r.grp)) :
    (c.put n f).group? r = c.s.group? r :=
  State.modGroup_group?_ne _ _ (fun g h => (Group.put_same g _ _ _ _ _).grp.trans h) h

end Sys2Proof.Machine
end

