-- ==== Sys2Proof/Laws/RunEnds.lean ====
section
/-!
SUPPORT. What the end of a run can do, said once (09 R145, 12 R195, 18 R283 to R288): splits, groups and teams end, faults are taken, events are
posted; the package's memory, the slices and device time stay, messages keep their places, and the host's memory keeps its form.
-/
namespace Sys2Proof.Machine

/-- What the end of a run leaves alone. -/
structure State.Keeps (s t : State) : Prop where
  dram : t.dram = s.dram
  slices : t.slices = s.slices
  time : t.time = s.time
  skew : t.skew = s.skew
  service : t.service = s.service
  dies : t.dies = s.dies
  devNumber : t.devNumber = s.devNumber
  graphs : t.graphs = s.graphs
  msgs : t.msgs.map (·.id) = s.msgs.map (·.id)
  replicaMsgs : t.replicaMsgs = s.replicaMsgs
  fresh : t.fresh = s.fresh
  nextId : s.nextId ≤ t.nextId
  agenda : t.agenda = s.agenda
  hostOk : s.host.wf = true → t.host.wf = true

theorem State.Keeps.refl (s : State) : s.Keeps s := by constructor <;> first | rfl | exact id | exact Nat.le_refl _

theorem State.Keeps.trans {s t u : State} (a : s.Keeps t) (b : t.Keeps u) : s.Keeps u where
  dram := b.dram.trans a.dram
  slices := b.slices.trans a.slices
  time := b.time.trans a.time
  skew := b.skew.trans a.skew
  service := b.service.trans a.service
  dies := b.dies.trans a.dies
  devNumber := b.devNumber.trans a.devNumber
  graphs := b.graphs.trans a.graphs
  msgs := b.msgs.trans a.msgs
  replicaMsgs := b.replicaMsgs.trans a.replicaMsgs
  fresh := b.fresh.trans a.fresh
  nextId := Nat.le_trans a.nextId b.nextId
  agenda := b.agenda.trans a.agenda
  hostOk := fun h => b.hostOk (a.hostOk h)

/-! ## The plain updates -/

theorem State.Keeps.modCore {s t : State} (h : s.Keeps t) (k : Nat) (f : Core → Core) : s.Keeps (t.modCore k f) :=
  h.trans (by constructor <;> first | rfl | exact id | exact Nat.le_refl _)
theorem State.Keeps.modTeam {s t : State} (h : s.Keeps t) (k n : Nat) (f : Team → Team) : s.Keeps (t.modTeam k n f) := h.modCore _ _
theorem State.Keeps.modGroup {s t : State} (h : s.Keeps t) (r : SplitRef) (f : Group → Group) : s.Keeps (t.modGroup r f) := h.modTeam _ _ _
theorem State.Keeps.modSplit {s t : State} (h : s.Keeps t) (r : SplitRef) (f : Split → Split) : s.Keeps (t.modSplit r f) := h.modGroup _ _
theorem State.Keeps.modVf {s t : State} (h : s.Keeps t) (n : Nat) (f : Vf → Vf) : s.Keeps (t.modVf n f) :=
  h.trans (by constructor <;> first | rfl | exact id | exact Nat.le_refl _)
theorem State.Keeps.reqs {s t : State} (h : s.Keeps t) (l : List Req) : s.Keeps { t with reqs := l } :=
  h.trans (by constructor <;> first | rfl | exact id | exact Nat.le_refl _)
theorem State.Keeps.modGrid {s t : State} (h : s.Keeps t) (n : Nat) (f : Grid → Grid) : s.Keeps (t.modGrid n f) :=
  h.trans (by constructor <;> first | rfl | exact id | exact Nat.le_refl _)

theorem State.Keeps.signals {s t : State} (h : s.Keeps t) (l : List Signal) : s.Keeps { t with signals := l } :=
  h.trans (by constructor <;> first | rfl | exact id | exact Nat.le_refl _)

/-- Bytes written to the host's memory leave its form (log entry 3). -/
theorem State.Keeps.writeHost {s t : State} (h : s.Keeps t) (vf a : Nat) (b : List Byte) : s.Keeps (t.writeHost vf a b) :=
  h.trans (by constructor <;> first | rfl | exact Nat.le_refl _ | exact fun h => Memory.wf_writeAll _ h)

/-- A control block kept by the device and mirrored in the host's memory (R73, R287). -/
theorem State.Keeps.keepRing {s t : State} (h : s.Keeps t) (n : RingName) (r : Ring) : s.Keeps (t.keepRing n r) :=
  h.trans (by cases n <;> (constructor <;> first | rfl | exact id | exact Nat.le_refl _))

theorem State.Keeps.setRing {s t : State} (h : s.Keeps t) (n : RingName) (r : Ring) : s.Keeps (t.setRing n r) := by
  unfold State.setRing
  dsimp only
  split
  · exact h.keepRing n r
  · exact (h.keepRing n r).writeHost _ _ _

/-- Posting an event writes the host's memory alone, and in its form (R287). -/
theorem State.Keeps.postTo {s t : State} (h : s.Keeps t) (n : RingName) (w : Nat) : s.Keeps (t.postTo n w) := by
  unfold State.postTo
  split
  · exact h
  · split
    · exact (h.writeHost _ _ _).setRing _ _
    · exact h.setRing _ _

theorem State.Keeps.post {s t : State} (h : s.Keeps t) (e : Event) : s.Keeps (t.post e) := by
  unfold State.post
  split
  · exact (h.postTo _ _).signals _
  · exact h.postTo _ _

/-! ## Ends -/

theorem State.Keeps.endTeam {s t : State} (h : s.Keeps t) (k : Nat) (u : Team) : s.Keeps (t.endTeam k u) := by
  unfold State.endTeam
  try dsimp only
  repeat' split
  all_goals
    first
      | exact h
      | exact (h.modCore _ _).modTeam _ _ _
      | exact h.modCore _ _

theorem State.Keeps.checkTeam {s t : State} (h : s.Keeps t) (k n : Nat) : s.Keeps (t.checkTeam k n) := by
  unfold State.checkTeam
  try dsimp only
  repeat' split
  all_goals
    first
      | exact h
      | exact h.endTeam _ _

theorem State.Keeps.foldl {β : Type} {s t : State} (h : s.Keeps t) (f : State → β → State) (hf : ∀ u x, State.Keeps u (f u x)) (l : List β) :
    s.Keeps (l.foldl f t) := h.trans (foldl_rel State.Keeps.refl State.Keeps.trans f hf l t)

theorem State.Keeps.checkCluBarrier {s t : State} (h : s.Keeps t) (g c i : Nat) : s.Keeps (t.checkCluBarrier g c i) := by
  unfold State.checkCluBarrier
  try dsimp only
  repeat' split
  all_goals
    first
      | exact h
      | exact (h.foldl _ (fun u _ => (State.Keeps.refl u).modTeam _ _ _) _).modTeam _ _ _
      | exact h.modTeam _ _ _

theorem State.Keeps.checkBarriers {s t : State} (h : s.Keeps t) (k n : Nat) : s.Keeps (t.checkBarriers k n) := by
  unfold State.checkBarriers
  try dsimp only
  repeat' split
  all_goals
    first
      | exact h
      | exact (h.modTeam _ _ _).foldl _ (fun u _ => (State.Keeps.refl u).checkCluBarrier _ _ _) _

theorem State.Keeps.forgetArrivals {s t : State} (h : s.Keeps t) (k : Nat) (u : Team) (n : Nat) : s.Keeps (t.forgetArrivals k u n) :=
  (h.modTeam _ _ _).foldl _ (fun w _ => (State.Keeps.refl w).modTeam _ _ _) _

/-- What is in flight goes to other owners: its names stay. -/
theorem State.Keeps.reown {s t : State} (h : s.Keeps t) (k : Nat) (f : SplitRef → SplitRef) : s.Keeps (t.reown k f) := by
  unfold State.reown
  refine State.Keeps.modCore (h.trans ?_) _ _
  constructor <;> first | rfl | exact id | exact Nat.le_refl _ | simp

theorem State.Keeps.orphan {s t : State} (h : s.Keeps t) (r : SplitRef) : s.Keeps (t.orphan r) :=
  State.Keeps.reown (h.trans (by constructor <;> first | rfl | exact id | exact Nat.le_succ _)) _ _

theorem State.Keeps.endGroup {s t : State} (h : s.Keeps t) (r : SplitRef) : s.Keeps (t.endGroup r) := by
  unfold State.endGroup
  cases t.team? r.core r.team with
  | none => exact h
  | some u =>
    dsimp only
    refine State.Keeps.checkTeam (State.Keeps.checkBarriers ?_ _ _) _ _
    refine State.Keeps.orphan ?_ _
    split
    · exact ((h.modTeam _ _ _).modCore _ _).forgetArrivals _ _ _
    · exact (((h.modTeam _ _ _).modCore _ _).forgetArrivals _ _ _).modGrid _ _

theorem keeps_endSplitFuel (n : Nat) {s t : State} (h : s.Keeps t) (r : SplitRef) : s.Keeps (endSplitFuel n t r) := by
  induction n generalizing s t r with
  | zero => exact h
  | succ n ih =>
    unfold endSplitFuel
    cases t.group? r with
    | none => exact h
    | some g =>
      have hf : ∀ (u : State) (a : Nat), u.Keeps (match u.split? (r.other a) with
          | none => u
          | some p =>
            if p.mask = 0 then
              match unwindFrames g.exited p.frames with
              | none => endSplitFuel n u (r.other a)
              | some (fr, m, pc) => u.modSplit (r.other a) fun p => { p with frames := fr, mask := m, pc := pc, unwound := m == 0 }
            else u) := by
        intro u a
        repeat' split
        all_goals
          first
            | exact .refl u
            | exact ih (.refl u) _
            | exact (State.Keeps.refl u).modSplit _ _
      have h1 := ((h.modGroup r fun g' => g'.loseSplit r.split ((g.splits.filter (Split.widowed r.split)).map (·.sid))).modCore r.core fun c =>
        c.modPart g.part fun p => { p with order := p.order.filter fun o => o != (r.team, r.grp, r.split) }).foldl _ hf
          ((g.splits.filter (Split.widowed r.split)).map (·.sid))
      dsimp only at h1 ⊢
      split
      · exact h1
      · split
        · exact h1.endGroup r
        · exact h1.checkBarriers _ _

theorem State.Keeps.endSplit {s t : State} (h : s.Keeps t) (r : SplitRef) : s.Keeps (t.endSplit r) := keeps_endSplitFuel 4 h r

theorem State.Keeps.unwind {s t : State} (h : s.Keeps t) (r : SplitRef) : s.Keeps (t.unwind r) := by
  unfold State.unwind
  try dsimp only
  repeat' split
  all_goals
    first
      | exact h
      | exact h.modSplit _ _
      | exact h.endSplit _

theorem State.Keeps.inherit {s t : State} (h : s.Keeps t) (k : SplitRef) (a b : Nat) : s.Keeps (t.inherit k a b) := by
  exact h.reown _ _

theorem State.Keeps.tryMerge {s t : State} (h : s.Keeps t) (r : SplitRef) : s.Keeps (t.tryMerge r) := by
  unfold State.tryMerge
  try dsimp only
  repeat' split
  all_goals
    first
      | exact h
      | exact (h.modSplit _ _).unwind _
      | exact ((((h.modGroup _ _).modCore _ _).inherit _ _ _).unwind _).checkBarriers _ _

/-! ## Faults -/

theorem State.Keeps.killGroup {s t : State} (h : s.Keeps t) (r : SplitRef) : s.Keeps (t.killGroup r) := by
  unfold State.killGroup
  cases t.group? r with
  | none => exact h
  | some g =>
    refine (h.modGroup r _).foldl _ (fun u n => ?_) _
    split
    · exact (State.Keeps.refl u).endSplit _
    · exact .refl u

theorem State.Keeps.enterFault {s t : State} (h : s.Keeps t) (r : SplitRef) (f : FaultRec) : s.Keeps (t.enterFault r f) := by
  unfold State.enterFault
  try dsimp only
  repeat' split
  all_goals
    first
      | exact h
      | exact (h.modGroup _ _).endSplit _
      | exact h.modGroup _ _
      | exact (h.post _).killGroup _

theorem State.Keeps.writeFault {s t : State} (h : s.Keeps t) (v : Vf) (w : FaultWait) : s.Keeps (t.writeFault v w) :=
  (h.writeHost _ _ _).setRing _ _

theorem State.Keeps.postPageFault {s t : State} (h : s.Keeps t) (vf core va acc : Nat) (who : Waiter) (f : FaultRec) :
    s.Keeps (t.postPageFault vf core va acc who f).1 := by
  unfold State.postPageFault
  cases t.vf? vf with
  | none => exact h
  | some v =>
    dsimp only
    generalize (v.faults.enabled && !v.faults.full) = room
    cases room
    · simp only [Bool.false_eq_true, if_false]
      split
      · exact (h.modVf _ _).setRing _ _
      · exact ((h.modVf _ _).setRing _ _).post _
    · simp only [if_true]
      exact (h.writeFault _ _).modVf _ _

theorem State.Keeps.parkGroup {s t : State} (h : s.Keeps t) (r : SplitRef) (f : FaultRec) : s.Keeps (t.parkGroup r f) := h.modGroup _ _

theorem State.Keeps.postDue {s t : State} (h : s.Keeps t) (r : SplitRef) : s.Keeps (t.postDue r) := by
  unfold State.postDue
  split
  · split
    · exact h
    · split
      · exact h
      · exact ((h.modCore _ _).postPageFault _ _ _ _ _ _).modGroup _ _
  · exact h

theorem State.Keeps.breakHalt {s t : State} (h : s.Keeps t) (r : SplitRef) (f : FaultRec) : s.Keeps (t.breakHalt r f) := by
  unfold State.breakHalt
  try dsimp only
  repeat' split
  all_goals
    first
      | exact h
      | exact ((h.modTeam _ _ _).modSplit _ _).post _

theorem State.Keeps.raise {s t : State} (h : s.Keeps t) (r : SplitRef) (f : FaultRec) : s.Keeps (t.raise r f) := by
  unfold State.raise
  try dsimp only
  repeat' split
  all_goals
    first
      | exact h
      | exact h.parkGroup _ _
      | exact h.breakHalt _ _
      | exact h.enterFault _ _

theorem State.Keeps.settle {s t : State} (h : s.Keeps t) (r : SplitRef) : s.Keeps (t.settle r) := by
  unfold State.settle
  try dsimp only
  repeat' split
  all_goals
    first
      | exact h
      | exact (h.modSplit _ _).endSplit _
      | exact (h.modSplit _ _).tryMerge _
      | exact (h.modSplit _ _).raise _ _

theorem State.Keeps.settleGroup {s t : State} (h : s.Keeps t) (r : SplitRef) : s.Keeps (t.settleGroup r) := by
  unfold State.settleGroup
  split
  · exact h
  · exact (h.foldl _ (fun u _ => (State.Keeps.refl u).settle _) _).postDue _

theorem State.Keeps.faultAt {s t : State} (h : s.Keeps t) (r : SplitRef) (f : FaultRec) : s.Keeps (t.faultAt r f) := by
  unfold State.faultAt
  split
  · exact h
  · exact (h.modSplit _ _).settleGroup _

theorem State.Keeps.settleDue {s t : State} (h : s.Keeps t) : s.Keeps t.settleDue :=
  h.foldl _ (fun u _ => (State.Keeps.refl u).settleGroup _) _

theorem State.Keeps.checkFence {s t : State} (h : s.Keeps t) (r : SplitRef) : s.Keeps (t.checkFence r) := by
  unfold State.checkFence
  try dsimp only
  repeat' split
  all_goals
    first
      | exact h
      | exact (h.modSplit _ _).checkBarriers _ _
      | exact ((h.modSplit _ _).modSplit _ _).checkBarriers _ _

theorem State.Keeps.logFull {s t : State} (h : s.Keeps t) (vf srck src tm : Nat) : s.Keeps (t.logFull vf srck src tm) := by
  unfold State.logFull
  try dsimp only
  repeat' split
  all_goals
    first
      | exact h
      | exact (h.modVf _ _).post _

/-! ## After an instruction -/

theorem State.Keeps.ite {s t u : State} {p : Prop} [Decidable p] (ht : s.Keeps t) (hu : s.Keeps u) : s.Keeps (if p then t else u) := by
  split
  · exact ht
  · exact hu

theorem Ctx.keeps_overtake (c : Ctx) {s t : State} (h : s.Keeps t) : s.Keeps (c.overtake t) :=
  State.Keeps.ite h ((h.modCore _ _).modGroup _ _)

theorem Ctx.keeps_yieldTo (c : Ctx) {s t : State} (h : s.Keeps t) : s.Keeps (c.yieldTo t) := by
  unfold Ctx.yieldTo
  split
  · exact State.Keeps.ite (h.modGroup _ _) h
  · exact h

theorem Ctx.keeps_retire (c : Ctx) {s t : State} (h : s.Keeps t) (reads : List Reg) (next : Bool) : s.Keeps (c.retire t reads next) := by
  unfold Ctx.retire
  dsimp only
  have h1 : ∀ {u : State}, s.Keeps u → s.Keeps ((c.overtake (c.yieldTo u)).modSplit c.r fun p =>
      p.acted c reads (hazards c.split.run c.writes) next) := fun h => (c.keeps_overtake (c.keeps_yieldTo h)).modSplit _ _
  have h2 := State.Keeps.ite (p := (hazards c.split.run c.writes).isEmpty = true) h (h.modGroup c.r fun g =>
    (hazards c.split.run c.writes).foldl (c.s.freeReg 5 allLanes) g)
  have h3 : ∀ {f : Core → Core}, s.Keeps (if c.camsUsed.isEmpty = true then (if (hazards c.split.run c.writes).isEmpty = true then t
      else t.modGroup c.r fun g => (hazards c.split.run c.writes).foldl (c.s.freeReg 5 allLanes) g) else State.modCore
      (if (hazards c.split.run c.writes).isEmpty = true then t
        else t.modGroup c.r fun g => (hazards c.split.run c.writes).foldl (c.s.freeReg 5 allLanes) g) c.r.core f) :=
    State.Keeps.ite h2 (h2.modCore _ _)
  exact State.Keeps.ite ((h1 h3).settleGroup _) (h1 h3)

/-- A new name taken. -/
theorem State.Keeps.takeId {s t : State} (h : s.Keeps t) : s.Keeps t.takeId.2 :=
  h.trans (by constructor <;> first | rfl | exact id | exact Nat.le_succ _)

theorem Ctx.keeps_parkAt (c : Ctx) {s : State} (h : s.Keeps c.s) (p : Park) : s.Keeps (c.parkAt p) := by
  unfold Ctx.parkAt
  dsimp only
  exact State.Keeps.ite (h.modSplit _ _) (State.Keeps.ite ((h.takeId.modSplit _ _).endSplit _) ((h.takeId.modSplit _ _).postDue _))

theorem Ctx.keeps_put (c : Ctx) (n : Nat) (f : Nat → Nat) : c.s.Keeps (c.put n f) := (State.Keeps.refl _).modGroup _ _

end Sys2Proof.Machine
end

