-- ==== Sys2Proof/Laws/Canonical.lean ====
section
/-!
SUPPORT. The canonical form of the memories (log entry 3): every operation that writes DRAM or the host's memory keeps it, and a write at a home is
read back there (02 R26, R31, 05 R73).
-/
namespace Sys2Proof.Machine

theorem State.canonical_iff (s : State) : s.canonical = true ↔ s.dram.wf = true ∧ s.host.wf = true := by
  simp [State.canonical]

/-- What the end of a run keeps includes the form. -/
theorem State.Keeps.canonical {s t : State} (h : s.Keeps t) (hc : s.canonical = true) : t.canonical = true := by
  rw [State.canonical_iff] at hc ⊢
  exact ⟨h.dram ▸ hc.1, h.hostOk hc.2⟩

/-- A state with the same memories has the same form. -/
theorem State.canonical_of_eq {s t : State} (hd : t.dram = s.dram) (hh : t.host = s.host) : t.canonical = s.canonical := by
  simp [State.canonical, hd, hh]

/-! ## The storage of a home -/

@[simp] theorem State.modStore_dram (s : State) (h : HomeLoc) (f : HomeStore → HomeStore) : (s.modStore h f).dram = s.dram := by cases h <;> rfl
@[simp] theorem State.modStore_host (s : State) (h : HomeLoc) (f : HomeStore → HomeStore) : (s.modStore h f).host = s.host := by cases h <;> rfl
@[simp] theorem State.modStore_vfs (s : State) (h : HomeLoc) (f : HomeStore → HomeStore) : (s.modStore h f).vfs = s.vfs := by cases h <;> rfl
@[simp] theorem State.modStore_reqs (s : State) (h : HomeLoc) (f : HomeStore → HomeStore) : (s.modStore h f).reqs = s.reqs := by cases h <;> rfl
@[simp] theorem State.modStore_time (s : State) (h : HomeLoc) (f : HomeStore → HomeStore) : (s.modStore h f).time = s.time := by cases h <;> rfl
@[simp] theorem State.modStore_fresh (s : State) (h : HomeLoc) (f : HomeStore → HomeStore) : (s.modStore h f).fresh = s.fresh := by cases h <;> rfl
@[simp] theorem State.modStore_canonical (s : State) (h : HomeLoc) (f : HomeStore → HomeStore) : (s.modStore h f).canonical = s.canonical :=
  State.canonical_of_eq (by simp) (by simp)

/-- Only slices and pinned windows keep lines (R26 to R28). -/
theorem State.store_modStore (s : State) (h : HomeLoc) (f : HomeStore → HomeStore) :
    (s.modStore h f).store h = if h.allocates then f (s.store h) else HomeStore.empty := by
  cases h <;> simp [State.store, State.modStore, HomeLoc.allocates]

theorem State.store_of_not_allocates {s : State} {h : HomeLoc} (hh : h.allocates = false) : s.store h = HomeStore.empty := by
  cases h <;> simp_all [State.store, HomeLoc.allocates]

/-! ## Writes at a home -/

theorem State.canonical_writeAt {s : State} (h : HomeLoc) (line : Nat) (b : List (Nat × Byte)) (hc : s.canonical = true) :
    (s.writeAt h line b).canonical = true := by
  unfold State.writeAt
  rw [State.canonical_iff] at hc
  split
  · rw [State.modStore_canonical, State.canonical_iff]; exact hc
  · exact (State.canonical_iff _).2 ⟨hc.1, Memory.wf_writeAll _ hc.2⟩
  · exact (State.canonical_iff _).2 ⟨Memory.wf_writeAll _ hc.1, hc.2⟩

/-- A write drops copies of its sectors, and no memory (R76). -/
theorem State.Keeps.dropL1 {s t : State} (h : s.Keeps t) (k : Nat) (l : List Nat) : s.Keeps (t.dropL1 k l) := (h.modCore k _).reqs _

/-- An entry of the dirty log is written to the host's memory, in its form; the OR is only sent (R73). -/
theorem State.canonical_logPage {s : State} (core vf grid : Nat) (owner : SplitRef) (key : Errand) (x : Xlated) (hc : s.canonical = true) :
    (s.logPage core vf grid owner key x).canonical = true := by
  unfold State.logPage
  cases s.vf? vf with
  | none => exact hc
  | some v =>
    dsimp only
    exact (((((((State.Keeps.refl s).writeHost vf _ _).setRing _ _).takeId).dropL1 core _).reqs _).modCore core _).canonical hc

theorem State.canonical_clearLost {s : State} (h : HomeLoc) (n : Nat) : (s.clearLost h n).canonical = s.canonical := State.modStore_canonical _ _ _

theorem State.canonical_errorStop {s : State} (vf : Nat) : (s.errorStop vf).canonical = s.canonical := rfl

theorem State.canonical_errorStops {s : State} (l : List Nat) : (l.foldl State.errorStop s).canonical = s.canonical := by
  induction l generalizing s with
  | nil => rfl
  | cons a r ih => exact ih

theorem State.canonical_loseSector {s : State} (h : HomeLoc) (n : Nat) (hc : s.canonical = true) : (s.loseSector h n).canonical = true := by
  have h1 : ∀ t : State, t.canonical = true →
      (if (t.lostAt h).length ≥ 64 then (t.owners (n * 32)).foldl State.errorStop ({ t with signals := t.signals ++ [Signal.lostListFull h.lister] } : State)
        else { (t.modStore h.lister fun x => { x with lost := x.lost ++ [n] }) with flaws := t.flaws.filter (· != n) }).canonical = true := by
    intro t ht
    split
    · exact (State.canonical_errorStops _).trans ht
    · exact (State.modStore_canonical _ _ _).trans ht
  refine h1 _ ?_
  split
  · have h2 := (State.canonical_iff s).1 hc
    refine (State.canonical_iff _).2 ⟨?_, ?_⟩
    · simp only [State.modStore_dram]; exact Memory.wf_writeBytes _ _ h2.1
    · simp only [State.modStore_host]; exact h2.2
  · rw [State.modStore_canonical]; exact hc

theorem State.canonical_writeSector {s : State} (h : HomeLoc) (n : Nat) (b : List (Nat × Byte)) (l : List (Nat × Bool × BitVec 4))
    (hc : s.canonical = true) : (s.writeSector h n b l).canonical = true := by
  unfold State.writeSector
  refine State.canonical_writeAt _ _ _ ?_
  split
  · exact (State.canonical_clearLost h n).trans hc
  · split
    · exact State.canonical_loseSector h n hc
    · exact hc

theorem State.canonical_post {s : State} (e : Event) (hc : s.canonical = true) : (s.post e).canonical = true :=
  ((State.Keeps.refl s).post e).canonical hc

theorem State.canonical_postHinge {s : State} (n slot code kind reason a1 count : Nat) (hc : s.canonical = true) :
    (s.postHinge n slot code kind reason a1 count).canonical = true := by
  unfold State.postHinge
  dsimp only
  split
  · split
    · exact hc
    · exact State.canonical_post _ hc
  · exact State.canonical_post _ hc

theorem State.canonical_raiseTrigger {s : State} (n : Nat) (t : Trigger) (hc : s.canonical = true) : (s.raiseTrigger n t).canonical = true := by
  unfold State.raiseTrigger
  dsimp only
  split
  · exact State.canonical_postHinge _ _ _ _ _ _ _ hc
  · exact hc

/-! ## Reading back -/

/-- A line that is present reads as its data (R26). -/
theorem State.valueAt_line {s : State} {h : HomeLoc} {a : Nat} {l : Line} (n : Nat) (hl : (s.store h).line? (a / 128) = some l) :
    s.valueAt h a n = (l.data.drop (a % 128)).take n := by
  unfold State.valueAt; rw [hl]

/-- A line that is absent reads as DRAM, but for the host's memory (R22, R26). -/
theorem State.valueAt_absent {s : State} {h : HomeLoc} {a : Nat} (n : Nat) (hl : (s.store h).line? (a / 128) = none) (hh : h ≠ .host) :
    s.valueAt h a n = s.dram.readBytes a n := by
  unfold State.valueAt; rw [hl]; cases h <;> simp_all

/-- A write to a line that is absent leaves every other byte of DRAM (R31). -/
theorem State.writeAt_dram_other {s : State} {h : HomeLoc} {line : Nat} (b : List (Nat × Byte)) (a : Nat) (hc : s.canonical = true)
    (ha : ∀ p ∈ b, p.1 ≠ a) : (s.writeAt h line b).dram.read a = s.dram.read a := by
  unfold State.writeAt
  split
  · simp
  · rfl
  · exact Memory.read_writeAll_of_not_mem b a ((State.canonical_iff s).1 hc).1 ha

end Sys2Proof.Machine
end

