-- ==== Sys2Proof/Laws/Issue.lean ====
section
/-!
SUPPORT. What issuing an instruction does, said once: the context names the split in focus, and a ready instruction is its own body.
-/
namespace Sys2Proof.Machine

/-- The context of an instruction is that of the split in focus. -/
theorem ctx?_cases {s : State} {i : Instr} {c : Ctx} (h : s.ctx? i = some c) :
    s.focus = .split c.r ∧ c.s = s ∧ c.i = i ∧ (∃ op, i.code = some (op, c.o)) ∧ s.team? c.r.core c.r.team = some c.team ∧
      (∃ g, c.team.group? c.r.grp = some g ∧ g.split? c.r.split = some c.split ∧ c.group = s.seen g c.split (i.reads c.o)) ∧
      s.grid? c.team.grid = some c.grid ∧ s.vf? c.team.vf = some c.v ∧ c.x = executing c.group c.split.mask c.o ∧
      c.acting = false ∧ c.cap = [] := by
  unfold State.ctx? at h
  split at h
  · rename_i r op o hf hc
    simp only [Option.bind_eq_bind, Option.bind_eq_some_iff, Option.pure_def, Option.some.injEq] at h
    obtain ⟨t, ht, g, hg, p, hp, gr, hgr, v, hv, rfl⟩ := h
    exact ⟨hf, rfl, rfl, ⟨op, hc⟩, ht, ⟨g, hg, hp, rfl⟩, hgr, hv, rfl, rfl, rfl⟩
  · simp at h

/-- A ready instruction does what its body says. -/
theorem issue_ready {s : State} {i : Instr} {c : Ctx} (h : s.Ready i c) (body : Ctx → Act) :
    issue i s body = .next (c.finish (body c)).bump := by
  have hm : (c.split.unwound && !c.expected) = false := by
    rcases h.unwound with hm | hm <;> simp [hm]
  have hi := (ctx?_cases h.ctx).2.2.1
  simp only [issue, h.ctx, Ctx.attempt, hm, h.enabled, hi, h.formats, h.operands, h.maps, ↓reduceIte, Bool.not_true, Bool.false_eq_true]

/-- Where the body acts, so does the instruction. -/
theorem issue_done {s : State} {i : Instr} {c : Ctx} (h : s.Ready i c) {body : Ctx → Act} {t : State} {rs : List Reg} {n : Bool}
    (hb : body c = .done t rs n) : issue i s body = .next (c.retire t rs n).bump := by
  rw [issue_ready h, hb]; rfl

/-- The words an instruction carries are those its context reads. -/
theorem ctx?_ops {s : State} {i : Instr} {c : Ctx} (h : s.ctx? i = some c) {op : Nat} {o : Ops} (hc : i.code = some (op, o)) :
    c.o = o := by
  obtain ⟨_, _, _, ⟨_, hop⟩, _⟩ := ctx?_cases h
  rw [hc] at hop
  exact ((Prod.mk.injEq .. ▸ Option.some.inj hop).2).symm

/-- An instruction whose body only writes its destination delivers what the body writes. -/
theorem delivers_of_body {i : Instr} {op : Nat} {o : Ops} (hc : i.code = some (op, o)) {n : Nat} {f : Ctx → Nat → Nat}
    {body : Ctx → Act} (he : ∀ s, exec i s = issue i s body) (hb : ∀ c : Ctx, c.o = o → c.i = i → body c = .ok (c.put n (f c))) :
    Delivers i n f := by
  intro s c h
  unfold State.Acts
  rw [he s]
  exact issue_done h (hb c (ctx?_ops h.ctx hc) (ctx?_cases h.ctx).2.2.1)

/-- The context of a ready instruction, with what its words and its state are. -/
theorem acts_of_body {i : Instr} {op : Nat} {o : Ops} (hc : i.code = some (op, o)) {body : Ctx → Act}
    (he : ∀ s, exec i s = issue i s body) {s : State} {c : Ctx} (h : s.Ready i c) {t : State} {rs : List Reg} {n : Bool}
    (hb : c.o = o → c.s = s → body c = .done t rs n) : s.Acts i c t rs n := by
  unfold State.Acts
  rw [he s]
  exact issue_done h (hb (ctx?_ops h.ctx hc) (ctx?_cases h.ctx).2.1)

end Sys2Proof.Machine
end

