-- ==== Sys2Proof/Laws/PerInstr.lean ====
section
/-!
SUPPORT. One lemma for each instruction: the modifier fields its encoder writes fit OPM and X, and the opcode map reads the
instruction back from them (09 R142, R147); an event and a hinge instruction has neither opcode nor modifiers there.
-/
namespace Sys2Proof

/-- What is shown of every instruction: its opcode, its modifiers and its shape are given together; the modifiers fit
their fields; and the opcode map reads the instruction from them. -/
def Laws.Modifiers.Statement (i : Instr) : Prop :=
  i.modifiers.isSome = i.code.isSome ∧ i.shape.isSome = i.code.isSome ∧
    ∀ op o q x, i.code = some (op, o) → i.modifiers = some (q, x) →
      op / 256 < 15 ∧ q < 1024 ∧ x < 16384 ∧ readInstr (op / 256) (op % 256) q x o = some i

/-! ## Codes read back -/

theorem Fmt.code_lt (f : Fmt) : f.code < 32 := by
  cases f with
  | unused k => simp only [Fmt.code]; omega
  | _ => decide

theorem Fmt.ofCode_code (f : Fmt) : Fmt.ofCode f.code = f := by
  cases f with
  | unused k => revert k; decide
  | _ => rfl

theorem Fmt.ofCode_mod (n : Nat) : Fmt.ofCode (n % 32) = Fmt.ofCode n := by
  unfold Fmt.ofCode; rw [Nat.mod_mod]

theorem Fmt.ofCode_add (f : Fmt) (k : Nat) : Fmt.ofCode (f.code + 32 * k) = f := by
  rw [← Fmt.ofCode_mod, Nat.add_mul_mod_self_left, Fmt.ofCode_mod, Fmt.ofCode_code]

theorem bit_low (d : BitVec n) (b : Bool) : bit (d.toNat + 2 ^ n * b.toNat) n = b := by
  have h := d.isLt
  unfold bit
  rw [Nat.add_mul_div_left _ _ (Nat.two_pow_pos n), Nat.div_eq_of_lt h]
  cases b <;> rfl

theorem ofNat_low (d : BitVec n) (k : Nat) : BitVec.ofNat n (d.toNat + 2 ^ n * k) = d := by
  apply BitVec.eq_of_toNat_eq
  rw [BitVec.toNat_ofNat, Nat.add_mul_mod_self_left, Nat.mod_eq_of_lt d.isLt]

theorem MemMode.ofCode_read (m : MemMode) : MemMode.ofCode m.opm m.x = some m := by
  obtain ⟨fmt, sc, sem, sat, disp⟩ := m
  have hf := fmt.code_lt
  have h1 : Scale.ofCode ((fmt.code + 32 * sc.code + 256 * sem.code) / 32) = some sc := by
    have e : (fmt.code + 32 * sc.code + 256 * sem.code) / 32 = sc.code + 8 * sem.code := by omega
    rw [e]; cases sc <;> cases sem <;> rfl
  have h2 : Sem.ofCode ((fmt.code + 32 * sc.code + 256 * sem.code) / 256) = some sem := by
    have e : (fmt.code + 32 * sc.code + 256 * sem.code) / 256 = sem.code := by
      have : sc.code < 5 := by cases sc <;> decide
      omega
    rw [e]; cases sem <;> rfl
  have h3 : Fmt.ofCode (fmt.code + 32 * sc.code + 256 * sem.code) = fmt := by
    have e : fmt.code + 32 * sc.code + 256 * sem.code = fmt.code + 32 * (sc.code + 8 * sem.code) := by omega
    rw [e, Fmt.ofCode_add]
  unfold MemMode.ofCode MemMode.opm MemMode.x
  dsimp only
  rw [h1, h2, h3, show (8192 : Nat) = 2 ^ 13 from rfl, bit_low, ofNat_low]

theorem MemMode.opm_lt (m : MemMode) : m.opm < 1024 := by
  obtain ⟨fmt, sc, sem, sat, disp⟩ := m
  have hf := fmt.code_lt
  have : sc.code < 5 := by cases sc <;> decide
  have : sem.code < 3 := by cases sem <;> decide
  unfold MemMode.opm; dsimp only; omega

theorem MemMode.x_lt (m : MemMode) : m.x < 16384 := by
  obtain ⟨fmt, sc, sem, sat, disp⟩ := m
  have h := disp.isLt
  have hs := sat.toNat_lt
  unfold MemMode.x; dsimp only; omega

theorem AtomMode.ofCode_read (m : AtomMode) : AtomMode.ofCode m.opm m.x = some m := by
  obtain ⟨op, ty, sc, acq, rel, disp⟩ := m
  have h1 : AtomOp.ofCode (op.code + 16 * ty.code + 128 * sc.code) = some op := by
    cases op <;> cases ty <;> cases sc <;> rfl
  have h2 : AtomTy.ofCode ((op.code + 16 * ty.code + 128 * sc.code) / 16) = some ty := by
    cases op <;> cases ty <;> cases sc <;> rfl
  have h3 : Scale.ofCode ((op.code + 16 * ty.code + 128 * sc.code) / 128) = some sc := by
    cases op <;> cases ty <;> cases sc <;> rfl
  have h := disp.isLt
  have h4 : bit (disp.toNat + 4096 * acq.toNat + 8192 * rel.toNat) 12 = acq := by
    unfold bit
    have e : (disp.toNat + 4096 * acq.toNat + 8192 * rel.toNat) / 2 ^ 12 = acq.toNat + 2 * rel.toNat := by omega
    rw [e]; cases acq <;> cases rel <;> rfl
  have h5 : bit (disp.toNat + 4096 * acq.toNat + 8192 * rel.toNat) 13 = rel := by
    unfold bit
    have ha : acq.toNat < 2 := acq.toNat_lt
    have e : (disp.toNat + 4096 * acq.toNat + 8192 * rel.toNat) / 2 ^ 13 = rel.toNat := by omega
    rw [e]; cases rel <;> rfl
  have h6 : BitVec.ofNat 12 (disp.toNat + 4096 * acq.toNat + 8192 * rel.toNat) = disp := by
    have e : disp.toNat + 4096 * acq.toNat + 8192 * rel.toNat = disp.toNat + 2 ^ 12 * (acq.toNat + 2 * rel.toNat) := by omega
    rw [e, ofNat_low]
  unfold AtomMode.ofCode AtomMode.opm AtomMode.x
  dsimp only
  rw [h1, h2, h3, h4, h5, h6]

theorem AtomMode.opm_lt (m : AtomMode) : m.opm < 1024 := by
  obtain ⟨op, ty, sc, acq, rel, disp⟩ := m
  have : op.code < 9 := by cases op <;> decide
  have : ty.code < 7 := by cases ty <;> decide
  have : sc.code < 5 := by cases sc <;> decide
  unfold AtomMode.opm; dsimp only; omega

theorem AtomMode.x_lt (m : AtomMode) : m.x < 16384 := by
  obtain ⟨op, ty, sc, acq, rel, disp⟩ := m
  have h := disp.isLt
  have ha := acq.toNat_lt
  have hr := rel.toNat_lt
  unfold AtomMode.x; dsimp only; omega

theorem disp14_toNat (d : BitVec 14) : disp14 d.toNat = d := by simp [disp14]

theorem disp13_toNat (d : BitVec 13) : disp13 d.toNat = d := by simp [disp13]

/-! ## The instructions -/

namespace Laws.Modifiers

/-- A statement from its three parts, for an instruction that has a word. -/
theorem of_parts {i : Instr} {op : Nat} {o : Ops} {q x : Nat} (hc : i.code = some (op, o)) (hm : i.modifiers = some (q, x))
    (hs : i.shape.isSome = true) (hop : op / 256 < 15) (hq : q < 1024) (hx : x < 16384)
    (hr : readInstr (op / 256) (op % 256) q x o = some i) : Statement i := by
  refine ⟨by rw [hm, hc]; rfl, by rw [hs, hc]; rfl, fun op' o' q' x' h1 h2 => ?_⟩
  rw [hc] at h1; rw [hm] at h2
  cases h1; cases h2
  exact ⟨hop, hq, hx, hr⟩

/-- A step that has no word of KIS-3. -/
theorem of_none {i : Instr} (hc : i.code = none) (hm : i.modifiers = none) (hs : i.shape = none) : Statement i := by
  refine ⟨by rw [hm, hc]; rfl, by rw [hs, hc]; rfl, fun op' o' q' x' h1 => ?_⟩
  rw [hc] at h1; cases h1

theorem nop (o : Ops) : Statement (.nop o) := of_parts rfl rfl rfl (by decide) (by decide) (by decide) rfl

theorem if_ (o : Ops) (neg : Bool) (disp : BitVec 14) : Statement (.if_ o neg disp) := by
  have h := disp.isLt
  cases neg <;>
    (refine of_parts rfl rfl rfl (by decide) (by first | decide | omega) (by first | decide | omega) ?_; exact congrArg (fun d => some (Instr.if_ o _ d)) (disp14_toNat disp))

theorem else_ (o : Ops) (disp : BitVec 14) : Statement (.else_ o disp) := by
  have h := disp.isLt
  refine of_parts rfl rfl rfl (by decide) (by first | decide | omega) (by first | decide | omega) ?_
  exact congrArg (fun d => some (Instr.else_ o d)) (disp14_toNat disp)

theorem endif (o : Ops) : Statement (.endif o) := of_parts rfl rfl rfl (by decide) (by decide) (by decide) rfl

theorem loop (o : Ops) (disp : BitVec 14) : Statement (.loop o disp) := by
  have h := disp.isLt
  refine of_parts rfl rfl rfl (by decide) (by first | decide | omega) (by first | decide | omega) ?_
  exact congrArg (fun d => some (Instr.loop o d)) (disp14_toNat disp)

theorem endloop (o : Ops) : Statement (.endloop o) := of_parts rfl rfl rfl (by decide) (by decide) (by decide) rfl

theorem break_ (o : Ops) (neg : Bool) : Statement (.break_ o neg) := by
  cases neg <;> exact of_parts rfl rfl rfl (by decide) (by decide) (by decide) rfl

theorem cont (o : Ops) (neg : Bool) : Statement (.cont o neg) := by
  cases neg <;> exact of_parts rfl rfl rfl (by decide) (by decide) (by decide) rfl

theorem jmp (o : Ops) (neg : Bool) : Statement (.jmp o neg) := by
  cases neg <;> exact of_parts rfl rfl rfl (by decide) (by decide) (by decide) rfl

theorem call (o : Ops) (neg : Bool) : Statement (.call o neg) := by
  cases neg <;> exact of_parts rfl rfl rfl (by decide) (by decide) (by decide) rfl

theorem ret (o : Ops) (neg : Bool) : Statement (.ret o neg) := by
  cases neg <;> exact of_parts rfl rfl rfl (by decide) (by decide) (by decide) rfl

theorem exit (o : Ops) : Statement (.exit o) := of_parts rfl rfl rfl (by decide) (by decide) (by decide) rfl

theorem yield (o : Ops) (lat : Bool) (disp : BitVec 14) : Statement (.yield o lat disp) := by
  have h := disp.isLt
  cases lat <;>
    (refine of_parts rfl rfl rfl (by decide) (by first | decide | omega) (by first | decide | omega) ?_; exact congrArg (fun d => some (Instr.yield o _ d)) (disp14_toNat disp))

theorem bar (o : Ops) (arv : Bool) : Statement (.bar o arv) := by
  cases arv <;> exact of_parts rfl rfl rfl (by decide) (by decide) (by decide) rfl

theorem barc (o : Ops) (arv : Bool) : Statement (.barc o arv) := by
  cases arv <;> exact of_parts rfl rfl rfl (by decide) (by decide) (by decide) rfl

theorem mov (o : Ops) (ty : IntTy) : Statement (.mov o ty) := by
  cases ty <;> exact of_parts rfl rfl rfl (by decide) (by decide) (by decide) rfl

theorem movi (o : Ops) (ty : IntTy) : Statement (.movi o ty) := by
  cases ty <;> exact of_parts rfl rfl rfl (by decide) (by decide) (by decide) rfl

theorem iadd (o : Ops) (ty : IntTy) (sat : Bool) : Statement (.iadd o ty sat) := by
  cases ty <;> cases sat <;> exact of_parts rfl rfl rfl (by decide) (by decide) (by decide) rfl

theorem isub (o : Ops) (ty : IntTy) (sat : Bool) : Statement (.isub o ty sat) := by
  cases ty <;> cases sat <;> exact of_parts rfl rfl rfl (by decide) (by decide) (by decide) rfl

theorem imul (o : Ops) (ty : IntTy) : Statement (.imul o ty) := by
  cases ty <;> exact of_parts rfl rfl rfl (by decide) (by decide) (by decide) rfl

theorem imad (o : Ops) (ty : IntTy) : Statement (.imad o ty) := by
  cases ty <;> exact of_parts rfl rfl rfl (by decide) (by decide) (by decide) rfl

theorem imulhi (o : Ops) (ty : IntTy) : Statement (.imulhi o ty) := by
  cases ty <;> exact of_parts rfl rfl rfl (by decide) (by decide) (by decide) rfl

theorem imin (o : Ops) (ty : IntTy) : Statement (.imin o ty) := by
  cases ty <;> exact of_parts rfl rfl rfl (by decide) (by decide) (by decide) rfl

theorem imax (o : Ops) (ty : IntTy) : Statement (.imax o ty) := by
  cases ty <;> exact of_parts rfl rfl rfl (by decide) (by decide) (by decide) rfl

theorem iabs (o : Ops) (ty : IntTy) (sat : Bool) : Statement (.iabs o ty sat) := by
  cases ty <;> cases sat <;> exact of_parts rfl rfl rfl (by decide) (by decide) (by decide) rfl

theorem ineg (o : Ops) (ty : IntTy) (sat : Bool) : Statement (.ineg o ty sat) := by
  cases ty <;> cases sat <;> exact of_parts rfl rfl rfl (by decide) (by decide) (by decide) rfl

theorem lea64 (o : Ops) (sh : Fin 5) (zx : Bool) : Statement (.lea64 o sh zx) := by
  have h : ∀ (sh : Fin 5) (zx : Bool), 4 * sh.val + 32 * zx.toNat < 1024 ∧
      shiftOf ((4 * sh.val + 32 * zx.toNat) / 4) = some sh ∧ bit (4 * sh.val + 32 * zx.toNat) 5 = zx := by decide
  obtain ⟨h1, h2, h3⟩ := h sh zx
  refine of_parts rfl rfl rfl (by decide) h1 (by decide) ?_
  show (shiftOf ((4 * sh.val + 32 * zx.toNat) / 4)).map (fun v => Instr.lea64 o v (bit (4 * sh.val + 32 * zx.toNat) 5)) = _
  rw [h2, h3]; rfl

theorem iset (o : Ops) (cond : ICond) (ty : IntTy) : Statement (.iset o cond ty) := by
  cases cond <;> cases ty <;> exact of_parts rfl rfl rfl (by decide) (by decide) (by decide) rfl

theorem sel (o : Ops) (ty : IntTy) : Statement (.sel o ty) := by
  cases ty <;> exact of_parts rfl rfl rfl (by decide) (by decide) (by decide) rfl

theorem plop (o : Ops) (lut : BitVec 8) : Statement (.plop o lut) := by
  have h := lut.isLt
  refine of_parts rfl rfl rfl (by decide) (by first | decide | omega) (by first | decide | omega) ?_
  exact congrArg (fun d => some (Instr.plop o d)) (show BitVec.ofNat 8 lut.toNat = lut by simp)

theorem and (o : Ops) (w : Bool) : Statement (.and o w) := by
  cases w <;> exact of_parts rfl rfl rfl (by decide) (by decide) (by decide) rfl

theorem or (o : Ops) (w : Bool) : Statement (.or o w) := by
  cases w <;> exact of_parts rfl rfl rfl (by decide) (by decide) (by decide) rfl

theorem xor (o : Ops) (w : Bool) : Statement (.xor o w) := by
  cases w <;> exact of_parts rfl rfl rfl (by decide) (by decide) (by decide) rfl

theorem not (o : Ops) (w : Bool) : Statement (.not o w) := by
  cases w <;> exact of_parts rfl rfl rfl (by decide) (by decide) (by decide) rfl

theorem shl (o : Ops) (w : Bool) : Statement (.shl o w) := by
  cases w <;> exact of_parts rfl rfl rfl (by decide) (by decide) (by decide) rfl

theorem shr (o : Ops) (w : Bool) : Statement (.shr o w) := by
  cases w <;> exact of_parts rfl rfl rfl (by decide) (by decide) (by decide) rfl

theorem sar (o : Ops) (w : Bool) : Statement (.sar o w) := by
  cases w <;> exact of_parts rfl rfl rfl (by decide) (by decide) (by decide) rfl

theorem bfx (o : Ops) (w : Bool) (sx : Bool) : Statement (.bfx o w sx) := by
  cases w <;> cases sx <;> exact of_parts rfl rfl rfl (by decide) (by decide) (by decide) rfl

theorem bfi (o : Ops) (w : Bool) : Statement (.bfi o w) := by
  cases w <;> exact of_parts rfl rfl rfl (by decide) (by decide) (by decide) rfl

theorem popc (o : Ops) (w : Bool) : Statement (.popc o w) := by
  cases w <;> exact of_parts rfl rfl rfl (by decide) (by decide) (by decide) rfl

theorem clz (o : Ops) (w : Bool) : Statement (.clz o w) := by
  cases w <;> exact of_parts rfl rfl rfl (by decide) (by decide) (by decide) rfl

theorem brev (o : Ops) (w : Bool) : Statement (.brev o w) := by
  cases w <;> exact of_parts rfl rfl rfl (by decide) (by decide) (by decide) rfl

theorem fadd (o : Ops) : Statement (.fadd o) := of_parts rfl rfl rfl (by decide) (by decide) (by decide) rfl

theorem fsub (o : Ops) : Statement (.fsub o) := of_parts rfl rfl rfl (by decide) (by decide) (by decide) rfl

theorem fmul (o : Ops) : Statement (.fmul o) := of_parts rfl rfl rfl (by decide) (by decide) (by decide) rfl

theorem ffma (o : Ops) : Statement (.ffma o) := of_parts rfl rfl rfl (by decide) (by decide) (by decide) rfl

theorem fmin (o : Ops) : Statement (.fmin o) := of_parts rfl rfl rfl (by decide) (by decide) (by decide) rfl

theorem fmax (o : Ops) : Statement (.fmax o) := of_parts rfl rfl rfl (by decide) (by decide) (by decide) rfl

theorem fmaxx (o : Ops) : Statement (.fmaxx o) := of_parts rfl rfl rfl (by decide) (by decide) (by decide) rfl

theorem fminx (o : Ops) : Statement (.fminx o) := of_parts rfl rfl rfl (by decide) (by decide) (by decide) rfl

theorem fabs (o : Ops) : Statement (.fabs o) := of_parts rfl rfl rfl (by decide) (by decide) (by decide) rfl

theorem fneg (o : Ops) : Statement (.fneg o) := of_parts rfl rfl rfl (by decide) (by decide) (by decide) rfl

theorem fset (o : Ops) (cond : FCond) : Statement (.fset o cond) := by
  cases cond <;> exact of_parts rfl rfl rfl (by decide) (by decide) (by decide) rfl

theorem frnd (o : Ops) : Statement (.frnd o) := of_parts rfl rfl rfl (by decide) (by decide) (by decide) rfl

theorem frcp (o : Ops) : Statement (.frcp o) := of_parts rfl rfl rfl (by decide) (by decide) (by decide) rfl

theorem frsq (o : Ops) : Statement (.frsq o) := of_parts rfl rfl rfl (by decide) (by decide) (by decide) rfl

theorem fsqrt (o : Ops) : Statement (.fsqrt o) := of_parts rfl rfl rfl (by decide) (by decide) (by decide) rfl

theorem fex2 (o : Ops) : Statement (.fex2 o) := of_parts rfl rfl rfl (by decide) (by decide) (by decide) rfl

theorem flg2 (o : Ops) : Statement (.flg2 o) := of_parts rfl rfl rfl (by decide) (by decide) (by decide) rfl

theorem fsin (o : Ops) : Statement (.fsin o) := of_parts rfl rfl rfl (by decide) (by decide) (by decide) rfl

theorem fcos (o : Ops) : Statement (.fcos o) := of_parts rfl rfl rfl (by decide) (by decide) (by decide) rfl

theorem ftanh (o : Ops) : Statement (.ftanh o) := of_parts rfl rfl rfl (by decide) (by decide) (by decide) rfl

theorem hrnd (o : Ops) : Statement (.hrnd o) := of_parts rfl rfl rfl (by decide) (by decide) (by decide) rfl

theorem padd (o : Ops) (pf : PackFmt) (sat : Bool) : Statement (.padd o pf sat) := by
  cases pf <;> cases sat <;> exact of_parts rfl rfl rfl (by decide) (by decide) (by decide) rfl

theorem psub (o : Ops) (pf : PackFmt) (sat : Bool) : Statement (.psub o pf sat) := by
  cases pf <;> cases sat <;> exact of_parts rfl rfl rfl (by decide) (by decide) (by decide) rfl

theorem pmul (o : Ops) (pf : PackFmt) (sat : Bool) : Statement (.pmul o pf sat) := by
  cases pf <;> cases sat <;> exact of_parts rfl rfl rfl (by decide) (by decide) (by decide) rfl

theorem pfma (o : Ops) (pf : PackFmt) (sat : Bool) : Statement (.pfma o pf sat) := by
  cases pf <;> cases sat <;> exact of_parts rfl rfl rfl (by decide) (by decide) (by decide) rfl

theorem pmin (o : Ops) (pf : PackFmt) : Statement (.pmin o pf) := by
  cases pf <;> exact of_parts rfl rfl rfl (by decide) (by decide) (by decide) rfl

theorem pmax (o : Ops) (pf : PackFmt) : Statement (.pmax o pf) := by
  cases pf <;> exact of_parts rfl rfl rfl (by decide) (by decide) (by decide) rfl

theorem pset (o : Ops) (pf : PackFmt) (cond : FCond) (any : Bool) : Statement (.pset o pf cond any) := by
  cases pf <;> cases cond <;> cases any <;> exact of_parts rfl rfl rfl (by decide) (by decide) (by decide) rfl

theorem pdot (o : Ops) (pf : PackFmt) (sat : Bool) : Statement (.pdot o pf sat) := by
  cases pf <;> cases sat <;> exact of_parts rfl rfl rfl (by decide) (by decide) (by decide) rfl

theorem cvt (o : Ops) (dst : Fmt) (src : Fmt) (sat : Bool) : Statement (.cvt o dst src sat) := by
  have h1 := dst.code_lt
  have h2 := src.code_lt
  refine of_parts rfl rfl rfl (by decide) (by cases sat <;> decide) (by omega) ?_
  show some (Instr.cvt o (Fmt.ofCode (dst.code + 32 * src.code)) (Fmt.ofCode ((dst.code + 32 * src.code) / 32)) (bit sat.toNat 0)) = _
  have e : (dst.code + 32 * src.code) / 32 = src.code := by omega
  rw [Fmt.ofCode_add, e, Fmt.ofCode_code]
  cases sat <;> rfl

theorem pack2 (o : Ops) (bf : Bool) (sat : Bool) : Statement (.pack2 o bf sat) := by
  cases bf <;> cases sat <;> exact of_parts rfl rfl rfl (by decide) (by decide) (by decide) rfl

theorem pack4 (o : Ops) (e5 : Bool) (sat : Bool) : Statement (.pack4 o e5 sat) := by
  cases e5 <;> cases sat <;> exact of_parts rfl rfl rfl (by decide) (by decide) (by decide) rfl

theorem unpk (o : Ops) (pf : PackFmt) : Statement (.unpk o pf) := by
  cases pf <;> exact of_parts rfl rfl rfl (by decide) (by decide) (by decide) rfl

theorem fkey (o : Ops) (half : Bool) : Statement (.fkey o half) := by
  cases half <;> exact of_parts rfl rfl rfl (by decide) (by decide) (by decide) rfl

theorem sprune (o : Ops) (bf : Bool) : Statement (.sprune o bf) := by
  cases bf <;> exact of_parts rfl rfl rfl (by decide) (by decide) (by decide) rfl

theorem qscale (o : Ops) (q : QFmt) : Statement (.qscale o q) := by
  cases q <;> exact of_parts rfl rfl rfl (by decide) (by decide) (by decide) rfl

theorem cambind (o : Ops) (tm : Bool) (fmt : Fmt) (wel : Bool) (sin : PackFmt) : Statement (.cambind o tm fmt wel sin) := by
  have h1 := fmt.code_lt
  have h2 := wel.toNat_lt
  have h3 : sin.code < 4 := by cases sin <;> decide
  refine of_parts rfl rfl rfl (by decide) (by cases tm <;> decide) (by omega) ?_
  show some (Instr.cambind o (bit tm.toNat 0) (Fmt.ofCode (fmt.code + 32 * wel.toNat + 64 * sin.code))
    (bit (fmt.code + 32 * wel.toNat + 64 * sin.code) 5) (PackFmt.ofCode ((fmt.code + 32 * wel.toNat + 64 * sin.code) / 64))) = _
  have e1 : fmt.code + 32 * wel.toNat + 64 * sin.code = fmt.code + 32 * (wel.toNat + 2 * sin.code) := by omega
  have e2 : (fmt.code + 32 * wel.toNat + 64 * sin.code) / 64 = sin.code := by omega
  have e3 : (fmt.code + 32 * wel.toNat + 64 * sin.code) / 2 ^ 5 = wel.toNat + 2 * sin.code := by omega
  unfold bit
  rw [e2, e3, e1, Fmt.ofCode_add]
  cases tm <;> cases wel <;> cases sin <;> rfl

theorem camBindComplete (core : Nat) (team : Nat) (entry : Nat) (err : Bool) : Statement (.camBindComplete core team entry err) := of_none rfl rfl rfl

theorem camwait (o : Ops) : Statement (.camwait o) := of_parts rfl rfl rfl (by decide) (by decide) (by decide) rfl

theorem camfree (o : Ops) (tm : Bool) : Statement (.camfree o tm) := by
  cases tm <;> exact of_parts rfl rfl rfl (by decide) (by decide) (by decide) rfl

theorem caminfo (o : Ops) : Statement (.caminfo o) := of_parts rfl rfl rfl (by decide) (by decide) (by decide) rfl

theorem camResidencyLoad (core : Nat) (part : Nat) (team : Nat) (entry : Nat) : Statement (.camResidencyLoad core part team entry) := of_none rfl rfl rfl

theorem shfl (o : Ops) (w : SegW) (b64 : Bool) : Statement (.shfl o w b64) := by
  cases w <;> cases b64 <;> exact of_parts rfl rfl rfl (by decide) (by decide) (by decide) rfl

theorem lanebc (o : Ops) (b64 : Bool) : Statement (.lanebc o b64) := by
  cases b64 <;> exact of_parts rfl rfl rfl (by decide) (by decide) (by decide) rfl

theorem vote (o : Ops) (mode : VoteMode) : Statement (.vote o mode) := by
  cases mode <;> exact of_parts rfl rfl rfl (by decide) (by decide) (by decide) rfl

theorem match_ (o : Ops) (b64 : Bool) : Statement (.match_ o b64) := by
  cases b64 <;> exact of_parts rfl rfl rfl (by decide) (by decide) (by decide) rfl

theorem elect (o : Ops) : Statement (.elect o) := of_parts rfl rfl rfl (by decide) (by decide) (by decide) rfl

theorem base (o : Ops) : Statement (.base o) := of_parts rfl rfl rfl (by decide) (by decide) (by decide) rfl

theorem ld (o : Ops) (m : MemMode) : Statement (.ld o m) :=
  of_parts rfl rfl rfl (by decide) m.opm_lt m.x_lt (by
    show (MemMode.ofCode m.opm m.x).map _ = _
    rw [MemMode.ofCode_read]; rfl)

theorem st (o : Ops) (m : MemMode) : Statement (.st o m) :=
  of_parts rfl rfl rfl (by decide) m.opm_lt m.x_lt (by
    show (MemMode.ofCode m.opm m.x).map _ = _
    rw [MemMode.ofCode_read]; rfl)

theorem ldu (o : Ops) (m : MemMode) : Statement (.ldu o m) :=
  of_parts rfl rfl rfl (by decide) m.opm_lt m.x_lt (by
    show (MemMode.ofCode m.opm m.x).map _ = _
    rw [MemMode.ofCode_read]; rfl)

theorem stu (o : Ops) (m : MemMode) : Statement (.stu o m) :=
  of_parts rfl rfl rfl (by decide) m.opm_lt m.x_lt (by
    show (MemMode.ofCode m.opm m.x).map _ = _
    rw [MemMode.ofCode_read]; rfl)

theorem lds (o : Ops) (m : MemMode) : Statement (.lds o m) :=
  of_parts rfl rfl rfl (by decide) m.opm_lt m.x_lt (by
    show (MemMode.ofCode m.opm m.x).map _ = _
    rw [MemMode.ofCode_read]; rfl)

theorem sts (o : Ops) (m : MemMode) : Statement (.sts o m) :=
  of_parts rfl rfl rfl (by decide) m.opm_lt m.x_lt (by
    show (MemMode.ofCode m.opm m.x).map _ = _
    rw [MemMode.ofCode_read]; rfl)

theorem pref (o : Ops) (sc : Scale) (disp : BitVec 13) : Statement (.pref o sc disp) := by
  have h := disp.isLt
  cases sc <;>
    (refine of_parts rfl rfl rfl (by decide) (by first | decide | omega) (by first | decide | omega) ?_; exact congrArg (fun d => some (Instr.pref o _ d)) (disp13_toNat disp))

theorem icpref (o : Ops) : Statement (.icpref o) := of_parts rfl rfl rfl (by decide) (by decide) (by decide) rfl

theorem gld (o : Ops) (m : MemMode) : Statement (.gld o m) :=
  of_parts rfl rfl rfl (by decide) m.opm_lt m.x_lt (by
    show (MemMode.ofCode m.opm m.x).map _ = _
    rw [MemMode.ofCode_read]; rfl)

theorem gst (o : Ops) (m : MemMode) : Statement (.gst o m) :=
  of_parts rfl rfl rfl (by decide) m.opm_lt m.x_lt (by
    show (MemMode.ofCode m.opm m.x).map _ = _
    rw [MemMode.ofCode_read]; rfl)

theorem glds (o : Ops) (m : MemMode) : Statement (.glds o m) :=
  of_parts rfl rfl rfl (by decide) m.opm_lt m.x_lt (by
    show (MemMode.ofCode m.opm m.x).map _ = _
    rw [MemMode.ofCode_read]; rfl)

theorem gsts (o : Ops) (m : MemMode) : Statement (.gsts o m) :=
  of_parts rfl rfl rfl (by decide) m.opm_lt m.x_lt (by
    show (MemMode.ofCode m.opm m.x).map _ = _
    rw [MemMode.ofCode_read]; rfl)

theorem atom (o : Ops) (m : AtomMode) : Statement (.atom o m) :=
  of_parts rfl rfl rfl (by decide) m.opm_lt m.x_lt (by
    show (AtomMode.ofCode m.opm m.x).map _ = _
    rw [AtomMode.ofCode_read]; rfl)

theorem atoms (o : Ops) (m : AtomMode) : Statement (.atoms o m) :=
  of_parts rfl rfl rfl (by decide) m.opm_lt m.x_lt (by
    show (AtomMode.ofCode m.opm m.x).map _ = _
    rw [AtomMode.ofCode_read]; rfl)

theorem atomu (o : Ops) (m : AtomMode) : Statement (.atomu o m) :=
  of_parts rfl rfl rfl (by decide) m.opm_lt m.x_lt (by
    show (AtomMode.ofCode m.opm m.x).map _ = _
    rw [AtomMode.ofCode_read]; rfl)

theorem red (o : Ops) (m : AtomMode) : Statement (.red o m) :=
  of_parts rfl rfl rfl (by decide) m.opm_lt m.x_lt (by
    show (AtomMode.ofCode m.opm m.x).map _ = _
    rw [AtomMode.ofCode_read]; rfl)

theorem fence (o : Ops) (scope : Scope) : Statement (.fence o scope) := by
  cases scope <;> exact of_parts rfl rfl rfl (by decide) (by decide) (by decide) rfl

theorem fencew (o : Ops) (scope : Scope) : Statement (.fencew o scope) := by
  cases scope <;> exact of_parts rfl rfl rfl (by decide) (by decide) (by decide) rfl

theorem fenceRelease (r : SplitRef) : Statement (.fenceRelease r) := of_none rfl rfl rfl

theorem tdld (o : Ops) : Statement (.tdld o) := of_parts rfl rfl rfl (by decide) (by decide) (by decide) rfl

theorem tdinv (o : Ops) : Statement (.tdinv o) := of_parts rfl rfl rfl (by decide) (by decide) (by decide) rfl

theorem cpy (o : Ops) (x : Bool) : Statement (.cpy o x) := by
  cases x <;> exact of_parts rfl rfl rfl (by decide) (by decide) (by decide) rfl

theorem cpyw (o : Ops) (x : Bool) : Statement (.cpyw o x) := by
  cases x <;> exact of_parts rfl rfl rfl (by decide) (by decide) (by decide) rfl

theorem cpyb (o : Ops) (x : Bool) (ds : Bool) (ss : Bool) : Statement (.cpyb o x ds ss) := by
  cases x <;> cases ds <;> cases ss <;> exact of_parts rfl rfl rfl (by decide) (by decide) (by decide) rfl

theorem copyRequestStart (core : Nat) : Statement (.copyRequestStart core) := of_none rfl rfl rfl

theorem copyDeliver (core : Nat) (req : Nat) (unit : Nat) (rest : Nat) : Statement (.copyDeliver core req unit rest) := of_none rfl rfl rfl

theorem ltinit (o : Ops) : Statement (.ltinit o) := of_parts rfl rfl rfl (by decide) (by decide) (by decide) rfl

theorem ltexpect (o : Ops) : Statement (.ltexpect o) := of_parts rfl rfl rfl (by decide) (by decide) (by decide) rfl

theorem ltarrive (o : Ops) (c : Bool) : Statement (.ltarrive o c) := by
  cases c <;> exact of_parts rfl rfl rfl (by decide) (by decide) (by decide) rfl

theorem ltwait (o : Ops) : Statement (.ltwait o) := of_parts rfl rfl rfl (by decide) (by decide) (by decide) rfl

theorem lttest (o : Ops) : Statement (.lttest o) := of_parts rfl rfl rfl (by decide) (by decide) (by decide) rfl

theorem ltcont (o : Ops) (disp : BitVec 14) : Statement (.ltcont o disp) := by
  have h := disp.isLt
  refine of_parts rfl rfl rfl (by decide) (by first | decide | omega) (by first | decide | omega) ?_
  exact congrArg (fun d => some (Instr.ltcont o d)) (disp14_toNat disp)

theorem ltreset (o : Ops) : Statement (.ltreset o) := of_parts rfl rfl rfl (by decide) (by decide) (by decide) rfl

theorem latchContinuationStart (core : Nat) (team : Nat) (latch : Nat) : Statement (.latchContinuationStart core team latch) := of_none rfl rfl rfl

theorem latchStall (core : Nat) (team : Nat) (latch : Nat) : Statement (.latchStall core team latch) := of_none rfl rfl rfl

theorem tstsp (o : Ops) : Statement (.tstsp o) := of_parts rfl rfl rfl (by decide) (by decide) (by decide) rfl

theorem tldsp (o : Ops) : Statement (.tldsp o) := of_parts rfl rfl rfl (by decide) (by decide) (by decide) rfl

theorem jdesc (o : Ops) : Statement (.jdesc o) := of_parts rfl rfl rfl (by decide) (by decide) (by decide) rfl

theorem join (o : Ops) (op : JoinOp) (seg : Bool) (disp : BitVec 14) : Statement (.join o op seg disp) := by
  have h := disp.isLt
  cases op <;> cases seg <;>
    (refine of_parts rfl rfl rfl (by decide) (by first | decide | omega) (by first | decide | omega) ?_; exact congrArg (fun d => some (Instr.join o _ _ d)) (disp14_toNat disp))

theorem jresume (o : Ops) : Statement (.jresume o) := of_parts rfl rfl rfl (by decide) (by decide) (by decide) rfl

theorem jstat (o : Ops) (w : Bool) : Statement (.jstat o w) := by
  cases w <;> exact of_parts rfl rfl rfl (by decide) (by decide) (by decide) rfl

theorem jcancel (o : Ops) : Statement (.jcancel o) := of_parts rfl rfl rfl (by decide) (by decide) (by decide) rfl

theorem joinSegment (core : Nat) (h : Nat) (fall : Nat) : Statement (.joinSegment core h fall) := of_none rfl rfl rfl

theorem keywayGroupForm (core : Nat) (h : Nat) : Statement (.keywayGroupForm core h) := of_none rfl rfl rfl

theorem enq (o : Ops) (sc : Scale) (disp : BitVec 13) : Statement (.enq o sc disp) := by
  have h := disp.isLt
  cases sc <;>
    (refine of_parts rfl rfl rfl (by decide) (by first | decide | omega) (by first | decide | omega) ?_; exact congrArg (fun d => some (Instr.enq o _ d)) (disp13_toNat disp))

theorem qsub (o : Ops) (sc : Scale) (disp : BitVec 13) : Statement (.qsub o sc disp) := by
  have h := disp.isLt
  cases sc <;>
    (refine of_parts rfl rfl rfl (by decide) (by first | decide | omega) (by first | decide | omega) ?_; exact congrArg (fun d => some (Instr.qsub o _ d)) (disp13_toNat disp))

theorem qunsub (o : Ops) (sc : Scale) (disp : BitVec 13) : Statement (.qunsub o sc disp) := by
  have h := disp.isLt
  cases sc <;>
    (refine of_parts rfl rfl rfl (by decide) (by first | decide | omega) (by first | decide | omega) ?_; exact congrArg (fun d => some (Instr.qunsub o _ d)) (disp13_toNat disp))

theorem tumblerDraw (core : Nat) (err : Bool) : Statement (.tumblerDraw core err) := of_none rfl rfl rfl

theorem heldClassPlace (core : Nat) (team : Nat) : Statement (.heldClassPlace core team) := of_none rfl rfl rfl

theorem qpop (o : Ops) (nb : Bool) : Statement (.qpop o nb) := by
  cases nb <;> exact of_parts rfl rfl rfl (by decide) (by decide) (by decide) rfl

theorem qpush (o : Ops) (nb : Bool) : Statement (.qpush o nb) := by
  cases nb <;> exact of_parts rfl rfl rfl (by decide) (by decide) (by decide) rfl

theorem spawn (o : Ops) (nb : Bool) (disp : BitVec 14) : Statement (.spawn o nb disp) := by
  have h := disp.isLt
  cases nb <;>
    (refine of_parts rfl rfl rfl (by decide) (by first | decide | omega) (by first | decide | omega) ?_; exact congrArg (fun d => some (Instr.spawn o _ d)) (disp14_toNat disp))

theorem ggrow (o : Ops) : Statement (.ggrow o) := of_parts rfl rfl rfl (by decide) (by decide) (by decide) rfl

theorem launch (o : Ops) (args : Bool) : Statement (.launch o args) := by
  cases args <;> exact of_parts rfl rfl rfl (by decide) (by decide) (by decide) rfl

theorem trigger (o : Ops) : Statement (.trigger o) := of_parts rfl rfl rfl (by decide) (by decide) (by decide) rfl

theorem smsg (o : Ops) (sc : Scale) (disp : BitVec 13) : Statement (.smsg o sc disp) := by
  have h := disp.isLt
  cases sc <;>
    (refine of_parts rfl rfl rfl (by decide) (by first | decide | omega) (by first | decide | omega) ?_; exact congrArg (fun d => some (Instr.smsg o _ d)) (disp13_toNat disp))

theorem trap (o : Ops) : Statement (.trap o) := of_parts rfl rfl rfl (by decide) (by decide) (by decide) rfl

theorem rett (o : Ops) (skip : Bool) : Statement (.rett o skip) := by
  cases skip <;> exact of_parts rfl rfl rfl (by decide) (by decide) (by decide) rfl

theorem rdsr (o : Ops) (reg : BitVec 12) : Statement (.rdsr o reg) := by
  have h := reg.isLt
  refine of_parts rfl rfl rfl (by decide) (by first | decide | omega) (by first | decide | omega) ?_
  exact congrArg (fun d => some (Instr.rdsr o d)) (show BitVec.ofNat 12 reg.toNat = reg by simp)

theorem wrsr (o : Ops) (reg : BitVec 12) : Statement (.wrsr o reg) := by
  have h := reg.isLt
  refine of_parts rfl rfl rfl (by decide) (by first | decide | omega) (by first | decide | omega) ?_
  exact congrArg (fun d => some (Instr.wrsr o d)) (show BitVec.ofNat 12 reg.toNat = reg by simp)

theorem featq (o : Ops) : Statement (.featq o) := of_parts rfl rfl rfl (by decide) (by decide) (by decide) rfl

theorem icinv (o : Ops) : Statement (.icinv o) := of_parts rfl rfl rfl (by decide) (by decide) (by decide) rfl

theorem brk (o : Ops) : Statement (.brk o) := of_parts rfl rfl rfl (by decide) (by decide) (by decide) rfl

theorem time (o : Ops) : Statement (.time o) := of_parts rfl rfl rfl (by decide) (by decide) (by decide) rfl

theorem resultReturn (id : Nat) (ans : Answer) : Statement (.resultReturn id ans) := of_none rfl rfl rfl

theorem parkedInstructionAct (r : SplitRef) : Statement (.parkedInstructionAct r) := of_none rfl rfl rfl

theorem promotion (r : SplitRef) : Statement (.promotion r) := of_none rfl rfl rfl

theorem hlLd (rd : BitVec 5) (rs1 : BitVec 5) (imm : BitVec 12) : Statement (.hlLd rd rs1 imm) := of_none rfl rfl rfl

theorem hlSt (rs1 : BitVec 5) (rs2 : BitVec 5) (imm : BitVec 12) : Statement (.hlSt rs1 rs2 imm) := of_none rfl rfl rfl

theorem hlAtomic (op : HlOp) (rd : BitVec 5) (rs1 : BitVec 5) (rs2 : BitVec 5) : Statement (.hlAtomic op rd rs1 rs2) := of_none rfl rfl rfl

theorem hlInstall (rs1 : BitVec 5) (rs2 : BitVec 5) : Statement (.hlInstall rs1 rs2) := of_none rfl rfl rfl

theorem hlPref (rs1 : BitVec 5) : Statement (.hlPref rs1) := of_none rfl rfl rfl

theorem hlMsg (rs1 : BitVec 5) (rs2 : BitVec 5) : Statement (.hlMsg rs1 rs2) := of_none rfl rfl rfl

theorem hlBudget (rd : BitVec 5) : Statement (.hlBudget rd) := of_none rfl rfl rfl

theorem hlDone : Statement .hlDone := of_none rfl rfl rfl

theorem handlerDispatch (slice : Nat) : Statement (.handlerDispatch slice) := of_none rfl rfl rfl

theorem hingeOverrun (slice : Nat) : Statement (.hingeOverrun slice) := of_none rfl rfl rfl

theorem messageArrive (id : Nat) : Statement (.messageArrive id) := of_none rfl rfl rfl

theorem homeRead (req : Nat) (err : Bool) : Statement (.homeRead req err) := of_none rfl rfl rfl

theorem homeWrite (req : Nat) (err : Bool) : Statement (.homeWrite req err) := of_none rfl rfl rfl

theorem homeStrongAccess (req : Nat) (err : Bool) : Statement (.homeStrongAccess req err) := of_none rfl rfl rfl

theorem homeAtomic (req : Nat) (err : Bool) : Statement (.homeAtomic req err) := of_none rfl rfl rfl

theorem enqPush (r : SplitRef) (err : Bool) : Statement (.enqPush r err) := of_none rfl rfl rfl

theorem lineFill (home : HomeLoc) (line : Nat) (err : Bool) : Statement (.lineFill home line err) := of_none rfl rfl rfl

theorem lineEvict (home : HomeLoc) (line : Nat) : Statement (.lineEvict home line) := of_none rfl rfl rfl

theorem replicaInstall (id : Nat) : Statement (.replicaInstall id) := of_none rfl rfl rfl

theorem dirtyRingRoom (vf : Nat) (cons : Nat) : Statement (.dirtyRingRoom vf cons) := of_none rfl rfl rfl

theorem remoteRequest (dev : Nat) (vf : Nat) (host : Bool) (va : Nat) (op : RemoteOp) : Statement (.remoteRequest dev vf host va op) := of_none rfl rfl rfl

theorem fabricTimeout (req : Nat) : Statement (.fabricTimeout req) := of_none rfl rfl rfl

theorem dramRefresh (die : Nat) : Statement (.dramRefresh die) := of_none rfl rfl rfl

theorem temperatureReport (die : Nat) (celsius : Nat) : Statement (.temperatureReport die celsius) := of_none rfl rfl rfl

theorem powerThrottle : Statement .powerThrottle := of_none rfl rfl rfl

theorem teamPlace (grid : Nat) : Statement (.teamPlace grid) := of_none rfl rfl rfl

theorem nodeStart (graph : Nat) (node : Nat) : Statement (.nodeStart graph node) := of_none rfl rfl rfl

theorem nodeEvaluate (graph : Nat) (node : Nat) : Statement (.nodeEvaluate graph node) := of_none rfl rfl rfl

theorem gridTrigger (grid : Nat) : Statement (.gridTrigger grid) := of_none rfl rfl rfl

theorem gridRetire (grid : Nat) : Statement (.gridRetire grid) := of_none rfl rfl rfl

theorem preemptTeam (team : Nat) : Statement (.preemptTeam team) := of_none rfl rfl rfl

theorem teamResume (team : Nat) : Statement (.teamResume team) := of_none rfl rfl rfl

theorem quantumEnd (core : Nat) : Statement (.quantumEnd core) := of_none rfl rfl rfl

theorem faultRingRoom (vf : Nat) (cons : Nat) : Statement (.faultRingRoom vf cons) := of_none rfl rfl rfl

theorem kis1Translate (vf : Nat) (obj : Nat) (kernel : Nat) : Statement (.kis1Translate vf obj kernel) := of_none rfl rfl rfl

theorem icFill (core : Nat) (vf : Nat) (line : Nat) (err : Bool) : Statement (.icFill core vf line err) := of_none rfl rfl rfl

theorem handlerImageInstall (vf : Nat) : Statement (.handlerImageInstall vf) := of_none rfl rfl rfl

theorem createVf (c : VfConfig) : Statement (.createVf c) := of_none rfl rfl rfl

theorem destroyVf (vf : Nat) : Statement (.destroyVf vf) := of_none rfl rfl rfl

theorem resumeVf (vf : Nat) : Statement (.resumeVf vf) := of_none rfl rfl rfl

theorem loadObject (vf : Nat) (object : List Byte) (plan : LoadPlan) : Statement (.loadObject vf object plan) := of_none rfl rfl rfl

theorem unloadObject (vf : Nat) (obj : Nat) : Statement (.unloadObject vf obj) := of_none rfl rfl rfl

theorem submitGraph (vf : Nat) (base : Nat) (nodes : Nat) (roots : List Nat) : Statement (.submitGraph vf base nodes roots) := of_none rfl rfl rfl

theorem invalidate (vf : Nat) (lo : Nat) (hi : Nat) : Statement (.invalidate vf lo hi) := of_none rfl rfl rfl

theorem invalidateComplete (id : Nat) : Statement (.invalidateComplete id) := of_none rfl rfl rfl

theorem resolveRetry (vf : Nat) (token : Nat) : Statement (.resolveRetry vf token) := of_none rfl rfl rfl

theorem resolveFail (vf : Nat) (token : Nat) : Statement (.resolveFail vf token) := of_none rfl rfl rfl

theorem readCounters (vf : Nat) (buf : Nat) : Statement (.readCounters vf buf) := of_none rfl rfl rfl

theorem halt (team : Nat) : Statement (.halt team) := of_none rfl rfl rfl

theorem quiesce (team : Nat) : Statement (.quiesce team) := of_none rfl rfl rfl

theorem resume (team : Nat) : Statement (.resume team) := of_none rfl rfl rfl

theorem readContext (team : Nat) (item : CtxItem) : Statement (.readContext team item) := of_none rfl rfl rfl

theorem writeContext (team : Nat) (item : CtxItem) (value : Word) : Statement (.writeContext team item value) := of_none rfl rfl rfl

theorem migrateOut (vf : Nat) : Statement (.migrateOut vf) := of_none rfl rfl rfl

theorem migrateIn (vf : Nat) (offered : VfConfig) (offset : Nat) (root : Nat) : Statement (.migrateIn vf offered offset root) := of_none rfl rfl rfl

theorem coldStart (reduced : Bool) (skew : List Nat) (coreMap : List Nat) (sliceMap : List Nat) : Statement (.coldStart reduced skew coreMap sliceMap) := of_none rfl rfl rfl

theorem warmStart (reduced : Bool) (skew : List Nat) : Statement (.warmStart reduced skew) := of_none rfl rfl rfl

theorem fullServiceChange : Statement .fullServiceChange := of_none rfl rfl rfl

theorem onlineRowReplacement (die : Nat) (channel : Nat) (row : Nat) : Statement (.onlineRowReplacement die channel row) := of_none rfl rfl rfl

theorem fabricLaneRetrain (port : Nat) (lane : Nat) : Statement (.fabricLaneRetrain port lane) := of_none rfl rfl rfl

theorem deviceTimeTick : Statement .deviceTimeTick := of_none rfl rfl rfl

theorem lostSectorClear (home : HomeLoc) (sector : Nat) : Statement (.lostSectorClear home sector) := of_none rfl rfl rfl

theorem powerThrottleEnd : Statement .powerThrottleEnd := of_none rfl rfl rfl

theorem debuggerAttach (vf : Nat) (on : Bool) : Statement (.debuggerAttach vf on) := of_none rfl rfl rfl

theorem hingeRiscvInstruction (len : Nat) (r : Rv) : Statement (.hingeRiscvInstruction len r) := of_none rfl rfl rfl

theorem unitMarkedSuspect (u : PartUnit) : Statement (.unitMarkedSuspect u) := of_none rfl rfl rfl

end Laws.Modifiers

end Sys2Proof
end

