-- ==== Sys2Proof/Tests/Slice0.lean ====
section
/-!
SUPPORT. Tests of this model, and for each statement of Certificates/Slice0/Obligations.lean a state that meets its hypotheses. Expected
values are the spec's own worked examples and tables, or computed by hand from its rules; each test names its rule.
-/
set_option Elab.async false

namespace Sys2Proof.Tests
open Sys2Proof.Machine

/-! ## Small states and what is looked at -/

/-- An instruction's common fields when nothing is asked: no map, both guards q7. -/
def w : Ops :=
  { stop := false, yieldHint := false, d := .zero, a := .zero, b := .zero, c := .zero, e := .zero, ma := .none, mb := .none, mc := .none,
    g1 := .always, g2 := .always, h := 0, lv := false, ftz := false, rm := .rne, imm := none }

def v (n : BitVec 8) : Operand := .vec n
def sr (n : BitVec 8) : Operand := .sca n
def im (n : BitVec 8) : Operand := .imm n
def pr (n : BitVec 4) : Operand := .cls 0 n
def qr (n : BitVec 4) : Operand := .cls 1 n
def br (n : BitVec 4) : Operand := .cls 2 n

/-- The split of the tests: the one split of group 0 of team 0 on core 0. -/
def r0 : SplitRef := { core := 0, team := 0, grp := 0, split := 0 }

/-- The part with one team on core 0, its group changed by `f`, and the split in focus. -/
def lab (f : Group → Group) : State :=
  { ((State.reset.withFetchWord 128 0).modGroup r0 f) with agenda := [], focus := .split r0 }

/-- Vector register n holds these lane words, 0 in the lanes after them. -/
def vec (n : Nat) (xs : List Nat) (g : Group) : Group := g.setVec n allLanes fun l => BitVec.ofNat 32 (xs.getD l 0)

/-- The low and high words of pairs, one pair a lane. -/
def pairs (n : Nat) (xs : List Nat) (g : Group) : Group := vec (n + 1) (xs.map (· / 2 ^ 32)) (vec n (xs.map (· % 2 ^ 32)) g)

def sca (n x : Nat) (g : Group) : Group := g.setSreg n (BitVec.ofNat 32 x)
def prd (n : Nat) (m : Nat) (g : Group) : Group := g.setPreg n allLanes fun l => Nat.testBit m l
def qrd (n : Nat) (b : Bool) (g : Group) : Group := g.setQreg n b

/-- The split's mask. -/
def masked (m : Nat) (g : Group) : Group := g.modSplit 0 fun p => { p with mask := BitVec.ofNat 32 m }

/-- The split's pc and mask stack. -/
def placed (pc : Nat) (fs : List Frame) (g : Group) : Group := g.modSplit 0 fun p => { p with pc := pc, frames := fs }

def next? (o : Host.Outcome State Fault Refusal) : Option State :=
  match o with
  | .next t => some t
  | _ => none

def group? (o : Host.Outcome State Fault Refusal) : Option Group := (next? o).bind fun t => t.group? r0
def split? (o : Host.Outcome State Fault Refusal) : Option Split := (next? o).bind fun t => t.split? r0

/-- Lane l of vector register n after instruction i. -/
def lane (i : Instr) (s : State) (n l : Nat) : Option Nat := (group? (exec i s)).map fun g => (g.vlane n l).toNat

/-- A pair in lane l after instruction i. -/
def lane64 (i : Instr) (s : State) (n l : Nat) : Option Nat :=
  (group? (exec i s)).map fun g => (g.vlane n l).toNat + 2 ^ 32 * (g.vlane (n + 1) l).toNat

/-- A scalar register, and a predicate register as a number, after instruction i. -/
def scal (i : Instr) (s : State) (n : Nat) : Option Nat := (group? (exec i s)).map fun g => (g.sreg n).toNat
def pred (i : Instr) (s : State) (n : Nat) : Option Nat := (group? (exec i s)).map fun g => (g.preg n).toNat

/-- The fault that instruction i raises where the grid traps: TCODE after it. -/
def trapCode (i : Instr) (s : State) : Option Nat :=
  (group? (exec i { s with grids := s.grids.map fun g => { g with trapv := true, trape := 9 } })).map (·.tcode)

/-- The instruction's context meets what R148 asks, and a further condition. -/
def readyAnd (s : State) (i : Instr) (p : Ctx → Bool) : Bool :=
  match s.ctx? i with
  | some c =>
    (!c.split.unwound || c.expected) && c.enabled && formatsOk i && operandsOk i c.o c.team.kernel.vregs && c.mapsStop == none && p c
  | none => false

/-- Some split in focus may act on the instruction, and its context meets p. -/
def Meets (s : State) (i : Instr) (p : Ctx → Bool) : Prop := ∃ c, s.Ready i c ∧ p c = true

theorem meets_of {s : State} {i : Instr} {p : Ctx → Bool} (h : readyAnd s i p = true) : Meets s i p := by
  unfold readyAnd at h
  split at h
  · rename_i c hc
    simp only [Bool.and_eq_true, Bool.or_eq_true, Bool.not_eq_true', beq_iff_eq] at h
    exact ⟨c, ⟨hc, h.1.1.1.1.1, h.1.1.1.1.2, h.1.1.1.2, h.1.1.2, h.1.2⟩, h.2⟩
  · simp at h

/-- Every instruction of a list may act at a state. -/
def AllMeet (s : State) (l : List Instr) : Prop := ∀ i ∈ l, Meets s i fun c => c.x != 0

theorem allMeet_of {s : State} {l : List Instr} (h : (l.all fun i => readyAnd s i fun c => c.x != 0) = true) : AllMeet s l :=
  fun i hi => meets_of (List.all_eq_true.1 h i hi)

/-! ## Well-formedness: one ill-formed term for each check, which the check refuses -/

/-- 09 R137, R139, R141, R142, R144, 12 R192: the common checks, one field out of place in a form that does not use it. -/
theorem test_wf_common :
    ([.nop { w with d := .vec 1 }, .nop { w with a := .imm 1 }, .mov { w with b := .vec 1 } .i32, .mov { w with c := .vec 1 } .i32,
      .mov { w with e := .vec 1 } .i32, .nop { w with ma := .rev }, .mov { w with mb := .rev } .i32, .mov { w with mc := .rev } .i32,
      .mov { w with h := 1 } .i32, .nop { w with lv := true }, .mov { w with ftz := true } .i32, .mov { w with rm := .ru } .i32,
      .nop { w with imm := some 0 }, .mov { w with imm := some 0, ma := .rev } .i32, .endif { w with g1 := ⟨false, false, 0⟩ },
      .endif { w with g2 := ⟨true, true, 7⟩ }] : List Instr).all (fun i => !i.wf) = true := by decide +kernel

/-- The rules of single instructions (11 R163, R165, R181, 12 R192, R201, R204, R210, R213, 13 R215, R223). -/
theorem test_wf_own :
    ([.if_ w false 0, .else_ w 0x3FFF, .loop w 0, .movi w .i32, .iabs w .u32 false, .pset { w with d := .vec 1 } .h2 .eq true,
      .cambind w false .f16 true .h2, .cambind w false .f16 false .bf2, .ld w ⟨.b32, .x1, .weak, true, 0⟩, .ldu w ⟨.b32, .x1, .weak, true, 0⟩,
      .gld w ⟨.b32, .x1, .weak, true, 0⟩, .gld w ⟨.b32, .x2, .weak, false, 0⟩, .gst w ⟨.b32, .x2, .weak, false, 0⟩, .yield w false 1,
      .lds w ⟨.b32, .x1, .strong, false, 0⟩, .glds w ⟨.b32, .x1, .weak, true, 0⟩, .gsts w ⟨.b32, .x1, .ordered, false, 0⟩,
      .sts w ⟨.b32, .x1, .strong, false, 0⟩, .atom w ⟨.and, .f32, .x1, false, false, 0⟩, .atomu w ⟨.inc, .i32, .x1, false, false, 0⟩,
      .atoms w ⟨.add, .i32, .x1, true, false, 0⟩, .atoms w ⟨.add, .i32, .x1, false, true, 0⟩, .red w ⟨.swap, .i32, .x1, false, false, 0⟩,
      .red w ⟨.cas, .i32, .x1, false, false, 0⟩, .red w ⟨.add, .i32, .x1, true, false, 0⟩, .ltcont { w with c := .sca 3 } 1,
      .spawn { w with c := .sca 3 } false 1] : List Instr).all (fun i => !i.wf) = true := by decide +kernel

/-- RISC-V's own limits of the hinge core's terms (log entry 8). -/
theorem test_wf_hinge :
    ([.jal 1 3, .branch .beq 1 2 5, .aluImm .sub 1 2 0, .aluImm .sll 1 2 64, .aluImmW .subw 1 2 0, .aluImmW .sraw 1 2 32, .illegal] : List Rv).all
      (fun r => !(Instr.hingeRiscvInstruction 4 r).wf) = true ∧ (Instr.hingeRiscvInstruction 3 .fence).wf = false := by decide +kernel

/-- 09 R148: words that steps 1 and 2 refuse, each by its name. -/
theorem test_rejects :
    (decodeWord 0x1000000000000000000007BC00000000#128 matches .error .reservedBits) = true ∧
    (decodeWord 0x000F000000000000000007BC00000000#128 matches .error .noOpcode) = true := by decide +kernel

/-! ## Decoding: words written out from R135, R137, R142, R147 and the tables of the references -/

/-- 12 R192. -/
theorem test_decode_control :
    ([(0x4000000000000000000007BC00000000, .nop { w with yieldHint := true }),
      (0x0001002010000000000007BC00004002, .if_ { w with a := .cls 0 1 } true 2),
      (0x0002000000000000000007BC00000007, .else_ w 7),
      (0x0003000000000000000007BC00000000, .endif w),
      (0x0004000000000000000007BC00000009, .loop w 9),
      (0x0005000000000000000007BC00000000, .endloop w),
      (0x0006002130000000000007BC00000000, .break_ { w with a := .cls 1 3 } false),
      (0x0007002020000000000007BC00004000, .cont { w with a := .cls 0 2 } true),
      (0x000800217C000000000007BC01001234, .jmp { w with a := .cls 1 7, b := .imm 0, imm := some 0x1234 } false),
      (0x0009002044240000000007BC00004000, .call { w with a := .cls 0 4, b := .sca 9 } true),
      (0x000A002000000000000007BC00000000, .ret { w with a := .cls 0 0 } false),
      (0x000B000000000000000009BC00000000, .exit { w with g1 := ⟨true, false, 3⟩ }),
      (0x000C00104C040000000007BC00007FFE, .yield { w with a := .sca 4, b := .imm 1 } true 0x3FFE),
      (0x000D0030FC080000000007BC00004000, .bar { w with a := .imm 15, b := .imm 2 } true),
      (0x800E001014080000000007BC00000000, .barc { w with a := .sca 1, b := .sca 2, stop := true } false)] : List (Nat × Instr)).all
      (fun p => decodeTableWord 128 p.1 == some p.2 && encodeWord p.2 == some (BitVec.ofNat 128 p.1) && p.2.wf) = true := by decide +kernel

/-- 11 R163. -/
theorem test_decode_integer :
    ([(0x0100011060000000000007BC00008000, .mov { w with d := .vec 4, a := .sca 6 } .i64),
      (0x010140F00000000037AB67BC01007EEF, .movi { w with d := .sca 3, a := .imm 0, imm := some 0xDEADBEEF } .u32),
      (0x010200C010080000000007BC00010000, .iadd { w with d := .vec 3, a := .vec 1, b := .vec 2 } .i32 true),
      (0x0103020020100000000007BC0000C000, .isub { w with d := .vec 8, a := .vec 2, b := .vec 4 } .u64 false),
      (0x010400C01FEC0000000007BC00004000, .imul { w with d := .vec 3, a := .vec 1, b := .imm 251 } .u32),
      (0x010500C010090700000117BC20000000, .imad { w with d := .vec 3, a := .vec 1, b := .vec 2, c := .sca 7, mc := .rev, lv := true } .i32),
      (0x0106018020100000000007BC00008000, .imulhi { w with d := .vec 6, a := .vec 2, b := .vec 4 } .i64),
      (0x010700C010080000000007BC00004000, .imin { w with d := .vec 3, a := .vec 1, b := .vec 2 } .u32),
      (0x010800C0100800000000013C00000000, .imax { w with d := .vec 3, a := .vec 1, b := .vec 2, g1 := ⟨false, false, 2⟩ } .i32),
      (0x0109008060000000000007BC00018000, .iabs { w with d := .vec 2, a := .vec 6 } .i64 true),
      (0x010A004060000000000007BC00004000, .ineg { w with d := .vec 1, a := .vec 6 } .u32 false),
      (0x010B009040140000000007BC000B0000, .lea64 { w with d := .vec 2, a := .sca 4, b := .vec 5 } 3 true),
      (0x010C808010080000000007BC000A4000, .iset { w with d := .cls 0 2, a := .vec 1, b := .vec 2 } .ge .u32),
      (0x010D008030120500000007BC00000000, .sel { w with d := .vec 2, a := .vec 3, b := .vec 4, c := .cls 0 5 } .i32),
      (0x010E8460184A0300000007BC000F0000, .plop { w with d := .cls 1 1, a := .cls 0 1, b := .cls 1 2, c := .cls 0 3 } 0x3C)] : List (Nat × Instr)).all
      (fun p => decodeTableWord 128 p.1 == some p.2 && encodeWord p.2 == some (BitVec.ofNat 128 p.1) && p.2.wf) = true := by decide +kernel

/-- 11 R169. -/
theorem test_decode_bit :
    ([(0x0200008040180000000007BC00000000, .and { w with d := .vec 2, a := .vec 4, b := .vec 6 } false),
      (0x0201008040180000000007BC00008000, .or { w with d := .vec 2, a := .vec 4, b := .vec 6 } true),
      (0x0202008040180000000007BC00000000, .xor { w with d := .vec 2, a := .vec 4, b := .vec 6 } false),
      (0x0203009040000000000007BC00000000, .not { w with d := .vec 2, a := .sca 4 } false),
      (0x020400804C0C0000000007BC00000000, .shl { w with d := .vec 2, a := .vec 4, b := .imm 3 } false),
      (0x020500804C0C0000000007BC00000000, .shr { w with d := .vec 2, a := .vec 4, b := .imm 3 } false),
      (0x020600804C0C0000000007BC00008000, .sar { w with d := .vec 2, a := .vec 4, b := .imm 3 } true),
      (0x020700804C0F0800000007BC00004000, .bfx { w with d := .vec 2, a := .vec 4, b := .imm 3, c := .imm 8 } false true),
      (0x02080080401B0842400007BC00008000, .bfi { w with d := .vec 2, a := .vec 4, b := .vec 6, c := .imm 8, e := .sca 9 } true),
      (0x0209004040000000000007BC00008000, .popc { w with d := .vec 1, a := .vec 4 } true),
      (0x020A405040000000000007BC00000000, .clz { w with d := .sca 1, a := .sca 4 } false),
      (0x020B0040400000003A0007BC00000000, .brev { w with d := .vec 1, a := .vec 4, ma := .bcast0 } false)] : List (Nat × Instr)).all
      (fun p => decodeTableWord 128 p.1 == some p.2 && encodeWord p.2 == some (BitVec.ofNat 128 p.1) && p.2.wf) = true := by decide +kernel

/-- 11 R171. -/
theorem test_decode_fp :
    ([(0x030000C010080000000007BC12000000, .fadd { w with d := .vec 3, a := .vec 1, b := .vec 2, ftz := true, rm := .rz }),
      (0x030100C010080000000007BC04000000, .fsub { w with d := .vec 3, a := .vec 1, b := .vec 2, rm := .rd }),
      (0x030200C01C0000000FE007BC01000000, .fmul { w with d := .vec 3, a := .vec 1, b := .imm 0, imm := some 0x3F800000 }),
      (0x8303010010080300030000BC00000000, .ffma { w with d := .vec 4, a := .vec 1, b := .vec 2, c := .vec 3, ma := .user 2, g1 := ⟨false, false, 1⟩, stop := true }),
      (0x030400C010080000000007BC00000000, .fmin { w with d := .vec 3, a := .vec 1, b := .vec 2 }),
      (0x030500C010080000000007BC10000000, .fmax { w with d := .vec 3, a := .vec 1, b := .vec 2, ftz := true }),
      (0x0306010020180000005807BC00000000, .fmaxx { w with d := .vec 4, a := .vec 2, b := .vec 6, mb := .xor 4 }),
      (0x0307010020180000000007BC20000000, .fminx { w with d := .vec 4, a := .vec 2, b := .vec 6, lv := true }),
      (0x030800C010000000000007BC00000000, .fabs { w with d := .vec 3, a := .vec 1 }),
      (0x030900D010000000000007BC10000000, .fneg { w with d := .vec 3, a := .sca 1, ftz := true }),
      (0x030A80C010080000000007BC0001C000, .fset { w with d := .cls 0 3, a := .vec 1, b := .vec 2 } .nan),
      (0x030B00C010000000000007BC06000000, .frnd { w with d := .vec 3, a := .vec 1, rm := .ru })] : List (Nat × Instr)).all
      (fun p => decodeTableWord 128 p.1 == some p.2 && encodeWord p.2 == some (BitVec.ofNat 128 p.1) && p.2.wf) = true := by decide +kernel

/-- 11 R176. -/
theorem test_decode_special :
    ([(0x040000C010000000000007BC06000000, .frcp { w with d := .vec 3, a := .vec 1, rm := .ru }),
      (0x040100C010000000000007BC10000000, .frsq { w with d := .vec 3, a := .vec 1, ftz := true }),
      (0x040200C010000000000007BC02000000, .fsqrt { w with d := .vec 3, a := .vec 1, rm := .rz }),
      (0x040300C010000000000007BC00000000, .fex2 { w with d := .vec 3, a := .vec 1 }),
      (0x0404010010000000000007BC00000000, .flg2 { w with d := .vec 4, a := .vec 1 }),
      (0x0405014010000000000007BC00000000, .fsin { w with d := .vec 5, a := .vec 1 }),
      (0x0406018010000000000007BC00000000, .fcos { w with d := .vec 6, a := .vec 1 }),
      (0x040701C010000000000007BC00000000, .ftanh { w with d := .vec 7, a := .vec 1 }),
      (0x040800C024100000000007BC00000000, .hrnd { w with d := .vec 3, a := .vec 2, b := .sca 4 })] : List (Nat × Instr)).all
      (fun p => decodeTableWord 128 p.1 == some p.2 && encodeWord p.2 == some (BitVec.ofNat 128 p.1) && p.2.wf) = true := by decide +kernel

/-- 11 R179. -/
theorem test_decode_packed :
    ([(0x050000C010080000000007BC00010000, .padd { w with d := .vec 3, a := .vec 1, b := .vec 2 } .h2 true),
      (0x050100C010080000000007BC00004000, .psub { w with d := .vec 3, a := .vec 1, b := .vec 2 } .bf2 false),
      (0x050200C010080000000007BC00008000, .pmul { w with d := .vec 3, a := .vec 1, b := .vec 2 } .q4e4 false),
      (0x050300C010080900000007BC0401C000, .pfma { w with d := .vec 3, a := .vec 1, b := .vec 2, c := .vec 9, rm := .rd } .q4e5 true),
      (0x050400C010080000000007BC00000000, .pmin { w with d := .vec 3, a := .vec 1, b := .vec 2 } .h2),
      (0x050500C010080000000007BC00004000, .pmax { w with d := .vec 3, a := .vec 1, b := .vec 2 } .bf2),
      (0x050680C010080000000007BC00148000, .pset { w with d := .cls 0 3, a := .vec 1, b := .vec 2 } .q4e4 .lt true),
      (0x050700C010080500000007BC00000000, .pdot { w with d := .vec 3, a := .vec 1, b := .vec 2, c := .vec 5 } .h2 false)] : List (Nat × Instr)).all
      (fun p => decodeTableWord 128 p.1 == some p.2 && encodeWord p.2 == some (BitVec.ofNat 128 p.1) && p.2.wf) = true := by decide +kernel

/-- 11 R183 to R188. -/
theorem test_decode_conversion :
    ([(0x0600024030000000000007BC00004024, .cvt { w with d := .vec 9, a := .vec 3 } .e4m3 .f32 true),
      (0x060100C010080000000007BC00014000, .pack2 { w with d := .vec 3, a := .vec 1, b := .vec 2 } true true),
      (0x0602014010080301000007BC00000000, .pack4 { w with d := .vec 5, a := .vec 1, b := .vec 2, c := .vec 3, e := .vec 4 } false false),
      (0x0603010010000000000007BC00008000, .unpk { w with d := .vec 4, a := .vec 1 } .q4e4),
      (0x060400C010000000000007BC00004000, .fkey { w with d := .vec 3, a := .vec 1 } true),
      (0x0605010010080000000007BC00004000, .sprune { w with d := .vec 4, a := .vec 1, b := .vec 2 } true),
      (0x0606410010000000000007BC00008000, .qscale { w with d := .sca 4, a := .vec 1 } .e2m1)] : List (Nat × Instr)).all
      (fun p => decodeTableWord 128 p.1 == some p.2 && encodeWord p.2 == some (BitVec.ofNat 128 p.1) && p.2.wf) = true := by decide +kernel

/-- 12 R201. -/
theorem test_decode_lanes :
    ([(0x07008D50C0000000000007BC000040F7, .cambind { w with d := .cls 3 5, a := .sca 12 } true .s24 true .q4e5),
      (0x0701002330000000000007BC00000000, .camwait { w with a := .cls 3 3 }),
      (0x07028C8000000000000007BC00004000, .camfree { w with d := .cls 3 2 } true),
      (0x070300E3F0000000000007BC00000000, .caminfo { w with d := .vec 3, a := .cls 3 15 }),
      (0x070400804C040000000007BC20018000, .shfl { w with d := .vec 2, a := .vec 4, b := .imm 1, lv := true } .w8 true),
      (0x070540804C7C0000000007BC00000000, .lanebc { w with d := .sca 2, a := .vec 4, b := .imm 31 } false),
      (0x070600E010000000000007BC0000C000, .vote { w with d := .vec 3, a := .cls 0 1 } .ballot),
      (0x070700C040000000000007BC00010000, .match_ { w with d := .vec 3, a := .vec 4 } true),
      (0x0708818000000000000007BC00000000, .elect { w with d := .cls 0 6 })] : List (Nat × Instr)).all
      (fun p => decodeTableWord 128 p.1 == some p.2 && encodeWord p.2 == some (BitVec.ofNat 128 p.1) && p.2.wf) = true := by decide +kernel

/-- 12 R204, R206. -/
theorem test_decode_memory :
    ([(0x0800885040000000000007BC00000000, .base { w with d := .cls 2 1, a := .sca 4 }),
      (0x0801006200000000000007BC00184000, .ld { w with d := .vec 1, a := .cls 2 0 } ⟨.f32, .x8, .weak, false, 0⟩),
      (0x0802002220000700000117BC52813FFC, .st { w with a := .cls 2 2, c := .vec 7, mc := .rev, h := 1, ftz := true, rm := .rz } ⟨.e4m3, .x1, .ordered, true, 8188⟩),
      (0x080341A21C080000000007BC004C0008, .ldu { w with d := .sca 6, a := .cls 2 1, b := .imm 2 } ⟨.b64, .x2, .strong, false, 8⟩),
      (0x08040022140B0900000007BC00022000, .stu { w with a := .cls 2 1, b := .sca 2, c := .imm 9 } ⟨.u8, .x1, .weak, true, 0⟩),
      (0x080500D050080000000007BC00228FFF, .lds { w with d := .vec 3, a := .sca 5, b := .vec 2 } ⟨.u16, .x16, .weak, false, 4095⟩),
      (0x0806003000080300000007BC20104000, .sts { w with a := .imm 0, b := .vec 2, c := .vec 3, lv := true } ⟨.f32, .x4, .weak, false, 0⟩),
      (0x08070022000C0000000007BC80101FF8, .pref { w with a := .cls 2 0, b := .vec 3, h := 2 } .x4 0x1FF8),
      (0x080800300C100000000007BC0100004D, .icpref { w with a := .imm 0, b := .imm 4, imm := some 0x4D })] : List (Nat × Instr)).all
      (fun p => decodeTableWord 128 p.1 == some p.2 && encodeWord p.2 == some (BitVec.ofNat 128 p.1) && p.2.wf) = true := by decide +kernel

/-- 12 R210. -/
theorem test_decode_gather :
    ([(0x0900004040000000000007BCC0404010, .gld { w with d := .vec 1, a := .vec 4, h := 3 } ⟨.f32, .x1, .strong, false, 16⟩),
      (0x0901000040000700000007BC00004000, .gst { w with a := .vec 4, c := .vec 7 } ⟨.f32, .x1, .weak, false, 0⟩),
      (0x0902001030080600000007BC001C0008, .glds { w with a := .sca 3, b := .vec 2, c := .vec 6 } ⟨.b64, .x8, .weak, false, 8⟩),
      (0x090300003C040600000007BD0001C000, .gsts { w with a := .vec 3, b := .imm 1, c := .vec 6, h := 4 } ⟨.i8, .x1, .weak, false, 0⟩)] : List (Nat × Instr)).all
      (fun p => decodeTableWord 128 p.1 == some p.2 && encodeWord p.2 == some (BitVec.ofNat 128 p.1) && p.2.wf) = true := by decide +kernel

/-- 12 R212, R213. -/
theorem test_decode_atomic :
    ([(0x0A00012220040602000007BC006DDFF8, .atom { w with d := .vec 4, a := .cls 2 2, b := .vec 1, c := .vec 6, e := .vec 8 } ⟨.cas, .u64, .x8, true, false, 4088⟩),
      (0x0A01011020040600000007BC00460000, .atoms { w with d := .vec 4, a := .sca 2, b := .vec 1, c := .vec 6 } ⟨.inc, .u32, .x4, false, false, 0⟩),
      (0x0A0241222C030100000007BC00042004, .atomu { w with d := .sca 4, a := .cls 2 2, b := .imm 0, c := .imm 1 } ⟨.add, .u32, .x1, false, true, 4⟩),
      (0x0A03002220040600000007BC40508000, .red { w with a := .cls 2 2, b := .vec 1, c := .vec 6, h := 1 } ⟨.max, .f32, .x4, false, false, 0⟩),
      (0x0A04000000000000000007BC0000C000, .fence w .dev),
      (0x8A05000000000000000007BC00000000, .fencew { w with stop := true } .grp)] : List (Nat × Instr)).all
      (fun p => decodeTableWord 128 p.1 == some p.2 && encodeWord p.2 == some (BitVec.ofNat 128 p.1) && p.2.wf) = true := by decide +kernel

/-- 13 R219 to R224. -/
theorem test_decode_copy :
    ([(0x0B00003090000000000007BC00000000, .tdld { w with a := .imm 9 }),
      (0x0B01003000000000000007BC01000FFF, .tdinv { w with a := .imm 0, imm := some 0xFFF }),
      (0x0B020011445408C00000003C00004000, .cpy { w with a := .sca 20, b := .sca 21, c := .vec 8, e := .imm 0, g1 := ⟨false, false, 0⟩ } true),
      (0x0B0300107C240441400007BC00000000, .cpyw { w with a := .sca 7, b := .imm 9, c := .vec 4, e := .sca 5 } false),
      (0x0B040000441B40C0C00007BC00014000, .cpyb { w with a := .vec 4, b := .sca 6, c := .imm 64, e := .imm 3 } true false true),
      (0x0B0500303C070200000007BC00000000, .ltinit { w with a := .imm 3, b := .imm 1, c := .imm 2 }),
      (0x0B0600303C000000000007BC01001000, .ltexpect { w with a := .imm 3, b := .imm 0, imm := some 0x1000 }),
      (0x0B0700103C000000000007BC00004000, .ltarrive { w with a := .sca 3, b := .imm 0 } true),
      (0x0B08001054280000000007BC00000000, .ltwait { w with a := .sca 5, b := .sca 10 }),
      (0x0B09023020000000000007BC00000000, .lttest { w with d := .vec 8, a := .imm 2 }),
      (0x0B0A00301C000000000007BC0000000C, .ltcont { w with a := .imm 1, b := .imm 0 } 12),
      (0x0B0B0030F0000000000007BC00000000, .ltreset { w with a := .imm 15 }),
      (0x0B0C003014090308000007BC22000000, .tstsp { w with a := .imm 1, b := .sca 2, c := .sca 3, e := .vec 32, lv := true, rm := .rz }),
      (0x0B0D083014090300000007BC40000000, .tldsp { w with d := .vec 32, a := .imm 1, b := .sca 2, c := .sca 3, h := 1 })] : List (Nat × Instr)).all
      (fun p => decodeTableWord 128 p.1 == some p.2 && encodeWord p.2 == some (BitVec.ofNat 128 p.1) && p.2.wf) = true := by decide +kernel

/-- 13 R225. -/
theorem test_decode_keyway :
    ([(0x0C00003044200000000007BC00000000, .jdesc { w with a := .imm 4, b := .sca 8 }),
      (0x0C0148B00C052041000007BC00018005, .join { w with d := .sca 34, a := .imm 0, b := .imm 1, c := .sca 32, e := .sca 4 } .diff true 5),
      (0x0C02489040000000000007BC00000000, .jresume { w with d := .sca 34, a := .sca 4 }),
      (0x0C03425220000000000007BC00004000, .jstat { w with d := .sca 9, a := .sca 34 } true),
      (0x0C04003020000000000007BC00000000, .jcancel { w with a := .imm 2 })] : List (Nat × Instr)).all
      (fun p => decodeTableWord 128 p.1 == some p.2 && encodeWord p.2 == some (BitVec.ofNat 128 p.1) && p.2.wf) = true := by decide +kernel

/-- 13 R230. -/
theorem test_decode_queue :
    ([(0x0D00002234080800000007BC00801FF0, .enq { w with a := .cls 2 3, b := .sca 2, c := .vec 8 } .x16 0x1FF0),
      (0x0D0100223C000000000007BC00000040, .qsub { w with a := .cls 2 3, b := .imm 0 } .x1 64),
      (0x0D0200223C040000000007BC00200000, .qunsub { w with a := .cls 2 3, b := .imm 1 } .x2 0),
      (0x0D0300E428100000000007BC00004000, .qpop { w with d := .vec 3, a := .cls 4 2, b := .cls 0 4 } true),
      (0x0D04908070000000000007BC00000000, .qpush { w with d := .cls 4 2, a := .vec 7 } false),
      (0x0D05848000000000000007BC00007FFF, .spawn { w with d := .cls 1 2 } true 0x3FFF),
      (0x0D0640B040000000000007BC00000000, .ggrow { w with d := .sca 2, a := .imm 4 }),
      (0x0D07001020000000000007BC00004000, .launch { w with a := .sca 2 } true),
      (0x0D08000000000000000007BC00000000, .trigger w),
      (0x0D0900220C0008000000002800000000, .smsg { w with a := .cls 2 0, b := .imm 0, c := .vec 8, g1 := ⟨false, false, 0⟩, g2 := ⟨false, true, 2⟩ } .x1 0)] : List (Nat × Instr)).all
      (fun p => decodeTableWord 128 p.1 == some p.2 && encodeWord p.2 == some (BitVec.ofNat 128 p.1) && p.2.wf) = true := by decide +kernel

/-- 13 R241. -/
theorem test_decode_system :
    ([(0x0E00003070000000000007BC00000000, .trap { w with a := .imm 7 }),
      (0x0E01000000000000000007BC00004000, .rett w true),
      (0x0E0200C000000000000007BC00000012, .rdsr { w with d := .vec 3 } 0x012),
      (0x0E03001030000000000007BC00000001, .wrsr { w with a := .sca 3 } 0x001),
      (0x0E0440F020000000000007BC00000000, .featq { w with d := .sca 3, a := .imm 2 }),
      (0x0E0500300C0C0000000007BC01000064, .icinv { w with a := .imm 0, b := .imm 3, imm := some 0x64 }),
      (0x0E06003010000000000007BC00000000, .brk { w with a := .imm 1 }),
      (0x0E07008000000000000007BC00000000, .time { w with d := .vec 2 })] : List (Nat × Instr)).all
      (fun p => decodeTableWord 128 p.1 == some p.2 && encodeWord p.2 == some (BitVec.ofNat 128 p.1) && p.2.wf) = true := by decide +kernel

/-- 03 R45 for the Xhinge words, and RISC-V's own formats for the ordinary ones (log entry 8). -/
theorem test_decode_hinge :
    ([(32, 0xFF83028B, .hlLd 5 6 0xFF8),
      (32, 0x839C0B, .hlSt 7 8 24),
      (32, 0xAB5248B, .hlAtomic .cas 9 10 11),
      (32, 0xD6300B, .hlInstall 12 13),
      (32, 0x7400B, .hlPref 14),
      (32, 0x107D00B, .hlMsg 15 16),
      (32, 0x688B, .hlBudget 17),
      (32, 0x700B, .hlDone),
      (32, 0x123452B7, .hingeRiscvInstruction 4 (.lui 5 0x12345)),
      (32, 0x1297, .hingeRiscvInstruction 4 (.auipc 5 1)),
      (32, 0xFFDFF0EF, .hingeRiscvInstruction 4 (.jal 1 0x1FFFFC)),
      (32, 0x10280E7, .hingeRiscvInstruction 4 (.jalr 1 5 16)),
      (32, 0xFE629CE3, .hingeRiscvInstruction 4 (.branch .bne 5 6 0x1FF8)),
      (32, 0x436283, .hingeRiscvInstruction 4 (.load .lwu 5 6 4)),
      (32, 0xFE533823, .hingeRiscvInstruction 4 (.store .sd 6 5 0xFF0)),
      (32, 0xFFF30293, .hingeRiscvInstruction 4 (.aluImm .add 5 6 0xFFF)),
      (32, 0x43F35293, .hingeRiscvInstruction 4 (.aluImm .sra 5 6 63)),
      (32, 0x407302B3, .hingeRiscvInstruction 4 (.alu .sub 5 6 7)),
      (32, 0x1F3129B, .hingeRiscvInstruction 4 (.aluImmW .sllw 5 6 31)),
      (32, 0x407352BB, .hingeRiscvInstruction 4 (.aluW .sraw 5 6 7)),
      (32, 0x27342B3, .hingeRiscvInstruction 4 (.mul .div 5 6 7)),
      (32, 0xFF0000F, .hingeRiscvInstruction 4 (.fence)),
      (32, 0xC00022F3, .hingeRiscvInstruction 4 (.csr .rs false 5 0 0xC00)),
      (32, 0x100332AF, .hingeRiscvInstruction 4 (.lr true 5 6)),
      (32, 0x187322AF, .hingeRiscvInstruction 4 (.sc false 5 6 7)),
      (32, 0xE07332AF, .hingeRiscvInstruction 4 (.amo .maxu true 5 6 7)),
      (16, 0x147D, .hingeRiscvInstruction 2 (.aluImm .add 8 8 0xFFF)),
      (16, 0x6504, .hingeRiscvInstruction 2 (.load .ld 9 10 8)),
      (16, 0x8082, .hingeRiscvInstruction 2 (.jalr 0 1 0))] : List (Nat × Nat × Instr)).all
      (fun p => decodeTableWord p.1 p.2.1 == some p.2.2 && p.2.2.wf) = true := by decide +kernel

/-! ## Results: the tables of 11 R164 to R188, lane by lane -/

def dab : Ops := { w with d := v 8, a := v 2, b := v 4 }
def dabc : Ops := { dab with c := v 6 }

/-- What lanes 0, 1, … of v8 hold after an instruction with A = v2, B = v4, C = v6. -/
def gives (i : Instr) (as bs cs : List Nat) (xs : List Nat) : Bool :=
  match group? (exec i (lab (vec 2 as ∘ vec 4 bs ∘ vec 6 cs))) with
  | some g => (List.range xs.length).all fun l => (g.vlane 8 l).toNat == xs.getD l 0
  | none => false

/-- The same for pairs in v2 and v4, the result a pair in v8. -/
def gives64 (i : Instr) (as bs xs : List Nat) : Bool :=
  match group? (exec i (lab (pairs 2 as ∘ pairs 4 bs))) with
  | some g => (List.range xs.length).all fun l => (g.vlane 8 l).toNat + 2 ^ 32 * (g.vlane 9 l).toNat == xs.getD l 0
  | none => false

theorem test_iadd : gives (.iadd dab .i32 false) [0x7FFFFFF0] [0x20] [] [0x80000010] ∧ gives (.iadd dab .i32 true) [0x7FFFFFF0] [0x20] [] [0x7FFFFFFF] := by
  decide +kernel
theorem test_iadd_unsigned : gives (.iadd dab .u32 true) [0xFFFFFFF0] [0x20] [] [0xFFFFFFFF] := by decide +kernel
theorem test_isub : gives (.isub dab .u32 true) [0x10] [0x20] [] [0] ∧ gives (.isub dab .u32 false) [0x10] [0x20] [] [0xFFFFFFF0] := by decide +kernel
theorem test_isub_wide : gives64 (.isub dab .i64 false) [0x100000000] [1] [0xFFFFFFFF] := by decide +kernel
theorem test_imul : gives (.imul dab .i32) [0xFFFFFFFE] [3] [] [0xFFFFFFFA] := by decide +kernel
theorem test_imad : gives (.imad dabc .u32) [5, 0xFFFFFFFF] [7, 2] [1, 3] [36, 1] := by decide +kernel
theorem test_imulhi : gives (.imulhi dab .i32) [0xFFFFFFFE] [3] [] [0xFFFFFFFF] ∧ gives (.imulhi dab .u32) [0xFFFFFFFE] [3] [] [2] := by decide +kernel
theorem test_imin : gives (.imin dab .i32) [0xFFFFFFFF] [1] [] [0xFFFFFFFF] ∧ gives (.imin dab .u32) [0xFFFFFFFF] [1] [] [1] := by decide +kernel
theorem test_imax : gives (.imax dab .i32) [0xFFFFFFFF] [1] [] [1] ∧ gives (.imax dab .u32) [0xFFFFFFFF] [1] [] [0xFFFFFFFF] := by decide +kernel
theorem test_iabs : gives (.iabs { w with d := v 8, a := v 2 } .i32 false) [0x80000000] [] [] [0x80000000] ∧
    gives (.iabs { w with d := v 8, a := v 2 } .i32 true) [0x80000000] [] [] [0x7FFFFFFF] := by decide +kernel
theorem test_ineg : gives (.ineg { w with d := v 8, a := v 2 } .u32 true) [5, 0] [] [] [0, 0] := by decide +kernel

/-- R165: the immediate reaches a pair sign-extended with .I64, zero-extended with .U64. -/
theorem test_movi : gives64 (.movi { w with d := v 8, a := .imm 0, imm := some 0x80000000 } .i64) [] [] [0xFFFFFFFF80000000] ∧
    gives64 (.movi { w with d := v 8, a := .imm 0, imm := some 0x80000000 } .u64) [] [] [0x80000000] := by decide +kernel
theorem test_mov : gives (.mov { w with d := v 8, a := v 2, ma := .rev } .i32) ((List.range 32).map (· + 100)) [] [] [131, 130] := by decide +kernel
theorem test_lea64 : gives64 (.lea64 dab 3 false) [0x1000] [0xFFFFFFFF] [0xFF8] ∧ gives64 (.lea64 dab 3 true) [0x1000] [0xFFFFFFFF] [0x800000FF8] := by
  decide +kernel

/-- R167: signedness decides; a lane whose guard fails keeps its bit. -/
theorem test_iset : pred (.iset { dab with d := pr 3 } .lt .i32) (lab (vec 2 [0xFFFFFFFF, 1] ∘ vec 4 [1, 0] ∘ prd 3 0xC)) 3 = some 1 ∧
    pred (.iset { dab with d := pr 3, g1 := ⟨false, false, 2⟩ } .ge .u32) (lab (vec 2 [9, 9, 9] ∘ prd 2 5 ∘ prd 3 0x80000000)) 3 = some 0x80000005 := by
  decide +kernel
theorem test_sel : gives (.sel { dabc with c := pr 1 } .i32) [1, 2] [3, 4] [] [3, 4] := by decide +kernel

/-- R168: PLOP.T3C is a XOR b. -/
theorem test_plop : pred (.plop { w with d := pr 3, a := pr 1, b := pr 2, c := qr 7 } 0x3C) (lab (prd 1 0b0011 ∘ prd 2 0b0101)) 3 = some 0b0110 := by decide +kernel

/-- R170. -/
theorem test_logic : gives (.and dab false) [0xFF00] [0x0FF0] [] [0x0F00] ∧ gives (.or dab false) [0xFF00] [0x0FF0] [] [0xFFF0] ∧
    gives (.xor dab false) [0xFF00] [0x0FF0] [] [0xF0F0] ∧ gives (.not { w with d := v 8, a := v 2 } false) [1] [] [] [0xFFFFFFFE] := by decide +kernel
theorem test_shl : gives (.shl dab false) [3, 3, 3] [4, 31, 32] [] [48, 0x80000000, 0] := by decide +kernel
theorem test_shr : gives (.shr dab false) [0x80000000, 5] [31, 40] [] [1, 0] := by decide +kernel
theorem test_sar : gives (.sar dab false) [0x80000000, 0x80000000] [4, 99] [] [0xF8000000, 0xFFFFFFFF] := by decide +kernel
theorem test_sar_wide : gives64 (.sar { w with d := v 8, a := v 2, b := .imm 1 } true) [0x8000000000000000] [] [0xC000000000000000] := by decide +kernel
theorem test_bfx : gives (.bfx dabc false true) [0xF0, 0xF0, 0xF0] [4, 28, 32] [4, 9, 1] [0xFFFFFFFF, 0, 0] := by decide +kernel
theorem test_bfi : gives (.bfi { dabc with e := .imm 8 } false) [0xFFFFFFFF, 7] [0x1AB, 9] [4, 32] [0xFFFFFABF, 7] := by decide +kernel
theorem test_popc : gives (.popc { w with d := v 8, a := v 2 } true) [0xFF] [] [] [8] := by decide +kernel
theorem test_clz : gives (.clz { w with d := v 8, a := v 2 } false) [0, 1, 0x80000000] [] [] [32, 31, 0] := by decide +kernel
theorem test_brev : gives (.brev { w with d := v 8, a := v 2 } false) [1, 6] [] [] [0x80000000, 0x60000000] := by decide +kernel

/-- R172: 1 · 1 + 2^−24 rounds to 1; the exact product of 1 + 2^−23 and 1 − 2^−23 less 1 is −2^−46. -/
theorem test_ffma : gives (.ffma dabc) [0x3F800000, 0x3F800001] [0x3F800000, 0x3F7FFFFE] [0x33800000, 0xBF800000] [0x3F800000, 0xA8800000] := by
  decide +kernel
/-- R172: the product alone rounds to 1, and 1 − 1 is +0. -/
theorem test_fmul_fadd : gives (.fmul dab) [0x3F800001] [0x3F7FFFFE] [] [0x3F800000] ∧ gives (.fadd dab) [0x3F800000] [0xBF800000] [] [0] := by decide +kernel
theorem test_fsub : gives (.fsub { dab with rm := .rd }) [0x3F800000] [0x3F800000] [] [0x80000000] := by decide +kernel
theorem test_fneg_ftz : gives (.fneg { w with d := v 8, a := v 2, ftz := true }) [1] [] [] [0x80000000] := by decide +kernel
theorem test_fabs : gives (.fabs { w with d := v 8, a := v 2 }) [0xFFC00001] [] [] [0x7FC00001] := by decide +kernel
/-- R173: −0 lies below +0; a NaN is quieted. -/
theorem test_fmin_fmax : gives (.fmin dab) [0, 0x7F800001] [0x80000000, 0] [] [0x80000000, 0x7FC00001] ∧
    gives (.fmax dab) [0x80000000] [0] [] [0] := by decide +kernel
/-- R172: −0.4 rounds to −0, 2.5 to 2 under RNE and to 3 under RU. -/
theorem test_frnd : gives (.frnd { w with d := v 8, a := v 2 }) [0xBECCCCCD, 0x40200000] [] [] [0x80000000, 0x40000000] ∧
    gives (.frnd { w with d := v 8, a := v 2, rm := .ru }) [0x40200000] [] [] [0x40400000] := by decide +kernel
/-- R174: ne and nan are true of a NaN, +0 equals −0. -/
theorem test_fset : pred (.fset { dab with d := pr 3 } .ne) (lab (vec 2 [0x7FC00000, 0] ∘ vec 4 [0, 0x80000000])) 3 = some 1 ∧
    pred (.fset { dab with d := pr 3 } .num) (lab (vec 2 [0x7FC00000, 0] ∘ vec 4 [0, 0x80000000])) 3 = some 0xFFFFFFFE := by decide +kernel
/-- R175's table: value low, index high. -/
theorem test_fmaxx : gives64 (.fmaxx dab)
    [0x740000000, 0x100000000, 0x97FC00001, 0x57FC00000, 0x4FF800000, 0x6BF800000] [0x340000000, 0x080000000, 0x07F800000, 0x2FFC00000, 0xFFFFFFFFFF800000, 0x600000001]
    [0x340000000, 0x100000000, 0x97FC00001, 0x2FFC00000, 0x4FF800000, 0x600000001] := by decide +kernel
theorem test_fminx : gives64 (.fminx dab)
    [0x740000000, 0x100000000, 0x97FC00001, 0x57FC00000, 0x4FF800000, 0x6BF800000] [0x340000000, 0x080000000, 0x07F800000, 0x2FFC00000, 0xFFFFFFFFFF800000, 0x600000001]
    [0x340000000, 0x080000000, 0x97FC00001, 0x2FFC00000, 0x4FF800000, 0x6BF800000] := by decide +kernel

/-- R177: the special inputs, and correctly rounded reciprocal and root. -/
theorem test_frcp : gives (.frcp { w with d := v 8, a := v 2 }) [0, 0x80000000, 0x40000000, 0x40400000] [] [] [0x7F800000, 0xFF800000, 0x3F000000, 0x3EAAAAAB] := by
  decide +kernel
theorem test_fsqrt : gives (.fsqrt { w with d := v 8, a := v 2 }) [0x80000000, 0xBF800000, 0x40000000] [] [] [0x80000000, 0x7FC00000, 0x3FB504F3] := by decide +kernel
theorem test_frsq : gives (.frsq { w with d := v 8, a := v 2 }) [0x80000000, 0xBF800000, 0x7F800000, 0x40800000] [] [] [0xFF800000, 0x7FC00000, 0, 0x3F000000] := by
  decide +kernel
theorem test_fex2 : gives (.fex2 { w with d := v 8, a := v 2 }) [0x40400000, 0x43000000, 0xFF800000] [] [] [0x41000000, 0x7F800000, 0] := by decide +kernel
theorem test_flg2 : gives (.flg2 { w with d := v 8, a := v 2 }) [0x41000000, 0, 0xBF800000] [] [] [0x40400000, 0xFF800000, 0x7FC00000] := by decide +kernel
theorem test_fsin_fcos : gives (.fsin { w with d := v 8, a := v 2 }) [0x80000000, 0x7F800000] [] [] [0x80000000, 0x7FC00000] ∧
    gives (.fcos { w with d := v 8, a := v 2 }) [0] [] [] [0x3F800000] := by decide +kernel
theorem test_ftanh : gives (.ftanh { w with d := v 8, a := v 2 }) [0x80000000, 0x7F800000] [] [] [0x80000000, 0x3F800000] := by decide +kernel
/-- R178: equal inputs hash to 0. -/
theorem test_hrnd : gives (.hrnd dab) [7] [7] [] [0] := by decide +kernel

/-- R180: PADD.H2.sat of +∞ and 1.0 is the largest F16; Q4E4 above 464 becomes NaN without .sat. -/
theorem test_padd : gives (.padd dab .h2 true) [0x3C007C00] [0x3C003C00] [] [0x40007BFF] := by decide +kernel
theorem test_packed : gives (.psub dab .h2 false) [0x40003C00] [0x3C003C00] [] [0x3C000000] ∧ gives (.pmul dab .q4e4 false) [0x0000007E] [0x00000040] [] [0x0000007F] ∧
    gives (.pfma dabc .bf2 false) [0x3F803F80] [0x40004000] [0x3F800000] [0x40404000] := by decide +kernel
theorem test_pmin_pmax : gives (.pmin dab .h2) [0x3C004000] [0x40003C00] [] [0x3C003C00] ∧ gives (.pmax dab .h2) [0x3C004000] [0x40003C00] [] [0x40004000] := by
  decide +kernel
theorem test_pset : gives (.pset dab .h2 .lt false) [0x3C004000] [0x40003C00] [] [0xFFFF0000] ∧
    pred (.pset { dab with d := pr 3 } .h2 .lt false) (lab (vec 2 [0x3C004000] ∘ vec 4 [0x40003C00])) 3 = some 0 ∧
    pred (.pset { dab with d := pr 3 } .h2 .lt true) (lab (vec 2 [0x3C004000] ∘ vec 4 [0x40003C00])) 3 = some 1 := by decide +kernel
/-- R182: 1, −1 and 2^−60 in one window give +0. -/
theorem test_pdot : gives (.pdot dabc .h2 false) [0xBC003C00, 0x40003C00] [0x3C003C00, 0x42003C00] [0x21800000, 0x3F800000] [0, 0x41000000] := by decide +kernel

/-- R183's table. -/
theorem test_cvt : gives (.cvt { w with d := v 8, a := v 2 } .e4m3 .f32 true) [0x43FA0000, 0x43960000, 0x80000000, 0x7FC00000] [] [] [0x7E, 0x79, 0x80, 0x7F] ∧
    gives (.cvt { w with d := v 8, a := v 2 } .e4m3 .f32 false) [0x43FA0000, 0x43960000] [] [] [0x7F, 0x79] := by decide +kernel
theorem test_cvt_int : gives (.cvt { w with d := v 8, a := v 2, rm := .rz } .i32 .f32 false) [0xC0200000, 0x7FC00000, 0x4F000000] [] []
    [0xFFFFFFFE, 0, 0x7FFFFFFF] := by decide +kernel
theorem test_pack2 : gives (.pack2 dab false false) [0x3F800000] [0xC0000000] [] [0xC0003C00] := by decide +kernel
theorem test_pack4 : gives (.pack4 { dabc with e := v 6 } false false) [0x3F800000] [0x40000000] [0] [0x00004038] := by decide +kernel
theorem test_unpk : lane (.unpk { w with d := v 8, a := v 2 } .q4e4) (lab (vec 2 [0x38404840])) 8 0 = some 0x40000000 ∧
    lane (.unpk { w with d := v 8, a := v 2 } .q4e4) (lab (vec 2 [0x38404840])) 11 0 = some 0x3F800000 := by decide +kernel
/-- R186's table. -/
theorem test_fkey : gives (.fkey { w with d := v 8, a := v 2 } false) [0x3F800000, 0xBF800000, 0, 0x80000000, 0x7F800000, 0xFF800000, 0xFFC00001] [] []
    [0xBF800000, 0x407FFFFF, 0x80000000, 0x7FFFFFFF, 0xFF800000, 0x007FFFFF, 0xFFFFFFFF] ∧
    gives (.fkey { w with d := v 8, a := v 2 } true) [0x3C00] [] [] [0xBF800000] := by decide +kernel
/-- R187's table. -/
theorem test_sprune : gives (.sprune dab false) [0xC0004000, 0xC2003800] [0x3C004000, 0x42007E00] [] [0xC0004000, 0x7E00C200] ∧
    lane (.sprune dab false) (lab (vec 2 [0xC0004000, 0xC2003800] ∘ vec 4 [0x3C004000, 0x42007E00])) 9 1 = some 9 := by decide +kernel
/-- R188: the largest magnitude 1,000. -/
theorem test_qscale : scal (.qscale { w with d := sr 8, a := v 2 } .e4m3) (lab (vec 2 [0x447A0000, 0x3F800000])) 8 = some 0x81 ∧
    scal (.qscale { w with d := sr 8, a := v 2 } .e2m1) (lab (vec 2 [0x447A0000, 0x3F800000])) 8 = some 0x87 := by decide +kernel

/-! ## Control (12 R193 to R200) -/

/-- The split after an instruction: pc, mask, depth of its mask stack. -/
def ends (i : Instr) (s : State) (pc mask depth : Nat) : Bool :=
  match split? (exec i s) with
  | some p => p.pc == pc && p.mask.toNat == mask && p.frames.length == depth
  | none => false

/-- The example of R197 at index 10: lanes 0 to 3, p1 in lanes 0 and 2. -/
def atIf : State := lab (masked 15 ∘ placed 10 [] ∘ prd 1 0b0101)

theorem test_if_divides : ends (.if_ { w with a := pr 1 } false 2) atIf 11 0b0101 1 ∧
    ((next? (exec (.if_ { w with a := pr 1 } false 2) atIf)).bind fun t => (t.split? { r0 with split := 1 }).map fun p => (p.pc, p.mask.toNat)) = some (12, 0b1010) := by
  decide +kernel
theorem test_if_serial : ends (.if_ { w with a := pr 1 } false 2) (lab (masked 10 ∘ placed 10 [] ∘ prd 1 0b0101)) 12 0 1 ∧
    ends (.if_ { w with a := pr 1 } false 2) (lab (masked 5 ∘ placed 10 [] ∘ prd 1 0b0101)) 11 5 1 := by decide +kernel
theorem test_else : ends (.else_ w 2) (lab (masked 10 ∘ placed 12 [.ifF true true 12 15 0 0])) 13 10 1 ∧
    ends (.else_ w 2) (lab (masked 5 ∘ placed 12 [.ifF true false 12 15 0 1])) 14 5 1 ∧
    ends (.else_ w 2) (lab (masked 5 ∘ placed 12 [.ifF false false 12 15 10 0])) 13 10 1 := by decide +kernel
theorem test_endif : ends (.endif w) (lab (masked 5 ∘ placed 14 [.ifF false true 14 15 10 0])) 15 15 0 ∧
    trapCode (.endif w) (lab (masked 5 ∘ placed 14 [.ifF false true 13 15 10 0])) = some 0x07 := by decide +kernel
theorem test_loop : ends (.loop w 5) (lab (placed 3 [])) 4 0xFFFFFFFF 1 := by decide +kernel
theorem test_endloop : ends (.endloop w) (lab (masked 1 ∘ placed 8 [.loopF 4 8 15 2])) 4 3 1 := by decide +kernel
theorem test_break : ends (.break_ { w with a := pr 1 } false) (lab (masked 15 ∘ placed 6 [.loopF 4 8 15 0] ∘ prd 1 1)) 7 14 1 := by decide +kernel
theorem test_cont : ((split? (exec (.cont { w with a := pr 1 } false) (lab (masked 15 ∘ placed 6 [.loopF 4 8 15 0] ∘ prd 1 1)))).map (·.frames)) =
    some [.loopF 4 8 15 1] := by decide +kernel
theorem test_jmp : ends (.jmp { w with a := qr 7, b := .imm 0, imm := some 0x1234 } false) (lab (placed 6 [])) 0x1234 0xFFFFFFFF 0 ∧
    trapCode (.jmp { w with a := pr 1, b := .imm 0, imm := some 7 } false) (lab (prd 1 1)) = some 0x06 := by decide +kernel
theorem test_call_ret : ends (.call { w with a := qr 7, b := sr 9 } false) (lab (placed 6 [] ∘ sca 9 40)) 40 0xFFFFFFFF 1 ∧
    ends (.ret { w with a := qr 7 } false) (lab (masked 3 ∘ placed 41 [.callF 7 15])) 7 15 0 := by decide +kernel
theorem test_exit : ((group? (exec (.exit { w with g1 := ⟨false, false, 1⟩ }) (lab (prd 1 3 ∘ masked 15)))).map fun g => g.exited.toNat) = some 3 ∧
    ends (.exit { w with g1 := ⟨false, false, 1⟩ }) (lab (prd 1 3 ∘ masked 15)) 1 12 0 := by decide +kernel
theorem test_nop_yield : ends (.nop w) (lab (placed 6 [])) 7 0xFFFFFFFF 0 ∧ ends (.yield w false 0) (lab (placed 6 [])) 7 0xFFFFFFFF 0 := by decide +kernel
/-- R199: the team's one live group completes a barrier alone; an id above 15, or above 3 for BARC, is ILLEGAL_OPERAND. -/
theorem test_bar : ((split? (exec (.bar { w with a := im 3, b := im 0 } false) (lab id))).map (·.park)) = some .none ∧
    ((split? (exec (.bar { w with a := im 3, b := im 2 } false) (lab id))).map (·.park)) = some (.barrier false 3 0 2) ∧
    trapCode (.bar { w with a := im 16, b := im 0 } false) (lab id) = some 0x02 ∧ trapCode (.barc { w with a := im 4, b := im 0 } false) (lab id) = some 0x02 := by
  decide +kernel

/-! ## Lanes (12 R203), all reads before all writes -/

theorem test_shfl : lane (.shfl { w with d := v 8, a := v 2, b := im 1 } .w4 false) (lab (vec 2 (List.range 32))) 8 6 = some 5 ∧
    lane (.shfl { w with d := v 8, a := v 2, b := im 5, lv := false } .w32 false) (lab (vec 2 (List.range 32) ∘ masked 1)) 8 0 = some 0 ∧
    lane (.shfl { w with d := v 8, a := v 2, b := im 5, lv := true } .w32 false) (lab (vec 2 (List.range 32) ∘ masked 1)) 8 0 = some 5 := by decide +kernel
theorem test_lanebc : scal (.lanebc { w with d := sr 8, a := v 2, b := im 31 } false) (lab (vec 2 (List.range 32))) 8 = some 31 := by decide +kernel
theorem test_vote : scal (.vote { w with d := sr 8, a := pr 1 } .ballot) (lab (prd 1 0x55 ∘ masked 15)) 8 = some 5 ∧
    pred (.vote { w with d := pr 2, a := pr 1 } .any) (lab (prd 1 0x55 ∘ masked 15)) 2 = some 15 ∧
    pred (.vote { w with d := pr 2, a := pr 1 } .uni) (lab (prd 1 0x55 ∘ masked 15)) 2 = some 0 := by decide +kernel
theorem test_match : lane (.match_ { w with d := v 8, a := v 2 } false) (lab (vec 2 [7, 9, 7, 9, 7] ∘ masked 15)) 8 2 = some 0b0101 := by decide +kernel
theorem test_elect : pred (.elect { w with d := pr 2 }) (lab (masked 12)) 2 = some 4 ∧ scal (.elect { w with d := sr 2 }) (lab (masked 12)) 2 = some 2 := by decide +kernel

/-! ## System (13 R241 to R245, 18 R282 to R286) -/

/-- R283, R284: TRAP in a grid that traps: TCODE 0x070F, TEPC its own index, the split at TRAPE; the lowest lane is none, it is uniform. -/
theorem test_trap : ((group? (exec (.trap { w with a := im 7 }) { (lab (placed 5 [])) with grids := [{ slotGrid with trapv := true, trape := 9 }] })).map fun g =>
      (g.tcode, g.tepc, g.tlane, g.splits.map (·.pc))) = some (0x070F, 5, 0xFFFFFFFF, [9]) := by decide +kernel
theorem test_brk : trapCode (.brk { w with a := im 1 }) (lab id) = some 0x0110 := by decide +kernel
/-- In trap mode, the fault having come at index 20. -/
def inTrap : Group → Group := fun g => { g with trapSplit := some 0, trapMask := allLanes, trapDepth := 0, tcode := 0x070F, tepc := 20 }
theorem test_rett : ends (.rett w false) (lab (inTrap ∘ placed 9 [])) 20 0xFFFFFFFF 0 ∧ ends (.rett w true) (lab (inTrap ∘ placed 9 [])) 21 0xFFFFFFFF 0 ∧
    trapCode (.rett w false) (lab id) = some 0x01 := by decide +kernel
theorem test_rdsr : scal (.rdsr { w with d := sr 4 } 0x000) (lab inTrap) 4 = some 0x070F ∧ scal (.rdsr { w with d := sr 4 } 0x011) (lab id) 4 = some 512 ∧
    trapCode (.rdsr { w with d := sr 4 } 0x7FF) (lab id) = some 0x02 := by decide +kernel
theorem test_wrsr : ((group? (exec (.wrsr { w with a := sr 3 } 0x001) (lab (inTrap ∘ sca 3 33)))).map (·.tepc)) = some 33 ∧
    trapCode (.wrsr { w with a := sr 3 } 0x001) (lab id) = some 0x02 := by decide +kernel
theorem test_featq : scal (.featq { w with d := sr 4, a := im 0 }) (lab id) 4 = some 0x00090300 ∧ trapCode (.featq { w with d := sr 4, a := im 16 }) (lab id) = some 0x02 := by
  decide +kernel
theorem test_time : lane64 (.time { w with d := v 8 }) { (lab id) with time := 0x500000007 } 8 3 = some 0x500000007 := by decide +kernel
theorem test_icinv : ((next? (exec (.icinv { w with a := im 0, b := im 8 }) (lab id))).map fun t => (t.core 0).ic.length) = some 0 := by decide +kernel

/-! ## Latches (04 R59 to R64, 13 R222) -/

/-- Latch 3 after an instruction: state, EXP, ARRT, ARRN, CNST. -/
def latch3 (i : Instr) (s : State) : Option (LatchState × Nat × Nat × Nat × Nat) :=
  (next? (exec i s)).bind fun t => (t.team? 0 0).map fun t => let l := t.latches.getD 3 Latch.fresh; (l.state, l.exp, l.arrt, l.arrn, l.cnst)

/-- The latch's team with its latch 3 as given. -/
def latched (l : Latch) (f : Group → Group) : State := (lab f).modTeam 0 0 fun t => { t with latches := t.latches.set 3 l }

theorem test_ltinit : latch3 (.ltinit { w with a := im 3, b := im 2, c := im 1 }) (lab id) = some (.free, 0, 2, 0, 1) ∧
    trapCode (.ltinit { w with a := im 16, b := im 2, c := im 1 }) (lab id) = some 0x02 := by decide +kernel
theorem test_ltexpect : latch3 (.ltexpect { w with a := im 3, b := im 64 }) (lab id) = some (.filling, 64, 0, 0, 0) := by decide +kernel
theorem test_ltarrive : latch3 (.ltarrive { w with a := im 3 } false) (latched { Latch.fresh with state := .filling, arrt := 2, cnst := 1 } id) = some (.filling, 0, 2, 1, 1) ∧
    latch3 (.ltarrive { w with a := im 3 } false) (latched { Latch.fresh with state := .filling, arrt := 1, cnst := 1 } id) = some (.full, 0, 1, 1, 1) := by decide +kernel
theorem test_ltarrive_c : ((next? (exec (.ltarrive { w with a := im 3 } true) (latched { Latch.fresh with state := .full, arrt := 1, arrn := 1, cnst := 1 } id))).bind
    fun t => (t.team? 0 0).map fun t => ((t.latches.getD 3 Latch.fresh).state, (t.latches.getD 3 Latch.fresh).phase)) = some (.free, true) := by decide +kernel
theorem test_ltwait : ((split? (exec (.ltwait { w with a := im 3, b := im 0 }) (latched { Latch.fresh with state := .full, largest := 77 } id))).map fun p => (p.pc, p.lct)) =
    some (1, 77) := by decide +kernel
theorem test_lttest : lane (.lttest { w with d := v 8, a := im 3 }) (latched { Latch.fresh with state := .filling, exp := 64 } id) 8 0 = some 64 := by decide +kernel
theorem test_ltreset : latch3 (.ltreset { w with a := im 3 }) (latched { Latch.fresh with state := .filling, exp := 64, arrt := 2 } id) = some (.free, 0, 0, 0, 0) := by decide +kernel
theorem test_ltcont : ((next? (exec (.ltcont { w with a := im 3, b := im 0 } 12) (lab (placed 5 [])))).bind fun t => (t.team? 0 0).map fun t =>
    ((t.latches.getD 3 Latch.fresh).cont.map (·.target), t.groups.length)) = some (some 17, 0) := by decide +kernel

/-! ## Queues, work and joins (13 R227, R234 to R238) -/

/-- A team that owns local queues, lq2 holding 10 to 14 (the example of R234), in a grid whose flags allow all. -/
def queued (f : Group → Group) : State :=
  let s := (lab f).modTeam 0 0 fun t => { t with kernel := { t.kernel with lq := true } }
  s.modCore 0 fun c => { c with lqs := [(2, [10, 11, 12, 13, 14])], lqTeam := some 0 }

/-- R234's first outcome: lanes 1, 4, 6, 9 and 20 receive, lanes 30 and 31 do not, p4 says which. -/
theorem test_qpop : [1, 4, 6, 9, 20, 30].map (lane (.qpop { w with d := v 3, a := .cls 4 2, b := pr 4 } true) (queued (masked 0xC0100252 ∘ vec 3 (List.replicate 32 99))) 3) =
      [some 10, some 11, some 12, some 13, some 14, some 99] ∧
    pred (.qpop { w with d := v 3, a := .cls 4 2, b := pr 4 } true) (queued (masked 0xC0100252)) 4 = some 0x00100252 := by decide +kernel
theorem test_qpush : ((next? (exec (.qpush { w with d := .cls 4 2, a := v 7 } false) (queued (masked 6 ∘ vec 7 [0, 5, 6])))).map fun t => (t.core 0).lq 2) =
    some [10, 11, 12, 13, 14, 5, 6] := by decide +kernel
theorem test_ggrow : scal (.ggrow { w with d := sr 2, a := im 4 }) { (lab id) with grids := [{ slotGrid with count := 3, ceil := 5 }] } 2 = some 3 ∧
    ((next? (exec (.ggrow { w with d := sr 2, a := im 4 }) { (lab id) with grids := [{ slotGrid with count := 3, ceil := 5 }] })).bind fun t => (t.grid? 0).map (·.count)) = some 5 := by
  decide +kernel
theorem test_trigger : ((group? (exec (.trigger w) { (lab id) with time := 1 })).map (·.triggered)) = some true := by decide +kernel
theorem test_spawn : ((next? (exec (.spawn w false 12) (lab (placed 5 [] ∘ sca 0 42)))).bind fun t => (t.team? 0 0).bind fun t => (t.group? 1).map fun g =>
    (g.splits.map (·.pc), (g.sreg 0).toNat)) = some ([17], 42) := by decide +kernel
theorem test_jdesc : ((next? (exec (.jdesc { w with a := im 4, b := sr 8 }) (lab (sca 8 5 ∘ sca 9 1)))).bind fun t => (t.team? 0 0).map fun t => t.streams.getD 4 0) =
    some 0x100000005 := by decide +kernel
theorem test_jstat_none : scal (.jstat { w with d := sr 9, a := im 2 } false) (lab (sca 9 7)) 9 = some 0 := by decide +kernel

/-! ## Memory: one page mapped at virtual address 0 (05 R69, R70), its home slice 80 (02 R24) -/

/-- A leaf entry of the page at 0x50000 that may be read, written and executed, with further bits. -/
def leafPte (bits : Nat) : Nat := 3 + 4 + 8 + 16 + bits + 5 * 2 ^ 20

/-- Tables at 0x10000 to 0x40000, one entry each. -/
def tables (pte : Nat) : Memory :=
  (((Memory.writeBytes [] 0x10000 (bytesOfNat 8 (1 + 2 * 2 ^ 20))).writeBytes 0x20000 (bytesOfNat 8 (1 + 3 * 2 ^ 20))).writeBytes 0x30000
    (bytesOfNat 8 (1 + 4 * 2 ^ 20))).writeBytes 0x40000 (bytesOfNat 8 pte)

def rootVf (f : VfConfig → VfConfig) : Vf := { slotVfState with cfg := f { slotVf with root := 0x10000 } }

/-- The page, as its entry says. -/
def page0 (bits : Nat) : PageInfo :=
  { pa := 0x50000, size := 65536, rd := true, wr := true, ex := true, hv := bits / 128 % 2 == 1, dle := bits / 256 % 2 == 1, home := 0, tgt := 0,
    entry := 0x40000 }

/-- The sectors of the tables as a walk has read them. -/
def walked (key : Errand) (bits : Nat) : Fetch :=
  { Fetch.fresh key with got := [0x10000, 0x20000, 0x30000, 0x40000].map fun a => (2 ^ 64 + a, (tables (leafPte bits)).readBytes a 32) }

/-- The team of the tests in a virtual function that maps the page, which core 0 and slice 80 have used, its line 0 present at slice 80 holding
the bytes 0 to 127. -/
def mapped (bits : Nat) (f : Group → Group) : State :=
  { (lab f).modCore 0 fun c => { c with tlb := [{ vf := 0, va := 0, page := page0 bits }] } with
    vfs := [rootVf id], dram := tables (leafPte bits), time := 1000,
    slices := [(80, { Slice.reset with tlb := [{ vf := 0, va := 0, page := page0 bits }], store := { HomeStore.empty with
      lines := [{ line := 0xA00, data := (List.range 128).map (BitVec.ofNat 8), dirty := false, pinned := false,
                  vtag := if bits / 128 % 2 = 1 then some (0, 0) else none, used := 0 }] } })] }

/-- Base register 1 at virtual address 0 with the page. -/
def based (g : Group) : Group :=
  g.setBreg 1 { vbase := 0, page := some (page0 0), limit := 65536 }

def m32 : MemMode := ⟨.b32, .x4, .weak, false, 0⟩
def a32 (op : AtomOp) : AtomMode := ⟨op, .u32, .x4, false, false, 0⟩
def ldOps : Ops := { w with d := v 8, a := br 1, b := v 2 }
def stOps : Ops := { w with a := br 1, b := v 2, c := v 4 }

/-- The requests under way after an instruction: home, sector, whether strong, whether a result waits for them. -/
def asks (i : Instr) (s : State) : Option (List (HomeLoc × Nat × Bool × Bool)) :=
  (next? (exec i s)).map fun t => t.reqs.map fun q => (q.home, q.sector, q.strong, q.out.isSome)

/-- 02 R24's example: the line's slice is 0x66. -/
theorem test_home_slice : homeSlice 0x0ABCD000 = 0x66 := by decide
/-- What a translation answers. -/
def found (e : Except Miss Xlated) : Option (HomeLoc × Nat) := e.toOption.map fun x => (x.home, x.pa)

def missed (e : Except Miss Xlated) : Option Miss :=
  match e with
  | .error m => some m
  | .ok _ => none

/-- 05 R69, R70: virtual address 0 is at 0x50000, by the tables as by the cached page; the entry of the first level is read first. -/
theorem test_translate : found ((mapped 0 id).translate [] (walked (.word r0) 0) (rootVf id).cfg 0x44 .load) = some (.slice 80, 0x50044) ∧
    found ((mapped 0 id).translate [{ vf := 0, va := 0, page := page0 0 }] (Fetch.fresh (.word r0)) (rootVf id).cfg 0x44 .load) = some (.slice 80, 0x50044) ∧
    missed ((mapped 0 id).translate [] (Fetch.fresh (.word r0)) (rootVf id).cfg 0x44 .load) = some (.walk 0x10000) := by decide +kernel
/-- 05 R71: no entry is PAGE_FAULT, an address above 2^56 ACCESS. -/
theorem test_translate_faults : missed ((mapped 0 id).translate [] (walked (.word r0) 0) (rootVf id).cfg 0x10000 .load) = some (.fault .pageFault) ∧
    missed ((mapped 0 id).translate [] (walked (.word r0) 0) (rootVf id).cfg (2 ^ 56) .load) = some (.fault .access) := by decide +kernel
theorem test_ld : asks (.ld ldOps m32) (mapped 0 (based ∘ masked 3 ∘ vec 2 [0, 9])) = some [(.slice 80, 0x2800, false, true), (.slice 80, 0x2801, false, true)] ∧
    trapCode (.ld ldOps { m32 with disp := 2 }) (mapped 0 (based ∘ masked 1)) = some 0x09 := by decide +kernel
theorem test_ldu : asks (.ldu { ldOps with d := sr 8, b := im 3 } { m32 with sem := .strong }) (mapped 0 based) = some [(.slice 80, 0x2800, true, true)] := by decide +kernel
theorem test_gld : asks (.gld { w with d := v 8, a := v 2 } { m32 with sc := .x1 }) (mapped 0 (masked 1 ∘ pairs 2 [0x40])) = some [(.slice 80, 0x2802, false, true)] := by
  decide +kernel
/-- 12 R211's example: one sector request whose bytes 0 to 3 hold lane 2's 3.0, above lane 0's, and bytes 4 to 7 hold 2.0. -/
theorem test_gst : ((next? (exec (.gst { w with a := v 2, c := v 4 } { m32 with sc := .x1, fmt := .f32 })
      (mapped 0 (masked 7 ∘ pairs 2 [0x40, 0x44, 0x40] ∘ vec 4 [0x3F800000, 0x40000000, 0x40400000])))).map fun t => t.reqs.map fun q => (q.sector,
        match q.kind with
        | .write b _ => (List.range 8).map fun o => ((b.reverse.find? fun p => p.1 == o).map (·.2.toNat)).getD 0
        | _ => [])) = some [(0x2802, [0, 0, 0x40, 0x40, 0, 0, 0, 0x40])] := by decide +kernel
theorem test_st : asks (.st stOps m32) (mapped 0 (based ∘ masked 1)) = some [(.slice 80, 0x2800, false, false)] := by decide +kernel
theorem test_stu : asks (.stu { stOps with b := im 3, c := im 5 } { m32 with sem := .strong }) (mapped 0 based) = some [(.slice 80, 0x2800, true, false)] := by decide +kernel
theorem test_atom : asks (.atom { ldOps with c := v 4 } (a32 .add)) (mapped 0 (based ∘ masked 1)) = some [(.slice 80, 0x2800, true, true)] := by decide +kernel
theorem test_red : asks (.red stOps (a32 .max)) (mapped 0 (based ∘ masked 1)) = some [(.slice 80, 0x2800, true, false)] := by decide +kernel
theorem test_atomu : asks (.atomu { ldOps with d := sr 8, b := im 0, c := im 1 } (a32 .inc)) (mapped 0 based) = some [(.slice 80, 0x2800, true, true)] := by decide +kernel
/-- 12 R214's example: four lanes add 1 to 4 to a word that holds 10. -/
theorem test_atomic_order : (let r := atomSteps (bytesOfNat 32 10) ((List.range 4).map fun l => { lane := l, off := 0, op := .add, ty := .u32, c := BitVec.ofNat 64 (l + 1), e := 0 })
    (natOfBytes (r.1.take 4), r.2.map fun p => p.2.toNat)) = (20, [10, 11, 13, 16]) := by decide +kernel
/-- 05 R74: BASE takes the page's rest as its limit, limit 0 where there is none, and reads the entries it needs first; PREF of a page that may not be read takes no fault. -/
theorem test_base : ((group? (exec (.base { w with d := br 2, a := sr 4 }) (mapped 0 (sca 4 0x100)))).map fun g => ((g.breg 2).vbase.toNat, (g.breg 2).limit)) = some (0x100, 0xFF00) ∧
    ((group? (exec (.base { w with d := br 2, a := sr 4 }) (mapped 0 (sca 5 0x1000000)))).map fun g => (g.breg 2).limit) = some 0 ∧
    asks (.base { w with d := br 2, a := sr 4 }) (mapped 0 (sca 4 0x10000)) = some [(.slice 16, 0x800, false, false)] := by decide +kernel
theorem test_pref : asks (.pref { w with a := br 1, b := v 2 } .x4 0) ((mapped 0 (based ∘ masked 3 ∘ vec 2 [0, 0x4000])).modCore 0 fun c =>
    { c with tlb := c.tlb ++ [{ vf := 0, va := 0x10000, page := { page0 0 with rd := false } }] }) = some [(.slice 80, 0x2800, false, false)] := by decide +kernel
theorem test_fence : ends (.fence w .dev) (mapped 0 id) 1 0xFFFFFFFF 0 ∧
    ((split? (exec (.fence w .dev) (mapped 0 fun g => g.modSplit 0 fun p => { p with lct := 1000 }))).map (·.park)) = some (.fence .dev false 1000) := by decide +kernel
/-- 05 R80, 12 R207: LDS and STS name a place of the team's own scratchpad. -/
theorem test_lds_sts : ((next? (exec (.lds { w with d := v 8, a := im 0, b := v 2 } m32) (lab (masked 1 ∘ vec 2 [5])))).map fun t => ((t.core 0).sops.map fun o => (o.team, o.reads))) =
      some [(0, [20, 21, 22, 23])] ∧
    ((next? (exec (.sts { w with a := im 0, b := v 2, c := v 4 } m32) (lab (masked 1 ∘ vec 2 [5] ∘ vec 4 [0x11223344])))).map fun t => ((t.core 0).sops.map fun o =>
      (o.team, o.bytes.map fun p => (p.1, p.2.toNat)))) = some [(0, [(20, 0x44), (21, 0x33), (22, 0x22), (23, 0x11)])] := by decide +kernel

/-! ## Cams (07 R101, R102) -/

theorem test_cambind : ((next? (exec (.cambind { w with d := .cls 3 2, a := sr 4 } false .f16 false .h2) (lab (sca 4 0x00F00080)))).bind fun t => (t.team? 0 0).map fun t =>
    let b := t.binds.getD 0 Binding.unbound; (b.state, b.fmt, b.slot, b.back)) = some (.binding, .f16, 2, 0x80) ∧
    trapCode (.cambind { w with d := .cls 3 2, a := sr 4 } false .f16 false .h2) (lab (sca 4 0x00F00040)) = some 0x09 := by decide +kernel

/-- Entry 0 of the team's table holds slot 2 of group 0. -/
def bound (st : BindState) (f : Group → Group) : State :=
  (lab f).modTeam 0 0 fun t => { t with binds := t.binds.set 0 { Binding.unbound with state := st, fmt := .f16, grp := 0, slot := 2, back := 0x80, reason := 3 } }

theorem test_camwait : ends (.camwait { w with a := .cls 3 2 }) (bound .bound id) 1 0xFFFFFFFF 0 ∧ trapCode (.camwait { w with a := .cls 3 2 }) (bound .failed id) = some 0x0305 := by
  decide +kernel
theorem test_camfree : ((next? (exec (.camfree { w with d := .cls 3 2 } false) (bound .bound id))).bind fun t => (t.team? 0 0).map fun t => (t.binds.getD 0 Binding.unbound).state) =
    some .unbound := by decide +kernel
theorem test_caminfo_none : scal (.caminfo { w with d := sr 8, a := .cls 3 5 }) (lab id) 8 = some 0 := by decide +kernel

/-! ## Witnesses: for each statement of Obligations.lean, states and operands that meet its hypotheses

Where a statement has several clauses, one witness for each; `AllMeet` says of a list of instructions that each may act. -/

def d8a2 : Ops := { w with d := v 8, a := v 2 }

theorem test_w_IntegerResults : AllMeet (lab id)
    [.mov d8a2 .i32, .movi { w with d := v 8, a := .imm 0, imm := some 1 } .u64, .iadd dab .i64 true, .isub dab .u32 false, .imul dab .i32, .imad dabc .u64,
     .imulhi dab .i32, .imin dab .u32, .imax dab .i64, .iabs d8a2 .i32 true, .ineg d8a2 .u32 false, .lea64 dab 4 true, .iset { dab with d := pr 1 } .le .i32,
     .sel { dabc with c := qr 7 } .i32, .plop { w with d := pr 1, a := pr 2, b := pr 3, c := qr 7 } 0x3C] := allMeet_of (by decide +kernel)
theorem test_w_BitResults : AllMeet (lab id)
    [.and dab true, .or dab false, .xor dab true, .not d8a2 false, .shl dab false, .shr dab true, .sar dab true, .bfx dabc true true,
     .bfi { dabc with e := im 4 } false, .popc d8a2 true, .clz d8a2 false, .brev d8a2 true] := allMeet_of (by decide +kernel)
theorem test_w_FloatResults : AllMeet (lab id)
    [.fadd dab, .fsub dab, .fmul dab, .ffma dabc, .fmin dab, .fmax dab, .fmaxx dab, .fminx dab, .fabs d8a2, .fneg d8a2, .fset { dab with d := pr 1 } .ge, .frnd d8a2,
     .frcp d8a2, .fsqrt d8a2, .frsq d8a2, .fex2 d8a2, .flg2 d8a2, .fsin d8a2, .fcos d8a2, .ftanh d8a2, .hrnd dab] := allMeet_of (by decide +kernel)
theorem test_w_PackedResults : AllMeet (lab id)
    [.padd dab .h2 true, .psub dab .bf2 false, .pmul dab .q4e4 true, .pfma dabc .q4e5 false, .pmin dab .h2, .pmax dab .q4e4, .pset { dab with d := pr 1 } .h2 .eq false,
     .pset { dab with d := pr 1 } .bf2 .ne true, .pset dab .q4e4 .lt false, .pdot dabc .h2 true] := allMeet_of (by decide +kernel)
theorem test_w_ConversionResults : AllMeet (lab id)
    [.cvt d8a2 .e4m3 .f32 true, .pack2 dab true false, .pack4 { dabc with e := v 1 } true true, .unpk d8a2 .q4e4, .fkey d8a2 false, .fkey d8a2 true, .qscale d8a2 .e4m3,
     .sprune dab true] := allMeet_of (by decide +kernel)
/-- The guard p5, which holds in no lane. -/
def w5 : Ops := { w with g1 := ⟨false, false, 5⟩ }

theorem test_w_NoEffect : AllMeet (lab id) [.nop w, .yield w false 0] ∧
    (∀ i ∈ ([.base { w5 with d := br 1, a := sr 4 }, .ggrow { w5 with d := sr 2, a := im 1 }, .trigger w5, .time { w5 with d := v 2 }, .camwait { w5 with a := .cls 3 0 },
       .camfree { w5 with d := .cls 3 0 } false, .fence w5 .dev, .fencew w5 .grp, .enq { w5 with a := br 1, b := im 0, c := v 8 } .x1 0,
       .qsub { w5 with a := br 1, b := im 0 } .x1 0, .qunsub { w5 with a := br 1, b := im 0 } .x1 0] : List Instr), Meets (lab id) i fun c => c.x == 0) :=
  ⟨allMeet_of (by decide +kernel), fun i hi =>
    meets_of (List.all_eq_true.1 (show List.all _ (fun i => readyAnd (lab id) i fun c => c.x == 0) = true by decide +kernel) i hi)⟩

/-- At an IF with lanes on both sides, on one side, and with a full stack; at a LOOP with room and without. -/
theorem test_w_StructuredEntry :
    Meets atIf (.if_ { w with a := pr 1 } false 2) (fun c => c.split.frames.length < 16 && c.group.splits.length < 4 &&
      (maskOf fun l => laneIn c.split.mask l && c.pred c.o.a l) == 5) ∧
    Meets (lab (masked 5 ∘ prd 1 0b0101)) (.if_ { w with a := pr 1 } false 2) (fun c => (maskOf fun l => laneIn c.split.mask l && c.pred c.o.a l) == c.split.mask) ∧
    Meets (lab (placed 1 (List.replicate 16 (.callF 0 1)))) (.if_ { w with a := pr 1 } false 2) (fun c => c.split.frames.length ≥ 16) ∧
    Meets (lab id) (.loop w 5) (fun c => c.split.frames.length < 16) ∧
    Meets (lab (placed 1 (List.replicate 16 (.callF 0 1)))) (.loop w 5) (fun c => c.split.frames.length ≥ 16) ∧
    Meets atIf (.if_ { w with a := pr 1 } false 2) (fun c => (c.s.group? c.r).any fun g => g.split? c.r.split == some c.split && c.group.nextSid == g.nextSid &&
      (g.splits.all fun p => p.sid < g.nextSid) && c.split.sid == c.r.split) := by
  refine ⟨?_, ?_, ?_, ?_, ?_, ?_⟩ <;> exact meets_of (by decide +kernel)

/-- ELSE, ENDIF and ENDLOOP at their frame and away from it, on each side. -/
theorem test_w_StructuredExit :
    Meets (lab (placed 12 [.ifF true true 12 15 0 1])) (.else_ w 2) (fun c => c.split.pc == 12) ∧
    Meets (lab (placed 12 [.ifF true false 12 15 0 1])) (.else_ w 2) (fun c => c.split.pc == 12) ∧
    Meets (lab (placed 12 [.ifF false false 12 15 10 0])) (.else_ w 2) (fun c => c.split.pc == 12) ∧
    Meets (lab (placed 12 [.ifF false false 13 15 10 0])) (.else_ w 2) (fun c => c.split.pc == 12) ∧
    Meets (lab (placed 14 [.ifF true true 14 15 0 1])) (.endif w) (fun c => c.split.pc == 14) ∧
    Meets (lab (placed 14 [.ifF false true 14 15 10 0])) (.endif w) (fun c => c.split.pc == 14) ∧
    Meets (lab (placed 8 [.loopF 4 8 15 2])) (.endloop w) (fun c => c.split.mask != 0) ∧
    Meets (lab (masked 0 ∘ placed 8 [.loopF 4 8 15 0])) (.endloop w) (fun c => c.split.mask == 0 && c.expected) ∧
    Meets (lab (placed 8 [.loopF 4 9 15 2])) (.endloop w) (fun c => c.split.pc == 8) ∧
    Meets (lab id) (.endif w) (fun c => c.split.frames == []) := by
  refine ⟨?_, ?_, ?_, ?_, ?_, ?_, ?_, ?_, ?_, ?_⟩ <;> exact meets_of (by decide +kernel)

theorem test_w_JumpsAndExits :
    Meets (lab (masked 15 ∘ placed 6 [.loopF 4 8 15 0] ∘ prd 1 1)) (.break_ { w with a := pr 1 } false) (fun c => (leaveLoop false (c.cond false) c.split.frames).isSome) ∧
    Meets (lab (masked 15 ∘ placed 6 [.loopF 4 8 15 0] ∘ prd 1 1)) (.cont { w with a := pr 1 } false) (fun c => (leaveLoop true (c.cond false) c.split.frames).isSome) ∧
    Meets (lab (masked 3 ∘ prd 1 1)) (.jmp { w with a := pr 1, b := .imm 0, imm := some 9 } false) (fun c => !c.badTarget && c.cond false != 0 && c.cond false != c.split.mask) ∧
    Meets (lab (masked 3 ∘ prd 1 3)) (.jmp { w with a := pr 1, b := .imm 0, imm := some 9 } false) (fun c => !c.badTarget && c.cond false == c.split.mask) ∧
    Meets (lab (masked 3)) (.jmp { w with a := pr 1, b := .imm 0, imm := some 9 } false) (fun c => !c.badTarget && c.cond false == 0) ∧
    Meets (lab (masked 3 ∘ prd 1 3)) (.call { w with a := pr 1, b := .imm 0, imm := some 9 } false) (fun c => !c.badTarget && c.cond false == c.split.mask) ∧
    Meets (lab (masked 3 ∘ placed 9 [.callF 7 15])) (.ret { w with a := qr 7 } false) (fun c => c.cond false == c.split.mask) ∧
    Meets (lab (masked 3)) (.ret { w with a := qr 7 } false) (fun c => c.cond false == c.split.mask && c.split.frames == []) ∧
    Meets (lab id) (.exit w) (fun c => c.x != 0) := by
  refine ⟨?_, ?_, ?_, ?_, ?_, ?_, ?_, ?_, ?_⟩ <;> exact meets_of (by decide +kernel)

/-- The last ids, the ids after them, and no executing lane. -/
theorem test_w_Barriers :
    Meets (lab id) (.bar { w with a := im 15, b := im 32 } true) (fun c => c.uniA ≤ 15 && c.uniB ≤ 32 && c.x != 0) ∧
    Meets (lab id) (.barc { w with a := im 3, b := im 0 } false) (fun c => c.uniA ≤ 3 && c.uniB ≤ 32 && c.x != 0) ∧
    Meets (lab id) (.bar { w with a := im 16, b := im 0 } false) (fun c => c.uniA > 15) ∧
    Meets (lab id) (.barc { w with a := im 0, b := im 33 } false) (fun c => c.uniB > 32) ∧
    Meets (lab id) (.bar { w with a := im 1, b := im 0, g1 := ⟨false, false, 1⟩ } false) (fun c => c.x == 0) := by
  refine ⟨?_, ?_, ?_, ?_, ?_⟩ <;> exact meets_of (by decide +kernel)

theorem test_w_LaneResults : AllMeet (lab id)
    [.shfl { d8a2 with b := im 1 } .w8 true, .lanebc { d8a2 with b := im 3 } true, .vote { w with d := pr 1, a := pr 2 } .all, .vote { w with d := pr 1, a := pr 2 } .any,
     .vote { w with d := qr 1, a := pr 2 } .uni, .vote { w with d := v 8, a := pr 2 } .ballot, .match_ d8a2 true, .elect { w with d := pr 1 }, .elect { w with d := sr 1 }] :=
  allMeet_of (by decide +kernel)

/-- The bindings of the team's table are all taken. -/
def full (s : State) : State := s.modTeam 0 0 fun t => { t with binds := t.binds.map fun b => { b with state := .bound, grp := 9 } }

theorem test_w_CamInstructions :
    Meets (lab (sca 4 0x00F00080)) (.cambind { w with d := .cls 3 2, a := sr 4 } false .f16 false .h2) (fun c => c.x != 0 && c.uniA / 2 ^ 20 == 15 && c.uniA % 128 == 0 &&
      c.uniA % 2 ^ 20 + fixedPart .f16 ≤ c.team.kernel.scratch && c.team.entryOf c.r.grp c.o.d.camSlot false == none && (c.team.binds.getD 0 Binding.unbound).state == .unbound) ∧
    Meets (lab (sca 4 0x00F00040)) (.cambind { w with d := .cls 3 2, a := sr 4 } false .f16 false .h2) (fun c => c.uniA % 128 != 0) ∧
    Meets (full (lab (sca 4 0x00F00080))) (.cambind { w with d := .cls 3 2, a := sr 4 } false .f16 false .h2) (fun c => c.x != 0 && c.uniA / 2 ^ 20 == 15 &&
      c.uniA % 128 == 0 && c.team.entryOf c.r.grp c.o.d.camSlot false == none &&
      (List.range c.team.binds.length).all fun j => (c.team.binds.getD j Binding.unbound).state != .unbound) ∧
    Meets (lab (sca 4 0x00F00080)) (.cambind { w5 with d := .cls 3 2, a := sr 4 } false .f16 false .h2) (fun c => c.x == 0 && c.uniA / 2 ^ 20 == 15 &&
      c.uniA % 128 == 0 && c.uniA % 2 ^ 20 + fixedPart .f16 ≤ c.team.kernel.scratch) ∧
    Meets (lab id) (.camwait { w with a := .cls 3 2 }) (fun c => c.x != 0 && c.team.resolve c.r.grp c.o.a.camSlot == none) ∧
    Meets (bound .bound id) (.camwait { w with a := .cls 3 2 }) (fun c => c.team.resolve c.r.grp c.o.a.camSlot == some 0) ∧
    Meets (bound .failed id) (.camwait { w with a := .cls 3 2 }) (fun c => (c.team.binds.getD 0 Binding.unbound).state == .failed) ∧
    Meets (bound .bound id) (.camfree { w with d := .cls 3 2 } false) (fun c => c.x != 0 && c.team.entryOf c.r.grp c.o.d.camSlot false == some 0) ∧
    Meets (bound .bound id) (.caminfo { w with d := v 8, a := .cls 3 2 }) (fun c => c.x != 0) := by
  refine ⟨?_, ?_, ?_, ?_, ?_, ?_, ?_, ?_, ?_⟩ <;> exact meets_of (by decide +kernel)

/-- A bind in flight whose writes are performed; a load asked for 32 ticks ago, with room, and where an array makes room. -/
def loading (arrays : List (Nat × Nat)) : State :=
  { (bound .bound id).modCore 0 fun c => c.modPart 1 fun p => { p with loads := [((0, 0), 10)], arrays := arrays } with time := 42 }

theorem test_w_CamUnits :
    (let s := bound .binding id
     ((s.team? 0 0).any fun t => (t.binds.getD 0 Binding.unbound).state == .binding && t.binds.length == 16 && !(t.binds.getD 0 Binding.unbound).waitFor.any (s.core 0).unperformed) = true) ∧
    (∀ l ∈ [[], [(0, 4), (0, 5), (0, 6), (0, 7)]], let p := ((loading l).core 0).part 1
     ((loading l).team? 0 0).any (fun t => (t.binds.getD 0 Binding.unbound).state == .bound) = true ∧ p.loadDone (0, 0) (loading l).time = true ∧
       p.arrays.length ≤ 4 ∧ (p.arrays.length < 4 ∨ (p.victim (loading l).time).isSome = true)) := by decide +kernel

def isOk {α : Type} (e : Except LaneFault α) : Bool :=
  match e with
  | .ok _ => true
  | .error _ => false

theorem test_w_LoadsAsk :
    Meets (mapped 0 based) (.ld ldOps m32) (fun c => c.x != 0 && isOk (c.baseElems .b32 .x4 0 4 .load c.lanes)) ∧
    Meets (mapped 0 based) (.ldu { ldOps with d := sr 8, b := im 3 } m32) (fun c => c.x != 0 && isOk (c.baseElems .b32 .x4 0 4 .load [0])) ∧
    Meets (mapped 0 id) (.gld { w with d := v 8, a := v 2 } { m32 with sc := .x1 }) (fun c => c.x != 0 &&
      isOk (checkLanes (fun l => c.atAddr (c.ownAddr c.o.a 0 l) 4 .load l) c.lanes)) := by
  refine ⟨?_, ?_, ?_⟩ <;> exact meets_of (by decide +kernel)

theorem test_w_StoresSend :
    Meets (mapped 0 based) (.st stOps { m32 with sem := .ordered }) (fun c => c.x != 0 && c.s.fenceMet c.r .dev c.split.lct &&
      (match c.baseElems .b32 .x4 0 4 .store c.lanes with | .ok es => c.s.toLog c.v (Fetch.fresh (.word c.r)) (es.map (·.x)) == [] | .error _ => false)) ∧
    Meets (mapped 0 based) (.stu { stOps with b := im 3, c := im 5 } m32) (fun c => c.x != 0 && isOk (c.baseElems .b32 .x4 0 4 .store [0])) ∧
    Meets (mapped 0 id) (.gst { w with a := v 2, c := v 4 } { m32 with sc := .x1 }) (fun c => c.x != 0 &&
      isOk (checkLanes (fun l => c.atAddr (c.ownAddr c.o.a 0 l) 4 .store l) c.lanes)) := by
  refine ⟨?_, ?_, ?_⟩ <;> exact meets_of (by decide +kernel)

theorem test_w_AtomicsSend :
    Meets (mapped 0 based) (.atom { ldOps with c := v 4 } { a32 .add with rel := true }) (fun c => c.x != 0 && c.s.fenceMet c.r .dev c.split.lct &&
      (match checkLanes (fun l => c.atBase (c.group.breg c.o.a.num) (c.offset .x4 0 l) false 4 .store l) c.lanes with
       | .ok es => c.s.toLog c.v (Fetch.fresh (.word c.r)) (es.map (·.x)) == []
       | .error _ => false)) ∧
    Meets (mapped 0 based) (.red stOps (a32 .min)) (fun c => isOk (checkLanes (fun l => c.atBase (c.group.breg c.o.a.num) (c.offset .x4 0 l) false 4 .store l) c.lanes)) ∧
    Meets (mapped 0 based) (.atomu { ldOps with d := sr 8, b := im 0, c := im 1 } (a32 .inc)) (fun c =>
      isOk (checkLanes (fun l => c.atBase (c.group.breg c.o.a.num) (c.offset .x4 0 l) false 4 .store l) [0])) := by
  refine ⟨?_, ?_, ?_⟩ <;> exact meets_of (by decide +kernel)

/-- The page that BASE finds, and why it finds none. -/
def paged (c : Ctx) : Except Miss PageInfo := c.s.pageVia (c.s.core c.r.core).tlb (Fetch.fresh (.word c.r)) c.v.cfg c.uniA64

def missing {α : Type} (e : Except Miss α) : Option Miss :=
  match e with
  | .error m => some m
  | .ok _ => none

theorem test_w_ScratchpadAccesses :
    Meets (lab id) (.lds { w with d := v 8, a := im 0, b := v 2 } m32) (fun c => c.x != 0 && isOk (c.scratchElems .b32 .x4 0)) ∧
    Meets (lab id) (.sts { w with a := im 0, b := v 2, c := v 4 } m32) (fun c => isOk (c.scratchElems .b32 .x4 0)) ∧
    Meets (lab id) (.atoms { w with d := v 8, a := im 0, b := v 2, c := v 4 } (a32 .add)) (fun c => c.x != 0 && isOk (checkLanes (c.atScratch .x4 0 .b32 4) c.lanes)) ∧
    Meets (mapped 0 id) (.glds { w with a := im 0, b := v 2, c := v 4 } m32) (fun c => c.x != 0 && isOk (checkLanes (c.bothEnds m32 .load) c.lanes)) ∧
    Meets (mapped 0 id) (.gsts { w with a := im 0, b := v 2, c := v 4 } m32) (fun c => c.x != 0 &&
      (match checkLanes (c.bothEnds m32 .store) c.lanes with | .ok e => c.s.toLog c.v (Fetch.fresh (.word c.r)) (e.map (·.2.x)) == [] | .error _ => false)) ∧
    Meets (mapped 0 (sca 4 0x100)) (.base { w with d := br 2, a := sr 4 }) (fun c => c.x != 0 && (paged c).toOption == some (page0 0)) ∧
    Meets (mapped 0 (sca 5 0x1000000)) (.base { w with d := br 2, a := sr 4 }) (fun c => c.x != 0 && c.uniA64 ≥ 2 ^ 56) ∧
    Meets (mapped 0 (sca 4 0x10000)) (.base { w with d := br 2, a := sr 4 }) (fun c => c.x != 0 && missing (paged c) == some (.walk 0x10000)) ∧
    Meets { (mapped 0 (sca 4 0x10000)) with vfs := [rootVf fun c => { c with root := 0x18_0000_0000 }] } (.base { w with d := br 2, a := sr 4 }) (fun c => c.x != 0 &&
      missing (paged c) == some (.fault .access)) ∧
    Meets (mapped 0 id) (.base { w with d := br 2, a := im 0 }) (fun c => c.x != 0) ∧
    Meets ((mapped 0 (based ∘ masked 3 ∘ vec 2 [0, 0x4000])).modCore 0 fun c => { c with tlb := c.tlb ++ [{ vf := 0, va := 0x10000, page := { page0 0 with rd := false } }] })
      (.pref { w with a := br 1, b := v 2 } .x4 0) (fun c => c.x != 0 &&
      isOk (c.atBase (c.group.breg c.o.a.num) (c.offset .x4 0 0) false 1 .load 0) && c.lanes.all fun l => match c.prefElem .x4 0 l with
        | .ok _ => true
        | .error e => (match e.kind with | .fault _ => true | _ => false)) ∧
    Meets ((lab id).modCore 0 fun k => { k with ic := [] }) (.icpref { w with a := im 0, b := im 4 }) (fun c => c.x != 0 && c.uniB == 4 &&
      ((c.s.core c.r.core).icLine c.team.vf (c.team.kernel.text / 128 + 3)).isNone) := by
  refine ⟨?_, ?_, ?_, ?_, ?_, ?_, ?_, ?_, ?_, ?_, ?_, ?_⟩ <;> exact meets_of (by decide +kernel)

/-- What an instruction read at issue: its base registers alone. -/
def heldSnap (g : Group) : Snap := { s := [], q := [], b := g.b, gen := 0, ngx := 1, capture := none, cams := [], cap := [] }

/-- A split that waits to release a store. -/
def releasing : State :=
  mapped 0 fun g => (based g).modSplit 0 fun p => { p with park := .release (.st stOps { m32 with sem := .ordered }) (heldSnap (based g)) }

theorem test_w_Fences :
    Meets (mapped 0 id) (.fence w .sys) (fun c => c.x != 0 && c.split.unanswered == none && c.s.fenceMet c.r .sys c.split.lct) ∧
    Meets (mapped 0 fun g => g.modSplit 0 fun p => { p with lct := 1000 }) (.fence w .dev) (fun c => c.x != 0 && !c.s.fenceMet c.r .dev c.split.lct) ∧
    Meets (mapped 0 id) (.fencew w .dev) (fun c => c.x != 0 && c.s.fencewMet c.r .dev c.split.lct) ∧
    Meets (mapped 0 fun g => g.modSplit 0 fun p => { p with lct := 1000 }) (.fencew w .clu) (fun c => c.x != 0 && !c.s.fencewMet c.r .clu c.split.lct) ∧
    ((mapped 0 fun g => g.modSplit 0 fun p => { p with lct := 999, park := .fence .dev false 999 }).group? r0).any (fun g => (g.split? 0).any fun p =>
      p.park == .fence .dev false 999 && (mapped 0 fun g => g.modSplit 0 fun p => { p with lct := 999, park := .fence .dev false 999 }).fenceMet r0 .dev p.lct) = true ∧
    (((releasing.team? 0 0).any fun t => (t.group? 0).any fun g => (g.split? 0).any fun p => p.mayAct t g && releasing.fenceMet r0 .dev p.lct &&
      (match p.park with
       | .release i a => (releasing.actCtx? r0 i a).any fun c => match parkedBody i c with | .done .. => true | _ => false
       | _ => false)) = true) := by
  refine ⟨?_, ?_, ?_, ?_, ?_, ?_⟩
  iterate 4 exact meets_of (by decide +kernel)
  all_goals decide +kernel

def okOr {ε α : Type} (e : Except ε α) (p : α → Bool) : Bool :=
  match e with
  | .ok x => p x
  | .error _ => false

/-- Latch 3 free, filling, full, and past the last latch. -/
theorem test_w_LatchInstructions :
    Meets (lab id) (.ltinit { w with a := im 3, b := im 2, c := im 1 }) (fun c => c.uniA < c.team.kernel.latches && c.x != 0 && c.uniB ≤ 1023 && c.uniC ≤ 1023 &&
      (c.team.latches.getD c.uniA Latch.fresh).state == .free) ∧
    Meets (lab id) (.ltexpect { w with a := im 3, b := im 64 }) (fun c => c.uniB == 64 && !(c.team.latches.getD c.uniA Latch.fresh).over_) ∧
    Meets (latched { Latch.fresh with state := .filling, arrt := 2 } id) (.ltarrive { w with a := im 3 } false) (fun c => (c.team.latches.getD c.uniA Latch.fresh).state == .filling && c.s.scratchOut c.r == []) ∧
    Meets (latched { Latch.fresh with state := .full, cnst := 2 } id) (.ltarrive { w with a := im 3 } true) (fun c => (c.team.latches.getD c.uniA Latch.fresh).state == .full && c.s.scratchOut c.r == []) ∧
    Meets (latched { Latch.fresh with state := .full } id) (.ltwait { w with a := im 3, b := im 1 }) (fun c => c.uniB ≤ 1 && (c.team.latches.getD c.uniA Latch.fresh).state == .full) ∧
    Meets (latched { Latch.fresh with state := .full } (placed 5 [])) (.yield { w with a := im 3, b := im 0 } true 0x3FFE) (fun c => c.uniB ≤ 1 && c.x != 0) ∧
    Meets (lab id) (.lttest { w with d := v 8, a := im 3 }) (fun c => c.x != 0) ∧
    Meets (lab id) (.ltreset { w with a := im 3 }) (fun c => (c.team.latches.getD c.uniA Latch.fresh).pend == 0) ∧
    Meets (lab (placed 5 [])) (.ltcont { w with a := im 3, b := im 0 } 12) (fun c => c.codeTarget 12 == some 17 && (c.team.latches.getD c.uniA Latch.fresh).cont == none) ∧
    Meets (lab id) (.ltwait { w with a := im 16, b := im 0 }) (fun c => c.uniA ≥ c.team.kernel.latches) := by
  refine ⟨?_, ?_, ?_, ?_, ?_, ?_, ?_, ?_, ?_, ?_⟩ <;> exact meets_of (by decide +kernel)

/-- A latch whose counts have reached, one that waits, one released, one in error, one past its targets. -/
theorem test_w_LatchTransitions :
    (let l := { Latch.fresh with state := .filling, exp := 64, arrb := 64, cnst := 1 }; l.err = 0 ∧ l.state = .filling ∧ l.arrb ≥ l.exp ∧ l.arrn ≥ l.arrt ∧ ¬(l.cnsn = l.cnst ∧ l.pend = 0)) ∧
    (let l := { Latch.fresh with state := .filling, exp := 64 }; l.state = .filling ∧ l.arrb < l.exp) ∧
    (let l := { Latch.fresh with state := .full, cnst := 1, cnsn := 1 }; l.err = 0 ∧ l.state = .full ∧ l.cnsn = l.cnst ∧ l.pend = 0) ∧
    (let l := { Latch.fresh with arrn := 1 }; l.arrn > l.arrt) := by decide

/-- A record of a 64 × 64 F16 matrix in 32 × 32 boxes with a budget of 40. -/
def tileRecord : Nat :=
  2 * 2 ^ 52 + 2 * 2 ^ 57 + 2 * 2 ^ 116 + 64 * 2 ^ 128 + 64 * 2 ^ 160 + 8 * 2 ^ 320 + 31 * 2 ^ 464 + 31 * 2 ^ 472 + 40 * 2 ^ 504

/-- Its descriptor, id 9, cached; latch 3 filling. -/
def described (f : Group → Group) : State :=
  ((mapped 0 f).modCore 0 fun c => { c with desc := [{ vf := 0, id := 9, record := tileRecord }] }).modTeam 0 0 fun t =>
    { t with latches := t.latches.set 3 { Latch.fresh with state := .filling, exp := 65536 } }

/-- The answers that came for a piece of work. -/
def come (key : Errand) (got : List (Nat × List Byte)) (s : State) : State :=
  s.modCore 0 fun c => { c with fetches := [{ key := key, asked := [], got := got, time := 0, errs := [] }] }

/-- The context of a parked instruction that acts once these sectors have come for it, all of those that it asked for. -/
def answered (i : Instr) (s : State) (cap : List (Nat × Nat)) (got : List (Nat × List Byte)) (secs : List Nat) (p : Ctx → Bool) : Bool :=
  let s := come (.word r0) got s
  ((s.ctx? i).bind fun c => s.actCtx? r0 i (c.snap cap)).any fun c =>
    let f := (c.s.core c.r.core).answers (.word c.r)
    c.acting && c.x != 0 && f.asked == [] && f.errs == [] && secs.all f.knows && p c

/-- Nothing is held for the split, and an asking for sectors translates. -/
def asksFor (c : Ctx) (secs : List Nat) : Bool :=
  okOr ((c.s.forget c.r.core (.word c.r)).xlateAll c.asker .load secs) fun xs => xs.length == secs.length

theorem test_w_CopiesEnter :
    Meets (described (masked 3 ∘ sca 4 0x00F00000)) (.cpy { w with a := sr 4, b := im 9, c := v 4, e := im 3 } false) (fun c => c.x != 0 &&
      c.field c.o.e false false 0 == 3 && (c.lanes.all fun n => ((c.s.core c.r.core).desc? c.team.vf (c.descId n)).isSome) &&
      okOr (checkLanes (c.copyPlan (c.laneDesc (Fetch.fresh (.word c.r))) .cpy) c.lanes) (fun ps => ps.length == 2 && ps.length ≤ (c.s.core 0).copyRoom)) ∧
    Meets (described (masked 1 ∘ sca 4 0x00F00000)) (.cpyw { w with a := sr 4, b := im 9, c := v 4, e := im 3 } true) (fun c => c.x != 0 &&
      okOr (checkLanes (c.copyPlan (c.laneDesc (Fetch.fresh (.word c.r))) .cpyw) c.lanes)
        (fun ps => ps.length == 1 && ps.length ≤ (c.s.core 0).copyRoom && 65536 + (ps.map (·.total)).foldl (· + ·) 0 ≤ 0xFFFFFF)) ∧
    Meets (described (masked 1 ∘ sca 4 0x00F00000)) (.cpyb { w with a := sr 4, b := v 6, c := im 64, e := im 3 } false true false) (fun c => c.x != 0 &&
      okOr (checkLanes (c.copyPlan (c.laneDesc (Fetch.fresh (.word c.r))) (.cpyb true false)) c.lanes) (fun ps => ps.length == 1)) ∧
    Meets { (mapped 0 id) with vfs := [rootVf fun c => { c with descBase := 0x400 }] } (.tdld { w with a := im 9 }) (fun c => c.x != 0 && c.uniA ≤ 4095 &&
      asksFor c (descSectors c.v.cfg c.uniA)) ∧
    answered (.tdld { w with a := im 9 }) { (mapped 0 id) with vfs := [rootVf fun c => { c with descBase := 0x400 }] } []
      [(0x640, bytesOfNat 32 tileRecord), (0x660, bytesOfNat 32 0)] (descSectors { slotVf with descBase := 0x400 } 9) (fun c => c.uniA ≤ 4095) = true ∧
    Meets (described id) (.tdinv { w with a := im 9 }) (fun c => c.x != 0 && c.uniA ≤ 4095) ∧
    Meets (described id) (.tdinv { w with a := .imm 0, imm := some 4096 }) (fun c => c.uniA > 4095) := by
  refine ⟨?_, ?_, ?_, ?_, by decide +kernel, ?_, ?_⟩ <;> exact meets_of (by decide +kernel)

/-- Descriptor id 9 captured by an instruction that reads its tile. -/
def capturing (c : Ctx) : Ctx := { c with cap := [(0, tileRecord)], s := c.s.useDesc c.r.core c.team.vf c.uniA tileRecord }

theorem test_w_SparseTiles :
    Meets (described id) (.tstsp { w with a := im 9, b := im 1, c := im 1, e := v 32 }) (fun c => c.x != 0 && c.uniA ≤ 4095 &&
      (c.s.core c.r.core).desc? c.team.vf c.uniA == some tileRecord && checkTile tileRecord c.uniB c.uniC == none &&
      okOr ((capturing c).pieces (tileVa tileRecord c.uniB c.uniC) (tileBytes tileRecord (c.tileElems tileRecord c.uniB c.uniC)).length .store)
        (fun es => (capturing c).s.toLog c.v (Fetch.fresh (.word c.r)) (es.map (·.x)) == [])) ∧
    Meets (described id) (.tldsp { w with d := v 32, a := im 9, b := im 1, c := im 1 }) (fun c => c.x != 0 && c.uniA ≤ 4095 &&
      (c.s.core c.r.core).desc? c.team.vf c.uniA == some tileRecord && checkTile tileRecord c.uniB c.uniC == none &&
      okOr ((capturing c).pieces (tileVa tileRecord c.uniB c.uniC) 16 .load) (fun es => es.length == 1)) ∧
    Meets { (mapped 0 id) with vfs := [rootVf fun c => { c with descBase := 0x400 }] } (.tldsp { w with d := v 32, a := im 9, b := im 1, c := im 1 }) (fun c => c.x != 0 &&
      c.uniA ≤ 4095 && (c.s.core c.r.core).desc? c.team.vf c.uniA == none && asksFor c (descSectors c.v.cfg c.uniA)) ∧
    Meets (described (sca 4 4096)) (.tldsp { w with d := v 32, a := sr 4, b := im 1, c := im 1 }) (fun c => c.x != 0 && c.uniA > 4095) := by
  refine ⟨?_, ?_, ?_, ?_⟩ <;> exact meets_of (by decide +kernel)

/-- Streams of four rows in slots 0 and 1; s32 and s33 name rows 0 and 1; a cursor address; a handle at hand. -/
def streamed (f : Group → Group) : State :=
  (mapped 0 (f ∘ sca 32 0 ∘ sca 33 2 ∘ sca 4 0x800)).modTeam 0 0 fun t => { t with streams := List.replicate 16 (4 * 2 ^ 192) }

/-- A join of the team. -/
def aJoin (st : JoinState) (n : Nat) : Join :=
  { team := 0, vf := 0, grid := 0, op := .intersect, seg := false, slotA := 0, slotB := 1, descA := 4 * 2 ^ 192, descB := 4 * 2 ^ 192, row := 0, sect := 0, endRow := 2,
    endSeg := 0, entry := 40, cursor := 0x800, level := 0, emit := 0, step := 0, failVa := 0, posA := 0, posB := 0, lastRow := 0, lastSeg := 0, lastA := 0, lastB := 0, lastc := 0,
    pending := (List.range n).map fun i => { coord := i, posA := i, posB := i, inA := true, inB := true, row := 0, sect := 0, nextA := 0, nextB := 0 },
    since := 5, finished := false, state := st, reason := 0, waitFor := [], token := none, failAt := (0, 0, 0), stop := none }

/-- Its cursor: rows 0 to 1 of slots 0 and 1, going on at index 40 (08 R128). -/
def aCursor : Nat := 2 * 2 ^ 192 + 40 * 2 ^ 240

def joined (st : JoinState) (n : Nat) (f : Group → Group) : State := (streamed f).modCore 0 fun c => { c with joins := [(2, some (aJoin st n))] }

theorem test_w_JoinInstructions :
    Meets (streamed id) (.jdesc { w with a := im 15, b := sr 8 }) (fun c => c.uniA ≤ 15 && c.x != 0) ∧
    Meets (streamed id) (.join { w with d := sr 34, a := im 0, b := im 1, c := sr 32, e := sr 4 } .union false 5) (fun c => c.x != 0 && c.uniA ≤ 15 && c.uniB ≤ 15 &&
      c.uniE64 % 32 == 0 && checkStreams (c.team.streams.getD c.uniA 0) (c.team.streams.getD c.uniB 0) 2 == none &&
      (c.group.sreg (c.o.c.num + 1)).toNat == 2 &&
      okOr (c.translate c.uniE64 .store) (fun _ => true) && (c.s.core c.r.core).freeHandle == some 0) ∧
    Meets (streamed id) (.jresume { w with d := sr 34, a := sr 4 }) (fun c => c.x != 0 && c.uniA64 % 32 == 0 && (c.s.core c.r.core).freeHandle == some 0 &&
      asksFor c [c.uniA64]) ∧
    answered (.jresume { w with d := sr 34, a := sr 4 }) (streamed id) ((List.range 16).map fun i => (i, 4 * 2 ^ 192)) [(0x800, bytesOfNat 32 aCursor)] [0x800] (fun c => c.uniA64 % 32 == 0 &&
      (c.s.core c.r.core).freeHandle == some 0 && !badCursor aCursor &&
      checkStreams (c.stream (bitsOf aCursor 58 55)) (c.stream (bitsOf aCursor 62 59)) (bitsOf aCursor 223 192) == none) = true ∧
    Meets (streamed id) (.jstat { w with d := sr 9, a := im 3 } false) (fun c => c.uniA ≤ 3 && c.x != 0 && c.ownJoin c.uniA == none) ∧
    Meets (joined .running 0 id) (.jstat { w with d := sr 9, a := im 2 } false) (fun c => (c.ownJoin c.uniA).any fun j => j.state == .running) ∧
    Meets (joined .done 0 id) (.jstat { w with d := sr 9, a := im 2 } true) (fun c => (c.ownJoin c.uniA).any fun j => j.state == .done) ∧
    Meets (joined .running 0 id) (.jcancel { w with a := im 2 }) (fun c => (c.ownJoin c.uniA).any fun j => j.state == .running && j.stop == none) ∧
    Meets (joined .stopped 0 id) (.jcancel { w with a := im 2 }) (fun c => (c.ownJoin c.uniA).any fun j => j.state == .stopped) ∧
    Meets (streamed id) (.jdesc { w with a := im 16, b := sr 8 }) (fun c => c.uniA > 15) ∧
    Meets (streamed id) (.jcancel { w with a := im 4 }) (fun c => c.uniA > 3) := by
  refine ⟨?_, ?_, ?_, by decide +kernel, ?_, ?_, ?_, ?_, ?_, ?_, ?_⟩ <;> exact meets_of (by decide +kernel)

/-- A queue header at virtual address 0 with 16 items' room, its ring at 0x1000. -/
def headed (f : Group → Group) : State :=
  { (mapped 0 (based ∘ f)) with
    slices := [(80, { Slice.reset with store := { HomeStore.empty with
      lines := [{ line := 0xA00, data := bytesOfNat 128 (0x1000 + 4 * 2 ^ 56), dirty := false, pinned := false, vtag := none, used := 0 }] } })] }

/-- The header's page lies in the host window. -/
def hostHeaded : State :=
  mapped 0 fun g => g.setBreg 1 { vbase := 0, page := some { page0 0 with pa := 0x10000000000 }, limit := 65536 }

theorem test_w_QueueInstructions :
    Meets (headed id) (.enq { w with a := br 1, b := im 0, c := v 8 } .x1 0) (fun c => c.x != 0 && isOk (c.header .x1 0) && c.badLane == none) ∧
    Meets (headed id) (.qsub { w with a := br 1, b := im 0 } .x1 0) (fun c => c.x != 0 && (match c.header .x1 0 with
      | .ok e => !e.x.home.away && asksFor c (sectorsOf e.va 64)
      | .error _ => false)) ∧
    answered (.qsub { w with a := br 1, b := im 0 } .x1 0) (headed id) [] [(0, bytesOfNat 32 (0x1000 + 4 * 2 ^ 56)), (32, bytesOfNat 32 0)] [0, 32] (fun c =>
      (match c.header .x1 0 with
       | .ok e => e.va == 0 && !e.x.home.away
       | .error _ => false) && !badHeader (0x1000 + 4 * 2 ^ 56) && (c.s.core 0).subs == []) = true ∧
    Meets hostHeaded (.qsub { w with a := br 1, b := im 0 } .x1 0) (fun c => c.x != 0 && (match c.header .x1 0 with
      | .ok e => e.x.home.away
      | .error _ => false)) ∧
    Meets (headed id) (.qunsub { w with a := br 1, b := im 0 } .x1 0) (fun c => c.x != 0) ∧
    Meets (queued id) (.qpop { w with d := v 3, a := .cls 4 2, b := pr 4 } true) (fun c => c.x != 0 && c.team.kernel.lq) ∧
    Meets (queued (masked 7)) (.qpop { w with d := v 3, a := .cls 4 2 } false) (fun c => c.x != 0 && c.lanes.length ≤ ((c.s.core 0).lq c.o.a.num).length) ∧
    Meets (queued id) (.qpush { w with d := .cls 4 2, a := v 7 } false) (fun c => c.x != 0 && ((c.s.core 0).lq c.o.d.num).length + c.lanes.length ≤ 256) := by
  refine ⟨?_, ?_, by decide +kernel, ?_, ?_, ?_, ?_, ?_⟩ <;> exact meets_of (by decide +kernel)

def aGraph : Graph := { id := 0, vf := 0, base := 0, nodes := 4, arrivals := [], passes := [], starts := [(1, none)], arriving := [], evals := [], stopped := false }

theorem test_w_NewWork :
    Meets (lab (placed 5 [])) (.spawn w false 12) (fun c => c.x != 0 && c.codeTarget 12 == some 17 && (c.s.core c.r.core).roomForGroup c.team && (c.s.core c.r.core).contsReady == [] &&
      ((c.s.core c.r.core).startGroup c.r.team 17 allLanes c.split.level (fun g => g.withArgs c.group.args)).isSome) ∧
    Meets ((lab id).modTeam 0 0 fun t => { t with kernel := { t.kernel with vregs := 240 }, groups := t.groups ++ (List.range 31).map fun i => Group.fresh (i + 1) 0 0 allLanes 0 })
      (.spawn { w with d := qr 2 } true 12) (fun c => c.x != 0 && c.codeTarget 12 != none && !(c.s.core c.r.core).roomForGroup c.team) ∧
    Meets (lab id) (.ggrow { w with d := sr 2, a := im 4 }) (fun c => c.x != 0) ∧
    Meets { (lab id) with graphs := [aGraph], time := 1 } (.launch { w with a := im 3 } true) (fun c => (c.s.graph? c.grid.graph).any (fun g => c.uniA < g.nodes) && c.x != 0 &&
      c.s.fenceMet c.r .dev c.split.lct && c.v.launches.length < 256) ∧
    Meets { (lab id) with time := 1 } (.trigger w) (fun c => c.x != 0 && c.s.fenceMet c.r .dev c.split.lct) ∧
    Meets (mapped 128 (fun g => g.setBreg 1 { vbase := 0, page := none, limit := 0 })) (.smsg { w with a := br 1, b := im 0, c := v 8 } .x1 0) (fun c =>
      (match checkLanes (fun l => c.atBase (c.group.breg c.o.a.num) (c.offset .x1 0 l) false 1 .none l) c.lanes with
       | .ok es => (es.any fun e => e.x.page.hv && e.x.home == .slice 80) && es.all fun e => !e.x.home.away
       | .error _ => false)) ∧
    Meets hostHeaded (.smsg { w with a := br 1, b := im 0, c := v 8 } .x1 0) (fun c =>
      (match checkLanes (fun l => c.atBase (c.group.breg c.o.a.num) (c.offset .x1 0 l) false 1 .none l) c.lanes with
       | .ok es => es.any fun e => e.x.home.away
       | .error _ => false)) := by
  refine ⟨?_, ?_, ?_, ?_, ?_, ?_, ?_⟩ <;> exact meets_of (by decide +kernel)

theorem test_w_SystemRegisters :
    (∀ n ∈ [0x000#12, 0x001#12, 0x002#12, 0x003#12, 0x004#12, 0x010#12, 0x011#12, 0x012#12, 0x013#12, 0x014#12, 0x005#12, 0x015#12, 0xFFF#12],
      Meets (lab inTrap) (.rdsr { w with d := sr 4 } n) (fun c => c.x != 0)) ∧
    Meets (lab inTrap) (.wrsr { w with a := sr 3 } 0x001) (fun c => c.x != 0 && c.group.trapSplit.isSome) ∧
    Meets (lab id) (.wrsr { w with a := sr 3 } 0x001) (fun c => c.x != 0 && c.group.trapSplit == none) ∧
    Meets (lab id) (.featq { w with d := sr 4, a := im 15 }) (fun c => c.uniA < 16) ∧
    Meets (lab id) (.featq { w with d := sr 4, a := im 16 }) (fun c => c.uniA ≥ 16) ∧
    Meets (lab id) (.time { w with d := v 2 }) (fun c => c.x != 0) ∧
    Meets (lab id) (.icinv { w with a := im 0, b := im 8 }) (fun c => c.x != 0) := by
  refine ⟨fun n hn => meets_of (List.all_eq_true.1 (show List.all _ (fun n => readyAnd (lab inTrap) (.rdsr { w with d := sr 4 } n) fun c => c.x != 0) = true
    by decide +kernel) n hn), ?_, ?_, ?_, ?_, ?_, ?_⟩ <;> exact meets_of (by decide +kernel)

theorem test_w_TrapInstructions :
    Meets (lab (sca 4 254)) (.trap { w with a := sr 4 }) (fun c => c.uniA < 255 && c.group.trapSplit == none && c.x != 0) ∧
    Meets (lab (sca 4 255)) (.brk { w with a := sr 4 }) (fun c => c.uniA < 256 && c.group.trapSplit == none && c.x != 0) ∧
    Meets (lab (sca 4 255)) (.trap { w with a := sr 4 }) (fun c => c.uniA ≥ 255 && c.group.trapSplit == none) ∧
    Meets (lab (sca 4 256)) (.brk { w with a := sr 4 }) (fun c => c.uniA ≥ 256 && c.group.trapSplit == none) ∧
    Meets (lab inTrap) (.trap { w with a := im 0 }) (fun c => c.group.trapSplit.isSome) ∧
    Meets (lab id) (.trap { w5 with a := im 0 }) (fun c => c.x == 0 && c.group.trapSplit == none) ∧
    Meets (lab inTrap) (.rett w true) (fun c => c.x != 0 && c.split.frames.length == c.group.trapDepth) ∧
    Meets (lab (placed 3 [.callF 7 15] ∘ inTrap)) (.rett w true) (fun c => c.x != 0 && c.split.frames.length != c.group.trapDepth) ∧
    Meets (lab id) (.rett w false) (fun c => c.group.trapSplit == none) := by
  refine ⟨?_, ?_, ?_, ?_, ?_, ?_, ?_, ?_, ?_⟩ <;> exact meets_of (by decide +kernel)

theorem test_w_LatchReset :
    Meets (latched { Latch.fresh with state := .filling, pend := 32 } id) (.ltreset { w with a := im 3 }) (fun c => c.uniA < c.team.kernel.latches && c.x != 0 &&
      (c.team.latches.getD c.uniA Latch.fresh).pend != 0) ∧
    Meets (latched { Latch.fresh with state := .full } id) (.ltreset { w with a := im 3 }) (fun c => (c.team.latches.getD c.uniA Latch.fresh).pend == 0) ∧
    Meets (latched (Latch.change Latch.reset 9 { Latch.fresh with state := .full }) id) (.ltwait { w with a := im 3, b := im 0 }) (fun c => c.uniB ≤ 1 &&
      c.team.latches.getD c.uniA Latch.fresh == Latch.change Latch.reset 9 { Latch.fresh with state := .full }) ∧
    Meets (latched (Latch.change Latch.reset 9 { Latch.fresh with state := .full }) (placed 5 [])) (.yield { w with a := im 3, b := im 0 } true 2) (fun c => c.uniB ≤ 1 && c.x != 0) := by
  refine ⟨?_, ?_, ?_, ?_⟩ <;> exact meets_of (by decide +kernel)

/-! Witnesses about the memory, the engines and the hinge cores -/

/-- A request of the tests' split for the first sector of the page, its line's first in order where `n` is some. -/
def aReq (k : ReqKind) (strong : Bool) (n : Option Nat) : Req :=
  { id := 5, batch := 5, core := 0, vf := 0, grid := 0, owner := r0, home := .slice 80, sector := 0x2800, page := 0, size := 65536, hv := false, pinned := false, va := 0,
    lane := some 0, pc := 0, kind := k, errand := none, strong := strong, hint := 0, out := none, arrived := n, done := false, data := [], olds := [], time := 0,
    expiry := none, noInstall := false, repl := false, failed := none, hop := 0, trip := 3 }

def near (h : HomeLoc) : Bool :=
  match h with
  | .remote _ => false
  | _ => true

theorem test_w_HomesExecute :
    ∀ k ∈ [(ReqKind.read true, false), (.pref, false), (.strongRead, true), (.write [(31, 7)] [], false), (.write [(0, 7)] [], true),
      (.atomic [{ lane := 0, off := 0, op := .add, ty := .u32, c := 1, e := 0 }], true)],
      let s := { mapped 0 id with reqs := [aReq k.1 k.2 (some 1)] }
      s.req? 5 = some (aReq k.1 k.2 (some 1)) ∧ near (aReq k.1 k.2 (some 1)).home = true ∧ s.atHead (aReq k.1 k.2 (some 1)) = true ∧
      s.present (.slice 80) 0xA00 = true ∧ s.bad (.slice 80) 0x2800 = false ∧ s.canonical = true ∧
      ((List.range 32).all fun i => !s.shadowedVa 0 i 1) = true ∧ s.leasesOver (.slice 80) 0xA00 = true ∧
      ((s.store (.slice 80)).line? 0xA00).map (·.data.length) = some 128 := by decide +kernel
/-- A slot of a handler that takes every kind of trigger. -/
def tenant : HingeSlot := { HingeSlot.reset with loaded := true, trig := 15, data := [(1, 5)] }

theorem test_w_RequestsArrive :
    (let s := { mapped 0 id with reqs := [aReq (.write [] []) false none] }
     s.req? 5 = some (aReq (.write [] []) false none) ∧ s.enters (aReq (.write [] []) false none) = true ∧ s.replica? (aReq (.write [] []) false none) = none) ∧
    (let s := { mapped 0 id with reqs := [{ aReq (.write [] []) false none with id := 4 }, aReq (.write [] []) false none] }
     s.req? 5 = some (aReq (.write [] []) false none) ∧ s.enters (aReq (.write [] []) false none) = false) ∧
    (let s := { mapped 0 id with reqs := [{ aReq .pref false (some 1) with id := 4 }, aReq (.write [] []) false (some 2)] }
     s.req? 5 = some (aReq (.write [] []) false (some 2)) ∧ s.atHead (aReq (.write [] []) false (some 2)) = false) ∧
    (let s := { mapped 0 id with reqs := [aReq (.write [] []) false (some 1)], slices := [] }
     s.atHead (aReq (.write [] []) false (some 1)) = true ∧ s.present (.slice 80) 0xA00 = false) ∧
    (let q := { aReq (.write [] []) false (some 1) with hv := true }
     let s := { mapped 0 id with reqs := [q], slices := [(80, { Slice.reset with slots := [(0, tenant)] })] }
     s.req? 5 = some q ∧ s.atHead q = true ∧ s.present (.slice 80) 0xA00 = false ∧ q.demands = true ∧ (s.store (.slice 80)).fills = [] ∧
       s.triggerSlot 80 0 .miss = some 0 ∧ (s.slice 80).queue.length < 32) := by decide +kernel

/-- A fill in flight of a line, at slice 80. -/
def aFill : Fill := { line := 0xA00, vf := 0, depth := 0, raises := false, pinned := false, vtag := none }
def aLine (dirty : Bool) : Line := { line := 0xA00, data := List.replicate 128 7, dirty := dirty, pinned := false, vtag := none, used := 0 }
def holding (ls : List Line) (fs : List Fill) : State :=
  { State.reset with time := 3, slices := [(80, { Slice.reset with store := { HomeStore.empty with lines := ls, fills := fs } })] }

theorem test_w_LinesComeAndGo :
    (let s := holding [] [aFill]
     (s.store (.slice 80)).fills.find? (fun f => f.line == 0xA00) = some aFill ∧ s.roomFor (.slice 80) 0xA00 false = true ∧ s.waiting (.slice 80) 0xA00 = [] ∧
       s.flaws = []) ∧
    (let f := { aFill with vtag := some (0, 0), raises := true, depth := 2 }
     let s := { holding [] [f] with vfs := [rootVf id], slices := [(80, { Slice.reset with slots := [(0, tenant)], store := { HomeStore.empty with fills := [f] } })] }
     (s.store (.slice 80)).fills.find? (fun f => f.line == 0xA00) = some f ∧ s.roomFor (.slice 80) 0xA00 false = true ∧ s.waiting (.slice 80) 0xA00 = [] ∧
       s.triggerSlot 80 0 .fill = some 0 ∧ (s.slice 80).queue.length < 32) ∧
    (let l := { aLine true with vtag := some (0, 0) }
     let s := { holding [l] [] with vfs := [rootVf id], slices := [(80, { Slice.reset with slots := [(0, tenant)], store := { HomeStore.empty with lines := [l] } })] }
     (s.store (.slice 80)).line? 0xA00 = some l ∧ s.evictable (.slice 80) l = true ∧ s.triggerSlot 80 0 .evict = some 0 ∧ (s.slice 80).queue.length < 32 ∧
       (s.slice 80).snapshots < 8) ∧
    (∀ d ∈ [false, true], let s := holding [aLine d] []
     (s.store (.slice 80)).line? 0xA00 = some (aLine d) ∧ s.evictable (.slice 80) (aLine d) = true ∧ (aLine d).data.length = 128 ∧ s.canonical = true) ∧
    (let m : ReplicaMsg := { id := 2, slice := 80, replica := { vf := 0, gen := 0, line := 0xA00, data := [] }, hop := 0 }
     let s := { holding [] [] with replicaMsgs := [m] }
     s.replicaMsgs.find? (fun m => m.id == 2) = some m ∧ s.time ≥ m.hop + 3 ∧ ((s.slice m.slice).store.inSet (setOf m.replica.line)).length < 16) ∧
    (HomeLoc.direct 80).lister.allocates = true ∧ (HomeLoc.window 3).lister.allocates = true := by decide +kernel

/-- A result of one lane that waits for part 5, and the operation or request that brings it. -/
def anOut : Out :=
  { id := 9, owner := r0, pc := 0, finish := .regs (v 8) .f16, slots := [{ lane := 0, va := 0, part := 5, off := 2, high := false, dst := 0 }],
    waiting := [5], parts := [], olds := [], err := none, writes := [.v 8], mask := 1, overtaken := [] }
def aSop : ScratchOp :=
  { id := 5, batch := 5, owner := r0, core := 0, team := 0, sect := 0, strong := false, ready := 0, ticks := 0, remote := false, answer := none, reads := [],
    bytes := [(64, 7)], nibbles := [], steps := [], out := none }

/-- Sector 0 asked for by a copy's unit, and answered. -/
def asked : State :=
  { (mapped 0 id).modCore 0 fun c => { c with fetches := [{ key := .get 6 0, asked := [(5, 0)], got := [], time := 0, errs := [] }] } with
    reqs := [{ aReq (.read false) false (some 1) with done := true, errand := some (.get 6 0) }] }

theorem test_w_AnswersReturn :
    (let s := { mapped 0 id with reqs := [{ aReq .pref false (some 1) with done := true }] }
     s.req? 5 = some { aReq .pref false (some 1) with done := true } ∧ (aReq .pref false (some 1)).own = true ∧ s.time ≥ 0 + 3) ∧
    (let s := { mapped 0 id with reqs := [{ aReq (.write [] []) false (some 1) with done := true, time := 990 }] }
     s.req? 5 = some { aReq (.write [] []) false (some 1) with done := true, time := 990 } ∧ (s.split? r0).isSome = true) ∧
    ((asked.req? 5).any fun q => q.done && q.hop + q.trip ≤ asked.time && q.errand == some (.get 6 0) && q.kind != .hold && !asked.handlerWaits q &&
      ((asked.core 0).answers (.get 6 0)).asked.any fun p => p.1 == 5) = true ∧
    (let s := (lab id).modCore 0 fun c => { c with outs := [anOut] }
     (s.core 0).outs.find? (fun x => x.id == 9) = some anOut ∧ (∀ n ∈ anOut.waiting, n = 5)) ∧
    anOut.finish = .regs (v 8) .f16 ∧ anOut.err = none ∧
    (let s := (lab id).modCore 0 fun c => { c with sops := [aSop] }
     s.req? 5 = none ∧ s.opNamed 5 = some (0, aSop) ∧ s.opReady 0 aSop = true ∧ (s.team? 0 0).isSome = true ∧ (s.core 0).outs = [] ∧
       ((s.team? 0 0).map (·.scratch.wf)) = some true) ∧
    (lab id).req? 5 = none ∧ (lab id).opNamed 5 = none ∧ (lab id).outNamed 5 = none := by decide +kernel

/-- What an instruction keeps that has read nothing. -/
def noSnap : Snap := { s := [], q := [], b := [], gen := 0, ngx := 1, capture := none, cams := [], cap := [] }

/-- Parked at an LTWAIT of latch 3 in a phase. -/
def waitingAt (l : Latch) : State :=
  latched l fun g => g.modSplit 0 fun p => { p with park := .instr (.ltwait { w with a := im 3, b := im 0 }) noSnap }

theorem test_w_ParkedActs :
    (((waitingAt { Latch.fresh with state := .full }).parkedAct? r0).any fun x => match x.2 with | .done .. => true | _ => false) = true ∧
    (((waitingAt Latch.fresh).actCtx? r0 (.ltwait { w with a := im 3, b := im 0 }) noSnap).any fun c =>
      (parkedBody (.ltwait { w with a := im 3, b := im 0 }) c).stays (.instr (.ltwait { w with a := im 3, b := im 0 }) noSnap)) = true ∧
    (waitingAt Latch.fresh).parkedAct? r0 = none := by decide +kernel

/-! ### Hinge cores -/

/-- Slice 80 runs a handler of the tests' virtual function, its registers given, with a message's trigger, begun in this tick. -/
def handling (bits : Nat) (x : List (Nat × DWord)) : State :=
  let s := mapped bits id
  { s with
    focus := .slice 80
    slices := s.slices.map fun p => (80, { p.2 with
      slots := [(0, tenant)]
      run := some { slot := 0, trigger := { slot := 0, kind := .msg, a1 := 0, a4 := 0, body := [], snap := none, at_ := 0 }, x := x, pc := 0x10000, cycle := 0,
                    instret := 0, reserve := none, start := 2000, op := none, waits := false } }) }

/-- What has come of the handler's walks. -/
def handlingRead (f : Fetch) (s : State) : State := s.modCore (hingeCore 80) fun c => { c with fetches := [f] }

/-- Its operation, answered. -/
def replied (failed : Option FaultKind) : State :=
  { (handling 128 []).modSlice 80 fun c => { c with run := c.run.map fun h => { h with op := some 5 } } with
    reqs := [{ aReq (.line .load) false (some 1) with core := hingeCore 80, done := true, failed := failed }] }

/-- The trigger's line is snapshotted. -/
def snapped : State :=
  (handling 128 []).modSlice 80 fun c => { c with run := c.run.map fun h => { h with trigger := { h.trigger with kind := .evict, snap := some (List.replicate 128 7) } } }

/-- Each page that is written needs an entry of a log that is full. -/
def logged : State :=
  let s := handling (128 + 256) []
  { s with vfs := [{ rootVf id with dirty := { (rootVf id).dirty with base := 0x1000, logn := 10, prod := 1024, cons := 0 } }] }

def hctx (s : State) (p : HCtx → Bool) : Bool := s.handler?.any p

def passes (c : HCtx) (va : Nat) (perm : PageInfo → Bool) (align : Nat) (p : Vf → Xlated → Bool) : Bool :=
  match c.check va perm align with
  | .ok v x => p v x
  | _ => false

/-- The check fails with a reason, or needs a sector of the tables first. -/
def aborts (c : HCtx) (va : Nat) (perm : PageInfo → Bool) (align r : Nat) : Bool :=
  match c.check va perm align with
  | .bad k => k == r
  | _ => false

def walksAt (c : HCtx) (va : Nat) (perm : PageInfo → Bool) (align at_ : Nat) : Bool :=
  match c.check va perm align with
  | .walk pa => pa == at_
  | _ => false

theorem test_w_HingeOrdinary :
    hctx (handling 0 [(5, 0x20FF8), (6, 0x20FF9), (7, 5)]) (fun c => (c.localLoad ((c.reg 5 + 0).toNat) 8).isSome && (c.inData ((c.reg 5).toNat) 8).isSome &&
      (c.inData ((c.reg 6).toNat) 8).isNone && c.reg 5 != c.reg 7 && c.reg 7 == c.reg 7) = true := by decide +kernel
/-- No request is under way: `State.Quiet` for any line. -/
def quiet (c : HCtx) : Bool := c.s.reqs == [] && (c.s.core (hingeCore c.n)).outs == []

/-- Nothing stands in the way of an operation at a line that this slice may hold. -/
def free (c : HCtx) (v : Vf) (x : Xlated) : Bool :=
  c.run.op == none && c.here x && quiet c && !c.s.bad x.home (x.pa / 32) &&
    c.s.toLog v ((c.s.core (hingeCore c.n)).answers (.hinge c.n)) [x] == [] && c.s.leasesOver x.home (x.pa / 128) &&
    (List.range 32).all fun o => !c.s.shadowedVa v.cfg.id o 1

/-- It is held. -/
def atOnce (c : HCtx) (v : Vf) (x : Xlated) : Bool :=
  free c v x && c.s.present x.home (x.pa / 128) && ((c.s.store x.home).line? (x.pa / 128)).any fun l => l.data.length == 128

/-- The handler's page is mapped as another. -/
def handlingOn (p : PageInfo) : State :=
  (handling 128 [(6, 0x20080)]).modSlice 80 fun c => { c with tlb := [{ vf := 0, va := 0, page := p }] }

theorem test_w_HingeLines :
    hctx (handling 128 []) (fun c => passes c 8 (·.rd) 8 (fun v x => (c.snapshot 8).isNone && atOnce c v x) && passes c 8 (·.wr) 8 (atOnce c) &&
      passes c 0 (fun p => p.rd && p.wr) 8 (atOnce c) && passes c 0x80 (·.rd) 8 (fun v x => free c v x && !c.s.present x.home (x.pa / 128)) &&
      passes c 0x1000 (·.rd) 8 (fun _ x => !c.here x)) = true ∧
    hctx (handling 128 []) (fun c => aborts c 4 (·.rd) 8 5 && aborts c (2 ^ 56) (·.rd) 8 3 && walksAt c 0x10000 (·.rd) 8 0x10000 &&
      !((c.s.core (hingeCore c.n)).answers (.hinge c.n)).knows (physKey 0x10000)) = true ∧
    hctx (handlingRead (walked (.hinge 80) 128) (handling 128 [])) (fun c => aborts c 0x10000 (·.rd) 8 4) = true ∧
    hctx (handlingRead { walked (.hinge 80) 128 with errs := [(.memoryError, physKey 0x40000)] } (handling 128 [])) (fun c => aborts c 0x10000 (·.rd) 8 6) = true ∧
    hctx (handling 0 []) (fun c => aborts c 0 (·.rd) 8 3) = true ∧
    hctx (handlingOn { page0 128 with wr := false }) (fun c => aborts c 0 (·.wr) 8 3) = true ∧
    hctx { handling 128 [] with vfs := [] } (fun c => aborts c 0 (·.rd) 8 4) = true ∧
    hctx (handlingOn { page0 128 with home := 3 }) (fun c => passes c 8 (·.rd) 8 fun v x => x.home == .direct 80 && free c v x) = true ∧
    (∀ f ∈ [none, some FaultKind.memoryError], hctx (replied f) (fun c => c.run.op == some 5 && (c.snapshot 8).isNone &&
      (c.s.req? 5).any fun q => q.done && q.hop + q.trip ≤ c.s.time && q.failed == f) = true) ∧
    hctx snapped (fun c => (c.snapshot 8).isSome && passes c 8 (·.rd) 8 fun _ _ => true) = true ∧
    hctx (handlingRead (walked (.hinge 80) (128 + 256)) logged) (fun c => passes c 8 (·.wr) 8 fun v x =>
      match (c.s.cacheSlice c.n v.cfg.id [x]).logWrite (hingeCore c.n) v.cfg.id noGrid (hingeOwner c.n) (.hinge c.n) [x] with
      | .full .. => true
      | _ => false) = true := by decide +kernel
theorem test_w_HingeOthers :
    hctx (handling 128 [(5, 0), (6, 0x20080)]) (fun c => passes c (c.reg 5).toNat (·.wr) 128 (fun v x => atOnce c v x && (c.reg 6).toNat % 128 == 0 &&
      (c.inData (c.reg 6).toNat 128).isSome && (c.s.store x.home).fills == [])) = true ∧
    hctx ((handling 128 [(5, 0x80), (6, 0x20081)]).modStore (.slice 80) fun h => { h with lines := [] }) (fun c => passes c (c.reg 5).toNat (·.wr) 128 (fun v x => free c v x && x.home == .slice c.n &&
      ((c.s.store x.home).line? (x.pa / 128)).isNone && (c.s.store x.home).fills == [] && c.s.roomFor (.slice 80) 0xA01 false && (c.reg 6).toNat % 128 != 0)) = true ∧
    hctx ((handling 128 [(5, 0x80)]).modStore (.slice 80) fun h => { h with fills := [{ aFill with line := 0xA01 }] }) (fun c =>
      passes c (c.reg 5).toNat (·.wr) 128 fun v x => free c v x && (c.s.store x.home).fills.any fun y => y.line == x.pa / 128) = true ∧
    hctx (handlingOn { page0 128 with home := 3 }) (fun c => passes c 0 (·.wr) 128 (fun v x => x.home == .direct c.n && free c v x && c.s.canonical &&
      (c.inData (c.reg 6).toNat 128).isSome)) = true ∧
    hctx (handling 128 []) (fun c => passes c 0x1000 (·.wr) 128 (fun _ x => !c.here x) && aborts c (2 ^ 56) (·.rd) 1 3 && walksAt c 0x10000 (·.rd) 1 0x10000 &&
      passes c 0x80 (·.rd) 1 (fun _ x => c.here x && quiet c && !c.s.present x.home (x.pa / 128) && (c.s.store x.home).fills == [])) = true ∧
    hctx (handling 128 [(5, 0x20020), (6, 0)]) (fun c => (c.inData (c.reg 5).toNat 32).isSome && (c.inData (c.reg 5 - 0x1000).toNat 32).isNone &&
      passes c (c.reg 6).toNat (fun _ => true) 1 (fun v x => x.home == .slice 80 && v.cfg.features.getLsbD 2) &&
      aborts c (2 ^ 56) (fun _ => true) 1 3 && walksAt c 0x10000 (fun _ => true) 1 0x10000) = true ∧
    hctx { handling 128 [] with vfs := [rootVf fun c => { c with features := 11 }] } (fun c => passes c 0 (fun _ => true) 1 fun v _ => !v.cfg.features.getLsbD 2) = true := by
  decide +kernel
/-- A trigger of the tests' slot, and the slice with triggers and a message. -/
def aTrigger (k : TrigKind) (snap : Option (List Byte)) : Trigger := { slot := 0, kind := k, a1 := 0, a4 := 0, body := [], snap := snap, at_ := 0 }
def aMessage : Message := { id := 2, owner := some r0, slice := 80, vf := 0, va := 0, hv := true, sender := 0, body := [], hop := 0 }
def queuedAt (n : Nat) (ms : List Message) : State :=
  { (handling 128 []).modSlice 80 fun c => { c with run := none, queue := List.replicate n (aTrigger .msg none) } with msgs := ms }

theorem test_w_HandlersRun :
    (let s := queuedAt 1 []
     (s.slice 80).run = none ∧ (s.slice 80).queue = [aTrigger .msg none] ∧ max 0 (s.slice 80).freeAt / 2 ≤ s.time) ∧
    (let s := (queuedAt 1 []).modSlice 80 fun c => { c with freeAt := 3000 }
     (s.slice 80).queue = [aTrigger .msg none] ∧ s.time < max 0 (s.slice 80).freeAt / 2) ∧
    (let s := handling 128 []
     (s.slice 80).run.isSome = true ∧ ((s.slice 80).run.any fun h => !h.waits && h.cycle < ((s.slice 80).slot h.slot).budget h.trigger.kind) = true) ∧
    (let s := { (handling 128 []).modSlice 80 fun c => { c with run := c.run.map fun h => { h with cycle := 100000 } } with time := 60000 }
     ((s.slice 80).run.any fun h => h.cycle ≥ ((s.slice 80).slot h.slot).budget h.trigger.kind &&
       h.start + ((s.slice 80).slot h.slot).budget h.trigger.kind ≤ 2 * s.time + 1) = true) ∧
    (let s := { (handling 128 []).modSlice 80 fun c => { c with run := c.run.map fun h => { h with waits := true } } with time := 60000 }
     ((s.slice 80).run.any fun h => h.waits && 2 * s.time + 1 - h.start ≥ ((s.slice 80).slot h.slot).budget h.trigger.kind) = true) ∧
    (let s := queuedAt 0 [aMessage]
     s.msgs.find? (fun m => m.id == 2) = some aMessage ∧ s.time ≥ 0 + 3 ∧ (s.msgs.takeWhile fun x => x.id != 2).any (·.before aMessage) = false ∧
       s.triggerSlot 80 0 .msg = some 0 ∧ (s.slice 80).queue.length < 32) ∧
    (let s := { queuedAt 0 [aMessage] with vfs := [] }
     s.msgs.find? (fun m => m.id == 2) = some aMessage ∧ s.triggerSlot 80 0 .msg = none) ∧
    (let s := { queuedAt 0 [{ aMessage with id := 1 }, aMessage] with time := 2 }
     s.msgs.find? (fun m => m.id == 2) = some aMessage ∧ s.time < 0 + 3 ∧ (s.msgs.takeWhile fun x => x.id != 2).any (·.before aMessage) = true) ∧
    ((queuedAt 32 []).slice 80).queue.length ≥ 32 ∧
    (let s := (queuedAt 0 []).modSlice 80 fun c => { c with queue := List.replicate 8 (aTrigger .evict (some [])) }
     (s.slice 80).snapshots ≥ 8) ∧
    (let s := (handling 128 []).modSlice 80 fun c => { c with slots := [(0, { tenant with posted := [(0x8003, 900), (0x8004, 0)] })] }
     ((s.slice 80).slot 0).posted.find? (fun p => p.1 == 0x8003) = some (0x8003, 900) ∧ s.sliceTime 80 - 900 < 65536) ∧
    (let s := { (handling 128 []).modSlice 80 fun c => { c with slots := [(0, { tenant with posted := [(0x8003, 900)] })] } with time := 70000 }
     (0x8003, 900) ∈ ((s.slice 80).slot 0).posted ∧ s.sliceTime 80 - 900 ≥ 65536) := by decide +kernel

/-! ### Engines -/

/-- A byte copy of 32 bytes from virtual address 0 to the team's scratchpad, for latch 3. -/
def aCopy : CopyReq :=
  { id := 6, team := 0, vf := 0, grid := 0, latch := 3, kind := .cpyb true false, record := 0, coords := [], dst := .pad 0 0 128, src := .global 0, len := 32,
    hint := 0, owner := r0, waitFor := [], units := [0], left := 32, ghost := none, token := none, olds := [] }

def copying (q : CopyReq) : State := (mapped 0 id).modCore 0 fun c => { c with copyRun := [q] }

/-- What has come of a byte copy's reads: the sector at an address. -/
def brought (va : Nat) (s : State) : State := come (.get 6 0) [(va, List.replicate 32 7)] s

theorem test_w_CopyEngine :
    (let s := (lab id).modCore 0 fun c => { c with copyQ := [aCopy] }
     (s.core 0).copyFault.find? (fun q => q.token.isNone) = none ∧ (s.core 0).copyQ = [aCopy] ∧ (s.core 0).copyRun.length < 8 ∧ (s.core 0).copyFault.length < 8) ∧
    (let s := (lab id).modCore 0 fun c => { c with copyFault := [aCopy] }
     (s.core 0).copyFault.find? (fun q => q.token.isNone) = some aCopy) ∧
    (let s := (lab id).modCore 0 fun c => { c with copyRun := List.replicate 8 aCopy }
     8 ≤ (s.core 0).copyRun.length) ∧
    (let s := brought 0 (copying aCopy)
     (s.core 0).copyRun.find? (fun q => q.id == 6 && q.units.contains 0) = some aCopy ∧ s.vf? 0 = some (rootVf id) ∧
       aCopy.waitFor.any (s.core 0).unperformed = false ∧ (match s.haul 0 (rootVf id) aCopy 0 0 with | .done _ n _ => n == 32 | _ => false) = true) ∧
    (let s := copying { aCopy with src := .global (2 ^ 57) }
     (match s.haul 0 (rootVf id) { aCopy with src := .global (2 ^ 57) } 0 0 with | .fail _ k _ _ => k == .access | _ => false) = true) ∧
    (let q := { aCopy with kind := .cpyb true true, src := .pad 0 0 512 }
     let s := copying q
     (s.core 0).copyRun.find? (fun q => q.id == 6 && q.units.contains 0) = some q ∧ (s.core 0).answers (.get 6 0) = Fetch.fresh (.get 6 0) ∧
       s.time ≥ (s.core 0).copyFree ∧ (s.team? 0 0).any (fun t => t.scratch.wf && t.shadow == []) = true) ∧
    (let s := copying aCopy
     (s.core 0).answers (.get 6 0) = Fetch.fresh (.get 6 0) ∧ aCopy.len > 256 * 0 ∧ (s.shadowed 0 0 0 1) = false ∧
       okOr (s.xlateAll (engineAsker 0 (rootVf id).cfg 0 r0 (.get 6 0) 0) .load (sectorsOf 0 32)) (fun xs => xs.length == 1) = true) := by decide +kernel

def aCont : Cont := { target := 4, phase := false, args := [], level := 0, due := true, at_ := 7 }

theorem test_w_Continuations :
    (let s := latched { Latch.fresh with cont := some aCont } id
     (s.core 0).contsReady.find? (fun x => x.2 == (0, 3)) = some (7, 0, 3) ∧ (∀ y ∈ (s.core 0).contsReady, 7 ≤ y.1) ∧
       ((s.core 0).team? 0).any (fun t => t.freeGrp == some 1 && ((s.core 0).choosePart t.kernel.vregs).isSome) = true) ∧
    ((lab id).core 0).contsReady.find? (fun x => x.2 == (0, 3)) = none ∧
    (let l := { Latch.fresh with cont := some { aCont with due := false } }
     l.err = 0 ∧ l.settle.holds false = false) ∧
    (let s := { latched { Latch.fresh with cont := some { aCont with due := false } } id with time := 2 ^ 25 }
     ((s.latchWaiters 0 0 3).map (·.2) ++ (some { aCont with due := false }).toList.map (·.at_)).min? = some 7 ∧ s.time ≥ 7 + slotVf.stallLimit ∧
       slotVf.stallTraps = false) ∧
    (((latched { Latch.fresh with posted := true } id).team? 0 0).map fun t => (t.latches.getD 3 Latch.fresh).posted) = some true := by decide +kernel

/-- One unit decoded of a row of U32 coordinates. -/
def u32Unit (first x : Nat) : SUnit :=
  { first := first, raw := { cs := [x], start := x, count := 1, bytes := 4, err := 0, key := x, top := x, ends := false }, err := 0, prev := 0 }
def aPart (xs : List Nat) : Part :=
  { ptr := { pos := 0, n := xs.length, base := 0, size := 4 * xs.length, down := false },
    row := { base := 0, units := ((List.range xs.length).zip xs).map fun p => u32Unit p.1 p.2, full := true, span := false }, lo := 0, hi := xs.length }

/-- A join at its first segment, the sector of its row pointers and coordinates come: these 32-bit words. -/
def merging (ws : List Nat) (f : Join → Join) : State :=
  (come (.join 2 0) [(0, (List.range 8).flatMap fun i => bytesOfNat 4 (ws.getD i 0))] (joined .running 0 id)).modCore 0 fun c =>
    { c with joins := [(2, some (f (aJoin .running 0)))] }

/-- The second sector of its coordinates cannot be read. -/
def unread (k : FaultKind) (s : State) : State :=
  s.modCore 0 fun c => { c with fetches := c.fetches.map fun f => { f with got := f.got ++ [(32, [])], errs := [(k, 32)] } }

/-- The join is at work; what its first segment comes to. -/
def segs (s : State) (p : SegStep → Bool) : Bool :=
  ((s.core 0).join? 2).any fun j => (s.vf? j.vf).any fun v =>
    let a := joinAsker 0 v.cfg j (.join 2 j.step)
    j.state == .running && j.token.isNone && j.stop.isNone && !j.finished && j.pending.length < 32 && j.waitFor == [] && j.row < j.endRow &&
      p (j.segStep ((s.core 0).answers a.key).byte? (s.peek a) (j.chance 0))

theorem test_w_JoinsProceed :
    segSurvivors .union 0 0 (aPart [1, 4]) (aPart [4]) absentPos absentPos ≠ [] ∧
    (((aPart [1, 4]).row.slice 0 0 2).map (·.1)).Pairwise (· < ·) ∧
    (let s := joined .stopped 0 id
     (((s.core 0).join? 2).any fun j => j.state != .running && (s.vf? j.vf).isSome) = true) ∧
    (let s := merging [] fun j => { j with row := j.endRow }
     (((s.core 0).join? 2).any fun j => j.state == .running && j.row ≥ j.endRow && j.token.isNone && j.stop.isNone && !j.finished && j.pending == []) = true) ∧
    segs (merging [0, 16, 2, 24, 3, 7] id) (fun x => match x with | .done _ sv => sv.map (·.coord) == [3, 7] | _ => false) = true ∧
    (let j := aJoin .running 0
     valueVas j.descA [0, 1] = []) ∧
    segs (merging [0, 16, 2, 24, 3, 7] fun j => { j with sect := 5 }) (fun x => match x with | .past n => n == 1 | _ => false) = true ∧
    segs (joined .running 0 id) (fun x => match x with | .need _ _ _ va first => va == 0 && first == none | _ => false) = true ∧
    okOr ((joined .running 0 id).askXlate (joinAsker 0 (rootVf id).cfg (aJoin .running 0) (.join 2 0)) 0 .load) (fun x => x.home == .slice 80) = true ∧
    (∀ k ∈ [FaultKind.pageFault, .access, .memoryError], ∀ x ∈ [(1, 2, false), (5, 3, true)],
      let s := unread k (merging [0, 16, 6, 40, x.1, x.2.1, 8, 9] id)
      segs s (fun y => match y with | .need _ _ _ va first => va == 32 && first.isSome == x.2.2 | _ => false) = true ∧
        (let f := (s.core 0).answers (.join 2 0)
         f.knows 32 = true ∧ f.asked = [] ∧ f.failure = some (k, 32)) ∧ (s.core 0).answers (.cursor 2) = Fetch.fresh (.cursor 2)) ∧
    segs (merging [5, 16, 2, 24, 3, 7] id) (fun x => match x with | .stop x => x.reason == 3 | _ => false) = true ∧
    okOr ((joined .running 0 id).askXlate (joinAsker 0 (rootVf id).cfg (aJoin .running 0) (.cursor 2)) 0x800 .store) (fun _ => true) = true ∧
    (let s := come (.cursor 2) [(0x800, List.replicate 32 0)] ((joined .running 0 id).modCore 0 fun c =>
       { c with joins := [(2, some { aJoin .running 0 with stop := some (3, 0) })] })
     (((s.core 0).join? 2).any fun j => j.stop == some (3, 0) && ((s.core 0).answers (.cursor 2)).knows j.cursor && j.cursor % 32 == 0) = true) ∧
    (let s := (joined .running 33 id).modCore 0 fun c => { c with joins := c.joins.map fun p => (p.1, p.2.map fun j => { j with since := 4 }) }
     (s.core 0).joinsReady = [(4, 2)] ∧ (s.core 0).contsReady = [] ∧
       (((s.core 0).join? 2).any fun j => j.formable && ((s.core 0).team? j.team).any fun t => t.freeGrp == some 1 && !t.stopping &&
         ((s.core 0).choosePart t.kernel.vregs).isSome) = true) := by decide +kernel

/-! Witnesses about queues, the part, the host's commands and steps -/

/-- The queue header at virtual address 0 with some items, its first item's ring at 0x1000, which the page holds. -/
def stocked (n : Nat) : State :=
  { (headed id) with
    slices := [(80, { Slice.reset with tlb := [{ vf := 0, va := 0, page := page0 0 }], store := { HomeStore.empty with
      lines := [{ line := 0xA00, data := bytesOfNat 128 (0x1000 + 4 * 2 ^ 56 + n * 2 ^ 128), dirty := false, pinned := false, vtag := none, used := 0 }] } })] }

def aSub : Subscription := { entry := 0, header := 0, team := 0, token := none }
def subscribed (n : Nat) : State := (stocked n).modCore 0 fun c => { c with subs := [aSub] }
def aClass : HeldClass := { team := 0, entry := 4, hi := true, items := [[1, 2, 3, 4, 5, 6]] }

/-- The step of an ENQ or a draw on the header, first in its line's order. -/
def aHold (key : Errand) : Req := { aReq .hold true (some 1) with errand := some key, va := 0, lane := none }

/-- An ENQ of two lanes waits for the answer of its header's home, where it is first. -/
def anEnq : Instr := .enq { w with a := br 1, b := im 0, c := v 8 } .x1 0
def enqueuing (n : Nat) : State :=
  let s := stocked n
  { s.modGroup r0 fun g => g.modSplit 0 fun p => { p with park := .enq anEnq { noSnap with b := g.b } false, mask := 3 } with reqs := [aHold (.push r0)] }

/-- The hold is at work. -/
def holds (s : State) (q : Req) : Bool :=
  s.req? q.id == some q && !q.done && q.arrived.isSome && s.atHead q && q.kind == .hold && q.home.allocates &&
    ((s.store q.home).line? q.line).any (fun l => l.data.length == 128) && !s.bad q.home q.sector && !s.bad q.home (q.sector + 1)

/-- An item of the queue for the entry 4 (13 R229). -/
def drawing (n : Nat) : State := { come (.draw 0) [(0x1000, bytesOfNat 32 4)] (subscribed n) with reqs := [aHold (.draw 0)] }

theorem test_w_QueuesProceed :
    ((latched { Latch.fresh with cont := some aCont } id).core 0).contsReady ≠ [] ∧
    (let s := subscribed 1
     s.reqs = [] ∧ (s.core 0).contsReady = [] ∧ (s.core 0).joinsReady = [] ∧ s.heldReady 0 = [] ∧ (s.core 0).subs = [aSub] ∧ (s.core 0).visitable aSub = true ∧
       okOr (s.askXlate (engineAsker 0 (rootVf id).cfg 0 { core := 0, team := 0, grp := 32, split := 0 } (.draw 0) 0) 0 .store)
         (fun x => !x.home.away) = true) ∧
    (∀ n ∈ [0, 1], let s := drawing n
     let q := aHold (.draw 0)
     s.reqs.find? (fun q => q.draws 0) = some q ∧ holds s q = true ∧
       (s.core 0).subs.find? (fun b => q.errand == some (.draw b.entry) && b.team == q.owner.team && b.header == q.va) = some aSub ∧
       badHeader (s.header q) = false ∧ qhCount (s.header q) = n ∧ ((s.core 0).team? 0).any (fun t => (s.core 0).hasRoom t) = true ∧
       itemVa (s.header q) (qhHead (s.header q)) = 0x1000 ∧ ((s.core 0).answers (.draw 0)).knows 0x1000 = true ∧
       badItem (natOfBytes ((List.range 32).map fun i => ((s.core 0).answers (.draw 0)).get (0x1000 + i))) = false ∧ s.leasesOver q.home q.line = true ∧
       okOr (s.askXlate (homeAsker q (rootVf id).cfg (.draw 0)) 0 .store) (fun x => s.toLog (rootVf id) ((s.core 0).answers (.draw 0)) [x] == []) = true) ∧
    (let s := (lab id).modCore 0 fun c => { c with held := [aClass] }
     s.heldReady 0 = [aClass] ∧ (s.core 0).contsReady = [] ∧ (s.core 0).joinsReady = [] ∧
       (((s.core 0).team? 0).any fun t => t.freeGrp == some 1 && ((s.core 0).choosePart t.kernel.vregs).isSome) = true) ∧
    (∀ n ∈ [0, 16], let s := enqueuing n
     let q := aHold (.push r0)
     s.reqs.find? (fun q => q.errand == some (.push r0) && q.kind == .hold) = some q ∧ holds s q = true ∧ badHeader (s.header q) = false ∧
       s.leasesOver q.home q.line = true ∧ (s.core 0).answers (.push r0) = Fetch.fresh (.push r0) ∧
       (let a := homeAsker q (rootVf id).cfg (.push r0)
        let unlogged := fun x => s.toLog (rootVf id) (Fetch.fresh (.push r0)) x == []
        okOr (s.askXlate a q.va .store) (fun x => unlogged [x]) = true ∧
          okOr (s.xlateAll a .store (((itemBytes (s.header q) [bytesOfNat 32 0, bytesOfNat 32 0]).map fun b => b.1 / 32 * 32).eraseDups))
            (fun xs => xs.length == 2 && unlogged (xs.map (·.2))) = true) ∧
       (s.split? r0).any (fun p => match p.park with | .enq i a _ => ((s.countSlice q.home).actCtx? r0 i a).any fun c =>
         (qhCount (s.header q) + (c.lanes.map c.item).length ≤ 2 ^ qhLogn (s.header q)) == (n == 0) | _ => false) = true) ∧
    (let s := come (.push r0) [(0x1000, []), (0x1020, [])] (enqueuing 0)
     ((itemBytes (s.header (aHold (.push r0))) [bytesOfNat 32 0, bytesOfNat 32 0]).all fun b => ((s.core 0).answers (.push r0)).knows (b.1 / 32 * 32)) = true) ∧
    (aHold (.push r0)).home.away = false ∧ (aHold (.push r0)).failed = none := by decide +kernel

/-- A suspect row of a part that has, and of one that has no, spare row left. -/
theorem test_w_SpareRows :
    (∀ _ : 0 < Config.spareRows, ∃ s : State, PartUnit.dramRow 1 2 3 ∈ s.suspects ∧ s.rowsUsed 1 < Config.spareRows) ∧
    ∃ s : State, Config.spareRows ≤ s.rowsUsed 1 := by
  refine ⟨fun h => ⟨{ State.reset with suspects := [.dramRow 1 2 3] }, List.mem_singleton.2 rfl, h⟩,
    { State.reset with replacedRows := List.replicate Config.spareRows (1, 2, 3) }, ?_⟩
  simp [State.rowsUsed]

theorem test_w_PartLife :
    State.reset.tickBusy = false ∧ (State.reset.withFetchWord 32 0x00000013).tickBusy = true ∧ (mapped 0 id).vfs = [rootVf id] ∧ (rootVf id).waits = [] ∧
    State.reset.dies[3]? = some { celsius := 0, interval := 3900, refreshes := 0 } ∧
    PartUnit.dramRow 1 2 3 ∈ ({ State.reset with suspects := [.dramRow 1 2 3] } : State).suspects ∧
    (let s := { State.reset with suspects := [.fabricLane 1 2] }
     PartUnit.fabricLane 1 2 ∈ s.suspects ∧ ∀ p ∈ s.retrained, p.1 ≠ 1) ∧
    (∃ p ∈ ({ State.reset with retrained := [(1, 2)] } : State).retrained, p.1 = 1) ∧
    (let s := { State.reset with suspects := (List.range 5).map (PartUnit.coreSite 0) }
     s.startFails = true ∧ (s.found true).startFails = true ∧ (s.found false).startFails = true ∧ s.firmwareOk = true ∧ s.startFailed = false) ∧
    (let s := { State.reset with firmwareOk := false }
     skewOk [0, 0, 0, 0] = true ∧ s.mapsOk [] [] = true ∧ s.firmwareOk = false ∧ s.startFailed = false) ∧
    (let s := { State.reset with defects := [.coreSite 0 7] }
     s.mapsOk [] [] = true ∧ (s.found true).mapsOk [] [] = false ∧ s.firmwareOk = true) ∧
    (let s := { State.reset with suspects := [.coreSite 0 7] }
     s.firmwareOk = true ∧ (s.found true).startFails = false ∧ skewOk [0, 1, 0, 1] = true ∧
       (s.found true).mapsOk ((List.range 192).map fun i => if i = 7 then 48 else i % 48) [] = true ∧
       (s.found false).startFails = false ∧ (s.found false).suspects.length = s.suspects.length) ∧
    State.reset.suspects = [] ∧ ({ State.reset with startFailed := true } : State).startFailed = true ∧
    ({ State.reset with service := .reduced } : State).residents = [] ∧
    (let s := { lab id with service := .reduced }
     s.residents ≠ [] ∧ (s.cores.map (·.1)).Nodup) := by decide +kernel

/-- A page fault with a token. -/
def aWait (who : Waiter) : FaultWait :=
  { token := 4, who := who, core := 0, va := 0, acc := 0, fault := { kind := .pageFault, addr := 0, lane := none, pc := 0, acc := 0 }, posted := true, answer := none }
def waiting (who : Waiter) (s : State) : State := { s with vfs := [{ rootVf id with waits := [aWait who] }] }

/-- No control block stands in the host's memory after reset. -/
theorem test_w_NoBlocks : ∀ n r, State.reset.ring? n = some r → r.block = 0 := by
  intro n r h
  cases n with
  | pfEvents | pfCommands => cases h; rfl
  | _ => cases h

theorem test_w_HostResolves :
    (mapped 0 id).vf? 0 = some (rootVf id) ∧ (rootVf id).waitOf 4 = none ∧
    (∀ n ∈ [0, 1024], let f := walked (.word r0) 256
     let s := { (mapped 256 id).modCore 0 fun c => { c with fetches := [f] } with
       vfs := [{ rootVf id with dirty := { (rootVf id).dirty with base := 0x1000, logn := 10, prod := n } }] }
     okOr (s.translate [] f (rootVf id).cfg 0 .store) (fun x => (s.vf? 0).any fun v =>
       v.dirty.full == (n == 1024) && v.dirty.block == 0 && (match f.needsLog v x with | .ok b => b | .error _ => false) && !s.logging x.page.entry) = true) ∧
    (let s := { State.reset with pfEvents := { State.reset.pfEvents with block := 4064 } }
     s.ring? .pfEvents = some s.pfEvents ∧ s.pfEvents.block ≠ 0 ∧ s.pfEvents.block % 4096 + 32 ≤ 4096 ∧ s.host.wf = true) ∧
    ({ State.reset.pfEvents with prod := 5, cons := 2 ^ 64 - 1 } : Ring).cons < 2 ^ 64 ∧
    (let s := { State.reset with invals := [{ id := 3, vf := 0, ids := [5] }], reqs := [aReq .pref false (some 1)] }
     s.invals.find? (fun x => x.id == 3) = some { id := 3, vf := 0, ids := [5] } ∧ (∃ q ∈ s.reqs, q.id ∈ [5] ∧ q.done = false)) ∧
    (let s := { State.reset with invals := [{ id := 3, vf := 0, ids := [5] }], reqs := [{ aReq .pref false (some 1) with done := true }] }
     (∀ q ∈ s.reqs, q.id ∈ [5] → q.done = true) ∧ s.msgs = [] ∧ s.cores = []) ∧
    (let s := waiting (.group 0 0 0 0) (mapped 0 fun g => { g.modSplit 0 fun p => { p with ending := true } with pageWait := some 4 })
     (s.vf? 0).bind (·.waitOf 4) = some (aWait (.group 0 0 0 0)) ∧ (s.residents.find? fun p => p.2.id == 0).any (fun p => p.1 == 0 && (p.2.group? 0).any fun g =>
       g.pageWait == some 4 && ((s.core 0).choosePart p.2.kernel.vregs).isSome && (s.restoreGroup 0 p.2 g).isSome) = true) ∧
    (let s := waiting (.group 0 0 0 0) ((mapped 0 fun g => { g with pageWait := some 4 }).modTeam 0 0 fun t => { t with kernel := { t.kernel with vregs := 600 } })
     (s.residents.find? fun p => p.2.id == 0).any (fun p => (s.core 0).choosePart p.2.kernel.vregs == none) = true) ∧
    (let s := waiting (.copy 0 6) (mapped 0 id)
     (s.vf? 0).bind (·.waitOf 4) = some (aWait (.copy 0 6))) ∧
    (let s := waiting (.draw 0 0 0) (subscribed 1)
     (s.vf? 0).bind (·.waitOf 4) = some (aWait (.draw 0 0 0)) ∧ ((s.core 0).subs.find? fun b => b.header == 0 && b.team == 0) = some aSub) := by decide +kernel

/-- The page of another package's request: at home here, its line free. -/
def granted : State :=
  { (mapped 0 id).modCore outsideCore fun c => { c with fetches := [walked .outside 0] } with grants := [{ dev := 3, vf := 1, own := 0 }] }

/-- A request under way to package 3. -/
def abroad (k : ReqKind) : Req := { aReq k false none with home := .remote 3, out := some 9 }
def sending (q : Req) (t : Nat) : State := { mapped 0 id with reqs := [q], time := t, routes := [(3, 1)] }

theorem test_w_FabricRequests :
    (mapped 0 id).grants.find? (fun g => g.dev == 3 && g.vf == 1) = none ∧
    (let s := granted
     let f := (s.core outsideCore).answers .outside
     let v := (rootVf id).cfg
     s.grants.find? (fun g => g.dev == 3 && g.vf == 1) = some { dev := 3, vf := 1, own := 0 } ∧ s.vf? 0 = some (rootVf id) ∧ s.reqs = [] ∧
       remoteFits 0 .read = true ∧ (s.core outsideCore).outs = [] ∧
       (∀ n ∈ [Need.store, .load], okOr (s.translate [] f v 0 n) (fun x => x.home.allocates &&
         s.toLog (rootVf id) f [x] == [] && s.leasesOver x.home (x.pa / 128) && s.present x.home (x.pa / 128) && !s.bad x.home (x.pa / 32) &&
         !s.flaws.contains (x.pa / 32) && ((s.store x.home).line? (x.pa / 128)).all fun l => l.data.length == 128) = true) ∧
       missed (s.translate [] f v 0x10000 .store) = some (.fault .pageFault) ∧ v.features.getLsbD 3 = true ∧
       ((List.range 32).all fun i => !s.shadowedVa 0 i 1) = true) ∧
    (let s := { granted with vfs := [rootVf fun v => { v with features := 0 }] }
     s.vf? 0 = some (rootVf fun v => { v with features := 0 }) ∧ ((rootVf fun v => { v with features := 0 }).cfg.features.getLsbD 3) = false) ∧
    (let s := { mapped 0 id with grants := [{ dev := 3, vf := 1, own := 0 }] }
     let f := (s.core outsideCore).answers .outside
     missed (s.translate [] f (rootVf id).cfg 0 .store) = some (.walk 0x10000) ∧ f.knows (physKey 0x10000) = false) ∧
    (let s := mapped 0 id
     targetOf 0x50000 = .dram ∧ homeSlice 0x50000 = 80 ∧ s.reqs = [] ∧ s.vf? 512 = none ∧ s.leasesOver (.slice 80) 0xA00 = true ∧
       s.flaws.contains 0x2800 = false ∧ ((s.store (.slice 80)).line? 0xA00).map (·.data.length) = some 128) ∧
    (let q := abroad (.read false)
     (sending q 6).req? 5 = some q ∧ (sending q 6).routed 3 = true ∧ (sending q 6).sent q = true ∧ q.hop + 6 ≤ 6 ∧ q.strong = false ∧ (mapped 0 id).routed 3 = false) ∧
    (let q := { abroad (.read false) with failed := some .access }
     q.errand = none ∧ q.failed = some .access ∧ q.home.away = true) ∧
    (∀ k ∈ [ReqKind.read false, .hold], let q := abroad k
     (sending q (2 ^ 24)).req? 5 = some q ∧ (sending q (2 ^ 24)).time ≥ q.hop + 2 ^ 24 ∧ (sending q (2 ^ 24)).sent q = true) ∧
    (let q := { abroad (.write [] []) with out := none, owner := { r0 with grp := 7 } }
     let s := sending q (2 ^ 24)
     s.req? 5 = some q ∧ s.sent q = true ∧ q.own = true ∧ s.group? q.owner = none) ∧
    (let s := enqueuing 0
     (s.split? r0).any (fun p => match p.park with | .enq i a _ => (s.actCtx? r0 i a).isSome | _ => false) = true) ∧
    (∀ k ∈ [Park.fence .sys false 0, .none], (mapped 0 fun g => g.modSplit 0 fun p => { p with park := k }).split? r0 |>.any (fun p => p.sid == 0 && p.park == k)) ∧
    (let s := { mapped 0 id with reqs := [aReq (.read false) false none] }
     s.req? 5 = some (aReq (.read false) false none) ∧ s.time < 2 ^ 24) := by decide +kernel

/-! ### Grids and graphs -/

/-- An object with the tests' kernel, loaded at virtual address 0, its first image chosen for die 0. -/
def anObject : CodeObject :=
  { id := 0, plan := { textVa := 0, textPa := 0x80000, dataVa := 0, dataPa := 0, dataOff := 0, dataLen := 0, roVa := 0, roPa := 0, roOff := 0, roLen := 0, dle := false },
    total := 1024, enc := false, nonce := [], tagOff := 0, key := [], kernels := [{ slotKernel with words := 8 }],
    images := [{ kind := 0, revid := 0x00090300, sigv := false, off := 128, size := 256, psig := [], kernels := [(128, 8)] }], pick := some [some 0, none, none, none],
    area := 0x90000, busy := [] }

def loaded (f : CodeObject → CodeObject) : Vf := { rootVf id with objects := [f anObject] }

/-- A launch record of one team of kernel 0. -/
def launchRecord : Nat := 2 ^ 192 + 2 ^ 224 + 2 ^ 240 + 2 ^ 256 + 2 ^ 288 + 2 ^ 292 + 0xFFFFFFFFFFFFFFFF * 2 ^ 32

/-- A command processor has read the record of node 1, and the condition word at virtual address 0. -/
def noded (g : Graph) (w c : Nat) : State :=
  ({ mapped 0 id with graphs := [g], vfs := [loaded id] } : State).modCore cpCore fun k =>
    { k with fetches := [{ key := .node 0 1, asked := [], got := (List.range 4).map fun i => (128 + 32 * i, bytesOfNat 32 (w / 2 ^ (256 * i))), time := 0, errs := [] },
                         { key := .node 0 65537, asked := [], got := [(0, bytesOfNat 32 c)], time := 0, errs := [] }] }

theorem test_w_GridsRun :
    (lab id).grid? 0 = some slotGrid ∧ slotVfState.stopped = false ∧ slotVfState.saved = [] ∧
    (let s := { lab id with grids := [{ slotGrid with count := 2 }] }
     let gr := { slotGrid with count := 2 }
     (s.placeCluster slotVfState gr).isSome = true ∧ s.accepts 0 slotVfState = true ∧ s.holds 0 slotKernel = true ∧
       (((s.core 0).addTeam (gr.team none 0 s.nextId 1)).launchGroups s.nextId 0 [] 1).isSome = true ∧
       (footprints 1 1).head? = some [0] ∧ (s.placeAll slotVfState gr [(0, 1)]).isSome = true) ∧
    ((slotCore 0).launchGroups 0 0 [] 2).isSome = true ∧
    (∀ g ∈ [{ aGraph with arriving := [1] }, aGraph, { aGraph with starts := [] }], let s := noded g launchRecord 0
     s.graph? 0 = some g ∧ s.vf? 0 = some (loaded id) ∧
       (let f := (s.core cpCore).answers (.node 0 1); f.asked = [] ∧ f.errs = [] ∧ (sectorsOf 128 128).all f.knows = true) ∧
       (takeFirst (fun x => x.1 == 1) g.starts).isSome = (g.starts.length == 1)) ∧
    (let s := { (mapped 0 id).modCore cpCore (fun c => { c with tlb := [{ vf := 0, va := 0, page := page0 0 }] }) with graphs := [aGraph], vfs := [loaded id] }
     (s.core cpCore).answers (.node 0 1) = Fetch.fresh (.node 0 1) ∧ okOr (s.xlateAll (cpAsker (loaded id).cfg 0 1) .load (sectorsOf 128 128)) (fun xs => xs.length == 4) = true) ∧
    (let s := noded aGraph launchRecord 0
     ((loaded id).textAt (nodeKaddr launchRecord)).map (fun x => (x.2.1, x.2.2)) = some (0, 0) ∧ mismatch (loaded id) (s.select (loaded id) anObject).2 = false ∧
       (s.select (loaded id) anObject).1.launchOk (loaded id) { slotKernel with words := 8 } launchRecord = true) ∧
    (∀ n ∈ [1, 2], nodeKind (n * 256) ≠ 2 ∧ (getKey 0 aGraph.arrivals 0 + 1 = nodeWait (n * 256) ↔ n = 1)) ∧ nodeKind 2 = 2 ∧
    (∀ x ∈ [(1, 0), (2, 1), (2, 0)], let g := { aGraph with evals := [(1, x.1)] }
     let s := noded g 0 x.2
     takeFirst (fun (x : Nat × Nat) => x.1 == 1) g.evals = some ((1, x.1), []) ∧ nodeKind x.1 = x.1 ∧
       (let f := (s.core cpCore).answers (.node 0 65537); f.asked = [] ∧ f.errs = [] ∧ (sectorsOf (nodeKaddr x.1) 4).all f.knows = true ∧
         gather 4 (fun i => f.get (nodeKaddr x.1 + i)) = x.2)) ∧
    (let s := lab fun g => { g with triggered := true }
     (∀ t ∈ s.gridTeams 0, t.startsPending = false ∧ ∀ g ∈ t.groups, g.triggered = true) ∧ s.formsPending slotGrid = false ∧ slotGrid.awaits = []) ∧
    (let s := { State.reset with vfs := [slotVfState], grids := [{ slotGrid with triggered := true }] }
     s.gridTeams 0 = [] ∧ slotGrid.placed ≥ slotGrid.count ∧ s.gridWrites { slotGrid with triggered := true } = false) ∧
    (lab id).gridTeams 0 ≠ [] := by decide +kernel
theorem test_w_GraphsRun :
    aGraph.stopped = false ∧ (loaded id).stopped = false ∧ (loaded id).leaving = false ∧ 1 < aGraph.nodes ∧
    (takeFirst (fun (x : Nat × Nat × Option (List Word)) => x.1 == 0 && x.2.1 == 1) ({ loaded id with launches := [(0, 1, none)] } : Vf).launches).isSome = true := by decide +kernel

def aTeam : Team := (((lab id).team? 0 0).getD slotTeam)
def aSaved : SavedTeam := (slotCore 0).frame aTeam 0

/-- Two virtual functions share core 0. -/
def sharing : State :=
  { lab id with vfs := [{ slotVfState with cfg := { slotVf with shared := true } }, { slotVfState with cfg := { slotVf with id := 1, shared := true }, saved := [aSaved] }],
                quanta := [(0, 0, 0)] }

theorem test_w_TeamsPreempted :
    (let s := lab id
     s.residents.find? (fun p => p.2.id == 0) = some (0, aTeam) ∧ s.cluster 0 0 = [(0, aTeam)] ∧ aTeam.stopping = false ∧ (s.cores.map (·.1)).Nodup) ∧
    (let s := (lab id).modTeam 0 0 fun t => { t with stopping := true }
     s.residents.map (·.2.id) = [0] ∧ s.cluster 0 0 = s.residents ∧ (s.residents.all fun p => p.2.stopping && s.atRest p.1 p.2) = true ∧ s.vf? 0 = some slotVfState ∧ slotVfState.waits = []) ∧
    (let s := ((lab fun g => g.modSplit 0 fun p => { p with ending := true }).modCore 0 fun c => { c with outs := [anOut] }).modTeam 0 0 fun t => { t with stopping := true }
     (s.residents.all fun p => !s.atRest p.1 p.2) = true) ∧
    (let s := { lab id with cores := [], vfs := [{ slotVfState with saved := [aSaved] }], time := 1 }
     s.vfs.find? (fun v => v.saved.any fun x => x.team.id == 0) = some { slotVfState with saved := [aSaved] } ∧ (s.resumeTeam 0 slotVfState aSaved).isSome = true ∧
       s.team? 0 0 = none ∧ (footprints 1 1).head? = some [0] ∧ s.accepts 0 slotVfState = true ∧
       (s.resumeAll { slotVfState with saved := [aSaved] } (({ slotVfState with saved := [aSaved] } : Vf).savedCluster 0 0 |>.map fun y => (0, y))).isSome = true) ∧
    (sharing.quanta.find? fun q => q.1 == 0) = some (0, 0, 0) ∧ (sharing.nextServed 0 0).map (·.cfg.id) = some 1 ∧
    sharing.hasWork 0 slotVfState = true := by decide +kernel

/-! ### Code, functions, the debugger -/

/-- The team waits for the first line of its text, which a K9 image holds. -/
def fetching (f : CodeObject → CodeObject) : State :=
  ({ mapped 0 id with vfs := [loaded f] } : State).modCore 0 fun c => { c with ic := [], teams := c.teams.map fun t => { t with kernel := { slotKernel with words := 8 } } }

def asKis1 (o : CodeObject) : CodeObject := { o with images := o.images.map fun i => { i with kind := 1 } }
def winning (b : List (Nat × Nat × Option Nat)) (o : CodeObject) : CodeObject := { asKis1 o with busy := b }

/-- A fetch that has read the object's first three lines and the first kernel's state word, all of them zeros, but for a sector that failed. -/
def textGot (key : Errand) (bad : Option FaultKind) : Fetch :=
  { Fetch.fresh key with
    got := (((List.range 12).map fun i => 0x80000 + 32 * i) ++ [0x90000]).map fun a => (physKey a, List.replicate 32 0)
    errs := bad.toList.map fun k => (k, physKey 0x80100) }
def read (core : Nat) (f : Fetch) (s : State) : State := s.modCore core fun c => { c with fetches := [f] }

/-- A code object of one image of a kind with one kernel of one word, unsigned: header (20 R297), directory, padding, tables. -/
def objectBytes (kind enc : Nat) : List Byte :=
  (bytesOfNat 256 (0x4B390C0B + 2 ^ 32 + enc * 2 ^ 40 + 2 ^ 160 + 1024 * 2 ^ 192)) ++ bytesOfNat 64 (kind + 384 * 2 ^ 64 + 256 * 2 ^ 96) ++
    List.replicate 64 0 ++ bytesOfNat 256 (128 + 0 * 2 ^ 48) ++ List.replicate 384 0

def signer : Vf := { rootVf id with cfg := { (rootVf id).cfg with signKeys := [[]] } }

theorem test_w_CodeComes :
    (∀ x ∈ [(Fetch.fresh (.text 0 0), asKis1, 0), (textGot (.text 0 0) none, id, 1), (textGot (.text 0 0) (some .memoryError), id, 2),
        (textGot (.text 0 0) none, asKis1, 3)],
      let s := read 0 x.1 (fetching x.2.1)
      s.vf? 0 = some (loaded x.2.1) ∧ s.wantsLine 0 0 0 = true ∧ (s.core 0).ic.length < 1024 ∧
        (match s.textLine 0 (loaded x.2.1) 0 with | .walk _ => 0 | .line _ _ => 1 | .bad _ => 2 | .nothing => 3) = x.2.2) ∧
    ((lab id).fetchers 0 0 9 = [] ∧ ((lab id).core 0).fetches = []) ∧
    (let s := fetching asKis1
     s.kis1Fetches 0 (asKis1 anObject) 0 ≠ [] ∧ s.textState 0 (asKis1 anObject) 0 = some 0 ∧ s.timeAt 0 > 9 ∧
       ((asKis1 anObject).images.find? fun i => i.kind == 1) = some ((asKis1 anObject).images.getD 0 default)) ∧
    (lab id).kis1Fetches 0 (asKis1 anObject) 0 = [] ∧
    ({ fetching asKis1 with reqs := [{ aReq (.read false) false (some 0) with sector := 0x4800, home := .slice (homeSlice 0x90000) }] } : State).physReady
      ((asKis1 anObject).stateWord 0) = false ∧
    (let o := winning [(0, 0, none)] anObject
     (o.busy.find? (fun b => b.1 == 0) = some (0, 0, none)) ∧
       okOr (readLines (fun i => (textGot (.kernel 0 0) none).imageLine o (o.images.getD 0 default) (128 + 128 * i)) [0]) (fun b => b.length == 128) = true ∧
       (readLines (fun i => (Fetch.fresh (.kernel 0 0)).imageLine o (o.images.getD 0 default) (128 + 128 * i)) [0] matches .error (some (.walk _))) = true) ∧
    ((winning [(0, 0, some 9)] anObject).busy.find? (fun b => b.1 == 0)) = some (0, 0, some 9) ∧
    (let s := fetching asKis1
     s.canonical = true ∧ (s.slices.all fun p => p.2.store.lines.all fun l => l.data.length == 128) = true ∧ targetOf ((asKis1 anObject).stateWord 0) = .dram ∧
       (asKis1 anObject).stateWord 0 % 128 + 8 ≤ 128 ∧ s.bad (.slice (homeSlice ((asKis1 anObject).stateWord 0))) ((asKis1 anObject).stateWord 0 / 32) = false) ∧
    ([0x08000000000000000000000000000000, 0x0F000000000000000000000000000000].all (· < 2 ^ 128)) = true ∧
    (let o := { anObject with images := anObject.images.map fun i => { i with kind := 2, off := 0, size := 256 } }
     let s := { mapped 0 id with vfs := [{ loaded fun _ => o with handler := some 0 }] }
     s.slotRuns 0 = false ∧ (handling 128 []).slotRuns 0 = true ∧ okOr ((textGot (.image 0) none).handlerImage o) (fun b => b.length == 256) = true ∧
       ((Fetch.fresh (.image 0)).handlerImage o matches .error (some (.walk _))) = true) := by decide +kernel

/-- A write by physical address is ready on the tests' part. -/
theorem test_w_Ready (a : Nat) : (mapped 0 id).physReady a = true := by
  have hr : (mapped 0 id).reqs = [] := rfl
  have hl : ∀ n, ((mapped 0 id).store (.slice n)).leases = [] := by
    intro n
    show (getKey Slice.reset [(80, (mapped 0 id).slice 80)] n).store.leases = []
    by_cases h : n = 80
    · subst h; rfl
    · rw [getKey, if_neg (Ne.symm h)]; rfl
  simp [State.physReady, State.lineTaken, State.leasesOver, hr, HomeStore.lease, hl, getKey]

/-- The object can be loaded: its tables read, its pages mapped. -/
def loadable : Bool :=
  (withTables (objectBytes 0 0) 1 (objectOf (objectBytes 0 0) anObject.plan 0 [])).any fun o =>
    ((mapped 0 id).allocate signer o).any fun o => ((mapped 0 id).placement signer o (objectBytes 0 0)).isSome

theorem test_w_ObjectLoads :
    directoryOk (rootVf id) [] = false ∧ directoryOk signer (objectBytes 1 0) = true ∧ directoryOk signer (objectBytes 0 1) = true := by decide +kernel
theorem test_w_ObjectPlaced : (objectOf (objectBytes 1 1) anObject.plan 0 []).enc = true ∧ loadable = true := by decide +kernel
/-- A translated area needs memory of the function's (20 R305). -/
theorem test_w_NoSpace :
    let o := objectOf (objectBytes 1 0) anObject.plan 0 []
    o.areaSize ≠ 0 ∧ ∀ v : Vf, v.cfg.memory = [] → (mapped 0 id).allocate v o = none := by
  refine ⟨by decide +kernel, fun v h => ?_⟩
  rw [State.allocate, if_neg (by decide +kernel)]
  have hf : ∀ l : List Nat, l.filter (fun _ => false) = [] := fun l => by induction l <;> simp_all
  simp [rangesOf, h, placeFor, hf]

/-- A configuration that may be created. -/
def newVf : VfConfig := { slotVf with id := 1, cores := [4, 5], hingeSlot := some 1, quantum := 2 ^ 16 }

/-- The tests' virtual function, leaving, with nothing under way. -/
def departing (ok : VfConfig) : State := { State.reset with vfs := [{ slotVfState with cfg := ok, leaving := true }] }

theorem test_w_FunctionsLive :
    State.reset.vfOk newVf = true ∧ State.reset.vfOk { newVf with id := 512 } = false ∧ State.reset.service = .full ∧
    ((lab id).vf? 0 = some slotVfState ∧ slotVfState.dying = false ∧ slotVfState.leaving = false) ∧
    (let v := { slotVfState with cfg := newVf, leaving := true, dying := true }
     let s := { State.reset with vfs := [v] }
     s.vf? 1 = some v ∧ v.dying = true ∧ s.idleVf v = true) ∧
    (let s := { State.reset with vfs := [{ slotVfState with stopped := true }] }
     (s.vf? 0).map (·.stopped) = some true) ∧
    (slotVf.hingeSlot = some 0 ∧ (lab id).canonical = true ∧ slotVfState.commands.block = 0) ∧
    (let v := { slotVfState with cfg := newVf, leaving := true }
     (departing newVf).vf? 1 = some v ∧ v.dying = false ∧ v.movedOut = false ∧ (departing newVf).idleVf v = true ∧ (∀ w ∈ v.waits, w.posted = true)) ∧
    (let v := { slotVfState with cfg := newVf, leaving := true, movedOut := true }
     let s := { State.reset with vfs := [v] }
     s.vf? 1 = some v ∧ v.dying = false ∧ v.movedOut = true ∧ s.presents v { newVf with cores := [8, 9], root := 0x80000 } = true ∧
       s.presents v { newVf with lease := 32 } = false) := by decide +kernel

/-- The team halted under a debugger. -/
def debugging (f : Team → Team) : State := (({ lab id with vfs := [{ slotVfState with debugger := true }] } : State)).modTeam 0 0 f

theorem test_w_DebuggerActs :
    (lab id).debugged 0 = none ∧
    (let s := debugging fun t => { t with halted := true }
     ((s.debugged 0).any fun p => s.drained p.1 p.2 && s.haltStands p.1 p.2 && p.2.holdsItem (.sreg 0 3) && p.2.holdsItem (.scratchByte 65535) &&
       !p.2.holdsItem (.scratchByte 65536) && p.2.scratch.wf) = true) ∧
    (let s := ((debugging id).modGroup r0 fun g => g.modSplit 0 fun p => { p with ending := true }).modCore 0 fun c => { c with copyRun := [aCopy], outs := [anOut] }
     ((s.debugged 0).any fun p => !s.drained p.1 p.2 && !s.haltStands p.1 p.2) = true) ∧
    (let s := { State.reset with vfs := [{ slotVfState with saved := [aSaved] }] }
     (s.savedTeam? 0).any (fun x => (sectionByte x.2.sections 0 matches some (some _)) &&
       (sectionByte x.2.sections 48 matches some none) && sectionByte x.2.sections (2 ^ 24) == none) = true) := by
  decide +kernel

/-- NOP with s = 1 (09 R135, 12 R192), as 128 bits. -/
def nopWord : Nat := 0x8000000000000000000007BC00000000

/-- A turn of a partition at a NOP; a turn of a hinge core at addi x0, x0, 0 (03 R37); an event; a host's turn; a parked instruction that may
act; a grid that triggers. -/
theorem test_w_StepRunsTheInstruction :
    (let s := State.reset.withFetchWord 128 nopWord
     s.due = none ∧ s.triggerDue = none ∧ s.promotionDue = none ∧ s.nextTurn.1 = .issue 0 0 ∧ ((s.nextTurn.2.core 0).part 0).picks = [] ∧
       ((s.nextTurn.2.nextPick 0 0).any fun x => !x.1.1.pending && (match x.1.1.what with | .instr _ => true | _ => false)) = true) ∧
    ((slotCore nopWord).icLine 0 0).isSome = true ∧
    (let s := State.reset.withFetchWord 32 0x00000013
     s.due = none ∧ s.triggerDue = none ∧ s.promotionDue = none ∧ s.nextTurn.1 = .hinge 0 ∧ s.nextTurn.2.handlerDue 0 = true ∧ s.nextTurn.2.overruns 0 = false ∧
       ((s.nextTurn.2.slice 0).run.any fun h =>
         (match ((s.nextTurn.2.slice 0).slot h.slot).fetch h.slot h.pc with | some (4, .ok _) => true | _ => false)) = true) ∧
    (let s := { State.reset with agenda := [.event .deviceTimeTick] }
     s.due = none ∧ s.triggerDue = none ∧ s.promotionDue = none ∧ s.nextTurn.1 = .event .deviceTimeTick) ∧
    (let s := { State.reset with agenda := [.host (.memory 64 [1])] }
     s.due = none ∧ s.triggerDue = none ∧ s.promotionDue = none ∧ s.nextTurn.1 = .host (.memory 64 [1])) ∧
    (let s := { State.reset with agenda := [.wear (.coreSite 0 7)] }
     s.due = none ∧ s.triggerDue = none ∧ s.promotionDue = none ∧ s.nextTurn.1 = .wear (.coreSite 0 7)) ∧
    (let s := lab fun g => g.modSplit 0 fun p => { p with readyTicks := 1024 }
     s.due = none ∧ s.triggerDue = none ∧ s.promotionDue = some r0) ∧
    ((waitingAt { Latch.fresh with state := .full }).dueOn 0).map (·.1) = [r0] ∧
    (lab fun g => { g with triggered := true }).triggerDue = some 0 := by decide +kernel
theorem test_w_TurnsGoOn :
    (let s := lab id
     ∀ q ∈ s.residents, (s.grid? q.2.grid).isSome = true ∧ (s.vf? q.2.vf).isSome = true) ∧
    Instr.deviceTimeTick.code = none ∧ encodeHinge .deviceTimeTick = none := by decide +kernel
/-- A step runs the instruction that was placed: the split's pc goes on; x5 of the handler is 7 (addi x5, x0, 7). -/
theorem test_step_issue : ((next? (step (State.reset.withFetchWord 128 nopWord))).bind fun t => (t.split? r0).map (·.pc)) = some 1 := by decide +kernel
theorem test_step_hinge : ((next? (step (State.reset.withFetchWord 32 0x00700293))).bind fun t => (t.slice 0).run.map fun h => (h.x? 5, h.pc)) = some (7, 0x10004) := by
  decide +kernel
theorem test_w_DecodeEncodeAgree :
    (Instr.nop w).wf = true ∧ (encodeWord (.nop w)).isSome = true ∧ (decodeWord (BitVec.ofNat 128 nopWord)).toOption.isSome = true ∧
    (Instr.hlDone).wf = true ∧ (encodeHinge .hlDone).isSome = true ∧ (match decodeHinge 0x00700293 with | .ok _ => true | .error _ => false) = true := by decide +kernel
theorem test_w_CanonicalKept : State.reset.canonical = true ∧ (next? (exec .deviceTimeTick State.reset)).isSome = true ∧
    (next? (step { State.reset with agenda := [.event .deviceTimeTick] })).isSome = true := by decide +kernel
theorem test_w_DestinationFrame :
    readyAnd (lab id) (.iadd dab .i32 false) (fun c => hazards c.split.run c.writes == [] && !c.i.endsRun c.o && !c.acting && (c.s.group? c.r).isSome) = true ∧
    ((Instr.iadd dab .i32 false).code.any fun x => x.1 < 0x700) = true ∧ (next? (exec (.iadd dab .i32 false) (lab id))).isSome = true := by decide +kernel

def aFault (k : FaultKind) : FaultRec := { kind := k, addr := 0x40, lane := some 3, pc := 0, acc := 0 }

theorem test_w_FaultsTaken :
    (let s := (lab id).modCore 0 fun c => { c with outs := [anOut] }
     s.hasOuts r0 = true ∧ (s.split? r0).isSome = true) ∧
    (let s := lab id
     s.hasOuts r0 = false ∧ ((s.group? r0).any fun g => !g.dying && !g.suspends 0 && !g.stalled && g.trapSplit.isNone && g.splits.all fun q => q.sid == 0) = true ∧
       ((s.split? r0).any fun p => p.resultAt ≤ s.time && p.deferred.isNone && p.mask != 0) = true) ∧
    (let s := { lab id with grids := [{ slotGrid with trapv := true, trape := 9 }] }
     (s.grid? 0).map (·.trapv) = some true) ∧
    (lab id).vf? 0 = some slotVfState ∧ slotVfState.debugger = false ∧ ((debugging id).vf? 0).map (·.debugger) = some true ∧
    ((debugging id).split? r0).isSome = true ∧ ((lab id).grid? 0).map (·.trapv) = some false ∧ ((lab id).group? r0).map (·.splits.length) = some 1 ∧ (aFault .pageFault).kind = .pageFault ∧
    (let s := lab fun g => { g with pageDue := some (0, aFault .pageFault) }
     (s.vf? 0).map (·.nextToken) = some 0 ∧ ((s.group? r0).any fun g => !g.dying && g.splits.all fun p => s.standing (r0.other p.sid) p) = true) := by decide +kernel

/-- One entry of each level as the tables of the tests hold it, and one with V clear. -/
theorem test_w_TranslationChecks :
    (let s := mapped 0 id
     let v := (rootVf id).cfg
     let f := walked (.word r0) 0
     let reads := fun (pa e : Nat) => okOr (f.phys pa 8) (fun b => b == bytesOfNat 8 e) = true
     reads (v.root + 0) (1 + 2 * 2 ^ 20) ∧ reads (pteBase (1 + 2 * 2 ^ 20)) (1 + 3 * 2 ^ 20) ∧ reads (pteBase (1 + 3 * 2 ^ 20)) (1 + 4 * 2 ^ 20) ∧
       reads (pteBase (1 + 4 * 2 ^ 20)) (leafPte 0) ∧ reads (pteBase (1 + 4 * 2 ^ 20) + 8) 0 ∧ targetOf 0x10000 ≠ .absent ∧
       (f.phys 0x50000 8 matches .error (.walk _)) = true ∧
       ({ f with errs := [(.memoryError, physKey 0x10000)] }.phys 0x10000 8 matches .error (.fault .memoryError)) = true ∧
       (∀ e ∈ [1 + 2 * 2 ^ 20, 1 + 3 * 2 ^ 20, 1 + 4 * 2 ^ 20], e % 4 = 1 ∧ bitsOf e 19 2 = 0 ∧ bitsOf e 63 45 = s.devNumber) ∧ leafPte 0 % 4 = 3 ∧ bitsOf (leafPte 0) 19 18 = 0 ∧
       okOr (s.translate [] f v 0 .store) (fun x => devOf (x.page.pa + 0) == s.devNumber) = true) ∧
    (∃ e : Nat, e % 4 = 3 ∧ bitsOf e 19 18 = 0 ∧ bitsOf e 29 20 = 0) ∧ (∃ e : Nat, e % 4 = 3 ∧ bitsOf e 29 20 ≠ 0) := by
  refine ⟨by decide +kernel, ⟨3 + 5 * 2 ^ 30, by decide⟩, ⟨3 + 5 * 2 ^ 20, by decide⟩⟩
theorem test_w_HomeSliceOfLine : (0x0ABCD000 : Nat) / 4096 = 0x0ABCDFFF / 4096 ∧ devOf 0x0ABCD000 = State.reset.devNumber ∧ targetOf (localOf 0x0ABCD000) = .dram := by decide +kernel
theorem test_w_Promoted :
    (let s := lab fun g => g.modSplit 0 fun p => { p with readyTicks := 1024 }
     (s.split? r0).map (fun p => (p.level, p.promoted, p.readyTicks)) = some (0, false, 1024)) ∧
    ((lab fun g => g.modSplit 0 fun p => { p with readyTicks := 1023 }).split? r0).map (·.readyTicks) = some 1023 ∧
    ((lab fun g => g.modSplit 0 fun p => { p with promoted := true }).split? r0).map (·.promoted) = some true ∧
    (State.reset.withFetchWord 128 nopWord).candidates 0 0 ≠ [] ∧
    readyAnd (lab id) (.nop w) (fun c => !c.acting && !c.group.dying && (c.s.split? c.r).isSome) = true := by decide +kernel
end Sys2Proof.Tests
end

section
/-!
SUPPORT. Rings and their control blocks (05 R73, 18 R287, R290): what a changed control block leaves alone, what is found of it after, and the 32
bytes that follow it in host memory.
-/
namespace Sys2Proof.Machine

/-! ## Host memory written for a function (R310) -/

@[simp] theorem State.writeHost_dram (s : State) (vf a : Nat) (b : List Byte) : (s.writeHost vf a b).dram = s.dram := rfl
@[simp] theorem State.writeHost_cores (s : State) (vf a : Nat) (b : List Byte) : (s.writeHost vf a b).cores = s.cores := rfl
@[simp] theorem State.writeHost_vf? (s : State) (vf a : Nat) (b : List Byte) (n : Nat) : (s.writeHost vf a b).vf? n = s.vf? n := rfl

/-- Within a page of 4 KiB the host's addresses follow one another. -/
theorem hostAddress_add (vf : Nat) {a i : Nat} (h : a % 4096 + i < 4096) : hostAddress vf (a + i) % 2 ^ 40 = hostAddress vf a % 2 ^ 40 + i := by
  have hp : (a + i) % 2 ^ 40 / 4096 = a % 2 ^ 40 / 4096 := by omega
  unfold hostAddress
  rw [hp]
  have := Nat.mod_lt (Config.iommu vf (a % 2 ^ 40 / 4096)) (show 0 < 2 ^ 28 by decide)
  generalize Config.iommu vf (a % 2 ^ 40 / 4096) % 2 ^ 28 = p at this ⊢
  omega

/-- Bytes written one by one at addresses that follow are bytes written from the first up. -/
theorem Memory.writeAll_consecutive (m : Memory) (f : Nat → Nat) (a : Nat) (b : List Byte) (hf : ∀ i, i < b.length → f i = a + i) :
    m.writeAll (((List.range b.length).zip b).map fun p => (f p.1, p.2)) = m.writeBytes a b := by
  induction b generalizing m f a with
  | nil => rfl
  | cons x r ih =>
    have hrest := ih (m.write a x) (fun i => f (i + 1)) (a + 1) fun i hi => by
      rw [hf (i + 1) (Nat.succ_lt_succ hi)]; omega
    have hfirst : f 0 = a := hf 0 (Nat.succ_pos _)
    rw [Memory.writeBytes, ← hrest, List.length_cons, List.range_succ_eq_map, List.zip_cons_cons, List.zip_map_left]
    simp [Memory.writeAll, hfirst, Function.comp_def]

/-- Bytes just written are read back. -/
theorem Memory.readBytes_writeBytes_self {m : Memory} (a : Nat) (b : List Byte) (hw : m.wf = true) :
    (m.writeBytes a b).readBytes a b.length = b := by
  have hlen : ((m.writeBytes a b).readBytes a b.length).length = b.length := Memory.readBytes_length _ _ _
  refine List.ext_getElem hlen fun i hi hib => ?_
  have hin : a ≤ a + i ∧ a + i < a + b.length := by omega
  have hbyte : ((m.writeBytes a b).readBytes a b.length).getD i 0 = b.getD i 0 := by
    rw [Memory.readBytes_getD _ _ _ _ hib, Memory.read_writeBytes _ _ _ hw, if_pos hin, Nat.add_sub_cancel_left]
  rwa [List.getD_eq_getElem?_getD, List.getD_eq_getElem?_getD, List.getElem?_eq_getElem hi, List.getElem?_eq_getElem hib] at hbyte

/-- What the device writes within a page of host memory stands there. -/
theorem State.readBytes_writeHost (s : State) (vf a : Nat) (b : List Byte) (hw : s.host.wf = true) (hp : a % 4096 + b.length ≤ 4096) :
    (s.writeHost vf a b).host.readBytes (hostAddress vf a % 2 ^ 40) b.length = b := by
  have hf : ∀ i, i < b.length → hostAddress vf (a + i) % 2 ^ 40 = hostAddress vf a % 2 ^ 40 + i := fun i hi => hostAddress_add vf (by omega)
  have he : (s.writeHost vf a b).host = s.host.writeBytes (hostAddress vf a % 2 ^ 40) b :=
    Memory.writeAll_consecutive s.host (fun i => hostAddress vf (a + i) % 2 ^ 40) _ b hf
  rw [he, Memory.readBytes_writeBytes_self _ _ hw]

/-! ## A control block changed -/

@[simp] theorem State.keepRing_cores (s : State) (n : RingName) (r : Ring) : (s.keepRing n r).cores = s.cores := by cases n <;> rfl
@[simp] theorem State.keepRing_reqs (s : State) (n : RingName) (r : Ring) : (s.keepRing n r).reqs = s.reqs := by cases n <;> rfl
@[simp] theorem State.keepRing_invals (s : State) (n : RingName) (r : Ring) : (s.keepRing n r).invals = s.invals := by cases n <;> rfl
@[simp] theorem State.keepRing_statuses (s : State) (n : RingName) (r : Ring) : (s.keepRing n r).statuses = s.statuses := by cases n <;> rfl
@[simp] theorem State.keepRing_host (s : State) (n : RingName) (r : Ring) : (s.keepRing n r).host = s.host := by cases n <;> rfl

/-- A virtual function that an update names is found changed. -/
theorem State.modVf_found {s : State} {n : Nat} {v : Vf} {f : Vf → Vf} (hf : ∀ x, (f x).cfg.id = x.cfg.id) (h : s.vf? n = some v) :
    (s.modVf n f).vf? n = some (f v) := by
  rw [State.modVf_vf? s n n f fun x hx => (hf x).trans hx, if_pos rfl, h, Option.map_some]

/-- The device's copy is the ring that was kept. -/
theorem State.ring?_keepRing {s : State} {n : RingName} {r : Ring} (h : s.ring? n = some r) (q : Ring) : (s.keepRing n q).ring? n = some q := by
  cases n with
  | pfEvents | pfCommands => rfl
  | events v | faults v | dirty v | commands v =>
    obtain ⟨x, hx, -⟩ := Option.map_eq_some_iff.1 h
    simp only [State.keepRing, State.ring?]
    rw [State.modVf_found ?_ hx]
    · rfl
    · exact fun _ => rfl

/-- A control block changed is the device's copy changed, and host memory. -/
theorem State.setRing_eq (s : State) (n : RingName) (r : Ring) : ∃ m, s.setRing n r = { s.keepRing n r with host := m } := by
  unfold State.setRing
  dsimp only
  split
  · exact ⟨_, rfl⟩
  · exact ⟨_, rfl⟩

@[simp] theorem State.setRing_dram (s : State) (n : RingName) (r : Ring) : (s.setRing n r).dram = s.dram :=
  ((State.Keeps.refl s).setRing n r).dram
@[simp] theorem State.setRing_cores (s : State) (n : RingName) (r : Ring) : (s.setRing n r).cores = s.cores := by
  obtain ⟨m, e⟩ := s.setRing_eq n r; rw [e]; exact s.keepRing_cores n r
@[simp] theorem State.setRing_reqs (s : State) (n : RingName) (r : Ring) : (s.setRing n r).reqs = s.reqs := by
  obtain ⟨m, e⟩ := s.setRing_eq n r; rw [e]; exact s.keepRing_reqs n r
@[simp] theorem State.setRing_invals (s : State) (n : RingName) (r : Ring) : (s.setRing n r).invals = s.invals := by
  obtain ⟨m, e⟩ := s.setRing_eq n r; rw [e]; exact s.keepRing_invals n r
@[simp] theorem State.setRing_statuses (s : State) (n : RingName) (r : Ring) : (s.setRing n r).statuses = s.statuses := by
  obtain ⟨m, e⟩ := s.setRing_eq n r; rw [e]; exact s.keepRing_statuses n r
theorem State.setRing_vfs (s : State) (n : RingName) (r : Ring) : (s.setRing n r).vfs = (s.keepRing n r).vfs := by
  obtain ⟨m, e⟩ := s.setRing_eq n r; rw [e]

theorem State.ring?_setRing {s : State} {n : RingName} {r : Ring} (h : s.ring? n = some r) (q : Ring) : (s.setRing n q).ring? n = some q := by
  obtain ⟨m, e⟩ := s.setRing_eq n q
  have hq := State.ring?_keepRing h q
  rw [e]
  cases n <;> exact hq

theorem State.vf?_setRing_dirty {s : State} {vf : Nat} {v : Vf} (h : s.vf? vf = some v) (q : Ring) :
    (s.setRing (.dirty vf) q).vf? vf = some { v with dirty := q } := by
  rw [State.vf?_of_vfs (State.setRing_vfs s _ q)]
  exact State.modVf_found (fun _ => rfl) h

theorem State.vf?_setRing_faults {s : State} {vf : Nat} {v : Vf} (h : s.vf? vf = some v) (q : Ring) :
    (s.setRing (.faults vf) q).vf? vf = some { v with faults := q } := by
  rw [State.vf?_of_vfs (State.setRing_vfs s _ q)]
  exact State.modVf_found (fun _ => rfl) h

/-- A block that has been placed within a page follows its ring in host memory. -/
theorem State.readBytes_setRing (s : State) (n : RingName) (r : Ring) (hb : r.block ≠ 0) (hp : r.block % 4096 + 32 ≤ 4096)
    (hw : s.host.wf = true) :
    (s.setRing n r).host.readBytes (hostAddress (ringFunction n) r.block % 2 ^ 40) 32 = bytesOfNat 32 r.word := by
  have hread := (s.keepRing n r).readBytes_writeHost (ringFunction n) r.block (bytesOfNat 32 r.word) (by simpa using hw) (by simpa using hp)
  rw [bytesOfNat_length] at hread
  unfold State.setRing
  dsimp only
  rw [if_neg hb, hread]

/-! ## Events and status records posted (R287, R309) -/

@[simp] theorem State.postTo_cores (s : State) (n : RingName) (w : Nat) : (s.postTo n w).cores = s.cores := by
  unfold State.postTo
  split
  · rfl
  · split
    · rw [State.setRing_cores, State.writeHost_cores]
    · exact s.setRing_cores _ _

@[simp] theorem State.post_cores (s : State) (e : Event) : (s.post e).cores = s.cores := by
  unfold State.post
  split
  · exact s.postTo_cores _ _
  · exact s.postTo_cores _ _

/-- A command's answer takes an entry of a command ring, where there is one, and adds its status record. -/
theorem State.status_eq (s : State) (command : String) (vf : Nat) (status : String) (value : Nat) :
    ∃ u : State, (u = s ∨ ∃ n r, (n = .pfCommands ∨ n = .commands vf) ∧ u = s.setRing n r) ∧
      s.status command vf status value =
        { u with statuses := s.statuses ++ [{ command := command, vf := vf, status := status, value := value }] } := by
  unfold State.status
  dsimp only
  split
  · rename_i r _
    rw [State.setRing_statuses]
    refine ⟨_, .inr ⟨_, r.take, ?_, rfl⟩, rfl⟩
    split
    · exact .inl rfl
    · exact .inr rfl
  · exact ⟨s, .inl rfl, rfl⟩

section
variable (s : State) (command : String) (vf : Nat) (status : String) (value : Nat)

/-- What no change of a control block touches, a status record leaves. -/
theorem State.status_field {α : Type} (field : State → α) (hs : ∀ u : State, ∀ l, field { u with statuses := l } = field u)
    (hr : ∀ n r, field (s.setRing n r) = field s) : field (s.status command vf status value) = field s := by
  obtain ⟨u, hu, e⟩ := s.status_eq command vf status value
  rw [e, hs]
  obtain rfl | ⟨n, r, -, rfl⟩ := hu
  · rfl
  · exact hr n r

theorem State.status_statuses :
    (s.status command vf status value).statuses = s.statuses ++ [{ command := command, vf := vf, status := status, value := value }] := by
  obtain ⟨u, -, e⟩ := s.status_eq command vf status value
  rw [e]
@[simp] theorem State.status_dram : (s.status command vf status value).dram = s.dram :=
  s.status_field command vf status value (·.dram) (fun _ _ => rfl) s.setRing_dram
@[simp] theorem State.status_cores : (s.status command vf status value).cores = s.cores :=
  s.status_field command vf status value (·.cores) (fun _ _ => rfl) s.setRing_cores
@[simp] theorem State.status_invals : (s.status command vf status value).invals = s.invals :=
  s.status_field command vf status value (·.invals) (fun _ _ => rfl) s.setRing_invals
@[simp] theorem State.status_core (k : Nat) : (s.status command vf status value).core k = s.core k :=
  State.core_of_cores (s.status_cores command vf status value) k

/-- Of the function that gave the command only the command ring has changed. -/
theorem State.vf?_status {v : Vf} (h : s.vf? vf = some v) : ∃ q, (s.status command vf status value).vf? vf = some { v with commands := q } := by
  obtain ⟨u, hu, e⟩ := s.status_eq command vf status value
  have hvfs : (s.status command vf status value).vfs = u.vfs := by rw [e]
  rw [State.vf?_of_vfs hvfs]
  obtain rfl | ⟨n, r, rfl | rfl, rfl⟩ := hu
  · exact ⟨v.commands, h⟩
  · refine ⟨v.commands, ?_⟩
    rw [State.vf?_of_vfs (s.setRing_vfs .pfCommands r)]
    exact h
  · refine ⟨r, ?_⟩
    rw [State.vf?_of_vfs (s.setRing_vfs (.commands vf) r)]
    exact State.modVf_found (fun _ => rfl) h

end

/-! ## What the host writes of a control block (R4, R73, R287) -/

@[simp] theorem Ring.written_told (r : Ring) (c : Bool) (w : RingWrite) : (r.written c w).told = r.told := by
  cases w <;> cases c <;> rfl
@[simp] theorem Ring.written_block (r : Ring) (c : Bool) (w : RingWrite) : (r.written c w).block = r.block := by
  cases w <;> cases c <;> rfl

/-- PROD less CONS is 2^n (R73), where both are 64-bit counts. -/
theorem Ring.full_iff (r : Ring) (hc : r.cons < 2 ^ 64) : r.full = true ↔ (r.prod + (2 ^ 64 - r.cons)) % 2 ^ 64 = 2 ^ r.logn % 2 ^ 64 := by
  rw [Ring.full, beq_iff_eq]
  generalize 2 ^ r.logn = size
  omega

theorem State.writeRing_eq {s : State} {n : RingName} {r : Ring} (h : s.ring? n = some r) (w : RingWrite) :
    s.writeRing n w = s.ringWritten n (r.written (ringOfCommands n) w) := by rw [State.writeRing, h]

/-- Only a fault ring takes anything once the host has written its block. -/
theorem State.ringWritten_eq (s : State) {n : RingName} (hn : ∀ v, n ≠ .faults v) (r : Ring) :
    s.ringWritten n r = s.setRing n { r with told := r.told && r.full } := by
  cases n with
  | faults v => exact absurd rfl (hn v)
  | events v | dirty v | commands v | pfEvents | pfCommands => rfl

/-- Bytes of host memory that fall on no control block are only bytes. -/
theorem State.hostWrites_of_no_block {s : State} (hb : ∀ n r, s.ring? n = some r → r.block = 0) (bytes : List (Nat × Byte)) :
    s.hostWrites bytes = { s with host := s.host.writeAll bytes } := by
  unfold State.hostWrites
  refine List.foldlRecOn (motive := fun u => u = { s with host := s.host.writeAll bytes }) _ _ rfl fun u hu n _ => ?_
  subst hu
  have hring : ({ s with host := s.host.writeAll bytes } : State).ring? n = s.ring? n := by cases n <;> rfl
  dsimp only
  rw [hring]
  cases hr : s.ring? n with
  | none => rfl
  | some r => simp [hb n r hr]

/-- A fault ring that the host has written takes the faults that were held. -/
theorem State.ringWritten_faults {s : State} {vf : Nat} {v : Vf} (h : s.vf? vf = some v) (r : Ring) :
    s.ringWritten (.faults vf) r =
      State.postHeld v.waits.length (s.setRing (.faults vf) { r with told := r.told && r.stuck (.faults vf) }) vf := by
  rw [State.ringWritten, State.vf?_setRing_faults h]
  rfl

/-! ## Held faults posted while there is room (R288, R290) -/

/-- The faults of a virtual function that are held at their sources. -/
def Vf.held (v : Vf) : List FaultWait := v.waits.filter fun w => !w.posted

/-- The function with the record of a held fault appended to its ring. -/
def Vf.posting (v : Vf) (w : FaultWait) : Vf :=
  { v with faults := v.faults.push, waits := updateIf (fun x => x.token == w.token) (fun x => { x with posted := true }) v.waits }

/-- Posting a held fault leaves fewer held. -/
theorem Vf.held_posting_lt (v : Vf) {w : FaultWait} (hw : w ∈ v.held) : (v.posting w).held.length < v.held.length := by
  have hrest : (v.posting w).held.length = (v.held.filter fun x => x.token != w.token).length := by
    simp only [Vf.held, Vf.posting, updateIf, List.filter_map, List.length_map, List.filter_filter]
    congr 2
    funext x
    by_cases ht : x.token = w.token <;> simp [ht]
  rw [hrest]
  exact List.length_filter_lt_length_iff_exists.2 ⟨w, hw, by simp⟩

/-- The record of one held fault written, and the fault marked. -/
def State.postOne (s : State) (vf : Nat) (v : Vf) (w : FaultWait) : State :=
  (s.writeFault v w).modVf vf fun v => { v with waits := updateIf (fun x => x.token == w.token) (fun x => { x with posted := true }) v.waits }

theorem State.vf?_postOne {s : State} {vf : Nat} {v : Vf} (h : s.vf? vf = some v) (w : FaultWait) :
    (s.postOne vf v w).vf? vf = some (v.posting w) := by
  obtain rfl := State.vf?_id h
  have hring : (s.writeFault v w).vf? v.cfg.id = some { v with faults := v.faults.push } := by
    rw [State.writeFault]
    exact State.vf?_setRing_faults (by rw [State.writeHost_vf?, h]) v.faults.push
  rw [State.postOne, State.modVf_found ?_ hring]
  · rfl
  · exact fun _ => rfl

@[simp] theorem State.postOne_dram (s : State) (vf : Nat) (v : Vf) (w : FaultWait) : (s.postOne vf v w).dram = s.dram := by
  rw [State.postOne, State.modVf_dram, State.writeFault, State.setRing_dram, State.writeHost_dram]
@[simp] theorem State.postOne_cores (s : State) (vf : Nat) (v : Vf) (w : FaultWait) : (s.postOne vf v w).cores = s.cores := by
  rw [State.postOne, State.modVf_cores, State.writeFault, State.setRing_cores, State.writeHost_cores]

/-- One turn of the posting: nothing to do, or the oldest held fault goes. -/
theorem State.postHeld_succ {s : State} {vf : Nat} {v : Vf} (h : s.vf? vf = some v) (n : Nat) :
    (State.postHeld (n + 1) s vf = s ∧ (v.held = [] ∨ v.faults.full = true ∨ v.faults.enabled = false)) ∨
    ∃ w ∈ v.held, State.postHeld (n + 1) s vf = State.postHeld n (s.postOne vf v w) vf := by
  simp only [State.postHeld, h]
  split
  · rename_i hroom
    refine .inl ⟨rfl, .inr ?_⟩
    rw [Bool.or_eq_true, Bool.not_eq_true'] at hroom
    exact hroom.symm
  · split
    · rename_i hnone
      exact .inl ⟨rfl, .inl (List.filter_eq_nil_iff.2 (List.find?_eq_none.1 hnone))⟩
    · rename_i w hw
      exact .inr ⟨w, List.mem_filter.2 ⟨List.mem_of_find?_eq_some hw, List.find?_some (p := fun x : FaultWait => !x.posted) hw⟩, rfl⟩

/-- With a turn for each held fault, all are posted unless the ring is full or off; CONS, the package's memory and the cores stay. -/
theorem State.postHeld_posts (n : Nat) {s : State} {vf : Nat} {v : Vf} (h : s.vf? vf = some v) (hn : v.held.length ≤ n) :
    (State.postHeld n s vf).dram = s.dram ∧ (State.postHeld n s vf).cores = s.cores ∧
    ∃ v', (State.postHeld n s vf).vf? vf = some v' ∧ v'.faults.cons = v.faults.cons ∧
      (v'.held = [] ∨ v'.faults.full = true ∨ v'.faults.enabled = false) := by
  induction n generalizing s v with
  | zero => exact ⟨rfl, rfl, v, h, rfl, .inl (List.eq_nil_of_length_eq_zero (Nat.le_zero.1 hn))⟩
  | succ n ih =>
    obtain ⟨e, hdone⟩ | ⟨w, hw, e⟩ := State.postHeld_succ h n
    · rw [e]
      exact ⟨rfl, rfl, v, h, rfl, hdone⟩
    · have hfewer := v.held_posting_lt hw
      obtain ⟨hd, hc, v', hv', hcons, hend⟩ := ih (State.vf?_postOne h w) (by omega)
      rw [e]
      exact ⟨hd.trans (s.postOne_dram vf v w), hc.trans (s.postOne_cores vf v w), v', hv', hcons, hend⟩

end Sys2Proof.Machine
end

section
/-!
SUPPORT. A write that waits for the dirty log (05 R73).
-/
namespace Sys2Proof.Machine

/-- The page of a write whose entry is known to want a line of the log is the one it waits for. -/
theorem State.toLog_wanted {s : State} {v : Vf} {f : Fetch} {x : Xlated} (hn : f.needsLog v x = .ok true) : s.toLog v f [x] = [x] := by
  have hlogs : (v.dirty.logs && x.page.dle) = true := by
    cases hc : v.dirty.logs && x.page.dle with
    | true => rfl
    | false => simp [Fetch.needsLog, hc] at hn
  have hmay : f.mayLog v x = true := by rw [Fetch.mayLog, hn]
  simp [State.toLog, hlogs, hmay]

/-- It appends the page while the ring has room, and meets a full ring else. -/
theorem State.logWrite_wanted {s : State} {vf : Nat} {v : Vf} {x : Xlated} (core grid : Nat) (owner : SplitRef) {key : Errand}
    (hv : s.vf? vf = some v) (hl : s.logging x.page.entry = false) (hn : ((s.core core).answers key).needsLog v x = .ok true) :
    s.logWrite core vf grid owner key [x] =
      if v.dirty.full then .full s false else .wait (s.logPage core vf grid owner key x) true := by
  simp [State.logWrite, hv, State.toLog_wanted hn, State.logOne, hl, hn]

/-- The OR of DIRTY sent for a page, what the writer knew of the entry being stale. -/
def State.sendDirty (s : State) (core vf grid : Nat) (owner : SplitRef) (key : Errand) (x : Xlated) : State :=
  let u := s.takeId.2.dropL1 core [x.page.entry / 32]
  ({ u with reqs := u.reqs ++ [logReq s.takeId.1 core vf grid owner x.page.entry u.time] } : State).modCore core fun c =>
    { c with fetches := updateIf (fun f => f.key == key) (fun f => { f with got := f.got.filter fun g => g.1 != physKey x.page.entry }) c.fetches }

section
variable (s : State) (core vf grid : Nat) (owner : SplitRef) (key : Errand) (x : Xlated)

@[simp] theorem State.sendDirty_dram : (s.sendDirty core vf grid owner key x).dram = s.dram := rfl
@[simp] theorem State.sendDirty_host : (s.sendDirty core vf grid owner key x).host = s.host := rfl
@[simp] theorem State.sendDirty_vfs : (s.sendDirty core vf grid owner key x).vfs = s.vfs := rfl

theorem State.sendDirty_asks : logReq s.nextId core vf grid owner x.page.entry s.time ∈ (s.sendDirty core vf grid owner key x).reqs :=
  List.mem_append_right _ (List.mem_singleton_self _)

theorem State.logPage_eq {v : Vf} (hv : s.vf? vf = some v) :
    s.logPage core vf grid owner key x =
      ((s.writeHost vf (v.dirty.slot 8) (bytesOfNat 8 (x.page.pa / 2 ^ 16 * 2 ^ 16))).setRing (.dirty vf) v.dirty.push).sendDirty
        core vf grid owner key x := by
  rw [State.logPage, hv]
  rfl

end

/-- One page logged: PROD goes on, the ring's slot holds the page's address, and the OR of DIRTY is on its way. -/
theorem State.logPage_spec {s : State} {vf : Nat} {v : Vf} (core grid : Nat) (owner : SplitRef) (key : Errand) (x : Xlated)
    (hv : s.vf? vf = some v) (hb : v.dirty.block = 0) :
    let t := s.logPage core vf grid owner key x
    (t.vf? vf).map (·.dirty.prod) = some (v.dirty.prod + 1) ∧ t.dram = s.dram ∧
      t.host = (s.writeHost vf (v.dirty.base + 8 * (v.dirty.prod % 2 ^ v.dirty.logn)) (bytesOfNat 8 (x.page.pa / 2 ^ 16 * 2 ^ 16))).host ∧
      ∃ q ∈ t.reqs, q.errand = some .log ∧ q.home = (physHome vf x.page.entry).1 ∧ q.sector = (physHome vf x.page.entry).2 ∧
        q.kind = .atomic [{ lane := 0, off := x.page.entry % 32, op := .or, ty := .u64, c := 512, e := 0 }] := by
  dsimp only
  rw [State.logPage_eq s core vf grid owner key x hv]
  refine ⟨?_, ?_, ?_, _, State.sendDirty_asks _ core vf grid owner key x, rfl, rfl, rfl, rfl⟩
  · rw [State.vf?_of_vfs (State.sendDirty_vfs _ core vf grid owner key x),
      State.vf?_setRing_dirty (by rw [State.writeHost_vf?, hv]) v.dirty.push]
    rfl
  · rw [State.sendDirty_dram, State.setRing_dram, State.writeHost_dram]
  · rw [State.sendDirty_host, State.setRing, if_pos (show v.dirty.push.block = 0 from hb), State.keepRing_host, Ring.slot]

end Sys2Proof.Machine
end

section
/-!
SUPPORT. Invalidates (05 R72).
-/
namespace Sys2Proof.Machine

/-- Of a range that has been dropped no translation is left. -/
theorem dropXlates_untouched {l : List TlbEntry} {vf lo hi : Nat} {e : TlbEntry} (he : e ∈ dropXlates l vf lo hi) (hv : e.vf = vf) :
    touches lo hi e.va e.page.size = false := by
  have hkept := (List.mem_filter.1 he).2
  simpa [hv] using hkept

theorem Fetch.dropWalks_got {f : Fetch} {g : Nat × List Byte} (hg : g ∈ f.dropWalks.got) : g.1 < 2 ^ 64 :=
  of_decide_eq_true (List.mem_filter.1 hg).2

/-- An access is open at its home while a request, a message or a store still to be sent has its name. -/
theorem State.accessOpen_iff (s : State) (n : Nat) : s.accessOpen n = true ↔
    (∃ q ∈ s.reqs, q.id = n ∧ q.done = false) ∨ (∃ m ∈ s.msgs, m.id = n) ∨ ∃ c ∈ s.cores, ∃ o ∈ c.2.outs, n ∈ o.finish.ids := by
  simp [State.accessOpen, or_assoc]

/-- INVALIDATE_COMPLETE answers once no access it waits for is open. -/
theorem execInvalidateComplete_eq {s : State} {id : Nat} {x : Invalidation} (h : s.invals.find? (fun x => x.id == id) = some x) :
    execInvalidateComplete id s =
      if x.ids.any s.accessOpen then .next s.bump
      else .next (({ s with invals := s.invals.filter fun y => y.id != id } : State).status "INVALIDATE" x.vf "OK" id).bump := by
  rw [execInvalidateComplete, h]

end Sys2Proof.Machine
end

section
/-!
SUPPORT. The resolution of page faults (18 R289).
-/
namespace Sys2Proof.Machine

theorem Vf.waitOf_token {v : Vf} {token : Nat} {w : FaultWait} (h : v.waitOf token = some w) : w.token = token := by
  have hw := List.find?_some (p := fun w : FaultWait => w.token == token && w.posted && w.answer.isNone) h
  rw [Bool.and_eq_true, Bool.and_eq_true, beq_iff_eq] at hw
  exact hw.1.1

theorem State.resolve_absent {s : State} {vf : Nat} (token : Nat) (f : State → FaultWait → State) (h : s.vf? vf = none) :
    s.resolve vf token f = s.status "RESOLVE" vf "REFUSED" token := by rw [State.resolve, h]

theorem State.resolve_no_wait {s : State} {vf token : Nat} {v : Vf} (f : State → FaultWait → State) (h : s.vf? vf = some v)
    (hw : v.waitOf token = none) : s.resolve vf token f = s.status "RESOLVE" vf "OK" token := by
  rw [State.resolve, h]
  dsimp only
  rw [hw]

theorem State.resolve_wait {s : State} {vf token : Nat} {v : Vf} {w : FaultWait} (f : State → FaultWait → State) (h : s.vf? vf = some v)
    (hw : v.waitOf token = some w) : s.resolve vf token f = f (s.status "RESOLVE" vf "OK" token) w := by
  rw [State.resolve, h]
  dsimp only
  rw [hw]

theorem exec_resolveRetry (vf token : Nat) (s : State) :
    exec (.resolveRetry vf token) s = .next (s.resolve vf token fun s w => s.retry vf w).bump := rfl
theorem exec_resolveFail (vf token : Nat) (s : State) :
    exec (.resolveFail vf token) s = .next (s.resolve vf token fun s w => s.fail vf w).bump := rfl

section
variable {s : State} {token team grp k : Nat} {t : Team} {g : Group} (vf split : Nat)
  (ht : s.residents.find? (fun p => p.2.id == team) = some (k, t)) (hg : t.group? grp = some g) (hw : g.pageWait = some token)
include ht hg hw

/-- The answer of a group that finds no free context is kept. -/
theorem State.resolveGroup_kept (fault : Option FaultRec) (hn : s.restoreGroup k t g = none) :
    s.resolveGroup vf token team grp split fault = s.keepFaultAnswer vf token fault.isNone := by
  simp only [State.resolveGroup, ht, hg, hw, hn, ne_eq, not_true_eq_false, if_false]

/-- RETRY of a group that is back on its core: it goes on. -/
theorem State.resolveGroup_retry {u : State} (hu : s.restoreGroup k t g = some u) :
    s.resolveGroup vf token team grp split none =
      (u.dropWait vf token).settleGroup { core := k, team := team, grp := grp, split := split } := by
  simp only [State.resolveGroup, ht, hg, hw, hu, ne_eq, not_true_eq_false, if_false]

/-- FAIL of a group that is back on its core: its split takes the fault. -/
theorem State.resolveGroup_fail {u : State} (hu : s.restoreGroup k t g = some u) (f : FaultRec)
    (hs : ((u.dropWait vf token).split? { core := k, team := team, grp := grp, split := split }).isSome = true) :
    s.resolveGroup vf token team grp split (some f) =
      ((u.dropWait vf token).enterFault { core := k, team := team, grp := grp, split := split } f).settleGroup
        { core := k, team := team, grp := grp, split := split } := by
  simp only [State.resolveGroup, ht, hg, hw, hu, hs, ne_eq, not_true_eq_false, if_false, if_true]

end

theorem State.restoreGroup_none {s : State} {k : Nat} {t : Team} (g : Group) (h : (s.core k).choosePart t.kernel.vregs = none) :
    s.restoreGroup k t g = none := by rw [State.restoreGroup, h]; rfl

/-- A context that is free takes the group, and no memory changes. -/
theorem State.restoreGroup_some {s : State} {k part : Nat} {t : Team} (g : Group) (h : (s.core k).choosePart t.kernel.vregs = some part) :
    ∃ u : State, s.restoreGroup k t g = some u ∧ u.dram = s.dram := by
  rw [State.restoreGroup, h]
  exact ⟨_, rfl, rfl⟩

/-- A wait that has been answered is gone from its function. -/
theorem State.vf?_dropWait {s : State} {vf : Nat} {v : Vf} (h : s.vf? vf = some v) (token : Nat) :
    (s.dropWait vf token).vf? vf = some { v with waits := v.waits.filter fun w => w.token != token } := by
  rw [State.dropWait]
  exact State.modVf_found (fun _ => rfl) h

@[simp] theorem State.dropWait_dram (s : State) (vf token : Nat) : (s.dropWait vf token).dram = s.dram := rfl
@[simp] theorem State.dropWait_core (s : State) (vf token k : Nat) : (s.dropWait vf token).core k = s.core k := rfl

/-- RETRY of a copy: its request may be issued again. -/
theorem State.retry_copy (s : State) (vf : Nat) {w : FaultWait} {k id : Nat} (hw : w.who = .copy k id) :
    s.retry vf w = (s.dropWait vf w.token).modCore k fun c =>
      { c with copyFault := updateIf (fun q => q.id == id) (fun q => { q with token := none }) c.copyFault } := by rw [State.retry, hw]

/-- FAIL of a draw: the subscription ends with an event. -/
theorem State.fail_draw {s : State} {vf : Nat} {v : Vf} {w : FaultWait} {k h team : Nat} {b : Subscription} (hv : s.vf? vf = some v)
    (hw : w.who = .draw k h team) (hb : (s.core k).subs.find? (fun b => b.header == h && b.team == team) = some b) :
    ∃ e, s.fail vf w = ((s.dropWait vf w.token).modCore k fun c => { c with subs := c.subs.filter fun x => x.entry != b.entry }).post e := by
  rw [State.fail, hw]
  dsimp only
  rw [State.dropWait_core, hb, State.vf?_dropWait hv]
  exact ⟨_, rfl⟩

end Sys2Proof.Machine
end

section
/-!
The parts of O42, and the theorem that settles it.
-/
namespace Sys2Proof.Machine

/-- R73: CONS tells the dirty log its room, and nothing else moves. -/
theorem dirtyRingRoom_spec (s : State) (vf cons : Nat) (v : Vf) (h : s.vf? vf = some v) :
    let r : Ring := { v.dirty with cons := cons % 2 ^ 64 }
    ∃ t : State, exec (.dirtyRingRoom vf cons) s = .next t ∧ t.vf? vf = some { v with dirty := { r with told := r.told && r.full } } ∧
      t.dram = s.dram ∧ t.cores = s.cores ∧ t.reqs = s.reqs := by
  intro r
  have hring : s.ring? (.dirty vf) = some v.dirty := by rw [State.ring?, h]; rfl
  have hw : s.writeRing (.dirty vf) (.cons cons) = s.setRing (.dirty vf) { r with told := r.told && r.full } := by
    rw [State.writeRing_eq hring, State.ringWritten_eq s (n := .dirty vf) fun _ => RingName.noConfusion]
    rfl
  refine ⟨(s.writeRing (.dirty vf) (.cons cons)).bump, rfl, ?_, ?_, ?_, ?_⟩
  · rw [hw]
    exact State.vf?_setRing_dirty h _
  · rw [State.bump_dram, hw, State.setRing_dram]
  · rw [State.bump_cores, hw, State.setRing_cores]
  · rw [State.bump_reqs, hw, State.setRing_reqs]

/-- R4, R287: a field of a control block written by the host, in the device's copy and in host memory. -/
theorem hostStep_ring_spec (s : State) (n : RingName) (r : Ring) (w : RingWrite) (h : s.ring? n = some r) (hn : ∀ v, n ≠ .faults v) :
    let r' := r.written (ringOfCommands n) w
    (s.hostStep (.ring n w)).ring? n = some { r' with told := r.told && r'.full } ∧
    (r.block ≠ 0 → r.block % 4096 + 32 ≤ 4096 → s.host.wf = true →
      (s.hostStep (.ring n w)).host.readBytes (hostAddress (ringFunction n) r.block % 2 ^ 40) 32 = bytesOfNat 32 r'.word) := by
  intro r'
  have hw : s.hostStep (.ring n w) = s.setRing n { r' with told := r.told && r'.full } := by
    rw [State.hostStep, State.writeRing_eq h, State.ringWritten_eq s hn, Ring.written_told]
  have hblock : r'.block = r.block := r.written_block _ w
  rw [hw]
  refine ⟨State.ring?_setRing h _, fun hb hp hwf => ?_⟩
  rw [← hblock] at hb hp ⊢
  exact s.readBytes_setRing n { r' with told := r.told && r'.full } hb hp hwf

/-- R4: which fields of a ring the host writes. -/
theorem written_fields (r : Ring) (c : Bool) (n : Nat) :
    (r.written c (.base n)).base = n % 2 ^ 64 ∧ (r.written c (.logn n)).logn = n % 32 ∧ r.written c .clearOvf = { r with ovf := false } ∧
    (r.written false (.cons n)).cons = n % 2 ^ 64 ∧ r.written false (.prod n) = r ∧ (r.written true (.prod n)).prod = n % 2 ^ 64 ∧
    r.written true (.cons n) = r := ⟨rfl, rfl, rfl, rfl, rfl, rfl, rfl⟩

/-- R290: the faults held at their sources are posted while the ring has room. -/
theorem faultRingRoom_spec (s : State) (vf cons : Nat) (v : Vf) (h : s.vf? vf = some v) :
    ∃ (t : State) (v' : Vf), exec (.faultRingRoom vf cons) s = .next t ∧ t.vf? vf = some v' ∧ t.dram = s.dram ∧ t.cores = s.cores ∧
      v'.faults.cons = cons % 2 ^ 64 ∧ ((∀ w ∈ v'.waits, w.posted = true) ∨ v'.faults.full = true ∨ v'.faults.enabled = false) := by
  have hring : s.ring? (.faults vf) = some v.faults := by rw [State.ring?, h]; rfl
  let r := v.faults.written false (.cons cons)
  let q : Ring := { r with told := r.told && r.stuck (.faults vf) }
  have hq : (s.setRing (.faults vf) q).vf? vf = some { v with faults := q } := State.vf?_setRing_faults h q
  have hw : s.writeRing (.faults vf) (.cons cons) = State.postHeld v.waits.length (s.setRing (.faults vf) q) vf := by
    rw [State.writeRing_eq hring, State.ringWritten_faults h]
    rfl
  obtain ⟨hd, hc, v', hv', hcons, hend⟩ := State.postHeld_posts v.waits.length hq (List.length_filter_le _ _)
  refine ⟨(s.writeRing (.faults vf) (.cons cons)).bump, v', rfl, ?_, ?_, ?_, hcons, ?_⟩
  · rw [hw]
    exact hv'
  · rw [State.bump_dram, hw, hd, State.setRing_dram]
  · rw [State.bump_cores, hw, hc, State.setRing_cores]
  · refine hend.imp_left fun hnone w hmem => ?_
    simpa using List.filter_eq_nil_iff.1 hnone w hmem

/-- R72: no cached translation of the range is left, and the command names every access under way that used one. -/
theorem invalidate_spec (s : State) (vf lo hi : Nat) :
    ∃ t : State, exec (.invalidate vf lo hi) s = .next t ∧ t.dram = s.dram ∧ t.reqs = s.reqs ∧
      (∀ p ∈ t.cores, ∀ e ∈ p.2.tlb, e.vf = vf → touches lo hi e.va e.page.size = false) ∧
      (∀ p ∈ t.slices, ∀ e ∈ p.2.tlb, e.vf = vf → touches lo hi e.va e.page.size = false) ∧
      (∀ p ∈ t.cores, ∀ f ∈ p.2.fetches, ∀ g ∈ f.got, g.1 < 2 ^ 64) ∧
      (∃ x ∈ t.invals, x.id = s.nextId ∧ x.vf = vf ∧
        ∀ q ∈ s.reqs, q.vf = vf → q.done = false → touches lo hi q.page q.size = true → q.id ∈ x.ids) := by
  refine ⟨_, rfl, rfl, rfl, ?_, ?_, ?_, _, List.mem_append_right _ (List.mem_singleton_self _), rfl, rfl, ?_⟩
  · intro p hp e he hv
    obtain ⟨p₀, -, rfl⟩ := List.mem_map.1 hp
    exact dropXlates_untouched he hv
  · intro p hp e he hv
    obtain ⟨p₀, -, rfl⟩ := List.mem_map.1 hp
    exact dropXlates_untouched he hv
  · intro p hp f hf g hg
    obtain ⟨p₀, -, rfl⟩ := List.mem_map.1 hp
    obtain ⟨f₀, -, rfl⟩ := List.mem_map.1 hf
    exact Fetch.dropWalks_got hg
  · intro q hq hv hd ht
    refine List.mem_append_left _ (List.mem_append_left _ (List.mem_map_of_mem (List.mem_filter.2 ⟨hq, ?_⟩)))
    simp [hv, hd, ht]

/-- R72: INVALIDATE completes once the accesses it names have, and not before. -/
theorem invalidateComplete_spec (s : State) (id : Nat) (x : Invalidation) (h : s.invals.find? (fun x => x.id == id) = some x) :
    ((∃ q ∈ s.reqs, q.id ∈ x.ids ∧ q.done = false) → exec (.invalidateComplete id) s = .next s.bump) ∧
    ((∀ q ∈ s.reqs, q.id ∈ x.ids → q.done = true) → (∀ m ∈ s.msgs, m.id ∉ x.ids) →
      (∀ c ∈ s.cores, ∀ o ∈ c.2.outs, ∀ n ∈ x.ids, n ∉ o.finish.ids) →
      ∃ t : State, exec (.invalidateComplete id) s = .next t ∧ (∀ y ∈ t.invals, y.id ≠ id) ∧
        t.statuses = s.statuses ++ [{ command := "INVALIDATE", vf := x.vf, status := "OK", value := id }]) := by
  have hexec : exec (.invalidateComplete id) s = _ := execInvalidateComplete_eq h
  constructor
  · rintro ⟨q, hq, hid, hd⟩
    have hopen : x.ids.any s.accessOpen = true := List.any_eq_true.2 ⟨q.id, hid, (s.accessOpen_iff q.id).2 (.inl ⟨q, hq, rfl, hd⟩)⟩
    rw [hexec, if_pos hopen]
  · intro hreqs hmsgs houts
    have hclosed : ¬x.ids.any s.accessOpen = true := by
      rw [List.any_eq_true]
      rintro ⟨n, hn, hopen⟩
      obtain ⟨q, hq, rfl, hd⟩ | ⟨m, hm, rfl⟩ | ⟨c, hc, o, ho, hin⟩ := (s.accessOpen_iff n).1 hopen
      · exact Bool.noConfusion (hd.symm.trans (hreqs q hq hn))
      · exact hmsgs m hm hn
      · exact houts c hc o ho n hn hin
    rw [hexec, if_neg hclosed]
    refine ⟨_, rfl, fun y hy => ?_, ?_⟩
    · rw [State.bump_invals, State.status_invals] at hy
      simpa using (List.mem_filter.1 hy).2
    · rw [State.bump_statuses, State.status_statuses]

/-- R289: the answers to a function that is not there. -/
theorem resolve_refused (s : State) (vf token : Nat) (h : s.vf? vf = none) :
    exec (.resolveRetry vf token) s = .next (s.status "RESOLVE" vf "REFUSED" token).bump ∧
    exec (.resolveFail vf token) s = .next (s.status "RESOLVE" vf "REFUSED" token).bump := by
  rw [exec_resolveRetry, exec_resolveFail, State.resolve_absent token _ h, State.resolve_absent token _ h]
  exact ⟨rfl, rfl⟩

/-- R289: a token that nothing waits under. -/
theorem resolve_idle (s : State) (vf token : Nat) (v : Vf) (h : s.vf? vf = some v) (hw : v.waitOf token = none) :
    exec (.resolveRetry vf token) s = .next (s.status "RESOLVE" vf "OK" token).bump ∧
    exec (.resolveFail vf token) s = .next (s.status "RESOLVE" vf "OK" token).bump := by
  rw [exec_resolveRetry, exec_resolveFail, State.resolve_no_wait _ h hw, State.resolve_no_wait _ h hw]
  exact ⟨rfl, rfl⟩

/-- R289: an answered token is handed to what waits under it, after the status record. -/
theorem exec_resolve_wait {s : State} {vf token : Nat} {v : Vf} {w : FaultWait} (h : s.vf? vf = some v) (hw : v.waitOf token = some w) :
    exec (.resolveRetry vf token) s = .next ((s.status "RESOLVE" vf "OK" token).retry vf w).bump ∧
    exec (.resolveFail vf token) s = .next ((s.status "RESOLVE" vf "OK" token).fail vf w).bump := by
  rw [exec_resolveRetry, exec_resolveFail, State.resolve_wait _ h hw, State.resolve_wait _ h hw]
  exact ⟨rfl, rfl⟩

/-- R289: a group goes on, or takes its fault, where a context is free; else its answer is kept. -/
theorem resolve_group_spec (s : State) (vf token : Nat) (v : Vf) (w : FaultWait) (k team grp sp : Nat) (t : Team) (g : Group)
    (h : s.vf? vf = some v) (hw : v.waitOf token = some w) (hwho : w.who = .group k team grp sp)
    (ht : s.residents.find? (fun p => p.2.id == team) = some (k, t)) (hg : t.group? grp = some g) (hp : g.pageWait = some token)
    (htok : w.token = token) :
    let s' := s.status "RESOLVE" vf "OK" token
    let r : SplitRef := { core := k, team := team, grp := grp, split := sp }
    ((s.core k).choosePart t.kernel.vregs = none →
      exec (.resolveRetry vf token) s = .next (s'.keepFaultAnswer vf token true).bump ∧
      exec (.resolveFail vf token) s = .next (s'.keepFaultAnswer vf token false).bump) ∧
    (∀ part, (s.core k).choosePart t.kernel.vregs = some part →
      ∃ u : State, s'.restoreGroup k t g = some u ∧ u.dram = s.dram ∧
        exec (.resolveRetry vf token) s = .next ((u.dropWait vf token).settleGroup r).bump ∧
        (((u.dropWait vf token).split? r).isSome = true →
          exec (.resolveFail vf token) s = .next (((u.dropWait vf token).enterFault r w.fault).settleGroup r).bump)) := by
  intro s' r
  obtain ⟨hretry, hfail⟩ := exec_resolve_wait h hw
  have hr : s'.retry vf w = s'.resolveGroup vf token team grp sp none := by rw [State.retry, hwho, htok]
  have hf : s'.fail vf w = s'.resolveGroup vf token team grp sp (some w.fault) := by rw [State.fail, hwho, htok]
  have ht' : s'.residents.find? (fun p => p.2.id == team) = some (k, t) := by
    rw [State.residents, State.status_cores]
    exact ht
  have hcore : s'.core k = s.core k := s.status_core _ _ _ _ k
  rw [hretry, hfail, hr, hf]
  constructor
  · intro hnone
    have hn := State.restoreGroup_none (s := s') g (by rw [hcore, hnone])
    rw [State.resolveGroup_kept vf sp ht' hg hp none hn, State.resolveGroup_kept vf sp ht' hg hp (some w.fault) hn]
    exact ⟨rfl, rfl⟩
  · intro part hsome
    obtain ⟨u, hu, hd⟩ := State.restoreGroup_some (s := s') g (by rw [hcore, hsome])
    refine ⟨u, hu, hd.trans (s.status_dram _ _ _ _), ?_, fun hs => ?_⟩
    · rw [State.resolveGroup_retry vf sp ht' hg hp hu]
    · rw [State.resolveGroup_fail vf sp ht' hg hp hu w.fault hs]

/-- R289: RETRY of a copy lets it ask again, and drops the wait. -/
theorem resolveRetry_copy_spec (s : State) (vf token : Nat) (v : Vf) (w : FaultWait) (k id : Nat) (h : s.vf? vf = some v)
    (hw : v.waitOf token = some w) (hwho : w.who = .copy k id) :
    ∃ (t : State) (v' : Vf), exec (.resolveRetry vf token) s = .next t ∧ t.vf? vf = some v' ∧ (∀ x ∈ v'.waits, x.token ≠ token) ∧
      (∀ q ∈ (t.core k).copyFault, q.id = id → q.token = none) ∧ t.dram = s.dram := by
  obtain ⟨q, hq⟩ := s.vf?_status "RESOLVE" vf "OK" token h
  obtain ⟨hretry, -⟩ := exec_resolve_wait h hw
  rw [State.retry_copy _ vf hwho, Vf.waitOf_token hw] at hretry
  refine ⟨_, _, hretry, State.vf?_dropWait hq token, fun x hx => ?_, fun y hy hid => ?_, ?_⟩
  · simpa using (List.mem_filter.1 hx).2
  · rw [State.core_of_cores (State.bump_cores _), State.modCore_core] at hy
    obtain ⟨y₀, -, rfl⟩ := List.mem_map.1 hy
    by_cases hy₀ : y₀.id = id
    · simp [hy₀]
    · simp [hy₀] at hid
  · rw [State.bump_dram, State.modCore_dram, State.dropWait_dram, State.status_dram]

/-- R289: FAIL of a draw ends its subscription. -/
theorem resolveFail_draw_spec (s : State) (vf token : Nat) (v : Vf) (w : FaultWait) (k h : Nat) (b : Subscription) (team : Nat)
    (hv : s.vf? vf = some v) (hw : v.waitOf token = some w) (hwho : w.who = .draw k h team)
    (hb : (s.core k).subs.find? (fun b => b.header == h && b.team == team) = some b) :
    ∃ t : State, exec (.resolveFail vf token) s = .next t ∧ (∀ x ∈ (t.core k).subs, x.entry ≠ b.entry) ∧ t.dram = s.dram := by
  obtain ⟨q, hq⟩ := s.vf?_status "RESOLVE" vf "OK" token hv
  obtain ⟨e, he⟩ := State.fail_draw hq hwho (by rw [State.status_core, hb])
  obtain ⟨-, hfail⟩ := exec_resolve_wait hv hw
  rw [he] at hfail
  refine ⟨_, hfail, fun x hx => ?_, ?_⟩
  · rw [State.core_of_cores (State.bump_cores _), State.core_of_cores (State.post_cores _ e), State.modCore_core] at hx
    simpa using (List.mem_filter.1 hx).2
  · rw [State.bump_dram, ((State.Keeps.refl _).post e).dram, State.modCore_dram, State.dropWait_dram, State.status_dram]

end Sys2Proof.Machine

open Sys2Proof Sys2Proof.Machine

/-- Settles O42: each part by its own rule, above; the rings by what a changed control block leaves alone, the posting of held faults by an
induction over the faults still held. -/
theorem hostResolves : Obligations.HostResolves := by
  unfold Obligations.HostResolves
  refine ⟨dirtyRingRoom_spec, fun r hc _ => r.full_iff hc, ?_, hostStep_ring_spec, written_fields, fun s a b hb => State.hostWrites_of_no_block hb _,
    faultRingRoom_spec, invalidate_spec, invalidateComplete_spec, resolve_refused, resolve_idle, resolve_group_spec, resolveRetry_copy_spec,
    resolveFail_draw_spec⟩
  intro s core vf grid owner key x v hv hl hn
  have hlog := State.logWrite_wanted core grid owner hv hl hn
  exact ⟨fun hroom => by rw [hlog, hroom]; rfl, fun hfull => by rw [hlog, hfull]; rfl, State.logPage_spec core grid owner key x hv⟩
end

section
/-!
SUPPORT. A tick of device time (01 R16), and the records of the dies (02 R33).
-/
namespace Sys2Proof.Machine

/-! ## Device time (R16) -/

theorem exec_deviceTimeTick (s : State) : exec .deviceTimeTick s = .next (if s.tickBusy then s else s.tick).bump := rfl

/-- Where no answer is kept, no group returns with a new tick (R289). -/
theorem State.restoreAnswered_of_unanswered {s : State} (h : ∀ v ∈ s.vfs, ∀ w ∈ v.waits, w.answer = none) : s.restoreAnswered = s := by
  unfold State.restoreAnswered
  refine List.foldlRecOn (motive := fun u => u = s) _ _ rfl fun u hu v hv => ?_
  refine List.foldlRecOn (motive := fun u => u = s) _ _ hu fun u hu w hw => ?_
  rw [h v hv w hw]
  exact hu

/-- A tick is the next time, at which answered groups return and what is due settles. -/
theorem State.tick_eq (s : State) : ∃ u : State, s.tick = u.restoreAnswered.settleDue ∧ u.time = s.time + 1 ∧ u.dram = s.dram ∧
    u.slices = s.slices ∧ u.vfs = s.vfs := ⟨_, rfl, rfl, rfl, rfl, rfl⟩

/-- R16: a tick counts device time on by one, and leaves what memory and the slices hold. -/
theorem State.tick_spec {s : State} (h : ∀ v ∈ s.vfs, ∀ w ∈ v.waits, w.answer = none) :
    s.tick.time = s.time + 1 ∧ s.tick.dram = s.dram ∧ s.tick.slices = s.slices := by
  obtain ⟨u, htick, htime, hdram, hslices, hvfs⟩ := s.tick_eq
  have hkeeps : u.Keeps u.settleDue := (State.Keeps.refl u).settleDue
  rw [htick, State.restoreAnswered_of_unanswered (hvfs ▸ h)]
  exact ⟨hkeeps.time.trans htime, hkeeps.dram.trans hdram, hkeeps.slices.trans hslices⟩

/-! ## Dies (R33) -/

theorem exec_temperatureReport (die c : Nat) (s : State) : exec (.temperatureReport die c) s =
    .next (s.modDie die fun d => { d with celsius := c, interval := refreshInterval c }).bump := rfl
theorem exec_dramRefresh (die : Nat) (s : State) : exec (.dramRefresh die) s =
    .next (s.modDie die fun d => { d with refreshes := d.refreshes + 1 }).bump := rfl

theorem State.modDie_dies_self {s : State} {n : Nat} {d : Die} (h : s.dies[n]? = some d) (f : Die → Die) :
    (s.modDie n f).dies[n]? = some (f d) := by
  simp [State.modDie, h]

theorem State.modDie_dies_ne (s : State) {n m : Nat} (h : m ≠ n) (f : Die → Die) : (s.modDie n f).dies[m]? = s.dies[m]? := by
  simp [State.modDie, h]

end Sys2Proof.Machine
end

section
/-!
SUPPORT. Suspect units, self-tests and the spares that a start needs (21 R317, R318).
-/
namespace Sys2Proof.Machine

theorem exec_unitMarkedSuspect (u : PartUnit) (s : State) : exec (.unitMarkedSuspect u) s =
    .next ({ s with suspects := if s.suspects.contains u then s.suspects else s.suspects ++ [u] } : State).bump := rfl

/-- A list to which a unit is added where it is not yet in it. -/
theorem mem_marked {l : List PartUnit} {u x : PartUnit} : x ∈ (if l.contains u then l else l ++ [u]) ↔ x = u ∨ x ∈ l := by
  split
  · rename_i hu
    have hmem : u ∈ l := List.contains_iff_mem.1 hu
    exact ⟨.inr, fun h => h.elim (fun hx => hx ▸ hmem) id⟩
  · rw [List.mem_append, List.mem_singleton, or_comm]

/-! ## What a self-test finds (R318) -/

theorem State.mem_defects_of_mem_selfTest {s : State} {full : Bool} {u : PartUnit} (h : u ∈ s.selfTest full) : u ∈ s.defects := by
  obtain ⟨p, hp, rfl⟩ := List.mem_map.1 h
  exact (List.of_mem_zip (List.mem_filter.1 hp).1).2

/-- A full self-test finds every failed unit. -/
theorem State.selfTest_full (s : State) : s.selfTest true = s.defects := by
  have hall : (((List.range s.defects.length).zip s.defects).filter fun p => true || s.drawBool 27 p.1) =
      (List.range s.defects.length).zip s.defects := List.filter_eq_self.2 fun _ _ => rfl
  rw [State.selfTest, hall]
  exact List.map_snd_zip (Nat.le_of_eq List.length_range.symm)

theorem State.mem_found {s : State} {full : Bool} {u : PartUnit} :
    u ∈ (s.found full).suspects ↔ u ∈ s.suspects ∨ u ∈ s.selfTest full := by
  by_cases h : u ∈ s.suspects <;> simp [State.found, h]

/-! ## Spares that do not suffice (R317) -/

theorem State.startFails_iff (s : State) : s.startFails = true ↔
    (∃ d, d < 4 ∧ (4 < (suspectCores s.suspects d).length ∨ 4 < (suspectSlices s.suspects d).length ∨
      Config.spareRows < suspectRows s.suspects d + s.rowsUsed d ∨ Config.spareBanks < suspectBanks (s.suspects ++ s.dramSpares) d ∨
      16 < suspectChannels (s.suspects ++ s.dramSpares) d)) ∨
    (∃ p, p < 32 ∧ 1 < suspectLanes s.suspects p + (s.retrained.filter fun x => x.1 == p).length) := by
  simp only [State.startFails, Bool.or_eq_true, List.any_eq_true, List.mem_range, decide_eq_true_eq, gt_iff_lt, or_assoc]

/-! ## Maps of logical units onto sites (R11, R318) -/

theorem suspectCores_subset {l m : List PartUnit} (h : l ⊆ m) (d : Nat) : suspectCores l d ⊆ suspectCores m d := List.filterMap_subset _ h
theorem suspectSlices_subset {l m : List PartUnit} (h : l ⊆ m) (d : Nat) : suspectSlices l d ⊆ suspectSlices m d := List.filterMap_subset _ h

/-- A map that avoids some suspects avoids fewer. -/
theorem mapOk_of_subset {m : List Nat} {n sites : Nat} {a b : Nat → List Nat} (h : ∀ d, a d ⊆ b d) (hb : mapOk m n sites b = true) :
    mapOk m n sites a = true := by
  simp only [mapOk, List.all_eq_true, Bool.and_eq_true, decide_eq_true_eq, Bool.not_eq_true', List.contains_eq_mem,
    decide_eq_false_iff_not] at hb ⊢
  intro d hd
  obtain ⟨hsites, honce⟩ := hb d hd
  exact ⟨fun x hx => ⟨(hsites x hx).1, fun hmem => (hsites x hx).2 (h d hmem)⟩, honce⟩

/-- Maps that fit what a self-test has found fitted before it. -/
theorem State.mapsOk_of_found {s : State} {full : Bool} {cm sm : List Nat} (h : (s.found full).mapsOk cm sm = true) :
    s.mapsOk cm sm = true := by
  have hmore : s.suspects ⊆ (s.found full).suspects := List.subset_append_left _ _
  rw [State.mapsOk, Bool.and_eq_true] at h ⊢
  exact ⟨mapOk_of_subset (suspectCores_subset hmore) h.1, mapOk_of_subset (suspectSlices_subset hmore) h.2⟩

/-- Where no site is suspect, none is replaced. -/
theorem substitute_nil (l : List Nat) (sites : Nat) : substitute l sites [] = l := by
  unfold substitute
  refine List.foldlRecOn (motive := fun m => m = l) _ _ rfl fun m hm i _ => ?_
  exact (if_neg Bool.false_ne_true).trans hm

/-- Lists of one length in a row: how many elements they have. -/
theorem length_flatMap_range {α : Type} {f : Nat → List α} {n : Nat} (hf : ∀ d, (f d).length = n) (m : Nat) :
    ((List.range m).flatMap f).length = n * m := by
  induction m with
  | zero => rfl
  | succ m ih => rw [List.range_succ, List.flatMap_append, List.flatMap_singleton, List.length_append, ih, hf, Nat.mul_succ]

/-- And where each of them stands. -/
theorem getElem?_flatMap_range {α : Type} {f : Nat → List α} {n : Nat} (hf : ∀ d, (f d).length = n) {m d i : Nat} (hd : d < m)
    (hi : i < n) : ((List.range m).flatMap f)[n * d + i]? = (f d)[i]? := by
  induction m with
  | zero => omega
  | succ m ih =>
    rw [List.range_succ, List.flatMap_append, List.flatMap_singleton]
    obtain hlt | rfl := Nat.lt_succ_iff_lt_or_eq.1 hd
    · have hin : n * d + i < n * m := calc
        n * d + i < n * d + n := by omega
        _ = n * (d + 1) := rfl
        _ ≤ n * m := Nat.mul_le_mul_left n hlt
      rw [List.getElem?_append_left (by rw [length_flatMap_range hf]; exact hin), ih hlt]
    · rw [List.getElem?_append_right (by rw [length_flatMap_range hf]; omega), length_flatMap_range hf, Nat.add_sub_cancel_left]

end Sys2Proof.Machine
end

section
/-!
SUPPORT. Starts (21 R318): what each attempt comes to, and the state a start leaves.
-/
namespace Sys2Proof.Machine

/-- A start that fails brings no spare in. -/
theorem State.startFailure_suspects (s : State) : s.startFailure.suspects = s.suspects := by
  simp [State.startFailure, State.started]

/-- A cold start that is attempted: its skew and maps can be, or the part has no start left. -/
theorem exec_coldStart_attempted {s : State} {skew cm sm : List Nat} (red : Bool)
    (h : (skewOk skew = true ∧ s.mapsOk cm sm = true) ∨ s.startFails = true) :
    exec (.coldStart red skew cm sm) s =
      if !s.firmwareOk then .next s.startFailure.bump
      else if (s.found true).startFails || !(s.found true).mapsOk cm sm then .next (s.found true).startFailure.bump
      else .next ((s.found true).started (if red then .reduced else .full) false skew cm sm).bump := by
  have hattempt : (!(skewOk skew && s.mapsOk cm sm) && !s.startFails) = false := by
    obtain ⟨hskew, hmaps⟩ | hfails := h
    · simp [hskew, hmaps]
    · simp [hfails]
  exact if_neg (hattempt ▸ Bool.false_ne_true)

/-- The maps of a warm start: those kept, with the lowest free sites in place of suspect ones. -/
def State.warmCoreMap (s : State) : List Nat :=
  (List.range 4).flatMap fun d => substitute (mapOf s.coreMap 48 d) 52 (suspectCores s.suspects d)
def State.warmSliceMap (s : State) : List Nat :=
  (List.range 4).flatMap fun d => substitute (mapOf s.sliceMap 64 d) 68 (suspectSlices s.suspects d)

theorem exec_warmStart_attempted {s : State} {skew : List Nat} (red : Bool) (h : s.startFailed = false) (hs : skewOk skew = true) :
    exec (.warmStart red skew) s =
      if !s.firmwareOk then .next s.startFailure.bump
      else if (s.found false).startFails || decide ((s.found false).suspects.length > s.suspects.length) then
        .next (s.found false).startFailure.bump
      else .next (s.started (if red then .reduced else .full) false skew s.warmCoreMap s.warmSliceMap).bump := by
  have hattempt : (s.startFailed || !skewOk skew) = false := by rw [h, hs]; rfl
  exact if_neg (hattempt ▸ Bool.false_ne_true)

/-- Without suspects a warm start keeps the map of the cores. -/
theorem State.warmCoreMap_of_no_suspects {s : State} (h : s.suspects = []) {d n : Nat} (hd : d < 4) (hn : n < 48) :
    s.warmCoreMap[48 * d + n]? = some (s.coreMap.getD (48 * d + n) n) := by
  have hkept : s.warmCoreMap = (List.range 4).flatMap (mapOf s.coreMap 48) := by
    unfold State.warmCoreMap
    congr 1
    funext d
    rw [h]
    exact substitute_nil _ 52
  rw [hkept, getElem?_flatMap_range (fun d => by simp [mapOf]) hd hn]
  simp [mapOf, hn]

end Sys2Proof.Machine
end

section
/-!
SUPPORT. Resident teams asked to stop (18 R291): what a change of one team does to the others, and that a list of teams is asked whole.
-/
namespace Sys2Proof.Machine

/-! ## Lists kept by key -/

theorem getKey_mem {α : Type} (d : α) (l : List (Nat × α)) (n : Nat) : getKey d l n = d ∨ (n, getKey d l n) ∈ l := by
  induction l with
  | nil => exact .inl rfl
  | cons p r ih =>
    obtain ⟨k, v⟩ := p
    rw [getKey]
    split
    · rename_i hk
      exact .inr (hk ▸ List.mem_cons_self)
    · exact ih.imp_right (List.mem_cons_of_mem _)

/-- Setting an entry adds no key but its own. -/
theorem keys_setKey_subset {α : Type} {l : List (Nat × α)} {n m : Nat} {x : α} (h : m ∈ (setKey l n x).map (·.1)) :
    m = n ∨ m ∈ l.map (·.1) := by
  induction l with
  | nil => exact .inl (List.mem_singleton.1 h)
  | cons p r ih =>
    obtain ⟨k, v⟩ := p
    rw [setKey] at h
    split at h
    · exact .inr h
    · obtain rfl | hr := List.mem_cons.1 h
      · exact .inr List.mem_cons_self
      · exact (ih hr).imp_right (List.mem_cons_of_mem _)

theorem nodup_keys_setKey {α : Type} {l : List (Nat × α)} (h : (l.map (·.1)).Nodup) (n : Nat) (x : α) :
    ((setKey l n x).map (·.1)).Nodup := by
  induction l with
  | nil => exact List.nodup_cons.2 ⟨List.not_mem_nil, List.Pairwise.nil⟩
  | cons p r ih =>
    obtain ⟨k, v⟩ := p
    obtain ⟨hk, hr⟩ := List.nodup_cons.1 h
    rw [setKey]
    split
    · exact h
    · rename_i hne
      exact List.nodup_cons.2 ⟨fun hmem => (keys_setKey_subset hmem).elim hne hk, ih hr⟩

/-- Where each key stands once, the entry set takes the place of the old one, and the others stay. -/
theorem mem_setKey {α : Type} {l : List (Nat × α)} (h : (l.map (·.1)).Nodup) {n : Nat} {x : α} {q : Nat × α} (hq : q ∈ setKey l n x) :
    q = (n, x) ∨ q.1 ≠ n ∧ q ∈ l := by
  induction l with
  | nil => exact .inl (List.mem_singleton.1 hq)
  | cons p r ih =>
    obtain ⟨k, v⟩ := p
    obtain ⟨hk, hr⟩ := List.nodup_cons.1 h
    rw [setKey] at hq
    split at hq
    · rename_i hkn
      subst hkn
      obtain rfl | hqr := List.mem_cons.1 hq
      · exact .inl rfl
      · exact .inr ⟨fun he => hk (List.mem_map.2 ⟨q, hqr, he⟩), List.mem_cons_of_mem _ hqr⟩
    · rename_i hkn
      obtain rfl | hqr := List.mem_cons.1 hq
      · exact .inr ⟨hkn, List.mem_cons_self⟩
      · exact (ih hr hqr).imp_right fun ⟨hne, hmem⟩ => ⟨hne, List.mem_cons_of_mem _ hmem⟩

/-! ## Resident teams -/

theorem State.mem_residents {s : State} {p : Nat × Team} : p ∈ s.residents ↔ ∃ c, (p.1, c) ∈ s.cores ∧ p.2 ∈ c.teams := by
  constructor
  · intro h
    obtain ⟨q, hq, hp⟩ := List.mem_flatMap.1 h
    obtain ⟨t, ht, rfl⟩ := List.mem_map.1 hp
    exact ⟨q.2, hq, ht⟩
  · rintro ⟨c, hc, ht⟩
    exact List.mem_flatMap.2 ⟨(p.1, c), hc, List.mem_map.2 ⟨p.2, ht, rfl⟩⟩

/-- A team on a core is resident. -/
theorem State.mem_residents_of_core {s : State} {k : Nat} {t : Team} (h : t ∈ (s.core k).teams) : (k, t) ∈ s.residents := by
  obtain hreset | hmem := getKey_mem Core.reset s.cores k
  · rw [State.core, hreset] at h
    exact absurd h List.not_mem_nil
  · exact State.mem_residents.2 ⟨s.core k, hmem, h⟩

theorem Core.mem_modTeam {c : Core} {n : Nat} {f : Team → Team} {t : Team} (h : t ∈ (c.modTeam n f).teams) :
    (∃ u, t = f u) ∨ t.id ≠ n ∧ t ∈ c.teams := by
  obtain ⟨u, hu, rfl⟩ := List.mem_map.1 h
  split
  · exact .inl ⟨u, rfl⟩
  · rename_i hne
    exact .inr ⟨fun he => hne (beq_iff_eq.2 he), hu⟩

/-- After a change of one team, a resident team is what the change makes, or another that was resident before. -/
theorem State.mem_residents_modTeam {s : State} (hs : (s.cores.map (·.1)).Nodup) {k n : Nat} {f : Team → Team} {p : Nat × Team}
    (h : p ∈ (s.modTeam k n f).residents) : (∃ u, p.2 = f u) ∨ ¬(k = p.1 ∧ n = p.2.id) ∧ p ∈ s.residents := by
  obtain ⟨c, hc, ht⟩ := State.mem_residents.1 h
  obtain he | ⟨hne, hold⟩ := mem_setKey hs hc
  · obtain ⟨rfl, rfl⟩ := Prod.mk.inj he
    refine (Core.mem_modTeam ht).imp_right fun ⟨hid, hmem⟩ => ⟨fun hk => hid hk.2.symm, State.mem_residents_of_core hmem⟩
  · exact .inr ⟨fun hk => hne hk.1.symm, State.mem_residents.2 ⟨c, hold, ht⟩⟩

/-- Of a list of teams asked to stop, none goes on. -/
theorem State.mem_residents_stopTeams (l : List (Nat × Team)) {s : State} (hs : (s.cores.map (·.1)).Nodup) {p : Nat × Team}
    (h : p ∈ (s.stopTeams l).residents) :
    p.2.stopping = true ∨ p ∈ s.residents ∧ ∀ q ∈ l, ¬(q.1 = p.1 ∧ q.2.id = p.2.id) := by
  induction l generalizing s with
  | nil => exact .inr ⟨h, fun _ hq => absurd hq List.not_mem_nil⟩
  | cons q r ih =>
    obtain hstop | ⟨hmem, hrest⟩ := ih (nodup_keys_setKey hs _ _) h
    · exact .inl hstop
    · obtain ⟨u, hu⟩ | ⟨hne, hold⟩ := State.mem_residents_modTeam hs hmem
      · exact .inl (by rw [hu])
      · exact .inr ⟨hold, List.forall_mem_cons.2 ⟨hne, hrest⟩⟩

/-- R319: all resident teams asked to stop, every one stops. -/
theorem State.stopTeams_residents {s : State} (hs : (s.cores.map (·.1)).Nodup) {p : Nat × Team}
    (h : p ∈ (s.stopTeams s.residents).residents) : p.2.stopping = true :=
  (State.mem_residents_stopTeams _ hs h).elim id fun ⟨hmem, hnone⟩ => absurd ⟨rfl, rfl⟩ (hnone p hmem)

theorem State.Keeps.stopTeams {s t : State} (h : s.Keeps t) (l : List (Nat × Team)) : s.Keeps (t.stopTeams l) := by
  unfold State.stopTeams
  exact h.foldl _ (fun u p => (State.Keeps.refl u).modTeam p.1 p.2.id _) l

end Sys2Proof.Machine
end

section
/-!
The parts of O41, and the theorem that settles it.
-/
namespace Sys2Proof.Machine

/-- R16: once nothing is left to do in a tick, device time counts on. -/
theorem deviceTimeTick_spec (s : State) (hidle : s.tickBusy = false) (h : ∀ v ∈ s.vfs, ∀ w ∈ v.waits, w.answer = none) :
    ∃ t : State, exec .deviceTimeTick s = .next t ∧ t.time = s.time + 1 ∧ t.dram = s.dram ∧ t.slices = s.slices :=
  ⟨s.tick.bump, by rw [exec_deviceTimeTick, hidle]; rfl, State.tick_spec h⟩

/-- R33: a report sets the refresh interval of its own die. -/
theorem temperatureReport_spec (s : State) (die c : Nat) (d : Die) (h : s.dies[die]? = some d) :
    ∃ t : State, exec (.temperatureReport die c) s = .next t ∧
      t.dies[die]? = some { d with celsius := c, interval := if c ≤ 85 then 3900 else if c ≤ 95 then 1950 else 980 } ∧
      (∀ n, n ≠ die → t.dies[n]? = s.dies[n]?) ∧ t.dram = s.dram ∧ t.cores = s.cores :=
  ⟨_, exec_temperatureReport die c s, State.modDie_dies_self h _, fun _ hn => s.modDie_dies_ne hn _, rfl, rfl⟩

/-- R33: a refresh changes no result. -/
theorem dramRefresh_spec (s : State) (die : Nat) (d : Die) (h : s.dies[die]? = some d) :
    ∃ t : State, exec (.dramRefresh die) s = .next t ∧ t.dies[die]? = some { d with refreshes := d.refreshes + 1 } ∧
      t.dram = s.dram ∧ t.reqs = s.reqs ∧ t.cores = s.cores ∧ t.slices = s.slices :=
  ⟨_, exec_dramRefresh die s, State.modDie_dies_self h _, rfl, rfl, rfl, rfl⟩

/-- R317: the unit is suspect from then on, and no other has become so. -/
theorem unitMarkedSuspect_spec (s : State) (u : PartUnit) :
    ∃ t : State, exec (.unitMarkedSuspect u) s = .next t ∧ u ∈ t.suspects ∧ (∀ x ∈ s.suspects, x ∈ t.suspects) ∧
      (∀ x ∈ t.suspects, x = u ∨ x ∈ s.suspects) ∧ t.dram = s.dram :=
  ⟨_, exec_unitMarkedSuspect u s, mem_marked.2 (.inl rfl), fun _ hx => mem_marked.2 (.inr hx), fun _ hx => mem_marked.1 hx, rfl⟩

/-- R317: a suspect row is replaced while its die has a spare row. -/
theorem onlineRowReplacement_spec (s : State) (die ch row : Nat) :
    (PartUnit.dramRow die ch row ∈ s.suspects → s.rowsUsed die < Config.spareRows →
      ∃ t : State, exec (.onlineRowReplacement die ch row) s = .next t ∧ t.suspects = s.suspects.erase (.dramRow die ch row) ∧
        (die, ch, row) ∈ t.replacedRows ∧ t.dram = s.dram ∧ t.reqs = s.reqs) ∧
    ((PartUnit.dramRow die ch row ∉ s.suspects ∨ Config.spareRows ≤ s.rowsUsed die) →
      exec (.onlineRowReplacement die ch row) s = .next s.bump) := by
  constructor
  · intro hsuspect hspare
    exact ⟨_, if_pos (by simp [hsuspect, hspare]), rfl, List.mem_append_right _ (List.mem_singleton_self _), rfl, rfl⟩
  · intro h
    refine if_neg ?_
    rw [Bool.and_eq_true, List.contains_iff_mem, decide_eq_true_eq]
    rintro ⟨hsuspect, hspare⟩
    exact h.elim (fun hn => hn hsuspect) (fun hn => Nat.not_le.2 hspare hn)

/-- R315, R317: a suspect lane is replaced while its port has its spare lane. -/
theorem fabricLaneRetrain_spec (s : State) (port lane : Nat) :
    (PartUnit.fabricLane port lane ∈ s.suspects → (∀ p ∈ s.retrained, p.1 ≠ port) →
      ∃ t : State, exec (.fabricLaneRetrain port lane) s = .next t ∧ t.suspects = s.suspects.erase (.fabricLane port lane) ∧
        t.retrained = s.retrained ++ [(port, lane)]) ∧
    ((∃ p ∈ s.retrained, p.1 = port) → exec (.fabricLaneRetrain port lane) s = .next s.bump) := by
  constructor
  · intro hsuspect hspare
    exact ⟨_, if_pos (by simpa [hsuspect] using fun a b hab => hspare (a, b) hab), rfl, rfl⟩
  · rintro ⟨p, hp, hport⟩
    have hused : (s.retrained.any fun p => p.1 == port) = true := List.any_eq_true.2 ⟨p, hp, beq_iff_eq.2 hport⟩
    exact if_neg (by simp [hused])

/-- R318: a full self-test finds every failed unit, a quick one some of them. -/
theorem found_spec (s : State) (u : PartUnit) : (u ∈ (s.found true).suspects ↔ u ∈ s.suspects ∨ u ∈ s.defects) ∧
    (u ∈ (s.found false).suspects → u ∈ s.suspects ∨ u ∈ s.defects) ∧ (u ∈ s.suspects → u ∈ (s.found false).suspects) := by
  refine ⟨?_, fun h => (State.mem_found.1 h).imp_right State.mem_defects_of_mem_selfTest, fun h => State.mem_found.2 (.inl h)⟩
  rw [State.mem_found, State.selfTest_full]

/-- R318: a cold start fails where the firmware does not verify, and where a unit found failed is in use or has no spare. -/
theorem coldStart_fails_spec (s : State) (red : Bool) (skew cm sm : List Nat)
    (h : (skewOk skew = true ∧ s.mapsOk cm sm = true) ∨ s.startFails = true) :
    (s.firmwareOk = false →
      ∃ t : State, exec (.coldStart red skew cm sm) s = .next t ∧ t.service = .off ∧ t.startFailed = true ∧ t.suspects = s.suspects) ∧
    (s.firmwareOk = true → ((s.found true).startFails = true ∨ (s.found true).mapsOk cm sm = false) →
      ∃ t : State, exec (.coldStart red skew cm sm) s = .next t ∧ t.service = .off ∧ t.startFailed = true ∧
        t.suspects = (s.found true).suspects) := by
  rw [exec_coldStart_attempted red h]
  constructor
  · intro hfw
    exact ⟨s.startFailure.bump, by simp [hfw], rfl, rfl, s.startFailure_suspects⟩
  · intro hfw hbad
    exact ⟨(s.found true).startFailure.bump, by simpa [hfw] using fun h1 h2 => by simp [h1, h2] at hbad, rfl, rfl,
      (s.found true).startFailure_suspects⟩

/-- R16, R318: a good cold start leaves the part as at reset, with its maps and the spares brought in. -/
theorem coldStart_good_spec (s : State) (red : Bool) (skew cm sm : List Nat) (hskew : skewOk skew = true) (hfw : s.firmwareOk = true)
    (hspares : (s.found true).startFails = false) (hmaps : (s.found true).mapsOk cm sm = true) :
    ∃ t : State, exec (.coldStart red skew cm sm) s = .next t ∧ t.service = (if red then .reduced else .full) ∧ t.startFailed = false ∧
      t.time = 0 ∧ t.dram = [] ∧ t.vfs = [] ∧ t.cores = [] ∧ t.slices = [] ∧ t.coreMap = cm ∧ t.sliceMap = sm ∧
      t.suspects = (s.found true).suspects.filter (fun u => !dramSwap u) ∧
      t.dramSpares = s.dramSpares ++ (s.found true).suspects.filter dramSwap ∧ t.host = s.host := by
  refine ⟨((s.found true).started (if red then .reduced else .full) false skew cm sm).bump, ?_, rfl, rfl, rfl, rfl, rfl, rfl, rfl, rfl, rfl,
    rfl, rfl, rfl⟩
  rw [exec_coldStart_attempted red (.inl ⟨hskew, State.mapsOk_of_found hmaps⟩), hfw, hspares, hmaps]
  rfl

/-- R16, R318: a warm start fails where the firmware does not verify and where its self-test finds a unit failed; a good one keeps the map. -/
theorem warmStart_spec (s : State) (red : Bool) (skew : List Nat) (h : s.startFailed = false) (hskew : skewOk skew = true) :
    (s.firmwareOk = false →
      ∃ t : State, exec (.warmStart red skew) s = .next t ∧ t.service = .off ∧ t.startFailed = true ∧ t.suspects = s.suspects) ∧
    (s.firmwareOk = true → ((s.found false).startFails = true ∨ s.suspects.length < (s.found false).suspects.length) →
      ∃ t : State, exec (.warmStart red skew) s = .next t ∧ t.service = .off ∧ t.startFailed = true ∧
        t.suspects = (s.found false).suspects) ∧
    (s.firmwareOk = true → (s.found false).startFails = false → (s.found false).suspects.length = s.suspects.length →
      ∃ t : State, exec (.warmStart red skew) s = .next t ∧ t.service = (if red then .reduced else .full) ∧ t.startFailed = false ∧
        t.time = 0 ∧ t.dram = [] ∧ t.vfs = [] ∧ t.cores = [] ∧
        (s.suspects = [] → ∀ d n, d < 4 → n < 48 → t.coreMap[48 * d + n]? = some (s.coreMap.getD (48 * d + n) n))) := by
  rw [exec_warmStart_attempted red h hskew]
  refine ⟨fun hfw => ?_, fun hfw hbad => ?_, fun hfw hspares hnew => ?_⟩
  · exact ⟨s.startFailure.bump, by simp [hfw], rfl, rfl, s.startFailure_suspects⟩
  · have hfails : ((s.found false).startFails || decide ((s.found false).suspects.length > s.suspects.length)) = true := by
      simpa using hbad
    exact ⟨(s.found false).startFailure.bump, by simp [hfw, hfails], rfl, rfl, (s.found false).startFailure_suspects⟩
  · exact ⟨(s.started (if red then .reduced else .full) false skew s.warmCoreMap s.warmSliceMap).bump, by simp [hfw, hspares, hnew],
      rfl, rfl, rfl, rfl, rfl, rfl, fun hnone _ _ hd hn => State.warmCoreMap_of_no_suspects hnone hd hn⟩

/-- R318: after a failed start a warm one does nothing. -/
theorem warmStart_after_failure (s : State) (red : Bool) (skew : List Nat) (h : s.startFailed = true) :
    exec (.warmStart red skew) s = .next s.bump := if_pos (by simp [h])

/-- R319: full service comes once no team is resident; until then every team is asked to stop. -/
theorem fullServiceChange_spec (s : State) : (s.service ≠ .reduced → exec .fullServiceChange s = .next s.bump) ∧
    (s.service = .reduced → s.residents = [] →
      ∃ t : State, exec .fullServiceChange s = .next t ∧ t.service = .full ∧ t.cores = s.cores ∧ t.dram = s.dram) ∧
    (s.service = .reduced → s.residents ≠ [] → (s.cores.map (·.1)).Nodup →
      ∃ t : State, exec .fullServiceChange s = .next t ∧ t.service = .reduced ∧ ∀ p ∈ t.residents, p.2.stopping = true) := by
  have hexec : exec .fullServiceChange s =
      if s.service != .reduced then .next s.bump
      else if s.residents.isEmpty then .next ({ s with service := .full } : State).bump
      else .next (s.stopTeams s.residents).bump := rfl
  rw [hexec]
  refine ⟨fun hs => if_pos (by simpa using hs), fun hs hr => ?_, fun hs hr hcores => ?_⟩
  · exact ⟨({ s with service := .full } : State).bump, by simp [hs, hr], rfl, rfl, rfl⟩
  · have hkeeps := (State.Keeps.refl s).stopTeams s.residents
    exact ⟨(s.stopTeams s.residents).bump, by simp [hs, hr], hkeeps.service.trans hs, fun p hp => State.stopTeams_residents hcores hp⟩

end Sys2Proof.Machine

open Sys2Proof Sys2Proof.Machine

/-- Settles O41: each part by its own rule, above; that every resident team stops by an induction over the teams asked. -/
theorem partLife : Obligations.PartLife := by
  unfold Obligations.PartLife
  refine ⟨fun s hbusy => by rw [exec_deviceTimeTick, hbusy]; rfl, deviceTimeTick_spec, temperatureReport_spec, dramRefresh_spec,
    fun _ => ⟨rfl, rfl⟩, unitMarkedSuspect_spec, onlineRowReplacement_spec, fabricLaneRetrain_spec, State.startFails_iff, found_spec,
    coldStart_fails_spec, coldStart_good_spec, warmStart_spec, warmStart_after_failure, fullServiceChange_spec⟩
end

section
/-!
The state right after a start (01 R16, 03 R38, 21 R318), and O53: what is not listed is at its reset value, and nothing is listed.
-/
namespace Sys2Proof.Machine

theorem State.reset_core (k : Nat) : State.reset.core k = Core.reset := rfl
theorem State.reset_slice (n : Nat) : State.reset.slice n = Slice.reset := rfl
theorem Slice.reset_slot (m : Nat) : Slice.reset.slot m = HingeSlot.reset := rfl
theorem State.reset_dram_read (a : Nat) : State.reset.dram.read a = 0 := rfl
theorem State.reset_canonical : State.reset.canonical = true := State.reset.canonical_iff.2 ⟨rfl, rfl⟩

theorem State.reset_dies_isSome (d : Nat) : (State.reset.dies[d]?).isSome = true ↔ d < 4 := by
  simp [State.reset]

end Sys2Proof.Machine

open Sys2Proof Sys2Proof.Machine

/-- Settles O53: a core, a slice or a slot that is not listed is at its reset value, and after a start none is listed. -/
theorem atReset : Obligations.AtReset := by
  unfold Obligations.AtReset
  intro s
  refine ⟨rfl, State.reset_dram_read, rfl, rfl, rfl, rfl, State.reset_canonical, rfl, rfl, rfl, rfl, fun n m => ?_, fun n => ?_,
    fun k => ?_, State.reset_dies_isSome⟩
  · rw [State.reset_slice, Slice.reset_slot]
    exact ⟨rfl, rfl, rfl, rfl, rfl, rfl, rfl⟩
  · rw [State.reset_slice]
    exact ⟨rfl, rfl⟩
  · rw [State.reset_core]
    exact ⟨rfl, rfl, rfl⟩
end

section
/-!
SUPPORT. The page-table walk (05 R69 to R71): what an errand knows of an entry, what the walk makes of each kind of entry at any level, and the
page that a leaf maps.
-/
namespace Sys2Proof.Machine

variable {f : Fetch} {own va n table level addr e pa : Nat} {ok : Bool} {v : VfConfig} {k : FaultKind} {m : Miss}

/-! ## Reads by physical address (R69) -/

theorem Fetch.phys_failed (ht : targetOf pa ≠ .absent) (he : f.errs.find? (fun e => e.2 == physKey pa) = some (k, physKey pa)) :
    f.phys pa n = .error (.fault k) := by
  simp [Fetch.phys, ht, he]

theorem Fetch.phys_asked_for (ht : targetOf pa ≠ .absent) (he : ∀ e ∈ f.errs, e.2 ≠ physKey pa) (hg : ∀ g ∈ f.got, g.1 ≠ physKey pa) :
    f.phys pa n = .error (.walk pa) := by
  have herr : f.errs.find? (fun e => e.2 == physKey pa) = none := by simpa using he
  have hgot : f.got.find? (fun g => g.1 == physKey pa) = none := by simpa using hg
  simp [Fetch.phys, ht, herr, hgot]

theorem Fetch.phys_come {b : List Byte} (ht : targetOf pa ≠ .absent) (he : ∀ e ∈ f.errs, e.2 ≠ physKey pa)
    (hg : f.got.find? (fun g => g.1 == physKey pa) = some (physKey pa, b)) : f.phys pa n = .ok ((b.drop (pa % 32)).take n) := by
  have herr : f.errs.find? (fun e => e.2 == physKey pa) = none := by simpa using he
  simp [Fetch.phys, ht, herr, hg]

/-! ## The fields of an entry (R70) -/

theorem pteV_eq_false (h : e % 2 = 0) : pteV e = false := by
  simp [pteV, h]

theorem pteV_eq_true (h : e % 2 = 1) : pteV e = true := by
  simp [pteV, h]

theorem pteLeaf_eq_false (h : e % 4 = 1) : pteLeaf e = false := by
  have hbit : e / 2 % 2 = 0 := by omega
  simp [pteLeaf, Nat.testBit_succ, hbit]

theorem pteLeaf_eq_true (h : e % 4 = 3) : pteLeaf e = true := by
  have hbit : e / 2 % 2 = 1 := by omega
  simp [pteLeaf, Nat.testBit_succ, hbit]

/-! ## One level of the walk -/

/-- The walk reads this entry at `pa`. -/
def Fetch.ReadsEntry (f : Fetch) (pa e : Nat) : Prop := f.phys pa 8 = .ok (bytesOfNat 8 e) ∧ e < 2 ^ 64

/-- A valid entry that points on to a table of the package `own` and passes step 2 of R71. -/
def PointsOn (own e : Nat) : Prop := e % 4 = 1 ∧ bitsOf e 19 2 = 0 ∧ bitsOf e 63 45 = own

theorem Fetch.walkFrom_of_error (h : f.phys (table + 8 * levelIndex (3 - n) va) 8 = .error m) :
    f.walkFrom own va (n + 1) ok table = .bad m := by
  simp [Fetch.walkFrom, h]

theorem Fetch.walkFrom_of_readsEntry (h : f.ReadsEntry (table + 8 * levelIndex (3 - n) va) e) :
    f.walkFrom own va (n + 1) ok table =
      if !pteV e then .invalid
      else if pteLeaf e then
        (if !ok || decide (3 - n < 2) then .bad (.fault .access) else .leaf (3 - n) (table + 8 * levelIndex (3 - n) va) e)
      else if pteDev e != own then .bad (.fault .access)
      else f.walkFrom own va n (ok && pteNonLeafOk own e) (pteBase e) := by
  obtain ⟨hread, hlt⟩ := h
  have hvalue : natOfBytes (bytesOfNat 8 e) = e := by rw [natOfBytes_bytesOfNat]; exact Nat.mod_eq_of_lt hlt
  simp only [Fetch.walkFrom, hread, hvalue]

/-- R71 step 1, at any level. -/
theorem Fetch.walkFrom_clear_v (h : f.ReadsEntry (table + 8 * levelIndex (3 - n) va) e) (hv : e % 2 = 0) :
    f.walkFrom own va (n + 1) ok table = .invalid := by
  simp [Fetch.walkFrom_of_readsEntry h, pteV_eq_false hv]

/-- R71 step 2: a leaf at level 0 or 1. -/
theorem Fetch.walkFrom_leaf_above (h : f.ReadsEntry (table + 8 * levelIndex (3 - n) va) e) (hl : e % 4 = 3) (hn : 3 - n < 2) :
    f.walkFrom own va (n + 1) ok table = .bad (.fault .access) := by
  simp [Fetch.walkFrom_of_readsEntry h, pteV_eq_true (show e % 2 = 1 by omega), pteLeaf_eq_true hl, hn]

theorem Fetch.walkFrom_leaf (h : f.ReadsEntry (table + 8 * levelIndex (3 - n) va) e) (hl : e % 4 = 3) (hn : ¬ 3 - n < 2) :
    f.walkFrom own va (n + 1) true table = .leaf (3 - n) (table + 8 * levelIndex (3 - n) va) e := by
  simp [Fetch.walkFrom_of_readsEntry h, pteV_eq_true (show e % 2 = 1 by omega), pteLeaf_eq_true hl, hn]

theorem Fetch.walkFrom_pointsOn (h : f.ReadsEntry (table + 8 * levelIndex (3 - n) va) e) (hp : PointsOn own e) :
    f.walkFrom own va (n + 1) ok table = f.walkFrom own va n ok (pteBase e) := by
  obtain ⟨hlow, hrsv, hdev⟩ := hp
  simp [Fetch.walkFrom_of_readsEntry h, pteV_eq_true (show e % 2 = 1 by omega), pteLeaf_eq_false hlow, pteDev, pteNonLeafOk, hrsv, hdev]

/-- R71 step 2: a non-leaf at level 3. -/
theorem Fetch.walkFrom_nonLeaf_last (h : f.ReadsEntry (table + 8 * levelIndex 3 va) e) (hp : e % 4 = 1) :
    f.walkFrom own va 1 ok table = .bad (.fault .access) := by
  rw [Fetch.walkFrom_of_readsEntry (n := 0) h]
  simp [pteV_eq_true (show e % 2 = 1 by omega), pteLeaf_eq_false hp, Fetch.walkFrom]

/-! ## The page -/

/-- The page that a leaf at a level maps, its entry standing at `addr`. -/
def leafPage (level addr e : Nat) : PageInfo :=
  { pa := pteBase e + pteDev e * 2 ^ 44, size := if level = 2 then 2 ^ 26 else 2 ^ 16, rd := e.testBit 2, wr := e.testBit 3,
    ex := e.testBit 4, hv := e.testBit 7, dle := e.testBit 8, home := bitsOf e 6 5, tgt := bitsOf e 17 10, entry := addr }

theorem Fetch.walkPage_invalid (h : f.walkFrom own va 4 true v.root = .invalid) : f.walkPage own v va = .error (.fault .pageFault) := by
  simp [Fetch.walkPage, h]

theorem Fetch.walkPage_bad (h : f.walkFrom own va 4 true v.root = .bad m) : f.walkPage own v va = .error m := by
  simp [Fetch.walkPage, h]

theorem Fetch.walkPage_leaf (h : f.walkFrom own va 4 true v.root = .leaf level addr e) (hrsv : bitsOf e 19 18 = 0)
    (hlpn : level = 2 → bitsOf e 29 20 = 0) : f.walkPage own v va = .ok (leafPage level addr e) := by
  have hgood : (bitsOf e 19 18 != 0 || (level == 2 && bitsOf e 29 20 != 0)) = false := by simpa [hrsv] using hlpn
  simp [Fetch.walkPage, h, hgood, leafPage]

/-- R71 step 2: nonzero reserved bits, or the low bits of LPN in a level-2 leaf. -/
theorem Fetch.walkPage_leaf_reserved (h : f.walkFrom own va 4 true v.root = .leaf level addr e)
    (hrsv : bitsOf e 19 18 ≠ 0 ∨ level = 2 ∧ bitsOf e 29 20 ≠ 0) : f.walkPage own v va = .error (.fault .access) := by
  have hbad : (bitsOf e 19 18 != 0 || (level == 2 && bitsOf e 29 20 != 0)) = true := by simpa using hrsv
  simp [Fetch.walkPage, h, hbad]

/-! ## The walk past two levels of pointers -/

/-- The entries of levels 0 and 1 point on, and the walk goes on at level 2 with the table that the second names. -/
theorem Fetch.walkFrom_root_eq_level2 {e0 e1 : Nat} (h0 : f.ReadsEntry (v.root + 8 * levelIndex 0 va) e0)
    (h1 : f.ReadsEntry (pteBase e0 + 8 * levelIndex 1 va) e1) (hp0 : PointsOn own e0) (hp1 : PointsOn own e1) :
    f.walkFrom own va 4 true v.root = f.walkFrom own va 2 true (pteBase e1) :=
  (walkFrom_pointsOn (n := 3) h0 hp0).trans (walkFrom_pointsOn (n := 2) h1 hp1)

section
variable {t : Nat} (hwalk : f.walkFrom own va 4 true v.root = f.walkFrom own va 2 true t)
include hwalk

/-- What the entry of level 2 makes of the walk (R70, R71). -/
theorem Fetch.walkPage_level2 (he : f.ReadsEntry (t + 8 * levelIndex 2 va) e) :
    (e % 2 = 0 → f.walkPage own v va = .error (.fault .pageFault)) ∧
    (e % 4 = 3 → bitsOf e 19 18 = 0 → bitsOf e 29 20 = 0 → f.walkPage own v va = .ok (leafPage 2 (t + 8 * levelIndex 2 va) e)) ∧
    (e % 4 = 3 → (bitsOf e 19 18 ≠ 0 ∨ bitsOf e 29 20 ≠ 0) → f.walkPage own v va = .error (.fault .access)) := by
  have hleaf (hl : e % 4 = 3) := hwalk.trans (walkFrom_leaf (n := 1) he hl (by decide))
  exact ⟨fun hv => walkPage_invalid (hwalk.trans (walkFrom_clear_v (n := 1) he hv)),
    fun hl hrsv hlpn => walkPage_leaf (hleaf hl) hrsv fun _ => hlpn,
    fun hl hbad => walkPage_leaf_reserved (hleaf hl) (hbad.imp_right fun h => ⟨rfl, h⟩)⟩

theorem Fetch.walkFrom_root_eq_level3 (he : f.ReadsEntry (t + 8 * levelIndex 2 va) e) (hp : PointsOn own e) :
    f.walkFrom own va 4 true v.root = f.walkFrom own va 1 true (pteBase e) :=
  hwalk.trans (walkFrom_pointsOn (n := 1) he hp)

end

section
variable {t : Nat} (hwalk : f.walkFrom own va 4 true v.root = f.walkFrom own va 1 true t)
include hwalk

theorem Fetch.walkPage_level3_of_error (h : f.phys (t + 8 * levelIndex 3 va) 8 = .error m) : f.walkPage own v va = .error m :=
  walkPage_bad (hwalk.trans (walkFrom_of_error (n := 0) h))

/-- What the entry of level 3 makes of the walk (R70, R71). -/
theorem Fetch.walkPage_level3 (he : f.ReadsEntry (t + 8 * levelIndex 3 va) e) :
    (e % 2 = 0 → f.walkPage own v va = .error (.fault .pageFault)) ∧
    (e % 4 = 1 → f.walkPage own v va = .error (.fault .access)) ∧
    (e % 4 = 3 → bitsOf e 19 18 = 0 → f.walkPage own v va = .ok (leafPage 3 (t + 8 * levelIndex 3 va) e)) :=
  ⟨fun hv => walkPage_invalid (hwalk.trans (walkFrom_clear_v (n := 0) he hv)),
    fun hp => walkPage_bad (hwalk.trans (walkFrom_nonLeaf_last he hp)),
    fun hl hrsv => walkPage_leaf (hwalk.trans (walkFrom_leaf (n := 0) he hl (by decide))) hrsv nofun⟩

end

end Sys2Proof.Machine
end

section
/-!
SUPPORT. Translation after the walk (05 R69, R71, 02 R21, R22, R27): permissions, homes, and what an access that translates has passed.
-/
namespace Sys2Proof.Machine

variable {s : State} {v : VfConfig} {p : PageInfo} {x : Xlated} {va pa : Nat} {need : Need}

theorem State.onPage_of_not_permits (h : p.permits need = false) : s.onPage v p va need = .error .access := by
  simp [State.onPage, h]

/-- An access of a page that passes the checks: it is permitted, and its home is that of its physical address. -/
theorem State.onPage_ok (h : s.onPage v p va need = .ok x) :
    p.permits need = true ∧ x.page = p ∧ s.homeOf v p (p.pa + va % p.size) = .ok x.home ∧
      (x.home ≠ .host → devOf (p.pa + va % p.size) = s.devNumber → x.pa = localOf (p.pa + va % p.size)) := by
  cases hperm : p.permits need with
  | false => rw [State.onPage_of_not_permits hperm] at h; cases h
  | true =>
    cases hhome : s.homeOf v p (p.pa + va % p.size) with
    | error k => simp [State.onPage, hperm, hhome] at h
    | ok home =>
      simp only [State.onPage, hperm, hhome, Bool.not_true, Bool.false_eq_true, if_false, Except.ok.injEq] at h
      subst h
      exact ⟨rfl, rfl, rfl, fun hnot hdev => by simp [hnot, hdev]⟩

/-- The home of an address in the package's own DRAM is not the host. -/
theorem State.homeOf_ne_host (hdev : devOf pa = s.devNumber) (ht : targetOf (localOf pa) = .dram) : s.homeOf v p pa ≠ .ok .host := by
  simp only [State.homeOf, hdev, ht, bne_self_eq_false, Bool.false_eq_true, if_false]
  repeat' split
  all_goals nofun

/-- R27: a page of HOME 10 needs a pinned window. -/
theorem State.homeOf_no_window (hhome : p.home = 2) (hw : v.pinnedKiB = 0) : s.homeOf v p pa = .error .access := by
  simp [State.homeOf, hhome, hw]

theorem State.translate_high {cached : List TlbEntry} {f : Fetch} (h : va ≥ 2 ^ 56) :
    s.translate cached f v va need = .error (.fault .access) := if_pos h

/-- An access that translates without a cached translation: its address fits, the walk found its page, and the page's checks passed. -/
theorem State.translate_ok {f : Fetch} (h : s.translate [] f v va need = .ok x) :
    va < 2 ^ 56 ∧ f.walkPage s.devNumber v va = .ok x.page ∧ s.onPage v x.page va need = .ok x := by
  have hlow : ¬ va ≥ 2 ^ 56 := fun hhigh => by
    rw [State.translate_high hhigh] at h
    cases h
  rw [State.translate, if_neg hlow] at h
  cases hwalk : f.walkPage s.devNumber v va with
  | error m => simp [State.pageVia, hwalk] at h
  | ok p =>
    cases hpage : s.onPage v p va need with
    | error k => simp [State.pageVia, hwalk, hpage] at h
    | ok y =>
      have hxy : y = x := by simpa [State.pageVia, hwalk, hpage] using h
      obtain ⟨-, hp, -⟩ := State.onPage_ok hpage
      rw [← hxy, hp]
      exact ⟨Nat.lt_of_not_le hlow, rfl, hpage⟩

end Sys2Proof.Machine
end

section
/-!
The parts of O57, and the theorem that settles it.
-/
namespace Sys2Proof.Machine

/-- R69, R22, R35: an entry that has not come is asked for; one that has come is read; a failed read is its fault. -/
theorem Fetch.phys_spec (f : Fetch) (pa n : Nat) (ht : targetOf pa ≠ .absent) :
    ((∀ e ∈ f.errs, e.2 ≠ physKey pa) → (∀ g ∈ f.got, g.1 ≠ physKey pa) → f.phys pa n = .error (.walk pa)) ∧
    (∀ b, (∀ e ∈ f.errs, e.2 ≠ physKey pa) → f.got.find? (fun g => g.1 == physKey pa) = some (physKey pa, b) →
      f.phys pa n = .ok ((b.drop (pa % 32)).take n)) ∧
    (∀ k, f.errs.find? (fun e => e.2 == physKey pa) = some (k, physKey pa) → f.phys pa n = .error (.fault k)) :=
  ⟨fun he hg => phys_asked_for ht he hg, fun _ he hg => phys_come ht he hg, fun _ he => phys_failed ht he⟩

/-- R71 step 2: the permissions. -/
theorem State.onPage_permissions (s : State) (v : VfConfig) (p : PageInfo) (va : Nat) :
    (p.rd = false → s.onPage v p va .load = .error .access) ∧
    ((p.wr = false ∨ p.rd = false) → s.onPage v p va .store = .error .access) ∧
    (p.ex = false → s.onPage v p va .fetch = .error .access) := by
  refine ⟨fun h => State.onPage_of_not_permits h, fun h => State.onPage_of_not_permits ?_, fun h => State.onPage_of_not_permits h⟩
  rcases h with h | h <;> simp [PageInfo.permits, h]

/-- A store that translates has RD and WR, and in the package's own DRAM its physical address is the page's with the offset. -/
theorem State.translate_store_spec (s : State) (f : Fetch) (v : VfConfig) (va : Nat) (x : Xlated) (h : s.translate [] f v va .store = .ok x) :
    x.page.rd = true ∧ x.page.wr = true ∧ va < 2 ^ 56 ∧ f.walkPage s.devNumber v va = .ok x.page ∧
    (devOf (x.page.pa + va % x.page.size) = s.devNumber → targetOf (localOf (x.page.pa + va % x.page.size)) = .dram →
      x.pa = localOf (x.page.pa + va % x.page.size)) := by
  obtain ⟨hva, hwalk, hpage⟩ := State.translate_ok h
  obtain ⟨hperm, -, hhome, hpa⟩ := State.onPage_ok hpage
  obtain ⟨hrd, hwr⟩ : x.page.rd = true ∧ x.page.wr = true := by simpa [PageInfo.permits] using hperm
  refine ⟨hrd, hwr, hva, hwalk, fun hdev ht => hpa (fun hhost => ?_) hdev⟩
  exact State.homeOf_ne_host hdev ht (hhost ▸ hhome)

end Sys2Proof.Machine

open Sys2Proof Sys2Proof.Machine

/-- Settles O57: the walk level by level, each entry by its kind; then the checks of the page. -/
theorem translationChecks : Obligations.TranslationChecks := by
  unfold Obligations.TranslationChecks
  refine ⟨fun s l f v va need hhigh => State.translate_high hhigh, Fetch.phys_spec, ?_, fun f own v va e hread hlt => ?_,
    fun f own v va m hread => Fetch.walkPage_bad (Fetch.walkFrom_of_error (n := 3) hread), State.onPage_permissions,
    State.translate_store_spec, fun s v p pa hhome hw => State.homeOf_no_window hhome hw⟩
  · intro f own v va e0 e1 e2 e3 hread0 hread1 hread2 hlt0 hlt1 hlt2 hlt3 hpoint
    have hwalk2 := Fetch.walkFrom_root_eq_level2 ⟨hread0, hlt0⟩ ⟨hread1, hlt1⟩ (hpoint e0 (by simp)) (hpoint e1 (by simp))
    obtain ⟨hclear, hpage, hreserved⟩ := Fetch.walkPage_level2 hwalk2 ⟨hread2, hlt2⟩
    refine ⟨hclear, fun hl hrsv hlpn => ⟨_, hpage hl hrsv hlpn, rfl, rfl, rfl, rfl, rfl, rfl, rfl⟩, hreserved, fun hp hrsv hdev => ?_⟩
    have hwalk3 := Fetch.walkFrom_root_eq_level3 hwalk2 ⟨hread2, hlt2⟩ ⟨hp, hrsv, hdev⟩
    refine ⟨fun m hmiss => Fetch.walkPage_level3_of_error hwalk3 hmiss, fun hread3 => ?_⟩
    obtain ⟨hclear, hnonLeaf, hpage⟩ := Fetch.walkPage_level3 hwalk3 ⟨hread3, hlt3⟩
    exact ⟨hclear, hnonLeaf, fun hl hrsv => ⟨_, hpage hl hrsv, rfl, rfl, rfl, rfl, rfl, rfl, rfl, rfl, rfl⟩⟩
  · exact ⟨fun hv => Fetch.walkPage_invalid (Fetch.walkFrom_clear_v (n := 3) ⟨hread, hlt⟩ hv),
      fun hl => Fetch.walkPage_bad (Fetch.walkFrom_leaf_above (n := 3) ⟨hread, hlt⟩ hl (by decide))⟩
end

section
/-!
SUPPORT. The binding table and the resident arrays (07 R101, R109): the entry a CAMBIND without one takes, what a replaced entry leaves of the
table, and what a load leaves of a partition's arrays.
-/
namespace Sys2Proof.Machine

/-! ## Bodies that fault -/

/-- An instruction whose body faults with no effect faults at its own word. -/
theorem faults_of_body {i : Instr} {body : Ctx → Act} (he : ∀ s, exec i s = issue i s body) {s : State} {c : Ctx} (h : s.Ready i c)
    {k : FaultKind} {addr acc : Nat} {lane : Option Nat} (hb : body c = .fault k addr lane acc) : s.Faults i c k := by
  refine ⟨{ kind := k, addr := addr % 2 ^ 64, lane := lane, pc := c.split.pc, acc := acc }, rfl, rfl, ?_⟩
  rw [he, issue_ready h, hb]
  rfl

/-! ## The binding table -/

/-- The lowest unbound entry, which a CAMBIND takes where its slot has none (R101). -/
def Team.freeBind (t : Team) : Option Nat :=
  (List.range t.binds.length).find? fun i => (t.binds.getD i Binding.unbound).state == .unbound

theorem Team.freeBind_eq_some {t : Team} {e : Nat} (he : e < t.binds.length) (hu : (t.binds.getD e Binding.unbound).state = .unbound)
    (hlow : ∀ j, j < e → (t.binds.getD j Binding.unbound).state ≠ .unbound) : t.freeBind = some e := by
  rw [Team.freeBind, List.find?_range_eq_some]
  exact ⟨beq_iff_eq.2 hu, List.mem_range.2 he, fun j hj => by simpa using hlow j hj⟩

theorem Team.freeBind_eq_none {t : Team} (h : ∀ j, j < t.binds.length → (t.binds.getD j Binding.unbound).state ≠ .unbound) :
    t.freeBind = none := by
  rw [Team.freeBind, List.find?_range_eq_none]
  exact fun j hj => by simpa using h j hj

theorem Team.setBind_getD_self {t : Team} {e : Nat} (he : e < t.binds.length) (b d : Binding) : (t.setBind e b).binds.getD e d = b := by
  simp [Team.setBind, List.getD, he]

theorem Team.setBind_getD_ne (t : Team) {e j : Nat} (hj : j ≠ e) (b d : Binding) : (t.setBind e b).binds.getD j d = t.binds.getD j d := by
  simp [Team.setBind, List.getD, List.getElem?_set_ne hj.symm]

/-! ## Resident arrays -/

/-- An array makes room wherever one is resident. -/
theorem Partition.exists_victim {p : Partition} (h : p.arrays ≠ []) (time : Nat) : ∃ x ∈ p.arrays, p.victim time = some x := by
  unfold Partition.victim
  cases hf : p.arrays.find? fun a => !(p.using_.any fun u => u.1 == a && decide (time < u.2)) with
  | some x => exact ⟨x, List.mem_of_find?_eq_some hf, rfl⟩
  | none => exact ⟨p.arrays.head h, List.head_mem h, by simp [List.head?_eq_some_head h]⟩

@[simp] theorem Partition.load_getLast? (p : Partition) (a : Nat × Nat) (time : Nat) : (p.load a time).arrays.getLast? = some a := by
  simp [Partition.load]

theorem Partition.load_loads_ne {p : Partition} {a : Nat × Nat} {time : Nat} {x : (Nat × Nat) × Nat} (h : x ∈ (p.load a time).loads) :
    x.1 ≠ a := by
  simpa using (List.mem_filter.1 h).2

/-- R109: four arrays at most; where four others are resident one of them makes room. -/
theorem Partition.load_length_le {p : Partition} (h : p.arrays.length ≤ 4) (a : Nat × Nat) (time : Nat) :
    (p.load a time).arrays.length ≤ 4 := by
  have hothers := List.length_filter_le (· != a) p.arrays
  simp only [Partition.load, List.length_append, List.length_singleton]
  split
  · omega
  · rename_i hfull
    have hall : p.arrays.filter (· != a) = p.arrays := List.filter_eq_self.2 (List.length_filter_eq_length_iff.1 (by omega))
    obtain ⟨x, hx, hvictim⟩ := p.exists_victim (time := time) (by rintro hnil; simp [hnil] at hfull)
    have hdrop : ((p.arrays.filter fun y => some y != p.victim time).length) < p.arrays.length :=
      List.length_filter_lt_length_iff_exists.2 ⟨x, hx, by simp [hvictim]⟩
    rw [hall]
    omega

end Sys2Proof.Machine
end

section
/-!
SUPPORT. What the cam instructions do (07 R101, R102), case by case.
-/
namespace Sys2Proof.Machine

variable {o : Ops} {tm : Bool} {fmt : Fmt} {wel : Bool} {sin : PackFmt} {s : State} {c : Ctx} {e : Nat}

/-! ## CAMBIND -/

/-- CAMBIND's register operand passes its checks (R101): the tag, the alignment, the fixed part within the allocation. -/
def Ctx.PlacesImage (c : Ctx) (fmt : Fmt) : Prop :=
  c.uniA / 2 ^ 20 = 15 ∧ c.uniA % 128 = 0 ∧ c.uniA % 2 ^ 20 + fixedPart fmt ≤ c.team.kernel.scratch

/-- The binding that a CAMBIND puts into its entry. -/
def State.newBinding (s : State) (c : Ctx) (tm : Bool) (fmt : Fmt) (wel : Bool) (sin : PackFmt) : Binding :=
  { state := .binding, fmt := fmt, tm := tm, grp := c.r.grp, slot := c.o.d.camSlot, back := c.uniA % 2 ^ 20, wel := wel, sin := sin,
    reason := 0, failVa := 0, part := c.group.part, sid := c.r.split, freeing := false, tainted := false, waitFor := s.scratchOut c.r }

/-- The entry that a CAMBIND takes: the one of its slot in its scope, or else the lowest unbound one. -/
def Ctx.bindEntry (c : Ctx) (tm : Bool) : Option Nat := (c.team.entryOf c.r.grp c.o.d.camSlot tm).orElse fun _ => c.team.freeBind

theorem Ctx.PlacesImage.not_misplaced (h : c.PlacesImage fmt) :
    ¬(c.uniA / 2 ^ 20 ≠ 15 ∨ c.uniA % 128 ≠ 0 ∨ c.uniA % 2 ^ 20 + fixedPart fmt > c.team.kernel.scratch) := by
  obtain ⟨htag, halign, hroom⟩ := h
  exact not_or.2 ⟨fun hne => hne htag, not_or.2 ⟨fun hne => hne halign, Nat.not_lt.2 hroom⟩⟩

/-- The alignment of an offset is that of the address. -/
theorem offset_aligned_iff (a : Nat) : a % 2 ^ 20 % 128 = a % 128 := Nat.mod_mod_of_dvd a (by decide)

/-- CAMBIND is the check of its operand, then the choice of its entry. -/
theorem exec_cambind (h : s.Ready (.cambind o tm fmt wel sin) c) :
    exec (.cambind o tm fmt wel sin) s = .next (c.finish (
      if c.uniA / 2 ^ 20 ≠ 15 ∨ c.uniA % 128 ≠ 0 ∨ c.uniA % 2 ^ 20 + fixedPart fmt > c.team.kernel.scratch then .fault .access c.uniA none 0
      else if c.x = 0 then .ok s
      else
        match c.bindEntry tm with
        | none => .uniform (.camBind 1)
        | some e =>
          .ok ((s.dropEntry c.r.core c.r.team e).modTeam c.r.core c.r.team fun t => t.setBind e (s.newBinding c tm fmt wel sin)))).bump := by
  have ho : c.o = o := ctx?_ops h.ctx rfl
  have hs : c.s = s := (ctx?_cases h.ctx).2.1
  refine (issue_ready h _).trans ?_
  simp only [Bool.or_eq_true, decide_eq_true_eq, offset_aligned_iff, or_assoc, Ctx.any, Bool.not_eq_true', bne_eq_false_iff_eq, ← ho, ← hs]
  rfl

/-- The checks passed, a CAMBIND of some lane acts on the entry it takes, and on none where there is none. -/
theorem exec_cambind_placed (h : s.Ready (.cambind o tm fmt wel sin) c) (hp : c.PlacesImage fmt) (hx : c.x ≠ 0) :
    exec (.cambind o tm fmt wel sin) s = .next (c.finish (
      match c.bindEntry tm with
      | none => .uniform (.camBind 1)
      | some e => .ok ((s.dropEntry c.r.core c.r.team e).modTeam c.r.core c.r.team fun t => t.setBind e (s.newBinding c tm fmt wel sin)))).bump := by
  rw [exec_cambind h, if_neg hp.not_misplaced, if_neg hx]

theorem cambind_idle (h : s.Ready (.cambind o tm fmt wel sin) c) (hp : c.PlacesImage fmt) (hx : c.x = 0) :
    s.Acts (.cambind o tm fmt wel sin) c s [] true := by
  rw [State.Acts, exec_cambind h, if_neg hp.not_misplaced, if_pos hx]
  rfl

theorem cambind_binds (h : s.Ready (.cambind o tm fmt wel sin) c) (hp : c.PlacesImage fmt) (hx : c.x ≠ 0) (he : c.bindEntry tm = some e) :
    s.Acts (.cambind o tm fmt wel sin) c
      ((s.dropEntry c.r.core c.r.team e).modTeam c.r.core c.r.team fun t => t.setBind e (s.newBinding c tm fmt wel sin)) [] true := by
  rw [State.Acts, exec_cambind_placed h hp hx, he]
  rfl

theorem cambind_misplaced (h : s.Ready (.cambind o tm fmt wel sin) c)
    (hp : c.uniA / 2 ^ 20 ≠ 15 ∨ c.uniA % 128 ≠ 0 ∨ c.uniA % 2 ^ 20 + fixedPart fmt > c.team.kernel.scratch) :
    s.Faults (.cambind o tm fmt wel sin) c .access := by
  refine ⟨_, ?_, ?_, by rw [exec_cambind h, if_pos hp]; rfl⟩ <;> rfl

theorem cambind_full (h : s.Ready (.cambind o tm fmt wel sin) c) (hp : c.PlacesImage fmt) (hx : c.x ≠ 0) (he : c.bindEntry tm = none) :
    s.Faults (.cambind o tm fmt wel sin) c (.camBind 1) := by
  refine ⟨_, ?_, ?_, by rw [exec_cambind_placed h hp hx, he]; rfl⟩ <;> rfl

/-! ## CAMWAIT, CAMFREE, CAMINFO -/

/-- CAMWAIT of some lane looks at the entry that its slot resolves to. -/
theorem Ctx.camwaitAct_resolved (hx : c.x ≠ 0) (he : c.team.resolve c.r.grp c.o.a.camSlot = some e) :
    c.camwaitAct = match (c.team.binds.getD e Binding.unbound).state with
      | .binding => c.parkInstr []
      | .failed => camFailed (c.team.binds.getD e Binding.unbound)
      | .bound | .unbound => .ok c.s := by
  simp only [Ctx.camwaitAct, Ctx.any, he, Bool.not_eq_true', bne_eq_false_iff_eq, hx, if_false]
    <;> rfl

theorem camwait_absent (h : s.Ready (.camwait o) c) (he : c.team.resolve c.r.grp c.o.a.camSlot = none) :
    s.Acts (.camwait o) c s [] true :=
  acts_of_body rfl (fun _ => rfl) h fun _ hs => by simp [Ctx.camwaitAct, he, hs, Act.ok]

theorem camwait_bound (h : s.Ready (.camwait o) c) (hx : c.x ≠ 0) (he : c.team.resolve c.r.grp c.o.a.camSlot = some e)
    (hb : (c.team.binds.getD e Binding.unbound).state = .bound) : s.Acts (.camwait o) c s [] true :=
  acts_of_body rfl (fun _ => rfl) h fun _ hs => by rw [Ctx.camwaitAct_resolved hx he, hb, hs]; rfl

theorem camwait_failed (h : s.Ready (.camwait o) c) (hx : c.x ≠ 0) (he : c.team.resolve c.r.grp c.o.a.camSlot = some e)
    (hb : (c.team.binds.getD e Binding.unbound).state = .failed) :
    s.Faults (.camwait o) c (if (c.team.binds.getD e Binding.unbound).reason = 6 then .memoryError
      else .camBind (c.team.binds.getD e Binding.unbound).reason) := by
  have hact : c.camwaitAct = camFailed (c.team.binds.getD e Binding.unbound) := by rw [Ctx.camwaitAct_resolved hx he, hb]
  unfold camFailed at hact
  split
  · rename_i hr
    exact faults_of_body (fun _ => rfl) h (hact.trans (if_pos hr))
  · rename_i hr
    exact faults_of_body (fun _ => rfl) h (hact.trans (if_neg hr))

theorem camfree_frees (h : s.Ready (.camfree o tm) c) (hx : c.x ≠ 0) (he : c.team.entryOf c.r.grp c.o.d.camSlot tm = some e)
    (hb : (c.team.binds.getD e Binding.unbound).state ≠ .binding) :
    s.Acts (.camfree o tm) c
      ((s.dropEntry c.r.core c.r.team e).modTeam c.r.core c.r.team fun t => t.setBind e Binding.unbound) [] true :=
  acts_of_body rfl (fun _ => rfl) h fun _ hs => by
    simp only [Ctx.camfreeAct, Ctx.any, he, hs, Bool.not_eq_true', bne_eq_false_iff_eq, beq_iff_eq, if_neg hx, if_neg hb]
    rfl

/-- CAMINFO shows the entry that its slot resolves to, and 0 where there is none (R102). -/
theorem caminfo_delivers (o : Ops) : Delivers (.caminfo o) 1 fun c _ =>
    match c.team.resolve c.r.grp o.a.camSlot with
    | none => 0
    | some e => (c.team.binds.getD e Binding.unbound).info (((c.s.core c.r.core).part c.group.part).arrays.contains (c.r.team, e)) :=
  delivers_of_body rfl (fun _ => rfl) fun _ _ _ => rfl

end Sys2Proof.Machine

open Sys2Proof Sys2Proof.Machine

/-- Settles O12: each instruction by its cases, above; the entry that CAMBIND takes is its slot's, or else the lowest unbound one. -/
theorem camInstructions : Obligations.CamInstructions := by
  unfold Obligations.CamInstructions
  refine ⟨fun o tm fmt wel sin s c e h hx htag halign hroom hentry => cambind_binds h ⟨htag, halign, hroom⟩ hx ?_,
    fun o tm fmt wel sin s c h hp => cambind_misplaced h hp,
    fun o tm fmt wel sin s c h htag halign hroom => ⟨cambind_idle h ⟨htag, halign, hroom⟩,
      fun hx hnone hall => cambind_full h ⟨htag, halign, hroom⟩ hx ?_⟩,
    fun o s c h hx => ⟨camwait_absent h, fun e he => ⟨camwait_bound h hx he, camwait_failed h hx he⟩⟩,
    fun o tm s c e h hx he hb => camfree_frees h hx he hb, caminfo_delivers⟩
  · obtain hown | ⟨hnone, hlt, hunbound, hlow⟩ := hentry
    · rw [Ctx.bindEntry, hown]
      rfl
    · rw [Ctx.bindEntry, hnone]
      exact Team.freeBind_eq_some hlt hunbound hlow
  · rw [Ctx.bindEntry, hnone]
    exact Team.freeBind_eq_none hall
end

section
/-!
SUPPORT. What the cam units do (07 R105, R108, R109): how a bind in flight ends, and an array that becomes resident.
-/
namespace Sys2Proof.Machine

variable {s : State} {t : Team} {b : Binding} {k team part e : Nat} {err : Bool}

/-! ## The end of a bind -/

/-- The bytes of an image that a bind may read (R103, R105). -/
def Team.bindImage (t : Team) (b : Binding) : List Byte :=
  t.scratch.readBytes b.back (if b.fmt == .e2m1g then 548 + 4 * 32 else imageBytes b.fmt)

/-- What a bind in flight ends as (R105): unbound where it was freed meanwhile, FAILED with its reason, or BOUND. -/
def State.endedBind (s : State) (k team : Nat) (t : Team) (b : Binding) (err : Bool) : Binding :=
  if b.freeing then Binding.unbound
  else
    match bindReason b.fmt (t.bindImage b) b.back t.kernel.scratch err with
    | some r => { b with state := .failed, reason := r, waitFor := [], failVa := 0x00F00000 + b.back + s.draw 24 0 % fixedPart b.fmt }
    | none => { b with state := .bound, waitFor := [], tainted := b.tainted || s.shadowed k team b.back (t.image b).length }

theorem State.endedBind_freeing (hf : b.freeing = true) : s.endedBind k team t b err = Binding.unbound := if_pos hf

theorem State.endedBind_failed {r : Nat} (hf : b.freeing = false)
    (hr : bindReason b.fmt (t.bindImage b) b.back t.kernel.scratch err = some r) :
    (s.endedBind k team t b err).state = .failed ∧ (s.endedBind k team t b err).reason = r := by
  simp [State.endedBind, hf, hr]

theorem State.endedBind_bound (hf : b.freeing = false) (hr : bindReason b.fmt (t.bindImage b) b.back t.kernel.scratch err = none) :
    (s.endedBind k team t b err).state = .bound := by
  simp [State.endedBind, hf, hr]

/-- The splits of a team that interlocked on an entry issue again (R108). -/
def Team.uninterlock (t : Team) (e : Nat) : Team :=
  { t with groups := t.groups.map fun g => { g with splits := g.splits.map (Split.uninterlock e) } }

/-- The entry of a bind that ends as `b`, and the splits that interlocked on it going on (R108). -/
def State.endBind (s : State) (k team e : Nat) (b : Binding) : State :=
  (s.modTeam k team fun t => t.setBind e b).modTeam k team fun t => t.uninterlock e

@[simp] theorem State.endBind_time (s : State) (k team e : Nat) (b : Binding) : (s.endBind k team e b).time = s.time := rfl

@[simp] theorem State.endBind_part (s : State) (k team e : Nat) (b : Binding) (n : Nat) :
    ((s.endBind k team e b).core k).part n = (s.core k).part n := by
  simp [State.endBind, State.modTeam, Core.part]

/-- The team of an ended bind has the table with that entry set. -/
theorem State.endBind_team? (ht : s.team? k team = some t) (e : Nat) (b : Binding) :
    ∃ t', (s.endBind k team e b).team? k team = some t' ∧ t'.binds = (t.setBind e b).binds := by
  have hset : (s.modTeam k team fun t => t.setBind e b).team? k team = some (t.setBind e b) := by
    rw [State.modTeam_team?_self s k team (·.setBind e b) fun _ hid => hid, ht]
    rfl
  refine ⟨(t.setBind e b).uninterlock e, ?_, rfl⟩
  rw [State.endBind, State.modTeam_team?_self _ k team (·.uninterlock e) fun _ hid => hid, hset]
  rfl

section
variable (ht : s.team? k team = some t) (hb : (t.binds.getD e Binding.unbound).state = .binding)
  (hw : (t.binds.getD e Binding.unbound).waitFor.any (s.core k).unperformed = false)
include ht hb hw

/-- A bind in flight whose earlier scratchpad writes are performed ends, and a BOUND image becomes resident. -/
theorem State.bindDone_eq :
    s.bindDone k team e err =
      (let b := t.binds.getD e Binding.unbound
       let b' := s.endedBind k team t b err
       if b'.state == .bound then (s.endBind k team e b').modCore k fun c => c.modPart b.part fun p => p.load (team, e) s.time
       else s.endBind k team e b') := by
  simp only [State.bindDone, ht, hb, hw]
  rfl

theorem State.bindDone_team? : ∃ t', (s.bindDone k team e err).team? k team = some t' ∧
    t'.binds = (t.setBind e (s.endedBind k team t (t.binds.getD e Binding.unbound) err)).binds := by
  obtain ⟨t', ht', hbinds⟩ := State.endBind_team? ht e (s.endedBind k team t (t.binds.getD e Binding.unbound) err)
  refine ⟨t', ?_, hbinds⟩
  rw [State.bindDone_eq ht hb hw, ← ht']
  dsimp only
  split
  · exact State.modCore_team? _ _ _ _ _ rfl
  · rfl

theorem State.bindDone_part (hbound : (s.endedBind k team t (t.binds.getD e Binding.unbound) err).state = .bound) :
    ((s.bindDone k team e err).core k).part (t.binds.getD e Binding.unbound).part =
      ((s.core k).part (t.binds.getD e Binding.unbound).part).load (team, e) s.time := by
  rw [State.bindDone_eq ht hb hw]
  simp only [hbound, beq_self_eq_true, if_true, State.modCore_core, Core.modPart_part, State.endBind_part]

end

theorem exec_camBindComplete (core team e : Nat) (err : Bool) (s : State) :
    exec (.camBindComplete core team e err) s = .next (s.bindDone core team e err).bump := rfl

/-- R105, R108: the end of a bind, clause by clause. -/
theorem camBindComplete_spec (core team e : Nat) (err : Bool) (s : State) (t : Team) (ht : s.team? core team = some t)
    (hb : (t.binds.getD e Binding.unbound).state = .binding) (he : e < t.binds.length)
    (hw : (t.binds.getD e Binding.unbound).waitFor.any (s.core core).unperformed = false) :
    let b := t.binds.getD e Binding.unbound
    let reason := bindReason b.fmt (t.bindImage b) b.back t.kernel.scratch err
    ∃ (u : State) (t' : Team), exec (.camBindComplete core team e err) s = .next u ∧ u.team? core team = some t' ∧
      (b.freeing = true → (t'.binds.getD e Binding.unbound).state = .unbound) ∧
      (b.freeing = false → err = true → (t'.binds.getD e Binding.unbound).state = .failed ∧ (t'.binds.getD e Binding.unbound).reason = 6) ∧
      (∀ r, b.freeing = false → reason = some r →
        (t'.binds.getD e Binding.unbound).state = .failed ∧ (t'.binds.getD e Binding.unbound).reason = r) ∧
      (b.freeing = false → reason = none → (t'.binds.getD e Binding.unbound).state = .bound ∧
        (((s.core core).part b.part).arrays.length ≤ 4 → ((u.core core).part b.part).arrays.getLast? = some (team, e) ∧
          ((u.core core).part b.part).arrays.length ≤ 4)) ∧
      (∀ j, j ≠ e → t'.binds.getD j Binding.unbound = t.binds.getD j Binding.unbound) := by
  intro b reason
  obtain ⟨t', ht', hbinds⟩ := State.bindDone_team? (err := err) ht hb hw
  have hself : t'.binds.getD e Binding.unbound = s.endedBind core team t b err := by rw [hbinds, Team.setBind_getD_self he]
  have hfails : ∀ r, b.freeing = false → reason = some r → (t'.binds.getD e Binding.unbound).state = .failed ∧
      (t'.binds.getD e Binding.unbound).reason = r := fun r hf hr => hself ▸ State.endedBind_failed hf hr
  refine ⟨_, t', exec_camBindComplete .., ht', fun hf => ?_, fun hf herr => hfails 6 hf (if_pos herr), hfails, fun hf hr => ?_, fun j hj => ?_⟩
  · rw [hself, State.endedBind_freeing hf]
    rfl
  · have hbound := State.endedBind_bound (s := s) (k := core) (team := team) hf hr
    refine ⟨hself ▸ hbound, fun hroom => ?_⟩
    rw [State.core_of_cores (State.bump_cores _), State.bindDone_part ht hb hw hbound]
    exact ⟨Partition.load_getLast? .., Partition.load_length_le hroom ..⟩
  · rw [hbinds, Team.setBind_getD_ne _ hj]

/-! ## An array that has come -/

theorem exec_camResidencyLoad (ht : s.team? k team = some t) (hb : (t.binds.getD e Binding.unbound).state = .bound) :
    exec (.camResidencyLoad k part team e) s =
      .next (s.modCore k fun c => c.modPart part fun p =>
        if p.loadDone (team, e) s.time then p.load (team, e) s.time else p).bump := by
  show execCamResidencyLoad k part team e s = _
  simp only [execCamResidencyLoad, ht, hb, Option.any_some, beq_self_eq_true, Bool.true_and]

/-- R109: the array of a load asked for 32 ticks ago is resident, the most recently used of four at most, and its load is over. -/
theorem camResidencyLoad_spec (core part team e : Nat) (s : State) (t : Team) (ht : s.team? core team = some t)
    (hb : (t.binds.getD e Binding.unbound).state = .bound) (hl : ((s.core core).part part).loadDone (team, e) s.time = true)
    (hroom : ((s.core core).part part).arrays.length ≤ 4) :
    ∃ u : State, exec (.camResidencyLoad core part team e) s = .next u ∧
      (((u.core core).part part).arrays.getLast? = some (team, e)) ∧ ((u.core core).part part).arrays.length ≤ 4 ∧
      (∀ x ∈ ((u.core core).part part).loads, x.1 ≠ (team, e)) ∧ u.dram = s.dram := by
  refine ⟨_, exec_camResidencyLoad ht hb, ?_⟩
  rw [State.core_of_cores (State.bump_cores _), State.modCore_core, Core.modPart_part, if_pos hl]
  exact ⟨Partition.load_getLast? .., Partition.load_length_le hroom .., fun x hx => Partition.load_loads_ne hx, rfl⟩

end Sys2Proof.Machine

open Sys2Proof Sys2Proof.Machine

/-- Settles O13: the end of a bind, and the end of a load. -/
theorem camUnits : Obligations.CamUnits := by
  unfold Obligations.CamUnits
  exact ⟨camBindComplete_spec, camResidencyLoad_spec⟩
end

section
/-!
SUPPORT. Instructions without an effect of their own (12 R197, R198; 09 R140), and those that act once for their group where no lane executes.
-/
namespace Sys2Proof.Machine

/-- An instruction whose body leaves its state has no effect of its own. -/
theorem acts_idle {i : Instr} {op : Nat} {o : Ops} (hc : i.code = some (op, o)) {body : Ctx → Act} (he : ∀ s, exec i s = issue i s body)
    {s : State} {c : Ctx} (h : s.Ready i c) (hb : body c = .ok c.s) : s.Acts i c s [] true :=
  acts_of_body hc he h fun _ hs => hb.trans (congrArg Act.ok hs)

theorem Ctx.not_any {c : Ctx} (hx : c.x = 0) : (!c.any) = true := by simp [Ctx.any, hx]

theorem Ctx.any_of_ne {c : Ctx} (hx : c.x ≠ 0) : (!c.any) = false := by simpa [Ctx.any] using hx

/-- An instruction that acts once for its group asks first whether a lane executes. -/
theorem acts_idle_once {i : Instr} {op : Nat} {o : Ops} (hc : i.code = some (op, o)) {act : Ctx → Act}
    (he : ∀ s, exec i s = issue i s fun c => if !c.any then .ok c.s else act c) {s : State} {c : Ctx} (h : s.Ready i c) (hx : c.x = 0) :
    s.Acts i c s [] true :=
  acts_idle hc he h (if_pos (Ctx.not_any hx))

theorem fence_idle {o : Ops} {scope : Scope} {s : State} {c : Ctx} (h : s.Ready (.fence o scope) c) (hx : c.x = 0) :
    s.Acts (.fence o scope) c s [] true :=
  acts_idle rfl (fun _ => rfl) h (by simp [Ctx.any, hx])

theorem fencew_idle {o : Ops} {scope : Scope} {s : State} {c : Ctx} (h : s.Ready (.fencew o scope) c) (hx : c.x = 0) :
    s.Acts (.fencew o scope) c s [] true :=
  acts_idle rfl (fun _ => rfl) h (by simp [Ctx.any, hx])

end Sys2Proof.Machine

open Sys2Proof Sys2Proof.Machine

/-- Settles O6: NOP and plain YIELD return their state, and each once form first asks whether a lane executes. -/
theorem noEffect : Obligations.NoEffect := by
  unfold Obligations.NoEffect
  refine ⟨fun o s c h => acts_idle rfl (fun _ => rfl) h rfl, fun o disp s c h => acts_idle rfl (fun _ => rfl) h rfl, fun i s c h hx hi => ?_⟩
  split at hi
  case h_7 => exact fence_idle h hx
  case h_8 => exact fencew_idle h hx
  case h_12 => exact hi.elim
  all_goals exact acts_idle_once rfl (fun _ => rfl) h hx
end

section
/-!
SUPPORT. IF and LOOP (12 R193): the frame they push, and the division of a split.
-/
namespace Sys2Proof.Machine

variable {o : Ops} {neg : Bool} {disp : BitVec 14} {s : State} {c : Ctx}

/-! ## IF -/

theorem Ctx.full_eq_true (h : c.split.frames.length ≥ 16) : c.full = true := decide_eq_true h

theorem Ctx.full_eq_false (h : c.split.frames.length < 16) : c.full = false := decide_eq_false (Nat.not_le.2 h)

theorem if_full (h : s.Ready (.if_ o neg disp) c) (hf : c.split.frames.length ≥ 16) : s.Faults (.if_ o neg disp) c .maskStack :=
  faults_of_body (fun _ => rfl) h (if_pos (Ctx.full_eq_true hf))

/-- IF divides its split where both sides have lanes and the group has a place for one more split. -/
theorem if_divides (h : s.Ready (.if_ o neg disp) c) (hf : c.split.frames.length < 16) (ht : c.cond neg ≠ 0)
    (hm : maskMinus c.split.mask (c.cond neg) ≠ 0) (hn : c.group.splits.length < 4) :
    s.Acts (.if_ o neg disp) c (c.divide (c.target disp) (c.cond neg) (maskMinus c.split.mask (c.cond neg))) [] false :=
  acts_of_body rfl (fun _ => rfl) h fun _ _ => by
    simp only [Ctx.full_eq_false hf, bne_iff_ne.2 ht, bne_iff_ne.2 hm, decide_eq_true hn, Bool.and_self, Bool.false_eq_true, if_false, if_true]
    rfl

/-- IF keeps the split whole otherwise: its other lanes wait in the frame. -/
theorem if_pushes (h : s.Ready (.if_ o neg disp) c) (hf : c.split.frames.length < 16)
    (hw : c.cond neg = 0 ∨ maskMinus c.split.mask (c.cond neg) = 0 ∨ c.group.splits.length ≥ 4) :
    s.Acts (.if_ o neg disp) c (s.modSplit c.r fun p =>
      { p with pc := if c.cond neg = 0 then c.target disp else p.pc + 1, mask := c.cond neg, unwound := c.cond neg == 0,
               frames := .ifF false false (c.target disp) p.mask (maskMinus c.split.mask (c.cond neg)) 0 :: p.frames }) [] false := by
  have hwhole : (c.cond neg != 0 && maskMinus c.split.mask (c.cond neg) != 0 && decide (c.group.splits.length < 4)) = false := by
    obtain ht | hm | hn := hw
    · simp [ht]
    · simp [hm]
    · simp [Nat.not_lt.2 hn]
  refine acts_of_body rfl (fun _ => rfl) h fun _ hs => ?_
  simp only [Ctx.full_eq_false hf, hwhole, hs, Bool.false_eq_true, if_false, Act.moved, bne_iff_ne, ne_eq, ite_not]

/-! ## LOOP -/

theorem loop_full (h : s.Ready (.loop o disp) c) (hf : c.split.frames.length ≥ 16) : s.Faults (.loop o disp) c .maskStack :=
  faults_of_body (fun _ => rfl) h (if_pos (Ctx.full_eq_true hf))

theorem loop_pushes (h : s.Ready (.loop o disp) c) (hf : c.split.frames.length < 16) :
    s.Acts (.loop o disp) c
      (c.steer (c.split.pc + 1) c.split.mask (.loopF (c.split.pc + 1) (c.target disp) c.split.mask 0 :: c.split.frames)) [] false :=
  acts_of_body rfl (fun _ => rfl) h fun _ _ => if_neg (by simp [Ctx.full_eq_false hf])

/-! ## The two halves of a division -/

/-- The elder of a division: the lanes in which the condition holds, at the next word. -/
def Ctx.elderOf (c : Ctx) (t : Nat) (tm : Mask) (p : Split) : Split :=
  { p with pc := p.pc + 1, mask := tm, frames := .ifF true false t c.split.mask 0 c.group.nextSid :: p.frames }

/-- The younger: the other lanes, at the ELSE side, with nothing in flight of its own. -/
def Ctx.youngOf (c : Ctx) (t : Nat) (fm : Mask) : Split :=
  { c.split with
    sid := c.group.nextSid, pc := t, mask := fm, frames := .ifF true true t c.split.mask 0 c.split.sid :: c.split.frames, promoted := false,
    readyTicks := 0, run := [], poison := [], ending := true, deferred := none, yielded := none, park := .none, since := none,
    shared := c.split.shared ++ c.s.namesOut c.r }

/-- The group of a division: the elder in its split's place, the younger last; it knows what the elder knows (R145). -/
def Ctx.dividedGroup (c : Ctx) (t : Nat) (tm fm : Mask) (g : Group) : Group :=
  { g.modSplit c.split.sid (c.elderOf t tm) with
    nextSid := c.group.nextSid + 1
    usync := g.usync.map fun u => if u.knows.contains c.split.sid then { u with knows := u.knows ++ [c.group.nextSid] } else u
    splits := (g.modSplit c.split.sid (c.elderOf t tm)).splits ++ [c.youngOf t fm] }

theorem Ctx.divide_group? {g : Group} (t : Nat) (tm fm : Mask) (hg : c.s.group? c.r = some g) :
    (c.divide t tm fm).group? c.r = some (c.dividedGroup t tm fm g) := by
  have hgroup : (c.s.modGroup c.r (c.dividedGroup t tm fm)).group? c.r = some (c.dividedGroup t tm fm g) := by
    rw [State.modGroup_group?_self c.s c.r (c.dividedGroup t tm fm) fun _ hgrp => hgrp, hg, Option.map_some]
  exact (State.modCore_group? _ _ _ _ rfl).trans hgroup

theorem Ctx.divide_split? {g : Group} {t : Nat} {tm fm : Mask} (hg : c.s.group? c.r = some g) (n : Nat) :
    (c.divide t tm fm).split? (c.r.other n) =
      ((g.modSplit c.split.sid (c.elderOf t tm)).split? n).or (if n = c.group.nextSid then some (c.youngOf t fm) else none) := by
  have hother : (c.divide t tm fm).group? (c.r.other n) = some (c.dividedGroup t tm fm g) := Ctx.divide_group? t tm fm hg
  rw [State.split?, hother, Option.bind_some, Group.split?, Ctx.dividedGroup, List.find?_append, Group.split?]
  congr 1
  by_cases hn : n = c.group.nextSid
  · subst hn
    simp [Ctx.youngOf, SplitRef.other]
  · simp [Ctx.youngOf, SplitRef.other, hn, Ne.symm hn]

/-- R193, R194: what stands where after a division. -/
theorem Ctx.divide_spec (c : Ctx) (t : Nat) (tm fm : Mask) (g : Group) (hg : c.s.group? c.r = some g) (hp : g.split? c.r.split = some c.split)
    (hnext : c.group.nextSid = g.nextSid) (hfresh : ∀ p ∈ g.splits, p.sid < g.nextSid) (hsid : c.split.sid = c.r.split) :
    (c.divide t tm fm).split? c.r = some (c.elderOf t tm c.split) ∧
      (c.divide t tm fm).split? (c.r.other g.nextSid) = some (c.youngOf t fm) ∧
      ∀ n, n ≠ c.r.split → n ≠ g.nextSid → (c.divide t tm fm).split? (c.r.other n) = c.s.split? (c.r.other n) := by
  have hlookup : ∀ n, (g.modSplit c.split.sid (c.elderOf t tm)).split? n =
      if n = c.split.sid then (g.split? n).map (c.elderOf t tm) else g.split? n := fun n => g.modSplit_split? _ n _ fun _ h => h
  have hnone : g.split? g.nextSid = none := List.find?_eq_none.2 fun p hmem => by simpa using Nat.ne_of_lt (hfresh p hmem)
  have hlt : c.split.sid < g.nextSid := hfresh _ (List.mem_of_find?_eq_some hp)
  refine ⟨?_, ?_, fun n hn hne => ?_⟩
  · have := Ctx.divide_split? (t := t) (tm := tm) (fm := fm) hg c.r.split
    rw [hlookup, if_pos hsid.symm, hp] at this
    exact this
  · rw [Ctx.divide_split? hg, hlookup, if_neg (Nat.ne_of_gt hlt), hnone, if_pos hnext.symm]
    rfl
  · have hs : c.s.split? (c.r.other n) = g.split? n := by
      rw [State.split?, show c.s.group? (c.r.other n) = some g from hg]
      rfl
    rw [Ctx.divide_split? hg, hlookup, if_neg (hsid ▸ hn), if_neg (hnext ▸ hne), Option.or_none, hs]

end Sys2Proof.Machine

open Sys2Proof Sys2Proof.Machine

/-- Settles O7: IF and LOOP by the room on the stack and the lanes of both sides; then the halves of a division. -/
theorem structuredEntry : Obligations.StructuredEntry := by
  unfold Obligations.StructuredEntry
  refine ⟨⟨fun o neg disp s c h => ⟨if_full h, if_divides h, if_pushes h⟩, fun o disp s c h => ⟨loop_full h, fun hf => ?_⟩⟩, ?_⟩
  · rw [← (ctx?_cases h.ctx).2.1]
    exact loop_pushes ((ctx?_cases h.ctx).2.1.symm ▸ h) hf
  · intro c t tm fm g hg hp hnext hfresh hsid
    obtain ⟨helder, hyoung, hothers⟩ := Ctx.divide_spec c t tm fm g hg hp hnext hfresh hsid
    refine ⟨_, _, helder, hyoung, rfl, rfl, ?_, rfl, rfl, rfl, rfl, rfl, rfl, hothers⟩
    rw [← hnext]
    rfl
end

section
/-!
SUPPORT. ELSE, ENDIF and ENDLOOP (12 R193) at the frame they belong to, and away from it.
-/
namespace Sys2Proof.Machine

variable {o : Ops} {disp : BitVec 14} {s : State} {c : Ctx} {rest : List Frame}

section
variable {dv side : Bool} {next pair : Nat} {ms fm : Mask}

/-! ## ELSE -/

theorem else_away (h : s.Ready (.else_ o disp) c) (hf : c.split.frames = .ifF dv side next ms fm pair :: rest) (hn : next ≠ c.split.pc) :
    s.Faults (.else_ o disp) c .maskStack :=
  faults_of_body (fun _ => rfl) h (by simp only [hf, bne_iff_ne.2 hn]; rfl)

/-- The lanes of the ELSE side run on. -/
theorem else_at_side (h : s.Ready (.else_ o disp) c) (hf : c.split.frames = .ifF dv true c.split.pc ms fm pair :: rest) :
    s.Acts (.else_ o disp) c (c.steer (c.split.pc + 1) c.split.mask (.ifF dv true (c.target disp) ms fm pair :: rest)) [] false :=
  acts_of_body rfl (fun _ => rfl) h fun _ _ => by simp [hf, Act.moved]

/-- The elder of a division goes to the end of the IF. -/
theorem else_divided (h : s.Ready (.else_ o disp) c) (hf : c.split.frames = .ifF true false c.split.pc ms fm pair :: rest) :
    s.Acts (.else_ o disp) c (c.steer (c.target disp) c.split.mask (.ifF true false (c.target disp) ms fm pair :: rest)) [] false :=
  acts_of_body rfl (fun _ => rfl) h fun _ _ => by simp [hf, Act.moved]

/-- An undivided split takes up the lanes that waited, less those that have exited meanwhile. -/
theorem else_whole (h : s.Ready (.else_ o disp) c) (hf : c.split.frames = .ifF false false c.split.pc ms fm pair :: rest) :
    s.Acts (.else_ o disp) c
      (c.steer (if maskMinus fm c.group.exited = 0 then c.target disp else c.split.pc + 1) (maskMinus fm c.group.exited)
        (.ifF false true (c.target disp) ms fm pair :: rest)) [] false :=
  acts_of_body rfl (fun _ => rfl) h fun _ _ => by simp [hf, Act.moved]

/-! ## ENDIF -/

theorem endif_away (h : s.Ready (.endif o) c) (hf : c.split.frames = .ifF dv side next ms fm pair :: rest) (hn : next ≠ c.split.pc) :
    s.Faults (.endif o) c .maskStack :=
  faults_of_body (fun _ => rfl) h (by simp only [hf, bne_iff_ne.2 hn]; rfl)

theorem endif_divided (h : s.Ready (.endif o) c) (hf : c.split.frames = .ifF true side c.split.pc ms fm pair :: rest) :
    s.Acts (.endif o) c (s.modSplit c.r fun p => { p with park := .merge }) [] false :=
  acts_of_body rfl (fun _ => rfl) h fun _ hs => by simp [hf, hs, Act.moved]

theorem endif_whole (h : s.Ready (.endif o) c) (hf : c.split.frames = .ifF false side c.split.pc ms fm pair :: rest) :
    s.Acts (.endif o) c (c.steer (c.split.pc + 1) (maskMinus ms c.group.exited) rest) [] false :=
  acts_of_body rfl (fun _ => rfl) h fun _ _ => by simp [hf, Act.moved]

end

/-! ## ENDLOOP -/

section
variable {start fin : Nat} {ms ct : Mask}

theorem endloop_away (h : s.Ready (.endloop o) c) (hf : c.split.frames = .loopF start fin ms ct :: rest) (hn : fin ≠ c.split.pc) :
    s.Faults (.endloop o) c .maskStack :=
  faults_of_body (fun _ => rfl) h (by simp only [hf, bne_iff_ne.2 hn]; rfl)

theorem endloop_again (h : s.Ready (.endloop o) c) (hf : c.split.frames = .loopF start c.split.pc ms ct :: rest)
    (hm : c.split.mask ||| maskMinus ct c.group.exited ≠ 0) :
    s.Acts (.endloop o) c (c.steer start (c.split.mask ||| maskMinus ct c.group.exited) (.loopF start c.split.pc ms 0 :: rest)) [] false :=
  acts_of_body rfl (fun _ => rfl) h fun _ _ => by simp only [hf, bne_self_eq_false, bne_iff_ne.2 hm]; rfl

theorem endloop_over (h : s.Ready (.endloop o) c) (hf : c.split.frames = .loopF start c.split.pc ms ct :: rest)
    (hm : c.split.mask ||| maskMinus ct c.group.exited = 0) :
    s.Acts (.endloop o) c (c.steer (c.split.pc + 1) (maskMinus ms c.group.exited) rest) [] false :=
  acts_of_body rfl (fun _ => rfl) h fun _ _ => by simp only [hf, hm, bne_self_eq_false]; rfl

end

/-! ## No frame -/

theorem else_bare (h : s.Ready (.else_ o disp) c) (hf : c.split.frames = []) : s.Faults (.else_ o disp) c .maskStack :=
  faults_of_body (fun _ => rfl) h (by simp only [hf]; rfl)

theorem endif_bare (h : s.Ready (.endif o) c) (hf : c.split.frames = []) : s.Faults (.endif o) c .maskStack :=
  faults_of_body (fun _ => rfl) h (by simp only [hf]; rfl)

theorem endloop_bare (h : s.Ready (.endloop o) c) (hf : c.split.frames = []) : s.Faults (.endloop o) c .maskStack :=
  faults_of_body (fun _ => rfl) h (by simp only [hf]; rfl)

end Sys2Proof.Machine

open Sys2Proof Sys2Proof.Machine

/-- Settles O8: each instruction by the kind of its frame. -/
theorem structuredExit : Obligations.StructuredExit := by
  unfold Obligations.StructuredExit
  refine ⟨?_, ?_, ?_, ?_⟩
  · intro o disp s c dv side next ms fm pair rest h hf
    refine ⟨else_away h hf, ?_, ?_, ?_⟩
    · rintro rfl rfl
      exact else_at_side h hf
    · rintro rfl rfl rfl
      exact else_divided h hf
    · rintro rfl rfl rfl
      exact else_whole h hf
  · intro o s c dv side next ms fm pair rest h hf
    refine ⟨endif_away h hf, ?_, ?_⟩
    · rintro rfl rfl
      exact endif_divided h hf
    · rintro rfl rfl
      exact endif_whole h hf
  · intro o s c start fin ms ct rest h hf
    refine ⟨endloop_away h hf, ?_, ?_⟩
    · rintro rfl hm
      exact endloop_again h hf hm
    · rintro rfl hm
      exact endloop_over h hf hm
  · rintro i s c h hf (⟨o, disp, rfl⟩ | ⟨o, rfl⟩ | ⟨o, rfl⟩)
    · exact else_bare h hf
    · exact endif_bare h hf
    · exact endloop_bare h hf
end

section
/-!
SUPPORT. BREAK, CONT, JMP, CALL, RET and EXIT (12 R193, R196, R197).
-/
namespace Sys2Proof.Machine

variable {o : Ops} {neg : Bool} {s : State} {c : Ctx} {fr rest : List Frame}

/-! ## Leaving a loop -/

theorem break_leaves (h : s.Ready (.break_ o neg) c) (hl : leaveLoop false (c.cond neg) c.split.frames = some fr) :
    s.Acts (.break_ o neg) c (c.steer (c.split.pc + 1) (maskMinus c.split.mask (c.cond neg)) fr) [] false :=
  acts_of_body rfl (fun _ => rfl) h fun _ _ => by simp only [hl]; rfl

theorem cont_leaves (h : s.Ready (.cont o neg) c) (hl : leaveLoop true (c.cond neg) c.split.frames = some fr) :
    s.Acts (.cont o neg) c (c.steer (c.split.pc + 1) (maskMinus c.split.mask (c.cond neg)) fr) [] false :=
  acts_of_body rfl (fun _ => rfl) h fun _ _ => by simp only [hl]; rfl

/-! ## Conditions that hold in all lanes of a split, in none, or in some only (R196) -/

/-- The condition holds in some lanes of the split and not in others. -/
def Ctx.splits (c : Ctx) (neg : Bool) : Bool := c.cond neg != 0 && c.cond neg != c.split.mask

theorem Ctx.splits_of_some (h0 : c.cond neg ≠ 0) (hm : c.cond neg ≠ c.split.mask) : c.splits neg = true := by
  rw [Ctx.splits, bne_iff_ne.2 h0, bne_iff_ne.2 hm]
  rfl

theorem Ctx.cond_beq_mask_of_none (h0 : c.cond neg = 0) (hm : c.split.mask ≠ 0) : (c.cond neg == c.split.mask) = false :=
  beq_eq_false_iff_ne.2 (h0 ▸ hm.symm)

/-! ## JMP -/

theorem jmp_divergent (h : s.Ready (.jmp o neg) c) (hb : c.badTarget = false) (hd : c.splits neg = true) :
    s.Faults (.jmp o neg) c .divergentJump :=
  faults_of_body (fun _ => rfl) h (by rw [Ctx.splits] at hd; simp only [hb, hd]; rfl)

theorem jmp_taken (h : s.Ready (.jmp o neg) c) (hb : c.badTarget = false) (hm : c.cond neg = c.split.mask) :
    s.Acts (.jmp o neg) c (c.steer c.uniB c.split.mask c.split.frames) [] false :=
  acts_of_body rfl (fun _ => rfl) h fun _ _ => by simp [hb, hm, Act.moved]

theorem jmp_passed (h : s.Ready (.jmp o neg) c) (hb : c.badTarget = false) (h0 : c.cond neg = 0) (hm : c.split.mask ≠ 0) :
    s.Acts (.jmp o neg) c (c.steer (c.split.pc + 1) c.split.mask c.split.frames) [] false :=
  acts_of_body rfl (fun _ => rfl) h fun _ _ => by
    simp only [hb, Ctx.cond_beq_mask_of_none h0 hm]
    simp [h0, Act.moved]

/-! ## CALL -/

theorem call_divergent (h : s.Ready (.call o neg) c) (hb : c.badTarget = false) (hd : c.splits neg = true) :
    s.Faults (.call o neg) c .divergentJump :=
  faults_of_body (fun _ => rfl) h (by rw [Ctx.splits] at hd; simp only [hb, hd]; rfl)

theorem call_taken (h : s.Ready (.call o neg) c) (hb : c.badTarget = false) (hm : c.cond neg = c.split.mask)
    (hf : c.split.frames.length < 16) :
    s.Acts (.call o neg) c (c.steer c.uniB c.split.mask (.callF (c.split.pc + 1) c.split.mask :: c.split.frames)) [] false :=
  acts_of_body rfl (fun _ => rfl) h fun _ _ => by simp [hb, hm, Ctx.full_eq_false hf, Act.moved]

theorem call_passed (h : s.Ready (.call o neg) c) (hb : c.badTarget = false) (h0 : c.cond neg = 0) (hm : c.split.mask ≠ 0) :
    s.Acts (.call o neg) c (c.steer (c.split.pc + 1) c.split.mask c.split.frames) [] false :=
  acts_of_body rfl (fun _ => rfl) h fun _ _ => by
    simp only [hb, Ctx.cond_beq_mask_of_none h0 hm]
    simp [h0, Act.moved]

/-! ## RET -/

theorem ret_divergent (h : s.Ready (.ret o neg) c) (hd : c.splits neg = true) : s.Faults (.ret o neg) c .divergentJump :=
  faults_of_body (fun _ => rfl) h (by rw [Ctx.splits] at hd; simp only [hd]; rfl)

theorem ret_taken {ret : Nat} {ms : Mask} (h : s.Ready (.ret o neg) c) (hm : c.cond neg = c.split.mask)
    (hf : c.split.frames = .callF ret ms :: rest) :
    s.Acts (.ret o neg) c (c.steer ret (maskMinus ms c.group.exited) rest) [] false :=
  acts_of_body rfl (fun _ => rfl) h fun _ _ => by simp [hm, hf, Act.moved]

theorem ret_away (h : s.Ready (.ret o neg) c) (hm : c.cond neg = c.split.mask)
    (hf : ∀ ret ms rest, c.split.frames ≠ .callF ret ms :: rest) : s.Faults (.ret o neg) c .maskStack :=
  faults_of_body (fun _ => rfl) h (by
    simp only [hm, bne_self_eq_false, Bool.and_false, beq_self_eq_true, Bool.false_eq_true, if_false, if_true]
    rfl)

theorem ret_passed (h : s.Ready (.ret o neg) c) (h0 : c.cond neg = 0) (hm : c.split.mask ≠ 0) :
    s.Acts (.ret o neg) c (c.steer (c.split.pc + 1) c.split.mask c.split.frames) [] false :=
  acts_of_body rfl (fun _ => rfl) h fun _ _ => by
    simp only [Ctx.cond_beq_mask_of_none h0 hm]
    simp [h0, Act.moved]

/-! ## EXIT -/

theorem exit_leaves (h : s.Ready (.exit o) c) :
    s.Acts (.exit o) c
      (((s.modGroup c.r fun g => { g with exited := g.exited ||| c.x }).modSplit c.r fun p =>
        { p with pc := p.pc + 1, mask := maskMinus p.mask c.x }).unwind c.r) [] false :=
  acts_of_body rfl (fun _ => rfl) h fun _ hs => by simp only [hs]; rfl

end Sys2Proof.Machine

open Sys2Proof Sys2Proof.Machine

/-- Settles O9: the lanes that leave a loop, the condition of the whole split in JMP, CALL and RET, the lanes that exit. -/
theorem jumpsAndExits : Obligations.JumpsAndExits := by
  unfold Obligations.JumpsAndExits
  refine ⟨fun o neg s c fr h => break_leaves h, fun o neg s c fr h => cont_leaves h, ?_, ?_, ?_, fun o s c h => exit_leaves h⟩
  · exact fun o neg s c h hb => ⟨fun h0 hm => jmp_divergent h hb (Ctx.splits_of_some h0 hm), jmp_taken h hb, jmp_passed h hb⟩
  · exact fun o neg s c h hb => ⟨fun h0 hm => call_divergent h hb (Ctx.splits_of_some h0 hm), call_taken h hb, call_passed h hb⟩
  · exact fun o neg s c h => ⟨fun h0 hm => ret_divergent h (Ctx.splits_of_some h0 hm), fun ret ms rest => ret_taken h, ret_away h, ret_passed h⟩
end

section
/-!
SUPPORT. BAR and BARC (12 R199, R200).
-/
namespace Sys2Proof.Machine

variable {s : State} {c : Ctx}

/-- The barrier instruction of a team or of its cluster. -/
def barOf (clu arv : Bool) (o : Ops) : Instr := if clu then .barc o arv else .bar o arv

/-- The last barrier of a team, or of a cluster. -/
def lastBar (clu : Bool) : Nat := if clu then 3 else 15

theorem exec_barOf (clu arv : Bool) (o : Ops) (s : State) :
    exec (barOf clu arv o) s = issue (barOf clu arv o) s fun c => c.reachBar clu arv (lastBar clu) := by cases clu <;> rfl

theorem bar_illegal {clu arv : Bool} {o : Ops} (h : s.Ready (barOf clu arv o) c) (hbad : c.uniA > lastBar clu ∨ c.uniB > 32) :
    s.Faults (barOf clu arv o) c .illegalOperand :=
  faults_of_body (exec_barOf clu arv o) h (if_pos (by simpa using hbad))

/-- A split as it stands at a barrier that it reaches: its arrival recorded, or parked there. -/
def State.atBar (s : State) (c : Ctx) (clu arv : Bool) (p : Split) : Split :=
  if arv then
    { p with arrivals := p.arrivals ++ [{ clu := clu, id := c.uniA, phase := s.barPhase c.team clu c.uniA, n := c.uniB,
                                          ids := s.writesOut c.r, lct := p.lct, met := false }] }
  else { p with park := .barFence clu c.uniA (s.barPhase c.team clu c.uniA) c.uniB }

section
variable {clu arv : Bool} {o : Ops} (h : s.Ready (barOf clu arv o) c) (ha : c.uniA ≤ lastBar clu) (hb : c.uniB ≤ 32)
include h ha hb

/-- In range, a barrier instruction asks whether a lane executes, and brings its split to the barrier. -/
theorem bar_in_range : exec (barOf clu arv o) s = .next (c.finish (
    if c.x = 0 then .ok s
    else .ok (((s.modSplit c.r (s.atBar c clu arv)).passing c.r (clu, c.uniA, s.barPhase c.team clu c.uniA)).checkFence c.r))).bump := by
  have hrange : (decide (c.uniA > lastBar clu) || decide (c.uniB > 32)) = false := by simp [ha, hb]
  rw [exec_barOf, issue_ready h, ← (ctx?_cases h.ctx).2.1]
  refine congrArg (fun a => Host.Outcome.next (c.finish a).bump) ?_
  simp only [Ctx.reachBar, hrange, Ctx.any, Bool.not_eq_true', bne_eq_false_iff_eq, Bool.false_eq_true, if_false]
  rfl

theorem bar_idle (hx : c.x = 0) : s.Acts (barOf clu arv o) c s [] true := by
  rw [State.Acts, bar_in_range h ha hb, if_pos hx]
  rfl

theorem bar_reaches (hx : c.x ≠ 0) : s.Acts (barOf clu arv o) c
    (((s.modSplit c.r (s.atBar c clu arv)).passing c.r (clu, c.uniA, s.barPhase c.team clu c.uniA)).checkFence c.r) [] true := by
  rw [State.Acts, bar_in_range h ha hb, if_neg hx]
  rfl

end

end Sys2Proof.Machine

open Sys2Proof Sys2Proof.Machine

/-- Settles O10: the range of the operands, a barrier that no lane reaches, and one that the split reaches, with .arv or without. -/
theorem barriers : Obligations.Barriers := by
  unfold Obligations.Barriers
  intro clu arv o s c i last h
  refine ⟨bar_illegal h, bar_idle h, fun ha hb hx harv => ?_, fun ha hb hx harv => ?_⟩
  · subst harv
    exact bar_reaches h ha hb hx
  · subst harv
    exact bar_reaches h ha hb hx
end

section
/-!
SUPPORT. The lane instructions (12 R203): another lane's A, and masks of votes.
-/
namespace Sys2Proof.Machine

/-! ## Masks by their lanes -/

theorem mask_eq_iff {m n : Mask} : m = n ↔ ∀ l, l < 32 → laneIn m l = laneIn n l :=
  ⟨fun h _ _ => h ▸ rfl, fun h => BitVec.eq_of_getLsbD_eq h⟩

theorem laneIn_zero (l : Nat) : laneIn 0 l = false := BitVec.getLsbD_zero

/-- A mask of some of the lanes of another is all of it where the condition holds in each of them. -/
theorem maskOf_and_eq_iff (m : Mask) (f : Nat → Bool) :
    (maskOf fun l => laneIn m l && f l) = m ↔ (lanes.all fun l => !laneIn m l || f l) = true := by
  simp only [mask_eq_iff, lanes, List.all_eq_true, List.mem_range]
  refine forall₂_congr fun l hl => ?_
  rw [laneIn_maskOf _ l hl]
  cases laneIn m l <;> simp

/-- It is empty where the condition holds in none of them. -/
theorem maskOf_and_eq_zero_iff (m : Mask) (f : Nat → Bool) :
    (maskOf fun l => laneIn m l && f l) = 0 ↔ (lanes.all fun l => !laneIn m l || !f l) = true := by
  simp only [mask_eq_iff, lanes, List.all_eq_true, List.mem_range]
  refine forall₂_congr fun l hl => ?_
  rw [laneIn_maskOf _ l hl, laneIn_zero]
  cases laneIn m l <;> simp

theorem toNat_eq_ite (b : Bool) : b.toNat = if b then 1 else 0 := by cases b <;> rfl

/-! ## SHFL, LANEBC -/

theorem shfl_delivers (o : Ops) (w : SegW) (b64 : Bool) : Delivers (.shfl o w b64) (regsFor (if b64 then 64 else 32)) fun c l =>
    let k := SegW.size w * (l / SegW.size w) + c.field o.b false false l % SegW.size w
    if c.runs k || o.lv then c.field o.a b64 false k else 0 :=
  delivers_of_body rfl (fun _ => rfl) fun c ho _ => by subst ho; rfl

theorem lanebc_delivers (o : Ops) (b64 : Bool) : Delivers (.lanebc o b64) (regsFor (if b64 then 64 else 32)) fun c _ =>
    let k := c.field o.b false false 0 % 32
    if c.runs k || o.lv then c.field o.a b64 false k else 0 :=
  delivers_of_body rfl (fun _ => rfl) fun c ho _ => by subst ho; rfl

theorem regsFor_wide (b64 : Bool) : regsFor (if b64 then 64 else 32) = if b64 then 2 else 1 := by cases b64 <;> rfl

/-! ## VOTE -/

/-- The executing lanes in which A holds. -/
def Ctx.ayes (c : Ctx) (o : Ops) : Mask := maskOf fun l => laneIn c.x l && c.pred o.a l

theorem vote_all_delivers (o : Ops) : Delivers (.vote o .all) 1 fun c _ => (c.ayes o == c.x).toNat :=
  delivers_of_body rfl (fun _ => rfl) fun _ _ _ => rfl

theorem vote_any_delivers (o : Ops) : Delivers (.vote o .any) 1 fun c _ => (c.ayes o != 0).toNat :=
  delivers_of_body rfl (fun _ => rfl) fun _ _ _ => rfl

theorem vote_uni_delivers (o : Ops) : Delivers (.vote o .uni) 1 fun c _ => (c.ayes o == c.x || c.ayes o == 0).toNat :=
  delivers_of_body rfl (fun _ => rfl) fun _ _ _ => rfl

theorem vote_ballot_delivers (o : Ops) : Delivers (.vote o .ballot) 1 fun c _ => (c.ayes o).toNat :=
  delivers_of_body rfl (fun _ => rfl) fun _ _ _ => rfl

theorem ayes_beq_x (c : Ctx) (o : Ops) : (c.ayes o == c.x) = lanes.all fun l => !laneIn c.x l || c.pred o.a l := by
  rw [Bool.eq_iff_iff, beq_iff_eq]
  exact maskOf_and_eq_iff _ _

theorem ayes_beq_zero (c : Ctx) (o : Ops) : (c.ayes o == 0) = lanes.all fun l => !laneIn c.x l || !c.pred o.a l := by
  rw [Bool.eq_iff_iff, beq_iff_eq]
  exact maskOf_and_eq_zero_iff _ _

theorem ayes_bne_zero (c : Ctx) (o : Ops) : (c.ayes o != 0) = lanes.any fun l => laneIn c.x l && c.pred o.a l := by
  rw [bne, ayes_beq_zero, List.not_all_eq_any_not]
  simp only [Bool.not_or, Bool.not_not]

/-! ## MATCH, ELECT -/

theorem match_delivers (o : Ops) (b64 : Bool) : Delivers (.match_ o b64) 1 fun c l =>
    (maskOf fun k => laneIn c.x k && c.field o.a b64 false k == c.field o.a b64 false l).toNat :=
  delivers_of_body rfl (fun _ => rfl) fun c ho _ => by subst ho; rfl

theorem elect_delivers_lane (o : Ops) (h : ∀ n, o.d ≠ .sca n) : Delivers (.elect o) 1 fun c l =>
    if l = (lowestLane c.x).getD 0 then 1 else 0 :=
  delivers_of_body rfl (fun _ => rfl) fun c _ _ => by
    have hbody : (fun l => match o.d with | .sca _ => (lowestLane c.x).getD 0 | _ => (l == (lowestLane c.x).getD 0).toNat) =
        fun l => if l = (lowestLane c.x).getD 0 then 1 else 0 := by
      funext l
      split
      · rename_i n hd
        exact absurd hd (h n)
      · simp [toNat_eq_ite]
    exact congrArg (c.result 32) hbody

theorem elect_delivers_scalar (o : Ops) (h : ∃ n, o.d = .sca n) : Delivers (.elect o) 1 fun c _ => (lowestLane c.x).getD 0 :=
  delivers_of_body rfl (fun _ => rfl) fun c _ _ => by
    obtain ⟨n, hd⟩ := h
    simp only [hd]
    rfl

end Sys2Proof.Machine

open Sys2Proof Sys2Proof.Machine

/-- Settles O11: each body as it stands; a vote's mask is all or none of the executing lanes by its lanes. -/
theorem laneResults : Obligations.LaneResults := by
  unfold Obligations.LaneResults
  refine fun o => ⟨fun w b64 => ?_, fun b64 => ?_, ?_, ?_, ?_, vote_ballot_delivers o, match_delivers o, elect_delivers_lane o,
    elect_delivers_scalar o⟩
  · rw [← regsFor_wide]
    simp only [Nat.mul_comm (_ / _)]
    cases w <;> exact shfl_delivers o _ b64
  · rw [← regsFor_wide]
    exact lanebc_delivers o b64
  · simpa only [ayes_beq_x, toNat_eq_ite] using vote_all_delivers o
  · simpa only [ayes_bne_zero, toNat_eq_ite] using vote_any_delivers o
  · simpa only [ayes_beq_x, ayes_beq_zero, toNat_eq_ite] using vote_uni_delivers o
end

section
/-!
SUPPORT. What the conditions of fences count (12 R212, 16 R275), and what changes of a split leave of them.
-/
namespace Sys2Proof.Machine

variable {s : State} {r : SplitRef}

/-! ## The conditions, by what is outstanding -/

theorem map_filter_eq_nil_iff {α β : Type} {f : α → β} {p : α → Bool} {l : List α} :
    (l.filter p).map f = [] ↔ ∀ x ∈ l, p x = false := by
  simp

theorem State.scratchOut_eq_nil_iff (s : State) (r : SplitRef) : s.scratchOut r = [] ↔ s.ScratchBack r := by
  rw [State.scratchOut, List.append_eq_nil_iff, map_filter_eq_nil_iff, List.flatMap_eq_nil_iff]
  refine and_congr (forall₂_congr fun o _ => ?_) (forall₂_congr fun o _ => ?_)
  · cases o.writes <;> simp
  · cases o.finish <;> simp

theorem State.writesOut_eq_nil_iff (s : State) (r : SplitRef) : s.writesOut r = [] ↔ s.WritesBack r := by
  rw [State.writesOut, List.append_eq_nil_iff, List.append_eq_nil_iff, map_filter_eq_nil_iff, List.flatMap_eq_nil_iff,
    State.scratchOut_eq_nil_iff, and_assoc]
  refine and_congr (forall₂_congr fun q _ => ?_) (and_congr_left fun _ => forall₂_congr fun o _ => ?_)
  · cases q.own <;> cases q.kind.writes <;> cases q.home.away <;> simp
  · cases o.finish with
    | stores n qs =>
      simp only [map_filter_eq_nil_iff, Finish.stores.injEq, and_imp, forall_apply_eq_imp_iff, forall_eq']
      refine forall₂_congr fun q _ => ?_
      cases q.home.away <;> simp
    | _ => simp

theorem State.remoteOut_eq_nil_iff (s : State) (r : SplitRef) : s.remoteOut r = [] ↔ s.RemoteBack r := by
  rw [State.remoteOut, List.append_eq_nil_iff, map_filter_eq_nil_iff, List.flatMap_eq_nil_iff]
  refine and_congr (forall₂_congr fun q _ => ?_) (forall₂_congr fun o _ => ?_)
  · cases q.own <;> cases q.home.away <;> simp
  · cases o.finish with
    | stores n qs =>
      simp only [map_filter_eq_nil_iff, Finish.stores.injEq, and_imp, forall_apply_eq_imp_iff, forall_eq']
      refine forall₂_congr fun q _ => ?_
      cases q.home.away <;> simp
    | _ => simp

/-- R212: the condition of FENCE, scope by scope. -/
theorem State.fenceMet_iff (s : State) (r : SplitRef) (scope : Scope) (lct : Nat) : s.fenceMet r scope lct = true ↔
    s.WritesBack r ∧ (match scope with
      | .grp | .team => True
      | .clu | .dev => lct < s.coreTime r.core
      | .sys => lct < s.coreTime r.core ∧ s.RemoteBack r) := by
  unfold State.fenceMet
  rw [Bool.and_eq_true, List.isEmpty_iff, State.writesOut_eq_nil_iff]
  cases scope <;> simp [State.remoteOut_eq_nil_iff]

/-- R212: that of FENCEW. -/
theorem State.fencewMet_iff (s : State) (r : SplitRef) (scope : Scope) (lct : Nat) : s.fencewMet r scope lct = true ↔
    (match scope with
      | .grp | .team => s.ScratchBack r
      | .clu | .dev | .sys => lct < s.coreTime r.core) := by
  cases scope <;> simp [State.fencewMet, State.scratchOut_eq_nil_iff]

/-! ## A change of the split itself -/

section
variable {f : Split → Split} (hsid : ∀ p, (f p).sid = p.sid) (hshared : ∀ p, (f p).shared = p.shared)

@[simp] theorem State.modSplit_outs (s : State) (r : SplitRef) (f : Split → Split) :
    ((s.modSplit r f).core r.core).outs = (s.core r.core).outs := by simp [State.modSplit, State.modGroup, State.modTeam]

@[simp] theorem State.modSplit_sops (s : State) (r : SplitRef) (f : Split → Split) :
    ((s.modSplit r f).core r.core).sops = (s.core r.core).sops := by simp [State.modSplit, State.modGroup, State.modTeam]

include hsid hshared

/-- What a split shares with the one it came from is not changed with it. -/
theorem State.modSplit_mine : (s.modSplit r f).mine r = s.mine r := by
  funext owner id
  have hfound : (s.modSplit r f).split? r = (s.split? r).map f := s.modSplit_split?_self r f fun p h => (hsid p).trans h
  rw [State.mine, State.mine, State.sharedBy, State.sharedBy, hfound]
  cases s.split? r with
  | none => rfl
  | some p => simp [hshared]

theorem State.modSplit_scratchOut : (s.modSplit r f).scratchOut r = s.scratchOut r := by
  simp only [State.scratchOut, State.modSplit_mine hsid hshared, State.modSplit_outs, State.modSplit_sops]

theorem State.modSplit_writesOut : (s.modSplit r f).writesOut r = s.writesOut r := by
  simp only [State.writesOut, State.modSplit_mine hsid hshared, State.modSplit_scratchOut hsid hshared, State.modSplit_outs]
  rfl

theorem State.modSplit_remoteOut : (s.modSplit r f).remoteOut r = s.remoteOut r := by
  simp only [State.remoteOut, State.modSplit_mine hsid hshared, State.modSplit_outs]
  rfl

theorem State.modSplit_fenceMet (scope : Scope) (lct : Nat) : (s.modSplit r f).fenceMet r scope lct = s.fenceMet r scope lct := by
  simp only [State.fenceMet, State.modSplit_writesOut hsid hshared, State.modSplit_remoteOut hsid hshared]
  rfl

theorem State.modSplit_fencewMet (scope : Scope) (lct : Nat) : (s.modSplit r f).fencewMet r scope lct = s.fencewMet r scope lct := by
  simp only [State.fencewMet, State.modSplit_scratchOut hsid hshared]
  rfl

end

end Sys2Proof.Machine
end

section
/-!
SUPPORT. FENCE, FENCEW and FENCE_RELEASE (12 R208, R212, R316).
-/
namespace Sys2Proof.Machine

variable {o : Ops} {scope : Scope} {s : State} {c : Ctx}

/-! ## At issue -/

/-- No store has gone unanswered where a FENCE.sys would report it. -/
theorem Ctx.no_report (hu : scope = .sys → c.split.unanswered = none) :
    (if c.any && scope == .sys then c.split.unanswered else none) = none := by
  by_cases hsys : scope = .sys
  · simp [hu hsys]
  · simp [hsys]

theorem fence_passes (h : s.Ready (.fence o scope) c) (hu : scope = .sys → c.split.unanswered = none)
    (hm : s.fenceMet c.r scope c.split.lct = true) : s.Acts (.fence o scope) c s [] true :=
  acts_of_body rfl (fun _ => rfl) h fun _ hs => by
    simp only [Ctx.no_report hu, hs, hm, Bool.or_true]
    rfl

theorem fence_parks (h : s.Ready (.fence o scope) c) (hx : c.x ≠ 0) (hu : scope = .sys → c.split.unanswered = none)
    (hm : s.fenceMet c.r scope c.split.lct = false) :
    s.Acts (.fence o scope) c (s.modSplit c.r fun p => { p with park := .fence scope false p.lct }) [] true :=
  acts_of_body rfl (fun _ => rfl) h fun _ hs => by
    simp only [Ctx.no_report hu, hs, hm, Ctx.any_of_ne hx]
    rfl

theorem fencew_passes (h : s.Ready (.fencew o scope) c) (hm : s.fencewMet c.r scope c.split.lct = true) :
    s.Acts (.fencew o scope) c s [] true :=
  acts_of_body rfl (fun _ => rfl) h fun _ hs => by
    simp only [hs, hm, Bool.or_true]
    rfl

theorem fencew_parks (h : s.Ready (.fencew o scope) c) (hx : c.x ≠ 0) (hm : s.fencewMet c.r scope c.split.lct = false) :
    s.Acts (.fencew o scope) c (s.modSplit c.r fun p => { p with park := .fence scope true p.lct }) [] true :=
  acts_of_body rfl (fun _ => rfl) h fun _ hs => by
    simp only [hs, hm, Ctx.any_of_ne hx]
    rfl

/-! ## When the condition has come -/

theorem exec_fenceRelease (r : SplitRef) (s : State) : exec (.fenceRelease r) s = .next (s.releaseFence r).bump := rfl

theorem State.split?_of_group? {r : SplitRef} {g : Group} {p : Split} (hg : s.group? r = some g) (hp : g.split? r.split = some p) :
    s.split? r = some p := by rw [State.split?, hg, Option.bind_some, hp]

theorem State.exists_team?_of_group? {r : SplitRef} {g : Group} (hg : s.group? r = some g) : ∃ t, s.team? r.core r.team = some t := by
  obtain ⟨t, ht, -⟩ := Option.bind_eq_some_iff.1 hg
  exact ⟨t, ht⟩

/-- The fences of barriers passed with .arv that have returned are noted (R200). -/
def State.notePassed (s : State) (r : SplitRef) (p : Split) : Split :=
  { p with arrivals := p.arrivals.map fun a =>
      if a.ids.any (s.writesOut r).contains || (a.clu && s.coreTime r.core ≤ a.lct) then a else { a with met := true } }

/-- A split that waits no longer. -/
def Split.goOn (p : Split) : Split := { p with park := .none }

/-- A split parked at a fence whose condition holds goes on. -/
theorem State.checkFence_goesOn {r : SplitRef} {p : Split} {only : Bool} {lct : Nat} (hp : s.split? r = some p)
    (hpark : p.park = .fence scope only lct) (hm : (if only then s.fencewMet r scope lct else s.fenceMet r scope p.lct) = true) :
    s.checkFence r = ((s.modSplit r (s.notePassed r)).modSplit r Split.goOn).checkBarriers r.core r.team := by
  have hmet : (if only then (s.modSplit r (s.notePassed r)).fencewMet r scope lct
      else (s.modSplit r (s.notePassed r)).fenceMet r scope p.lct) = true := by
    rw [State.modSplit_fencewMet (f := s.notePassed r) (fun _ => rfl) fun _ => rfl,
      State.modSplit_fenceMet (f := s.notePassed r) (fun _ => rfl) fun _ => rfl]
    exact hm
  simp only [State.checkFence, hp, hpark]
  exact congrArg (State.checkBarriers · r.core r.team) (if_pos hmet)

theorem fenceRelease_goesOn {r : SplitRef} {g : Group} {p : Split} {only : Bool} {lct : Nat} (hg : s.group? r = some g)
    (hp : g.split? r.split = some p) (hpark : p.park = .fence scope only lct)
    (hm : (if only then s.fencewMet r scope lct else s.fenceMet r scope p.lct) = true) :
    ∃ (u : State) (p' : Split), exec (.fenceRelease r) s = .next (u.checkBarriers r.core r.team).bump ∧ u.split? r = some p' ∧
      p'.park = .none ∧ p'.pc = p.pc ∧ p'.mask = p.mask ∧ u.dram = s.dram ∧ u.reqs = s.reqs := by
  obtain ⟨t, ht⟩ := State.exists_team?_of_group? hg
  have hfound := State.split?_of_group? hg hp
  have hrel : s.releaseFence r = s.checkFence r := by simp only [State.releaseFence, ht, hg, hfound, hpark]
  refine ⟨(s.modSplit r (s.notePassed r)).modSplit r Split.goOn, (s.notePassed r p).goOn, ?_, ?_, rfl, rfl, rfl, rfl, rfl⟩
  · rw [exec_fenceRelease, hrel, State.checkFence_goesOn hfound hpark hm]
  · rw [State.modSplit_split?_self _ r Split.goOn fun _ h => h, State.modSplit_split?_self s r (s.notePassed r) fun _ h => h, hfound]
    rfl

/-- A .rel form whose fence is met acts. -/
theorem fenceRelease_acts {r : SplitRef} {t : Team} {g : Group} {p : Split} {i : Instr} {a : Snap} {u : State} {rs : List Reg} {n : Bool}
    (ht : s.team? r.core r.team = some t) (hg : t.group? r.grp = some g) (hp : g.split? r.split = some p) (hpark : p.park = .release i a)
    (hmay : p.mayAct t g = true) (hm : s.fenceMet r .dev p.lct = true) (hc : s.actCtx? r i a = some c) (hb : parkedBody i c = .done u rs n) :
    exec (.fenceRelease r) s = .next (c.retire u rs n).bump := by
  have hgroup : s.group? r = some g := by rw [State.group?, ht, Option.bind_some, hg]
  simp only [exec_fenceRelease, State.releaseFence, ht, hgroup, State.split?_of_group? hgroup hp, hpark, hmay, hm, hc, hb, Bool.and_self, if_true]
  rfl

end Sys2Proof.Machine

open Sys2Proof Sys2Proof.Machine

/-- Settles O18: fences at issue, their conditions by what is outstanding, and their release. -/
theorem fences : Obligations.Fences := by
  unfold Obligations.Fences
  refine ⟨fun o scope s c h hx hu => ⟨fence_passes h hu, fence_parks h hx hu⟩, fun o scope s c h hx => ⟨fencew_passes h, fencew_parks h hx⟩,
    fun s r lct => ?_, fun s r g p scope only lct => fenceRelease_goesOn, fun s r t g p i a c u rs n => fenceRelease_acts⟩
  simp only [State.fenceMet_iff, State.fencewMet_iff, and_true, true_and]
  rintro scope (rfl | rfl | rfl) <;> rfl
end

section
/-!
SUPPORT. Lanes by sector and by section (05 R79, R81), bytes by their places, and the checks of lanes.
-/
namespace Sys2Proof.Machine

/-! ## Members grouped by a key -/

/-- A member of a list has a number in it. -/
theorem exists_number_of_mem {α : Type} {l : List α} {a : α} (h : a ∈ l) : ∃ n, (n, a) ∈ (List.range l.length).zip l := by
  obtain ⟨n, hn, rfl⟩ := List.getElem_of_mem h
  exact ⟨n, List.mem_iff_getElem.2 ⟨n, by simpa using hn, by simp⟩⟩

/-- Grouped by a key, a member stands in a numbered group, which begins with a member of its key. -/
theorem exists_numbered_group {α κ : Type} [BEq κ] [LawfulBEq κ] (key : α → κ) {l : List α} {e : α} (he : e ∈ l) :
    let groups := (l.map key).eraseDups.map fun k => l.filter fun e => key e == k
    ∃ n x rest, (n, x :: rest) ∈ (List.range groups.length).zip groups ∧ e ∈ x :: rest ∧ key x = key e := by
  intro groups
  have hmem : e ∈ l.filter fun x => key x == key e := List.mem_filter.2 ⟨he, beq_self_eq_true _⟩
  have hgroup : (l.filter fun x => key x == key e) ∈ groups := List.mem_map_of_mem (List.mem_eraseDups.2 (List.mem_map_of_mem he))
  obtain ⟨n, hn⟩ := exists_number_of_mem hgroup
  obtain ⟨x, rest, hcons⟩ := List.exists_cons_of_ne_nil (List.ne_nil_of_mem hmem)
  have hx : x ∈ l.filter fun x => key x == key e := hcons ▸ List.mem_cons_self
  rw [hcons] at hn hmem
  exact ⟨n, x, rest, hn, hmem, beq_iff_eq.1 (List.mem_filter.1 hx).2⟩

/-- Elements of one sector, which one request serves (R81). -/
def SameSector (e x : Elem) : Prop := x.x.home = e.x.home ∧ x.x.pa / 32 = e.x.pa / 32

/-- The sector groups of an access, numbered. -/
def sectorParts (es : List Elem) : List (Nat × List Elem) := (List.range (bySector es).length).zip (bySector es)

/-- The section groups of an access, numbered. -/
def sectionParts (ps : List Place) : List (Nat × List Place) := (List.range (bySection ps).length).zip (bySection ps)

/-- Its groups of 32-byte sectors, numbered. -/
def scratchParts (ps : List Place) : List (Nat × List Place) := (List.range (byScratchSector ps).length).zip (byScratchSector ps)

theorem sectorParts_of_mem {es : List Elem} {e : Elem} (he : e ∈ es) :
    ∃ n x rest, (n, x :: rest) ∈ sectorParts es ∧ e ∈ x :: rest ∧ SameSector e x := by
  obtain ⟨n, x, rest, hg, heg, hkey⟩ := exists_numbered_group (fun e : Elem => (e.x.home, e.x.pa / 32)) he
  exact ⟨n, x, rest, hg, heg, Prod.mk.inj hkey⟩

theorem sectionParts_of_mem {ps : List Place} {p : Place} (hp : p ∈ ps) :
    ∃ n x rest, (n, x :: rest) ∈ sectionParts ps ∧ p ∈ x :: rest ∧ x.team = p.team := by
  obtain ⟨n, x, rest, hg, hpg, hkey⟩ := exists_numbered_group (fun p : Place => (p.team, sectionOf p.off)) hp
  exact ⟨n, x, rest, hg, hpg, (Prod.mk.inj hkey).1⟩

theorem scratchParts_of_mem {ps : List Place} {p : Place} (hp : p ∈ ps) :
    ∃ n x rest, (n, x :: rest) ∈ scratchParts ps ∧ p ∈ x :: rest ∧ x.team = p.team := by
  obtain ⟨n, x, rest, hg, hpg, hkey⟩ := exists_numbered_group (fun p : Place => (p.team, p.off / 32)) hp
  exact ⟨n, x, rest, hg, hpg, (Prod.mk.inj hkey).1⟩

/-! ## Bytes -/

theorem bytesOfNat_getElem? (n v : Nat) {k : Nat} (hk : k < n) : (bytesOfNat n v)[k]? = some (BitVec.ofNat 8 (v / 256 ^ k)) := by
  induction n generalizing v k with
  | zero => omega
  | succ n ih =>
    cases k with
    | zero => simp [bytesOfNat]
    | succ k =>
      rw [bytesOfNat, List.getElem?_cons_succ, ih _ (by omega), Nat.div_div_eq_div_mul, Nat.pow_succ, Nat.mul_comm 256]

theorem mem_bytesFrom {a k : Nat} {b : List Byte} {x : Byte} (h : b[k]? = some x) : (a + k, x) ∈ bytesFrom a b := by
  obtain ⟨hk, rfl⟩ := List.getElem?_eq_some_iff.1 h
  exact List.mem_map.2 ⟨(k, b[k]), List.mem_iff_getElem.2 ⟨k, by simpa using hk, by simp⟩, rfl⟩

/-- The bytes of a number from an address on. -/
theorem mem_bytesFrom_bytesOfNat (a n v : Nat) {k : Nat} (hk : k < n) : (a + k, BitVec.ofNat 8 (v / 256 ^ k)) ∈ bytesFrom a (bytesOfNat n v) :=
  mem_bytesFrom (bytesOfNat_getElem? n v hk)

end Sys2Proof.Machine
end

section
/-!
SUPPORT. What preparing an access leaves alone: the TLB, the memory port and the names of requests change, nothing else does.
-/
namespace Sys2Proof.Machine

/-- A core as it was but for its TLB and what its partitions count. -/
structure Core.Same (c d : Core) : Prop where
  l1 : d.l1 = c.l1
  gen : d.gen = c.gen
  sops : d.sops = c.sops
  outs : d.outs = c.outs
  fetches : d.fetches = c.fetches
  teams : d.teams = c.teams

/-- A state as it was but for TLBs, ports, names and draws. -/
structure State.Prepares (s t : State) : Prop where
  reqs : t.reqs = s.reqs
  dram : t.dram = s.dram
  time : t.time = s.time
  skew : t.skew = s.skew
  vfs : t.vfs = s.vfs
  core : ∀ k, (s.core k).Same (t.core k)

theorem Core.Same.refl (c : Core) : c.Same c := ⟨rfl, rfl, rfl, rfl, rfl, rfl⟩

theorem Core.Same.trans {c d e : Core} (a : c.Same d) (b : d.Same e) : c.Same e :=
  ⟨b.l1.trans a.l1, b.gen.trans a.gen, b.sops.trans a.sops, b.outs.trans a.outs, b.fetches.trans a.fetches, b.teams.trans a.teams⟩

theorem State.Prepares.refl (s : State) : s.Prepares s := ⟨rfl, rfl, rfl, rfl, rfl, fun _ => Core.Same.refl _⟩

theorem State.Prepares.trans {s t u : State} (a : s.Prepares t) (b : t.Prepares u) : s.Prepares u :=
  ⟨b.reqs.trans a.reqs, b.dram.trans a.dram, b.time.trans a.time, b.skew.trans a.skew, b.vfs.trans a.vfs,
    fun k => (a.core k).trans (b.core k)⟩

theorem State.prepares_modCore (s : State) (k : Nat) (f : Core → Core) (hf : ∀ c : Core, c.Same (f c)) : s.Prepares (s.modCore k f) where
  reqs := rfl
  dram := rfl
  time := rfl
  skew := rfl
  vfs := rfl
  core j := by
    by_cases hj : j = k
    · subst hj
      rw [State.modCore_core]
      exact hf _
    · rw [State.modCore_core_ne s f hj]
      exact Core.Same.refl _

@[simp] theorem State.takeIds_dram (s : State) (n : Nat) : (s.takeIds n).2.dram = s.dram := rfl
@[simp] theorem State.takeIds_cores (s : State) (n : Nat) : (s.takeIds n).2.cores = s.cores := rfl

theorem State.prepares_takeIds (s : State) (n : Nat) : s.Prepares (s.takeIds n).2 := ⟨rfl, rfl, rfl, rfl, rfl, fun _ => Core.Same.refl _⟩

theorem State.prepares_usePort (s : State) (r : SplitRef) (n first : Nat) : s.Prepares (s.usePort r n first) := by
  unfold State.usePort
  split
  · exact State.Prepares.refl s
  · split
    · exact State.Prepares.refl s
    · exact s.prepares_modCore _ _ fun c => ⟨rfl, rfl, rfl, rfl, rfl, rfl⟩

theorem State.prepares_cacheCore (s : State) (k vf : Nat) (xs : List Xlated) : s.Prepares (s.cacheCore k vf xs) := by
  simp only [State.cacheCore]
  split
  · exact State.Prepares.refl s
  · exact s.prepares_modCore _ _ fun c => ⟨rfl, rfl, rfl, rfl, rfl, rfl⟩

theorem Ctx.prepares_port (c : Ctx) (n : Nat) (s : State) : s.Prepares (c.port n s) := s.prepares_usePort _ _ _

theorem Ctx.prepares_cached (c : Ctx) (es : List Elem) : c.s.Prepares (c.cached es) := c.s.prepares_cacheCore _ _ _

/-- The state in which requests for elements are sent. -/
theorem Ctx.prepares_access (c : Ctx) (es : List Elem) (n m : Nat) : c.s.Prepares ((c.port n (c.cached es)).takeIds m).2 :=
  ((c.prepares_cached es).trans (c.prepares_port n _)).trans (State.prepares_takeIds _ m)

theorem State.Prepares.coreTime {s t : State} (h : s.Prepares t) (k : Nat) : t.coreTime k = s.coreTime k := by
  simp only [State.coreTime, State.timeAt, h.time, h.skew]

theorem State.Prepares.l1Hit {s t : State} (h : s.Prepares t) (k now sector hint : Nat) :
    (t.core k).l1Hit now sector hint = (s.core k).l1Hit now sector hint := by
  simp only [Core.l1Hit, (h.core k).l1, (h.core k).gen]

theorem State.Prepares.group? {s t : State} (h : s.Prepares t) (r : SplitRef) : t.group? r = s.group? r := by
  simp only [State.group?, State.team?, Core.team?, (h.core r.core).teams]

end Sys2Proof.Machine
end

section
/-!
SUPPORT. Requests sent and results registered (12 R207, R208).
-/
namespace Sys2Proof.Machine

/-! ## Sending -/

/-- A request as it stands among those under way: sent with others, later perhaps, its answer perhaps not to be installed. -/
def Req.Sent (q p : Req) : Prop := ∃ batch hop noInstall, p = { q with batch := batch, hop := hop, noInstall := noInstall }

theorem Req.Sent.trans {q p o : Req} (a : q.Sent p) (b : p.Sent o) : q.Sent o := by
  obtain ⟨_, _, _, rfl⟩ := a
  obtain ⟨_, _, _, rfl⟩ := b
  exact ⟨_, _, _, rfl⟩

/-- A request is under way. -/
def State.Has (s : State) (q : Req) : Prop := ∃ p ∈ s.reqs, q.Sent p

theorem State.Has.of_reqs {s t : State} {q : Req} (h : s.Has q) (hr : t.reqs = s.reqs) : t.Has q := by
  obtain ⟨p, hp, hq⟩ := h
  exact ⟨p, hr ▸ hp, hq⟩

/-- Changes of requests that leave each as it was sent. -/
theorem State.Has.of_map {s t : State} {q : Req} (h : s.Has q) (f : Req → Req) (hf : ∀ p : Req, p.Sent (f p)) (hr : t.reqs = s.reqs.map f) :
    t.Has q := by
  obtain ⟨p, hp, hq⟩ := h
  exact ⟨f p, hr ▸ List.mem_map_of_mem hp, hq.trans (hf p)⟩

theorem State.Has.dropL1 {s : State} {q : Req} (h : s.Has q) (k : Nat) (sectors : List Nat) : (s.dropL1 k sectors).Has q :=
  h.of_map _ (fun p => by split <;> exact ⟨_, _, _, rfl⟩) rfl

theorem State.Has.delay {s : State} {q : Req} (h : s.Has q) (qs : List Req) (n : Nat) : (s.delay qs n).Has q := by
  unfold State.delay
  split
  · exact h
  · exact h.of_map _ (fun p => by split <;> exact ⟨_, _, _, rfl⟩) rfl

/-- One request of a batch sent. -/
def State.sendOne (qs : List Req) (s : State) (q : Req) : State :=
  let s := if q.kind.writes then s.dropL1 q.core [q.sector] else s
  { s with reqs := s.reqs ++ [{ q with batch := (qs.headD q).id, hop := s.time }] }

theorem State.sendAll_eq (s : State) (qs : List Req) : s.sendAll qs = qs.foldl (State.sendOne qs) s := rfl

theorem State.has_sendOne (qs : List Req) (s : State) (q : Req) : (State.sendOne qs s q).Has q :=
  ⟨_, List.mem_append_right _ List.mem_cons_self, _, _, _, rfl⟩

theorem State.Has.sendOne {s : State} {q : Req} (h : s.Has q) (qs : List Req) (p : Req) : (State.sendOne qs s p).Has q := by
  have hdrop : (if p.kind.writes then s.dropL1 p.core [p.sector] else s).Has q := by
    split
    · exact h.dropL1 _ _
    · exact h
  obtain ⟨x, hx, hq⟩ := hdrop
  exact ⟨x, List.mem_append_left _ hx, hq⟩

theorem State.Has.foldl_sendOne (qs l : List Req) {s : State} {q : Req} (h : s.Has q ∨ q ∈ l) : (l.foldl (State.sendOne qs) s).Has q := by
  induction l generalizing s with
  | nil => exact h.elim id fun hmem => absurd hmem List.not_mem_nil
  | cons p l ih =>
    refine ih ?_
    obtain h | hmem := h
    · exact .inl (h.sendOne qs p)
    · obtain rfl | hmem := List.mem_cons.1 hmem
      · exact .inl (State.has_sendOne qs s q)
      · exact .inr hmem

/-- Each request of a batch is under way once the batch has been sent. -/
theorem State.has_sendAll (s : State) {qs : List Req} {q : Req} (hq : q ∈ qs) : (s.sendAll qs).Has q :=
  State.Has.foldl_sendOne qs qs (.inr hq)

/-- A batch of reads leaves the memory and the cores as they were. -/
theorem State.sendAll_reads (s : State) {qs : List Req} (h : ∀ q ∈ qs, q.kind.writes = false) :
    (s.sendAll qs).dram = s.dram ∧ (s.sendAll qs).cores = s.cores := by
  rw [State.sendAll_eq]
  refine List.foldlRecOn (motive := fun u : State => u.dram = s.dram ∧ u.cores = s.cores) _ _ ⟨rfl, rfl⟩ fun u hu q hq => ?_
  simp only [State.sendOne, h q hq]
  exact hu

/-! ## Registering -/

/-- A result for which something is to come is registered, and nothing else changes. -/
theorem State.register_waiting (s : State) (k : Nat) {o : Out} (h : o.waiting ≠ []) :
    s.register k o = s.modCore k fun c => { c with outs := c.outs ++ [o] } := by
  unfold State.register
  exact if_neg (by simpa using h)

theorem State.acquire_reqs (s : State) (r : SplitRef) (acq : Bool) (out : Nat) : (s.acquire r acq out).reqs = s.reqs := by
  unfold State.acquire
  split <;> rfl

end Sys2Proof.Machine
end

section
/-!
SUPPORT. Loads and gathers (12 R204, R207, R208, R211): the reads they send, and the sectors that their core still holds.
-/
namespace Sys2Proof.Machine

variable {c : Ctx} {es : List Elem} {strong : Bool} {hint : Nat}

/-! ## The reads of a load -/

/-- The sector under lease that answers a group of a weak load (R75, R267). -/
def Ctx.leased (c : Ctx) (es : List Elem) (strong : Bool) (hint : Nat) (g : List Elem) : Option L1Sector :=
  let s := ((c.port (bySector es).length (c.cached es)).takeIds ((bySector es).length + 1)).2
  match g with
  | e :: _ =>
    if !strong && leasable e.x.home && !c.s.readOpen c.r (e.x.pa / 32) then
      (s.core c.r.core).l1Hit (s.coreTime c.r.core) (e.x.pa / 32) hint
    else none
  | [] => none

/-- The groups that have to be asked for. -/
def Ctx.missing (c : Ctx) (es : List Elem) (strong : Bool) (hint : Nat) : List (Nat × List Elem) :=
  (sectorParts es).filter fun p => (c.leased es strong hint p.2).isNone

/-- The name of the first group's request. -/
def Ctx.firstId (c : Ctx) (es : List Elem) : Nat := (c.port (bySector es).length (c.cached es)).nextId

/-- The kind of a load's reads. -/
def readKind (strong : Bool) (hint : Nat) : ReqKind := if strong then .strongRead else .read (hintLeases hint)

/-- The requests of a load. -/
def Ctx.readReqs (c : Ctx) (es : List Elem) (strong : Bool) (hint : Nat) : List Req :=
  (c.missing es strong hint).filterMap fun p => p.2.head?.map fun e =>
    c.reqOf (c.firstId es + p.1) e (readKind strong hint) strong hint (some (c.firstId es + (bySector es).length))

/-- A load sends its requests and registers a result that waits for them. -/
theorem Ctx.loadVia_eq (c : Ctx) (es : List Elem) (strong : Bool) (hint : Nat) (dst : Elem → Nat) (finish : Finish) :
    ∃ (s : State) (o : Out), (c.loadVia es strong hint dst finish).1 = (s.sendAll (c.readReqs es strong hint)).register c.r.core o ∧
      o.waiting = (c.missing es strong hint).map fun p => c.firstId es + p.1 := ⟨_, _, rfl, rfl⟩

/-- The core's sector that answers a group is one it held before. -/
theorem Ctx.leased_held {g : List Elem} (h : (c.leased es strong hint g).isSome) : ∃ e rest, g = e :: rest ∧ strong = false ∧
    ((c.s.core c.r.core).l1Hit (c.s.coreTime c.r.core) (e.x.pa / 32) hint).isSome := by
  have hprep := c.prepares_access es (bySector es).length ((bySector es).length + 1)
  cases g with
  | nil => simp [Ctx.leased] at h
  | cons e rest =>
    simp only [Ctx.leased, hprep.coreTime, hprep.l1Hit] at h
    split at h
    · rename_i hweak
      simp only [Bool.and_eq_true, Bool.not_eq_true'] at hweak
      exact ⟨e, rest, rfl, hweak.1.1, h⟩
    · simp at h

/-- The request that a load sends for an element's sector. -/
def Ctx.Asks (c : Ctx) (t : State) (e : Elem) (kind : ReqKind) (strong : Bool) (hint : Nat) (out : Bool) : Prop :=
  ∃ (id : Nat) (x : Elem) (name : Option Nat), SameSector e x ∧ name.isSome = out ∧ t.Has (c.reqOf id x kind strong hint name)

theorem Ctx.asks_of_has {t : State} {e x : Elem} {kind : ReqKind} {id : Nat} {name : Option Nat} (hx : SameSector e x)
    (hq : t.Has (c.reqOf id x kind strong hint name)) : c.Asks t e kind strong hint name.isSome := ⟨_, x, _, hx, rfl, hq⟩

theorem Ctx.Asks.of_reqs {t u : State} {e : Elem} {kind : ReqKind} {out : Bool} (h : c.Asks t e kind strong hint out) (hr : u.reqs = t.reqs) :
    c.Asks u e kind strong hint out := by
  obtain ⟨id, x, name, hx, hname, hq⟩ := h
  exact ⟨id, x, name, hx, hname, hq.of_reqs hr⟩

/-- What a request for an element's sector carries. -/
theorem Ctx.Asks.request {t : State} {e : Elem} {kind : ReqKind} {out : Bool} (h : c.Asks t e kind strong hint out) :
    ∃ q ∈ t.reqs, q.core = c.r.core ∧ q.owner = c.r ∧ q.home = e.x.home ∧ q.sector = e.x.pa / 32 ∧ q.pc = c.split.pc ∧
      q.strong = strong ∧ q.kind = kind ∧ q.out.isSome = out := by
  obtain ⟨id, x, name, ⟨hhome, hsector⟩, hname, q, hq, _, _, _, rfl⟩ := h
  exact ⟨_, hq, rfl, rfl, hhome, hsector, rfl, rfl, rfl, hname⟩

/-- A load asks for each element's sector, or its core holds it under lease. -/
theorem Ctx.loadVia_asks (dst : Elem → Nat) (finish : Finish) {e : Elem} (he : e ∈ es) :
    c.Asks (c.loadVia es strong hint dst finish).1 e (readKind strong hint) strong hint true ∨
      (strong = false ∧ ((c.s.core c.r.core).l1Hit (c.s.coreTime c.r.core) (e.x.pa / 32) hint).isSome) := by
  obtain ⟨n, x, rest, hg, -, hx⟩ := sectorParts_of_mem he
  obtain ⟨s, o, heq, hwait⟩ := c.loadVia_eq es strong hint dst finish
  cases hl : c.leased es strong hint (x :: rest) with
  | some y =>
    obtain ⟨z, _, hz, hweak, hheld⟩ := Ctx.leased_held (Option.isSome_of_eq_some hl)
    obtain ⟨rfl, -⟩ := List.cons.inj hz
    exact .inr ⟨hweak, hx.2 ▸ hheld⟩
  | none =>
    have hmiss : (n, x :: rest) ∈ c.missing es strong hint := List.mem_filter.2 ⟨hg, by rw [hl]; rfl⟩
    have hreq : c.reqOf (c.firstId es + n) x (readKind strong hint) strong hint (some (c.firstId es + (bySector es).length)) ∈
        c.readReqs es strong hint := List.mem_filterMap.2 ⟨_, hmiss, rfl⟩
    have hne : o.waiting ≠ [] := by
      rw [hwait]
      exact fun hnil => List.not_mem_nil (List.map_eq_nil_iff.1 hnil ▸ hmiss)
    have hhas := (s.has_sendAll hreq).of_reqs (t := (c.loadVia es strong hint dst finish).1)
      (by rw [heq, State.register_waiting _ _ hne]; rfl)
    exact .inl (Ctx.asks_of_has hx hhas)

/-! ## LD, LDU, GLD -/

/-- What a load does once the checks of its lanes have passed. -/
def Ctx.loaded (c : Ctx) (m : MemMode) (es : List Elem) : State :=
  if es.isEmpty then c.s
  else
    let r := c.loadVia es (Sem.strong m.sem) c.o.h.toNat (fun _ => 0) (.regs c.o.d m.fmt)
    r.1.acquire c.r (m.sem == .ordered) r.2

theorem Ctx.loadAct_ok {m : MemMode} {ls : List Nat} (h : c.baseElems m.fmt m.sc m.disp.toInt (elemSize m.fmt) .load ls = .ok es) :
    c.loadAct m ls = .ok (c.loaded m es) := by
  simp only [Ctx.loadAct, Ctx.loaded, h]
  split <;> rfl

theorem Ctx.gldAct_ok {m : MemMode}
    (h : checkLanes (fun l => c.atAddr (c.ownAddr c.o.a m.disp l) (elemSize m.fmt) .load l) c.lanes = .ok es) :
    c.gldAct m = .ok (c.loaded m es) := by
  simp only [Ctx.gldAct, Ctx.loaded, h]
  split <;> rfl

theorem Ctx.once_lanes (hx : c.x ≠ 0) : (if c.any then [0] else []) = [0] := if_pos (bne_iff_ne.2 hx)

/-- Where some lane executes, a load whose checks have passed acts. -/
theorem load_acts {i : Instr} {m : MemMode} {s : State}
    (hi : i = .ld c.o m ∧ c.baseElems m.fmt m.sc m.disp.toInt (elemSize m.fmt) .load c.lanes = .ok es ∨
      i = .ldu c.o m ∧ c.baseElems m.fmt m.sc m.disp.toInt (elemSize m.fmt) .load [0] = .ok es ∧ c.x ≠ 0 ∨
      i = .gld c.o m ∧ checkLanes (fun l => c.atAddr (c.ownAddr c.o.a m.disp l) (elemSize m.fmt) .load l) c.lanes = .ok es)
    (h : s.Ready i c) : s.Acts i c (c.loaded m es) [] true := by
  obtain ⟨rfl, hes⟩ | ⟨rfl, hes, hx⟩ | ⟨rfl, hes⟩ := hi
  · exact acts_of_body rfl (fun _ => rfl) h fun _ _ => Ctx.loadAct_ok hes
  · refine acts_of_body rfl (fun _ => rfl) h fun _ _ => ?_
    rw [Ctx.once_lanes hx]
    exact Ctx.loadAct_ok hes
  · exact acts_of_body rfl (fun _ => rfl) h fun _ _ => Ctx.gldAct_ok hes

theorem Ctx.loaded_asks {m : MemMode} {e : Elem} (he : e ∈ es) :
    c.Asks (c.loaded m es) e (readKind (Sem.strong m.sem) c.o.h.toNat) (Sem.strong m.sem) c.o.h.toNat true ∨
      (Sem.strong m.sem = false ∧ ((c.s.core c.r.core).l1Hit (c.s.coreTime c.r.core) (e.x.pa / 32) c.o.h.toNat).isSome) := by
  have hsome : es.isEmpty = false := by simpa using List.ne_nil_of_mem he
  simp only [Ctx.loaded, hsome, Bool.false_eq_true, if_false]
  exact (Ctx.loadVia_asks _ _ he).imp_left fun h => h.of_reqs (State.acquire_reqs _ _ _ _)

theorem Core.l1Hit_isSome_hint {k : Core} {now sector : Nat} {h : BitVec 4} (hit : (k.l1Hit now sector h.toNat).isSome) : h ≠ 3 := by
  rintro rfl
  simp [Core.l1Hit] at hit

end Sys2Proof.Machine

open Sys2Proof Sys2Proof.Machine

/-- Settles O14: what a load leaves under way, for each of its elements. -/
theorem loadsAsk : Obligations.LoadsAsk := by
  unfold Obligations.LoadsAsk
  intro i m s c es hi h hx
  refine ⟨c.loaded m es, load_acts hi h, fun e he => ?_⟩
  obtain hasks | ⟨hweak, hheld⟩ := Ctx.loaded_asks (c := c) (m := m) he
  · obtain ⟨q, hq, hcore, howner, hhome, hsector, hpc, hstrong, hkind, -⟩ := hasks.request
    refine .inl ⟨q, hq, hcore, howner, hhome, hsector, hpc, hstrong, fun hsem => ?_, fun hsem => ?_⟩
    · exact hkind.trans (if_pos (bne_iff_ne.2 hsem))
    · rw [hkind, readKind, hsem]
      exact ⟨_, rfl⟩
  · rw [(ctx?_cases h.ctx).2.1] at hheld
    exact .inr ⟨by simpa [Machine.Sem.strong] using hweak, Core.l1Hit_isSome_hint hheld, hheld⟩
end

section
/-!
SUPPORT. What a write waits for before it acts (05 R73, 12 R208).
-/
namespace Sys2Proof.Machine

variable {i : Instr} {s : State} {c : Ctx}

/-- A .rel form whose fence is met goes on. -/
theorem Ctx.released_met {rel : Bool} (h : s.Ready i c) (hm : rel = true → s.fenceMet c.r .dev c.split.lct = true) (act : Unit → Act) :
    c.released rel act = act () := by
  have hgo : (rel && !c.s.fenceMet c.r .dev c.split.lct) = false := by
    rw [(ctx?_cases h.ctx).2.1]
    cases rel with
    | false => rfl
    | true => simp [hm rfl]
  rw [Ctx.released, hgo]
  rfl

/-- What an instruction at issue has read for itself is forgotten. -/
theorem Ctx.own_issued (h : s.Ready i c) : c.own = s.forget c.r.core (.word c.r) := by
  obtain ⟨-, hs, -, -, -, -, -, -, -, hacting, -⟩ := ctx?_cases h.ctx
  rw [Ctx.own, hacting, hs]
  rfl

theorem State.forget_answers (s : State) (k : Nat) (key : Errand) : ((s.forget k key).core k).answers key = Fetch.fresh key := by
  have hnone : ((s.core k).fetches.filter fun f => f.key != key).find? (fun f => f.key == key) = none :=
    List.find?_eq_none.2 fun f hf => by simpa [bne] using (List.mem_filter.1 hf).2
  rw [State.forget, State.modCore_core, Core.answers, hnone]
  rfl

theorem State.toLog_of_reqs {t : State} (hr : t.reqs = s.reqs) (v : Vf) (f : Fetch) (xs : List Xlated) : t.toLog v f xs = s.toLog v f xs := by
  simp only [State.toLog, State.logging, hr]

/-- A write none of whose pages may need a line of the log goes on. -/
theorem Ctx.logged_ready {es : List Elem} (h : s.Ready i c) (hlog : s.toLog c.v (Fetch.fresh (.word c.r)) (es.map (·.x)) = []) (act : Unit → Act) :
    c.logged es act = act () := by
  have hvf : s.vf? c.team.vf = some c.v := (ctx?_cases h.ctx).2.2.2.2.2.2.2.1
  have hprep := (s.forget c.r.core (.word c.r)).prepares_cacheCore c.r.core c.team.vf (es.map (·.x))
  have hready : ((s.forget c.r.core (.word c.r)).cacheCore c.r.core c.team.vf (es.map (·.x))).logWrite c.r.core c.team.vf c.team.grid c.r
      (.word c.r) (es.map (·.x)) = .ready := by
    have hfound := (State.vf?_of_vfs (s := s) hprep.vfs c.team.vf).trans hvf
    have hanswers : Core.answers _ (.word c.r) = Fetch.fresh (.word c.r) :=
      (congrArg (fun l => (l.find? fun f : Fetch => f.key == .word c.r).getD (Fetch.fresh (.word c.r))) (hprep.core c.r.core).fetches).trans
        (s.forget_answers c.r.core (.word c.r))
    simp only [State.logWrite, hfound, hanswers, State.toLog_of_reqs (s := s) hprep.reqs, hlog, List.foldl_nil]
  rw [Ctx.logged, Ctx.own_issued h, hready]

end Sys2Proof.Machine
end

section
/-!
SUPPORT. Stores and scatters (12 R207, R208, R211): the bytes they send.
-/
namespace Sys2Proof.Machine

variable {c : Ctx} {es : List Elem}

/-! ## The writes of a store -/

/-- The bytes or half-bytes of a sector's lanes (R81). -/
def storeKind (f : Fmt) (value : Nat → Nat) (g : List Elem) : ReqKind :=
  if f == .e2m1 then .write [] (g.map fun e => (e.x.pa % 32, e.high, BitVec.ofNat 4 (value e.lane)))
  else .write (g.flatMap fun e => bytesFrom (e.x.pa % 32) (bytesOfNat (elemSize f) (value e.lane))) []

/-- The requests of a store. -/
def Ctx.writeReqs (c : Ctx) (es : List Elem) (f : Fmt) (strong : Bool) (hint : Nat) (value : Nat → Nat) : List Req :=
  (sectorParts es).filterMap fun p => p.2.head?.map fun e => c.reqOf (c.firstId es + p.1) e (storeKind f value p.2) strong hint none

theorem Ctx.storeVia_eq (c : Ctx) (es : List Elem) (f : Fmt) (strong : Bool) (hint : Nat) (value : Nat → Nat) :
    c.storeVia es f strong hint value =
      ((c.port (bySector es).length (c.cached es)).takeIds (bySector es).length).2.sendAll (c.writeReqs es f strong hint value) := rfl

/-- A store asks for each element's sector to be written with its group's bytes. -/
theorem Ctx.storeVia_asks (f : Fmt) (strong : Bool) (hint : Nat) (value : Nat → Nat) {e : Elem} (he : e ∈ es) :
    ∃ g, e ∈ g ∧ c.Asks (c.storeVia es f strong hint value) e (storeKind f value g) strong hint false := by
  obtain ⟨n, x, rest, hg, heg, hx⟩ := sectorParts_of_mem he
  have hreq : c.reqOf (c.firstId es + n) x (storeKind f value (x :: rest)) strong hint none ∈ c.writeReqs es f strong hint value :=
    List.mem_filterMap.2 ⟨_, hg, rfl⟩
  have hhas := State.has_sendAll ((c.port (bySector es).length (c.cached es)).takeIds (bySector es).length).2 hreq
  rw [← Ctx.storeVia_eq] at hhas
  exact ⟨x :: rest, heg, Ctx.asks_of_has hx hhas⟩

/-- What an element brings to its sector's write: a half-byte, or its bytes in order. -/
theorem storeKind_spec (f : Fmt) (value : Nat → Nat) {g : List Elem} {e : Elem} (he : e ∈ g) : ∃ bytes halves,
    storeKind f value g = .write bytes halves ∧
      (f = .e2m1 → (e.x.pa % 32, e.high, BitVec.ofNat 4 (value e.lane)) ∈ halves) ∧
      (f ≠ .e2m1 → ∀ k, k < elemSize f → (e.x.pa % 32 + k, BitVec.ofNat 8 (value e.lane / 256 ^ k)) ∈ bytes) := by
  by_cases hf : f = .e2m1
  · exact ⟨_, _, if_pos (beq_iff_eq.2 hf), fun _ => List.mem_map.2 ⟨e, he, rfl⟩, fun hne => absurd hf hne⟩
  · exact ⟨_, _, if_neg (mt beq_iff_eq.1 hf), fun heq => absurd heq hf,
      fun _ k hk => List.mem_flatMap.2 ⟨e, he, mem_bytesFrom_bytesOfNat _ _ _ hk⟩⟩

/-! ## ST, STU, GST -/

/-- What a store does once its checks have passed and nothing holds it. -/
def Ctx.storeSent (c : Ctx) (m : MemMode) (es : List Elem) : State :=
  if es.isEmpty then c.s else c.storeVia es m.fmt (Sem.strong m.sem) c.o.h.toNat (c.stored m)

section
variable {i : Instr} {s : State} {m : MemMode} (h : s.Ready i c) (hrel : m.sem = .ordered → s.fenceMet c.r .dev c.split.lct = true)
  (hlog : s.toLog c.v (Fetch.fresh (.word c.r)) (es.map (·.x)) = [])
include h hrel hlog

/-- What a store or a scatter does after its checks. -/
theorem Ctx.store_goes :
    (if es.isEmpty then Act.ok c.s
      else c.released (m.sem == .ordered) fun _ => c.logged es fun _ =>
        .ok (c.storeVia es m.fmt (Sem.strong m.sem) c.o.h.toNat (c.stored m))) = .ok (c.storeSent m es) := by
  rw [Ctx.released_met h fun hsem => hrel (beq_iff_eq.1 hsem), Ctx.logged_ready h hlog, Ctx.storeSent]
  split <;> rfl

theorem Ctx.storeAct_ok {ls : List Nat} (hes : c.baseElems m.fmt m.sc m.disp.toInt (elemSize m.fmt) .store ls = .ok es) :
    c.storeAct m ls = .ok (c.storeSent m es) := by
  rw [Ctx.storeAct, hes]
  exact Ctx.store_goes h hrel hlog

theorem Ctx.gstAct_ok (hes : checkLanes (fun l => c.atAddr (c.ownAddr c.o.a m.disp l) (elemSize m.fmt) .store l) c.lanes = .ok es) :
    c.gstAct m = .ok (c.storeSent m es) := by
  rw [Ctx.gstAct, hes]
  exact Ctx.store_goes h hrel hlog

theorem store_acts
    (hi : i = .st c.o m ∧ c.baseElems m.fmt m.sc m.disp.toInt (elemSize m.fmt) .store c.lanes = .ok es ∨
      i = .stu c.o m ∧ c.baseElems m.fmt m.sc m.disp.toInt (elemSize m.fmt) .store [0] = .ok es ∧ c.x ≠ 0 ∨
      i = .gst c.o m ∧ checkLanes (fun l => c.atAddr (c.ownAddr c.o.a m.disp l) (elemSize m.fmt) .store l) c.lanes = .ok es) :
    s.Acts i c (c.storeSent m es) [] true := by
  obtain ⟨rfl, hes⟩ | ⟨rfl, hes, hx⟩ | ⟨rfl, hes⟩ := hi
  · exact acts_of_body rfl (fun _ => rfl) h fun _ _ => Ctx.storeAct_ok h hrel hlog hes
  · refine acts_of_body rfl (fun _ => rfl) h fun _ _ => ?_
    rw [Ctx.once_lanes hx]
    exact Ctx.storeAct_ok h hrel hlog hes
  · exact acts_of_body rfl (fun _ => rfl) h fun _ _ => Ctx.gstAct_ok h hrel hlog hes

end

end Sys2Proof.Machine

open Sys2Proof Sys2Proof.Machine

/-- Settles O15: what a store leaves under way, for each of its elements. -/
theorem storesSend : Obligations.StoresSend := by
  unfold Obligations.StoresSend
  intro i m s c es hi h hx hrel hlog
  refine ⟨c.storeSent m es, store_acts h hrel hlog hi, fun e he => ?_⟩
  have hsome : es.isEmpty = false := by simpa using List.ne_nil_of_mem he
  obtain ⟨g, heg, hasks⟩ := Ctx.storeVia_asks (c := c) m.fmt (Machine.Sem.strong m.sem) c.o.h.toNat (c.stored m) he
  obtain ⟨q, hq, hcore, howner, hhome, hsector, hpc, hstrong, hkind, hout⟩ := hasks.request
  obtain ⟨bytes, halves, hwrite, hbytes⟩ := storeKind_spec m.fmt (c.stored m) heg
  rw [Ctx.storeSent, if_neg (by simp [hsome])]
  exact ⟨q, hq, hcore, howner, hhome, hsector, hpc, hstrong,
    Option.isNone_iff_eq_none.1 (Option.isSome_eq_false_iff.1 hout), bytes, halves, hkind.trans hwrite, hbytes⟩
end

section
/-!
SUPPORT. ATOM, ATOMU and RED (12 R213, R214): the steps they send.
-/
namespace Sys2Proof.Machine

variable {c : Ctx} {es : List Elem}

/-- The steps of a sector's lanes. -/
def Ctx.stepsOf (c : Ctx) (m : AtomMode) (g : List Elem) : ReqKind := .atomic (g.map fun e => c.atomStep m (e.x.pa % 32) e.lane)

/-- The requests of an atomic. -/
def Ctx.atomicReqs (c : Ctx) (m : AtomMode) (ret : Bool) (es : List Elem) : List Req :=
  (sectorParts es).filterMap fun p => p.2.head?.map fun e =>
    c.reqOf (c.firstId es + p.1) e (c.stepsOf m p.2) true c.o.h.toNat (if ret then some (c.firstId es + (bySector es).length) else none)

/-- The state in which the requests of an atomic are on their way. -/
def Ctx.atomicOut (c : Ctx) (m : AtomMode) (ret : Bool) (es : List Elem) : State :=
  (((c.port (bySector es).length (c.cached es)).takeIds ((bySector es).length + 1)).2.sendAll (c.atomicReqs m ret es)).delay
    (c.atomicReqs m ret es) (if ret then c.camLatency else 0)

/-- What an atomic does once its checks have passed and nothing holds it. -/
def Ctx.atomicSent (c : Ctx) (m : AtomMode) (ret : Bool) (es : List Elem) : State :=
  if es.isEmpty then c.s
  else
    let out := c.firstId es + (bySector es).length
    (if ret then (c.atomicOut m ret es).register c.r.core
        (c.outOf out (.olds c.o.d (atomBytes m.ty == 8)) [] ((c.atomicReqs m ret es).map (·.id)))
      else c.atomicOut m ret es).acquire c.r m.acq out

section
variable {i : Instr} {s : State} {m : AtomMode} {ls : List Nat} (h : s.Ready i c)
  (hrel : m.rel = true → s.fenceMet c.r .dev c.split.lct = true) (hlog : s.toLog c.v (Fetch.fresh (.word c.r)) (es.map (·.x)) = [])
  (hes : checkLanes (fun l => c.atBase (c.group.breg c.o.a.num) (c.offset m.sc m.disp.toInt l) false (atomBytes m.ty) .store l) ls = .ok es)
include h hrel hlog hes

theorem Ctx.atomicAct_ok (ret : Bool) : c.atomicAct m ret ls = .ok (c.atomicSent m ret es) := by
  simp only [Ctx.atomicAct, hes, Ctx.released_met h hrel, Ctx.logged_ready h hlog, Ctx.atomicSent]
  split <;> rfl

theorem atomic_acts (hx : c.x ≠ 0) (hi : i = .atom c.o m ∧ ls = c.lanes ∨ i = .red c.o m ∧ ls = c.lanes ∨ i = .atomu c.o m ∧ ls = [0]) :
    ∃ ret, (ret = true ↔ i ≠ .red c.o m) ∧ s.Acts i c (c.atomicSent m ret es) [] true := by
  obtain ⟨rfl, rfl⟩ | ⟨rfl, rfl⟩ | ⟨rfl, rfl⟩ := hi
  · exact ⟨true, by simp, acts_of_body rfl (fun _ => rfl) h fun _ _ => Ctx.atomicAct_ok h hrel hlog hes true⟩
  · exact ⟨false, by simp, acts_of_body rfl (fun _ => rfl) h fun _ _ => Ctx.atomicAct_ok h hrel hlog hes false⟩
  · refine ⟨true, by simp, acts_of_body rfl (fun _ => rfl) h fun _ _ => ?_⟩
    rw [Ctx.once_lanes hx]
    exact Ctx.atomicAct_ok h hrel hlog hes true

end

/-- An atomic asks for the steps of each element's group to be made at its sector's home. -/
theorem Ctx.atomicSent_asks {m : AtomMode} (ret : Bool) {e : Elem} (he : e ∈ es) :
    ∃ g, e ∈ g ∧ c.Asks (c.atomicSent m ret es) e (c.stepsOf m g) true c.o.h.toNat ret := by
  obtain ⟨n, x, rest, hg, heg, hx⟩ := sectorParts_of_mem he
  have hsome : ¬es.isEmpty = true := by simpa using List.ne_nil_of_mem he
  have hreq : c.reqOf (c.firstId es + n) x (c.stepsOf m (x :: rest)) true c.o.h.toNat
      (if ret then some (c.firstId es + (bySector es).length) else none) ∈ c.atomicReqs m ret es := List.mem_filterMap.2 ⟨_, hg, rfl⟩
  have hout : (c.atomicOut m ret es).Has _ := (State.has_sendAll _ hreq).delay _ _
  have hasks := (Ctx.asks_of_has hx hout).of_reqs (u := c.atomicSent m ret es) (by
    rw [Ctx.atomicSent, if_neg hsome, State.acquire_reqs]
    split
    · rw [State.register_waiting _ _ fun hnil => List.not_mem_nil (List.map_eq_nil_iff.1 hnil ▸ hreq)]
      rfl
    · rfl)
  refine ⟨x :: rest, heg, ?_⟩
  cases ret <;> exact hasks

end Sys2Proof.Machine

open Sys2Proof Sys2Proof.Machine

/-- Settles O16: what an atomic leaves under way, for each of its elements. -/
theorem atomicsSend : Obligations.AtomicsSend := by
  unfold Obligations.AtomicsSend
  intro i m s c es ls hi hes h hx hrel hlog
  obtain ⟨ret, hret, hacts⟩ := atomic_acts h hrel hlog hes hx hi
  refine ⟨_, hacts, fun e he => ?_⟩
  obtain ⟨g, heg, hasks⟩ := Ctx.atomicSent_asks (c := c) (m := m) ret he
  obtain ⟨q, hq, hcore, howner, hhome, hsector, -, hstrong, hkind, hout⟩ := hasks.request
  exact ⟨q, hq, hcore, howner, hhome, hsector, hstrong, hout ▸ hret, _, hkind, c.atomStep m (e.x.pa % 32) e.lane,
    List.mem_map.2 ⟨e, heg, rfl⟩, rfl, rfl, rfl, rfl, rfl, rfl⟩
end

section
/-!
SUPPORT. Scratchpad operations (05 R79, R80; 12 R207, R211, R214): what LDS, STS, ATOMS, GLDS and GSTS leave under way.
-/
namespace Sys2Proof.Machine

variable {c : Ctx} {ps : List Place}

/-! ## Operations added -/

/-- An operation of a core is under way, in a batch. -/
def State.HasOp (s : State) (k : Nat) (o : ScratchOp) : Prop := ∃ batch, { o with batch := batch } ∈ (s.core k).sops

theorem State.HasOp.of_sops {s t : State} {k : Nat} {o : ScratchOp} (h : s.HasOp k o) (hs : (t.core k).sops = (s.core k).sops) : t.HasOp k o := by
  obtain ⟨batch, ho⟩ := h
  exact ⟨batch, hs ▸ ho⟩

theorem State.hasOp_addOps (s : State) (k : Nat) {ops : List ScratchOp} {o : ScratchOp} (ho : o ∈ ops) : (s.addOps k ops).HasOp k o := by
  refine ⟨(ops.headD o).id, ?_⟩
  rw [State.addOps, State.modCore_core]
  exact List.mem_append_right _ (List.mem_map.2 ⟨o, ho, rfl⟩)

/-- An operation under way for a place: its split's, on its team's scratchpad. -/
def Ctx.Works (c : Ctx) (t : State) (p : Place) (q : ScratchOp) : Prop := q ∈ (t.core c.r.core).sops ∧ q.owner = c.r ∧ q.team = p.team

theorem State.register_waiting_sops (s : State) (k : Nat) {o : Out} (h : o.waiting ≠ []) :
    ((s.register k o).core k).sops = (s.core k).sops := by
  rw [State.register_waiting s k h, State.modCore_core]

theorem State.register_waiting_dram (s : State) (k : Nat) {o : Out} (h : o.waiting ≠ []) : (s.register k o).dram = s.dram := by
  rw [State.register_waiting s k h]
  rfl

/-! ## Reads of sections -/

/-- The name of the first section's operation. -/
def Ctx.firstOp (c : Ctx) (ps : List Place) : Nat := (c.port (byScratchSector ps).length c.s).nextId

/-- The operations that read n bytes for each place. -/
def Ctx.readOps (c : Ctx) (ps : List Place) (n : Nat) : List ScratchOp :=
  (sectionParts ps).map fun p =>
    { c.opOf (c.firstOp ps + p.1) p.2 n false (some (c.firstOp ps + (bySection ps).length)) with
      reads := p.2.flatMap fun x => (List.range n).map fun b => x.off + b }

theorem Ctx.scratchReads_eq (c : Ctx) (ps : List Place) (n : Nat) (dst : Nat → Nat) (finish : Finish) : ∃ (s : State) (o : Out),
    c.scratchReads ps n dst finish = (s.addOps c.r.core (c.readOps ps n)).register c.r.core o ∧ o.waiting = (c.readOps ps n).map (·.id) ∧
      s.dram = c.s.dram := by
  refine ⟨_, _, rfl, rfl, ?_⟩
  have hprep : ((c.port (byScratchSector ps).length c.s).takeIds ((bySection ps).length + 1)).2.dram = c.s.dram := (c.prepares_port _ _).dram
  cases finish <;> exact hprep

/-- Each place stands in an operation that reads its bytes. -/
theorem Ctx.exists_readOp (n : Nat) {p : Place} (hp : p ∈ ps) : ∃ o ∈ c.readOps ps n, o.owner = c.r ∧ o.team = p.team ∧ o.out.isSome = true ∧
    ∀ k, k < n → p.off + k ∈ o.reads := by
  obtain ⟨m, x, rest, hg, hpg, hteam⟩ := sectionParts_of_mem hp
  exact ⟨_, List.mem_map.2 ⟨_, hg, rfl⟩, rfl, hteam, rfl, fun k hk => List.mem_flatMap.2 ⟨p, hpg, List.mem_map.2 ⟨k, List.mem_range.2 hk, rfl⟩⟩⟩

/-- Reads of sections bring every byte of each place. -/
theorem Ctx.scratchReads_spec (n : Nat) (dst : Nat → Nat) (finish : Finish) (hne : ps ≠ []) :
    (c.scratchReads ps n dst finish).dram = c.s.dram ∧
      ∀ p ∈ ps, ∃ q, c.Works (c.scratchReads ps n dst finish) p q ∧ q.out.isSome = true ∧ ∀ k, k < n → p.off + k ∈ q.reads := by
  obtain ⟨s, o, heq, hwait, hdram⟩ := c.scratchReads_eq ps n dst finish
  have hwaits : o.waiting ≠ [] := by
    obtain ⟨p, hp⟩ := List.exists_mem_of_ne_nil ps hne
    obtain ⟨o', hop, -⟩ := Ctx.exists_readOp (c := c) n hp
    rw [hwait]
    exact fun hnil => List.not_mem_nil (List.map_eq_nil_iff.1 hnil ▸ hop)
  rw [heq]
  refine ⟨(State.register_waiting_dram _ _ hwaits).trans hdram, fun p hp => ?_⟩
  obtain ⟨q, hop, howner, hteam, hout, hreads⟩ := Ctx.exists_readOp (c := c) n hp
  obtain ⟨batch, hmem⟩ := (s.hasOp_addOps c.r.core hop).of_sops (State.register_waiting_sops _ _ hwaits)
  exact ⟨_, ⟨hmem, howner, hteam⟩, hout, hreads⟩

/-! ## Writes of sections -/

/-- The operation that writes the places of a section (R207). -/
def Ctx.writeOp (c : Ctx) (f : Fmt) (value : Nat → Nat) (id : Nat) (g : List Place) : ScratchOp :=
  let o := c.opOf id g (elemSize f) false none
  if f == .e2m1 then { o with nibbles := g.map fun x => (x.off, x.high, BitVec.ofNat 4 (value x.lane)) }
  else { o with bytes := g.flatMap fun x => bytesFrom x.off (bytesOfNat (elemSize f) (value x.lane)) }

theorem Ctx.scratchWrites_eq (c : Ctx) (ps : List Place) (f : Fmt) (value : Nat → Nat) :
    c.scratchWrites ps f value = ((c.port (byScratchSector ps).length c.s).takeIds (bySection ps).length).2.addOps c.r.core
      ((sectionParts ps).map fun p => c.writeOp f value (c.firstOp ps + p.1) p.2) := rfl

/-- What a place brings to its section's write: a half-byte, or its bytes in order. -/
theorem Ctx.writeOp_spec (f : Fmt) (value : Nat → Nat) (id : Nat) {x p : Place} {rest : List Place} (hp : p ∈ x :: rest) (batch : Nat) :
    let q := { c.writeOp f value id (x :: rest) with batch := batch }
    q.owner = c.r ∧ q.team = x.team ∧ q.out = none ∧ (f = .e2m1 → (p.off, p.high, BitVec.ofNat 4 (value p.lane)) ∈ q.nibbles) ∧
      (f ≠ .e2m1 → ∀ k, k < elemSize f → (p.off + k, BitVec.ofNat 8 (value p.lane / 256 ^ k)) ∈ q.bytes) := by
  by_cases hf : f = .e2m1
  · rw [Ctx.writeOp, if_pos (beq_iff_eq.2 hf)]
    exact ⟨rfl, rfl, rfl, fun _ => List.mem_map.2 ⟨p, hp, rfl⟩, fun hne => absurd hf hne⟩
  · rw [Ctx.writeOp, if_neg (mt beq_iff_eq.1 hf)]
    exact ⟨rfl, rfl, rfl, fun heq => absurd heq hf, fun _ k hk => List.mem_flatMap.2 ⟨p, hp, mem_bytesFrom_bytesOfNat _ _ _ hk⟩⟩

/-- Writes of sections name every lane's bytes. -/
theorem Ctx.scratchWrites_spec (f : Fmt) (value : Nat → Nat) {p : Place} (hp : p ∈ ps) :
    ∃ q ∈ ((c.scratchWrites ps f value).core c.r.core).sops, q.owner = c.r ∧ q.team = p.team ∧ q.out = none ∧
      (f = .e2m1 → (p.off, p.high, BitVec.ofNat 4 (value p.lane)) ∈ q.nibbles) ∧
      (f ≠ .e2m1 → ∀ k, k < elemSize f → (p.off + k, BitVec.ofNat 8 (value p.lane / 256 ^ k)) ∈ q.bytes) := by
  obtain ⟨m, x, rest, hg, hpg, hteam⟩ := sectionParts_of_mem hp
  have hop : c.writeOp f value (c.firstOp ps + m) (x :: rest) ∈ (sectionParts ps).map fun p => c.writeOp f value (c.firstOp ps + p.1) p.2 :=
    List.mem_map.2 ⟨_, hg, rfl⟩
  obtain ⟨batch, hmem⟩ := State.hasOp_addOps _ c.r.core hop
  obtain ⟨howner, hsame, hout, hnibble, hbytes⟩ := Ctx.writeOp_spec (c := c) f value (c.firstOp ps + m) hpg batch
  rw [Ctx.scratchWrites_eq]
  exact ⟨_, hmem, howner, hsame.trans hteam, hout, hnibble, hbytes⟩

theorem Ctx.scratchWrites_dram (f : Fmt) (value : Nat → Nat) : (c.scratchWrites ps f value).dram = c.s.dram := by
  rw [Ctx.scratchWrites_eq, State.addOps, State.modCore_dram]
  exact (c.prepares_port _ _).dram

/-! ## Steps of sectors -/

/-- The operations of ATOMS. -/
def Ctx.stepOps (c : Ctx) (m : AtomMode) (ps : List Place) : List ScratchOp :=
  (scratchParts ps).map fun p =>
    { c.opOf (c.firstOp ps + p.1) p.2 (atomBytes m.ty) true (some (c.firstOp ps + (byScratchSector ps).length)) with
      steps := p.2.map fun (x : Place) => c.atomStep m x.off x.lane }

/-- The state in which the steps of ATOMS are on their way. -/
def Ctx.atomsOut (c : Ctx) (m : AtomMode) (ps : List Place) : State :=
  (c.scratchTime ps (atomBytes m.ty) ((c.port (byScratchSector ps).length c.s).takeIds ((byScratchSector ps).length + 1)).2).addOps c.r.core
    (c.stepOps m ps)

/-- The result that ATOMS waits for: the old values. -/
def Ctx.atomsResult (c : Ctx) (m : AtomMode) (ps : List Place) : Out :=
  c.outOf (c.firstOp ps + (byScratchSector ps).length) (.olds c.o.d (atomBytes m.ty == 8)) [] ((c.stepOps m ps).map (·.id))

/-- What ATOMS does once its checks have passed. -/
def Ctx.atomsSent (c : Ctx) (m : AtomMode) (ps : List Place) : State :=
  if ps.isEmpty then c.s else (c.atomsOut m ps).register c.r.core (c.atomsResult m ps)

/-- Each place of an ATOMS stands in an operation with its step. -/
theorem Ctx.exists_stepOp {m : AtomMode} {p : Place} (hp : p ∈ ps) : ∃ o ∈ c.stepOps m ps, o.owner = c.r ∧ o.team = p.team ∧
    o.out.isSome = true ∧ c.atomStep m p.off p.lane ∈ o.steps := by
  obtain ⟨n, x, rest, hg, hpg, hteam⟩ := scratchParts_of_mem hp
  exact ⟨_, List.mem_map.2 ⟨_, hg, rfl⟩, rfl, hteam, rfl, List.mem_map.2 ⟨p, hpg, rfl⟩⟩

theorem Ctx.atomsResult_waiting {m : AtomMode} (hne : ps ≠ []) : (c.atomsResult m ps).waiting ≠ [] := by
  obtain ⟨p, hp⟩ := List.exists_mem_of_ne_nil ps hne
  obtain ⟨o, ho, -⟩ := Ctx.exists_stepOp (c := c) (m := m) hp
  exact fun hnil => List.not_mem_nil (List.map_eq_nil_iff.1 hnil ▸ ho)

theorem Ctx.scratchTime_dram (c : Ctx) (ps : List Place) (n : Nat) (s : State) : (c.scratchTime ps n s).dram = s.dram := rfl

theorem Ctx.atomsOut_dram (c : Ctx) (m : AtomMode) (ps : List Place) : (c.atomsOut m ps).dram = c.s.dram := by
  rw [Ctx.atomsOut, State.addOps, State.modCore_dram, Ctx.scratchTime_dram]
  exact (c.prepares_port _ _).dram

theorem Ctx.atomsSent_dram (c : Ctx) (m : AtomMode) (ps : List Place) : (c.atomsSent m ps).dram = c.s.dram := by
  unfold Ctx.atomsSent
  split
  · rfl
  · rename_i hps
    rw [State.register_waiting_dram _ _ (Ctx.atomsResult_waiting (by simpa using hps)), Ctx.atomsOut_dram]

theorem Ctx.atomsSent_spec {m : AtomMode} {p : Place} (hp : p ∈ ps) : ∃ q ∈ ((c.atomsSent m ps).core c.r.core).sops, q.owner = c.r ∧
    q.team = p.team ∧ q.out.isSome = true ∧ c.atomStep m p.off p.lane ∈ q.steps := by
  have hne := List.ne_nil_of_mem hp
  obtain ⟨o, ho, howner, hteam, hout, hstep⟩ := Ctx.exists_stepOp (c := c) (m := m) hp
  have hop : (c.atomsOut m ps).HasOp c.r.core o := State.hasOp_addOps _ _ ho
  obtain ⟨batch, hmem⟩ := hop.of_sops (State.register_waiting_sops _ _ (Ctx.atomsResult_waiting hne))
  rw [Ctx.atomsSent, if_neg (by simpa using hne)]
  exact ⟨_, hmem, howner, hteam, hout, hstep⟩

/-! ## LDS, STS, ATOMS -/

section
variable {o : Ops} {m : MemMode} {s : State}

/-- What LDS does once its checks have passed. -/
def Ctx.ldsSent (c : Ctx) (m : MemMode) (ps : List Place) : State :=
  if ps.isEmpty then c.s else c.scratchReads ps (elemSize m.fmt) (fun _ => 0) (.regs c.o.d m.fmt)

theorem lds_acts (h : s.Ready (.lds o m) c) (hps : c.scratchElems m.fmt m.sc m.disp.toInt = .ok ps) :
    s.Acts (.lds o m) c (c.ldsSent m ps) [] true :=
  acts_of_body rfl (fun _ => rfl) h fun ho _ => by
    simp only [hps, Ctx.ldsSent, ← ho]
    split <;> rfl

theorem Ctx.ldsSent_spec (c : Ctx) (m : MemMode) (ps : List Place) : (c.ldsSent m ps).dram = c.s.dram ∧
    ∀ p ∈ ps, ∃ q, c.Works (c.ldsSent m ps) p q ∧ q.out.isSome = true ∧ ∀ k, k < elemSize m.fmt → p.off + k ∈ q.reads := by
  unfold Ctx.ldsSent
  split
  · rename_i hnil
    exact ⟨rfl, fun p hp => absurd hp (by simp [List.isEmpty_iff.1 hnil])⟩
  · rename_i hne
    exact Ctx.scratchReads_spec _ _ _ (by simpa using hne)

theorem sts_acts (h : s.Ready (.sts o m) c) (hps : c.scratchElems m.fmt m.sc m.disp.toInt = .ok ps) :
    s.Acts (.sts o m) c (c.scratchWrites ps m.fmt (c.stored m)) [] true :=
  acts_of_body rfl (fun _ => rfl) h fun _ _ => by
    simp only [hps]
    rfl

theorem atoms_acts {m : AtomMode} (h : s.Ready (.atoms o m) c)
    (hps : checkLanes (c.atScratch m.sc m.disp.toInt .b32 (atomBytes m.ty)) c.lanes = .ok ps) :
    s.Acts (.atoms o m) c (c.atomsSent m ps) [] true :=
  acts_of_body rfl (fun _ => rfl) h fun ho _ => by
    simp only [hps, Ctx.atomsSent, ← ho]
    split <;> rfl

/-! ## GLDS, GSTS -/

/-- The lanes' operations that GLDS makes once its bytes have come. -/
def Ctx.landingOps (c : Ctx) (m : MemMode) (ps : List Place) : List ScratchOp :=
  (sectionParts ps).map fun p =>
    { c.opOf (c.s.nextId + p.1) p.2 (elemSize m.fmt) false none with reads := p.2.map fun (x : Place) => x.lane }

/-- The context in which GLDS asks for its bytes: its operations have their names. -/
def Ctx.landing (c : Ctx) (n : Nat) : Ctx := { c with s := (c.s.takeIds n).2 }

/-- What GLDS does once its checks have passed. -/
def Ctx.gldsSent (c : Ctx) (m : MemMode) (ends : List (Place × Elem)) : State :=
  if ends.isEmpty then c.s
  else
    ((c.landing (bySection (ends.map (·.1))).length).loadVia (ends.map (·.2)) false c.o.h.toNat
      (fun e => ((ends.find? fun x => x.2.lane == e.lane).map fun x => x.1.off).getD 0)
      (.scratch (elemSize m.fmt) (c.landingOps m (ends.map (·.1))))).1

theorem glds_acts {ends : List (Place × Elem)} (h : s.Ready (.glds o m) c) (hends : checkLanes (c.bothEnds m .load) c.lanes = .ok ends) :
    s.Acts (.glds o m) c (c.gldsSent m ends) [] true :=
  acts_of_body rfl (fun _ => rfl) h fun _ _ => by
    simp only [Ctx.gldsAct, hends, Ctx.gldsSent]
    split <;> rfl

theorem Ctx.gldsSent_spec {ends : List (Place × Elem)} {e : Place × Elem} (he : e ∈ ends) :
    (∃ q ∈ (c.gldsSent m ends).reqs, q.owner = c.r ∧ q.home = e.2.x.home ∧ q.sector = e.2.x.pa / 32 ∧ q.out.isSome = true) ∨
      ((c.s.core c.r.core).l1Hit (c.s.coreTime c.r.core) (e.2.x.pa / 32) c.o.h.toNat).isSome := by
  rw [Ctx.gldsSent, if_neg (by simpa using List.ne_nil_of_mem he)]
  obtain hasks | ⟨-, hheld⟩ := Ctx.loadVia_asks (c := c.landing (bySection (ends.map (·.1))).length) (strong := false) (hint := c.o.h.toNat)
    (fun e => ((ends.find? fun x => x.2.lane == e.lane).map fun x => x.1.off).getD 0)
    (.scratch (elemSize m.fmt) (c.landingOps m (ends.map (·.1)))) (List.mem_map_of_mem (f := (·.2)) he)
  · obtain ⟨q, hq, -, howner, hhome, hsector, -, -, -, hout⟩ := hasks.request
    exact .inl ⟨q, hq, howner, hhome, hsector, hout⟩
  · exact .inr hheld

/-- The context in which GSTS reads its bytes: its writes have their names, and the core has dropped its copies. -/
def Ctx.scattering (c : Ctx) (qs : List Req) (n : Nat) (es : List Elem) : Ctx :=
  { c with s := ((c.cached es).takeIds n).2.dropL1 c.r.core (qs.map (·.sector)) }

/-- The writes that GSTS makes once its bytes have been read. -/
def Ctx.scatterReqs (c : Ctx) (es : List Elem) : List Req :=
  (sectorParts es).filterMap fun p => p.2.head?.map fun e => c.reqOf ((c.cached es).nextId + p.1) e (.write [] []) false c.o.h.toNat none

/-- What GSTS does once its checks have passed and nothing holds it. -/
def Ctx.gstsSent (c : Ctx) (m : MemMode) (ends : List (Place × Elem)) : State :=
  let es := ends.map (·.2)
  if ends.isEmpty then c.s
  else
    (c.scattering (c.scatterReqs es) (bySector es).length es).scratchReads (ends.map (·.1)) (elemSize m.fmt)
      (fun l => ((es.find? fun e => e.lane == l).map (·.x.pa)).getD 0) (.stores (elemSize m.fmt) (c.scatterReqs es))

theorem gsts_acts {ends : List (Place × Elem)} (h : s.Ready (.gsts o m) c) (hends : checkLanes (c.bothEnds m .store) c.lanes = .ok ends)
    (hlog : s.toLog c.v (Fetch.fresh (.word c.r)) (ends.map (·.2.x)) = []) : s.Acts (.gsts o m) c (c.gstsSent m ends) [] true := by
  have hlog' : s.toLog c.v (Fetch.fresh (.word c.r)) ((ends.map (·.2)).map (·.x)) = [] := by
    rw [List.map_map]
    exact hlog
  refine acts_of_body rfl (fun _ => rfl) h fun _ _ => ?_
  simp only [Ctx.gstsAct, hends, Ctx.logged_ready h hlog', Ctx.gstsSent]
  split <;> rfl

theorem Ctx.gstsSent_spec {ends : List (Place × Elem)} {e : Place × Elem} (he : e ∈ ends) :
    ∃ q, c.Works (c.gstsSent m ends) e.1 q ∧ q.out.isSome = true ∧ ∀ k, k < elemSize m.fmt → e.1.off + k ∈ q.reads := by
  have hplace : e.1 ∈ ends.map (·.1) := List.mem_map_of_mem he
  obtain ⟨-, hreads⟩ := Ctx.scratchReads_spec
    (c := c.scattering (c.scatterReqs (ends.map (·.2))) (bySector (ends.map (·.2))).length (ends.map (·.2))) (elemSize m.fmt) (fun l => (((ends.map (·.2)).find? fun e => e.lane == l).map (·.x.pa)).getD 0)
    (.stores (elemSize m.fmt) (c.scatterReqs (ends.map (·.2)))) (List.ne_nil_of_mem hplace)
  obtain ⟨q, ⟨hmem, howner, hteam⟩, hq⟩ := hreads e.1 hplace
  rw [Ctx.gstsSent, if_neg (by simpa using List.ne_nil_of_mem he)]
  exact ⟨q, ⟨hmem, howner, hteam⟩, hq⟩

end

end Sys2Proof.Machine
end

section
/-!
SUPPORT. BASE (05 R74, 12 R207): the page it finds, and the entry it may have to read.
-/
namespace Sys2Proof.Machine

variable {o : Ops} {s : State} {c : Ctx}

/-- A base register loaded with an address and the page it lies in, if any (R74). -/
def baseReg (va : Nat) (page : Option PageInfo) : BaseReg :=
  { vbase := BitVec.ofNat 64 va, page := page, limit := match page with | some p => p.size - va % p.size | none => 0 }

/-- The page of an address as BASE finds it. -/
def Ctx.pageOf (c : Ctx) (va : Nat) : Except Miss PageInfo :=
  c.s.pageVia (c.s.core c.r.core).tlb (Fetch.fresh (.word c.r)) c.v.cfg va

theorem Ctx.answers_issued {i : Instr} (h : s.Ready i c) : c.answers = Fetch.fresh (.word c.r) := by
  rw [Ctx.answers, Ctx.own_issued h, State.forget_answers]

/-- What BASE does with the page it finds. -/
def Ctx.loadBase (c : Ctx) (va : Nat) (page : Option PageInfo) : Act := .ok (c.s.modGroup c.r fun g => g.setBreg c.o.d.num (baseReg va page))

/-- BASE of an immediate zero finds no page. -/
theorem Ctx.baseAct_imm (hx : c.x ≠ 0) {v : BitVec 8} (ha : c.o.a = .imm v) : c.baseAct = c.loadBase 0 none := by
  simp only [Ctx.baseAct, Ctx.basePage, Ctx.any_of_ne hx, ha]
  rfl

/-- BASE of a pair: the page of its address where there is one, the read of an entry that is to come first. -/
theorem Ctx.baseAct_pair (h : s.Ready (.base o) c) (hx : c.x ≠ 0) (ha : ∀ v, c.o.a ≠ .imm v) : c.baseAct =
    if c.uniA64 ≥ 2 ^ 56 then c.loadBase c.uniA64 none
    else
      match c.pageOf c.uniA64 with
      | .ok p => c.loadBase c.uniA64 (some p)
      | .error (.fault _) => c.loadBase c.uniA64 none
      | .error (.walk pa) => c.askPhys pa := by
  cases hop : c.o.a with
  | imm v => exact absurd hop (ha v)
  | _ =>
    simp only [Ctx.baseAct, Ctx.basePage, Ctx.any_of_ne hx, hop, Ctx.answers_issued h]
    rfl

theorem base_acts {va : Nat} {page : Option PageInfo} (h : s.Ready (.base o) c) (hb : c.baseAct = c.loadBase va page) :
    s.Acts (.base o) c (s.modGroup c.r fun g => g.setBreg c.o.d.num (baseReg va page)) [] true :=
  acts_of_body rfl (fun _ => rfl) h fun _ hs => by
    rw [hb, Ctx.loadBase, hs]
    rfl

/-! ## The read of an entry -/

/-- A sector that nothing has been asked of is asked for, by its physical address. -/
theorem State.askPhys_fresh {k : Nat} {key : Errand} (hf : (s.core k).answers key = Fetch.fresh key) (vf grid : Nat) (owner : SplitRef) (pa : Nat) :
    ∃ t, s.askPhys k vf grid owner key [pa] = some t ∧ ∃ q ∈ t.reqs, q.va = physKey pa ∧ q.kind = .strongRead ∧ q.errand = some key := by
  have hnew : (([pa].map fun pa => pa / 32 * 32).eraseDups).filter (fun pa => !(Fetch.fresh key).knows (physKey pa)) = [pa / 32 * 32] := by
    simp [List.eraseDups_cons, Fetch.knows, Fetch.fresh]
  simp only [State.askPhys, hf, hnew]
  refine ⟨_, rfl, _, List.mem_append_right _ List.mem_cons_self, ?_, rfl, rfl⟩
  simp [physReq, physKey]

/-- BASE is held by the read of an entry that is to come first. -/
theorem base_holds {pa : Nat} (h : s.Ready (.base o) c) (hb : c.baseAct = c.askPhys pa) : ∃ u : State, s.Holds (.base o) c u [] ∧
    ∃ q ∈ u.reqs, q.va = physKey pa ∧ q.kind = .strongRead ∧ q.errand = some (.word c.r) := by
  obtain ⟨-, -, hi, -, -, -, -, -, -, -, hcap⟩ := ctx?_cases h.ctx
  obtain ⟨u, hu, hq⟩ := State.askPhys_fresh (s.forget_answers c.r.core (.word c.r)) c.team.vf c.team.grid c.r pa
  have hask : c.askPhys pa = .parkIn u (.asks (.base o) (c.snap [])) := by
    simp only [Ctx.askPhys, Ctx.own_issued h, hu, Ctx.heldAsking, hi, hcap]
  exact ⟨u, (issue_ready h _).trans (by rw [hb, hask]; rfl), hq⟩

/-- R74: BASE, by its operand and its page. -/
theorem base_spec (o : Ops) (s : State) (c : Ctx) (h : s.Ready (.base o) c) (hx : c.x ≠ 0) :
    let D := fun (b : BaseReg) => s.Acts (.base o) c (s.modGroup c.r fun g => g.setBreg c.o.d.num b) [] true
    let va := c.uniA64
    let page := s.pageVia (s.core c.r.core).tlb (Fetch.fresh (.word c.r)) c.v.cfg va
    ((∃ v, c.o.a = .imm v) → D (baseReg 0 none)) ∧
      ((∀ v, c.o.a ≠ .imm v) →
        (va ≥ 2 ^ 56 → D (baseReg va none)) ∧ (∀ k, page = .error (.fault k) → D (baseReg va none)) ∧
        (∀ p, va < 2 ^ 56 → page = .ok p → D (baseReg va (some p))) ∧
        (∀ pa, va < 2 ^ 56 → page = .error (.walk pa) → ∃ u : State, s.Holds (.base o) c u [] ∧
          ∃ q ∈ u.reqs, q.va = physKey pa ∧ q.kind = .strongRead ∧ q.errand = some (.word c.r))) := by
  intro D va page
  have hpage : c.pageOf c.uniA64 = page := by rw [Ctx.pageOf, (ctx?_cases h.ctx).2.1]
  refine ⟨fun ⟨v, hv⟩ => base_acts h (Ctx.baseAct_imm hx hv), fun ha => ?_⟩
  have hpair := Ctx.baseAct_pair h hx ha
  rw [hpage] at hpair
  refine ⟨fun hhigh => base_acts h (hpair.trans (if_pos hhigh)), fun k hk => base_acts h (hpair.trans ?_),
    fun p hlow hp => base_acts h (hpair.trans ?_), fun pa hlow hp => base_holds h (hpair.trans ?_)⟩
  · rw [hk]
    exact ite_self _
  · rw [if_neg (Nat.not_le.2 hlow), hp]
  · rw [if_neg (Nat.not_le.2 hlow), hp]

end Sys2Proof.Machine
end

section
/-!
SUPPORT. PREF and ICPREF (12 R209).
-/
namespace Sys2Proof.Machine

variable {o : Ops} {s : State} {c : Ctx} {sc : Scale} {disp : Int}

/-! ## PREF -/

/-- The elements of the lanes whose check succeeds. -/
def Ctx.prefElems (c : Ctx) (sc : Scale) (disp : Int) : List Elem := c.lanes.filterMap fun l => (c.prefElem sc disp l).toOption

/-- The sector under lease that a PREF's group finds in its core. -/
def Ctx.prefHit (c : Ctx) (g : List Elem) : Option L1Sector := g.head?.bind fun e =>
  if leasable e.x.home then (c.s.core c.r.core).l1Hit (c.s.coreTime c.r.core) (e.x.pa / 32) c.o.h.toNat else none

/-- The groups that a PREF asks for. -/
def Ctx.prefGroups (c : Ctx) (es : List Elem) : List (List Elem) := (bySector es).filter fun g => (c.prefHit g).isNone

/-- The state in which a PREF sends its requests. -/
def Ctx.prefState (c : Ctx) (es : List Elem) : State :=
  (c.port (bySector es).length (c.cached es)).modCore c.r.core fun k =>
    k.touchL1 c.o.h.toNat (((bySector es).filterMap c.prefHit).map (·.sector))

/-- The kind of its requests: with hint 0011 only the home is filled. -/
def prefKind (hint : Nat) : ReqKind := if hint = 3 then .pref else .read (hintLeases hint)

theorem prefKind_reads (hint : Nat) : (prefKind hint).writes = false := by
  unfold prefKind
  split <;> rfl

/-- The requests of a PREF. -/
def Ctx.prefReqs (c : Ctx) (es : List Elem) : List Req :=
  ((List.range (c.prefGroups es).length).zip (c.prefGroups es)).filterMap fun p => p.2.head?.map fun e =>
    c.reqOf ((c.prefState es).nextId + p.1) e (prefKind c.o.h.toNat) false c.o.h.toNat none

/-- What a PREF does where no lane's check waits for a page-table entry. -/
def Ctx.prefSent (c : Ctx) (es : List Elem) : State := ((c.prefState es).takeIds (c.prefGroups es).length).2.sendAll (c.prefReqs es)

theorem Ctx.prefAct_eq (hw : ∀ l e, l ∈ c.lanes → c.prefElem sc disp l = .error e → ∃ k, e.kind = .fault k) :
    c.prefAct sc disp = .ok (c.prefSent (c.prefElems sc disp)) := by
  simp only [Ctx.prefAct]
  split
  · rename_i pa hpa
    obtain ⟨l, hl, hwalk⟩ := List.exists_of_findSome?_eq_some hpa
    split at hwalk
    · rename_i herr
      obtain ⟨k, hk⟩ := hw l _ hl herr
      cases hk
    · cases hwalk
  · rfl

theorem Core.touchL1_same (k : Core) (hint : Nat) (sectors : List Nat) : (k.touchL1 hint sectors).teams = k.teams := by
  unfold Core.touchL1
  split <;> rfl

theorem Ctx.prefReqs_read {es : List Elem} {q : Req} (hq : q ∈ c.prefReqs es) : q.kind.writes = false := by
  obtain ⟨p, -, hp⟩ := List.mem_filterMap.1 hq
  obtain ⟨e, -, rfl⟩ := Option.map_eq_some_iff.1 hp
  exact prefKind_reads _

/-- A PREF writes no memory and no register. -/
theorem Ctx.prefSent_keeps (c : Ctx) (es : List Elem) : (c.prefSent es).dram = c.s.dram ∧ (c.prefSent es).group? c.r = c.s.group? c.r := by
  have hprep := (c.prepares_cached es).trans (c.prepares_port (bySector es).length _)
  have hdram : (c.prefState es).dram = c.s.dram := by rw [Ctx.prefState, State.modCore_dram, hprep.dram]
  have hgroup : (c.prefState es).group? c.r = c.s.group? c.r := by
    rw [Ctx.prefState, State.modCore_group? _ _ _ _ (Core.touchL1_same _ _ _), hprep.group?]
  obtain ⟨hsent, hcores⟩ := State.sendAll_reads ((c.prefState es).takeIds (c.prefGroups es).length).2 fun q hq => Ctx.prefReqs_read hq
  rw [State.takeIds_dram] at hsent
  rw [State.takeIds_cores] at hcores
  exact ⟨hsent.trans hdram, (State.group?_of_cores hcores _).trans hgroup⟩

/-- A PREF asks for each element's sector, or its core holds it under lease. -/
theorem Ctx.prefSent_asks {es : List Elem} {e : Elem} (he : e ∈ es) :
    c.Asks (c.prefSent es) e (prefKind c.o.h.toNat) false c.o.h.toNat false ∨
      ((c.s.core c.r.core).l1Hit (c.s.coreTime c.r.core) (e.x.pa / 32) c.o.h.toNat).isSome := by
  obtain ⟨_, x, rest, hg, -, hx⟩ := sectorParts_of_mem he
  cases hl : c.prefHit (x :: rest) with
  | some y =>
    right
    rw [Ctx.prefHit, List.head?_cons, Option.bind_some] at hl
    split at hl
    · rw [← hx.2, hl]
      rfl
    · cases hl
  | none =>
    obtain ⟨n, hn⟩ := exists_number_of_mem (List.mem_filter.2 ⟨(List.of_mem_zip hg).2, by rw [hl]; rfl⟩ : x :: rest ∈ c.prefGroups es)
    have hreq : c.reqOf ((c.prefState es).nextId + n) x (prefKind c.o.h.toNat) false c.o.h.toNat none ∈ c.prefReqs es :=
      List.mem_filterMap.2 ⟨_, hn, rfl⟩
    exact .inl (Ctx.asks_of_has hx (State.has_sendAll _ hreq))

/-- R209: PREF, where no lane's check waits for a page-table entry. -/
theorem pref_spec (o : Ops) (sc : Scale) (disp : BitVec 13) (s : State) (c : Ctx) (h : s.Ready (.pref o sc disp) c)
    (hw : ∀ l e, l ∈ c.lanes → c.prefElem sc disp.toInt l = .error e → ∃ k, e.kind = .fault k) :
    ∃ t : State, s.Acts (.pref o sc disp) c t [] true ∧ t.dram = s.dram ∧ t.group? c.r = s.group? c.r ∧
      ∀ l e, l ∈ c.lanes → c.atBase (c.group.breg c.o.a.num) (c.offset sc disp.toInt l) false 1 .load l = .ok e →
        (∃ q ∈ t.reqs, q.owner = c.r ∧ q.home = e.x.home ∧ q.sector = e.x.pa / 32 ∧ q.out = none) ∨
        ((s.core c.r.core).l1Hit (s.coreTime c.r.core) (e.x.pa / 32) c.o.h.toNat).isSome := by
  obtain ⟨hdram, hgroup⟩ := c.prefSent_keeps (c.prefElems sc disp.toInt)
  have hs : c.s = s := (ctx?_cases h.ctx).2.1
  refine ⟨c.prefSent (c.prefElems sc disp.toInt), acts_of_body rfl (fun _ => rfl) h fun _ _ => Ctx.prefAct_eq hw, hs ▸ hdram, hs ▸ hgroup,
    fun l e hl hle => ?_⟩
  have he : e ∈ c.prefElems sc disp.toInt := List.mem_filterMap.2 ⟨l, hl, congrArg Except.toOption hle⟩
  refine (Ctx.prefSent_asks he).imp (fun hasks => ?_) fun hheld => hs ▸ hheld
  obtain ⟨q, hq, -, howner, hhome, hsector, -, -, -, hout⟩ := hasks.request
  exact ⟨q, hq, howner, hhome, hsector, Option.isNone_iff_eq_none.1 (Option.isSome_eq_false_iff.1 hout)⟩

/-! ## ICPREF -/

/-- A core has been asked to fill a line of its instruction cache. -/
def State.AsksLine (s : State) (k vf line : Nat) : Prop := ∃ f ∈ (s.core k).fetches, f.key = .text vf line

theorem State.AsksLine.wants {k vf line : Nat} (h : s.AsksLine k vf line) : s.wantsLine k vf line = true := by
  obtain ⟨f, hf, hkey⟩ := h
  rw [State.wantsLine, Bool.or_eq_true]
  exact .inr (List.any_eq_true.2 ⟨f, hf, beq_iff_eq.2 hkey⟩)

theorem State.wantLine_fetches (s : State) (k vf line : Nat) : ((s.wantLine k vf line).core k).fetches =
    if (s.core k).fetches.any fun f => f.key == .text vf line then (s.core k).fetches
    else (s.core k).fetches ++ [Fetch.fresh (.text vf line)] := by
  rw [State.wantLine, State.modCore_core]
  split <;> rfl

theorem State.asksLine_wantLine (s : State) (k vf line : Nat) : (s.wantLine k vf line).AsksLine k vf line := by
  rw [State.AsksLine, State.wantLine_fetches]
  split
  · rename_i hany
    obtain ⟨f, hf, hkey⟩ := List.any_eq_true.1 hany
    exact ⟨f, hf, beq_iff_eq.1 hkey⟩
  · exact ⟨_, List.mem_append_right _ List.mem_cons_self, rfl⟩

theorem State.AsksLine.wantLine {k vf line : Nat} (h : s.AsksLine k vf line) (other : Nat) : (s.wantLine k vf other).AsksLine k vf line := by
  obtain ⟨f, hf, hkey⟩ := h
  rw [State.AsksLine, State.wantLine_fetches]
  split
  · exact ⟨f, hf, hkey⟩
  · exact ⟨f, List.mem_append_left _ hf, hkey⟩

/-- Lines asked for one after another are all asked for. -/
theorem State.asksLine_foldl (k vf : Nat) {line : Nat} (l : List Nat) {s : State} (h : s.AsksLine k vf line ∨ line ∈ l) :
    (l.foldl (fun s line => s.wantLine k vf line) s).AsksLine k vf line := by
  induction l generalizing s with
  | nil => exact h.elim id fun hmem => absurd hmem List.not_mem_nil
  | cons n l ih =>
    refine ih ?_
    obtain h | hmem := h
    · exact .inl (h.wantLine n)
    · obtain rfl | hmem := List.mem_cons.1 hmem
      · exact .inl (s.asksLine_wantLine k vf line)
      · exact .inr hmem

/-- Asking for lines changes nothing but what the core's instruction cache waits for. -/
theorem State.wantLines_keeps (s : State) (k vf : Nat) (l : List Nat) (r : SplitRef) :
    (l.foldl (fun s line => s.wantLine k vf line) s).dram = s.dram ∧ (l.foldl (fun s line => s.wantLine k vf line) s).reqs = s.reqs ∧
      (l.foldl (fun s line => s.wantLine k vf line) s).group? r = s.group? r := by
  refine List.foldlRecOn (motive := fun u : State => u.dram = s.dram ∧ u.reqs = s.reqs ∧ u.group? r = s.group? r) _ _ ⟨rfl, rfl, rfl⟩
    fun u ⟨hdram, hreqs, hgroup⟩ line _ => ⟨hdram, hreqs, ?_⟩
  rw [← hgroup]
  exact State.modCore_group? _ _ _ _ (by split <;> rfl)

/-- A line within the text that the core does not hold is one that ICPREF fetches (R209). -/
theorem Ctx.mem_prefLines {i : Nat} (hi : i < max 1 (min c.uniB 64)) (hw : 8 * (c.uniA / 8 + i) < c.team.kernel.words)
    (habs : (c.s.core c.r.core).icLine c.team.vf ((c.team.kernel.text + 128 * (c.uniA / 8 + i)) / 128) = none) :
    (c.team.kernel.text + 128 * (c.uniA / 8 + i)) / 128 ∈ c.prefLines := by
  have hline : c.team.kernel.line (8 * (c.uniA / 8 + i)) = (c.team.kernel.text + 128 * (c.uniA / 8 + i)) / 128 := by
    rw [Kernel.line]
    congr 2
    omega
  rw [← hline] at habs ⊢
  refine List.mem_filter.2 ⟨List.mem_map.2 ⟨c.uniA / 8 + i, List.mem_filter.2 ⟨List.mem_map.2 ⟨i, List.mem_range.2 (by omega), rfl⟩,
    decide_eq_true hw⟩, rfl⟩, by rw [habs]; rfl⟩

/-- R209: ICPREF. -/
theorem icpref_spec (o : Ops) (s : State) (c : Ctx) (h : s.Ready (.icpref o) c) :
    ∃ t : State, s.Acts (.icpref o) c t [] true ∧ t.dram = s.dram ∧ t.reqs = s.reqs ∧ t.group? c.r = s.group? c.r ∧
      ∀ i, c.x ≠ 0 → i < max 1 (min c.uniB 64) → 8 * (c.uniA / 8 + i) < c.team.kernel.words →
        let line := (c.team.kernel.text + 128 * (c.uniA / 8 + i)) / 128
        (s.core c.r.core).icLine c.team.vf line = none → t.wantsLine c.r.core c.team.vf line = true := by
  by_cases hx : c.x = 0
  · exact ⟨s, acts_idle_once rfl (fun _ => rfl) h hx, rfl, rfl, rfl, fun i hne => absurd hx hne⟩
  · have hs : c.s = s := (ctx?_cases h.ctx).2.1
    obtain ⟨hdram, hreqs, hgroup⟩ := s.wantLines_keeps c.r.core c.team.vf c.prefLines c.r
    refine ⟨c.prefLines.foldl (fun s line => s.wantLine c.r.core c.team.vf line) s, acts_of_body rfl (fun _ => rfl) h fun _ _ => ?_, hdram, hreqs,
      hgroup, fun i _ hi hw habs => (State.asksLine_foldl _ _ _ (.inr (Ctx.mem_prefLines hi hw (hs ▸ habs)))).wants⟩
    rw [Ctx.any_of_ne hx, hs]
    rfl

end Sys2Proof.Machine

open Sys2Proof Sys2Proof.Machine

/-- Settles O17: the scratchpad accesses by the operations and requests they leave under way; BASE by its page; PREF and ICPREF by what they
ask for. -/
theorem scratchpadAccesses : Obligations.ScratchpadAccesses := by
  unfold Obligations.ScratchpadAccesses
  refine ⟨⟨?_, ?_, ?_, ?_, ?_⟩, base_spec, pref_spec, icpref_spec⟩
  · intro o m s c ps h _ hps
    obtain ⟨hdram, hops⟩ := c.ldsSent_spec m ps
    refine ⟨_, lds_acts h hps, hdram.trans (congrArg State.dram (ctx?_cases h.ctx).2.1), fun p hp => ?_⟩
    obtain ⟨q, ⟨hq, howner, hteam⟩, hout, hreads⟩ := hops p hp
    exact ⟨q, hq, howner, hteam, hout, hreads⟩
  · exact fun o m s c ps h hps => ⟨_, sts_acts h hps, (c.scratchWrites_dram _ _).trans (congrArg State.dram (ctx?_cases h.ctx).2.1),
      fun p hp => Ctx.scratchWrites_spec _ _ hp⟩
  · exact fun o m s c ps h _ hps => ⟨_, atoms_acts h hps, (c.atomsSent_dram m ps).trans (congrArg State.dram (ctx?_cases h.ctx).2.1),
      fun p hp => Ctx.atomsSent_spec hp⟩
  · intro o m s c ends h _ hends
    have hs : c.s = s := (ctx?_cases h.ctx).2.1
    exact ⟨_, glds_acts h hends, fun e he => hs ▸ Ctx.gldsSent_spec he⟩
  · intro o m s c ends h _ hends hlog
    refine ⟨_, gsts_acts h hends hlog, fun e he => ?_⟩
    obtain ⟨q, ⟨hq, howner, hteam⟩, hout, hreads⟩ := Ctx.gstsSent_spec (c := c) (m := m) he
    exact ⟨q, hq, howner, hteam, hout, hreads⟩
end
